-- ==== Sys2Proof/Word.lean ====
section
/-! DEFINITION. The word types of the Birras BX-960 and the shape of a sparse map. -/

namespace Sys2Proof

/-- A vector register of one lane (R20), a mask of 32 lanes (R27), a 32-bit register (R461). -/
abbrev Word := BitVec 32

/-- A scalar register (R24), a 64-bit register of a page (R470). -/
abbrev DWord := BitVec 64

/-- A byte of memory. -/
abbrev Byte := BitVec 8

/-- A sparse map: keys strictly rising, an unlisted key reads as a default that its reader names. -/
abbrev NMap (β : Type) := List (Nat × β)

end Sys2Proof
end

