-- ==== Sys2Proof/Syntax.lean ====
section
/-! DEFINITION. The commands of the block: one constructor of `Instr` per row of the table of operations and events.
The operands of a lane instruction are the fields of its word (R68, R83, R93, R100, R101, R116); the operands of an
event name the unit it happens at and carry what comes from outside the module. -/

namespace Sys2Proof

/-- A resident group: its core and its slot, scheduler × 64 + slot (R62). -/
structure GroupRef where
  core : Nat
  slot : Nat
  deriving DecidableEq, Repr

/-- The fields of format R (R68). `wide` is the second word, present when W = 1 (R64, R70). -/
structure FmtR where
  pred : BitVec 3
  dst  : BitVec 8
  a    : BitVec 8
  b    : BitVec 8
  c    : BitVec 8
  typ  : BitVec 4
  sat  : Bool
  rnd  : BitVec 3
  ka   : BitVec 2
  kb   : BitVec 2
  kc   : BitVec 2
  rsv  : BitVec 2
  wide : Option DWord
  deriving DecidableEq, Repr

/-- The fields of format M (R83). -/
structure FmtM where
  pred    : BitVec 3
  data    : BitVec 8
  voff    : BitVec 8
  sbase   : BitVec 6
  nobase  : Bool
  wideoff : Bool
  size    : BitVec 3
  space   : BitVec 2
  hint    : BitVec 2
  sign    : Bool
  imm     : BitVec 21
  wide    : Option DWord
  deriving DecidableEq, Repr

/-- The fields of format A (R93) less AOP, which the row gives; `w` is bit [63]. -/
structure FmtA where
  w       : Bool
  pred    : BitVec 3
  dst     : BitVec 8
  voff    : BitVec 8
  sbase   : BitVec 6
  nobase  : Bool
  wideoff : Bool
  src     : BitVec 8
  cmp     : BitVec 8
  srck    : Bool
  cmpk    : Bool
  space   : BitVec 2
  imm     : BitVec 5
  deriving DecidableEq, Repr

/-- The fields of format F (R100). -/
structure FmtF where
  w     : Bool
  pred  : BitVec 3
  scope : BitVec 2
  rsv   : BitVec 51
  deriving DecidableEq, Repr

/-- The fields of format B (R101) less SUB, which the row gives. -/
structure FmtB where
  w      : Bool
  pred   : BitVec 3
  k      : BitVec 5
  rsv    : BitVec 11
  target : Word
  deriving DecidableEq, Repr

/-- The fields of format X (R116) less SUB; `wide` is the second word of R117. -/
structure FmtX where
  pred    : BitVec 3
  vdesc   : BitVec 8
  sbase   : BitVec 6
  sig     : Bool
  tok     : BitVec 4
  gather  : Bool
  sscale  : BitVec 6
  noscale : Bool
  rsv     : BitVec 21
  wide    : Option DWord
  deriving DecidableEq, Repr

/-- A cache with an ENABLE and INV register: a core's L1 or an L2 slice (R248). -/
inductive CacheUnit where
  | l1 (core : Nat)
  | l2 (slice : Nat)
  deriving DecidableEq, Repr

/-- What the link and the check code of one HBM access report (R361–R363): the number of failed transfers
(five exhaust it) and the state of the sector's code. -/
inductive EccState where
  | clean | corrected | uncorrectable
  deriving DecidableEq, Repr

/-- What the check code of an SRAM reports where it is read (R160, R236, R253, R254): nothing, a corrected bit, an
uncorrectable word or line, a tag parity error. -/
inductive Upset where
  | none | corrected | uncorrectable | tag
  deriving DecidableEq, Repr

/-- What waits for room in a port's egress buffer (R668): an entry of the core's merging buffer, a lane's atomic, the
tile of a mover. -/
inductive EgressUnit where
  | store (entry : Nat)
  | atom  (id : Nat)
  | tile  (mover : Nat)
  deriving DecidableEq, Repr

structure HbmOutcome where
  failed : Nat
  lane   : Nat
  ecc    : EccState
  deriving DecidableEq, Repr

/-- The header of a fabric block (R395) with the local port it arrived on. -/
structure BlockHdr where
  port    : Nat
  cls     : BitVec 2
  shadow  : Bool
  src     : Nat
  dst     : Nat
  session : Nat
  epoch   : Nat
  psn     : Nat
  ack     : Nat
  addr    : Nat
  len     : Nat
  tag     : Nat
  req     : Nat
  arg     : Nat
  credit  : Nat
  deriving DecidableEq, Repr

/-- One entry of an ATOMIC block (R396). -/
structure AtomEntry where
  off  : Nat
  lane : Nat
  opnd : DWord
  cmp  : DWord
  deriving DecidableEq, Repr

/-- A frame pair named by its entry of the commit overlay table, shadow offset / 64 KiB (R289, R328), and whether the
claim is write-whole (R291, R294), and the node and the tag of the command it is for (R290, R310). -/
structure ClaimReq where
  pair  : Nat
  whole : Bool
  owner : Nat
  tag   : Nat
  deriving DecidableEq, Repr

/-- A frame-pair claim (R291): node, entry of the commit overlay table there (shadow offset / 64 KiB, R328), write-whole. -/
structure Claim where
  node  : Nat
  pair  : Nat
  whole : Bool
  deriving DecidableEq, Repr

/-- One invalidation entry as it was read from the ring (R341). -/
structure InvEntry where
  kind     : BitVec 8
  rsv1     : BitVec 8
  ctx      : Nat
  pages    : Nat
  va       : Nat
  rsv2     : Nat
  deriving DecidableEq, Repr

/-- An announcement (R391, R392): the identity public key, the boot nonce, the signature that binds them, and the path by which it comes:
the sender's port, the plane of that port, the receiver's port. -/
structure Announce where
  key     : List Byte
  nonce   : Nat
  sig     : Nat
  port    : Nat
  plane   : Nat
  reached : Nat
  deriving DecidableEq, Repr

/-- One entry of a topology table as read (R388). `rsv` is true where a reserved field of the entry is not 0. -/
structure TopoEntry where
  node    : Nat
  pri     : BitVec 8
  alt     : BitVec 8
  keyhash : Nat
  rsv     : Bool
  deriving DecidableEq, Repr

/-- A topology table as read through the aperture (R387). -/
structure TopoTable where
  version  : Nat
  count    : Nat
  self     : Nat
  timeRoot : Nat
  planes   : List (BitVec 8)
  rsv      : Bool
  entries  : List TopoEntry
  hash     : Nat
  deriving DecidableEq, Repr

/-- A calendar entry (R437). -/
structure CalSlot where
  offset : Nat
  dst    : Nat
  valid  : Bool
  rsv    : Bool
  budget : Nat
  deriving DecidableEq, Repr

/-- A calendar image as the loader reads it (R436): the slots of each port named in PORTMASK, in ascending port order. -/
structure CalImage where
  version  : Nat
  frameNs  : Nat
  portmask : BitVec 16
  rsv      : Bool
  slots    : List (List CalSlot)
  deriving DecidableEq, Repr

/-- One wait of a descriptor (R498). -/
structure WaitField where
  valid        : Bool
  ignorePoison : Bool
  fence        : Nat
  rsv          : Bool
  value        : Nat
  deriving DecidableEq, Repr

/-- One range entry (R499). -/
structure RangeField where
  va     : Nat
  length : Nat
  w      : Bool
  whole  : Bool
  rsv    : Bool
  deriving DecidableEq, Repr

/-- A descriptor as it stands in ring slots (R498, R499). `rsv` is true where a reserved field is not 0.
`saveCount` is COUNT of the save-point table that SAVEPT_VA names, read at intake (R526). -/
structure Descriptor where
  cmdId       : DWord
  codeVa      : Nat
  argVa       : DWord
  saveptVa    : Nat
  threads     : Nat
  scratch     : Nat
  vregs       : Nat
  setSize     : Nat
  maxCores    : Nat
  isMatrix    : Bool
  isGang      : Bool
  notBefore   : Nat
  gangId      : Nat
  gangMembers : Nat
  gangLeader  : Nat
  gangWait    : Nat
  sigValid    : Bool
  sigFence    : Nat
  sigValue    : Nat
  waits       : List WaitField
  ranges      : List RangeField
  rsv         : Bool
  saveCount   : Nat
  deriving DecidableEq, Repr

/-- An admission entry (R531). -/
structure Admission where
  cmdId    : DWord
  prio     : Nat
  seq      : Nat
  deadline : Nat
  kvList   : Nat
  kvPages  : Nat
  prompt   : Nat
  maxLen   : Nat
  rsv      : Bool
  deriving DecidableEq, Repr

/-- What one slot of a queue ring holds when the intake reads it: a command descriptor or, on a model's queue, an
admission entry of operation 1 ADMIT, 2 PAUSE, 3 RESUME, 4 RELEASE (R531). -/
inductive RingEntry where
  | command (d : Descriptor)
  | admission (op : Nat) (e : Admission)
  deriving DecidableEq, Repr

/-- A firmware request's frame (R482): the tenant whose queue pair carries it, REQ_ID, RESP_ADDR, and whether a byte the
operation does not name is nonzero. -/
structure Request where
  tenant : Nat
  reqId  : Nat
  resp   : Nat
  rsv    : Bool
  deriving DecidableEq, Repr

/-- A grant of remote extents (R486): the kind and the base of the range at the owner. -/
structure MapGrant where
  ok     : Bool
  reason : Nat
  base   : Nat
  deriving DecidableEq, Repr

/-- What Bridle measures at an evaluation (R549 preamble): input power averages in W, and for each domain the current in
tenths of an ampere and the hottest core in °C; what its model takes from the activity counts (R550, R559): each domain's
load in thousandths of full array load, and the power drawn outside the domains in W. -/
structure BridleSense where
  avg10us : Nat
  avg1ms  : Nat
  current : List Nat
  temp    : List Nat
  load    : List Nat
  other   : Nat
  deriving DecidableEq, Repr

/-- The part descriptor as its bytes give it (R580). `sigOk` says that the key's hash and the signature pass R581, `hash` is the
SHA3-256 of its bytes 0x000–0x09F (R587). -/
structure PartDesc where
  magicOk   : Bool
  descVer   : Nat
  sigOk     : Bool
  idHash    : Nat
  part      : Nat
  dieRev    : Nat
  features  : Nat
  coreMask  : Nat
  stackMask : Nat
  portMask  : Nat
  maxMhz    : Nat
  hostMac   : Nat
  hash      : Nat
  deriving DecidableEq, Repr

/-- A firmware image as its bytes give it (R572). `valid` stands for MAGIC, ranges, key hash, signature and chunk hashes together,
`measure` is its measurement, `bytes` header and body. -/
structure FwImage where
  valid      : Bool
  fwVer      : Nat
  length     : Nat
  handoffMin : Nat
  handoffVer : Nat
  measure    : Nat
  bytes      : List Byte
  deriving DecidableEq, Repr

/-- What IEEE 1588 brings from the grandmaster in one Announce (R429): whether the best master clock algorithm accepts it. -/
structure PtpAnnounce where
  domain   : Nat
  accepted : Bool
  deriving DecidableEq, Repr

/-- The commands. -/
inductive Instr where
  -- lane instructions
  | illegalInstruction (g : GroupRef) (word : DWord)
  | addI (g : GroupRef) (f : FmtR)
  | subI (g : GroupRef) (f : FmtR)
  | mulI (g : GroupRef) (f : FmtR)
  | madI (g : GroupRef) (f : FmtR)
  | minI (g : GroupRef) (f : FmtR)
  | maxI (g : GroupRef) (f : FmtR)
  | and (g : GroupRef) (f : FmtR)
  | or (g : GroupRef) (f : FmtR)
  | xor (g : GroupRef) (f : FmtR)
  | andn (g : GroupRef) (f : FmtR)
  | shl (g : GroupRef) (f : FmtR)
  | shr (g : GroupRef) (f : FmtR)
  | sar (g : GroupRef) (f : FmtR)
  | ones (g : GroupRef) (f : FmtR)
  | bitrev (g : GroupRef) (f : FmtR)
  | lzc (g : GroupRef) (f : FmtR)
  | addF (g : GroupRef) (f : FmtR)
  | subF (g : GroupRef) (f : FmtR)
  | mulF (g : GroupRef) (f : FmtR)
  | madF (g : GroupRef) (f : FmtR)
  | minF (g : GroupRef) (f : FmtR)
  | maxF (g : GroupRef) (f : FmtR)
  | minnumF (g : GroupRef) (f : FmtR)
  | maxnumF (g : GroupRef) (f : FmtR)
  | recip (g : GroupRef) (f : FmtR)
  | rsqrt (g : GroupRef) (f : FmtR)
  | exp2 (g : GroupRef) (f : FmtR)
  | log2 (g : GroupRef) (f : FmtR)
  | sin (g : GroupRef) (f : FmtR)
  | cos (g : GroupRef) (f : FmtR)
  | cmpEq (g : GroupRef) (f : FmtR)
  | cmpNe (g : GroupRef) (f : FmtR)
  | cmpLt (g : GroupRef) (f : FmtR)
  | cmpLe (g : GroupRef) (f : FmtR)
  | cmpGt (g : GroupRef) (f : FmtR)
  | cmpGe (g : GroupRef) (f : FmtR)
  | pick (g : GroupRef) (f : FmtR)
  | pcombAnd (g : GroupRef) (f : FmtR)
  | pcombOr (g : GroupRef) (f : FmtR)
  | pcombXor (g : GroupRef) (f : FmtR)
  | pcombAndn (g : GroupRef) (f : FmtR)
  | pcombNot (g : GroupRef) (f : FmtR)
  | xlaneAt (g : GroupRef) (f : FmtR)
  | xlaneUp (g : GroupRef) (f : FmtR)
  | xlaneDn (g : GroupRef) (f : FmtR)
  | xlaneFlip (g : GroupRef) (f : FmtR)
  | pmask (g : GroupRef) (f : FmtR)
  | gredAdd (g : GroupRef) (f : FmtR)
  | gredMin (g : GroupRef) (f : FmtR)
  | gredMax (g : GroupRef) (f : FmtR)
  | addS (g : GroupRef) (f : FmtR)
  | subS (g : GroupRef) (f : FmtR)
  | mulS (g : GroupRef) (f : FmtR)
  | shlS (g : GroupRef) (f : FmtR)
  | shrS (g : GroupRef) (f : FmtR)
  | sarS (g : GroupRef) (f : FmtR)
  | andS (g : GroupRef) (f : FmtR)
  | orS (g : GroupRef) (f : FmtR)
  | xorS (g : GroupRef) (f : FmtR)
  | movVs (g : GroupRef) (f : FmtR)
  | movSv (g : GroupRef) (f : FmtR)
  /-- `src` is SUB, the source code of R109; TYPE holds the destination code. -/
  | cvt (g : GroupRef) (src : BitVec 5) (f : FmtR)
  | cvtBlkEnc (g : GroupRef) (f : FmtR)
  | cvtBlkDec (g : GroupRef) (f : FmtR)
  | setmode (g : GroupRef) (f : FmtR)
  | getmode (g : GroupRef) (f : FmtR)
  | ld (g : GroupRef) (f : FmtM)
  | st (g : GroupRef) (f : FmtM)
  | prefetch (g : GroupRef) (f : FmtM)
  | ldsc (g : GroupRef) (f : FmtM)
  | atomAddI32 (g : GroupRef) (f : FmtA)
  | atomAddI64 (g : GroupRef) (f : FmtA)
  | atomAddF32 (g : GroupRef) (f : FmtA)
  | atomAddF16x2 (g : GroupRef) (f : FmtA)
  | atomMinI32 (g : GroupRef) (f : FmtA)
  | atomMaxI32 (g : GroupRef) (f : FmtA)
  | atomMinF32 (g : GroupRef) (f : FmtA)
  | atomMaxF32 (g : GroupRef) (f : FmtA)
  | atomSwap32 (g : GroupRef) (f : FmtA)
  | atomSwap64 (g : GroupRef) (f : FmtA)
  | atomCas64 (g : GroupRef) (f : FmtA)
  | fence (g : GroupRef) (f : FmtF)
  | bra (g : GroupRef) (f : FmtB)
  | braAny (g : GroupRef) (f : FmtB)
  | braAll (g : GroupRef) (f : FmtB)
  | pushm (g : GroupRef) (f : FmtB)
  | elsem (g : GroupRef) (f : FmtB)
  | popm (g : GroupRef) (f : FmtB)
  | andm (g : GroupRef) (f : FmtB)
  | exit (g : GroupRef) (f : FmtB)
  | serBegin (g : GroupRef) (f : FmtB)
  | serEnd (g : GroupRef) (f : FmtB)
  | call (g : GroupRef) (f : FmtB)
  | ret (g : GroupRef) (f : FmtB)
  | barArrive (g : GroupRef) (f : FmtB)
  | barWait (g : GroupRef) (f : FmtB)
  | barSync (g : GroupRef) (f : FmtB)
  | savept (g : GroupRef) (f : FmtB)
  | mxLdw (g : GroupRef) (f : FmtX)
  | mxLdwReorient (g : GroupRef) (f : FmtX)
  | mxSwap (g : GroupRef) (f : FmtX)
  | mxStream (g : GroupRef) (f : FmtX)
  | mxDrain (g : GroupRef) (f : FmtX)
  | mxWaitQ (g : GroupRef) (f : FmtX)
  | mxWaitG (g : GroupRef) (f : FmtX)
  -- events of a core
  | branchPenaltyEnd (g : GroupRef)
  | loadDataReturn (g : GroupRef) (load : Nat) (u : Upset)
  | atomReturn (g : GroupRef) (atom : Nat)
  | fenceRelease (g : GroupRef)
  | groupSlotFree (g : GroupRef)
  | scratchAllocate (core cmd : Nat)
  | groupLaunch (core cmd : Nat)
  | scratchFree (core cmd : Nat)
  | scratchAccessPromote (core bank : Nat)
  | ldwStart (core : Nat)
  | ldwComplete (core : Nat) (u : Upset)
  | swapMarkerEnter (core : Nat)
  | swapComplete (core : Nat)
  | streamStart (core : Nat) (u : Upset)
  | accRowWrite (core : Nat) (u : Upset)
  | streamComplete (core : Nat)
  | arrayIdleTimeout (core : Nat)
  | rampEnd (core : Nat)
  | waitQRelease (core : Nat)
  | drainDispatch (core : Nat) (u : Upset)
  | drainRow (core : Nat) (u : Upset)
  | drainComplete (core : Nat)
  | mergeEntryTimeout (core entry : Nat) (u : Upset)
  | egressAccept (core : Nat) (unit : EgressUnit) (u : Upset)
  /-- `data` is the RDMA READ's data where the line lies in host memory. -/
  | l1Fill (core req : Nat) (data : List Byte)
  | l2Lookup (req : Nat) (u : Upset)
  | l2MbufTimeout (slice line : Nat) (u : Upset)
  | cacheDisable (tenant : Nat) (u : CacheUnit)
  | cacheDrainEnd (u : CacheUnit)
  | cacheInvalidate (tenant : Nat) (u : CacheUnit)
  | cacheInvalidateDone (u : CacheUnit)
  | cacheEnable (tenant : Nat) (u : CacheUnit)
  | l2cKeepClear (tenant slice : Nat) (value : Word)
  | moverDispatch (core : Nat)
  | moverTileAccepted (core mover : Nat) (u : Upset)
  -- commit and gangs
  | pairAcquire (cmd : Nat) (h : Option BlockHdr)
  /-- `outs` are the sectors of the pair whose copy meets an error, with what is reported of them (R361, R363). -/
  | frameCopyDone (pair : Nat) (outs : List (Nat × HbmOutcome))
  | commitPoint (cmd : Nat)
  | commitAck (h : BlockHdr)
  | commitAckTimeout (tag node : Nat)
  | commitRecordExpire (tag node : Nat)
  | heldPairExpire (node : Nat)
  | gangMemberReady (cmd : Nat)
  | gangWaitExpire (gang : Nat)
  | gangMemoryExpire (gang : Nat)
  -- intake, dispatch, translation
  /-- `data` is what the RDMA READ of a host ring brings; a ring in device memory holds its own. -/
  | descriptorReadReturn (queue : Nat) (data : List Byte)
  | doorbell (tenant addr len tail cqHead : Nat)
  | descriptorTake (queue : Nat)
  | pretranslateDone (cmd : Nat)
  | dispatch (partition : Nat)
  | walkEntryReturn (walk : Nat) (entry : DWord)
  | walkTimeout (walk : Nat)
  | faultRecordPost
  | xltFringHeadWrite (tenant : Nat) (value : Word)
  | xltFresp (tenant : Nat) (value : DWord)
  | faultSvcTimeout (seq : Nat)
  | xltIringDb (tenant : Nat) (value : Word)
  | invalidationEntry (e : InvEntry)
  | xltIringDone
  | xltFmtWrite (tenant : Nat) (value : DWord)
  -- HBM
  | channelAccess (stack channel : Nat) (o : HbmOutcome)
  | reducerRequest (stack channel : Nat) (o : HbmOutcome)
  | reductionResult (req : Nat)
  /-- `op` is 0 ADD.I64, 1 SWAP.64, 2 CAS.64, 3 AND.64, 4 OR.64, 5 MAX.U64, 6 CAS.128, in the order of R375. -/
  | l2Atomic (op addr : Nat) (opnd cmp : BitVec 128) (ecc : EccState)
  | hbmTemperatureRead (stack temp : Nat)
  | spareSwitchStart (stack channel lane : Nat)
  | spareSwitchDone (stack channel : Nat)
  /-- `lane` is the lane whose failure the retraining finds, if any. -/
  | channelResetDone (stack channel : Nat) (ok : Bool) (lane : Option Nat)
  | patrolScrub (stack : Nat) (ecc : EccState)
  -- fabric
  | topoLoad (tenant : Nat) (value : Word)
  | topoLoadDone (image : Option (List Byte))
  | peerVerified (node : Nat) (ok : Bool)
  | ack (h : BlockHdr)
  | nak (h : BlockHdr)
  | heartbeat (h : BlockHdr)
  | timeRequest (h : BlockHdr) (seq t1 creq : Nat)
  | timeResponse (h : BlockHdr) (state seq t2 t3 creq crsp : Nat)
  | write (h : BlockHdr) (data : List Byte)
  | writeMasked (h : BlockHdr) (mask : BitVec 128) (data : List Byte)
  | reduce (h : BlockHdr) (data : List Byte)
  | atomic (h : BlockHdr) (entries : List AtomEntry)
  | read (h : BlockHdr)
  | readResp (h : BlockHdr) (data : List Byte)
  | atomicResp (h : BlockHdr) (olds : List DWord)
  | refused (h : BlockHdr)
  | reservedBlockType (h : BlockHdr) (typ : BitVec 8)
  | announcement (h : BlockHdr) (a : Announce)
  | reset (h : BlockHdr)
  | rejoin (h : BlockHdr) (announceHash topoHash : Nat)
  | rejoinAck (h : BlockHdr) (discarded : List Nat)
  | rejoinEnd (h : BlockHdr)
  | reroute (h : BlockHdr)
  | claim (h : BlockHdr) (c : ClaimReq)
  | commit (h : BlockHdr) (lastPsn : Nat)
  | discard (h : BlockHdr) (lastPsn : Nat)
  | mapRequest (h : BlockHdr) (tenant ctx : Nat) (handle : DWord) (offset length kind : Nat) (w : Bool)
  | mapAnswer (h : BlockHdr) (grant : MapGrant)
  | mapRelease (h : BlockHdr) (ctx : Nat) (handle : DWord)
  | gangArrived (h : BlockHdr) (gang members leader wait : Nat) (claims : List Claim) (chans : List (Nat × Nat))
  | gangStart (h : BlockHdr) (gang : Nat) (chans : List (Nat × Nat))
  | gangReady (h : BlockHdr) (gang : Nat)
  | gangGo (h : BlockHdr) (gang : Nat)
  | ackTimer (node : Nat)
  | resendTimer (node : Nat) (ctl : Bool)
  | heartbeatTimer (node : Nat)
  | peerSilenceTimeout (node : Nat)
  | pathSilenceTimeout (node : Nat)
  | requestDeadline (node req : Nat)
  | pairIdleTimeout (node : Nat)
  | rerouteDrainEnd (node : Nat)
  | primaryReturn (node : Nat)
  | peerRejoinTimeout (cmd : Nat)
  | portLinkDown (port : Nat)
  | portTrained (port : Nat) (lanes : BitVec 8)
  -- fabric time
  | timeRequestTimer
  | timeExchangeTimeout
  | sourceTimeout
  | holdoverLimit
  | ptpAnnounce (a : PtpAnnounce)
  | ptpSync (offset : Int)
  | gmWaitExpire
  | gmLost
  | ftmNowRead (tenant : Nat)
  | calendarInstall (tenant : Nat) (value : Word)
  /-- `image` is what the loader reads where the image lies outside local memory, none where it cannot be read. -/
  | calendarLoadDone (image : Option (List Byte))
  | calendarSwitch
  | slotStart (port : Nat)
  | accountingSnapshot
  | notBeforeRelease (cmd : Nat)
  -- serving and scheduling
  | seqStepRelease (templates : List (Nat × Descriptor × Descriptor))
  | seqStepEnd (model : Nat) (results : List (Nat × Nat))
  | seqAdmit (queue : Nat)
  | pause (queue : Nat)
  | resume (queue : Nat)
  | release (queue : Nat)
  | seqModelEnable (tenant : Nat) (value : Word) (templates : Option (Descriptor × Descriptor))
  | preempt (victim waiting : Nat)
  | sliceExpire (cmd : Nat)
  | contextSaveDone (cmd : Nat)
  | markedFullFallback (cmd : Nat)
  | markTimeout (cmd : Nat)
  | contextRestore (cmd : Nat) (cores : List Nat)
  | schSavepoolWrite (tenant : Nat) (value : Word)
  | energyCalibration (meter unattr : Nat) (shares : List (Nat × Nat))
  -- Bridle
  | bridleEvaluation (sense : BridleSense)
  | fastLimiter (sense : BridleSense)
  | thermalCritical (core temp : Nat)
  | memThermalCeilingStep
  | governorPreramp (instant : Nat) (domains : BitVec 16)
  | prerampHoldEnd
  | idleLowering (domain : Nat)
  -- host port
  | cmReq (tenant srcIp : Nat) (key : DWord)
  | cmDreq (tenant : Nat)
  | connectionGraceExpire (tenant : Nat)
  | registerWrite (tenant addr size : Nat) (value : DWord)
  | pgApply (tenant page : Nat)
  | pgHalt (tenant page : Nat) (on : Bool)
  | haltReached (page : Nat)
  | pgResetReq (tenant page : Nat)
  | pgEnable (tenant page : Nat) (on : Bool)
  | coreMstkHwmWrite (tenant core : Nat) (value : Word)
  | coreFaultInfoClear (tenant core : Nat) (value : Word)
  | hptMgmtipWrite (tenant : Nat) (value : Word)
  | hptIpv4Write (tenant : Nat) (value : Word)
  | emuAccessTimeout (access : Nat)
  -- requests to firmware
  | createTenant (r : Request) (tenant : Nat) (key : DWord) (quota mirror grace : Nat)
  | destroyTenant (r : Request) (tenant : Nat)
  | createContext (r : Request) (hostRoot : Nat)
  | teardownContext (r : Request) (ctx : Nat)
  | teardownFinish (ctx : Nat)
  | createQueue (r : Request) (ctx cls log2Slots log2Cq : Nat) (ring cq : DWord)
  | destroyQueue (r : Request) (queue : Nat)
  | queueFree (queue : Nat)
  | createFence (r : Request) (ctx mirror initial : Nat)
  | destroyFence (r : Request) (fence : Nat)
  | fenceSlotFree (fence : Nat)
  | signalFence (r : Request) (fence value : Nat)
  | poisonFence (r : Request) (fence code : Nat)
  | shareFence (r : Request) (fence tenant : Nat)
  | createObject (r : Request) (kind size : Nat)
  | mapObject (r : Request) (handle : DWord) (ctx w nx va offset length : Nat)
  | unmap (r : Request) (ctx va length : Nat)
  | unmapTakesEffect (ctx va : Nat)
  | mapRemote (r : Request) (ctx node kind w nx va : Nat) (remote : DWord) (length offset : Nat)
  | mapRemoteTimeout (node : Nat)
  | shareObject (r : Request) (handle : DWord) (tenant : Nat)
  | refcountRead (tenant index count : Nat)
  | refcountFetchAdd (tenant index : Nat) (add : DWord)
  | refcountCas (tenant index : Nat)
  | refcountWrite (tenant index : Nat)
  | objectRdmaRead (tenant handle offset length : Nat)
  | objectRdmaWrite (tenant handle offset : Nat) (data : List Byte)
  /-- `cas` selects Compare-and-Swap. -/
  | objectRdmaAtomic (tenant handle offset : Nat) (cas : Bool) (opnd cmp : DWord)
  | reclaimDone (handle : Nat)
  | hostRdmaAck (id : Nat) (ok : Bool) (old : DWord)
  -- start-up and firmware
  | coldBoot
  | railSequenceTimeout (rail : Nat)
  | bootRomStart (pufOk : Bool)
  /-- `image` is what the host has written to the boot window from offset 0 on (R575). -/
  | bootWindowRing (image : List Byte)
  | firmwareStart (coresFailed stacksFailed : Nat) (lanes : List (Nat × Nat × Nat)) (randomOk sramOk : Bool) (epoch idHash : Nat)
  | attestationGo (tenant : Nat) (value : Word)
  | attestationSigned (ok : Bool)
  | fwuStage (tenant : Nat) (value : Word)
  /-- `image` is what stands at FWU_SRC, none where it cannot be read. -/
  | fwuFetchDone (image : Option (List Byte))
  | fwuVerifyDone
  | fwuCommit (tenant : Nat) (value : Word)
  | fwuCancel (tenant : Nat) (value : Word)
  | fwuFlash (tenant : Nat) (value : Word)
  | fwuDesc (tenant : Nat) (value : Word) (desc : Option (List Byte))
  | firmwareHandoff
  | handoffResume
  | handoffWatchdog
  | handoffOk
  | handoffRejected
  | probationTimeout
  | flashWriteDone (ok : Bool)
  -- recovery
  | errHeadWrite (tenant : Nat) (value : Word)
  | errWarmreq (tenant : Nat) (value : Word)
  | recoveryStart
  | recoveryTimeout
  | jackCheck
  | dumpReadTimeout (unit : Nat)
  | dumpTimeout
  | coreReset (core code : Nat)
  | suspectReplay
  | dumpCopy
  | portReset (port : Nat)
  | controlClusterRestart
  | warmReset
  | warmRestart (coresFailed : Nat)
  -- module power and the monitor
  | powerOff
  | inputMarginal (mv : Nat)
  | brownoutShutdown (mv : Nat)
  | overvoltageShutdown (mv : Nat)
  | overcurrentShutdown (ma : Nat)
  | vauxLoss (mv : Nat)
  | thermalTrip (core stack vr outlet : Nat)
  | status
  | vin
  | iin
  | pin
  | pinPeak
  | ein
  | tCore
  | tHbm
  | tVr
  | inlet
  | outlet
  | bootstat
  | part
  | smbWarmReset (value : Byte)
  | clearAlert (value : Byte)
  | alertResponse
  -- Awl and test
  | awlTrigger (sample : Word)
  | pmcClear (tenant page : Nat)
  | jtagInstruction (code : Nat)
  -- further steps
  | frameSend (port : Nat)
  | blockCrcFail (port rest : Nat)
  | discardAck (h : BlockHdr)
  | gangEnd (h : BlockHdr) (gang code : Nat)
  | controlClusterRestartDone
  | coreResetDone (core : Nat)
  | hostPortLinkDown
  | hostPortRetrain (ok : Bool)
  | operandReady (g : GroupRef) (u : Upset)
  | dutyPeriod (domain : Nat)
  | pwrgdHoldoffExpire
  | trstN (low : Bool)
  | requestBadOp (r : Request) (op : Nat)
  deriving DecidableEq, Repr

end Sys2Proof
end

