-- ==== Sys2Proof/Decode.lean ====
section
/-! DEFINITION. From words to commands: the decoder of lane instruction words by the map of R67, R665, R94, R102 and R116,
and the command that a word of the table of operations spells.
Assumption log: DEDUCED 7. -/

namespace Sys2Proof

/-- Format R (R68). -/
def fmtR (w : DWord) (wide : Option DWord) : FmtR :=
  { pred := w.extractLsb' 53 3, dst := w.extractLsb' 45 8, a := w.extractLsb' 37 8, b := w.extractLsb' 29 8,
    c := w.extractLsb' 21 8, typ := w.extractLsb' 12 4, sat := w.getLsbD 11, rnd := w.extractLsb' 8 3,
    ka := w.extractLsb' 6 2, kb := w.extractLsb' 4 2, kc := w.extractLsb' 2 2, rsv := w.extractLsb' 0 2, wide }

/-- Format M (R83). -/
def fmtM (w : DWord) (wide : Option DWord) : FmtM :=
  { pred := w.extractLsb' 53 3, data := w.extractLsb' 45 8, voff := w.extractLsb' 37 8, sbase := w.extractLsb' 31 6,
    nobase := w.getLsbD 30, wideoff := w.getLsbD 29, size := w.extractLsb' 26 3, space := w.extractLsb' 24 2,
    hint := w.extractLsb' 22 2, sign := w.getLsbD 21, imm := w.extractLsb' 0 21, wide }

/-- Format A (R93). -/
def fmtA (w : DWord) : FmtA :=
  { w := w.getLsbD 63, pred := w.extractLsb' 53 3, dst := w.extractLsb' 45 8, voff := w.extractLsb' 37 8,
    sbase := w.extractLsb' 31 6, nobase := w.getLsbD 30, wideoff := w.getLsbD 29, src := w.extractLsb' 17 8,
    cmp := w.extractLsb' 9 8, srck := w.getLsbD 8, cmpk := w.getLsbD 7, space := w.extractLsb' 5 2,
    imm := w.extractLsb' 0 5 }

/-- Format F (R100). -/
def fmtF (w : DWord) : FmtF :=
  { w := w.getLsbD 63, pred := w.extractLsb' 53 3, scope := w.extractLsb' 51 2, rsv := w.extractLsb' 0 51 }

/-- Format B (R101). -/
def fmtB (w : DWord) : FmtB :=
  { w := w.getLsbD 63, pred := w.extractLsb' 53 3, k := w.extractLsb' 43 5, rsv := w.extractLsb' 32 11,
    target := w.extractLsb' 0 32 }

/-- Format X (R116). -/
def fmtX (w : DWord) (wide : Option DWord) : FmtX :=
  { pred := w.extractLsb' 53 3, vdesc := w.extractLsb' 40 8, sbase := w.extractLsb' 34 6, sig := w.getLsbD 33,
    tok := w.extractLsb' 29 4, gather := w.getLsbD 28, sscale := w.extractLsb' 22 6, noscale := w.getLsbD 21,
    rsv := w.extractLsb' 0 21, wide }

/-- The format-R operation of an OP and a SUB (R665). -/
def decodeR (g : GroupRef) (op sub : Nat) (f : FmtR) : Option Instr :=
  match op, sub with
  | 0x01, 0 => some (.addI g f)
  | 0x01, 1 => some (.subI g f)
  | 0x01, 2 => some (.mulI g f)
  | 0x01, 3 => some (.madI g f)
  | 0x01, 4 => some (.minI g f)
  | 0x01, 5 => some (.maxI g f)
  | 0x02, 0 => some (.and g f)
  | 0x02, 1 => some (.or g f)
  | 0x02, 2 => some (.xor g f)
  | 0x02, 3 => some (.andn g f)
  | 0x03, 0 => some (.shl g f)
  | 0x03, 1 => some (.shr g f)
  | 0x03, 2 => some (.sar g f)
  | 0x04, 0 => some (.ones g f)
  | 0x04, 1 => some (.bitrev g f)
  | 0x04, 2 => some (.lzc g f)
  | 0x10, 0 => some (.addF g f)
  | 0x10, 1 => some (.subF g f)
  | 0x10, 2 => some (.mulF g f)
  | 0x10, 3 => some (.madF g f)
  | 0x10, 4 => some (.minF g f)
  | 0x10, 5 => some (.maxF g f)
  | 0x10, 6 => some (.minnumF g f)
  | 0x10, 7 => some (.maxnumF g f)
  | 0x20, 0 => some (.recip g f)
  | 0x20, 1 => some (.rsqrt g f)
  | 0x20, 2 => some (.exp2 g f)
  | 0x20, 3 => some (.log2 g f)
  | 0x20, 4 => some (.sin g f)
  | 0x20, 5 => some (.cos g f)
  | 0x24, 0 => some (.cmpEq g f)
  | 0x24, 1 => some (.cmpNe g f)
  | 0x24, 2 => some (.cmpLt g f)
  | 0x24, 3 => some (.cmpLe g f)
  | 0x24, 4 => some (.cmpGt g f)
  | 0x24, 5 => some (.cmpGe g f)
  | 0x25, 0 => some (.pick g f)
  | 0x26, 0 => some (.pcombAnd g f)
  | 0x26, 1 => some (.pcombOr g f)
  | 0x26, 2 => some (.pcombXor g f)
  | 0x26, 3 => some (.pcombAndn g f)
  | 0x26, 4 => some (.pcombNot g f)
  | 0x28, 0 => some (.xlaneAt g f)
  | 0x28, 1 => some (.xlaneUp g f)
  | 0x28, 2 => some (.xlaneDn g f)
  | 0x28, 3 => some (.xlaneFlip g f)
  | 0x29, 0 => some (.pmask g f)
  | 0x2A, 0 => some (.gredAdd g f)
  | 0x2A, 1 => some (.gredMin g f)
  | 0x2A, 2 => some (.gredMax g f)
  | 0x2C, 0 => some (.addS g f)
  | 0x2C, 1 => some (.subS g f)
  | 0x2C, 2 => some (.mulS g f)
  | 0x2C, 3 => some (.shlS g f)
  | 0x2C, 4 => some (.shrS g f)
  | 0x2C, 5 => some (.sarS g f)
  | 0x2C, 6 => some (.andS g f)
  | 0x2C, 7 => some (.orS g f)
  | 0x2C, 8 => some (.xorS g f)
  | 0x2D, 0 => some (.movVs g f)
  | 0x2D, 1 => some (.movSv g f)
  | 0x31, 0 => some (.cvtBlkEnc g f)
  | 0x31, 1 => some (.cvtBlkDec g f)
  | 0x68, 0 => some (.setmode g f)
  | 0x68, 1 => some (.getmode g f)
  | 0x30, _ => some (.cvt g (BitVec.ofNat 5 sub) f)
  | _, _ => none

/-- The atomic of an AOP (R94). -/
def decodeA (g : GroupRef) (aop : Nat) (f : FmtA) : Option Instr :=
  match aop with
  | 0 => some (.atomAddI32 g f)
  | 1 => some (.atomAddI64 g f)
  | 2 => some (.atomAddF32 g f)
  | 3 => some (.atomAddF16x2 g f)
  | 4 => some (.atomMinI32 g f)
  | 5 => some (.atomMaxI32 g f)
  | 6 => some (.atomMinF32 g f)
  | 7 => some (.atomMaxF32 g f)
  | 8 => some (.atomSwap32 g f)
  | 9 => some (.atomSwap64 g f)
  | 10 => some (.atomCas64 g f)
  | _ => none

/-- The control instruction of a SUB (R102). -/
def decodeB (g : GroupRef) (sub : Nat) (f : FmtB) : Option Instr :=
  match sub with
  | 0 => some (.bra g f)
  | 1 => some (.braAny g f)
  | 2 => some (.braAll g f)
  | 3 => some (.pushm g f)
  | 4 => some (.elsem g f)
  | 5 => some (.popm g f)
  | 6 => some (.andm g f)
  | 7 => some (.exit g f)
  | 8 => some (.serBegin g f)
  | 9 => some (.serEnd g f)
  | 10 => some (.call g f)
  | 11 => some (.ret g f)
  | 12 => some (.barArrive g f)
  | 13 => some (.barWait g f)
  | 14 => some (.barSync g f)
  | 15 => some (.savept g f)
  | _ => none

/-- An LDW whose second word holds STRIDE 0 is the re-orient form (R117, R154). -/
def isReorient (wide : Option DWord) : Bool :=
  match wide with
  | some w => w.extractLsb' 24 20 == 0#20
  | none => false

/-- The MX instruction of a SUB (R116). -/
def decodeX (g : GroupRef) (sub : Nat) (f : FmtX) : Option Instr :=
  match sub with
  | 0 => some (if isReorient f.wide then .mxLdwReorient g f else .mxLdw g f)
  | 1 => some (.mxSwap g f)
  | 2 => some (.mxStream g f)
  | 3 => some (.mxDrain g f)
  | 4 => some (.mxWaitQ g f)
  | 5 => some (.mxWaitG g f)
  | _ => none

/-- The instruction of an OP (R67). -/
def decodeOp (g : GroupRef) (op : Nat) (w : DWord) (wide : Option DWord) : Option Instr :=
  match op with
  | 0x40 => some (.ld g (fmtM w wide))
  | 0x41 => some (.st g (fmtM w wide))
  | 0x42 => decodeA g (w.extractLsb' 25 4).toNat (fmtA w)
  | 0x43 => some (.fence g (fmtF w))
  | 0x44 => some (.prefetch g (fmtM w wide))
  | 0x45 => some (.ldsc g (fmtM w wide))
  | 0x60 => decodeB g (w.extractLsb' 48 5).toNat (fmtB w)
  | 0x70 => decodeX g (w.extractLsb' 48 5).toNat (fmtX w wide)
  | _ => decodeR g op (w.extractLsb' 16 5).toNat (fmtR w wide)

/-- The command that a group's next two words spell: an instruction, or ILLEGAL_INSTRUCTION for an undefined OP or SUB
(R64–R67). Malformed fields of a defined instruction are refused where it runs (R66). -/
def decodeLaneWord (core slot : Nat) (w0 w1 : DWord) : Instr :=
  let g : GroupRef := ⟨core, slot⟩
  let wide := if w0.getLsbD 63 then some w1 else none
  (decodeOp g (w0.extractLsb' 56 7).toNat w0 wide).getD (.illegalInstruction g w0)

/-! ### The encoder: the words of an instruction, from the tables of R64–R68, R83, R93, R94, R100–R102, R116, R665 -/

/-- Format R, from the W bit down. -/
def encR (op : BitVec 7) (sub : BitVec 5) (f : FmtR) : DWord :=
  BitVec.ofBool f.wide.isSome ++ op ++ f.pred ++ f.dst ++ f.a ++ f.b ++ f.c ++ sub ++ f.typ ++ BitVec.ofBool f.sat ++ f.rnd
    ++ f.ka ++ f.kb ++ f.kc ++ f.rsv

/-- Format M. -/
def encM (op : BitVec 7) (f : FmtM) : DWord :=
  BitVec.ofBool f.wide.isSome ++ op ++ f.pred ++ f.data ++ f.voff ++ f.sbase ++ BitVec.ofBool f.nobase
    ++ BitVec.ofBool f.wideoff ++ f.size ++ f.space ++ f.hint ++ BitVec.ofBool f.sign ++ f.imm

/-- Format A. -/
def encA (aop : BitVec 4) (f : FmtA) : DWord :=
  BitVec.ofBool f.w ++ 0x42#7 ++ f.pred ++ f.dst ++ f.voff ++ f.sbase ++ BitVec.ofBool f.nobase ++ BitVec.ofBool f.wideoff
    ++ aop ++ f.src ++ f.cmp ++ BitVec.ofBool f.srck ++ BitVec.ofBool f.cmpk ++ f.space ++ f.imm

/-- Format F. -/
def encF (f : FmtF) : DWord := BitVec.ofBool f.w ++ 0x43#7 ++ f.pred ++ f.scope ++ f.rsv

/-- Format B. -/
def encB (sub : BitVec 5) (f : FmtB) : DWord :=
  BitVec.ofBool f.w ++ 0x60#7 ++ f.pred ++ sub ++ f.k ++ f.rsv ++ f.target

/-- Format X. -/
def encX (sub : BitVec 5) (f : FmtX) : DWord :=
  BitVec.ofBool f.wide.isSome ++ 0x70#7 ++ f.pred ++ sub ++ f.vdesc ++ f.sbase ++ BitVec.ofBool f.sig ++ f.tok
    ++ BitVec.ofBool f.gather ++ f.sscale ++ BitVec.ofBool f.noscale ++ f.rsv

/-- The group of a lane instruction and its words: one, or two when W = 1 (R64). The two forms of MX.LDW are told apart by their second word. -/
def encodeLane (i : Instr) : Option (GroupRef × DWord × Option DWord) :=
  match i with
  | .addI g f => some (g, encR 0x01#7 0#5 f, f.wide)
  | .subI g f => some (g, encR 0x01#7 1#5 f, f.wide)
  | .mulI g f => some (g, encR 0x01#7 2#5 f, f.wide)
  | .madI g f => some (g, encR 0x01#7 3#5 f, f.wide)
  | .minI g f => some (g, encR 0x01#7 4#5 f, f.wide)
  | .maxI g f => some (g, encR 0x01#7 5#5 f, f.wide)
  | .and g f => some (g, encR 0x02#7 0#5 f, f.wide)
  | .or g f => some (g, encR 0x02#7 1#5 f, f.wide)
  | .xor g f => some (g, encR 0x02#7 2#5 f, f.wide)
  | .andn g f => some (g, encR 0x02#7 3#5 f, f.wide)
  | .shl g f => some (g, encR 0x03#7 0#5 f, f.wide)
  | .shr g f => some (g, encR 0x03#7 1#5 f, f.wide)
  | .sar g f => some (g, encR 0x03#7 2#5 f, f.wide)
  | .ones g f => some (g, encR 0x04#7 0#5 f, f.wide)
  | .bitrev g f => some (g, encR 0x04#7 1#5 f, f.wide)
  | .lzc g f => some (g, encR 0x04#7 2#5 f, f.wide)
  | .addF g f => some (g, encR 0x10#7 0#5 f, f.wide)
  | .subF g f => some (g, encR 0x10#7 1#5 f, f.wide)
  | .mulF g f => some (g, encR 0x10#7 2#5 f, f.wide)
  | .madF g f => some (g, encR 0x10#7 3#5 f, f.wide)
  | .minF g f => some (g, encR 0x10#7 4#5 f, f.wide)
  | .maxF g f => some (g, encR 0x10#7 5#5 f, f.wide)
  | .minnumF g f => some (g, encR 0x10#7 6#5 f, f.wide)
  | .maxnumF g f => some (g, encR 0x10#7 7#5 f, f.wide)
  | .recip g f => some (g, encR 0x20#7 0#5 f, f.wide)
  | .rsqrt g f => some (g, encR 0x20#7 1#5 f, f.wide)
  | .exp2 g f => some (g, encR 0x20#7 2#5 f, f.wide)
  | .log2 g f => some (g, encR 0x20#7 3#5 f, f.wide)
  | .sin g f => some (g, encR 0x20#7 4#5 f, f.wide)
  | .cos g f => some (g, encR 0x20#7 5#5 f, f.wide)
  | .cmpEq g f => some (g, encR 0x24#7 0#5 f, f.wide)
  | .cmpNe g f => some (g, encR 0x24#7 1#5 f, f.wide)
  | .cmpLt g f => some (g, encR 0x24#7 2#5 f, f.wide)
  | .cmpLe g f => some (g, encR 0x24#7 3#5 f, f.wide)
  | .cmpGt g f => some (g, encR 0x24#7 4#5 f, f.wide)
  | .cmpGe g f => some (g, encR 0x24#7 5#5 f, f.wide)
  | .pick g f => some (g, encR 0x25#7 0#5 f, f.wide)
  | .pcombAnd g f => some (g, encR 0x26#7 0#5 f, f.wide)
  | .pcombOr g f => some (g, encR 0x26#7 1#5 f, f.wide)
  | .pcombXor g f => some (g, encR 0x26#7 2#5 f, f.wide)
  | .pcombAndn g f => some (g, encR 0x26#7 3#5 f, f.wide)
  | .pcombNot g f => some (g, encR 0x26#7 4#5 f, f.wide)
  | .xlaneAt g f => some (g, encR 0x28#7 0#5 f, f.wide)
  | .xlaneUp g f => some (g, encR 0x28#7 1#5 f, f.wide)
  | .xlaneDn g f => some (g, encR 0x28#7 2#5 f, f.wide)
  | .xlaneFlip g f => some (g, encR 0x28#7 3#5 f, f.wide)
  | .pmask g f => some (g, encR 0x29#7 0#5 f, f.wide)
  | .gredAdd g f => some (g, encR 0x2A#7 0#5 f, f.wide)
  | .gredMin g f => some (g, encR 0x2A#7 1#5 f, f.wide)
  | .gredMax g f => some (g, encR 0x2A#7 2#5 f, f.wide)
  | .addS g f => some (g, encR 0x2C#7 0#5 f, f.wide)
  | .subS g f => some (g, encR 0x2C#7 1#5 f, f.wide)
  | .mulS g f => some (g, encR 0x2C#7 2#5 f, f.wide)
  | .shlS g f => some (g, encR 0x2C#7 3#5 f, f.wide)
  | .shrS g f => some (g, encR 0x2C#7 4#5 f, f.wide)
  | .sarS g f => some (g, encR 0x2C#7 5#5 f, f.wide)
  | .andS g f => some (g, encR 0x2C#7 6#5 f, f.wide)
  | .orS g f => some (g, encR 0x2C#7 7#5 f, f.wide)
  | .xorS g f => some (g, encR 0x2C#7 8#5 f, f.wide)
  | .movVs g f => some (g, encR 0x2D#7 0#5 f, f.wide)
  | .movSv g f => some (g, encR 0x2D#7 1#5 f, f.wide)
  | .cvtBlkEnc g f => some (g, encR 0x31#7 0#5 f, f.wide)
  | .cvtBlkDec g f => some (g, encR 0x31#7 1#5 f, f.wide)
  | .setmode g f => some (g, encR 0x68#7 0#5 f, f.wide)
  | .getmode g f => some (g, encR 0x68#7 1#5 f, f.wide)
  | .cvt g src f => some (g, encR 0x30#7 src f, f.wide)
  | .ld g f => some (g, encM 0x40#7 f, f.wide)
  | .st g f => some (g, encM 0x41#7 f, f.wide)
  | .prefetch g f => some (g, encM 0x44#7 f, f.wide)
  | .ldsc g f => some (g, encM 0x45#7 f, f.wide)
  | .atomAddI32 g f => some (g, encA 0#4 f, none)
  | .atomAddI64 g f => some (g, encA 1#4 f, none)
  | .atomAddF32 g f => some (g, encA 2#4 f, none)
  | .atomAddF16x2 g f => some (g, encA 3#4 f, none)
  | .atomMinI32 g f => some (g, encA 4#4 f, none)
  | .atomMaxI32 g f => some (g, encA 5#4 f, none)
  | .atomMinF32 g f => some (g, encA 6#4 f, none)
  | .atomMaxF32 g f => some (g, encA 7#4 f, none)
  | .atomSwap32 g f => some (g, encA 8#4 f, none)
  | .atomSwap64 g f => some (g, encA 9#4 f, none)
  | .atomCas64 g f => some (g, encA 10#4 f, none)
  | .fence g f => some (g, encF f, none)
  | .bra g f => some (g, encB 0#5 f, none)
  | .braAny g f => some (g, encB 1#5 f, none)
  | .braAll g f => some (g, encB 2#5 f, none)
  | .pushm g f => some (g, encB 3#5 f, none)
  | .elsem g f => some (g, encB 4#5 f, none)
  | .popm g f => some (g, encB 5#5 f, none)
  | .andm g f => some (g, encB 6#5 f, none)
  | .exit g f => some (g, encB 7#5 f, none)
  | .serBegin g f => some (g, encB 8#5 f, none)
  | .serEnd g f => some (g, encB 9#5 f, none)
  | .call g f => some (g, encB 10#5 f, none)
  | .ret g f => some (g, encB 11#5 f, none)
  | .barArrive g f => some (g, encB 12#5 f, none)
  | .barWait g f => some (g, encB 13#5 f, none)
  | .barSync g f => some (g, encB 14#5 f, none)
  | .savept g f => some (g, encB 15#5 f, none)
  | .mxLdw g f => if isReorient f.wide then none else some (g, encX 0#5 f, f.wide)
  | .mxLdwReorient g f => if isReorient f.wide then some (g, encX 0#5 f, f.wide) else none
  | .mxSwap g f => some (g, encX 1#5 f, f.wide)
  | .mxStream g f => some (g, encX 2#5 f, f.wide)
  | .mxDrain g f => some (g, encX 3#5 f, f.wide)
  | .mxWaitQ g f => some (g, encX 4#5 f, f.wide)
  | .mxWaitG g f => some (g, encX 5#5 f, f.wide)
  | _ => none

/-- The table of operations gives none of its rows bits, so no word spells a command. -/
def decodeTableWord (_nbits _w : Nat) : Option Instr := none

end Sys2Proof
end

