-- ==== Sys2Proof/Config.lean ====
section
/-! DEFINITION. The free values: what the spec leaves open. Each is a constant without a body, applied to a counter the
state holds or to the operands it depends on.
Assumption log: DESIGN CHOICE 4, 22, 44, 85, 101. -/

namespace Sys2Proof.Config

/-- A choice between two outcomes that the spec allows: for the `n`-th choice of a run (R136, R151, R237, R281). -/
opaque choose : Nat → Bool

/-- A 32-bit value that the spec leaves open, the `n`-th of a run. -/
opaque freeWord : Nat → Word

/-- Which of the values within the error bound of R73 a RECIP, RSQRT, EXP2, LOG2, SIN or COS of an operand gives:
a function of the operation code and the operand. -/
opaque approx : Nat → Word → Word

/-- The key material that the random source draws at the `n`-th cold boot (R367). -/
opaque keyMaterial : Nat → BitVec 512

/-- AES-256-XTS of a sector under the keys, with PA[40:5] as the tweak (R367). -/
opaque encrypt : BitVec 512 → Nat → List Byte → List Byte

/-- The 4 bytes of check code of an encrypted sector (R362): the manual does not give the code's polynomial. -/
opaque checkCode : List Byte → Word

/-- The number of the 4 KiB page of HBM that holds the device table of a context, a level and the part of the VA above the
level's index: firmware places its tables (R329). -/
opaque tablePage : Nat → Nat → Nat → Nat

/-- The bytes of an SLH-DSA-SHAKE-256f signature of the identity key over a message (R587). -/
opaque signByte : List Byte → Nat → Byte

/-- The signature of the announcement of a cold boot, over the key and the nonce (R391). -/
opaque announceSig : List Byte → Nat

/-- TYPE[3:0] of a kind of CTL message, and a byte of its payload: the manual lays out neither (R396). -/
opaque ctlType : Nat → BitVec 4
opaque ctlByte : Nat → List Nat → Nat → Byte

/-- The MAGIC of the hand-off header and the body that an image serializes (R590, R593), which the manual leaves to the
image's format; the body by the number of the hand-off. -/
opaque handoffMagic : Nat
opaque handoffBody : Nat → List Byte

/-- The SHA3-256 of the vendor's public key in mask ROM (R572), and whether an SLH-DSA-SHAKE-256s signature of a key over a
message verifies (R572, R581). -/
opaque vendorKeyHash : Nat
opaque sigValid : List Byte → List Byte → List Byte → Bool

/-- The identity public key whose SHA3-256 is given (R584, R587). -/
opaque idKey : Nat → Nat

/-- The die number in one-time fuses (R583). -/
opaque dieNumber : Nat

/-- How many signal groups the block of a PG_ID has, and which of them carry key material (R653): the vendor's signal catalog
says. -/
opaque groupCount : Nat → Nat
opaque secretGroup : Nat → Nat → Bool

/-- The rkeys of the memory regions that the host port exposes (R452, R574): 0 the register window, 1 the reference counts, 2 the
objects, 3 the boot window. -/
opaque rkey : Nat → Word

/-- The straps ADDR[2:0] of the management bus (R636, R647). -/
opaque addrStrap : BitVec 3

/-- The bytes of HBM that an object's device-table pages and firmware extent records come to (R329, R485): a free value of its
handle index, generation, kind and size, which the manual leaves to firmware (assumption 44). -/
opaque recordBytes : Nat → Nat → Nat → Nat → Nat

end Sys2Proof.Config
end

