-- ==== Sys2Proof/Machine/Codes.lean ====
section
/-! DEFINITION. The error codes of the chapters, each with the rule that defines it. -/

namespace Sys2Proof.Machine.Code

/-- MEM_ECC_UNCORR (R628). -/
def memEccUncorr : Nat := 0x0101
/-- TAG_PARITY (R253). -/
def tagParity : Nat := 0x0102
/-- MEM_LINK_RETRY_EXHAUSTED (R628). -/
def memLinkRetryExhausted : Nat := 0x0103
/-- MEM_CACHE_REFETCH (R253). -/
def memCacheRefetch : Nat := 0x0104
/-- MEM_POISONED (R377). -/
def memPoisoned : Nat := 0x0105
/-- MEM_RESERVED_REFUSED (R377). -/
def memReservedRefused : Nat := 0x0106
/-- MEM_LANE_SPARED (R377). -/
def memLaneSpared : Nat := 0x0107
/-- MEM_THERMAL (R377). -/
def memThermal : Nat := 0x0108
/-- XLT_NOT_PRESENT (R628). -/
def xltNotPresent : Nat := 0x0201
/-- XLT_WRITE_DENIED (R628). -/
def xltWriteDenied : Nat := 0x0202
/-- XLT_WALK_TIMEOUT (R628). -/
def xltWalkTimeout : Nat := 0x0203
/-- XLT_OUT_OF_APERTURE (R345). -/
def xltOutOfAperture : Nat := 0x0204
/-- XLT_EXEC_DENIED (R345). -/
def xltExecDenied : Nat := 0x0205
/-- XLT_FMT_INVALID (R345). -/
def xltFmtInvalid : Nat := 0x0206
/-- XLT_INV_MALFORMED (R345). -/
def xltInvMalformed : Nat := 0x0207
/-- GROUP_MASK_STACK_OVERFLOW (R50). -/
def groupMaskStackOverflow : Nat := 0x0301
/-- GROUP_MATRIX_DIVERGENT (R50). -/
def groupMatrixDivergent : Nat := 0x0302
/-- GROUP_NO_PROGRESS (R50). -/
def groupNoProgress : Nat := 0x0303
/-- GROUP_ILLEGAL_INSTR (R50). -/
def groupIllegalInstr : Nat := 0x0304
/-- GROUP_MISALIGNED (R50). -/
def groupMisaligned : Nat := 0x0305
/-- GROUP_ADDRESS_RANGE (R122). -/
def groupAddressRange : Nat := 0x0306
/-- GROUP_ATOMIC_UNSUPPORTED (R122). -/
def groupAtomicUnsupported : Nat := 0x0307
/-- GROUP_BLOCK_PARTIAL (R122). -/
def groupBlockPartial : Nat := 0x0308
/-- GROUP_MOVER_DESC (R263). -/
def groupMoverDesc : Nat := 0x0309
/-- GROUP_UNDECLARED_WRITE (R317). -/
def groupUndeclaredWrite : Nat := 0x030a
/-- MXA_INVALID_TRAP (R197). -/
def mxaInvalidTrap : Nat := 0x0401
/-- MXA_STATE_MISMATCH (R159). -/
def mxaStateMismatch : Nat := 0x0402
/-- QNT_PARAM_INVALID (R225). -/
def qntParamInvalid : Nat := 0x0403
/-- FAB_TIMEOUT (R628). -/
def fabTimeout : Nat := 0x0501
/-- FAB_PEER_RESET (R628). -/
def fabPeerReset : Nat := 0x0502
/-- FAB_PEER_DOWN (R628). -/
def fabPeerDown : Nat := 0x0503
/-- FAB_CRC_RETRY_EXHAUSTED (R628). -/
def fabCrcRetryExhausted : Nat := 0x0504
/-- FAB_PEER_REJECTED (R414). -/
def fabPeerRejected : Nat := 0x0505
/-- FAB_TOPO_INVALID (R414). -/
def fabTopoInvalid : Nat := 0x0506
/-- FAB_SHADOW_UNMAPPED (R414). -/
def fabShadowUnmapped : Nat := 0x0507
/-- FAB_SUSPECT (R414). -/
def fabSuspect : Nat := 0x0508
/-- FAB_REROUTED (R414). -/
def fabRerouted : Nat := 0x0509
/-- FAB_TIME_STEPPED (R444). -/
def fabTimeStepped : Nat := 0x050a
/-- FAB_TIME_GM_LOST (R444). -/
def fabTimeGmLost : Nat := 0x050b
/-- FAB_TIME_LOST (R444). -/
def fabTimeLost : Nat := 0x050c
/-- FAB_CAL_REFUSED (R444). -/
def fabCalRefused : Nat := 0x050d
/-- FENCE_REGRESS (R628). -/
def fenceRegress : Nat := 0x0601
/-- FENCE_RANGE (R628). -/
def fenceRange : Nat := 0x0602
/-- DEP_POISONED (R628). -/
def depPoisoned : Nat := 0x0603
/-- OWNER_GONE (R628). -/
def ownerGone : Nat := 0x0604
/-- DESC_INVALID (R511). -/
def descInvalid : Nat := 0x0605
/-- OBJ_GONE (R511). -/
def objGone : Nat := 0x0606
/-- OBJ_REF_INVALID (R511). -/
def objRefInvalid : Nat := 0x0607
/-- QUEUE_DOORBELL_INVALID (R511). -/
def queueDoorbellInvalid : Nat := 0x0608
/-- REQ_INVALID (R511). -/
def reqInvalid : Nat := 0x0609
/-- FENCE_MIRROR_FAILED (R511). -/
def fenceMirrorFailed : Nat := 0x060a
/-- SEQ_ADMIT_INVALID (R543). -/
def seqAdmitInvalid : Nat := 0x060b
/-- SEQ_RELEASED (R543). -/
def seqReleased : Nat := 0x060c
/-- SEQ_STEP_FAILED (R543). -/
def seqStepFailed : Nat := 0x060d
/-- SEQ_STEP_OVERRUN (R543). -/
def seqStepOverrun : Nat := 0x060e
/-- SEQ_MODEL_INVALID (R543). -/
def seqModelInvalid : Nat := 0x060f
/-- HANG_GUILTY (R628). -/
def hangGuilty : Nat := 0x0701
/-- HANG_SUSPECT_LOST (R628). -/
def hangSuspectLost : Nat := 0x0702
/-- HANG_DETECTED (R629). -/
def hangDetected : Nat := 0x0703
/-- HANG_UNRESOLVED (R629). -/
def hangUnresolved : Nat := 0x0704
/-- RCV_ESCALATED (R629). -/
def rcvEscalated : Nat := 0x0705
/-- RCV_WARM_RESET (R629). -/
def rcvWarmReset : Nat := 0x0706
/-- RCV_CORE_RETIRED (R629). -/
def rcvCoreRetired : Nat := 0x0707
/-- RCV_CTL_REBUILT (R629). -/
def rcvCtlRebuilt : Nat := 0x0708
/-- RCV_PORT_DISABLED (R629). -/
def rcvPortDisabled : Nat := 0x0709
/-- RCV_RESET_REQUESTED (R629). -/
def rcvResetRequested : Nat := 0x070a
/-- CFG_BUSY_WRITE (R628). -/
def cfgBusyWrite : Nat := 0x0801
/-- CACHE_ENABLE_STALE (R628). -/
def cacheEnableStale : Nat := 0x0802
/-- CFG_ACCESS_DENIED (R480). -/
def cfgAccessDenied : Nat := 0x0803
/-- CFG_EMU_UNAVAILABLE (R480). -/
def cfgEmuUnavailable : Nat := 0x0804
/-- AWL_SEL_DENIED (R664). -/
def awlSelDenied : Nat := 0x0805
/-- COMMIT_LOST (R628). -/
def commitLost : Nat := 0x0901
/-- COMMIT_FRAME_BUSY (R317). -/
def commitFrameBusy : Nat := 0x0902
/-- COMMIT_LATE (R317). -/
def commitLate : Nat := 0x0903
/-- COMMIT_EXPIRED (R317). -/
def commitExpired : Nat := 0x0904
/-- GANG_INCOMPLETE (R317). -/
def gangIncomplete : Nat := 0x0905
/-- FW_HANDOFF_REJECTED (R628). -/
def fwHandoffRejected : Nat := 0x0a01
/-- SCH_MARK_TIMEOUT (R543). -/
def schMarkTimeout : Nat := 0x0a02
/-- SCH_SAVE_POOL_SHORT (R543). -/
def schSavePoolShort : Nat := 0x0a03
/-- BDL_FLOOR_CLAMPED (R563). -/
def bdlFloorClamped : Nat := 0x0a04
/-- BDL_CAP_UNMET (R563). -/
def bdlCapUnmet : Nat := 0x0a05
/-- BDL_THERMAL_CRITICAL (R563). -/
def bdlThermalCritical : Nat := 0x0a06
/-- FW_NETBOOT (R599). -/
def fwNetboot : Nat := 0x0a07
/-- FW_STAGE_REJECTED (R599). -/
def fwStageRejected : Nat := 0x0a08
/-- FW_FLASH_FAILED (R599). -/
def fwFlashFailed : Nat := 0x0a09
/-- SEC_ATT_FAILED (R599). -/
def secAttFailed : Nat := 0x0a0a
/-- MOD_INPUT_MARGINAL (R652). -/
def modInputMarginal : Nat := 0x0a0b

end Sys2Proof.Machine.Code
end

