-- ==== Sys2Proof/Machine/State.lean ====
section
/-! DEFINITION. The state of the module: plain data, everything the spec gives it, and the state after reset.
Assumption log: DESIGN CHOICE 1, 4, 8, 12; DEDUCED 6, 40, 80; PRESUMED 14. -/

namespace Sys2Proof.Machine

/-- Why the block stops with a fault. The spec describes what happens in every case it names, so nothing raises one
and the type has no constructor. -/
inductive Fault where
  deriving DecidableEq, Repr

/-- Why a command is turned away. -/
inductive Refusal where
  /-- Raised by the arm of a command that has no meaning yet; safe: nothing is claimed of it. -/
  | notModelled (mnemonic : String)
  deriving DecidableEq, Repr

/-- The field types of a register (conventions of 00, R467). -/
inductive RegType where
  | ro | rw | rws | rwi | w1c | wo
  deriving DecidableEq, Repr

/-- A register: address of instance 0, distance between instances, instances, 64-bit or not, type, reset value, the bits
a write sets, the bits a write of 1 clears, the bounds a value is clamped to. -/
structure RegDef where
  base   : Nat
  stride : Nat
  count  : Nat
  wide   : Bool
  type   : RegType
  reset  : Nat
  wmask  : Nat
  w1c    : Nat
  bounds : Option (Nat × Nat)
  deriving DecidableEq, Repr

/-! ### The core -/

/-- Where an address leads after translation: a byte of local HBM, a byte of a local frame pair, named by its entry of the
commit overlay table (the frame is chosen by R288), a byte at another module (`shadow` when the offset counts in shadow space), a byte of host memory, or a byte of
the command's scratchpad allocation. -/
inductive Tgt where
  | hbm  (pa : Nat)
  | pair (idx off : Nat)
  | fab  (node : Nat) (shadow : Bool) (addr : Nat)
  | host (hpa : Nat)
  | scr  (off : Nat)
  deriving DecidableEq, Repr

/-- An entry of the mask stack (R30). -/
structure StackEntry where
  saved   : Word
  pending : Word
  target  : Nat
  deriving DecidableEq, Repr

/-- A SER region of a group (R36, R39). -/
structure SerRegion where
  lanes : Word
  cur   : Nat
  start : Nat
  depth : Nat
  deriving DecidableEq, Repr

/-- A resource of a group whose value an instruction in flight still owes (R17, R72). -/
inductive Res where
  | v (n : Nat)
  | s (n : Nat)
  | p (n : Nat)
  | mode
  | flags
  deriving DecidableEq, Repr

/-- What a busy resource waits for: a cycle of the core's clock, a load or an atomic. -/
inductive Busy where
  | until (cycle : Nat)
  | load  (id : Nat)
  | atom  (id : Nat)
  deriving DecidableEq, Repr

/-- Why a group cannot issue (R17), beyond its operands and the branch penalty. -/
inductive GWait where
  | none
  | barrier (b phase : Nat)
  | token (toks : Nat)
  | arrayQueue
  | moverSlot (slot : Nat)
  | credit
  | drainHeld
  | fence (scope : Nat)
  | walk (pages : List Nat)
  | parked (record : Nat)
  | frameCopy (idx : Nat)
  deriving DecidableEq, Repr

/-- Whether a save has stopped a group (R524, R525): it runs, is saved in full, or stands at a save point. -/
inductive GHalt where
  | run
  | full
  | marked (n : Nat)
  deriving DecidableEq, Repr

/-- A completion token of a group: commands issued with SIG naming it, commands completed, and the numbers, in the order of
issue, of those that are not (R120). -/
structure Token where
  issued : Nat
  done   : Nat
  owed   : List Nat
  deriving DecidableEq, Repr

/-- A resident group (R17, R24, R30, R36, R40, R43, R78, R105, R120). Vector registers are lists of 32 lane values; an
unlisted one is zero, as R24 launches it. -/
structure Group where
  cmd     : Nat
  index   : Nat
  set     : Nat
  rows    : Nat
  nreg    : Nat
  pc      : Nat
  launch  : Word
  am      : Word
  exited  : Word
  v       : NMap (List Word)
  s       : NMap DWord
  p       : NMap Word
  stack   : List StackEntry
  ser     : Option SerRegion
  fpc     : Nat
  fpLimit : Nat
  lmode   : Word
  sb      : List (Res × Busy)
  penalty : Option Nat
  wait    : GWait
  halt    : GHalt
  tokens  : NMap Token
  lastIssue : Nat
  eligAt  : Option Nat
  ended   : Bool
  deriving DecidableEq, Repr

/-- A cache's ENABLE and invalidate state (R248–R250). -/
structure CacheCtl where
  enabled  : Bool
  draining : Option Nat
  invBusy  : Option Nat
  invFromDisabled : Bool
  invDone  : Bool
  deriving DecidableEq, Repr

/-- A line of the L1: sectors valid and the data as filled or stored to (R238, R239). -/
structure L1Line where
  cmdShadow : Option Nat
  valid : BitVec 4
  data  : List Byte
  deriving DecidableEq, Repr

/-- An entry of a core's merging buffer (R240). `groups` are the indices of the groups whose stores it holds. -/
structure MergeEntry where
  cmd    : Nat
  line   : Tgt
  mask   : BitVec 128
  data   : List Byte
  opened : Nat
  groups : List Nat
  hint   : Nat
  sent   : Bool
  deriving DecidableEq, Repr

/-- The state of a line request (R238, R271, R372, R393). -/
inductive ReqSt where
  | toL2
  | toChannel
  | toHost
  | atPeer
  | ready
  deriving DecidableEq, Repr

/-- A line request of a load, a prefetch or a mover's tile on its way (R238, R271). `grp` is the index of the group, or the run
of the tile;
`bypass` marks SPACE 0b10, CHANNEL loads and movers; `noInstall` is set by an invalidate or an atomic that follows it (R242,
R239); `patch` holds bytes, by their offset in the line, that stores of the core have sent onward meanwhile. -/
structure LineReq where
  core  : Nat
  grp   : Nat
  cmd   : Nat
  load  : Option Nat
  mover : Option Nat
  line  : Tgt
  sects : BitVec 4
  hint  : Nat
  bypass : Bool
  noInstall : Bool
  st    : ReqSt
  data  : List Byte
  patch : List (Nat × Byte)
  deriving DecidableEq, Repr

/-- One lane's access of a load (R84). `hit` says that the L1 gave its data; `held` are the bytes that the core's merging
buffer held at issue (R92, R241); `data` is empty until the line returns. -/
structure LaneAcc where
  lane : Nat
  tgt  : Tgt
  hit  : Bool
  held : List (Option Byte)
  data : List Byte
  deriving DecidableEq, Repr

/-- A load in flight (R84, R92). `sreg` is set for LDSC, which writes scalar registers; `hit` lists the lines of the L1
that gave it data (R253), `hint` the load's HINT. -/
structure LoadRec where
  core : Nat
  slot : Nat
  grp  : Nat
  cmd  : Nat
  hint : Nat
  dst  : Nat
  sreg : Bool
  size : Nat
  sign : Bool
  accs : List LaneAcc
  waits : List Nat
  hit   : List Tgt
  ready : Nat
  deriving DecidableEq, Repr

/-- Where a lane's atomic stands (R95–R99). -/
inductive AtomSt where
  | toReducer
  | toEgress
  | toHost
  | atPeer
  | done (old : DWord)
  deriving DecidableEq, Repr

/-- A lane's atomic in flight (R93–R99). `op` is AOP of R94. -/
structure AtomRec where
  core : Nat
  slot : Nat
  grp  : Nat
  cmd  : Nat
  lane : Nat
  op   : Nat
  tgt  : Tgt
  opnd : DWord
  cmp  : DWord
  dst  : Option Nat
  st   : AtomSt
  deriving DecidableEq, Repr

/-- A barrier of a placement set (R105): groups that have arrived in the phase and the phase number. -/
structure Barrier where
  arrived : List Nat
  phase   : Nat
  deriving DecidableEq, Repr

/-- A scratchpad allocation of a command on a core (R232, R233): physical granules in allocation order. -/
structure Alloc where
  granules : List Nat
  deriving DecidableEq, Repr

/-- A lane's or a mover's access that has waited for its bank since a cycle; `load` is set for a load (R235). -/
structure BankWait where
  bank  : Nat
  since : Nat
  load  : Option Nat
  deriving DecidableEq, Repr

/-- How a page of a mapping leads on (R276, R327). -/
inductive Backing where
  | inPlace (pa : Nat)
  | channel (pa : Nat)
  | shadowed (off : Nat)
  | fab (node : Nat) (kind addr : Nat)
  deriving DecidableEq, Repr

/-- A cached translation: of a device page (a leaf) or of a host page (R321, R323, R331). -/
structure Trans where
  ctx   : Nat
  va    : Nat      -- device VA of the page start
  size  : Nat
  back  : Backing ⊕ Nat   -- `.inr p`: host physical page address
  w     : Bool
  nx    : Bool
  deriving DecidableEq, Repr

/-- Where a mover stands with the tile at its cursor (R264, R265): to be translated and started, started once in vain,
reading its source, being accepted unit by unit, sent. -/
inductive MvPhase where
  | fresh | retry | reading | sending | sent
  deriving DecidableEq, Repr

/-- A mover command (R256–R262): the launching group, the slot, the 128 bytes of its descriptor, the tiles delivered, the cycle it
was dispatched in, the pages its tile waits for, the translations of its tile, its number on its token (R258), the index of the launching store, the scratchpad as it stood then
(R267), the line requests of its tile still to be made, each with its run (R269, R271), the units of its tile still to be
accepted (R265). -/
structure MoverCmd where
  cmd    : Nat
  group  : Nat
  slot   : Nat
  desc   : List Byte
  cursor : Nat
  disp   : Nat
  phase  : MvPhase
  waiting : List Nat
  trs    : List Trans
  sig    : Nat
  pc     : Nat
  old    : NMap Byte
  todo   : List (Nat × Tgt × BitVec 4)
  out    : List (Tgt × BitVec 128 × List Byte)
  deriving DecidableEq, Repr

/-- A command of the array command queue (R116–R119, R149): its instruction, the scalars and the gathered row offsets it
read at issue, for a WAIT.Q the number of commands of its token that must complete, its own number on its token, the cycle of
issue and the scratchpad as it stood then, or when a WAIT.Q before it was released (R120, R136). -/
inductive ArrKind where
  | ldw | reorient | swap | stream | drain | waitq
  deriving DecidableEq, Repr

structure ArrCmd where
  id     : Nat
  kind   : ArrKind
  cmd    : Nat
  slot   : Nat
  f      : FmtX
  base   : Nat
  scale  : Nat
  gather : List Word
  need   : Nat
  sig    : Nat
  at_    : Nat
  old    : NMap Byte
  deriving DecidableEq, Repr

/-- The states of a weight set (R164). -/
inductive SetState where
  | empty | loading | loaded
  deriving DecidableEq, Repr

/-- A weight set (R124, R125): its tags, the load it came from, and the registers in the internal form of R176, keyed by
96 · row + column. -/
structure WeightSet where
  state   : SetState
  fmt     : Nat
  orient  : Bool
  noscale : Bool
  kdim    : Nat
  ndim    : Nat
  low     : Bool
  load    : Nat
  w       : NMap (BitVec 23)
  deriving DecidableEq, Repr

/-- An accumulator row (R137–R142): MODE (true for INT32), WRITTEN, a SAT bit for each element, 96 elements. -/
structure AccRow where
  int     : Bool
  written : Bool
  sat     : List Bool
  elems   : List Word
  deriving DecidableEq, Repr

/-- The weight loader's LDW: its queue entry and its start. -/
structure LdwRun where
  id    : Nat
  start : Nat
  deriving DecidableEq, Repr

/-- A STREAM whose rows are in the array (R156): its start, whether it ramps (R152), the weight sets it meets, the output
rows written so far over all passes, and where its command has ended the rows admitted by then (R161). -/
structure StreamRun where
  id    : Nat
  start : Nat
  ramp  : Bool
  act   : WeightSet
  shd   : WeightSet
  done  : Nat
  limit : Option Nat
  deriving DecidableEq, Repr

/-- The quantizer's DRAIN (R200): when it was dispatched and when it starts, the parameter block's words, the bias vector and the
table as read then, the next row, the rows drained and their counts (R222, R223), and rows it has read that a STREAM has
written since (R157). -/
structure DrainRun where
  id    : Nat
  disp  : Nat
  start : Option Nat
  par   : List Nat
  bias  : List Nat
  table : List (List Nat)
  next  : Nat
  rows  : Nat
  held  : NMap AccRow
  amax  : Word
  nans  : Nat
  sats  : Nat
  ovfs  : Nat
  qinv  : Nat
  deriving DecidableEq, Repr

/-- A command whose rows were in the array when it ended (R161): its queue entry, the scratchpad and its allocation as they
stood then, its command ID. -/
structure ArrGhost where
  q       : ArrCmd
  scratch : NMap Byte
  alloc   : Option Alloc
  cmdId   : DWord
  deriving DecidableEq, Repr

/-- The array, its queue and the accumulator memory (03). `ghosts` are ended commands whose rows run out of the array,
`swaps` the SWAP waves under way with the cycles their markers entered in, `waves` the cycles in which the last SWAP markers and
internal swap waves enter, `lastRow` is the last cycle in which a row enters, `idle` that
none has for 1,024 cycles, `ramp` the start of a ramp, `cmd` the matrix command and `trap` its captured setting (R126,
R197). -/
structure ArrayState where
  queue   : List ArrCmd
  ghosts  : List ArrGhost
  nextId  : Nat
  active  : WeightSet
  shadow  : WeightSet
  rows    : NMap AccRow
  load    : Option LdwRun
  swaps   : List (Nat × Nat)
  waves   : List Nat
  streams : List StreamRun
  drain   : Option DrainRun
  lastRow : Nat
  idle    : Bool
  ramp    : Option Nat
  cmd     : Option Nat
  trap    : Bool
  deriving DecidableEq, Repr

/-- A core (R17, R60, R231, R238, R240, R257). Groups are keyed by slot. `lsu` is the first free port-cycle of the
load/store unit, four to a cycle (R55), `lanePath` the first free cycle of the scratchpad lane path (R234). -/
structure CoreSt where
  groups  : NMap Group
  rotate  : Nat
  lastIssuer : NMap Nat
  issuedAt : NMap Nat
  units   : NMap Nat
  lsu     : Nat
  lanePath : Nat
  bars    : List ((Nat × Nat) × Barrier)
  scratch : NMap Byte
  allocs  : NMap Alloc
  zeroing : Option (Nat × Nat)
  bankWaits : List BankWait
  promoted : NMap Nat
  l1      : List (Tgt × L1Line)
  l1ctl   : CacheCtl
  mbuf    : NMap MergeEntry
  nextMb  : Nat
  launched : List MoverCmd
  movers  : NMap MoverCmd
  moverTurn : Nat
  arr     : ArrayState
  lastDone : Nat
  workSince : Option Nat
  deriving DecidableEq, Repr

/-! ### Host objects (13_host_objects), commit (07), scheduling and serving (14) -/

/-- A tenant record (R484, R487). `used` is the HBM charged to its quota; `dying` the DESTROY_TENANT under way. -/
structure Tenant where
  key    : DWord
  quota  : Nat
  used   : Nat
  mirror : Nat
  grace  : Nat
  dying  : Option Request
  deriving DecidableEq, Repr

/-- A queue pair of the host port (R450–R452). `err` holds the cycle at which it entered the error state; `gone` marks a
queue pair that a warm reset has lost, kept only for its tenant's GRACE (R614). -/
structure HostQp where
  src : Nat
  err : Option Nat
  gone : Bool
  deriving DecidableEq, Repr

/-- A leaf of a device table (R326, R327). `pa` of a SHADOWED leaf is the object's index of frame pairs. -/
structure Leaf where
  va   : Nat
  size : Nat
  back : Backing
  w    : Bool
  nx   : Bool
  handle : Nat
  deriving DecidableEq, Repr

/-- A mapping of a context (R485, R486). `remote` names the node that granted it. -/
structure Mapping where
  va     : Nat
  length : Nat
  offset : Nat
  handle : Nat
  remote : Option Nat
  w      : Bool
  nx     : Bool
  removing : Bool
  deriving DecidableEq, Repr

/-- Where a context's teardown stands (R509). -/
inductive CtxPhase where
  | live | tearing | ended
  deriving DecidableEq, Repr

/-- A context (R484, R487, R545). -/
structure Context where
  tenant   : Nat
  hostRoot : Nat
  deviceRoot : Nat
  phase    : CtxPhase
  banned   : Bool
  partials : Nat
  req      : Option Request
  leaves   : List Leaf
  maps     : List Mapping
  deriving DecidableEq, Repr

/-- A queue (R484, R495–R497). `taken`: slots the intake has consumed; `recsHeld`: completion
records reserved; `recs`: records written; `order`: commands taken and not dispatched, oldest first; `reads`: the slots of each
RDMA READ outstanding, oldest first (R519); `partial_`: slots read of an entry that is not whole yet; `buffered`: entries read and
not taken. -/
structure Queue where
  ctx      : Nat
  cls      : Nat
  log2Slots : Nat
  log2Cq   : Nat
  ring     : DWord
  cq       : DWord
  tail     : Nat
  taken    : Nat
  reads    : List Nat
  partial_ : List Byte
  buffered : List RingEntry
  cqHead   : Nat
  recsHeld : Nat
  recs     : Nat
  order    : List Nat
  stopped  : Bool
  destroying : Bool
  model    : Option Nat
  holds    : List Nat
  deriving DecidableEq, Repr

/-- A fence (R503, R508). -/
structure Fence where
  value  : Nat
  poison : Nat
  ctx    : Nat
  mirror : Bool
  live   : Bool
  tenant : Nat
  gen    : Nat
  shares : List Nat
  freeing : Bool
  deriving DecidableEq, Repr

inductive ObjState where
  | free | live | reclaiming
  deriving DecidableEq, Repr

/-- A memory-object entry (R488) with what firmware's extent records hold (R485): size, the base of its frames (for a
SHADOWED object of its first and its second frames, and its first entry of the commit overlay table), shares (tenant, made by the owner). -/
structure MemObj where
  gen    : Nat
  state  : ObjState
  kind   : Nat
  owner  : Nat
  refs   : Nat
  size   : Nat
  base0  : Nat
  base1  : Nat
  cot    : Nat
  shares : List (Nat × Bool)
  deriving DecidableEq, Repr

/-- A mapping granted to another module (R486): node, context there, handle. -/
structure RemoteGrant where
  node   : Nat
  ctx    : Nat
  handle : Nat
  deriving DecidableEq, Repr

/-- A MAP_REMOTE that awaits the owner's answer (R486). -/
structure RemoteMapReq where
  req    : Request
  ctx    : Nat
  node   : Nat
  kind   : Nat
  w      : Bool
  nx     : Bool
  va     : Nat
  remote : DWord
  length : Nat
  offset : Nat
  since  : Nat
  late   : Bool
  deriving DecidableEq, Repr

/-- The states of a frame pair (R288). -/
inductive PairState where
  | idle | owned | committing | held
  deriving DecidableEq, Repr

/-- Who waits for a frame pair: the owner to be, node and tag, and the module that asks (R292, R310). -/
structure Waiter where
  asker : Nat
  node  : Nat
  tag   : Nat
  whole : Bool
  deriving DecidableEq, Repr

/-- A commit overlay table entry (R289) with the copy under way (R293) and the acquirers waiting, oldest first (R292). -/
structure Pair where
  frame0  : Nat
  frame1  : Nat
  cur     : Bool
  state   : PairState
  whole   : Bool
  touched : Bool
  copied  : Bool
  node    : Nat
  tag     : Nat
  copying : Option Nat
  waiters : List Waiter
  deriving DecidableEq, Repr

/-- How far a destination has answered a COMMIT or DISCARD token (R297, R303, R304). -/
inductive DestSt where
  | queued
  | sent (at_ : Nat)
  | acked
  | lost
  | expired
  deriving DecidableEq, Repr

/-- A commit record or a discard under way (R290, R297, R303, R304). -/
structure CommitRec where
  commit  : Bool
  cmd     : Nat
  cmdId   : DWord
  fence   : Option (Nat × Nat)
  dests   : List (Nat × DestSt)
  opened  : Nat
  signaled : Bool
  deriving DecidableEq, Repr

/-- A gang as this module sees it (R309–R314). `members` are the local ones; the leader also keeps `arrived` by node,
the union of claims and what it holds. -/
inductive GangPhase where
  | gathering | acquiring | started | go
  deriving DecidableEq, Repr

structure GangClaim where
  claim : Claim
  node  : Nat
  tag   : Nat
  deriving DecidableEq, Repr

structure Gang where
  count   : Nat
  leader  : Nat
  wait    : Nat
  phase   : GangPhase
  members : List Nat
  arrived : List (Nat × Nat)
  claims  : List GangClaim
  held    : List GangClaim
  asked   : Bool
  ready   : List (Nat × Nat)
  since   : Nat
  replays : Bool
  chans   : List (Nat × Nat)
  deriving DecidableEq, Repr

/-- The phases of a command (R497, R517, R297, R524). -/
inductive CmdPhase where
  | queued        -- taken; 256 others are being translated (R519)
  | translating   -- its ranges are being translated (R332)
  | waiting       -- waits, not-before instant (R505, R434)
  | acquiring     -- acquires its pairs (R292), or a gang member that has reported (R310)
  | ready         -- may be dispatched (R517)
  | running
  | saving (toSave : Nat)
  | saved
  | ending (code : Nat)   -- stops after a fault, a kill or a teardown
  | committing
  | recording (status : Nat)   -- its completion record is on its way to the host (R502)
  deriving DecidableEq, Repr

/-- Why a command was saved or switched out (R335, R520). -/
inductive SaveWhy where
  | preempted | hostFault (record : Nat)
  deriving DecidableEq, Repr

/-- What a save keeps of one core (R523, R524); `core` is the core that was left. -/
structure SavedCore where
  core     : Nat
  groups   : List (Nat × Group)
  scratch  : List (Nat × Byte)
  rows     : NMap AccRow
  active   : WeightSet
  shadow   : WeightSet
  queue    : List ArrCmd
  movers   : List MoverCmd
  launched : List MoverCmd
  bars     : List ((Nat × Nat) × Barrier)
  allocN   : Nat
  trap     : Bool
  colinv   : List Nat
  deriving DecidableEq, Repr

/-- A command: one descriptor taken (R497–R501), with the claims, the owner's tag and what its runs have counted. `turn`
is the position in `cores` at which the rotation of its placement sets goes on (R515), `begun` the
cores on which a group of the run has been placed. -/
structure Cmd where
  queue   : Nat
  pos     : Nat
  slots   : Nat
  ctx     : Nat
  tenant  : Nat
  cls     : Nat
  d       : Descriptor
  phase   : CmdPhase
  untranslated : List Nat
  claims  : List Claim
  extra   : List Claim
  got     : List Claim
  busyEnds : Nat
  replayable : Bool
  objs    : List Nat
  tag     : Option Nat
  part    : Option Nat
  cores   : List Nat
  nextGroup : Nat
  liveGroups : Nat
  turn    : Nat
  begun   : List Nat
  kills   : Nat
  startFt : Nat
  dispatchedAt : Nat
  resumedAt : Nat
  invalid : Nat
  overflow : Nat
  amax    : Word
  bytes   : Nat
  energy  : Nat
  touchedNodes : List Nat
  heldFor : Option (Nat × Nat × Nat)
  dispatched : Bool
  why     : Option SaveWhy
  saved   : List SavedCore
  saveBytes : Nat
  seq     : Option (Nat × Bool)
  released : Bool
  asked   : Option Claim
  readySent : Bool
  trapped : Bool
  deriving DecidableEq, Repr

/-- A sequence entry (R529). STATE is 1 PREFILL, 2 DECODE, 3 PAUSED; an unlisted entry is FREE. `waiting` holds the PAUSE
and RELEASE entries that wait for the step's end, operation and CMD_ID; `stepCount`, `stepPrefill` and `stepPos` are the
entry's part of the step in flight: its tokens, its list and its place there. -/
structure SeqEntry where
  tenant  : Nat
  queue   : Nat
  state   : Nat
  inflight : Bool
  pausePend : Bool
  releasePend : Bool
  fails   : Nat
  model   : Nat
  prio    : Nat
  deadline : Nat
  length  : Nat
  promptLeft : Nat
  kvList  : Nat
  kvPages : Nat
  maxLen  : Nat
  user    : DWord
  admitFt : Nat
  tokensOut : Nat
  cqSlot  : Nat
  waiting : List (Nat × DWord)
  stepCount : Nat
  stepPrefill : Bool
  stepPos : Nat
  deriving DecidableEq, Repr

/-- A step of a model in flight (R534, R538): its commands still running and the status of a failed one. -/
structure SeqStep where
  cmds   : List Nat
  status : Nat
  step   : Nat
  deriving DecidableEq, Repr

/-- The six counters of a tenant (R540): core time in units of 1 / (18 · 144,403,552,893,600) ns, the denominator being divisible by
every number of commands up to 32, array time in units of 1 / 18 ns. -/
structure Acct where
  coreNs  : Nat
  arrayNs : Nat
  hbm     : Nat
  fab     : Nat
  host    : Nat
  energy  : Nat
  deriving DecidableEq, Repr

/-- An error-ring entry (R605). -/
structure ErrEntry where
  seq    : Nat
  code   : Nat
  sev    : Nat
  isPartial : Bool
  escalated : Bool
  more   : Bool
  ft     : Nat
  unit   : Nat
  tenant : Nat
  ctx    : Nat
  cmdId  : DWord
  node   : Nat
  tag    : Nat
  addr   : Nat
  detail : Nat
  deriving DecidableEq, Repr

/-- The reset domains (R612). -/
inductive Domain where
  | core (c : Nat) | channel (stack ch : Nat) | port (p : Nat) | hostPort | cluster | device
  deriving DecidableEq, Repr

/-- A recovery queued or running (R610, R611). -/
structure Recovery where
  seq    : Nat
  domain : Domain
  code   : Nat
  started : Option Nat
  deriving DecidableEq, Repr
/-! ### Translation (08), HBM (09), caches (06) -/

/-- An entry of a command's range list (R332): a page and whether the range declares it writable. -/
structure RangePage where
  page  : Nat
  size  : Nat
  write : Bool
  tr    : Option Trans
  deriving DecidableEq, Repr

/-- Who waits for a walk or a fault record (R335). -/
inductive XWaiter where
  | group (core slot cmd : Nat)
  | mover (core cmd : Nat)
  | pre (cmd : Nat)
  deriving DecidableEq, Repr

/-- The kinds of access of a fault record (R336). -/
inductive Access where
  | read | write | fetch
  deriving DecidableEq, Repr

/-- A walk in progress (R323, R326, R331). `level` 0 is the 4 KiB level; `table` is the host table the next entry is
read from. `stale` marks a walk an invalidation has discarded (R343). -/
structure Walk where
  ctx    : Nat
  va     : Nat
  acc    : Access
  host   : Bool
  level  : Nat
  table  : Nat
  start  : Nat
  stale  : Bool
  waiters : List XWaiter
  deriving DecidableEq, Repr

/-- A host fault record (R336–R338). `seq` is set when it is posted. -/
structure FaultRec where
  ctx    : Nat
  page   : Nat
  acc    : Access
  cause  : Nat
  src    : Nat
  cmdId  : DWord
  tenant : Nat
  seq    : Option Nat
  posted : Nat
  waiters : List XWaiter
  deriving DecidableEq, Repr

/-- What must have ended before DONE covers an invalidation entry (R343): line requests, the host's pending acknowledgments,
merging-buffer entries of cores, atomics, and movers with the cursor of the tile that they are at. -/
structure InvWait where
  reqs  : List Nat
  pend  : List Nat
  ents  : List (Nat × Nat)
  atoms : List Nat
  tiles : List (Nat × Nat × Nat × Nat)
  deriving DecidableEq, Repr

/-- Translation state of the module (R321, R331, R332, R335–R343). `faultCount` holds the records that a command has met for a
page (R338); `invRead` is the read position of the invalidation ring, `invLimit` the count its doorbell gave. The key of an
upper-level entry is its context, its level and the part of the VA above the level's index. -/
structure Xlt where
  cache  : List Trans
  upper  : List ((Nat × Nat × Nat) × Nat)
  ranges : List (Nat × List RangePage)
  walks  : NMap Walk
  nextWalk : Nat
  recs   : NMap FaultRec
  nextRec : Nat
  faultCount : List ((Nat × Nat) × List Nat)
  invRead : Nat
  invLimit : Nat
  invPending : List InvWait
  deriving DecidableEq, Repr

/-- A tag of the L2: sectors present and the kept mark (R243, R246). Order in a set's list: most recently used first. `last`
is set by a LAST hit: the requests that the line is still there for (R247). -/
structure L2Tag where
  line  : Nat
  valid : BitVec 4
  kept  : Bool
  last  : Option (List Nat)
  deriving DecidableEq, Repr

/-- An entry of a slice's merging buffer (R243). Its bytes are already in `mem` (R280); the entry is the channel access
still owed, and `old` the line as it stood under its mask, which an error of the entry brings back (R254). -/
structure L2Merge where
  line   : Nat
  mask   : BitVec 128
  cmd    : Option Nat
  opened : Nat
  old    : List Byte
  deriving DecidableEq, Repr

/-- An L2 slice. `locked` are the lines that an atomic holds locked, with the time of its completion, and `returned` is the old
value that the latest one gave its unit (R375, R376). -/
structure L2Slice where
  ctl  : CacheCtl
  sets : NMap (List L2Tag)
  mbuf : List L2Merge
  keepSeen : List Nat
  locked : NMap Nat
  returned : BitVec 128
  deriving DecidableEq, Repr

/-- An access queued at a channel controller (R372). `pa` is a physical address. What a write or a reduction does to memory is
settled by its place in the order of arrival, and `mem` holds it from then on; the old values that an atomic found stand in
`olds` until it is performed. `own` are the sectors that a read gets whole from the slice's merging buffer. -/
inductive ChanOp where
  | read (req : Nat) (own : List Nat)
  | peerRead (node req pa len psn : Nat) (own : List Nat)
  | write (line : Nat) (mask : BitVec 128) (cmd : Option Nat)
  | atoms (pa : Nat) (ids : List Nat) (olds : List (DWord × Bool))
  | reduce (pa len node psn : Nat)
  | peerAtoms (pa : Nat) (offs : List Nat) (olds : List DWord) (node req psn : Nat)
  deriving DecidableEq, Repr

/-- A spare switch or channel reset under way (R360, R365): its start, the lane, whether it is a reset. -/
structure ChanDown where
  since : Nat
  lane  : Option Nat
  reset : Bool
  deriving DecidableEq, Repr

/-- A channel controller (R356–R366). `spares` maps a DQ group to its spared lane and whether at run time. -/
structure Chan where
  queue  : List ChanOp
  down   : Option ChanDown
  laneErrs : List (Nat × List Nat)
  spares : NMap (Nat × Bool)
  lastSwitch : Option Nat
  lastDone : Nat
  workSince : Option Nat
  deriving DecidableEq, Repr

/-- The stacks: controllers by stack × 32 + channel, temperature and band of each stack, the encryption keys (R367), training. -/
structure Hbm where
  chans  : NMap Chan
  temp   : NMap Nat
  tempAt : NMap Nat
  band   : NMap Nat
  keys   : Option (BitVec 512)
  selfRef : Bool
  faultStacks : List Nat
  patrol : NMap Nat
  patrolAt : NMap Nat
  deriving DecidableEq, Repr

/-- A reduction performed whose result has not yet reached the slice (R373): the old values for lanes of this module, or
for a peer's ATOMIC block, or nothing for a REDUCE block. -/
structure RedResult where
  sectors : List Nat
  atoms  : List (Nat × DWord × Bool)
  peer   : Option (Nat × Nat × Nat)
  olds   : List DWord
  deriving DecidableEq, Repr

/-- The memory system beside the cores. `heldReads` are peers' READs of sectors on which a reduction is outstanding (R373). -/
structure MemSys where
  reqs    : NMap LineReq
  nextReq : Nat
  loads   : NMap LoadRec
  nextLoad : Nat
  atoms   : NMap AtomRec
  nextAtom : Nat
  results : NMap RedResult
  nextResult : Nat
  l2      : NMap L2Slice
  heldReads : List BlockHdr
  deriving DecidableEq, Repr
/-! ### The fabric (10) -/

/-- The payload of a block (R396), and of the CTL messages that share types 0x20–0x2F. -/
inductive Msg where
  | ack (perf : Nat)
  | nak (ctl : Bool)
  | heartbeat
  | timeReq (depth state seq t1 : Nat)
  | timeResp (depth state seq t1 t2 t3 creq : Nat)
  | write (data : List Byte)
  | writeMasked (mask : BitVec 128) (data : List Byte)
  | reduce (aop : Nat) (data : List Byte)
  | atomic (aop : Nat) (entries : List AtomEntry)
  | read (len : Nat)
  | readResp (data : List Byte)
  | atomicResp (olds : List DWord)
  | refused (code psn : Nat)
  | announcement (a : Announce)
  | reset
  | rejoin (announceHash topoHash : Nat)
  | rejoinAck (discarded : List Nat)
  | rejoinEnd
  | reroute
  | claim (pair : Nat) (whole : Bool) (owner ownerTag : Nat)
  | claimGranted (pair : Nat)
  | commit (lastPsn : Nat)
  | commitAck
  | discard (lastPsn : Nat)
  | discardFor (owner : Nat)
  | discardAck
  | mapRequest (tenant ctx : Nat) (handle : DWord) (offset length kind : Nat) (w : Bool)
  | mapAnswer (ok : Bool) (reason base : Nat)
  | mapRelease (ctx : Nat) (handle : DWord)
  | gangArrived (gang members leader wait : Nat) (claims : List Claim) (replays : Bool) (chans : List (Nat × Nat))
  | gangStart (gang : Nat) (replays : Bool) (chans : List (Nat × Nat))
  | gangReady (gang : Nat)
  | gangGo (gang : Nat)
  | gangEnd (gang code : Nat)
  deriving DecidableEq, Repr

/-- A block as it waits or has been sent (R395). `cls` is 0 CTL, 1 for a tile mover's write, which is SCHED traffic
(R440), 2 BE. `groups` are the groups of `cmd`, by index, whose stores or atomics it carries (R100); 2³² + 4 · core + m stands for a
tile mover. -/
structure Blk where
  dst    : Nat
  cls    : Nat
  shadow : Bool
  addr   : Nat
  tag    : Nat
  req    : Nat
  psn    : Nat
  msg    : Msg
  cmd    : Option Nat
  groups : List Nat
  deriving DecidableEq, Repr

/-- A block on the wire: the header fields that its sending fills in (R395). -/
structure WireBlk where
  blk     : Blk
  src     : Nat
  session : Nat
  epoch   : Nat
  ack     : Nat
  credit  : Nat
  deriving DecidableEq, Repr

/-- The states of a peer (R407). -/
inductive PeerState where
  | unverified | up | suspect | down | reset | rejected
  deriving DecidableEq, Repr

/-- One sequenced stream of a pair (R397–R399): the next PSN to give, the next expected, blocks sent and not covered by
ACK, how many of them need no sending at present, when ACK last advanced or a re-send began, whether a re-send awaits an
advance, failed re-sends, when a NAK was last sent, and since when an ACK is owed. -/
structure StreamSt where
  next     : Nat
  expect   : Nat
  sent     : List Blk
  cursor   : Nat
  lastAdv  : Nat
  resent   : Bool
  fails    : Nat
  lastNak  : Option Nat
  ackDue   : Option Nat
  deriving DecidableEq, Repr

/-- What a request slot serves (R395 REQ, R408). -/
inductive ReqWhat where
  | line (req : Nat)
  | atoms (ids : List Nat)
  deriving DecidableEq, Repr

/-- A request outstanding toward a peer. `due` is set at its first transmission (R408). -/
structure OutReq where
  what : ReqWhat
  cmd  : Nat
  due  : Option Nat
  psn  : Option Nat
  deriving DecidableEq, Repr

/-- A re-route under way (R411): when the old path last carried a block. -/
structure Reroute where
  toAlt : Bool
  lastOld : Nat
  told : Bool
  deriving DecidableEq, Repr

/-- A write, reducing write or atomic that has arrived and is not yet performed (R405). -/
structure InBlk where
  hdr  : BlockHdr
  msg  : Msg
  started : Bool
  deriving DecidableEq, Repr

/-- A COMMIT or DISCARD token that waits for the data blocks before it (R298, R304). -/
structure InToken where
  commit : Bool
  tag    : Nat
  psn    : Nat
  deriving DecidableEq, Repr

/-- A write of this module sent to a peer and not known performed there (R100, R405). -/
structure Unperf where
  psn : Nat
  blk : Blk
  deriving DecidableEq, Repr

/-- A peer (R392, R397–R413). `perfTold` is the PERF that the last ACK sent to it carried, `heldSince` the time from which the
second of its HELD pairs counts (R301, R302). -/
structure Peer where
  state   : PeerState
  epoch   : Nat
  session : Nat
  heard   : Option Nat       -- hash of an announcement received and not yet checked
  told    : Bool             -- this module's announcement has been sent
  verified : Option Nat      -- hash of the verified announcement
  onAlt   : Bool
  reroute : Option Reroute
  ctl     : StreamSt
  data    : StreamSt
  waitingSend : List Blk     -- waits for verification or for room among the active pairs
  credits : Nat
  granted : Nat
  timeouts : Nat
  active  : Bool
  lastHeard : Nat
  lastSent : Nat
  lastActive : Nat
  lostAt  : Option Nat
  wasActive : Bool
  discardedTags : List Nat
  rejoinWait : Bool
  outReqs : NMap OutReq
  releases : List (Nat × DWord)
  ingress : List InBlk
  tokens  : List InToken
  unperf  : List Unperf
  perfTold : Nat
  heldSince : Option Nat
  deriving DecidableEq, Repr

/-- The states of a port's link (R415, R612). -/
inductive PortLink where
  | off | idle | training (since : Nat) | run | fault
  deriving DecidableEq, Repr

/-- An open slot (R441): its entry, its start and end in FT_NS, the payload bytes sent, and whether a NAK has come for a block that it sent
(R403). -/
structure OpenSlot where
  slot  : CalSlot
  start : Nat
  stop  : Nat
  used  : Nat
  barred : Bool
  deriving DecidableEq, Repr

/-- A port (R401–R403, R416, R435–R443, R668). `ord` holds the ordered queues of all its destinations in the order of
entry; `turn` is the destination whose request was sent last; `schedRun` counts SCHED frames in a row. -/
structure Port where
  link    : PortLink
  lanes   : BitVec 8
  link_   : List Blk
  ctl     : List Blk
  ord     : List Blk
  reads   : List Blk
  resp    : List Blk
  turn    : Nat
  schedRun : Nat
  calendar : List CalSlot
  calStart : Nat
  calFrame : Nat
  slot    : Option OpenSlot
  guardNs : Nat
  lastDone : Nat
  workSince : Option Nat
  runSince : Nat
  deriving DecidableEq, Repr

/-- Loading a topology table (R389): none, loading, loaded, rejected with a reason. -/
inductive TopoSt where
  | none | loading | loaded | rejected (reason : Nat)
  deriving DecidableEq, Repr

/-- The fabric: the loaded topology (R386–R389), this module's epoch and the boot nonce of its announcement (R391, R395). -/
structure Fab where
  topo    : Option TopoTable
  topoSt  : TopoSt
  epoch   : Nat
  nonce   : Nat
  peers   : NMap Peer
  ports   : NMap Port
  nextReq : Nat
  deriving DecidableEq, Repr
/-! ### The module -/

/-- What the module sends: RDMA toward the host, answers to the host, frames, pins, SMBus replies. -/
inductive Out where
  | hostWrite (id tenant va key : Nat) (data : List Byte)
  | hostRead (tenant va key len : Nat)
  | hostAtomic (id tenant va key : Nat) (cas : Bool) (opnd cmp : DWord)
  | nakInvalid (tenant : Nat)
  | nakAccess (tenant : Nat)
  | nakRnr (tenant : Nat)
  | ack (tenant : Nat)
  | readData (tenant : Nat) (data : List Byte)
  | atomicData (tenant : Nat) (old : DWord)
  /-- REP from the port's IPv4 address, with its private data (R451, R452). -/
  | rep (tenant ip : Nat) (data : List Byte)
  | rej (tenant : Nat)
  | frame (port : Nat) (blks : List WireBlk) (octets : List Byte)
  /-- A TIME block in an IEEE 1588 event message (R426): its Ethernet header, `origin` the departure that a Sync carries. -/
  | timeMsg (port dst domain : Nat) (sync : Bool) (origin : Nat) (header block : List Byte)
  | smb (data : List Byte)
  | pin (name : String) (level : Bool)
  deriving DecidableEq, Repr

/-- An RDMA of the device toward the host that awaits its acknowledgment (R287): whose it is and what follows. -/
inductive HostPend where
  | store (cmd : Nat) (groups : List Nat) (addr : Nat) (data : List Byte)
  | atom (id : Nat)
  | record (cmd : Nat)
  | mirror (fence : Nat)
  | other
  deriving DecidableEq, Repr

/-- Scheduling (R513–R527). `coreTime` holds core-time by tenant and class and by millisecond, `rotation` the queue served
last by tenant and class, `poolUsed` the occupied bytes of the save pool, `sliceDue` the commands whose slice has expired. -/
structure Sched where
  ctxCfg  : NMap Word
  ctxPin  : NMap (List DWord)
  tenW    : NMap Nat
  coreTime : List ((Nat × Nat) × List (Nat × Nat))
  rotation : List ((Nat × Nat) × Nat)
  poolUsed : Nat
  sliceDue : List Nat
  deriving DecidableEq, Repr


/-- Serving (R529–R538) and accounting (R540–R542). `calib` holds the last calibrations: energy metered, energy charged;
`nextStep` is the least step number still to be released. -/
structure Serving where
  seqs    : NMap SeqEntry
  steps   : NMap SeqStep
  nextStep : Nat
  acct    : NMap Acct
  snaps   : NMap Acct
  unattr  : Nat
  meter   : Nat
  ingress : Nat
  snapFt  : Nat
  snapSeq : Nat
  snapIngress : Nat
  snapUnattr : Nat
  snapMeter : Nat
  calib   : List (Nat × Nat)
  calibAt : Nat
  deriving DecidableEq, Repr

/-- What waits at a queue pair (R456, R473, R483): a request, a write to an emulated page, or any access behind one of them. -/
inductive FwCall where
  | createTenant (r : Request) (tenant : Nat) (key : DWord) (quota mirror grace : Nat)
  | destroyTenant (r : Request) (tenant : Nat)
  | createContext (r : Request) (hostRoot : Nat)
  | teardownContext (r : Request) (ctx : Nat)
  | createQueue (r : Request) (ctx cls log2Slots log2Cq : Nat) (ring cq : DWord)
  | destroyQueue (r : Request) (queue : Nat)
  | createFence (r : Request) (ctx mirror initial : Nat)
  | destroyFence (r : Request) (fence : Nat)
  | signalFence (r : Request) (fence value : Nat)
  | poisonFence (r : Request) (fence code : Nat)
  | shareFence (r : Request) (fence tenant : Nat)
  | createObject (r : Request) (kind size : Nat)
  | mapObject (r : Request) (handle : DWord) (ctx w nx va offset length : Nat)
  | unmap (r : Request) (ctx va length : Nat)
  | mapRemote (r : Request) (ctx node kind w nx va : Nat) (remote : DWord) (length offset : Nat)
  | shareObject (r : Request) (handle : DWord) (tenant : Nat)
  | requestBadOp (r : Request) (op : Nat)
  | write (addr size : Nat) (value : DWord)
  | fwuDesc (value : Word) (desc : Option (List Byte))
  | cacheDisable (unit : CacheUnit)
  | cacheInvalidate (unit : CacheUnit)
  | cacheEnable (unit : CacheUnit)
  | modelEnable (value : Word) (templates : Option (Descriptor × Descriptor))
  | doorbell (addr len tail cqHead : Nat)
  | ftmNow
  | refcountRead (index count : Nat)
  | refcountAdd (index : Nat) (add : DWord)
  | refcountCas (index : Nat)
  | refcountWrite
  | objectRead (handle offset length : Nat)
  | objectWrite (handle offset : Nat) (data : List Byte)
  | objectAtomic (handle offset : Nat) (cas : Bool) (opnd cmp : DWord)
  deriving DecidableEq, Repr

/-- A request or an access that waits at its queue pair. -/
structure Parked where
  id     : Nat
  since  : Nat
  tenant : Nat
  call   : FwCall
  deriving DecidableEq, Repr

/-- Host objects (13). `hostEg` is what the host port's egress buffer holds, oldest first (R668). -/
structure Objects where
  tenants  : NMap Tenant
  contexts : NMap Context
  queues   : NMap Queue
  fences   : NMap Fence
  objs     : NMap MemObj
  grants   : List RemoteGrant
  mapReqs  : List RemoteMapReq
  qps      : NMap HostQp
  pend     : NMap (Nat × HostPend)
  hostEg   : List Out
  nextPend : Nat
  parked   : List Parked
  nextPark : Nat
  retrainAt : Option Nat
  deriving DecidableEq, Repr

/-- Commit (07): the commit overlay table, tags in use, records under way, gangs. -/
structure Commit where
  pairs    : NMap Pair
  tags     : List Nat
  nextTag  : Nat
  recs     : NMap CommitRec
  gangs    : NMap Gang
  endedGangs : List (Nat × Nat)
  gangGo   : List Nat
  deriving DecidableEq, Repr

/-- A group that its command's fault has stopped, with its command as it stood, in the cycle of the fault (R53). -/
structure Stopped where
  core  : Nat
  slot  : Nat
  group : Group
  cmd   : Cmd
  at_   : Nat
  deriving DecidableEq, Repr

/-- Errors, recovery, Jack (17). `stopped` holds the groups that a fault has stopped in its cycle (R53), `unitSince` and
`unitDone` hold since when a unit has had items queued and when it last completed one, by 0 intake, 1 dispatcher, 2 commit
unit, 3 sequence engine (R617); `dumpMiss` the last 4 KiB read of a record of the dump that was not answered, by PG_ID
(R621). -/
structure Errors where
  ring    : List ErrEntry
  queue   : List Recovery
  active  : Option Recovery
  warmStarts : List Nat
  warmPhase : Option Nat
  warmReq : Option (Nat × Nat)   -- trigger and code of a warm reset due (R614)
  dumping : Option (Domain × Nat × Nat)
  dumpNo  : Nat
  trunc   : Bool
  copyDue : List Nat
  sizeKb  : Nat
  suspects : List Nat
  replaying : Option Nat
  suspectCore : Option Nat
  lastCheck : Nat
  clusterDown : Option Nat
  coreDown : NMap Nat
  sramErrs : NMap (List Nat)
  unresolved : NMap (List Nat)
  retired : List Nat
  stopped : List Stopped
  unitSince : NMap Nat
  unitDone : NMap Nat
  dumpMiss : NMap Nat
  deriving DecidableEq, Repr


/-- Fabric time (11). `q` counts FT in units of 2⁻¹⁶ ns / (18·10¹²), so that a cycle of 3.6 GHz adds
5·2¹⁶·(10¹² + rate). -/
inductive FtState where
  | acquiring | locked | holdover | lost
  deriving DecidableEq, Repr

/-- The install of a calendar (R438, R439, R449). -/
inductive CalSt where
  | none | loading | pending | applied | refused (reason : Nat)
  deriving DecidableEq, Repr

structure CalInst where
  st    : CalSt
  mask  : BitVec 16
  image : Option CalImage
  at_   : Nat
  deriving DecidableEq, Repr

/-- A time request sent and not answered (R426, R427): its number, the node asked, T1 in units of 2⁻¹⁶ ns, its cycle. -/
structure TimeOut where
  seq  : Nat
  node : Nat
  t1   : Nat
  sent : Nat
  deriving DecidableEq, Repr

/-- The FTM block. `streak` counts successful exchanges in a row with the source, `stepped` says that ACQUIRING has set FT,
`everLocked` that the state has been LOCKED since cold boot, `anc` is how far above the parent the source is, `srcSince` when
it became the source, `parentRun` answers in a row of the parent meanwhile, `hist` the last 16 pairs (θ, L) in units of 2⁻¹⁷
ns, `empties` the refused installs whose ports are still to be emptied: instant and ports. -/
structure Ftm where
  q       : Nat
  running : Bool
  state   : FtState
  rate    : Int
  seq     : Nat
  outs    : List TimeOut
  lastReq : Nat
  streak  : Nat
  stepped : Bool
  anc     : Nat
  srcSince : Nat
  parentRun : Nat
  lastOk  : Nat
  hist    : List (Int × Int)
  offset  : Int
  pathDly : Int
  gmOffset : Int
  holdSince : Nat
  bootAt  : Nat
  everLocked : Bool
  gm      : Bool
  gmAbsent : Bool
  gmLost  : Bool
  lastAnn : Nat
  cal     : CalInst
  empties : List (Nat × BitVec 16)
  deriving DecidableEq, Repr

/-- A voltage domain (15): frequency in MHz (0 when gated), voltage in eighths of a millivolt, duty in eighths, whether the
clock is stopped within the duty period and since when it runs or stands, whether the fast limiter acts on it, whether it is
lowered for temperature, held under BDL_THERMAL_CRITICAL, idle, clamped below its floor, the constraint that sets it (LIMIT
of R566), the last cycle in which it held work; the count of its own cycles and what is left over of the next, in 7,200ths.
-/
structure Dom where
  mhz  : Nat
  mv8  : Nat
  duty : Nat
  stopped : Bool
  dutyAt : Nat
  fast : Bool
  hot  : Bool
  crit : Bool
  idle : Bool
  clamped : Bool
  limit : Nat
  busyAt : Nat
  cyc  : Nat
  frac : Nat
  deriving DecidableEq, Repr

/-- Bridle (15). `sense` is the last measurement, `hist` the 10 µs averages of the last 10 ms, `holds` the pre-ramps in
force by instant, `memDrop` what MEM_THERMAL has taken off the ceilings in MHz and `memAt` its last step, `overSince` and
`lowSince` the period above 2,800 W and the time since it (R553). -/
structure Bridle where
  doms : NMap Dom
  lastEval : Nat
  sense : BridleSense
  hist : List (Nat × Nat)
  holds : List (Nat × BitVec 16)
  memDrop : Nat
  memAt : Nat
  capUnmet : Bool
  overSince : Option Nat
  lowSince : Option Nat
  deriving DecidableEq, Repr

/-- The states of a live update (R591). -/
inductive FwuSt where
  | idle | fetching | verifying | staged | armed | probation | flashing | rejected
  deriving DecidableEq, Repr

/-- What is being written to flash (R595). -/
inductive FlashJob where
  | image (i : FwImage)
  | desc (d : PartDesc)
  deriving DecidableEq, Repr

/-- The fields of the emulated pages as the old image serialized them (R593, R594). -/
structure FwKeep where
  regs     : NMap DWord
  staged   : NMap DWord
  applying : NMap (List (Nat × DWord))
  ctxCfg   : NMap Word
  ctxPin   : NMap (List DWord)
  tenW     : NMap Nat
  deriving DecidableEq, Repr

/-- The FWU block (R591–R595): the image in the staging slot, what is written to flash and since when, the instant of the
hand-off in FT_NS and the cycle in which it came, whether the control cluster is restarting into the staging slot, the image
and the fields to revert to, FWU_LAST. -/
structure Fwu where
  st     : FwuSt
  reason : Nat
  image  : Option FwImage
  job    : Option FlashJob
  flashAt : Nat
  handAt : Nat
  handNow : Nat
  handing : Bool
  old    : Option FwImage
  keep   : Option FwKeep
  last   : Nat
  deriving DecidableEq, Repr

/-- The states of an attestation report (R601). -/
inductive AttSt where
  | none | signing | written | failed
  deriving DecidableEq, Repr

/-- Start-up, identity and firmware (16): DEV_STAT, the enabled masks, DEV_BOOTSTAT (R596), the contents of flash, the running
image and whether its slot is slot 1, the accepted descriptor, the host port's MAC (R583), the identity and the announcement
(R601), FW_CHAIN (R588), attestation, live update. `gen` is GEN of the query table between rewrites, `genEnd` the end of the last
one (R476). -/
structure Boot where
  ready   : Bool
  serving : Bool
  coreMask : Nat
  stackMask : Nat
  portMask : Nat
  part    : Nat
  features : Nat
  idHash  : Nat
  gen     : Nat
  genEnd  : Nat
  stage   : Nat
  error   : Nat
  netboot : Bool
  descOk  : Bool
  warm    : Bool
  stackFault : Nat
  handoffs : Nat
  warms   : Nat
  flashImage : Option FwImage
  flashDesc  : Option PartDesc
  image   : Option FwImage
  slot1   : Bool
  desc    : Option PartDesc
  mac     : Nat
  identity : Bool
  announced : Bool
  chain   : Nat
  att     : AttSt
  attSeq  : Nat
  reports : Nat
  fwu     : Fwu
  deriving DecidableEq, Repr

/-- Module power and the monitor (18): whether VAUX is up, the level of CAR_PWRGD, a rise of it that awaits the end of the
hold-off, the cycle of its last fall, since when the rails come up, MOD_PWROK, COLD_REQ_N and ALERT_N (true: asserted),
the latches of STATUS (R649), THERM_CRIT among them as a thermal trip found it (R651). -/
structure Monitor where
  vaux   : Bool
  carPwrgd : Bool
  riseWaits : Bool
  fellAt : Option Nat
  railsAt : Option Nat
  pwrok  : Bool
  coldReq : Bool
  alert  : Bool
  thermTrip : Bool
  thermCrit : Bool
  brownout : Bool
  overvolt : Bool
  overcur : Bool
  railFault : Option Nat
  deriving DecidableEq, Repr

/-- AWL_STAT.STATE (R663). -/
inductive AwlSt where
  | off | driving | refused (reason : Nat)
  deriving DecidableEq, Repr

/-- The instructions of the TAP (R662). -/
inductive TapInstr where
  | bypass | idcode | sample | extest | clamp | highz
  deriving DecidableEq, Repr

/-- Awl and the TAP (19): the selection, the cycle of TRIG's rise while it is high, the last match, TRST_N, the TAP's
instruction as it was shifted in. -/
structure Awl where
  st   : AwlSt
  trig : Option Nat
  matched : Nat
  trstLow : Bool
  tap  : TapInstr
  deriving DecidableEq, Repr

/-- The module. `pending` is the queue of commands; `now` counts cycles of the 3.6 GHz uncore clock; `free` counts the
free values taken; `out` is what has been sent, newest first; `regs` holds the effective value of every register that
differs from its reset value, `staged` the staged copies of RWS fields, `applying` for each page the snapshot not yet in
effect (R468). `mem` is HBM by physical address and `poison` its poisoned sectors (R364). -/
structure State where
  pending : List Instr
  now     : Nat
  free    : Nat
  out     : List Out
  regs    : NMap DWord
  staged  : NMap DWord
  applying : NMap (List (Nat × DWord))
  mem     : List Host.Cell
  poison  : List Nat
  cores   : NMap CoreSt
  ms      : MemSys
  hbm     : Hbm
  xlt     : Xlt
  obj     : Objects
  cmds    : NMap Cmd
  nextCmd : Nat
  com     : Commit
  sch     : Sched
  srv     : Serving
  err     : Errors
  fab     : Fab
  ftm     : Ftm
  bdl     : Bridle
  boot    : Boot
  mon     : Monitor
  awl     : Awl
  deriving DecidableEq, Repr

/-- The module before its first cold boot: no power, every register at its reset value (R471), no object, nothing sent.
What each value rests on is in INVENTORY.md under State. -/
def State.reset : State :=
  { pending := [], now := 0, free := 0, out := [], regs := [], staged := [], applying := [], mem := [], poison := [],
    cores := [],
    ms := { reqs := [], nextReq := 0, loads := [], nextLoad := 0, atoms := [], nextAtom := 0, results := [],
            nextResult := 0, l2 := [], heldReads := [] },
    hbm := { chans := [], temp := [], tempAt := [], band := [], keys := none, selfRef := false, faultStacks := [], patrol := [],
             patrolAt := [] },
    xlt := { cache := [], upper := [], ranges := [], walks := [], nextWalk := 0, recs := [], nextRec := 0,
             faultCount := [], invRead := 0, invLimit := 0, invPending := [] },
    obj := { tenants := [], contexts := [], queues := [], fences := [], objs := [], grants := [], mapReqs := [],
             qps := [], pend := [], hostEg := [], nextPend := 0, parked := [], nextPark := 0, retrainAt := none },
    cmds := [], nextCmd := 0,
    com := { pairs := [], tags := [], nextTag := 0, recs := [], gangs := [], endedGangs := [], gangGo := [] },
    sch := { ctxCfg := [], ctxPin := [], tenW := [], coreTime := [], rotation := [], poolUsed := 0, sliceDue := [] },
    srv := { seqs := [], steps := [], nextStep := 0, acct := [], snaps := [], unattr := 0, meter := 0, ingress := 0,
             snapFt := 0, snapSeq := 0, snapIngress := 0, snapUnattr := 0, snapMeter := 0,
             calib := [], calibAt := 0 },
    err := { ring := [], queue := [], active := none, warmStarts := [], warmPhase := none, warmReq := none,
             dumping := none, dumpNo := 0, trunc := false, copyDue := [], sizeKb := 0, suspects := [],
             replaying := none, suspectCore := none, lastCheck := 0, clusterDown := none, coreDown := [],
             sramErrs := [], unresolved := [], retired := [], stopped := [], unitSince := [], unitDone := [], dumpMiss := [] },
    fab := { topo := none, topoSt := .none, epoch := 0, nonce := 0, peers := [], ports := [], nextReq := 0 },
    ftm := { q := 0, running := false, state := .acquiring, rate := 0, seq := 0, outs := [], lastReq := 0, streak := 0, stepped := false,
             anc := 0, srcSince := 0, parentRun := 0, lastOk := 0, hist := [], offset := 0, pathDly := 0, gmOffset := 0, holdSince := 0,
             bootAt := 0, everLocked := false, gm := false, gmAbsent := false, gmLost := false, lastAnn := 0,
             cal := { st := .none, mask := 0, image := none, at_ := 0 }, empties := [] },
    bdl := { doms := [], lastEval := 0, sense := { avg10us := 0, avg1ms := 0, current := [], temp := [], load := [], other := 0 },
             hist := [], holds := [], memDrop := 0, memAt := 0, capUnmet := false, overSince := none, lowSince := none },
    boot := { ready := false, serving := false, coreMask := 0, stackMask := 0, portMask := 0, part := 0, features := 0, idHash := 0,
              gen := 0, genEnd := 0, stage := 0, error := 0, netboot := false, descOk := false, warm := false, stackFault := 0, handoffs := 0,
              warms := 0, flashImage := none, flashDesc := none, image := none, slot1 := false, desc := none, mac := 0,
              identity := false, announced := false, chain := 0, att := .none, attSeq := 0, reports := 0,
              fwu := { st := .idle, reason := 0, image := none, job := none, flashAt := 0, handAt := 0, handNow := 0, handing := false,
                       old := none, keep := none, last := 0 } },
    mon := { vaux := false, carPwrgd := false, riseWaits := false, fellAt := none, railsAt := none, pwrok := false,
             coldReq := false, alert := false, thermTrip := false, thermCrit := false, brownout := false, overvolt := false, overcur := false,
             railFault := none },
    awl := { st := .off, trig := none, matched := 0, trstLow := false, tap := .idcode } }

end Sys2Proof.Machine
end

