-- ==== Sys2Proof/Machine/Regs.lean ====
section
/-! DEFINITION. The registers of the register pages: one constant for each, with its address, instances, type, reset
value, the bits a write sets and the bounds it is clamped to (R57, R163, R228, R272, R346, R378, R382, R415, R445,
R477, R478, R544, R547, R548, R564, R600, R602, R630, R631, R663). -/

namespace Sys2Proof.Machine.Reg
open Sys2Proof.Machine

/-- CORE_FPM_LIMIT (R57). -/
def coreFpmLimit : RegDef := ⟨0x080040, 0x4000, 192, false, .rws, 0x100000, 0xffffffff, 0x0, none⟩
/-- CORE_MSTK_HWM (R57). -/
def coreMstkHwm : RegDef := ⟨0x080044, 0x4000, 192, false, .rw, 0x0, 0x3f, 0x0, none⟩
/-- CORE_RESIDENT (R57). -/
def coreResident : RegDef := ⟨0x080048, 0x4000, 192, false, .ro, 0x0, 0x0, 0x0, none⟩
/-- CORE_VRF_FREE (R57). -/
def coreVrfFree : RegDef := ⟨0x080050, 0x4000, 192, true, .ro, 0x800800800800, 0x0, 0x0, none⟩
/-- CORE_FAULT_INFO (R57). -/
def coreFaultInfo : RegDef := ⟨0x080058, 0x4000, 192, false, .w1c, 0x0, 0x0, 0x80000000, none⟩
/-- CORE_FAULT_PC (R57). -/
def coreFaultPc : RegDef := ⟨0x080060, 0x4000, 192, true, .ro, 0x0, 0x0, 0x0, none⟩
/-- CORE_FAULT_CMD (R57). -/
def coreFaultCmd : RegDef := ⟨0x080068, 0x4000, 192, true, .ro, 0x0, 0x0, 0x0, none⟩
/-- MXA_WSTAT (R163). -/
def mxaWstat : RegDef := ⟨0x081040, 0x4000, 192, true, .ro, 0x0, 0x0, 0x0, none⟩
/-- MXA_QSTAT (R163). -/
def mxaQstat : RegDef := ⟨0x081048, 0x4000, 192, false, .ro, 0x0, 0x0, 0x0, none⟩
/-- MXA_XTRAP (R163). -/
def mxaXtrap : RegDef := ⟨0x08104c, 0x4000, 192, false, .rws, 0x0, 0x1, 0x0, none⟩
/-- MXA_XSTAT (R163). -/
def mxaXstat : RegDef := ⟨0x081050, 0x4000, 192, false, .w1c, 0x0, 0x0, 0x80000000, none⟩
/-- MXA_CFAULT (R163). -/
def mxaCfault : RegDef := ⟨0x081054, 0x4000, 192, false, .w1c, 0x0, 0x0, 0x80000000, none⟩
/-- MXA_XCMD (R163). -/
def mxaXcmd : RegDef := ⟨0x081058, 0x4000, 192, true, .ro, 0x0, 0x0, 0x0, none⟩
/-- MXA_COLINV0 (R163). -/
def mxaColinv0 : RegDef := ⟨0x081060, 0x4000, 192, false, .ro, 0x0, 0x0, 0x0, none⟩
/-- MXA_COLINV1 (R163). -/
def mxaColinv1 : RegDef := ⟨0x081064, 0x4000, 192, false, .ro, 0x0, 0x0, 0x0, none⟩
/-- MXA_COLINV2 (R163). -/
def mxaColinv2 : RegDef := ⟨0x081068, 0x4000, 192, false, .ro, 0x0, 0x0, 0x0, none⟩
/-- QNT_PFAULT (R228). -/
def qntPfault : RegDef := ⟨0x082040, 0x4000, 192, false, .w1c, 0x0, 0x0, 0x80000000, none⟩
/-- QNT_PFCMD (R228). -/
def qntPfcmd : RegDef := ⟨0x082048, 0x4000, 192, true, .ro, 0x0, 0x0, 0x0, none⟩
/-- QNT_AMAX (R228). -/
def qntAmax : RegDef := ⟨0x082050, 0x4000, 192, false, .ro, 0x0, 0x0, 0x0, none⟩
/-- QNT_NANCNT (R228). -/
def qntNancnt : RegDef := ⟨0x082054, 0x4000, 192, false, .ro, 0x0, 0x0, 0x0, none⟩
/-- QNT_SATCNT (R228). -/
def qntSatcnt : RegDef := ⟨0x082058, 0x4000, 192, false, .ro, 0x0, 0x0, 0x0, none⟩
/-- QNT_OVFCNT (R228). -/
def qntOvfcnt : RegDef := ⟨0x08205c, 0x4000, 192, false, .ro, 0x0, 0x0, 0x0, none⟩
/-- QNT_INVCNT (R228). -/
def qntInvcnt : RegDef := ⟨0x082060, 0x4000, 192, false, .ro, 0x0, 0x0, 0x0, none⟩
/-- QNT_ROWS (R228). -/
def qntRows : RegDef := ⟨0x082064, 0x4000, 192, false, .ro, 0x0, 0x0, 0x0, none⟩
/-- TMV_L1CTL (R272). -/
def tmvL1ctl : RegDef := ⟨0x083040, 0x4000, 192, false, .rw, 0x1, 0x1, 0x0, none⟩
/-- TMV_STAT (R272). -/
def tmvStat : RegDef := ⟨0x083044, 0x4000, 192, false, .ro, 0x40, 0x0, 0x0, none⟩
/-- TMV_ECC (R272). -/
def tmvEcc : RegDef := ⟨0x083048, 0x4000, 192, false, .rw, 0x0, 0xffffff, 0x80000000, none⟩
/-- TMV_ECCADDR (R272). -/
def tmvEccaddr : RegDef := ⟨0x083050, 0x4000, 192, true, .ro, 0x0, 0x0, 0x0, none⟩
/-- XLT_FMT (R346). -/
def xltFmt : RegDef := ⟨0x017040, 0x0, 1, true, .rwi, 0x4000000000000000, 0xdfffffffffc00000, 0x0, none⟩
/-- XLT_APBASE (R346). -/
def xltApbase : RegDef := ⟨0x017048, 0x0, 1, true, .rwi, 0x0, 0xfffffffffffff000, 0x0, none⟩
/-- XLT_APSIZE (R346). -/
def xltApsize : RegDef := ⟨0x017050, 0x0, 1, true, .rwi, 0x0, 0xfffffffffffff000, 0x0, none⟩
/-- XLT_APRVA (R346). -/
def xltAprva : RegDef := ⟨0x017058, 0x0, 1, true, .rwi, 0x0, 0xffffffffffffffff, 0x0, none⟩
/-- XLT_APRKEY (R346). -/
def xltAprkey : RegDef := ⟨0x017060, 0x0, 1, false, .rwi, 0x0, 0xffffffff, 0x0, none⟩
/-- XLT_STAT (R346). -/
def xltStat : RegDef := ⟨0x017064, 0x0, 1, false, .ro, 0x0, 0x0, 0x0, none⟩
/-- XLT_FRING_BASE (R346). -/
def xltFringBase : RegDef := ⟨0x017068, 0x0, 1, true, .rwi, 0x0, 0xfffffffffffff000, 0x0, none⟩
/-- XLT_FRING_CTL (R346). -/
def xltFringCtl : RegDef := ⟨0x017070, 0x0, 1, false, .rwi, 0x0, 0x1f, 0x0, none⟩
/-- XLT_FRING_TAIL (R346). -/
def xltFringTail : RegDef := ⟨0x017074, 0x0, 1, false, .ro, 0x0, 0x0, 0x0, none⟩
/-- XLT_FRING_HEAD (R346). -/
def xltFringHead : RegDef := ⟨0x017078, 0x0, 1, false, .rw, 0x0, 0xffffffff, 0x0, none⟩
/-- XLT_FSVC_LIMIT (R346). -/
def xltFsvcLimit : RegDef := ⟨0x01707c, 0x0, 1, false, .rw, 0x64, 0xffffffff, 0x0, (some (1, 10000))⟩
/-- XLT_FRESP (R346). -/
def xltFresp : RegDef := ⟨0x017080, 0x0, 1, true, .wo, 0x0, 0x0, 0x0, none⟩
/-- XLT_IRING_BASE (R346). -/
def xltIringBase : RegDef := ⟨0x017088, 0x0, 1, true, .rwi, 0x0, 0xfffffffffffff000, 0x0, none⟩
/-- XLT_IRING_CTL (R346). -/
def xltIringCtl : RegDef := ⟨0x017090, 0x0, 1, false, .rwi, 0x0, 0x1f, 0x0, none⟩
/-- XLT_IRING_DB (R346). -/
def xltIringDb : RegDef := ⟨0x017094, 0x0, 1, false, .wo, 0x0, 0x0, 0x0, none⟩
/-- XLT_IRING_DONE (R346). -/
def xltIringDone : RegDef := ⟨0x017098, 0x0, 1, false, .ro, 0x0, 0x0, 0x0, none⟩
/-- XLT_IDONE_ADDR (R346). -/
def xltIdoneAddr : RegDef := ⟨0x0170a0, 0x0, 1, true, .rwi, 0x0, 0xfffffffffffffff8, 0x0, none⟩
/-- L2C_CTL (R378). -/
def l2cCtl : RegDef := ⟨0x040040, 0x2000, 16, false, .rw, 0x1, 0x1, 0x0, none⟩
/-- L2C_KEEP_WAYS (R378). -/
def l2cKeepWays : RegDef := ⟨0x040044, 0x2000, 16, false, .rws, 0x8, 0xf, 0x0, (some (0, 12))⟩
/-- L2C_KEEP_CLEAR (R378). -/
def l2cKeepClear : RegDef := ⟨0x040048, 0x2000, 16, false, .wo, 0x0, 0x0, 0x0, none⟩
/-- L2C_STAT (R378). -/
def l2cStat : RegDef := ⟨0x04004c, 0x2000, 16, false, .ro, 0x0, 0x0, 0x0, none⟩
/-- L2C_KEPT (R378). -/
def l2cKept : RegDef := ⟨0x040050, 0x2000, 16, false, .ro, 0x0, 0x0, 0x0, none⟩
/-- L2C_ECC (R378). -/
def l2cEcc : RegDef := ⟨0x040054, 0x2000, 16, false, .rw, 0x0, 0xffffff, 0x0, none⟩
/-- HBS_STAT (R382). -/
def hbsStat : RegDef := ⟨0x041040, 0x2000, 16, false, .ro, 0x0, 0x0, 0x0, none⟩
/-- HBS_CHDOWN (R382). -/
def hbsChdown : RegDef := ⟨0x041044, 0x2000, 16, false, .ro, 0x0, 0x0, 0x0, none⟩
/-- HBS_SPARESEL (R382). -/
def hbsSparesel : RegDef := ⟨0x041048, 0x2000, 16, false, .rw, 0x0, 0x1f, 0x0, none⟩
/-- HBS_SPAREMAP (R382). -/
def hbsSparemap : RegDef := ⟨0x04104c, 0x2000, 16, false, .ro, 0x0, 0x0, 0x0, none⟩
/-- HBS_CORR (R382). -/
def hbsCorr : RegDef := ⟨0x041050, 0x2000, 16, false, .rw, 0x0, 0xffffffff, 0x0, none⟩
/-- HBS_UNCORR (R382). -/
def hbsUncorr : RegDef := ⟨0x041054, 0x2000, 16, false, .rw, 0x0, 0xffffffff, 0x0, none⟩
/-- HBS_LINKRETRY (R382). -/
def hbsLinkretry : RegDef := ⟨0x041058, 0x2000, 16, false, .rw, 0x0, 0xffffffff, 0x0, none⟩
/-- HBS_POISON (R382). -/
def hbsPoison : RegDef := ⟨0x04105c, 0x2000, 16, false, .rw, 0x0, 0xffffffff, 0x0, none⟩
/-- HBS_ERRLOG (R382). -/
def hbsErrlog : RegDef := ⟨0x041060, 0x2000, 16, false, .w1c, 0x0, 0x0, 0x80000000, none⟩
/-- HBS_SCRUB (R382). -/
def hbsScrub : RegDef := ⟨0x041064, 0x2000, 16, false, .rws, 0x18, 0xff, 0x0, (some (0, 168))⟩
/-- HBS_ERRADDR (R382). -/
def hbsErraddr : RegDef := ⟨0x041068, 0x2000, 16, true, .ro, 0x0, 0x0, 0x0, none⟩
/-- HNS_PSTAT (R415). -/
def hnsPstat : RegDef := ⟨0x021040, 0x1000, 16, false, .ro, 0x0, 0x0, 0x0, none⟩
/-- HNS_MAXBLK (R415). -/
def hnsMaxblk : RegDef := ⟨0x021044, 0x1000, 16, false, .rwi, 0x8, 0xf, 0x0, (some (1, 8))⟩
/-- HNS_RPLY (R415). -/
def hnsRply : RegDef := ⟨0x021048, 0x1000, 16, false, .ro, 0x0, 0x0, 0x0, none⟩
/-- HNS_BADBLK (R415). -/
def hnsBadblk : RegDef := ⟨0x02104c, 0x1000, 16, false, .rw, 0x0, 0xffffffff, 0x0, none⟩
/-- HNS_NAKS (R415). -/
def hnsNaks : RegDef := ⟨0x021050, 0x1000, 16, false, .rw, 0x0, 0xffffffff, 0x0, none⟩
/-- HNS_RESENDS (R415). -/
def hnsResends : RegDef := ⟨0x021054, 0x1000, 16, false, .rw, 0x0, 0xffffffff, 0x0, none⟩
/-- HNS_TIMEOUTS (R415). -/
def hnsTimeouts : RegDef := ⟨0x021058, 0x1000, 16, false, .rw, 0x0, 0xffffffff, 0x0, none⟩
/-- HNS_LATE (R415). -/
def hnsLate : RegDef := ⟨0x02105c, 0x1000, 16, false, .rw, 0x0, 0xffffffff, 0x0, none⟩
/-- HNS_ERRLOG (R415). -/
def hnsErrlog : RegDef := ⟨0x021060, 0x1000, 16, true, .w1c, 0x0, 0x0, 0x8000000000000000, none⟩
/-- HNS_SCHOVR (R415). -/
def hnsSchovr : RegDef := ⟨0x021068, 0x1000, 16, false, .rw, 0x0, 0xffffffff, 0x0, none⟩
/-- HNS_NODE (R415). -/
def hnsNode : RegDef := ⟨0x021080, 0x0, 1, false, .ro, 0x0, 0x0, 0x0, none⟩
/-- HNS_ETYPE (R415). -/
def hnsEtype : RegDef := ⟨0x021084, 0x0, 1, false, .rwi, 0x88b5, 0xffff, 0x0, none⟩
/-- HNS_MACPFX (R415). -/
def hnsMacpfx : RegDef := ⟨0x021088, 0x0, 1, false, .rwi, 0x2c6, 0xffff, 0x0, none⟩
/-- HNS_DEADLINE (R415). -/
def hnsDeadline : RegDef := ⟨0x02108c, 0x0, 1, false, .rws, 0x8, 0x7f, 0x0, (some (2, 64))⟩
/-- HNS_TOPO_BASE (R415). -/
def hnsTopoBase : RegDef := ⟨0x021090, 0x0, 1, true, .rwi, 0x0, 0xfffffffffffffff8, 0x0, none⟩
/-- HNS_TOPO_LEN (R415). -/
def hnsTopoLen : RegDef := ⟨0x021098, 0x0, 1, false, .rwi, 0x0, 0xffffffff, 0x0, none⟩
/-- HNS_TOPO_CTL (R415). -/
def hnsTopoCtl : RegDef := ⟨0x02109c, 0x0, 1, false, .rw, 0x0, 0x0, 0x0, none⟩
/-- HNS_TOPO_VER (R415). -/
def hnsTopoVer : RegDef := ⟨0x0210a0, 0x0, 1, false, .ro, 0x0, 0x0, 0x0, none⟩
/-- HNS_BEWIN (R415). -/
def hnsBewin : RegDef := ⟨0x0210a4, 0x0, 1, false, .rws, 0x80, 0x7ff, 0x0, (some (8, 1024))⟩
/-- HNS_PEERSEL (R415). -/
def hnsPeersel : RegDef := ⟨0x0210a8, 0x0, 1, false, .rw, 0x0, 0xffff, 0x0, none⟩
/-- HNS_PEERSTAT (R415). -/
def hnsPeerstat : RegDef := ⟨0x0210ac, 0x0, 1, false, .ro, 0x0, 0x0, 0x0, none⟩
/-- HNS_ACTIVE (R415). -/
def hnsActive : RegDef := ⟨0x0210b0, 0x0, 1, false, .ro, 0x0, 0x0, 0x0, none⟩
/-- FTM_NOW (R445). -/
def ftmNow : RegDef := ⟨0x016040, 0x0, 1, true, .ro, 0x0, 0x0, 0x0, none⟩
/-- FTM_NOWFRAC (R445). -/
def ftmNowfrac : RegDef := ⟨0x016048, 0x0, 1, false, .ro, 0x0, 0x0, 0x0, none⟩
/-- FTM_STAT (R445). -/
def ftmStat : RegDef := ⟨0x01604c, 0x0, 1, false, .ro, 0x0, 0x0, 0x0, none⟩
/-- FTM_OFFSET (R445). -/
def ftmOffset : RegDef := ⟨0x016050, 0x0, 1, false, .ro, 0x0, 0x0, 0x0, none⟩
/-- FTM_PATHDLY (R445). -/
def ftmPathdly : RegDef := ⟨0x016054, 0x0, 1, false, .ro, 0x0, 0x0, 0x0, none⟩
/-- FTM_RATE (R445). -/
def ftmRate : RegDef := ⟨0x016058, 0x0, 1, false, .ro, 0x0, 0x0, 0x0, none⟩
/-- FTM_GMOFFSET (R445). -/
def ftmGmoffset : RegDef := ⟨0x01605c, 0x0, 1, false, .ro, 0x0, 0x0, 0x0, none⟩
/-- FTM_HOLD_LIMIT (R445). -/
def ftmHoldLimit : RegDef := ⟨0x016060, 0x0, 1, false, .rw, 0x3e8, 0xffffffff, 0x0, (some (10, 10000))⟩
/-- FTM_GUARD (R445). -/
def ftmGuard : RegDef := ⟨0x016064, 0x0, 1, false, .rws, 0xfa, 0xffffffff, 0x0, (some (50, 5000))⟩
/-- FTM_PTPCFG (R445). -/
def ftmPtpcfg : RegDef := ⟨0x016068, 0x0, 1, false, .rws, 0x640000, 0xffffffff, 0x0, none⟩
/-- FTM_GM_WAIT (R445). -/
def ftmGmWait : RegDef := ⟨0x01606c, 0x0, 1, false, .rw, 0xa, 0xffffffff, 0x0, (some (1, 600))⟩
/-- FTM_CAL_VA (R445). -/
def ftmCalVa : RegDef := ⟨0x016070, 0x0, 1, true, .rw, 0x0, 0xffffffffffffffc0, 0x0, none⟩
/-- FTM_CAL_AT (R445). -/
def ftmCalAt : RegDef := ⟨0x016078, 0x0, 1, true, .rw, 0x0, 0xffffffffffffffff, 0x0, none⟩
/-- FTM_CAL_CTL (R445). -/
def ftmCalCtl : RegDef := ⟨0x016080, 0x0, 1, false, .rw, 0x0, 0xffffffff, 0x0, none⟩
/-- FTM_CAL_STAT (R445). -/
def ftmCalStat : RegDef := ⟨0x016084, 0x0, 1, false, .ro, 0x0, 0x0, 0x0, none⟩
/-- FTM_CAL_ACTIVE (R445). -/
def ftmCalActive : RegDef := ⟨0x016088, 0x0, 1, true, .ro, 0x0, 0x0, 0x0, none⟩
/-- FTM_CAL_FRAME (R445). -/
def ftmCalFrame : RegDef := ⟨0x016090, 0x0, 1, false, .ro, 0x0, 0x0, 0x0, none⟩
/-- FTM_CAL_VER (R445). -/
def ftmCalVer : RegDef := ⟨0x016094, 0x0, 1, false, .ro, 0x0, 0x0, 0x0, none⟩
/-- FTM_ACC_PERIOD (R445). -/
def ftmAccPeriod : RegDef := ⟨0x016098, 0x0, 1, false, .rws, 0x3e8, 0xffffffff, 0x0, (some (100, 1000000))⟩
/-- DEV_PART (R477). -/
def devPart : RegDef := ⟨0x000040, 0x0, 1, false, .ro, 0x0, 0x0, 0x0, none⟩
/-- DEV_STAT (R477). -/
def devStat : RegDef := ⟨0x000044, 0x0, 1, false, .ro, 0x0, 0x0, 0x0, none⟩
/-- DEV_BOOTSTAT (R477). -/
def devBootstat : RegDef := ⟨0x000048, 0x0, 1, true, .ro, 0x0, 0x0, 0x0, none⟩
/-- DEV_SCRATCH (R477). -/
def devScratch : RegDef := ⟨0x000050, 0x0, 1, true, .rw, 0x0, 0xffffffffffffffff, 0x0, none⟩
/-- HPT_PSTAT (R478). -/
def hptPstat : RegDef := ⟨0x020040, 0x0, 1, false, .ro, 0x0, 0x0, 0x0, none⟩
/-- HPT_QPS (R478). -/
def hptQps : RegDef := ⟨0x020044, 0x0, 1, false, .ro, 0x0, 0x0, 0x0, none⟩
/-- HPT_IPV4 (R478). -/
def hptIpv4 : RegDef := ⟨0x020048, 0x0, 1, false, .rwi, 0x0, 0xffffffff, 0x0, none⟩
/-- HPT_MGMTIP (R478). -/
def hptMgmtip : RegDef := ⟨0x02004c, 0x0, 1, false, .rw, 0x0, 0xffffffff, 0x0, none⟩
/-- HPT_NAKS (R478). -/
def hptNaks : RegDef := ⟨0x020050, 0x0, 1, false, .rw, 0x0, 0xffffffff, 0x0, none⟩
/-- HPT_RESENDS (R478). -/
def hptResends : RegDef := ⟨0x020054, 0x0, 1, false, .rw, 0x0, 0xffffffff, 0x0, none⟩
/-- HPT_ERRLOG (R478). -/
def hptErrlog : RegDef := ⟨0x020058, 0x0, 1, true, .w1c, 0x0, 0x0, 0x8000000000000000, none⟩
/-- SCH_STAT (R544). -/
def schStat : RegDef := ⟨0x010040, 0x0, 1, false, .ro, 0x0, 0x0, 0x0, none⟩
/-- SCH_SWITCHES (R544). -/
def schSwitches : RegDef := ⟨0x010044, 0x0, 1, false, .rw, 0x0, 0xffffffff, 0x0, none⟩
/-- SCH_KILLS (R544). -/
def schKills : RegDef := ⟨0x010048, 0x0, 1, false, .rw, 0x0, 0xffffffff, 0x0, none⟩
/-- SCH_SAVEPOOL (R544). -/
def schSavepool : RegDef := ⟨0x01004c, 0x0, 1, false, .rw, 0x4, 0x3ff, 0x0, (some (0, 512))⟩
/-- SCH_POOLFREE (R544). -/
def schPoolfree : RegDef := ⟨0x010050, 0x0, 1, true, .ro, 0x100000000, 0x0, 0x0, none⟩
/-- SCH_SLICE (R544). -/
def schSlice : RegDef := ⟨0x010058, 0x0, 1, false, .rws, 0x320a01, 0xffffff, 0x0, none⟩
/-- SCH_KILLMAX (R544). -/
def schKillmax : RegDef := ⟨0x01005c, 0x0, 1, false, .rws, 0x1f4, 0xffffffff, 0x0, (some (0, 100000))⟩
/-- SCH_KILLLIMIT (R544). -/
def schKilllimit : RegDef := ⟨0x010060, 0x0, 1, false, .rws, 0x8, 0xff, 0x0, none⟩
/-- SCH_MARKMAX (R544). -/
def schMarkmax : RegDef := ⟨0x010064, 0x0, 1, false, .rws, 0xa, 0xffffffff, 0x0, (some (1, 100))⟩
/-- SCH_PARTSEL (R544). -/
def schPartsel : RegDef := ⟨0x010068, 0x0, 1, false, .rw, 0x0, 0xf, 0x0, none⟩
/-- SCH_PARTMASK0 (R544). -/
def schPartmask0 : RegDef := ⟨0x010070, 0x0, 1, true, .rws, 0x0, 0xffffffffffffffff, 0x0, none⟩
/-- SCH_PARTMASK1 (R544). -/
def schPartmask1 : RegDef := ⟨0x010078, 0x0, 1, true, .rws, 0x0, 0xffffffffffffffff, 0x0, none⟩
/-- SCH_PARTMASK2 (R544). -/
def schPartmask2 : RegDef := ⟨0x010080, 0x0, 1, true, .rws, 0x0, 0xffffffffffffffff, 0x0, none⟩
/-- SCH_CTXSEL (R544). -/
def schCtxsel : RegDef := ⟨0x010088, 0x0, 1, false, .rw, 0x0, 0x3fff, 0x0, none⟩
/-- SCH_CTXCFG (R544). -/
def schCtxcfg : RegDef := ⟨0x01008c, 0x0, 1, false, .rw, 0x0, 0x8000003f, 0x0, none⟩
/-- SCH_CTXPIN0 (R544). -/
def schCtxpin0 : RegDef := ⟨0x010090, 0x0, 1, true, .rw, 0x0, 0xffffffffffffffff, 0x0, none⟩
/-- SCH_CTXPIN1 (R544). -/
def schCtxpin1 : RegDef := ⟨0x010098, 0x0, 1, true, .rw, 0x0, 0xffffffffffffffff, 0x0, none⟩
/-- SCH_CTXPIN2 (R544). -/
def schCtxpin2 : RegDef := ⟨0x0100a0, 0x0, 1, true, .rw, 0x0, 0xffffffffffffffff, 0x0, none⟩
/-- SCH_TENSEL (R544). -/
def schTensel : RegDef := ⟨0x0100a8, 0x0, 1, false, .rw, 0x0, 0xfff, 0x0, none⟩
/-- SCH_TENWEIGHT (R544). -/
def schTenweight : RegDef := ⟨0x0100ac, 0x0, 1, false, .rw, 0x1, 0xff, 0x0, (some (1, 255))⟩
/-- SCH_CTXSTAT (R544). -/
def schCtxstat : RegDef := ⟨0x0100b0, 0x0, 1, false, .ro, 0x0, 0x0, 0x0, none⟩
/-- SEQ_PERIOD (R547). -/
def seqPeriod : RegDef := ⟨0x011040, 0x0, 1, false, .rws, 0x2710, 0xffffffff, 0x0, (some (2000, 1000000))⟩
/-- SEQ_MAXSEQ (R547). -/
def seqMaxseq : RegDef := ⟨0x011044, 0x0, 1, false, .rws, 0x4000, 0xffffffff, 0x0, (some (1, 16384))⟩
/-- SEQ_EPOCH (R547). -/
def seqEpoch : RegDef := ⟨0x011048, 0x0, 1, true, .rws, 0x0, 0xffffffffffffffff, 0x0, none⟩
/-- SEQ_PARTS (R547). -/
def seqParts : RegDef := ⟨0x011050, 0x0, 1, false, .rws, 0x10, 0xff, 0x0, none⟩
/-- SEQ_STAT (R547). -/
def seqStat : RegDef := ⟨0x011054, 0x0, 1, false, .ro, 0x0, 0x0, 0x0, none⟩
/-- SEQ_STEP (R547). -/
def seqStep : RegDef := ⟨0x011058, 0x0, 1, true, .ro, 0x0, 0x0, 0x0, none⟩
/-- SEQ_LASTFT (R547). -/
def seqLastft : RegDef := ⟨0x011060, 0x0, 1, true, .ro, 0x0, 0x0, 0x0, none⟩
/-- SEQ_BUILD_NS (R547). -/
def seqBuildNs : RegDef := ⟨0x011068, 0x0, 1, false, .ro, 0x0, 0x0, 0x0, none⟩
/-- SEQ_OVERRUNS (R547). -/
def seqOverruns : RegDef := ⟨0x01106c, 0x0, 1, false, .rw, 0x0, 0xffffffff, 0x0, none⟩
/-- SEQ_FAILS (R547). -/
def seqFails : RegDef := ⟨0x011070, 0x0, 1, false, .rw, 0x0, 0xffffffff, 0x0, none⟩
/-- SEQ_MSEL (R547). -/
def seqMsel : RegDef := ⟨0x011074, 0x0, 1, false, .rw, 0x0, 0xff, 0x0, none⟩
/-- SEQ_MCFG (R547). -/
def seqMcfg : RegDef := ⟨0x011078, 0x0, 1, false, .rw, 0x0, 0x8000ffff, 0x0, none⟩
/-- SEQ_MCHUNK (R547). -/
def seqMchunk : RegDef := ⟨0x01107c, 0x0, 1, false, .rw, 0x200, 0x3fff, 0x0, (some (1, 8192))⟩
/-- SEQ_MBASE (R547). -/
def seqMbase : RegDef := ⟨0x011080, 0x0, 1, false, .rw, 0x0, 0xffff, 0x0, none⟩
/-- SEQ_MCOUNT (R547). -/
def seqMcount : RegDef := ⟨0x011084, 0x0, 1, false, .rw, 0x0, 0x1ffff, 0x0, (some (0, 65536))⟩
/-- SEQ_MTMPL (R547). -/
def seqMtmpl : RegDef := ⟨0x011088, 0x0, 1, true, .rw, 0x0, 0xfffffffffffff000, 0x0, none⟩
/-- SEQ_MLIST (R547). -/
def seqMlist : RegDef := ⟨0x011090, 0x0, 1, true, .rw, 0x0, 0xfffffffffff00000, 0x0, none⟩
/-- SEQ_MPFTOK (R547). -/
def seqMpftok : RegDef := ⟨0x011098, 0x0, 1, false, .rw, 0x8000, 0xffffffff, 0x0, (some (1, 1048576))⟩
/-- SEQ_MKVPAGE (R547). -/
def seqMkvpage : RegDef := ⟨0x01109c, 0x0, 1, false, .rw, 0x10, 0xffff, 0x0, (some (1, 65535))⟩
/-- SEQ_MSTAT (R547). -/
def seqMstat : RegDef := ⟨0x0110a0, 0x0, 1, false, .ro, 0x0, 0x0, 0x0, none⟩
/-- ACC_SNAPFT (R548). -/
def accSnapft : RegDef := ⟨0x012040, 0x0, 1, true, .ro, 0x0, 0x0, 0x0, none⟩
/-- ACC_SNAPSEQ (R548). -/
def accSnapseq : RegDef := ⟨0x012048, 0x0, 1, false, .ro, 0x0, 0x0, 0x0, none⟩
/-- ACC_SEL (R548). -/
def accSel : RegDef := ⟨0x01204c, 0x0, 1, false, .rw, 0x0, 0xfff, 0x0, none⟩
/-- ACC_CORE_NS (R548). -/
def accCoreNs : RegDef := ⟨0x012050, 0x0, 1, true, .ro, 0x0, 0x0, 0x0, none⟩
/-- ACC_ARRAY_NS (R548). -/
def accArrayNs : RegDef := ⟨0x012058, 0x0, 1, true, .ro, 0x0, 0x0, 0x0, none⟩
/-- ACC_HBM_BYTES (R548). -/
def accHbmBytes : RegDef := ⟨0x012060, 0x0, 1, true, .ro, 0x0, 0x0, 0x0, none⟩
/-- ACC_FAB_BYTES (R548). -/
def accFabBytes : RegDef := ⟨0x012068, 0x0, 1, true, .ro, 0x0, 0x0, 0x0, none⟩
/-- ACC_HOST_BYTES (R548). -/
def accHostBytes : RegDef := ⟨0x012070, 0x0, 1, true, .ro, 0x0, 0x0, 0x0, none⟩
/-- ACC_ENERGY_UJ (R548). -/
def accEnergyUj : RegDef := ⟨0x012078, 0x0, 1, true, .ro, 0x0, 0x0, 0x0, none⟩
/-- ACC_UNATTR (R548). -/
def accUnattr : RegDef := ⟨0x012080, 0x0, 1, true, .ro, 0x0, 0x0, 0x0, none⟩
/-- ACC_METER (R548). -/
def accMeter : RegDef := ⟨0x012088, 0x0, 1, true, .ro, 0x0, 0x0, 0x0, none⟩
/-- ACC_INGRESS (R548). -/
def accIngress : RegDef := ⟨0x012090, 0x0, 1, true, .ro, 0x0, 0x0, 0x0, none⟩
/-- ACC_DEST (R548). -/
def accDest : RegDef := ⟨0x012098, 0x0, 1, true, .rw, 0x0, 0xfffffffffffff000, 0x0, none⟩
/-- BDL_STAT (R564). -/
def bdlStat : RegDef := ⟨0x013040, 0x0, 1, false, .ro, 0x0, 0x0, 0x0, none⟩
/-- BDL_CAP (R564). -/
def bdlCap : RegDef := ⟨0x013044, 0x0, 1, false, .rws, 0xaf0, 0xfff, 0x0, (some (1000, 2800))⟩
/-- BDL_INPUT (R564). -/
def bdlInput : RegDef := ⟨0x013048, 0x0, 1, false, .ro, 0x0, 0x0, 0x0, none⟩
/-- BDL_CTL (R564). -/
def bdlCtl : RegDef := ⟨0x01304c, 0x0, 1, false, .rws, 0x5f01, 0xff01, 0x0, none⟩
/-- BDL_DSEL (R564). -/
def bdlDsel : RegDef := ⟨0x013050, 0x0, 1, false, .rw, 0x0, 0xf, 0x0, none⟩
/-- BDL_DFLOOR (R564). -/
def bdlDfloor : RegDef := ⟨0x013054, 0x0, 1, false, .rws, 0x4b0, 0xfff, 0x0, (some (1200, 3600))⟩
/-- BDL_DCEIL (R564). -/
def bdlDceil : RegDef := ⟨0x013058, 0x0, 1, false, .rws, 0xe10, 0xfff, 0x0, (some (1200, 3600))⟩
/-- BDL_DSTAT (R564). -/
def bdlDstat : RegDef := ⟨0x01305c, 0x0, 1, false, .ro, 0x4b08c200, 0x0, 0x0, none⟩
/-- BDL_DSENSE (R564). -/
def bdlDsense : RegDef := ⟨0x013060, 0x0, 1, false, .ro, 0x0, 0x0, 0x0, none⟩
/-- BDL_CLAMPS (R564). -/
def bdlClamps : RegDef := ⟨0x013064, 0x0, 1, false, .rw, 0x0, 0xffffffff, 0x0, none⟩
/-- BDL_FASTCNT (R564). -/
def bdlFastcnt : RegDef := ⟨0x013068, 0x0, 1, false, .rw, 0x0, 0xffffffff, 0x0, none⟩
/-- SEC_STAT (R600). -/
def secStat : RegDef := ⟨0x018040, 0x0, 1, false, .ro, 0x0, 0x0, 0x0, none⟩
/-- SEC_ATT_CTL (R600). -/
def secAttCtl : RegDef := ⟨0x018044, 0x0, 1, false, .wo, 0x0, 0x0, 0x0, none⟩
/-- SEC_ATT_DEST (R600). -/
def secAttDest : RegDef := ⟨0x018048, 0x0, 1, true, .rw, 0x0, 0xffffffffffffffc0, 0x0, none⟩
/-- SEC_NONCE (R600). -/
def secNonce : RegDef := ⟨0x018050, 0x4, 8, false, .rw, 0x0, 0xffffffff, 0x0, none⟩
/-- SEC_ATT_STAT (R600). -/
def secAttStat : RegDef := ⟨0x018070, 0x0, 1, false, .ro, 0x0, 0x0, 0x0, none⟩
/-- SEC_IDHASH (R600). -/
def secIdhash : RegDef := ⟨0x018078, 0x4, 8, false, .ro, 0x0, 0x0, 0x0, none⟩
/-- SEC_FWMEAS (R600). -/
def secFwmeas : RegDef := ⟨0x018098, 0x4, 8, false, .ro, 0x0, 0x0, 0x0, none⟩
/-- FWU_STAT (R602). -/
def fwuStat : RegDef := ⟨0x01a040, 0x0, 1, false, .ro, 0x0, 0x0, 0x0, none⟩
/-- FWU_CTL (R602). -/
def fwuCtl : RegDef := ⟨0x01a044, 0x0, 1, false, .wo, 0x0, 0x0, 0x0, none⟩
/-- FWU_SRC (R602). -/
def fwuSrc : RegDef := ⟨0x01a048, 0x0, 1, true, .rw, 0x0, 0xfffffffffffff000, 0x0, none⟩
/-- FWU_LEN (R602). -/
def fwuLen : RegDef := ⟨0x01a050, 0x0, 1, false, .rw, 0x0, 0xffffffff, 0x0, none⟩
/-- FWU_AT (R602). -/
def fwuAt : RegDef := ⟨0x01a058, 0x0, 1, true, .rw, 0x0, 0xffffffffffffffff, 0x0, none⟩
/-- FWU_CUR_VER (R602). -/
def fwuCurVer : RegDef := ⟨0x01a060, 0x0, 1, true, .ro, 0x0, 0x0, 0x0, none⟩
/-- FWU_STG_VER (R602). -/
def fwuStgVer : RegDef := ⟨0x01a068, 0x0, 1, true, .ro, 0x0, 0x0, 0x0, none⟩
/-- FWU_HOVER (R602). -/
def fwuHover : RegDef := ⟨0x01a070, 0x0, 1, false, .ro, 0x0, 0x0, 0x0, none⟩
/-- FWU_LAST (R602). -/
def fwuLast : RegDef := ⟨0x01a074, 0x0, 1, false, .ro, 0x0, 0x0, 0x0, none⟩
/-- ERR_HEAD (R630). -/
def errHead : RegDef := ⟨0x014040, 0x0, 1, false, .rw, 0x0, 0xffffffff, 0x0, none⟩
/-- ERR_TAIL (R630). -/
def errTail : RegDef := ⟨0x014044, 0x0, 1, false, .ro, 0x0, 0x0, 0x0, none⟩
/-- ERR_STAT (R630). -/
def errStat : RegDef := ⟨0x014048, 0x0, 1, false, .ro, 0x0, 0x0, 0x0, none⟩
/-- ERR_DROPPED (R630). -/
def errDropped : RegDef := ⟨0x01404c, 0x0, 1, false, .rw, 0x0, 0xffffffff, 0x0, none⟩
/-- ERR_DEST (R630). -/
def errDest : RegDef := ⟨0x014050, 0x0, 1, true, .rw, 0x0, 0xfffffffffffff000, 0x0, none⟩
/-- ERR_SEL (R630). -/
def errSel : RegDef := ⟨0x014058, 0x0, 1, false, .rw, 0x0, 0xff, 0x0, none⟩
/-- ERR_WARMREQ (R630). -/
def errWarmreq : RegDef := ⟨0x01405c, 0x0, 1, false, .wo, 0x0, 0x0, 0x0, none⟩
/-- ERR_LASTRESET (R630). -/
def errLastreset : RegDef := ⟨0x014060, 0x0, 1, false, .ro, 0x0, 0x0, 0x0, none⟩
/-- ERR_LASTRESETFT (R630). -/
def errLastresetft : RegDef := ⟨0x014068, 0x0, 1, true, .ro, 0x0, 0x0, 0x0, none⟩
/-- ERR_ENTRY (R630). -/
def errEntry : RegDef := ⟨0x014080, 0x4, 16, false, .ro, 0x0, 0x0, 0x0, none⟩
/-- JCK_STAT (R631). -/
def jckStat : RegDef := ⟨0x015040, 0x0, 1, false, .ro, 0x0, 0x0, 0x0, none⟩
/-- JCK_SAMPLE (R631). -/
def jckSample : RegDef := ⟨0x015044, 0x0, 1, false, .rw, 0x83828180, 0xbfbfbfbf, 0x0, none⟩
/-- JCK_CORE_LIMIT (R631). -/
def jckCoreLimit : RegDef := ⟨0x015048, 0x0, 1, false, .rws, 0x64, 0xffffffff, 0x0, (some (1, 10000))⟩
/-- JCK_UNIT_LIMIT (R631). -/
def jckUnitLimit : RegDef := ⟨0x01504c, 0x0, 1, false, .rws, 0xa, 0xffffffff, 0x0, (some (1, 1000))⟩
/-- JCK_CTL_LIMIT (R631). -/
def jckCtlLimit : RegDef := ⟨0x015050, 0x0, 1, false, .rws, 0x14, 0xffffffff, 0x0, (some (5, 1000))⟩
/-- JCK_CTL (R631). -/
def jckCtl : RegDef := ⟨0x015054, 0x0, 1, false, .rws, 0x3, 0x3, 0x0, none⟩
/-- JCK_DEST (R631). -/
def jckDest : RegDef := ⟨0x015058, 0x0, 1, true, .rw, 0x0, 0xfffffffffffff000, 0x0, none⟩
/-- JCK_DESTLEN (R631). -/
def jckDestlen : RegDef := ⟨0x015060, 0x0, 1, false, .rw, 0x0, 0xffffffff, 0x0, none⟩
/-- JCK_LASTDUMP (R631). -/
def jckLastdump : RegDef := ⟨0x015064, 0x0, 1, false, .ro, 0x0, 0x0, 0x0, none⟩
/-- JCK_DUMPS (R631). -/
def jckDumps : RegDef := ⟨0x015068, 0x0, 1, false, .ro, 0x0, 0x0, 0x0, none⟩
/-- JCK_HANGS (R631). -/
def jckHangs : RegDef := ⟨0x01506c, 0x0, 1, false, .rw, 0x0, 0xffffffff, 0x0, none⟩
/-- JCK_GUILTY (R631). -/
def jckGuilty : RegDef := ⟨0x015070, 0x0, 1, false, .rw, 0x0, 0xffffffff, 0x0, none⟩
/-- JCK_UNRESOLVED (R631). -/
def jckUnresolved : RegDef := ⟨0x015074, 0x0, 1, false, .rw, 0x0, 0xffffffff, 0x0, none⟩
/-- JCK_REPLAYCTX (R631). -/
def jckReplayctx : RegDef := ⟨0x015078, 0x0, 1, false, .ro, 0x0, 0x0, 0x0, none⟩
/-- JCK_BANNED (R631). -/
def jckBanned : RegDef := ⟨0x01507c, 0x0, 1, false, .ro, 0x0, 0x0, 0x0, none⟩
/-- AWL_CTL (R663). -/
def awlCtl : RegDef := ⟨0x019040, 0x0, 1, false, .rws, 0x0, 0x307, 0x0, none⟩
/-- AWL_SEL (R663). -/
def awlSel : RegDef := ⟨0x019044, 0x0, 1, false, .rws, 0x0, 0xffffffff, 0x0, none⟩
/-- AWL_GROUP (R663). -/
def awlGroup : RegDef := ⟨0x019048, 0x0, 1, false, .rws, 0x0, 0xfff, 0x0, none⟩
/-- AWL_STAT (R663). -/
def awlStat : RegDef := ⟨0x01904c, 0x0, 1, false, .ro, 0x0, 0x0, 0x0, none⟩
/-- AWL_TMASK (R663). -/
def awlTmask : RegDef := ⟨0x019050, 0x0, 1, false, .rws, 0x0, 0xffffffff, 0x0, none⟩
/-- AWL_TMATCH (R663). -/
def awlTmatch : RegDef := ⟨0x019054, 0x0, 1, false, .rws, 0x0, 0xffffffff, 0x0, none⟩
/-- AWL_TRIGCNT (R663). -/
def awlTrigcnt : RegDef := ⟨0x019058, 0x0, 1, false, .rw, 0x0, 0xffffffff, 0x0, none⟩
/-- AWL_TRIGFT (R663). -/
def awlTrigft : RegDef := ⟨0x019060, 0x0, 1, true, .ro, 0x0, 0x0, 0x0, none⟩

/-- Part 0 of the list of registers. -/
def part0 : List RegDef :=
  [coreFpmLimit, coreMstkHwm, coreResident, coreVrfFree, coreFaultInfo, coreFaultPc, coreFaultCmd, mxaWstat,
    mxaQstat, mxaXtrap, mxaXstat, mxaCfault, mxaXcmd, mxaColinv0, mxaColinv1, mxaColinv2, qntPfault, qntPfcmd, qntAmax,
    qntNancnt, qntSatcnt, qntOvfcnt, qntInvcnt, qntRows]
/-- Part 1 of the list of registers. -/
def part1 : List RegDef :=
  [tmvL1ctl, tmvStat, tmvEcc, tmvEccaddr, xltFmt, xltApbase, xltApsize, xltAprva, xltAprkey, xltStat, xltFringBase,
    xltFringCtl, xltFringTail, xltFringHead, xltFsvcLimit, xltFresp, xltIringBase, xltIringCtl, xltIringDb,
    xltIringDone, xltIdoneAddr, l2cCtl, l2cKeepWays, l2cKeepClear]
/-- Part 2 of the list of registers. -/
def part2 : List RegDef :=
  [l2cStat, l2cKept, l2cEcc, hbsStat, hbsChdown, hbsSparesel, hbsSparemap, hbsCorr, hbsUncorr, hbsLinkretry,
    hbsPoison, hbsErrlog, hbsScrub, hbsErraddr, hnsPstat, hnsMaxblk, hnsRply, hnsBadblk, hnsNaks, hnsResends,
    hnsTimeouts, hnsLate, hnsErrlog, hnsSchovr]
/-- Part 3 of the list of registers. -/
def part3 : List RegDef :=
  [hnsNode, hnsEtype, hnsMacpfx, hnsDeadline, hnsTopoBase, hnsTopoLen, hnsTopoCtl, hnsTopoVer, hnsBewin, hnsPeersel,
    hnsPeerstat, hnsActive, ftmNow, ftmNowfrac, ftmStat, ftmOffset, ftmPathdly, ftmRate, ftmGmoffset, ftmHoldLimit,
    ftmGuard, ftmPtpcfg, ftmGmWait, ftmCalVa]
/-- Part 4 of the list of registers. -/
def part4 : List RegDef :=
  [ftmCalAt, ftmCalCtl, ftmCalStat, ftmCalActive, ftmCalFrame, ftmCalVer, ftmAccPeriod, devPart, devStat,
    devBootstat, devScratch, hptPstat, hptQps, hptIpv4, hptMgmtip, hptNaks, hptResends, hptErrlog, schStat, schSwitches,
    schKills, schSavepool, schPoolfree, schSlice]
/-- Part 5 of the list of registers. -/
def part5 : List RegDef :=
  [schKillmax, schKilllimit, schMarkmax, schPartsel, schPartmask0, schPartmask1, schPartmask2, schCtxsel, schCtxcfg,
    schCtxpin0, schCtxpin1, schCtxpin2, schTensel, schTenweight, schCtxstat, seqPeriod, seqMaxseq, seqEpoch, seqParts,
    seqStat, seqStep, seqLastft, seqBuildNs, seqOverruns]
/-- Part 6 of the list of registers. -/
def part6 : List RegDef :=
  [seqFails, seqMsel, seqMcfg, seqMchunk, seqMbase, seqMcount, seqMtmpl, seqMlist, seqMpftok, seqMkvpage, seqMstat,
    accSnapft, accSnapseq, accSel, accCoreNs, accArrayNs, accHbmBytes, accFabBytes, accHostBytes, accEnergyUj,
    accUnattr, accMeter, accIngress, accDest]
/-- Part 7 of the list of registers. -/
def part7 : List RegDef :=
  [bdlStat, bdlCap, bdlInput, bdlCtl, bdlDsel, bdlDfloor, bdlDceil, bdlDstat, bdlDsense, bdlClamps, bdlFastcnt,
    secStat, secAttCtl, secAttDest, secNonce, secAttStat, secIdhash, secFwmeas, fwuStat, fwuCtl, fwuSrc, fwuLen, fwuAt,
    fwuCurVer]
/-- Part 8 of the list of registers. -/
def part8 : List RegDef :=
  [fwuStgVer, fwuHover, fwuLast, errHead, errTail, errStat, errDropped, errDest, errSel, errWarmreq, errLastreset,
    errLastresetft, errEntry, jckStat, jckSample, jckCoreLimit, jckUnitLimit, jckCtlLimit, jckCtl, jckDest, jckDestlen,
    jckLastdump, jckDumps, jckHangs]
/-- Part 9 of the list of registers. -/
def part9 : List RegDef :=
  [jckGuilty, jckUnresolved, jckReplayctx, jckBanned, awlCtl, awlSel, awlGroup, awlStat, awlTmask, awlTmatch,
    awlTrigcnt, awlTrigft]

/-- Every register with a meaning of its own. -/
def all : List RegDef := part0 ++ part1 ++ part2 ++ part3 ++ part4 ++ part5 ++ part6 ++ part7 ++ part8 ++ part9

end Sys2Proof.Machine.Reg
end

