-- ==== Sys2Proof/Machine/Ops.lean ====
section
/-! DEFINITION. The named operations: maps, time, registers, memory, free values, what the module sends, the error
ring.
Assumption log: DESIGN CHOICE 4, 39, 116, 125, 126, 139; DEDUCED 26, 40, 50, 87, 92. -/

namespace Sys2Proof.Machine

/-! ### Maps -/

/-- The value at a key. -/
def mget {β : Type} : NMap β → Nat → Option β
  | [], _ => none
  | (k', v) :: t, k => if k' = k then some v else mget t k

/-- The value at a key, or a default. -/
def mgetD {β : Type} (m : NMap β) (k : Nat) (d : β) : β := (mget m k).getD d

/-- The map with a key set; keys stay strictly rising. -/
def mset {β : Type} : NMap β → Nat → β → NMap β
  | [], k, v => [(k, v)]
  | (k', v') :: t, k, v =>
    if k < k' then (k, v) :: (k', v') :: t
    else if k = k' then (k, v) :: t
    else (k', v') :: mset t k v

/-- The map without a key. -/
def mdel {β : Type} : NMap β → Nat → NMap β
  | [], _ => []
  | (k', v') :: t, k => if k' = k then mdel t k else (k', v') :: mdel t k

/-- The map with the value at a key changed, from a default where it is unlisted. -/
def mupd {β : Type} (m : NMap β) (k : Nat) (d : β) (f : β → β) : NMap β := mset m k (f (mgetD m k d))

/-- The map with the value at a listed key changed. -/
def mmod {β : Type} (m : NMap β) (k : Nat) (f : β → β) : NMap β :=
  match mget m k with
  | some v => mset m k (f v)
  | none => m

/-- The value at a key of any type. -/
def aget {κ β : Type} [DecidableEq κ] : List (κ × β) → κ → Option β
  | [], _ => none
  | (k', v) :: t, k => if k' = k then some v else aget t k

/-- The list with a key of any type set. -/
def aset {κ β : Type} [DecidableEq κ] : List (κ × β) → κ → β → List (κ × β)
  | [], k, v => [(k, v)]
  | (k', v') :: t, k, v => if k' = k then (k, v) :: t else (k', v') :: aset t k v

/-- The list without a key of any type. -/
def adel {κ β : Type} [DecidableEq κ] : List (κ × β) → κ → List (κ × β)
  | [], _ => []
  | (k', v') :: t, k => if k' = k then t else (k', v') :: adel t k

/-- An element put into a sorted list, before the first that does not precede it. -/
def insertBy {α : Type} (le : α → α → Bool) (x : α) : List α → List α
  | [] => [x]
  | y :: t => if le x y then x :: y :: t else y :: insertBy le x t

/-- A list sorted; equal elements keep their order. -/
def sortBy {α : Type} (le : α → α → Bool) : List α → List α
  | [] => []
  | x :: t => insertBy le x (sortBy le t)

/-- The least key from 0 that a map does not list, below a bound. -/
def freeKey {β : Type} (m : NMap β) : Nat → Nat → Option Nat
  | 0, _ => none
  | n + 1, k => if (mget m k).isSome then freeKey m n (k + 1) else some k

/-! ### Numbers and bytes -/

/-- `n` bytes of a value, least significant first. -/
def leBytes : Nat → Nat → List Byte
  | 0, _ => []
  | n + 1, v => BitVec.ofNat 8 (v % 256) :: leBytes n (v / 256)

/-- The value of bytes, least significant first. -/
def fromLe : List Byte → Nat
  | [] => 0
  | b :: t => b.toNat + 256 * fromLe t

/-- Bits [hi:lo] of a value. -/
def bitsOf (v hi lo : Nat) : Nat := (v / 2 ^ lo) % 2 ^ (hi + 1 - lo)

/-- A value kept within bounds. -/
def clampTo (lo hi v : Nat) : Nat := if v < lo then lo else if hi < v then hi else v

/-- A 32-bit counter that saturates. -/
def satInc (v n : Nat) : Nat := if v + n ≥ 2 ^ 32 then 2 ^ 32 - 1 else v + n

/-- A quotient rounded up. -/
def ceilDiv (a b : Nat) : Nat := (a + b - 1) / b

/-- The number of ones among the low `n` bits. -/
def popCount : Nat → Nat → Nat
  | 0, _ => 0
  | n + 1, v => v % 2 + popCount n (v / 2)

/-- A 32-bit pattern as a signed number. -/
def sInt (w : Word) : Int := w.toInt

/-! ### Time (R15, R420) -/

/-- Cycles of the 3.6 GHz clock in microseconds, milliseconds and seconds. -/
def usec (n : Nat) : Nat := n * 3600
def msec (n : Nat) : Nat := n * 3600000
def sec (n : Nat) : Nat := n * 3600000000

/-- Cycles of the 3.6 GHz clock in nanoseconds, rounded up. -/
def nsec (n : Nat) : Nat := ceilDiv (n * 18) 5

/-- One nanosecond of FT in units of `Ftm.q`. -/
def ftUnit : Nat := 65536 * 18 * 1000000000000

/-- FT_NS (R420). -/
def ftNs (s : State) : Nat := s.ftm.q / ftUnit % 2 ^ 64

/-- At least `n` cycles have passed since `t`. -/
def since (s : State) (t n : Nat) : Bool := decide (t + n ≤ s.now)

/-! ### Registers (R457, R467, R470) -/

/-- The address of instance `i` of a register. -/
def RegDef.at_ (r : RegDef) (i : Nat) : Nat := r.base + i * r.stride

/-- The stored value of instance `i` of a register: its reset value until something changes it. -/
def reg (s : State) (r : RegDef) (i : Nat := 0) : Nat :=
  match mget s.regs (r.at_ i) with
  | some v => v.toNat
  | none => r.reset

/-- A register set to a value. -/
def setReg (s : State) (r : RegDef) (i : Nat) (v : Nat) : State :=
  { s with regs := mset s.regs (r.at_ i) (BitVec.ofNat 64 v) }

/-- A saturating counter register raised by `n`. -/
def incReg (s : State) (r : RegDef) (i : Nat) (n : Nat := 1) : State := setReg s r i (satInc (reg s r i) n)

/-- A 64-bit latch or a header field by its address. -/
def rawReg (s : State) (a d : Nat) : Nat :=
  match mget s.regs a with
  | some v => v.toNat
  | none => d

def setRaw (s : State) (a v : Nat) : State := { s with regs := mset s.regs a (BitVec.ofNat 64 v) }

/-- Page bases (R457). -/
def pgCORE (c : Nat) : Nat := 0x80000 + c * 0x4000
def pgMXA (c : Nat) : Nat := 0x81000 + c * 0x4000
def pgQNT (c : Nat) : Nat := 0x82000 + c * 0x4000
def pgTMV (c : Nat) : Nat := 0x83000 + c * 0x4000
def pgL2C (i : Nat) : Nat := 0x40000 + i * 0x2000
def pgHBS (i : Nat) : Nat := 0x41000 + i * 0x2000
def pgHNS (p : Nat) : Nat := 0x21000 + p * 0x1000
def pgDEV : Nat := 0
def pgSCH : Nat := 0x10000
def pgSEQ : Nat := 0x11000
def pgACC : Nat := 0x12000
def pgBDL : Nat := 0x13000
def pgERR : Nat := 0x14000
def pgJCK : Nat := 0x15000
def pgFTM : Nat := 0x16000
def pgXLT : Nat := 0x17000
def pgSEC : Nat := 0x18000
def pgAWL : Nat := 0x19000
def pgFWU : Nat := 0x1A000
def pgHPT : Nat := 0x20000

/-- PG_ID of a page (R457, R461); 0 where no page is. -/
def pgId (page : Nat) : Nat :=
  if page = 0 then 0x00010000
  else if 0x1000 ≤ page ∧ page ≤ 0x8000 then 0x00020000 + (page / 0x1000 - 1)
  else if 0x10000 ≤ page ∧ page ≤ 0x1A000 then (0x10 + (page - 0x10000) / 0x1000) * 65536
  else if page = 0x20000 then 0x00200000
  else if 0x21000 ≤ page ∧ page ≤ 0x30000 then 0x00210000 + (page - 0x21000) / 0x1000
  else if 0x40000 ≤ page ∧ page < 0x60000 then
    (0x40 + (page - 0x40000) / 0x1000 % 2) * 65536 + (page - 0x40000) / 0x2000
  else if 0x80000 ≤ page ∧ page < 0x380000 then
    (0x80 + (page - 0x80000) / 0x1000 % 4) * 65536 + (page - 0x80000) / 0x4000
  else 0

/-- Offsets of the common header (R461). -/
def hPgStat (page : Nat) : Nat := page + 0x0C
def hPgErr (page : Nat) : Nat := page + 0x10
def hPgErrcnt (page : Nat) : Nat := page + 0x14
def hPgCtl (page : Nat) : Nat := page + 0x18
def hPgApplyseq (page : Nat) : Nat := page + 0x1C

/-- PG_CTL's reset value (R465). -/
def pgCtlReset (page : Nat) : Nat := if 0x21000 ≤ page ∧ page ≤ 0x30000 then 0 else 1

/-- The page's block has reached the safe point of HALT. -/
def haltIsReached (s : State) (page : Nat) : Bool := rawReg s (hPgStat page) 0 % 16 == 3

/-- HALT and ENABLE of a page (R465). -/
def pgHalted (s : State) (page : Nat) : Bool := bitsOf (rawReg s (hPgCtl page) (pgCtlReset page)) 2 2 == 1
def pgEnabled (s : State) (page : Nat) : Bool := bitsOf (rawReg s (hPgCtl page) (pgCtlReset page)) 0 0 == 1

/-! ### Performance counters (R659–R661) -/

/-- The counters from `n` on advanced by `k` occurrences of an event. -/
def pmcBump (s : State) (page code k : Nat) : Nat → State
  | 0 => s
  | n + 1 =>
    let s := pmcBump s page code k n
    let sel := rawReg s (page + 0xF10 + 4 * n) 0
    if sel = code ∧ code ≠ 0 then
      let v := rawReg s (page + 0xF40 + 8 * n) 0 + k
      let s := setRaw s (page + 0xF40 + 8 * n) (v % 2 ^ 64)
      if v ≥ 2 ^ 64 then setRaw s (page + 0xF04) (rawReg s (page + 0xF04) 0 ||| 2 ^ n) else s
    else s

/-- An event of a page, of context `ctx` if any, counted under RUN and FILTER (R660). -/
def pmcEvent (s : State) (page code : Nat) (k : Nat) (ctx : Option Nat) : State :=
  let ctl := rawReg s (page + 0xF00) 0
  if bitsOf ctl 0 0 = 0 then s
  else if bitsOf ctl 31 31 = 1 ∧ ctx ≠ some (bitsOf ctl 29 16) then s
  else pmcBump s page code k 8

/-! ### Errors of a page and of the module (R464, R604–R610) -/

/-- An error recorded on a page: PG_ERRCNT counts it, PG_ERR latches the first (R464). -/
def pgErr (s : State) (page code : Nat) : State :=
  let s := setRaw s (hPgErrcnt page) (satInc (rawReg s (hPgErrcnt page) 0) 1)
  let s := if rawReg s (hPgErr page) 0 ≥ 2 ^ 31 then s else setRaw s (hPgErr page) (2 ^ 31 + code)
  pmcEvent s page 0x0003 1 none

/-- An error recorded in HPT_ERRLOG (R478): the first is latched, all are counted in PG_ERRCNT. -/
def hptLog (s : State) (tenant code : Nat) : State :=
  let s := pgErr s pgHPT code
  if reg s Reg.hptErrlog ≥ 2 ^ 63 then s
  else setReg s Reg.hptErrlog 0 (2 ^ 63 + (tenant % 4096) * 2 ^ 32 + code)

/-- This module's node ID: SELF of the loaded topology table, 0 until one is loaded (R386). -/
def nodeId (s : State) : Nat :=
  match s.fab.topo with
  | some t => t.self
  | none => 0

/-- Something sent. -/
def emit (s : State) (o : Out) : State := { s with out := o :: s.out }

/-- A range of host physical addresses lies in the aperture (R322). -/
def inAperture (s : State) (p n : Nat) : Bool :=
  decide (reg s Reg.xltApbase ≤ p ∧ p + n ≤ reg s Reg.xltApbase + reg s Reg.xltApsize)

/-- The RDMA virtual address of a host physical address in the aperture (R322). -/
def rdmaVa (s : State) (p : Nat) : Nat := (reg s Reg.xltAprva + (p - reg s Reg.xltApbase)) % 2 ^ 64

/-- HPT_PSTAT.UP (R478), and no warm reset holds the port (R614). -/
def hostUp (s : State) : Bool := decide (reg s Reg.hptPstat ≥ 2 ^ 31) && s.err.warmPhase.isNone

/-- Data handed to the host port (R668): sent at once while the link is up, else held in the port's egress buffer until it is up
again (log entry 126). -/
def toHostPort (s : State) (o : Out) : State :=
  if hostUp s then emit s o else { s with obj := { s.obj with hostEg := s.obj.hostEg ++ [o] } }

/-- The host port sends what its egress buffer holds, oldest first. -/
def flushHost (s : State) : State :=
  s.obj.hostEg.foldl emit { s with obj := { s.obj with hostEg := [] } }

/-- The bytes in the host port's egress buffer, and its room for `n` more (R668). -/
def hostHeld (s : State) : Nat :=
  (s.obj.hostEg.map fun o => match o with | .hostWrite _ _ _ _ d => d.length | _ => 0).foldl (· + ·) 0

def hostRoom (s : State) (n : Nat) : Bool := hostUp s || decide (hostHeld s + n ≤ 1048576)

/-- An RDMA WRITE toward the host under a tenant's queue pair, with what follows its acknowledgment (R287); none to an address
outside the aperture (R322). -/
def hostWrite (s : State) (tenant addr : Nat) (data : List Byte) (why : HostPend) : State :=
  let id := s.obj.nextPend
  if inAperture s addr data.length then
    toHostPort { s with obj := { s.obj with pend := mset s.obj.pend id (tenant, why), nextPend := id + 1 } }
      (.hostWrite id tenant (rdmaVa s addr) (reg s Reg.xltAprkey) data)
  else s

/-- An RDMA READ of host physical memory (R322). -/
def hostRead (s : State) (tenant addr n : Nat) : State :=
  if inAperture s addr n then emit s (.hostRead tenant (rdmaVa s addr) (reg s Reg.xltAprkey) n) else s

/-- An entry with the fields of R605 at the values they have where nothing is concerned. -/
def errBase (s : State) (code sev unit : Nat) : ErrEntry :=
  { seq := 0, code, sev, isPartial := false, escalated := false, more := false, ft := ftNs s, unit, tenant := 0xFFFF,
    ctx := 0xFFFF, cmdId := 0, node := nodeId s, tag := 0, addr := 0, detail := 0 }

/-- The 64 bytes of an entry (R605). -/
def errBytes (e : ErrEntry) : List Byte :=
  leBytes 4 e.seq ++ leBytes 2 e.code ++ leBytes 1 e.sev
    ++ leBytes 1 ((if e.isPartial then 1 else 0) + (if e.escalated then 2 else 0) + (if e.more then 4 else 0))
    ++ leBytes 8 e.ft ++ leBytes 4 e.unit ++ leBytes 2 e.tenant ++ leBytes 2 e.ctx ++ leBytes 8 e.cmdId.toNat
    ++ leBytes 2 e.node ++ leBytes 2 e.tag ++ leBytes 4 0 ++ leBytes 8 e.addr ++ leBytes 16 e.detail

/-- Free slots of the error ring (R607, R608). -/
def errFree (s : State) : Nat := 256 - (reg s Reg.errTail - reg s Reg.errHead)

/-- A warm reset is due, with ERR_LASTRESET's TRIGGER and CODE (R614); the first cause stands. -/
def dueWarm (s : State) (trigger code : Nat) : State :=
  { s with err := { s.err with warmReq := (s.err.warmReq <|> some (trigger, code)) } }

/-- An entry written to the ring and to its mirror, or dropped (R607, R608). -/
def errWrite (s : State) (e : ErrEntry) : State :=
  let free := errFree s
  if e.sev ≤ 2 ∧ free < 17 then pmcEvent (incReg s Reg.errDropped 0) pgERR 0x0101 1 none
  else if free = 0 then dueWarm s 3 e.code
  else
    let n := reg s Reg.errTail
    let e := { e with seq := n }
    let s := { s with err := { s.err with ring := e :: s.err.ring.filter (fun x => x.seq % 256 != n % 256) } }
    let s := if reg s Reg.errDest = 0 then s
             else hostWrite s 0 (reg s Reg.errDest + 64 * (n % 256)) (errBytes e) .other
    pmcEvent (setReg s Reg.errTail 0 (n + 1)) pgERR 0x0100 1 none

def modErr (s : State) (f : Errors → Errors) : State := { s with err := f s.err }

/-- The module works: no warm reset is under way and it is not halted (R614, R615). -/
def alive (s : State) : Bool := s.err.warmPhase.isNone && s.boot.stage != 0xF

/-- An item of a watched unit completes (R617): 0 intake, 1 dispatcher, 2 commit unit, 3 sequence engine. -/
def unitProgress (s : State) (u : Nat) : State := modErr s fun e => { e with unitDone := mset e.unitDone u s.now }

/-- A logged-only entry of a unit (R606). -/
def logOnly (s : State) (code page : Nat) : State := errWrite s (errBase s code 0 (pgId page))

/-- A logged-only entry about a peer node and a commit tag. -/
def logPeer (s : State) (code page node tag : Nat) : State :=
  errWrite s { errBase s code 0 (pgId page) with node, tag }

/-- How far a domain reaches (R612): ranks as ERR_STAT.DOMAIN encodes them (R630). -/
def Domain.rank : Domain → Nat
  | .core _ => 0
  | .channel _ _ => 1
  | .port _ => 2
  | .hostPort => 3
  | .cluster => 4
  | .device => 5

/-- A reset of the first domain contains the second. -/
def Domain.contains (a b : Domain) : Bool := a == b || a == .device

/-- An entry of the ring marked MORE (R610). -/
def markMore (s : State) (seq : Nat) : State :=
  { s with err := { s.err with ring := s.err.ring.map fun e => if e.seq = seq then { e with more := true } else e } }

/-- The page of a domain's unit, whose PG_ID an entry names. -/
def Domain.page : Domain → Nat
  | .core c => pgCORE c
  | .channel st _ => pgHBS st
  | .port p => pgHNS p
  | .hostPort => pgHPT
  | .cluster => pgSCH
  | .device => pgDEV

/-- An escalation: RCV_ESCALATED is written, the interrupted recovery is abandoned and the next domain of R612 follows
(R611). A port is left in FAULT and RCV_PORT_DISABLED is logged; the host port goes on retraining. -/
def escalate (s : State) (d : Domain) (code : Nat) : State :=
  let next : Domain := match d with
    | .port p => .port p
    | .hostPort => .hostPort
    | _ => .device
  let s := errWrite s { errBase s Code.rcvEscalated 3 (pgId d.page) with
                          escalated := true, detail := d.rank + 256 * next.rank }
  let s := pmcEvent s pgERR 0x0108 1 none
  let s := { s with err := { s.err with active := none } }
  match d with
  | .port p =>
    let s := { s with fab := { s.fab with ports := mmod s.fab.ports p fun q => { q with link := .fault } } }
    logOnly s Code.rcvPortDisabled (pgHNS p)
  | .hostPort => s
  | .core c => dueWarm { s with err := { s.err with retired := c :: s.err.retired } } 2 code
  | _ => dueWarm s 2 code

/-- A recovery queued, merged, escalated, or a warm reset where the queue is full (R610, R611). -/
def queueRecovery (s : State) (seq : Nat) (d : Domain) (code : Nat) : State :=
  match s.err.active with
  | some a =>
    if a.domain.contains d then escalate s a.domain code
    else if (s.err.queue.filter (fun r => r.domain.contains d)).isEmpty then
      if s.err.queue.length ≥ 64 then dueWarm s 4 code
      else { s with err := { s.err with queue := s.err.queue ++ [⟨seq, d, code, none⟩] } }
    else (s.err.queue.filter (fun r => r.domain.contains d)).foldl (fun s r => markMore s r.seq) s
  | none =>
    if (s.err.queue.filter (fun r => r.domain.contains d)).isEmpty then
      if s.err.queue.length ≥ 64 then dueWarm s 4 code
      else { s with err := { s.err with queue := s.err.queue ++ [⟨seq, d, code, none⟩] } }
    else (s.err.queue.filter (fun r => r.domain.contains d)).foldl (fun s r => markMore s r.seq) s

/-- A UNIT error: its entry, and its unit's recovery queued (R606, R609). -/
def raiseUnit (s : State) (code : Nat) (d : Domain) : State :=
  let n := reg s Reg.errTail
  let s := errWrite s (errBase s code 3 (pgId d.page))
  queueRecovery s n d code

/-- A FATAL error that a warm reset resolves (R609). -/
def raiseFatal (s : State) (code page addr : Nat) : State :=
  dueWarm (errWrite s { errBase s code 4 (pgId page) with addr }) 1 code

/-! ### Free values -/

/-- The next open choice of the run. -/
def chooseOf (s : State) (same : Bool) : Bool × State :=
  if same then (true, s) else (Config.choose s.free, { s with free := s.free + 1 })

/-- A value of `n` bits that the spec leaves open. -/
def freeNat (s : State) (n : Nat) : Nat × State :=
  ((Config.freeWord s.free).toNat % 2 ^ n, { s with free := s.free + 1 })

/-- Firmware rewrites the query table (R476); how long that takes is left open. -/
def rewriteTable (s : State) : State :=
  let r := freeNat s 32
  { r.2 with boot := { s.boot with gen := s.boot.gen + 2, genEnd := s.now + r.1 } }

/-- GEN: odd while a rewrite is in progress. -/
def tableGen (s : State) : Nat := if s.now < s.boot.genEnd then s.boot.gen - 1 else s.boot.gen

/-- A UNIT error whose code the spec does not state: a link that fails (R609). -/
def raiseLink (s : State) (d : Domain) : State :=
  let r := freeNat s 16
  raiseUnit r.2 r.1 d

/-! ### Memory (R351, R364, R368) -/

/-- What an address of HBM that nothing lists reads as: cold boot writes zeros to every sector (R368). -/
def memDefault : Byte := 0

def memGet (m : List Host.Cell) (a : Nat) : Byte := mgetD m a memDefault

def memPut (m : List Host.Cell) (a : Nat) (b : Byte) : List Host.Cell :=
  if b = memDefault then mdel m a else mset m a b

/-- Keys strictly rising above a bound, and no entry equal to what an unlisted address reads as. -/
def cellsWf : Option Nat → List Host.Cell → Bool
  | _, [] => true
  | lo, (a, b) :: t =>
    (match lo with | none => true | some l => decide (l < a)) && decide (b ≠ memDefault) && cellsWf (some a) t

/-- The canonical form of memory. -/
def Memory.wf (m : List Host.Cell) : Bool := cellsWf none m

/-- A byte of HBM. -/
def rd8 (s : State) (a : Nat) : Byte := memGet s.mem a

/-- Bytes of HBM from an address on. -/
def rdBytes (s : State) (a : Nat) : Nat → List Byte
  | 0 => []
  | n + 1 => rd8 s a :: rdBytes s (a + 1) n

/-- Bytes stored from an address on. -/
def putBytes (m : List Host.Cell) (a : Nat) : List Byte → List Host.Cell
  | [] => m
  | b :: t => putBytes (memPut m a b) (a + 1) t

/-- Bytes stored from an address on where a mask, counted from bit `i`, is set. -/
def putMasked (m : List Host.Cell) (a i : Nat) (mask : BitVec 128) : List Byte → List Host.Cell
  | [] => m
  | b :: t => putMasked (if mask.getLsbD i then memPut m a b else m) (a + 1) (i + 1) mask t

def wrBytes (s : State) (a : Nat) (d : List Byte) : State := { s with mem := putBytes s.mem a d }

/-- HBM capacity: 96 GiB for each populated stack (R349, R353). -/
def hbmBytes (s : State) : Nat := popCount 16 s.boot.stackMask * 0x1800000000

/-- The sector and the line of a physical address (R350). -/
def sectorOf (a : Nat) : Nat := a / 32 * 32
def lineOf (a : Nat) : Nat := a / 128 * 128

def isPoisoned (s : State) (sector : Nat) : Bool := s.poison.contains sector

/-- The populated stacks in ascending order, numbered by position (R352). -/
def stackList (mask : Nat) : Nat → List Nat
  | 0 => []
  | n + 1 => stackList mask n ++ (if mask.testBit n then [n] else [])

/-- The interleave (R352): the stack's position among the populated ones, the channel, and the offset within it. -/
def interleave (nStacks pa : Nat) : Nat × Nat × Nat :=
  let n := 32 * nStacks
  let g := pa / 256
  let q := g / n
  let f := (q % 512) ^^^ (q / 512 % 512) ^^^ (q / 262144 % 64)
  let c := (g % n + f) % n
  (c % nStacks, c / nStacks, q * 256 + pa % 256)

/-- The stack and the channel that hold a physical address. -/
def channelOf (s : State) (pa : Nat) : Nat × Nat :=
  let st := stackList s.boot.stackMask 16
  let r := interleave st.length pa
  (st.getD r.1 0, r.2.1)

end Sys2Proof.Machine
end

