-- ==== Sys2Proof/Machine/Apply.lean ====
section
/-! DEFINITION. Staged fields and their safe points (R468).
Assumption log: DEDUCED 108. -/

namespace Sys2Proof.Machine

/-- A field of a page's snapshot takes effect at its safe point; when it is the last, PG_APPLYSEQ.DONE takes REQ (R468). -/
def safePoint (s : State) (page addr : Nat) : State :=
  match mget s.applying page with
  | none => s
  | some l =>
    match aget l addr with
    | none => s
    | some v =>
      let s := { s with regs := mset s.regs addr v }
      let rest := l.filter fun e => e.1 != addr
      if rest.isEmpty then
        let q := rawReg s (hPgApplyseq page) 0
        setRaw { s with applying := mdel s.applying page } (hPgApplyseq page) (q / 65536 * 65536 + q / 65536)
      else { s with applying := mset s.applying page rest }

/-- The same for a register of a page. -/
def regSafePoint (s : State) (page : Nat) (r : RegDef) (i : Nat := 0) : State := safePoint s page (r.at_ i)

/-- Every field of a page's snapshot takes effect. -/
def pageSafePoint (s : State) (page : Nat) : State :=
  ((mget s.applying page).getD []).foldl (fun s e => safePoint s page e.1) s

end Sys2Proof.Machine
end

