-- ==== Sys2Proof/Machine/FabOps.lean ====
section
/-! DEFINITION. Named operations over the objects of the state, and the sending of blocks (R395–R402, R410, R668).
Assumption log: DEDUCED 59. -/

namespace Sys2Proof.Machine

/-! ### Units as reset leaves them -/

/-- An array set with nothing in it (R126). -/
def WeightSet.cleared : WeightSet :=
  { state := .empty, fmt := 0, orient := false, noscale := false, kdim := 0, ndim := 0, low := false, load := 0, w := [] }

/-- A cache after cold boot and warm reset (R252). -/
def CacheCtl.fresh : CacheCtl :=
  { enabled := true, draining := none, invBusy := none, invFromDisabled := false, invDone := false }

/-- The array with nothing in it, idle long enough to ramp (R126, R152). -/
def ArrayState.fresh : ArrayState :=
  { queue := [], ghosts := [], nextId := 0, active := .cleared, shadow := .cleared, rows := [], load := none, swaps := [], waves := [], streams := [],
    drain := none, lastRow := 0, idle := true, ramp := none, cmd := none, trap := false }

def CoreSt.fresh : CoreSt :=
  { groups := [], rotate := 0, lastIssuer := [], issuedAt := [], units := [], lsu := 0, lanePath := 0, bars := [], scratch := [], allocs := [],
    zeroing := none, bankWaits := [], promoted := [], l1 := [], l1ctl := .fresh, mbuf := [], nextMb := 0,
    launched := [], movers := [], moverTurn := 0, arr := .fresh, lastDone := 0, workSince := none }

def L2Slice.fresh : L2Slice := { ctl := .fresh, sets := [], mbuf := [], keepSeen := [], locked := [], returned := 0 }

def Chan.fresh : Chan :=
  { queue := [], down := none, laneErrs := [], spares := [], lastSwitch := none, lastDone := 0,
    workSince := none }

def StreamSt.fresh : StreamSt :=
  { next := 0, expect := 0, sent := [], cursor := 0, lastAdv := 0, resent := false, fails := 0, lastNak := none,
    ackDue := none }

def Peer.fresh : Peer :=
  { state := .unverified, epoch := 0, session := 0, heard := none, told := false, verified := none, onAlt := false,
    reroute := none, ctl := .fresh, data := .fresh, waitingSend := [], credits := 0, granted := 0,
    timeouts := 0, active := false, lastHeard := 0, lastSent := 0, lastActive := 0, lostAt := none, wasActive := false,
    discardedTags := [], rejoinWait := false, outReqs := [], releases := [], ingress := [], tokens := [],
    unperf := [], perfTold := 0, heldSince := none }

def Port.fresh : Port :=
  { link := .idle, lanes := 0, link_ := [], ctl := [], ord := [], reads := [], resp := [], turn := 0, schedRun := 0,
    calendar := [], calStart := 0, calFrame := 0, slot := none, guardNs := 250, lastDone := 0, workSince := none,
    runSince := 0 }

/-! ### Access to units -/

def coreOf (s : State) (c : Nat) : CoreSt := mgetD s.cores c .fresh
def modCore (s : State) (c : Nat) (f : CoreSt → CoreSt) : State :=
  { s with cores := mset s.cores c (f (coreOf s c)) }

def groupOf (s : State) (c slot : Nat) : Option Group := mget (coreOf s c).groups slot
def modGroup (s : State) (c slot : Nat) (f : Group → Group) : State :=
  modCore s c fun k => { k with groups := mmod k.groups slot f }

def cmdOf (s : State) (i : Nat) : Option Cmd := mget s.cmds i
def modCmd (s : State) (i : Nat) (f : Cmd → Cmd) : State := { s with cmds := mmod s.cmds i f }

def modTenant (s : State) (i : Nat) (f : Tenant → Tenant) : State :=
  { s with obj := { s.obj with tenants := mmod s.obj.tenants i f } }
def modCtx (s : State) (i : Nat) (f : Context → Context) : State :=
  { s with obj := { s.obj with contexts := mmod s.obj.contexts i f } }
def modQueue (s : State) (i : Nat) (f : Queue → Queue) : State :=
  { s with obj := { s.obj with queues := mmod s.obj.queues i f } }
def modFence (s : State) (i : Nat) (f : Fence → Fence) : State :=
  { s with obj := { s.obj with fences := mmod s.obj.fences i f } }
def modObj (s : State) (i : Nat) (f : MemObj → MemObj) : State :=
  { s with obj := { s.obj with objs := mmod s.obj.objs i f } }

def sliceOf (s : State) (i : Nat) : L2Slice := mgetD s.ms.l2 i .fresh
def modSlice (s : State) (i : Nat) (f : L2Slice → L2Slice) : State :=
  { s with ms := { s.ms with l2 := mset s.ms.l2 i (f (sliceOf s i)) } }

def chanKey (stack ch : Nat) : Nat := stack * 32 + ch
def chanOf (s : State) (stack ch : Nat) : Chan := mgetD s.hbm.chans (chanKey stack ch) .fresh
def modChan (s : State) (stack ch : Nat) (f : Chan → Chan) : State :=
  { s with hbm := { s.hbm with chans := mset s.hbm.chans (chanKey stack ch) (f (chanOf s stack ch)) } }

def peerOf (s : State) (n : Nat) : Peer := mgetD s.fab.peers n .fresh
def modPeer (s : State) (n : Nat) (f : Peer → Peer) : State :=
  { s with fab := { s.fab with peers := mset s.fab.peers n (f (peerOf s n)) } }

def portOf (s : State) (p : Nat) : Port := mgetD s.fab.ports p .fresh
def modPort (s : State) (p : Nat) (f : Port → Port) : State :=
  { s with fab := { s.fab with ports := mset s.fab.ports p (f (portOf s p)) } }

/-! ### Accounting (R540) -/

def Acct.zero : Acct := ⟨0, 0, 0, 0, 0, 0⟩

def modAcct (s : State) (t : Nat) (f : Acct → Acct) : State :=
  { s with srv := { s.srv with acct := mset s.srv.acct t (f (mgetD s.srv.acct t .zero)) } }

/-- HBM, fabric and host bytes moved for a command, charged to its tenant and counted in its record (R501, R540). -/
def chargeHbm (s : State) (cmd : Option Nat) (n : Nat) : State :=
  match cmd with
  | none => s
  | some i =>
    match cmdOf s i with
    | none => s
    | some c => modAcct (modCmd s i fun c => { c with bytes := c.bytes + n }) c.tenant
                  fun a => { a with hbm := a.hbm + n }

def chargeFab (s : State) (cmd : Option Nat) (n : Nat) : State :=
  match cmd with
  | none => s
  | some i =>
    match cmdOf s i with
    | none => s
    | some c => modAcct (modCmd s i fun c => { c with bytes := c.bytes + n }) c.tenant
                  fun a => { a with fab := a.fab + n }

def chargeHost (s : State) (cmd : Option Nat) (n : Nat) : State :=
  match cmd with
  | none => s
  | some i =>
    match cmdOf s i with
    | none => s
    | some c => modAcct (modCmd s i fun c => { c with bytes := c.bytes + n }) c.tenant
                  fun a => { a with host := a.host + n }

/-! ### Paths, egress, blocks -/

/-- The entry of the loaded topology for a node (R388). -/
def topoEntry (s : State) (n : Nat) : Option TopoEntry :=
  match s.fab.topo with
  | some t => t.entries.find? fun e => e.node == n
  | none => none

/-- The local port of a pair's current path (R388, R410). -/
def pathPort (s : State) (n : Nat) : Nat :=
  match topoEntry s n with
  | some e => if (peerOf s n).onAlt then e.alt.toNat % 16 else e.pri.toNat % 16
  | none => 0

/-- Payload bytes of a block's message (R396). -/
def Msg.len : Msg → Nat
  | .write d => d.length
  | .writeMasked _ _ => 144
  | .reduce _ d => d.length
  | .atomic _ e => 24 * e.length
  | .readResp d => d.length
  | .atomicResp o => 8 * o.length
  | .timeReq _ _ _ _ | .timeResp _ _ _ _ _ _ _ => 40
  | .rejoinAck t => 2 * t.length
  | .gangArrived _ _ _ _ c _ h => 8 * c.length + 8 * h.length
  | .gangStart _ _ h => 8 * h.length
  | _ => 0

/-- Bytes of a block: header, payload, CRC (R394). -/
def Blk.size (b : Blk) : Nat := 36 + b.msg.len

/-- Bytes held in a port's egress buffer (R668), blocks that wait for their pair among them (R392, R404), and in its replay
buffer (R399). -/
def egressUsed (s : State) (p : Nat) : Nat :=
  ((portOf s p).ord.map Blk.size).foldl (· + ·) 0 +
  (s.fab.peers.map fun e =>
    if pathPort s e.1 = p then (e.2.waitingSend.map Blk.size).foldl (· + ·) 0 else 0).foldl (· + ·) 0
def replayUsed (s : State) (p : Nat) : Nat :=
  (s.fab.peers.map fun e =>
    if pathPort s e.1 = p then ((e.2.ctl.sent ++ e.2.data.sent).map Blk.size).foldl (· + ·) 0 else 0).foldl (· + ·) 0

/-- The egress buffer of a port has room for `n` bytes (R668). -/
def egressRoom (s : State) (p n : Nat) : Bool := decide (egressUsed s p + n ≤ 1048576)

/-- A CTL message without a payload of data. Its PSN is given when it is sent. -/
def ctlBlk (dst tag : Nat) (m : Msg) : Blk :=
  { dst, cls := 0, shadow := false, addr := 0, tag, req := 0, psn := 0, msg := m, cmd := none, groups := [] }

/-- Active pairs (R404). -/
def activePairs (s : State) : Nat := (s.fab.peers.filter fun e => e.2.active).length

/-- Work toward a peer goes out at once: the pair is verified, and active or able to become so (R404, R407). -/
def mayUse (s : State) (n : Nat) : Bool :=
  let p := peerOf s n
  (p.state == .up || p.state == .suspect) && (p.active || decide (activePairs s < 4096))

/-- The FTM states in which calendars do not run (R422), and the entry of a port's calendar for a node (R442). -/
def calendarsRun (s : State) : Bool := s.ftm.state == .locked || s.ftm.state == .holdover
def calNames (s : State) (port n : Nat) : Bool := (portOf s port).calendar.any fun e => e.valid && e.dst == n

/-- Work toward a peer waits: the pair is not verified, or 4,096 others are active (R404, R407). -/
def mustWait (s : State) (n : Nat) : Bool :=
  let p := peerOf s n
  p.state == .unverified || ((p.state == .up || p.state == .suspect) && !mayUse s n)

/-- A pair noted as active now (R404); its silence counts from the instant it becomes active. -/
def markActive (s : State) (n : Nat) : State :=
  modPeer s n fun p =>
    if p.active then { p with lastActive := s.now }
    else { p with active := true, lastActive := s.now, lastHeard := s.now, lastSent := s.now }

/-- The plane byte of a port (R387). -/
def planeOf (t : TopoTable) (p : Nat) : BitVec 8 := t.planes.getD p 0x7F#8

/-- The port that a path of the pair uses here, and the peer's port that it reaches (R388). -/
def portFor (s : State) (n : Nat) (alt : Bool) : Nat :=
  match topoEntry s n with
  | some e => if alt then e.alt.toNat % 16 else e.pri.toNat % 16
  | none => 0

def reachedPort (s : State) (n : Nat) (alt : Bool) : Nat :=
  match topoEntry s n with
  | some e => if alt then e.alt.toNat / 16 else e.pri.toNat / 16
  | none => 0

/-- This module's announcement as a peer gets it (R391, R392). -/
def ownAnnounce (s : State) (n : Nat) : Announce :=
  let key := leBytes 64 (Config.idKey s.boot.idHash)
  let port := pathPort s n
  { key, nonce := s.fab.nonce, sig := Config.announceSig (key ++ leBytes 32 s.fab.nonce), port,
    plane := ((s.fab.topo.map fun t => (planeOf t port).toNat % 128)).getD 0, reached := reachedPort s n (peerOf s n).onAlt }

/-- This module's announcement sent: it goes before the streams of the pair, which start at verification (R392, R397). -/
def sendAnnounce (s : State) (n : Nat) : State :=
  let s := modPeer s n fun p => { p with told := true, lastSent := s.now }
  modPort s (pathPort s n) fun q => { q with link_ := q.link_ ++ [ctlBlk n 0 (.announcement (ownAnnounce s n))] }

/-- The same to a peer that has not had it. -/
def announceTo (s : State) (n : Nat) : State := if (peerOf s n).told then s else sendAnnounce s n

/-- Something that waits for the pair (R392, R404). The first use of an unverified pair announces this module. -/
def waitSend (s : State) (b : Blk) : State :=
  announceTo (modPeer s b.dst fun p => { p with waitingSend := p.waitingSend ++ [b] }) b.dst

/-- A CTL message toward a peer; toward a lost peer it is discarded (R397, R407). -/
def sendCtl (s : State) (n tag : Nat) (m : Msg) : State :=
  if mayUse s n then
    modPort (markActive s n) (pathPort s n) fun q => { q with ctl := q.ctl ++ [ctlBlk n tag m] }
  else if mustWait s n then waitSend s (ctlBlk n tag m)
  else s

/-- A CTL message sent whatever the peer's state: RESET, REJOIN and its answers (R412, R413). -/
def sendCtlAlways (s : State) (n tag : Nat) (m : Msg) : State :=
  modPort s (pathPort s n) fun q => { q with ctl := q.ctl ++ [ctlBlk n tag m] }

/-- A link-control block toward a peer (R397): neither sequenced nor sent again. -/
def sendLink (s : State) (n psn : Nat) (m : Msg) : State :=
  modPort s (pathPort s n) fun q => { q with link_ := q.link_ ++ [{ ctlBlk n 0 m with psn }] }

/-- Payload bytes of a command's traffic, or of a peer's (R540). -/
def chargeBlk (s : State) (b : Blk) : State := chargeFab s b.cmd b.msg.len

/-- A write, masked write, reducing write or atomic into the ordered queue of its destination (R402). -/
def sendOrdered (s : State) (b : Blk) : State :=
  if mayUse s b.dst then
    modPort (markActive s b.dst) (pathPort s b.dst) fun q => { q with ord := q.ord ++ [b] }
  else if mustWait s b.dst then waitSend s b
  else s

/-- A READ toward a peer (R402). -/
def sendRead (s : State) (b : Blk) : State :=
  if mayUse s b.dst then
    modPort (markActive s b.dst) (pathPort s b.dst) fun q => { q with reads := q.reads ++ [b] }
  else if mustWait s b.dst then waitSend s b
  else s

/-- What waited for a pair is sent now (R392, R404). -/
def releaseWaiting (s : State) (n : Nat) : State :=
  let bs := (peerOf s n).waitingSend
  let s := modPeer s n fun p => { p with waitingSend := [] }
  bs.foldl (fun s b =>
    match b.msg with
    | .read _ => sendRead s b
    | .write _ | .writeMasked _ _ | .reduce _ _ | .atomic _ _ => sendOrdered s b
    | m => sendCtl s n b.tag m) s

/-- A response toward a peer (R401). -/
def sendResp (s : State) (b : Blk) : State :=
  modPort s (pathPort s b.dst) fun q => { q with resp := q.resp ++ [b] }

/-- The code that ends a request toward a peer that takes none (R407). -/
def peerGone (s : State) (n : Nat) : Option Nat :=
  match (peerOf s n).state with
  | .down => some Code.fabPeerDown
  | .reset => some Code.fabPeerReset
  | .rejected => some Code.fabPeerRejected
  | _ => none

end Sys2Proof.Machine
end

