-- ==== Sys2Proof/Machine/Num.lean ====
section
/-! DEFINITION. Numbers: the element formats (R170–R172), rounding (R68, R187), encoding (R190, R191), the order of R192,
sums and products in exact arithmetic, and the bounds of the special functions (R73).
Assumption log: DESIGN CHOICE 22. -/

namespace Sys2Proof.Machine

/-! ### Formats and values -/

/-- A float format: exponent bits, fraction bits, bias, whether its top exponent holds infinity and NaN, and the largest
finite magnitude code (R170, R172). -/
structure NumFmt where
  eb   : Nat
  fb   : Nat
  bias : Nat
  infs : Bool
  top  : Nat
  deriving DecidableEq, Repr

def fmtF32 : NumFmt := ⟨8, 23, 127, true, 0x7F7FFFFF⟩
def fmtF16 : NumFmt := ⟨5, 10, 15, true, 0x7BFF⟩

/-- The float formats by code (R170). -/
def fmtFor : Nat → NumFmt
  | 0 => fmtF32
  | 1 => fmtF16
  | 2 => ⟨4, 3, 7, false, 0x7E⟩
  | 3 => ⟨5, 2, 15, true, 0x7B⟩
  | 4 => ⟨3, 2, 3, false, 0x1F⟩
  | _ => ⟨2, 1, 1, false, 0x7⟩

/-- The width in bits of an element format (R170). -/
def elemWidth : Nat → Nat
  | 0 => 32
  | 1 => 16
  | 2 => 8
  | 3 => 8
  | 4 => 6
  | 5 => 4
  | 6 => 8
  | _ => 4

/-- A decoded number: NaN, an infinity, or (−1)^s · m · 2^e; a zero has m = 0. -/
inductive Num where
  | nan
  | inf (s : Bool)
  | fin (s : Bool) (m : Nat) (e : Int)
  deriving DecidableEq, Repr

def Num.zero (s : Bool) : Num := .fin s 0 0

def Num.isZero : Num → Bool
  | .fin _ 0 _ => true
  | _ => false

/-- The exponent of the least subnormal bit. -/
def NumFmt.qmin (f : NumFmt) : Int := 1 - (f.bias : Int) - f.fb

/-- The value of a code (R171, R172). -/
def NumFmt.decode (f : NumFmt) (c : Nat) : Num :=
  let frac := c % 2 ^ f.fb
  let ex := c / 2 ^ f.fb % 2 ^ f.eb
  let s := c / 2 ^ (f.fb + f.eb) % 2 == 1
  if f.infs ∧ ex = 2 ^ f.eb - 1 then (if frac = 0 then .inf s else .nan)
  else if f.eb = 4 ∧ c % 128 = 127 then .nan
  else if ex = 0 then .fin s frac f.qmin
  else .fin s (2 ^ f.fb + frac) (f.qmin + (ex : Int) - 1)

/-- The value of a two's-complement code of `w` bits. -/
def intOf (w c : Nat) : Int := if c % 2 ^ w ≥ 2 ^ (w - 1) then (c % 2 ^ w : Int) - 2 ^ w else (c % 2 ^ w : Int)

def numOfInt (i : Int) : Num := .fin (decide (i < 0)) i.natAbs 0

/-- The value of an element (R171). -/
def decodeElem (code c : Nat) : Num :=
  if code ≥ 6 then numOfInt (intOf (elemWidth code) c) else (fmtFor code).decode c

/-- Floor of the binary logarithm of a magnitude: the exponent of its leading bit. -/
def leadExp (m : Nat) (e : Int) : Int := (Nat.log2 m : Int) + e

/-! ### Rounding -/

/-- m · 2^e as a whole multiple of 2^q, rounded by a mode of R68 (5 is ties away, R187), and whether it changed. -/
def roundAt (mode : Nat) (s : Bool) (m : Nat) (e q : Int) : Nat × Bool :=
  if q ≤ e then (m * 2 ^ (e - q).toNat, false)
  else
    let d := 2 ^ (q - e).toNat
    let n := m / d
    let r := m % d
    let up : Bool := match mode with
      | 1 => decide (2 * r > d) || (decide (2 * r = d) && n % 2 == 1)
      | 2 => false
      | 3 => !s && decide (r ≠ 0)
      | 4 => s && decide (r ≠ 0)
      | _ => decide (2 * r ≥ d)
    (if up then n + 1 else n, decide (r ≠ 0))

/-- A rounded magnitude: its code, which exceeds the format's `top` where it overflows; inexact; tiny (R80). -/
structure Rounded where
  code : Nat
  nx   : Bool
  tiny : Bool
  deriving DecidableEq, Repr

/-- A nonzero magnitude rounded to a format, subnormals kept. -/
def NumFmt.roundMag (f : NumFmt) (mode : Nat) (s : Bool) (m : Nat) (e : Int) : Rounded :=
  if m = 0 then ⟨0, false, false⟩
  else
    let x := leadExp m e
    let q := max (x - f.fb) f.qmin
    let r := roundAt mode s m e q
    let u := roundAt mode s m e (x - f.fb)
    let xu := if u.1 ≥ 2 ^ (f.fb + 1) then x + 1 else x
    ⟨(q - f.qmin).toNat * 2 ^ f.fb + r.1, r.2, decide (xu < 1 - (f.bias : Int))⟩

def NumFmt.sign (f : NumFmt) (s : Bool) : Nat := if s then 2 ^ (f.eb + f.fb) else 0
def NumFmt.infCode (f : NumFmt) : Nat := (2 ^ f.eb - 1) * 2 ^ f.fb
def NumFmt.nanCode (f : NumFmt) : Nat := f.infCode + 2 ^ (f.fb - 1)

/-! ### The tensor path (R187, R190–R194) -/

/-- The outcome of an encoding (R191). -/
inductive Outcome where
  | exact | rounded | saturated | overflowed | nan
  deriving DecidableEq, Repr

/-- Encoding to a float format (R190). -/
def NumFmt.encodeT (f : NumFmt) (v : Num) : Nat × Outcome :=
  match v with
  | .nan => (if f.infs then f.nanCode else if f.eb = 4 then 0x7F else 0, .nan)
  | .inf s => if f.infs then (f.sign s + f.infCode, .exact) else (f.sign s + f.top, .saturated)
  | .fin s m e =>
    let r := f.roundMag 5 s m e
    if r.code > f.top then
      if f.infs then (f.sign s + f.infCode, .overflowed) else (f.sign s + f.top, .saturated)
    else (f.sign s + r.code, if r.nx then .rounded else .exact)

/-- Encoding to INT8 or INT4 (R190). -/
def encodeInt (w : Nat) (v : Num) : Nat × Outcome :=
  let lim (s : Bool) : Nat := if s then 2 ^ (w - 1) else 2 ^ (w - 1) - 1
  match v with
  | .nan => (0, .nan)
  | .inf s => (lim s, .saturated)
  | .fin s m e =>
    let r := roundAt 5 s m e 0
    if r.1 > lim s then (lim s, .saturated)
    else ((if s then 2 ^ w - r.1 else r.1) % 2 ^ w, if r.2 then .rounded else .exact)

/-- Encoding by format code (R190). -/
def encodeElem (code : Nat) (v : Num) : Nat × Outcome :=
  if code ≥ 6 then encodeInt (elemWidth code) v else (fmtFor code).encodeT v

/-- FP32 by R187: a sum rounded as the reducers, the edge and the quantizer round. -/
def toF32T (v : Num) : Nat := (fmtF32.encodeT v).1

/-! ### Exact sums and products -/

/-- The exact sum of two finite values; `z` is the sign of a zero that is the sum of nonzero values or of zeros of
unlike sign. -/
def addFin (z : Bool) (s1 : Bool) (m1 : Nat) (e1 : Int) (s2 : Bool) (m2 : Nat) (e2 : Int) : Num :=
  if m1 = 0 ∧ m2 = 0 then .zero (if s1 = s2 then s1 else z)
  else
    let e := min e1 e2
    let a : Int := (m1 : Int) * 2 ^ (e1 - e).toNat
    let b : Int := (m2 : Int) * 2 ^ (e2 - e).toNat
    let t := (if s1 then -a else a) + (if s2 then -b else b)
    if t = 0 then .zero z else .fin (decide (t < 0)) t.natAbs e

/-- The exact sum; none for opposite infinities, an invalid operation. -/
def addNum (z : Bool) (a b : Num) : Option Num :=
  match a, b with
  | .nan, _ | _, .nan => some .nan
  | .inf s, .inf t => if s = t then some (.inf s) else none
  | .inf s, _ | _, .inf s => some (.inf s)
  | .fin s1 m1 e1, .fin s2 m2 e2 => some (addFin z s1 m1 e1 s2 m2 e2)

/-- The exact product; none for a zero times an infinity. -/
def mulNum (a b : Num) : Option Num :=
  match a, b with
  | .nan, _ | _, .nan => some .nan
  | .inf s, .inf t => some (.inf (s != t))
  | .inf s, .fin t m _ | .fin t m _, .inf s => if m = 0 then none else some (.inf (s != t))
  | .fin s1 m1 e1, .fin s2 m2 e2 => some (.fin (s1 != s2) (m1 * m2) (e1 + e2))

def negNum : Num → Num
  | .nan => .nan
  | .inf s => .inf !s
  | .fin s m e => .fin (!s) m e

def absNum : Num → Num
  | .nan => .nan
  | .inf _ => .inf false
  | .fin _ m e => .fin false m e

/-- A number as a key that orders values exactly with another: none for NaN. −0 and +0 compare equal. -/
def cmpNum (a b : Num) : Option Ordering :=
  match a, b with
  | .nan, _ | _, .nan => none
  | .inf s, .inf t => some (if s = t then .eq else if s then .lt else .gt)
  | .inf s, .fin _ _ _ => some (if s then .lt else .gt)
  | .fin _ _ _, .inf t => some (if t then .gt else .lt)
  | .fin s1 m1 e1, .fin s2 m2 e2 =>
    let e := min e1 e2
    let a : Int := (m1 : Int) * 2 ^ (e1 - e).toNat
    let b : Int := (m2 : Int) * 2 ^ (e2 - e).toNat
    some (compare (if s1 then -a else a) (if s2 then -b else b))

/-- max and min of the tensor path (R192), which the lanes' MAX.F and MIN.F share (R82). -/
def maxT (a b : Num) : Num :=
  match cmpNum a b with
  | none => .nan
  | some .lt => b
  | some .gt => a
  | some .eq => match a with
    | .fin false 0 _ => a
    | _ => if a.isZero then b else a

def minT (a b : Num) : Num :=
  match cmpNum a b with
  | none => .nan
  | some .lt => a
  | some .gt => b
  | some .eq => match a with
    | .fin true 0 _ => a
    | _ => if a.isZero then b else a

/-- The amax of a list of values (R192): +0 for none. -/
def amaxOf (l : List Num) : Num := l.foldl (fun a v => maxT a (absNum v)) (.zero false)

/-- A float addition of the reducers and of scratchpad atomics (R194). -/
def reduceAdd (f : NumFmt) (a b : Nat) : Nat :=
  match addNum false (f.decode a) (f.decode b) with
  | none => f.nanCode
  | some (.fin _ 0 _) => 0
  | some v =>
    let c := (f.encodeT v).1
    if c % 2 ^ (f.eb + f.fb) = 0 then 0 else c

/-! ### Fixed point, for the bounds of the special functions (R73). Values are in units of 2⁻⁹⁶. -/

def fxOne : Int := 2 ^ 96

/-- Σ tᵏ/k! by Horner's rule from term `n` down, each product cut to a unit. -/
def fxExp (t : Int) : Nat → Nat → Int
  | 0, _ => fxOne
  | n + 1, k => fxOne + fxExp t n (k + 1) * t / (fxOne * k)

/-- ln 2 and π in units of 2⁻⁹⁶. -/
def fxLn2 : Int := 54916777467707473351141471128
def fxPi : Int := 248902613312231085230521944622

/-- 2^f for f in [0, 1). -/
def fxExp2 (f : Int) : Int := fxExp (f * fxLn2 / fxOne) 40 1

/-- The bits of log2 of m in [1, 2), `n` of them. -/
def fxLogBits : Nat → Nat → Nat → Nat
  | 0, _, acc => acc
  | n + 1, m, acc =>
    let q := m * m / 2 ^ 96
    if q ≥ 2 ^ 97 then fxLogBits n (q / 2) (2 * acc + 1) else fxLogBits n q (2 * acc)

/-- Σ (−1)ᵏ t²ᵏ/((2k+j)!/j!) with j = 0 for a cosine and 1 for a sine over its argument. -/
def fxTrig (t2 : Int) (j : Nat) : Nat → Nat → Int
  | 0, _ => fxOne
  | n + 1, k => fxOne - fxTrig t2 j n (k + 1) * t2 / (fxOne * ((2 * k + j - 1) * (2 * k + j)))

/-- m · 2^e in units of 2⁻⁹⁶, cut toward zero. -/
def toFx (s : Bool) (m : Nat) (e : Int) : Int :=
  let a : Nat := if e + 96 ≥ 0 then m * 2 ^ (e + 96).toNat else m / 2 ^ (-(e + 96)).toNat
  if s then -(a : Int) else a

def ofFx (i : Int) : Num := .fin (decide (i < 0)) i.natAbs (-96)

/-- The integer square root, bit by bit from 2^n down. -/
def sqrtBits (v : Nat) : Nat → Nat → Nat
  | 0, r => r
  | n + 1, r => let t := r + 2 ^ n; sqrtBits v n (if t * t ≤ v then t else r)

/-- An approximation, far closer than one ulp, of the value that special function `op` of R665 (0 RECIP … 5 COS) has at
a nonzero finite operand on which it is defined. -/
def specialNear (op : Nat) (s : Bool) (m : Nat) (e : Int) : Num :=
  match op with
  | 0 => .fin s (2 ^ 160 / m) (-160 - e)
  | 1 =>
    -- 1/√(m·2^e) with an even exponent
    let m' := if e % 2 = 0 then m else 2 * m
    let e' := if e % 2 = 0 then e else e - 1
    .fin false (sqrtBits (2 ^ 256 / m') 128 0) (-128 - e' / 2)
  | 2 =>
    let x := toFx s m e
    let n := x / fxOne
    if n > 200 then .fin false 1 200
    else if n < -300 then .fin false 1 (-300)
    else .fin false (fxExp2 (x % fxOne)).toNat (n - 96)
  | 3 =>
    let l := Nat.log2 m
    let frac := if l ≤ 96 then m * 2 ^ (96 - l) else m / 2 ^ (l - 96)
    let b := fxLogBits 90 frac 0
    ofFx (((l : Int) + e) * fxOne + (b : Int) * 64)
  | 4 =>
    let x := toFx s m e
    ofFx (x * fxTrig (x * x / fxOne) 1 24 1 / fxOne)
  | _ =>
    let x := toFx s m e
    ofFx (fxTrig (x * x / fxOne) 0 24 1)

/-- The distance of two finite values is at most 2^q. -/
def within (a b : Num) (q : Int) : Bool :=
  match a, b with
  | .fin s1 m1 e1, .fin s2 m2 e2 =>
    match addFin false s1 m1 e1 (!s2) m2 e2 with
    | .fin _ m e => (cmpNum (.fin false m e) (.fin false 1 q)) != some .gt
    | _ => false
  | _, _ => false

/-- The exponent of one ulp of a finite value in FP32. -/
def ulpExp (v : Num) : Int :=
  match v with
  | .fin _ m e => if m = 0 then fmtF32.qmin else max (leadExp m e - 23) fmtF32.qmin
  | _ => 0

/-- A result `w` that R73 allows where the exact value lies near `near`: within 1 ulp for RECIP, RSQRT, EXP2 and LOG2,
within 2⁻²² for SIN and COS of an argument in [−π, π], any value beyond. -/
def specialAllows (op : Nat) (x near : Num) (w : Nat) : Bool :=
  let beyond : Bool := match x with
    | .fin _ m e => decide (op ≥ 4 ∧ toFx false m e > fxPi)
    | _ => false
  beyond || within (fmtF32.decode w) near (if op ≥ 4 then -22 else ulpExp near)

end Sys2Proof.Machine
end

