-- ==== Sys2Proof/Machine/Flags.lean ====
section
/-! DEFINITION. The lanes' floating point and its sticky flags: LMODE (R78–R82), the float operations of R665, compares
(R74), conversions (R109), the special functions (R73). An operation answers a code and the flags it raises, as bits of
LMODE[12:8] counted from NX.
Assumption log: DEDUCED 17, 23; DESIGN CHOICE 22. -/

namespace Sys2Proof.Machine

def flNX : Nat := 1
def flUF : Nat := 2
def flOF : Nat := 4
def flDZ : Nat := 8
def flIV : Nat := 16

/-- LMODE's reset value (R78): to nearest, ties to even. -/
def lmodeReset : Word := 1#32

/-- The bits of LMODE that SETMODE writes (R79). -/
def lmodeMask : Word := 0x1F0F#32

/-- The flags of LMODE raised (R80). -/
def raiseFlags (m : Word) (fl : Nat) : Word := m ||| BitVec.ofNat 32 (fl % 32 * 256)

/-- FTZ of LMODE (R78). -/
def lmodeFtz (m : Word) : Bool := m.getLsbD 3

/-- The rounding mode of an instruction: its RND field, or the group's (R68). -/
def effRnd (rnd : BitVec 3) (m : Word) : Nat := if rnd = 0#3 then m.toNat % 8 else rnd.toNat

/-! ### Operands and results -/

def NumFmt.isNan (f : NumFmt) (c : Nat) : Bool := f.decode c == .nan

/-- A signaling NaN: its most significant fraction bit is 0 (R81). -/
def NumFmt.isSnan (f : NumFmt) (c : Nat) : Bool := f.isNan c && !c.testBit (f.fb - 1)

def NumFmt.quiet (f : NumFmt) (c : Nat) : Nat := c ||| 2 ^ (f.fb - 1)

/-- An operand, a subnormal taken as a zero of its sign under FTZ (R78). -/
def NumFmt.decodeL (f : NumFmt) (ftz : Bool) (c : Nat) : Num :=
  match f.decode c with
  | .fin s m e => if ftz ∧ c / 2 ^ f.fb % 2 ^ f.eb = 0 then .zero s else .fin s m e
  | v => v

/-- An exact result rounded by a mode, with its flags (R80). -/
def NumFmt.roundL (f : NumFmt) (mode : Nat) (ftz : Bool) (v : Num) : Nat × Nat :=
  match v with
  | .nan => (f.nanCode, 0)
  | .inf s => (f.sign s + f.infCode, 0)
  | .fin s m e =>
    let r := f.roundMag mode s m e
    if r.code > f.top then
      let toInf : Bool := mode == 1 || mode == 5 || (mode == 3 && !s) || (mode == 4 && s)
      (f.sign s + (if toInf then f.infCode else f.top), flOF + flNX)
    else if m ≠ 0 ∧ ftz ∧ r.tiny then (f.sign s, flUF + flNX)
    else (f.sign s + r.code, (if r.nx then flNX else 0) + (if r.nx ∧ r.tiny then flUF else 0))

/-- IV where an operand is a signaling NaN (R81). -/
def snanFlag (f : NumFmt) (cs : List Nat) : Nat := if cs.any f.isSnan then flIV else 0

/-- A float operation (R81): the first NaN operand quieted; the default NaN for an invalid operation; else the exact
result rounded. -/
def floatOp (f : NumFmt) (mode : Nat) (ftz : Bool) (op : List Num → Option Num) (cs : List Nat) : Nat × Nat :=
  match cs.find? f.isNan with
  | some c => (f.quiet c, snanFlag f cs)
  | none =>
    match op (cs.map (f.decodeL ftz)) with
    | none => (f.nanCode, flIV)
    | some v => f.roundL mode ftz v

/-! ### The operations of OP 0x10 (R665). A zero sum of unlike signs is −0 only toward −∞. -/

def opAdd (mode : Nat) : List Num → Option Num
  | [a, b] => addNum (mode == 4) a b
  | _ => none

def opSub (mode : Nat) : List Num → Option Num
  | [a, b] => addNum (mode == 4) a (negNum b)
  | _ => none

def opMul : List Num → Option Num
  | [a, b] => mulNum a b
  | _ => none

def opMad (mode : Nat) : List Num → Option Num
  | [a, b, c] => (mulNum a b).bind fun p => addNum (mode == 4) p c
  | _ => none

def opMin : List Num → Option Num
  | [a, b] => some (minT a b)
  | _ => none

def opMax : List Num → Option Num
  | [a, b] => some (maxT a b)
  | _ => none

/-- MINNUM.F and MAXNUM.F return the non-NaN operand when exactly one is NaN (R82). -/
def numOp (f : NumFmt) (ftz : Bool) (op : List Num → Option Num) (a b : Nat) : Nat × Nat :=
  if f.isNan a ≠ f.isNan b then
    let c := if f.isNan a then b else a
    ((f.roundL 1 false (f.decodeL ftz c)).1, snanFlag f [a, b])
  else floatOp f 1 ftz op [a, b]

/-- SAT on a float result (R68). -/
def satFloat (f : NumFmt) (c : Nat) : Nat :=
  match f.decode c with
  | .nan => 0
  | .inf s => if s then 0 else f.bias * 2 ^ f.fb
  | .fin s m e =>
    if s ∨ m = 0 then 0
    else if cmpNum (.fin s m e) (.fin false 1 0) = some .gt then f.bias * 2 ^ f.fb
    else c

/-! ### Compares (R74) -/

inductive Rel where
  | eq | ne | lt | le | gt | ge
  deriving DecidableEq, Repr

def Rel.holds (r : Rel) (o : Ordering) : Bool :=
  match r with
  | .eq => o == .eq
  | .ne => o != .eq
  | .lt => o == .lt
  | .le => o != .gt
  | .gt => o == .gt
  | .ge => o != .lt

/-- A float compare: subnormal operands count as zero under FTZ (R74, R78). -/
def cmpFloat (f : NumFmt) (ftz : Bool) (r : Rel) (a b : Nat) : Bool × Nat :=
  ((match cmpNum (f.decodeL ftz a) (f.decodeL ftz b) with
    | some o => r.holds o
    | none => r == .ne), snanFlag f [a, b])

/-! ### The special functions (R73) -/

/-- The flag and the result of the operands on which R73 says nothing of an error bound: a pole, an invalid operand, an
infinity. -/
def specialCorner (op : Nat) (x : Num) : Option (Nat × Nat) :=
  let f := fmtF32
  match x with
  | .nan => none
  | .inf s =>
    match op with
    | 0 => some (f.sign s, 0)
    | 1 => some (if s then (f.nanCode, flIV) else (0, 0))
    | 2 => some (if s then 0 else f.infCode, 0)
    | 3 => some (if s then (f.nanCode, flIV) else (f.infCode, 0))
    | _ => some (f.nanCode, flIV)
  | .fin s m _ =>
    if m = 0 then
      match op with
      | 0 => some (f.sign s + f.infCode, flDZ)
      | 1 => some (f.sign s + f.infCode, flDZ)
      | 3 => some (f.sign true + f.infCode, flDZ)
      | _ => none
    else if s ∧ (op = 1 ∨ op = 3) then some (f.nanCode, flIV)
    else none

/-- A result is exactly the value of the function, decided by exact arithmetic. -/
def specialExact (op : Nat) (x w : Num) : Bool :=
  match x, w with
  | .fin xs xm xe, .fin ws wm we =>
    let prod := mulNum (.fin xs xm xe) (.fin ws wm we)
    let isOne (o : Option Num) : Bool := match o with
      | some v => cmpNum v (.fin false 1 0) == some .eq
      | none => false
    match op with
    | 0 => isOne prod
    | 1 => isOne (prod.bind fun p => mulNum p (.fin ws wm we))
    | 2 => !ws && decide (wm = 2 ^ Nat.log2 wm ∧ wm ≠ 0) && cmpNum x (numOfInt (leadExp wm we)) == some .eq
    | 3 => decide (xm = 2 ^ Nat.log2 xm) && cmpNum w (numOfInt (leadExp xm xe)) == some .eq
    | 4 => xm == 0 && wm == 0
    | _ => xm == 0 && cmpNum w (.fin false 1 0) == some .eq
  | _, _ => false

/-- SIN and COS of a finite operand: the free value `w`, where R73 allows it; NX, UF and the flush of FTZ follow the value
that is delivered (R80). -/
def trigResult (op : Nat) (ftz : Bool) (x near : Num) (w : Nat) : Nat × Nat :=
  let f := fmtF32
  let w := if specialAllows op x near w then w else (f.roundL 1 false near).1
  let exact := specialExact op x (f.decode w)
  let tiny := !exact && decide (w / 2 ^ f.fb % 2 ^ f.eb = 0)
  (if tiny ∧ ftz then w / 2 ^ 31 % 2 * 2 ^ 31 else w, (if exact then 0 else flNX) + (if tiny then flUF else 0))

/-- A special function of an FP32 operand (R73, R78, R80, R81). Its value within the bound of R73 is left open: a free
value of the operation and the operand. -/
def specialOp (op : Nat) (ftz : Bool) (c : Nat) : Nat × Nat :=
  let f := fmtF32
  if f.isNan c then (f.quiet c, snanFlag f [c])
  else
    let x := f.decodeL ftz c
    match specialCorner op x, x with
    | some r, _ => r
    | none, .fin s m e =>
      let near := specialNear op s m e
      if op ≥ 4 then trigResult op ftz x near (Config.approx op (BitVec.ofNat 32 c)).toNat
      else
      let r := f.roundL 1 ftz near
      if (f.roundL 1 false near).1 % 2 ^ 31 = f.infCode then r
      else if ftz ∧ r.2 % 4 ≥ 2 then r
      else
        let w := (Config.approx op (BitVec.ofNat 32 c)).toNat
        let w := if specialAllows op x near w then w else (f.roundL 1 false near).1
        let nx := !specialExact op x (f.decode w)
        let tiny : Bool := match near with
          | .fin ns nm ne => nm != 0 && (f.roundMag 1 ns nm ne).tiny
          | _ => false
        (w, (if nx then flNX else 0) + (if nx ∧ tiny then flUF else 0))
    | none, _ => (f.nanCode, 0)

/-! ### Conversions (R109) -/

/-- The integer types of CVT: width and signedness. -/
def cvtInt : Nat → Option (Nat × Bool)
  | 2 => some (32, true)
  | 3 => some (32, false)
  | 4 => some (16, true)
  | 5 => some (16, false)
  | 6 => some (8, true)
  | 7 => some (8, false)
  | _ => none

def intLo (w : Nat) (sg : Bool) : Int := if sg then -(2 ^ (w - 1)) else 0
def intHi (w : Nat) (sg : Bool) : Int := if sg then 2 ^ (w - 1) - 1 else 2 ^ w - 1
def clampInt (lo hi v : Int) : Int := if v < lo then lo else if hi < v then hi else v

/-- The low `n` bits of an integer. -/
def wrapInt (n : Nat) (i : Int) : Nat := (i % (2 ^ n : Int)).toNat

/-- Float to integer: rounded, saturated at the range (R109). Negative results are answered sign-extended to 32 bits. -/
def cvtToInt (f : NumFmt) (mode : Nat) (ftz : Bool) (w : Nat) (sg : Bool) (c : Nat) : Nat × Nat :=
  match f.decodeL ftz c with
  | .nan => (0, flIV)
  | .inf s => (wrapInt 32 (if s then intLo w sg else intHi w sg), flIV)
  | .fin s m e =>
    let r := roundAt mode s m e 0
    let v : Int := if s then -(r.1 : Int) else r.1
    if v < intLo w sg then (wrapInt 32 (intLo w sg), flIV)
    else if intHi w sg < v then (wrapInt 32 (intHi w sg), flIV)
    else (wrapInt 32 v, if r.2 then flNX else 0)

/-- A NaN between F32 and F16 (R109): its sign, its highest fraction bits, quieted. -/
def cvtNan (a b : NumFmt) (c : Nat) : Nat :=
  let frac := c % 2 ^ a.fb
  let fr := if a.fb ≥ b.fb then frac / 2 ^ (a.fb - b.fb) else frac * 2 ^ (b.fb - a.fb)
  b.quiet (b.sign (c / 2 ^ (a.fb + a.eb) % 2 == 1) + b.infCode + fr)

/-- A float format of CVT's untensored codes. -/
def cvtFloat : Nat → Option NumFmt
  | 0 => some fmtF32
  | 1 => some fmtF16
  | _ => none

/-- The width a CVT source is read at (R109). -/
def cvtWidth : Nat → Nat
  | 0 | 2 | 3 => 32
  | 1 | 4 | 5 => 16
  | _ => 8

/-- CVT among F32, F16 and the integer codes (R109). -/
def cvtPlain (src dst mode : Nat) (ftz : Bool) (c0 : Nat) : Nat × Nat :=
  let c := c0 % 2 ^ cvtWidth src
  match cvtFloat src, cvtFloat dst with
  | some a, some b =>
    if a.isNan c then (cvtNan a b c, snanFlag a [c])
    else b.roundL mode ftz (a.decodeL ftz c)
  | some a, none =>
    match cvtInt dst with
    | some (w, sg) => cvtToInt a mode ftz w sg c
    | none => (0, 0)
  | none, d =>
    match cvtInt src with
    | none => (0, 0)
    | some (w, sg) =>
      let v : Int := if sg then intOf w c else (c : Int)
      match d with
      | some b => b.roundL mode ftz (numOfInt v)
      | none =>
        match cvtInt dst with
        | some (w', sg') => (wrapInt 32 (clampInt (intLo w' sg') (intHi w' sg') v), 0)
        | none => (0, 0)

/-- The element format of a tensor code of CVT (R109, R170). -/
def cvtElem : Nat → Nat
  | 0 => 0
  | 8 => 2
  | 9 => 3
  | 10 => 4
  | 11 => 5
  | _ => 7

/-- CVT to or from a tensor code (R110): ties away, no flag. -/
def cvtTensor (src dst c : Nat) : Nat :=
  let v := decodeElem (cvtElem src) (c % 2 ^ elemWidth (cvtElem src))
  (encodeElem (cvtElem dst) v).1

/-- CVT (R109, R110). -/
def cvtOp (src dst mode : Nat) (ftz : Bool) (c : Nat) : Nat × Nat :=
  if src ≥ 8 ∨ dst ≥ 8 then (cvtTensor src dst c, 0) else cvtPlain src dst mode ftz c

end Sys2Proof.Machine
end

