-- ==== Sys2Proof/Machine/Legal.lean ====
section
/-! DEFINITION. Which encodings of a lane instruction are well formed (R66, R101, R116, R117, R134, R154, R666), the
registers an instruction reads and writes, and its unit, occupancy and latency (R72).
Assumption log: DEDUCED 21, 24; DESIGN CHOICE 119. -/

namespace Sys2Proof.Machine

/-! ### Format R (R665, R666) -/

/-- What a source field holds: nothing; a value of any kind; a vector register; a scalar, immediate or wide immediate; a
predicate; the name of a scalar register. -/
inductive SrcUse where
  | none | val | vec | scl | pred | sname
  deriving DecidableEq, Repr

/-- What DST names. -/
inductive DstUse where
  | v | p | s | unused
  deriving DecidableEq, Repr

/-- The units of a scheduler (R72). -/
inductive LaneUnit where
  | main | special | cross | scalar | conv
  deriving DecidableEq, Repr

/-- Unit, occupancy and latency. -/
structure Cost where
  unit : LaneUnit
  occ  : Nat
  lat  : Nat
  deriving DecidableEq, Repr

/-- The classes of R72. -/
def cMain : Cost := ⟨.main, 1, 4⟩
def cMul : Cost := ⟨.main, 2, 6⟩
def cSpecial : Cost := ⟨.special, 8, 20⟩
def cCross : Cost := ⟨.cross, 1, 6⟩
def cGred : Cost := ⟨.cross, 2, 12⟩
def cScalar : Cost := ⟨.scalar, 1, 4⟩
def cCvt : Cost := ⟨.conv, 1, 4⟩
def cCvtTensor : Cost := ⟨.conv, 1, 6⟩
def cBlk : Cost := ⟨.conv, 4, 16⟩

/-- One row of R665: sources, destination, TYPE values, whether RND and SAT are honored (R666), the cost, whether LMODE
is an operand (R79). -/
structure RUse where
  a : SrcUse
  b : SrcUse
  c : SrcUse
  dst : DstUse
  types : List Nat
  rnd : Bool
  sat : Bool
  cost : Cost
  mode : Bool
  deriving DecidableEq, Repr

/-- CVT's row, by its source and destination codes (R109). -/
def cvtUse (src typ : Nat) : RUse :=
  let tensor := decide (src ≥ 8 ∨ typ ≥ 8)
  { a := .val, b := .none, c := .none, dst := .v,
    types := if src > 12 ∨ typ > 12 ∨ src = typ ∨ (tensor ∧ src ≠ 0 ∧ typ ≠ 0) then [] else [typ],
    rnd := true, sat := false, cost := if tensor then cCvtTensor else cCvt, mode := !tensor }

/-- The row of R665 for a format-R instruction. -/
def rUse : Instr → Option (FmtR × RUse)
  | .addI _ f => some (f, ⟨.val, .val, .none, .v, [2, 3, 6, 7], false, true, cMain, false⟩)
  | .subI _ f => some (f, ⟨.val, .val, .none, .v, [2, 3, 6, 7], false, true, cMain, false⟩)
  | .mulI _ f => some (f, ⟨.val, .val, .none, .v, [2, 3, 6, 7], false, true, cMul, false⟩)
  | .madI _ f => some (f, ⟨.val, .val, .val, .v, [2, 3, 6, 7], false, true, cMul, false⟩)
  | .minI _ f => some (f, ⟨.val, .val, .none, .v, [2, 3, 6, 7], false, false, cMain, false⟩)
  | .maxI _ f => some (f, ⟨.val, .val, .none, .v, [2, 3, 6, 7], false, false, cMain, false⟩)
  | .and _ f => some (f, ⟨.val, .val, .none, .v, [2, 3, 6, 7], false, false, cMain, false⟩)
  | .or _ f => some (f, ⟨.val, .val, .none, .v, [2, 3, 6, 7], false, false, cMain, false⟩)
  | .xor _ f => some (f, ⟨.val, .val, .none, .v, [2, 3, 6, 7], false, false, cMain, false⟩)
  | .andn _ f => some (f, ⟨.val, .val, .none, .v, [2, 3, 6, 7], false, false, cMain, false⟩)
  | .shl _ f => some (f, ⟨.val, .val, .none, .v, [2, 3, 6, 7], false, false, cMain, false⟩)
  | .shr _ f => some (f, ⟨.val, .val, .none, .v, [2, 3, 6, 7], false, false, cMain, false⟩)
  | .sar _ f => some (f, ⟨.val, .val, .none, .v, [2, 3, 6, 7], false, false, cMain, false⟩)
  | .ones _ f => some (f, ⟨.val, .none, .none, .v, [2, 3], false, false, cMain, false⟩)
  | .bitrev _ f => some (f, ⟨.val, .none, .none, .v, [2, 3], false, false, cMain, false⟩)
  | .lzc _ f => some (f, ⟨.val, .none, .none, .v, [2, 3], false, false, cMain, false⟩)
  | .addF _ f => some (f, ⟨.val, .val, .none, .v, [0, 1], true, true, cMain, true⟩)
  | .subF _ f => some (f, ⟨.val, .val, .none, .v, [0, 1], true, true, cMain, true⟩)
  | .mulF _ f => some (f, ⟨.val, .val, .none, .v, [0, 1], true, true, cMain, true⟩)
  | .madF _ f => some (f, ⟨.val, .val, .val, .v, [0, 1], true, true, cMain, true⟩)
  | .minF _ f => some (f, ⟨.val, .val, .none, .v, [0], false, false, cMain, true⟩)
  | .maxF _ f => some (f, ⟨.val, .val, .none, .v, [0], false, false, cMain, true⟩)
  | .minnumF _ f => some (f, ⟨.val, .val, .none, .v, [0], false, false, cMain, true⟩)
  | .maxnumF _ f => some (f, ⟨.val, .val, .none, .v, [0], false, false, cMain, true⟩)
  | .recip _ f => some (f, ⟨.val, .none, .none, .v, [0], false, true, cSpecial, true⟩)
  | .rsqrt _ f => some (f, ⟨.val, .none, .none, .v, [0], false, true, cSpecial, true⟩)
  | .exp2 _ f => some (f, ⟨.val, .none, .none, .v, [0], false, true, cSpecial, true⟩)
  | .log2 _ f => some (f, ⟨.val, .none, .none, .v, [0], false, true, cSpecial, true⟩)
  | .sin _ f => some (f, ⟨.val, .none, .none, .v, [0], false, true, cSpecial, true⟩)
  | .cos _ f => some (f, ⟨.val, .none, .none, .v, [0], false, true, cSpecial, true⟩)
  | .cmpEq _ f => some (f, ⟨.val, .val, .none, .p, [0, 1, 2, 3, 6, 7], false, false, cMain, false⟩)
  | .cmpNe _ f => some (f, ⟨.val, .val, .none, .p, [0, 1, 2, 3, 6, 7], false, false, cMain, false⟩)
  | .cmpLt _ f => some (f, ⟨.val, .val, .none, .p, [0, 1, 2, 3, 6, 7], false, false, cMain, false⟩)
  | .cmpLe _ f => some (f, ⟨.val, .val, .none, .p, [0, 1, 2, 3, 6, 7], false, false, cMain, false⟩)
  | .cmpGt _ f => some (f, ⟨.val, .val, .none, .p, [0, 1, 2, 3, 6, 7], false, false, cMain, false⟩)
  | .cmpGe _ f => some (f, ⟨.val, .val, .none, .p, [0, 1, 2, 3, 6, 7], false, false, cMain, false⟩)
  | .pick _ f => some (f, ⟨.val, .val, .pred, .v, [0, 1, 2, 3, 6, 7], false, false, cMain, false⟩)
  | .pcombAnd _ f => some (f, ⟨.pred, .pred, .none, .p, [3], false, false, cMain, false⟩)
  | .pcombOr _ f => some (f, ⟨.pred, .pred, .none, .p, [3], false, false, cMain, false⟩)
  | .pcombXor _ f => some (f, ⟨.pred, .pred, .none, .p, [3], false, false, cMain, false⟩)
  | .pcombAndn _ f => some (f, ⟨.pred, .pred, .none, .p, [3], false, false, cMain, false⟩)
  | .pcombNot _ f => some (f, ⟨.pred, .none, .none, .p, [3], false, false, cMain, false⟩)
  | .xlaneAt _ f => some (f, ⟨.val, .val, .none, .v, [0, 2, 3], false, false, cCross, false⟩)
  | .xlaneUp _ f => some (f, ⟨.val, .val, .none, .v, [0, 2, 3], false, false, cCross, false⟩)
  | .xlaneDn _ f => some (f, ⟨.val, .val, .none, .v, [0, 2, 3], false, false, cCross, false⟩)
  | .xlaneFlip _ f => some (f, ⟨.val, .val, .none, .v, [0, 2, 3], false, false, cCross, false⟩)
  | .pmask _ f => some (f, ⟨.pred, .none, .none, .s, [3], false, false, cCross, false⟩)
  | .gredAdd _ f => some (f, ⟨.vec, .none, .none, .s, [0, 2, 3], false, false, cGred, true⟩)
  | .gredMin _ f => some (f, ⟨.vec, .none, .none, .s, [0, 2, 3], false, false, cGred, true⟩)
  | .gredMax _ f => some (f, ⟨.vec, .none, .none, .s, [0, 2, 3], false, false, cGred, true⟩)
  | .addS _ f => some (f, ⟨.scl, .scl, .none, .s, [4, 5], false, true, cScalar, false⟩)
  | .subS _ f => some (f, ⟨.scl, .scl, .none, .s, [4, 5], false, true, cScalar, false⟩)
  | .mulS _ f => some (f, ⟨.scl, .scl, .none, .s, [4, 5], false, true, cScalar, false⟩)
  | .shlS _ f => some (f, ⟨.scl, .scl, .none, .s, [4, 5], false, false, cScalar, false⟩)
  | .shrS _ f => some (f, ⟨.scl, .scl, .none, .s, [4, 5], false, false, cScalar, false⟩)
  | .sarS _ f => some (f, ⟨.scl, .scl, .none, .s, [4, 5], false, false, cScalar, false⟩)
  | .andS _ f => some (f, ⟨.scl, .scl, .none, .s, [4, 5], false, false, cScalar, false⟩)
  | .orS _ f => some (f, ⟨.scl, .scl, .none, .s, [4, 5], false, false, cScalar, false⟩)
  | .xorS _ f => some (f, ⟨.scl, .scl, .none, .s, [4, 5], false, false, cScalar, false⟩)
  | .movVs _ f => some (f, ⟨.scl, .none, .none, .v, [0, 2, 3], false, false, cCross, false⟩)
  | .movSv _ f => some (f, ⟨.vec, .scl, .none, .s, [0, 2, 3], false, false, cCross, false⟩)
  | .cvtBlkEnc _ f => some (f, ⟨.vec, .sname, .none, .v, [2, 3, 4, 5, 6, 7], false, false, cBlk, false⟩)
  | .cvtBlkDec _ f => some (f, ⟨.vec, .scl, .none, .v, [2, 3, 4, 5, 6, 7], false, false, cBlk, false⟩)
  | .setmode _ f => some (f, ⟨.scl, .none, .none, .unused, [3], false, false, cScalar, false⟩)
  | .getmode _ f => some (f, ⟨.none, .none, .none, .s, [3], false, false, cScalar, true⟩)
  | .cvt _ src f => some (f, cvtUse src.toNat f.typ.toNat)
  | _ => none

/-- A vector register run of `n` registers lies within the declared count and is aligned (R66, R71); 0xFF names none. -/
def runOk (nreg : Nat) (r : BitVec 8) (n : Nat) : Bool := r == 0xFF#8 || decide (r.toNat % n = 0 ∧ r.toNat + n ≤ nreg)

/-- A source field and its kind obey its use. -/
def srcOk (nreg : Nat) (u : SrcUse) (fld : BitVec 8) (kind : BitVec 2) : Bool :=
  match u with
  | .none => fld == 0xFF#8 && kind == 0#2
  | .pred => kind == 0#2 && decide (fld.toNat < 8)
  | .sname => kind == 1#2 && decide (fld.toNat < 64)
  | .vec => kind == 0#2 && runOk nreg fld 1
  | .scl => (kind == 1#2 && decide (fld.toNat < 64)) || kind == 2#2 || kind == 3#2
  | .val => (kind == 0#2 && runOk nreg fld 1) || (kind == 1#2 && decide (fld.toNat < 64)) || kind == 2#2 || kind == 3#2

/-- DST obeys its use (R68, R666). -/
def dstOk (nreg : Nat) (u : DstUse) (fld : BitVec 8) : Bool :=
  match u with
  | .v => runOk nreg fld 1
  | .p => decide (fld.toNat < 8)
  | .s => decide (fld.toNat < 64)
  | .unused => fld == 0xFF#8

/-- Sources that select the wide immediate (R70). -/
def wideKinds (f : FmtR) (u : RUse) : Nat :=
  let k (s : SrcUse) (kind : BitVec 2) : Nat := if s ≠ .none ∧ s ≠ .pred ∧ kind = 3#2 then 1 else 0
  k u.a f.ka + k u.b f.kb + k u.c f.kc

/-- A format-R instruction is well formed. -/
def legalR (nreg : Nat) (f : FmtR) (u : RUse) : Bool :=
  f.rsv == 0#2 && decide (f.rnd.toNat ≤ 5) && (u.rnd || f.rnd == 0#3) && (u.sat || !f.sat)
    && u.types.contains f.typ.toNat && srcOk nreg u.a f.a f.ka && srcOk nreg u.b f.b f.kb && srcOk nreg u.c f.c f.kc
    && dstOk nreg u.dst f.dst && decide (wideKinds f u = if f.wide.isSome then 1 else 0)

/-! ### Formats M and A -/

/-- The address fields (R66, R83, R84). -/
def addrOk (nreg : Nat) (voff : BitVec 8) (sbase : BitVec 6) (nobase wideoff : Bool) : Bool :=
  (!nobase || sbase == 0x3F#6) && runOk nreg voff (if wideoff then 2 else 1)

/-- Registers of an access of a SIZE (R71). -/
def runFor (size : BitVec 3) : Nat := if size = 3#3 then 2 else if size = 4#3 then 4 else 1

/-- What DATA is in each memory instruction. -/
inductive MemUse where
  | ld | st | prefetch | ldsc
  deriving DecidableEq, Repr

def mUse : Instr → Option (FmtM × MemUse)
  | .ld _ f => some (f, .ld)
  | .st _ f => some (f, .st)
  | .prefetch _ f => some (f, .prefetch)
  | .ldsc _ f => some (f, .ldsc)
  | _ => none

/-- A format-M instruction is well formed (R83, R84, R88, R89). -/
def legalM (nreg : Nat) (f : FmtM) (u : MemUse) : Bool :=
  decide (f.size.toNat ≤ 4) && f.space != 3#2 && (f.hint == 0#2 || f.space != 1#2)
    && (!f.sign || (u == .ld && decide (f.size.toNat ≤ 1))) && (f.wide.isNone || f.imm == 0#21)
    && addrOk nreg f.voff f.sbase f.nobase f.wideoff
    && match u with
       | .ld | .st => runOk nreg f.data (runFor f.size)
       | .prefetch => f.data == 0xFF#8
       | .ldsc => f.voff == 0xFF#8 && decide (f.size.toNat ≤ 3 ∧ f.data.toNat < 64)

/-- The format-A instructions: access size and whether the operation compares (R94). -/
def aUse : Instr → Option (FmtA × Nat × Bool)
  | .atomAddI32 _ f => some (f, 4, false)
  | .atomAddI64 _ f => some (f, 8, false)
  | .atomAddF32 _ f => some (f, 4, false)
  | .atomAddF16x2 _ f => some (f, 4, false)
  | .atomMinI32 _ f => some (f, 4, false)
  | .atomMaxI32 _ f => some (f, 4, false)
  | .atomMinF32 _ f => some (f, 4, false)
  | .atomMaxF32 _ f => some (f, 4, false)
  | .atomSwap32 _ f => some (f, 4, false)
  | .atomSwap64 _ f => some (f, 8, false)
  | .atomCas64 _ f => some (f, 8, true)
  | _ => none

/-- A format-A instruction is well formed (R66, R93). -/
def legalA (nreg : Nat) (f : FmtA) (size : Nat) (cas : Bool) : Bool :=
  !f.w && decide (f.space.toNat ≤ 1) && addrOk nreg f.voff f.sbase f.nobase f.wideoff
    && (f.srck || runOk nreg f.src (size / 4)) && runOk nreg f.dst (size / 4)
    && (if cas then f.cmpk || runOk nreg f.cmp (size / 4) else f.cmp == 0xFF#8 && !f.cmpk)

/-! ### Formats F, B and X -/

def legalF (f : FmtF) : Bool := !f.w && f.scope != 3#2 && f.rsv == 0#51

/-- The format-B instructions: whether PRED is used, how many low bits of TARGET are, whether K is (R101, R102). -/
def bUse : Instr → Option (FmtB × Bool × Nat × Bool)
  | .bra _ f => some (f, false, 32, false)
  | .braAny _ f => some (f, true, 32, false)
  | .braAll _ f => some (f, true, 32, false)
  | .pushm _ f => some (f, true, 32, false)
  | .elsem _ f => some (f, false, 32, false)
  | .popm _ f => some (f, false, 0, false)
  | .andm _ f => some (f, true, 0, true)
  | .exit _ f => some (f, true, 0, false)
  | .serBegin _ f => some (f, false, 0, false)
  | .serEnd _ f => some (f, false, 0, false)
  | .call _ f => some (f, false, 32, false)
  | .ret _ f => some (f, false, 0, false)
  | .barArrive _ f => some (f, false, 4, false)
  | .barWait _ f => some (f, false, 4, false)
  | .barSync _ f => some (f, false, 4, false)
  | .savept _ f => some (f, false, 16, false)
  | _ => none

def legalB (f : FmtB) (pred : Bool) (tbits : Nat) (k : Bool) : Bool :=
  !f.w && f.rsv == 0#11 && (pred || f.pred == 0#3) && (k || f.k == 0#5) && decide (f.target.toNat < 2 ^ tbits)

/-- The MX instructions. -/
inductive MxUse where
  | ldw | reorient | swap | stream | drain | waitq | waitg
  deriving DecidableEq, Repr

def xUse : Instr → Option (FmtX × MxUse)
  | .mxLdw _ f => some (f, .ldw)
  | .mxLdwReorient _ f => some (f, .reorient)
  | .mxSwap _ f => some (f, .swap)
  | .mxStream _ f => some (f, .stream)
  | .mxDrain _ f => some (f, .drain)
  | .mxWaitQ _ f => some (f, .waitq)
  | .mxWaitG _ f => some (f, .waitg)
  | _ => none

/-- A field of a second word (R117). -/
def fieldOf (f : FmtX) (lo n : Nat) : Nat :=
  match f.wide with
  | some w => (w.extractLsb' lo n).toNat
  | none => 0

/-- The second word's fields (R117). -/
def ldwOrient (f : FmtX) : Nat := fieldOf f 62 2
def ldwFmt (f : FmtX) : Nat := fieldOf f 58 4
def ldwKdim (f : FmtX) : Nat := fieldOf f 51 7
def ldwNdim (f : FmtX) : Nat := fieldOf f 44 7
def ldwStride (f : FmtX) : Nat := fieldOf f 24 20
def mxAccRow (f : FmtX) : Nat := fieldOf f 52 12
def mxNrows (f : FmtX) : Nat := fieldOf f 41 11
def mxFmt (f : FmtX) : Nat := fieldOf f 37 4
def streamAccum (f : FmtX) : Bool := fieldOf f 36 1 == 1
def streamAccid (f : FmtX) : Nat := fieldOf f 31 5
def streamStride (f : FmtX) : Nat := fieldOf f 11 20
def drainAccid (f : FmtX) : Nat := fieldOf f 32 5
def drainStride (f : FmtX) : Nat := fieldOf f 12 20

/-- The registers a gathering STREAM takes its row offsets from (R118). -/
def gatherRegs (f : FmtX) : Nat := (mxNrows f + 1 + 31) / 32

/-- The instruction uses SBASE: a gathered STREAM does not (R66, R118). -/
def usesBase (f : FmtX) (u : MxUse) : Bool := u == .ldw || (u == .stream && !f.gather) || u == .drain

/-- The instruction uses SSCALE (R66, R116). -/
def usesScale (f : FmtX) (u : MxUse) : Bool := u == .drain || ((u == .ldw || u == .stream) && !f.noscale)

/-- An MX instruction is well formed (R66, R116, R117, R118, R134, R154). -/
def legalX (nreg : Nat) (f : FmtX) (u : MxUse) : Bool :=
  let two : Bool := u == .ldw || u == .reorient || u == .stream || u == .drain
  f.rsv == 0#21 && (f.wide.isSome == two)
    && (!f.noscale || u == .ldw || u == .stream) && (!f.sig || (u != .waitq && u != .waitg))
    && (!f.gather || u == .stream) && (usesBase f u || f.sbase == 0x3F#6)
    && (usesScale f u || f.sscale == 0x3F#6)
    && (if f.gather then decide (f.vdesc.toNat + gatherRegs f ≤ nreg) && streamStride f == 0 else f.vdesc == 0xFF#8)
    && match u with
       | .ldw | .reorient =>
         decide (ldwOrient f ≤ 1 ∧ ldwFmt f ≤ 7 ∧ ldwKdim f ≤ 95 ∧ ldwNdim f ≤ 95) && fieldOf f 0 24 == 0
       | .stream => decide (mxFmt f ≤ 7 ∧ mxAccRow f + mxNrows f ≤ 2729) && fieldOf f 0 11 == 0
       | .drain => decide (mxFmt f ≤ 7 ∧ mxAccRow f + mxNrows f ≤ 2729) && fieldOf f 0 12 == 0
       | _ => true

/-! ### Any lane instruction -/

/-- A lane instruction is well formed for a kernel that declares `nreg` registers. An undefined word never is; the events
of the table are no words. -/
def legalInstr (nreg : Nat) (i : Instr) : Bool :=
  match rUse i with
  | some (f, u) => legalR nreg f u
  | none =>
  match mUse i with
  | some (f, u) => legalM nreg f u
  | none =>
  match aUse i with
  | some (f, size, cas) => legalA nreg f size cas
  | none =>
  match bUse i with
  | some (f, p, t, k) => legalB f p t k
  | none =>
  match xUse i with
  | some (f, u) => legalX nreg f u
  | none =>
  match i with
  | .fence _ f => legalF f
  | .illegalInstruction _ _ => false
  | _ => true

/-- The words of an instruction (R64). -/
def wordsOf (i : Instr) : Nat :=
  let two (o : Option DWord) : Nat := if o.isSome then 2 else 1
  match rUse i with
  | some (f, _) => two f.wide
  | none =>
  match mUse i with
  | some (f, _) => two f.wide
  | none =>
  match xUse i with
  | some (f, _) => two f.wide
  | none => 1

/-! ### The registers an instruction reads and writes (R17, R72, R79) -/

/-- A run of vector registers. -/
def vRes (r : BitVec 8) (n : Nat) : List Res := if r = 0xFF#8 then [] else (List.range n).map fun k => Res.v (r.toNat + k)

def srcRes (u : SrcUse) (fld : BitVec 8) (kind : BitVec 2) : List Res :=
  match u with
  | .none => []
  | .pred => [.p fld.toNat]
  | .sname => [.s fld.toNat]
  | _ => if kind = 0#2 then vRes fld 1 else if kind = 1#2 then [.s (fld.toNat % 64)] else []

def dstRes (u : DstUse) (fld : BitVec 8) : List Res :=
  match u with
  | .v => vRes fld 1
  | .p => if fld = 0#8 then [] else [.p fld.toNat]
  | .s => [.s (fld.toNat % 64)]
  | .unused => []

def addrRes (voff : BitVec 8) (sbase : BitVec 6) (nobase wideoff : Bool) : List Res :=
  vRes voff (if wideoff then 2 else 1) ++ (if nobase then [] else [.s sbase.toNat])

/-- What a format-R instruction writes, SETMODE's LMODE and CVT.BLK.ENC's Sd included. -/
def writesR (i : Instr) (f : FmtR) (u : RUse) : List Res :=
  dstRes u.dst f.dst ++ (match i with
    | .setmode _ _ => [.mode]
    | .cvtBlkEnc _ f => [.s (f.b.toNat % 64)]
    | _ => [])

/-- It may set sticky flags (R74, R80). -/
def setsFlags (f : FmtR) (u : RUse) : Bool := (u.mode && u.a != .none) || (u.dst == .p && decide (f.typ.toNat ≤ 1))

/-- What it reads; SETMODE and GETMODE also wait for the flags of every earlier instruction (R79). -/
def readsR (f : FmtR) (u : RUse) : List Res :=
  srcRes u.a f.a f.ka ++ srcRes u.b f.b f.kb ++ srcRes u.c f.c f.kc ++ (if u.mode then [.mode] else [])
    ++ (if u.dst = .unused ∨ u.a = .none then [.flags] else [])

/-- Every register an instruction reads or writes, its predicate among them. -/
def depsOf (i : Instr) : List Res :=
  match rUse i with
  | some (f, u) => .p f.pred.toNat :: (readsR f u ++ writesR i f u)
  | none =>
  match mUse i with
  | some (f, u) =>
    let d : List Res := match u with
      | .ldsc => [.s (f.data.toNat % 64)]
      | .prefetch => []
      | _ => vRes f.data (runFor f.size)
    .p f.pred.toNat :: (addrRes f.voff f.sbase f.nobase f.wideoff ++ d)
  | none =>
  match aUse i with
  | some (f, size, _) =>
    .p f.pred.toNat :: (addrRes f.voff f.sbase f.nobase f.wideoff ++ vRes f.dst (size / 4)
      ++ (if f.srck then [] else vRes f.src (size / 4)) ++ (if f.cmpk then [] else vRes f.cmp (size / 4)))
  | none =>
  match bUse i with
  | some (f, _, _, _) =>
    .p f.pred.toNat :: (match i with
      | .call _ _ => [.s 63]
      | .ret _ _ => [.s 63]
      | _ => [])
  | none =>
  match xUse i with
  | some (f, u) =>
    .p f.pred.toNat :: (vRes f.vdesc (gatherRegs f) ++ (if usesBase f u then [.s f.sbase.toNat] else [])
      ++ (if usesScale f u then [.s f.sscale.toNat] else []))
  | none =>
  match i with
  | .fence _ f => [.p f.pred.toNat]
  | _ => []

/-- What is owed for the latency of an arithmetic instruction (R72, R79). -/
def owedBy (i : Instr) : List Res :=
  match rUse i with
  | some (f, u) => writesR i f u ++ (if setsFlags f u then [.flags] else [])
  | none => []

/-- The arithmetic unit of an instruction, if it takes one (R72). -/
def costOf (i : Instr) : Option Cost := (rUse i).map fun e => e.2.cost

end Sys2Proof.Machine
end

