-- ==== Sys2Proof/Machine/Operands.lean ====
section
/-! DEFINITION. The operands of lane instructions: a group's registers and masks (R24, R27), the sources and destinations
of format R (R68–R71), the elements of packed types (R666), the address of a lane's access (R84). -/

namespace Sys2Proof.Machine

/-! ### Registers of a group -/

/-- A vector register of a lane; field value 0xFF reads as zero (R69). -/
def Group.vreg (g : Group) (r : BitVec 8) (l : Nat) : Word :=
  if r = 0xFF#8 then 0 else (mgetD g.v r.toNat []).getD l 0

def Group.sreg (g : Group) (n : Nat) : DWord := mgetD g.s n 0

/-- A predicate; P0 is all ones (R24). -/
def Group.preg (g : Group) (n : Nat) : Word := if n = 0 then 0xFFFFFFFF#32 else mgetD g.p n 0

/-- The effective mask (R27). -/
def Group.eff (g : Group) (pred : BitVec 3) : Word := g.am &&& g.preg pred.toNat

/-- The lanes of a mask, ascending. -/
def lanesIn (m : Word) : List Nat := (List.range 32).filter fun l => m.getLsbD l

/-- A mask of the lanes for which something holds. -/
def maskOf (p : Nat → Bool) : Word :=
  (List.range 32).foldl (fun m l => if p l then m ||| (1#32 <<< l) else m) 0#32

/-- A vector register written in the lanes of a mask; 0xFF discards (R27, R68). -/
def Group.putV (g : Group) (r : BitVec 8) (m : Word) (vals : List Word) : Group :=
  if r = 0xFF#8 then g
  else
    let old := mgetD g.v r.toNat []
    let new := (List.range 32).map fun l => if m.getLsbD l then vals.getD l 0 else old.getD l 0
    { g with v := mset g.v r.toNat new }

def Group.putS (g : Group) (n : Nat) (v : DWord) : Group := { g with s := mset g.s n v }

/-- A predicate written in the lanes of a mask; writes to P0 are ignored (R24, R74). -/
def Group.putP (g : Group) (n : Nat) (m v : Word) : Group :=
  if n = 0 then g else { g with p := mset g.p n ((g.preg n &&& ~~~m) ||| (v &&& m)) }

def Group.raise (g : Group) (fl : Nat) : Group := { g with lmode := raiseFlags g.lmode fl }

/-! ### Sources of format R -/

/-- The 64-bit TYPE codes (R68). -/
def is64 (typ : Nat) : Bool := typ == 4 || typ == 5

/-- An 8-bit signed immediate as a value of a TYPE (R69). -/
def immOf (typ : Nat) (x : BitVec 8) : Nat :=
  match typ with
  | 0 => (fmtF32.roundL 1 false (numOfInt x.toInt)).1
  | 1 => (fmtF16.roundL 1 false (numOfInt x.toInt)).1 * 65537
  | 4 | 5 => (x.signExtend 64).toNat
  | 6 | 7 => (x.signExtend 16).toNat * 65537
  | _ => (x.signExtend 32).toNat

/-- The value of a source for a lane (R69, R70). -/
def Group.src (g : Group) (typ : Nat) (fld : BitVec 8) (kind : BitVec 2) (wide : Option DWord) (l : Nat) : Nat :=
  let cut (w : DWord) : Nat := if is64 typ then w.toNat else w.toNat % 2 ^ 32
  if kind = 0#2 then (g.vreg fld l).toNat
  else if kind = 1#2 then cut (g.sreg (fld.toNat % 64))
  else if kind = 2#2 then immOf typ fld
  else match wide with
    | some w => cut w
    | none => 0

def Group.srcA (g : Group) (f : FmtR) (typ l : Nat) : Nat := g.src typ f.a f.ka f.wide l
def Group.srcB (g : Group) (f : FmtR) (typ l : Nat) : Nat := g.src typ f.b f.kb f.wide l
def Group.srcC (g : Group) (f : FmtR) (typ l : Nat) : Nat := g.src typ f.c f.kc f.wide l

/-- A scalar result: a 32-bit one is sign-extended for TYPE I32 and zero-extended for every other (R68). -/
def scalarOf (typ v : Nat) : DWord :=
  if is64 typ then BitVec.ofNat 64 v
  else if typ = 2 then (BitVec.ofNat 32 v).signExtend 64
  else BitVec.ofNat 64 (v % 2 ^ 32)

/-! ### Elements (R68, R666) -/

/-- The width of an element of a TYPE. -/
def elemBits (typ : Nat) : Nat :=
  match typ with
  | 1 | 6 | 7 => 16
  | 4 | 5 => 64
  | _ => 32

def isPacked (typ : Nat) : Bool := typ == 1 || typ == 6 || typ == 7
def isSigned (typ : Nat) : Bool := typ == 2 || typ == 4 || typ == 6

/-- The value of an element of an integer TYPE. -/
def elemInt (typ c : Nat) : Int := if isSigned typ then intOf (elemBits typ) c else ((c % 2 ^ elemBits typ : Nat) : Int)

/-- An operation on each element. -/
def onElems (typ : Nat) (op : Nat → Nat → Nat → Nat) (a b c : Nat) : Nat :=
  let w := 2 ^ elemBits typ
  if isPacked typ then
    op (a % w) (b % w) (c % w) % w + w * (op (a / w % w) (b / w % w) (c / w % w) % w)
  else op (a % w) (b % w) (c % w) % w

/-- The same for a float operation with flags: `op` answers the code and the flags of one element. -/
def onFloats (typ : Nat) (op : NumFmt → List Nat → Nat × Nat) (cs : List Nat) : Nat × Nat :=
  if typ = 1 then
    let lo := op fmtF16 (cs.map fun c => c % 65536)
    let hi := op fmtF16 (cs.map fun c => c / 65536 % 65536)
    (lo.1 + 65536 * hi.1, lo.2 ||| hi.2)
  else op fmtF32 cs

/-- Integer arithmetic on an element: wrapped, or saturated under SAT (R68). -/
def intArith (typ : Nat) (sat : Bool) (op : Int → Int → Int → Int) (a b c : Nat) : Nat :=
  let w := elemBits typ
  let v := op (elemInt typ a) (elemInt typ b) (elemInt typ c)
  wrapInt w (if sat then clampInt (intLo w (isSigned typ)) (intHi w (isSigned typ)) v else v)

/-- Shifts; a count at or above the element width gives 0, or the sign (R665, R666). -/
def shlOf (w a n : Nat) : Nat := if n ≥ w then 0 else a * 2 ^ n % 2 ^ w
def shrOf (w a n : Nat) : Nat := if n ≥ w then 0 else a / 2 ^ n
def sarOf (w a n : Nat) : Nat := wrapInt w (intOf w a / (2 ^ (min n w) : Int))

/-- Leading zeros of `w` bits. -/
def lzcOf (w a : Nat) : Nat := if a = 0 then w else w - 1 - Nat.log2 a

/-- Bit i of the result is bit w − 1 − i. -/
def bitrevOf : Nat → Nat → Nat
  | 0, _ => 0
  | n + 1, a => (a % 2) * 2 ^ n + bitrevOf n (a / 2)

/-! ### Addresses (R84, R93) -/

/-- S[SBASE], or 0. -/
def Group.base (g : Group) (sbase : BitVec 6) (nobase : Bool) : Nat := if nobase then 0 else (g.sreg sbase.toNat).toNat

/-- The lane's offset: a zero-extended register, a pair, or 0. -/
def Group.voff (g : Group) (voff : BitVec 8) (wideoff : Bool) (l : Nat) : Nat :=
  if voff = 0xFF#8 then 0
  else (g.vreg voff l).toNat + (if wideoff then 2 ^ 32 * (g.vreg (voff + 1#8) l).toNat else 0)

/-- The constant part of a format-M address: IMM, or the second word (R84). -/
def offsetM (f : FmtM) : Nat :=
  match f.wide with
  | some w => w.toNat
  | none => (f.imm.signExtend 64).toNat

/-- A lane's address, modulo 2⁶⁴ (R84). -/
def addrM (g : Group) (f : FmtM) (l : Nat) : Nat :=
  (g.base f.sbase f.nobase + g.voff f.voff f.wideoff l + offsetM f) % 2 ^ 64

/-- A lane's address in format A: IMM counts in units of the access size (R93). -/
def addrA (g : Group) (f : FmtA) (size l : Nat) : Nat :=
  (g.base f.sbase f.nobase + g.voff f.voff f.wideoff l + (f.imm.signExtend 64).toNat * size) % 2 ^ 64

/-- The bytes of an access of a SIZE (R83). -/
def accBytes (size : BitVec 3) : Nat := 2 ^ size.toNat

/-- A run of `n` registers of a lane as one value, the low-order word in the lowest register (R71); 0xFF reads zero (R83). -/
def Group.vrun (g : Group) (r : BitVec 8) (l : Nat) : Nat → Nat
  | 0 => 0
  | n + 1 => g.vrun r l n + if r = 0xFF#8 then 0 else 2 ^ (32 * n) * (g.vreg (r + BitVec.ofNat 8 n) l).toNat

/-- A run of `n` registers written in the lanes of a mask. -/
def Group.putRun (g : Group) (r : BitVec 8) (m : Word) (vals : List Nat) : Nat → Group
  | 0 => g
  | n + 1 =>
    let g := g.putRun r m vals n
    if r = 0xFF#8 then g
    else g.putV (r + BitVec.ofNat 8 n) m (vals.map fun v => BitVec.ofNat 32 (v / 2 ^ (32 * n) % 2 ^ 32))

/-- An atomic's operand: a register run or an immediate, converted exactly for the F32 operations (R93). -/
def atomSrc (g : Group) (aop size : Nat) (r : BitVec 8) (isImm : Bool) (l : Nat) : Nat :=
  if isImm then
    (if aop = 2 ∨ aop = 6 ∨ aop = 7 then immOf 0 r
     else if size = 8 then immOf 4 r
     else immOf 2 r)
  else g.vrun r l (size / 4)

end Sys2Proof.Machine
end

