-- ==== Sys2Proof/Machine/Quant.lean ====
section
/-! DEFINITION. Block scales and packing, shared by the quantizer and CVT.BLK (R113, R114, R132, R177, R214–R216), and the
quantizer's stages on one element (R206–R213, R220). -/

namespace Sys2Proof.Machine

/-! ### Packed rows and blocks (R113, R132) -/

/-- Elements of width `w` packed from bit 0 upward. -/
def packElems (w : Nat) : List Nat → Nat
  | [] => 0
  | c :: t => c % 2 ^ w + 2 ^ w * packElems w t

/-- Element `i` of width `w`. -/
def elemAt (w v i : Nat) : Nat := v / 2 ^ (w * i) % 2 ^ w

/-! ### Scales (R173, R177, R214, R215) -/

/-- A value times 2^k. -/
def scaleNum (v : Num) (k : Int) : Num :=
  match v with
  | .fin s m e => if m = 0 then .zero s else .fin s m (e + k)
  | v => v

/-- An element under its fine scale (R177). -/
def decodeScaled (code c s : Nat) : Num := if s = 255 then .nan else scaleNum (decodeElem code c) ((s : Int) - 127)

/-- The largest finite value of a format (R172, R214). -/
def maxFinite (code : Nat) : Num :=
  match code with
  | 6 => .fin false 127 0
  | 7 => .fin false 7 0
  | _ => (fmtFor code).decode (fmtFor code).top

/-- The greatest finite magnitude of a list (R214). -/
def maxMag (vs : List Num) : Num :=
  vs.foldl (fun a v => match v with
    | .fin _ m e => maxT a (.fin false m e)
    | _ => a) (.zero false)

/-- A block's E8 (R214). -/
def blockE8 (code : Nat) (vs : List Num) : Nat :=
  if vs.any fun v => v == .nan then 255
  else
    match maxMag vs, maxFinite code with
    | .fin _ m e, .fin _ fm fe =>
      if m = 0 then 127
      else
        let e0 := leadExp m e - leadExp fm fe
        let e1 := if cmpNum (.fin false m e) (.fin false fm (fe + e0)) = some .gt then e0 + 1 else e0
        (clampInt' 0 254 (127 + e1)).toNat
    | _, _ => 127
where
  clampInt' (lo hi v : Int) : Int := if v < lo then lo else if hi < v then hi else v

/-- A block encoded under an E8 (R191, R215): codes of 0 for a NaN block. -/
def encodeBlock (code s : Nat) (vs : List Num) : List (Nat × Outcome) :=
  if s = 255 then vs.map fun _ => (0, .nan)
  else vs.map fun v => encodeElem code (scaleNum v (127 - (s : Int)))

/-- CVT.BLK.ENC of 32 values: the E8, the amax, the packed block (R111, R114). -/
def blkEnc (code : Nat) (vs : List Num) : Nat × Nat × Nat :=
  let s := blockE8 code vs
  (s, toF32T (amaxOf vs), packElems (elemWidth code) ((encodeBlock code s vs).map Prod.fst))

/-- CVT.BLK.DEC of element `i` of a packed block (R112). -/
def blkDec (code s packed i : Nat) : Nat := toF32T (decodeScaled code (elemAt (elemWidth code) packed i) s)

/-! ### The quantizer's stages on one element -/

/-- What an element has become, with what happened to it: an invalid operation, whether it became infinite or saturated
on the way, whether bits were lost (R206–R213, R220). -/
structure QElem where
  v   : Num
  inv : Nat
  sat : Bool
  rnd : Bool
  deriving DecidableEq, Repr

/-- FP32 arithmetic by R187 with +0 for a zero result (R185, R189). -/
def roundF32 (v : Num) : Num :=
  match v with
  | .fin s m e =>
    match fmtF32.decode (toF32T (.fin s m e)) with
    | .fin _ 0 _ => .zero false
    | w => w
  | v => v

/-- Stage 1 on the float path (R206). -/
def qBias (v b : Num) : Num × Nat :=
  match addNum false v b with
  | none => (.nan, 1)
  | some r => (roundF32 r, 0)

/-- Stage 2 on the float path (R207). A zero product keeps its sign. -/
def qCoarse (v c : Num) : Num × Nat :=
  match mulNum v c with
  | none => (.nan, 1)
  | some (.fin s m e) => if m = 0 then (.zero s, 0) else (roundF32 (.fin s m e), 0)
  | some r => (r, 0)

/-- The activation table (R212): entries of BREAK, SLOPE, ICPT codes. -/
def qTable (tb : List (List Nat)) (v : Num) : Num :=
  let num (i k : Nat) : Num := fmtF32.decode ((tb.getD i []).getD k 0)
  match v with
  | .nan => .nan
  | .inf s =>
    let i := if s then 0 else 15
    match num i 1 with
    | .fin t m _ => if m = 0 then num i 2 else .inf (s != t)
    | .inf t => .inf (s != t)
    | .nan => .nan
  | v =>
    let below (i : Nat) : Bool := match cmpNum (num i 0) v with
      | some .gt => false
      | some _ => true
      | none => false
    let i := (((List.range 16).filter fun i => i ≠ 0 ∧ below i).getLast?).getD 0
    match (mulNum (num i 1) v).bind fun p => addNum false p (num i 2) with
    | some r => roundF32 r
    | none => .nan

/-- Stage 3 on the float path (R211). -/
def qActF (act : Nat) (lo hi : Num) (tb : List (List Nat)) (v : Num) : Num :=
  match act with
  | 0 => v
  | 1 => maxT v (.zero false)
  | 2 => minT (maxT v lo) hi
  | _ => qTable tb v

/-- Stage 2 on the integer path before z (R209): the rounded quotient and whether bits were lost. -/
def qShift (p : Int) (sh : Nat) : Int × Bool :=
  if sh = 0 then (p, false)
  else
    let r := (p.natAbs + 2 ^ (sh - 1)) / 2 ^ sh
    (if p < 0 then -(r : Int) else r, p.natAbs % 2 ^ sh != 0)

end Sys2Proof.Machine
end

