-- ==== Sys2Proof/Machine/ArrOps.lean ====
section
/-! DEFINITION. What the end of a command needs of the array: scratchpad bytes (R231–R233), the times of rows and waves (R145,
R152, R155, R156), a DRAIN's rows and counts (R201–R224), and what remains in the array (R161).
Assumption log: DEDUCED 27, 29. -/

namespace Sys2Proof.Machine

/-! ### Clocks and commands -/

/-- The cycle of a core's domain clock, 12 cores to a domain (R549, R552). -/
def coreCyc (s : State) (c : Nat) : Nat :=
  match mget s.bdl.doms (c / 12) with
  | some d => d.cyc
  | none => 0

/-- A command of a group, and the context of a command. -/
def ctxOf (s : State) (cmd : Nat) : Nat := ((cmdOf s cmd).map Cmd.ctx).getD 0

/-! ### Allocations and bytes (R231–R233) -/

/-- The bytes of a command's allocation on a core (R232). -/
def allocBytes (k : CoreSt) (cmd : Nat) : Nat :=
  match mget k.allocs cmd with
  | some a => a.granules.length * 65536
  | none => 0

/-- The physical offset of an allocation offset (R232). -/
def scrPhys (k : CoreSt) (cmd off : Nat) : Option Nat :=
  match mget k.allocs cmd with
  | some a => (a.granules[off / 65536]?).map fun g => g * 65536 + off % 65536
  | none => none

/-- A byte of a map of physical scratchpad bytes; what nothing has written reads 0 (R233). -/
def scrByteIn (m : NMap Byte) (k : CoreSt) (cmd off : Nat) : Byte :=
  match scrPhys k cmd off with
  | some p => mgetD m p 0
  | none => 0

def scrByte (k : CoreSt) (cmd off : Nat) : Byte := scrByteIn k.scratch k cmd off

def scrBytes (k : CoreSt) (cmd off : Nat) : Nat → List Byte
  | 0 => []
  | n + 1 => scrByte k cmd off :: scrBytes k cmd (off + 1) n

def scrPut (k : CoreSt) (cmd off : Nat) (b : Byte) : CoreSt :=
  match scrPhys k cmd off with
  | some p => { k with scratch := if b = 0 then mdel k.scratch p else mset k.scratch p b }
  | none => k

def scrPutBytes (k : CoreSt) (cmd off : Nat) : List Byte → CoreSt
  | [] => k
  | b :: t => scrPutBytes (scrPut k cmd off b) cmd (off + 1) t

/-- A launched or running command of a slot. -/
def slotBusy (k : CoreSt) (cmd n : Nat) : Bool :=
  (k.launched.any fun m => m.cmd == cmd && m.slot == n) || (k.movers.any fun e => e.2.cmd == cmd && e.2.slot == n)

/-- Byte 0x7F of a slot as it reads: GO is 1 from launch to completion and else 0 (R256). -/
def fixGo (k : CoreSt) (cmd n : Nat) : CoreSt :=
  let off := n * 128 + 127
  let b := (scrByte k cmd off).toNat % 128
  scrPut k cmd off (BitVec.ofNat 8 (b + (if slotBusy k cmd n then 128 else 0)))

/-! ### Queue entries and the feed (R149, R152, R156) -/

/-- The queue entry of a number, be it one of an ended command whose rows run out (R161). -/
def queued (a : ArrayState) (id : Nat) : Option ArrCmd :=
  (a.queue.find? fun q => q.id == id).or ((a.ghosts.find? fun g => g.q.id == id).map ArrGhost.q)

/-- The commands that entered before one. -/
def before (a : ArrayState) (q : ArrCmd) : List ArrCmd := a.queue.takeWhile fun x => x.id != q.id

def streamPasses (act : WeightSet) (fmt : Nat) : Nat :=
  if act.state = .empty then 1
  else if act.fmt = 0 ∧ fmt = 0 then 3
  else if act.fmt = 0 ∨ fmt = 0 then 2
  else 1

/-- The rows that a STREAM admits over all its passes. -/
def streamRows (r : StreamRun) (f : FmtX) : Nat := streamPasses r.act (mxFmt f) * (mxNrows f + 1)

/-- The cycle in which admitted row `j` enters (R152, R156). -/
def entryCycle (r : StreamRun) (j : Nat) : Nat :=
  if r.ramp then (if j < 32 then r.start + 2 * j else r.start + 32 + j) else r.start + j

/-- The rows that a STREAM admits: all of them, or those it had admitted when its command ended (R161). -/
def streamLimit (r : StreamRun) (f : FmtX) : Nat := r.limit.getD (streamRows r f)

/-- The rows that have entered by a cycle, had the STREAM no end (R152). -/
def admittedBy (r : StreamRun) (cyc : Nat) : Nat :=
  if cyc < r.start then 0
  else
    let d := cyc - r.start
    if r.ramp then (if d < 64 then d / 2 + 1 else d - 31) else d + 1

/-- The STREAM meets an FP32 tile, whose low halves stand in the other set (R145). -/
def innerStream (r : StreamRun) : Bool := r.act.state != .empty && r.act.fmt == 0

/-- The first and the last cycle in which a row of the pass against W_lo enters (R144, R145). -/
def loPass (r : StreamRun) (f : FmtX) : Nat × Nat :=
  let n := streamRows r f
  (entryCycle r (n - (mxNrows f + 1)), entryCycle r (n - 1))

/-- The first cycle in which every SWAP wave and internal swap wave has passed every cell (R145, R150, R155). -/
def ArrayState.shFree (a : ArrayState) : Nat := (a.waves.map (· + 191)).foldl max 0

/-- A wave that enters in a cycle; waves that have long passed are forgotten. -/
def ArrayState.wave (a : ArrayState) (cyc t : Nat) : ArrayState :=
  { a with waves := (a.waves.filter fun w => decide (cyc < w + 191)) ++ [t] }

/-- A SWAP marker or an internal swap wave is in the array (R164). -/
def ArrayState.swapping (a : ArrayState) (cyc : Nat) : Bool :=
  !a.swaps.isEmpty || a.waves.any fun t => decide (t ≤ cyc ∧ cyc < t + 190)

/-- The active and the shadow set as the array holds them in a cycle: exchanged during a pass against W_lo (R145). -/
def setsAt (a : ArrayState) (cyc : Nat) : WeightSet × WeightSet :=
  let low : Bool := a.streams.any fun r =>
    match queued a r.id with
    | some q => innerStream r && r.limit.isNone && decide ((loPass r q.f).1 ≤ cyc ∧ cyc ≤ (loPass r q.f).2)
    | none => false
  if low then (a.shadow, a.active) else (a.active, a.shadow)

/-- An accumulator row that nothing has written (R141). -/
def AccRow.unwritten : AccRow :=
  { int := false, written := false, sat := List.replicate 96 false, elems := List.replicate 96 0 }

/-- The bytes of a row of `n` elements of a format (R132). -/
def rowBytes (code n : Nat) : Nat := ceilDiv (n * elemWidth code) 8

/-! ### The parameter block (R201, R202) -/

/-- Word `i` of the block, and bits of it. -/
def qpWord (par : List Nat) (i : Nat) : Nat := par.getD i 0

def qpCtrl (par : List Nat) (hi lo : Nat) : Nat := bitsOf (qpWord par 0) hi lo

def qpCols (par : List Nat) : Nat := qpCtrl par 15 9

def qpSummary (par : List Nat) : Bool := qpCtrl par 8 8 == 1

def qpFold (par : List Nat) : Bool := qpCtrl par 7 7 == 1

def qpBias (par : List Nat) : Bool := qpCtrl par 6 6 == 1

def qpBlk (par : List Nat) : Nat := qpCtrl par 5 4

def qpAct (par : List Nat) : Nat := qpCtrl par 1 0

def qpShift (par : List Nat) : Nat := bitsOf (qpWord par 3) 5 0

def qpZero (par : List Nat) : Int := intOf 16 (bitsOf (qpWord par 3) 31 16)

def qpStride (par : List Nat) : Nat := bitsOf (qpWord par 10) 15 0

/-! ### One row of a DRAIN (R203–R220) -/

/-- A written element: its code and outcome, its value after stage 3 for the amax, invalid operations of the quantizer. -/
structure QOut where
  code    : Nat
  outcome : Outcome
  amax    : Num
  inv     : Nat
  deriving DecidableEq, Repr

/-- Stages 1 to 3 on the float path: the value, its invalid operations, whether it became infinite on the way. -/
def floatStages (par : List Nat) (bias : List Nat) (table : List (List Nat)) (n : Nat) (v : Num) : Num × Nat × Bool :=
  let a := if qpBias par then qBias v (fmtF32.decode (bias.getD n 0)) else (v, 0)
  let b := qCoarse a.1 (fmtF32.decode (qpWord par 1))
  let c := qActF (qpAct par) (fmtF32.decode (qpWord par 4)) (fmtF32.decode (qpWord par 5)) table b.1
  let isInf (x : Num) : Bool := match x with
    | .inf _ => true
    | _ => false
  let fin : Bool := match v with
    | .fin _ _ _ => true
    | _ => false
  (c, a.2 + b.2, fin && isInf c)

/-- A block of float-path elements encoded (R214–R216): its E8 and its elements. -/
def floatBlock (fmt blk : Nat) (vs : List (Num × Nat × Bool)) : Nat × List QOut :=
  let vals := vs.map Prod.fst
  let nan := vals.any fun v => v == .nan
  let e8 := if blk = 2 then blockE8 fmt vals else if blk = 1 ∧ nan then 255 else 127
  let enc := encodeBlock fmt e8 vals
  (e8, (vs.zip enc).map fun p =>
    let o := if p.1.2.2 && p.2.2 == .exact then .overflowed else p.2.2
    ⟨p.2.1, o, p.1.1, p.1.2.1⟩)

/-- A row cut into blocks of 32. -/
def blocksOf {α : Type} : Nat → List α → List (List α)
  | 0, _ => []
  | n + 1, l => if l.isEmpty then [] else l.take 32 :: blocksOf n (l.drop 32)

/-- One element on the integer path (R208–R210, R213). -/
def intElem (fmt : Nat) (par : List Nat) (bias : List Nat) (n : Nat) (x : Nat) (accSat : Bool) : QOut :=
  let w := elemWidth fmt
  let lo := intLo w true
  let hi := intHi w true
  let x0 := intOf 32 x
  let x1 := if qpBias par then x0 + intOf 32 (bias.getD n 0) else x0
  let x2 := clampInt (intLo 32 true) (intHi 32 true) x1
  let r := qShift (x2 * (qpWord par 2 : Int)) (qpShift par)
  let z := qpZero par
  let q1 := clampInt lo hi (r.1 + z)
  let q2 := match qpAct par with
    | 1 => max q1 z
    | 2 => min (max q1 (intOf 32 (qpWord par 4))) (intOf 32 (qpWord par 5))
    | _ => q1
  let q3 := clampInt lo hi q2
  let sat := accSat || decide (x2 ≠ x1) || decide (q1 ≠ r.1 + z) || decide (q3 ≠ q2)
  let o : Outcome := if sat then .saturated else if r.2 then .rounded else .exact
  ⟨wrapInt w q3, o, fmtF32.decode (toF32T (numOfInt (q3 - z))), 0⟩

/-- A row's path (R203). -/
def intPath (row : AccRow) (fmt : Nat) : Bool := row.written && row.int && decide (fmt ≥ 6)

/-- The faults that a row brings out (R226, R227). -/
def rowFault (par : List Nat) (row : AccRow) (fmt : Nat) : Option Nat :=
  let lo := qpWord par 4
  let hi := qpWord par 5
  let int := intPath row fmt
  let crossed : Bool :=
    if int then decide (intOf 32 lo > intOf 32 hi)
    else match cmpNum (fmtF32.decode lo) (fmtF32.decode hi) with
      | none => true
      | some o => o == .gt
  if qpAct par = 2 ∧ crossed then some 5
  else if int ∧ (qpBlk par = 2 ∨ qpAct par = 3) then some 7
  else none

/-- The written elements of a row and the E8 of its blocks. -/
def quantRow (par bias : List Nat) (table : List (List Nat)) (fmt : Nat) (row : AccRow) : List QOut × List Nat :=
  let n := qpCols par + 1
  if intPath row fmt then
    let es := (List.range n).map fun i => intElem fmt par bias i (row.elems.getD i 0).toNat (row.sat.getD i false)
    (es, (List.range (ceilDiv n 32)).map fun _ => 127)
  else
    let value (i : Nat) : Num :=
      let c := (row.elems.getD i 0).toNat
      if row.written ∧ row.int then fmtF32.decode (toF32T (numOfInt (intOf 32 c)))
      else if row.written then fmtF32.decode c
      else .zero false
    let vs := (List.range n).map fun i => floatStages par bias table i (value i)
    let bs := (blocksOf 3 vs).map (floatBlock fmt (qpBlk par))
    (bs.flatMap Prod.snd, bs.map Prod.fst)

/-- Elements with an outcome. -/
def outcomes (l : List QOut) (o : Outcome) : Nat := (l.filter fun e => e.outcome == o).length

/-- Two amaxes combined (R192, R222). -/
def amaxMax (a b : Word) : Word := BitVec.ofNat 32 (toF32T (maxT (fmtF32.decode a.toNat) (fmtF32.decode b.toNat)))

/-! ### Bytes that a token orders (R120, R136, R151) -/

/-- Bytes into a map of physical scratchpad bytes. -/
def putCells (m : NMap Byte) : List (Nat × Byte) → NMap Byte
  | [] => m
  | (p, b) :: t => putCells (if b = 0 then mdel m p else mset m p b) t

/-- What a command of number `n` on token `t` of a slot writes is seen by every command that stands behind a WAIT.Q which
holds it until that command has completed. -/
def patchOld (slot t n : Nat) (cells : List (Nat × Byte)) : Bool → List ArrCmd → List ArrCmd
  | _, [] => []
  | behind, q :: rest =>
    let waits := q.kind == .waitq && q.slot == slot && q.f.tok.toNat == t && decide (n < q.need)
    (if behind then { q with old := putCells q.old cells } else q) :: patchOld slot t n cells (behind || waits) rest

/-- Bytes that a command writes into its allocation; `sig` is its slot, its token and its number there, where it signals. -/
def scrOut (k : CoreSt) (cmd off : Nat) (sig : Option (Nat × Nat × Nat)) (b : List Byte) : CoreSt :=
  let k := scrPutBytes k cmd off b
  match sig with
  | some (slot, t, n) =>
    let at_ := (List.range b.length).filterMap fun i => (scrPhys k cmd (off + i)).map fun p => (p, b.getD i 0)
    { k with arr := { k.arr with queue := patchOld slot t n at_ false k.arr.queue } }
  | none => k

/-! ### A DRAIN's writes and counts (R218–R224) -/

/-- What a DRAIN's completion counts on. -/
def drainSig (q : ArrCmd) : Option (Nat × Nat × Nat) := if q.f.sig then some (q.slot, q.f.tok.toNat, q.sig) else none

/-- Bytes of a DRAIN into scratchpad; GO of a slot stays what its commands make it (R256). -/
def putDrain (k : CoreSt) (q : ArrCmd) (off : Nat) (b : List Byte) : CoreSt :=
  ((List.range 32).filter fun n => decide (off ≤ n * 128 + 127 ∧ n * 128 + 127 < off + b.length)).foldl
    (fun k n => fixGo k q.cmd n) (scrOut k q.cmd off (drainSig q) b)

/-- A row's bytes into scratchpad: the elements, then the group of four scale bytes (R218, R219). -/
def putRow (k : CoreSt) (q : ArrCmd) (par : List Nat) (i : Nat) (es : List QOut) (e8 : List Nat) : CoreSt :=
  let w := elemWidth (mxFmt q.f)
  let bytes := leBytes (rowBytes (mxFmt q.f) es.length) (packElems w (es.map QOut.code))
  let k := putDrain k q (q.base + i * drainStride q.f) bytes
  if qpBlk par = 0 then k
  else putDrain k q (qpWord par 8 + i * qpStride par) ((List.range 4).map fun b => BitVec.ofNat 8 (e8.getD b 0))

/-- Row `i` as the DRAIN reads it at td + i: as it stood if a STREAM has written it since (R157). -/
def drainRowOf (k : CoreSt) (d : DrainRun) (q : ArrCmd) (i : Nat) : AccRow :=
  match mget d.held i with
  | some r => r
  | none => mgetD k.arr.rows (mxAccRow q.f + i) .unwritten

/-- A row's outcomes and amax in the DRAIN's own (R222, R223). -/
def DrainRun.noted (d : DrainRun) (es : List QOut) : DrainRun :=
  { d with
    next := d.next + 1, rows := d.rows + 1,
    amax := amaxMax d.amax (BitVec.ofNat 32 (toF32T (amaxOf (es.map QOut.amax)))),
    nans := d.nans + outcomes es .nan, sats := d.sats + outcomes es .saturated, ovfs := d.ovfs + outcomes es .overflowed,
    qinv := d.qinv + (es.map QOut.inv).foldl (· + ·) 0 }

/-- The DRAIN's next row through the quantizer into scratchpad. -/
def drainRow (s : State) (core : Nat) (d : DrainRun) (q : ArrCmd) : State :=
  let r := quantRow d.par d.bias d.table (mxFmt q.f) (drainRowOf (coreOf s core) d q d.next)
  let s := modCore s core fun k =>
    let k := putRow k q d.par d.next r.1 r.2
    { k with arr := { k.arr with drain := some (d.noted r.1) } }
  let ctx := some (ctxOf s q.cmd)
  pmcEvent (pmcEvent s (pgQNT core) 0x0101 1 ctx) (pgQNT core) 0x0102 r.1.length ctx

/-- Stage 7, once for a DRAIN: its counts in the command's totals (R204, R221, R222) and in the QNT page (R228, R230). -/
def foldDrain (s : State) (core cmd : Nat) (d : DrainRun) : State :=
  let fold := qpFold d.par
  let s := modCmd s cmd fun c =>
    { c with
      invalid := c.invalid + d.qinv, overflow := c.overflow + d.sats + d.ovfs,
      amax := if fold then amaxMax c.amax d.amax else c.amax }
  let s := incReg (incReg s Reg.qntNancnt core d.nans) Reg.qntSatcnt core d.sats
  let s := incReg (incReg (incReg s Reg.qntOvfcnt core d.ovfs) Reg.qntInvcnt core d.qinv) Reg.qntRows core d.rows
  if fold then setReg s Reg.qntAmax core (amaxMax (BitVec.ofNat 32 (reg s Reg.qntAmax core)) d.amax).toNat else s

/-! ### The end of a command in the array (R161, R224, R227) -/

/-- The running DRAIN, its queue entry and its start. -/
def runningDrain (s : State) (core : Nat) : Option (DrainRun × ArrCmd × Nat) :=
  let a := (coreOf s core).arr
  match a.drain with
  | some d =>
    match d.start, queued a d.id with
    | some t, some q => some (d, q, t)
    | _, _ => none
  | none => none

/-- At most `n` rows that the running DRAIN has read go through stage 6; a row that brings out a fault ends it. -/
def drainOut (core : Nat) : Nat → State → State
  | 0, s => s
  | n + 1, s =>
    match runningDrain s core with
    | some (d, q, t) =>
      if d.next ≤ mxNrows q.f ∧ t + d.next ≤ coreCyc s core ∧ rowFault d.par (drainRowOf (coreOf s core) d q d.next) (mxFmt q.f) = none
      then drainOut core n (drainRow s core d q)
      else s
    | none => s

/-- A command's DRAIN stops after the row it is reading: what it has read is written and counted (R161, R224). -/
def stopDrain (s : State) (core cmd : Nat) : State :=
  match runningDrain s core with
  | some (_, q, _) =>
    if q.cmd = cmd then
      let s := drainOut core (mxNrows q.f + 1) s
      match (coreOf s core).arr.drain with
      | some d => modCore (foldDrain s core cmd d) core fun k => { k with arr := { k.arr with drain := none } }
      | none => s
    else s
  | none => s

/-- A STREAM of an ended command: the rows it had admitted run out. -/
def StreamRun.stopped (r : StreamRun) (f : FmtX) (cyc : Nat) : StreamRun :=
  { r with limit := some (min (streamRows r f) (admittedBy r cyc)) }

/-- The array when a command ends (R161): its queued entries go, its loads and its DRAIN with them; it admits no row any more, the
rows inside run out, and the waves inside pass. A STREAM stopped in its pass against W_lo sends the wave that exchanges the sets
back. -/
def ArrayState.drop (a : ArrayState) (cmd cyc : Nat) (ghost : ArrCmd → ArrGhost) : ArrayState :=
  let own (id : Nat) : Option ArrCmd := a.queue.find? fun q => q.id == id && q.cmd == cmd
  let stop (r : StreamRun) : StreamRun := match own r.id with
    | some q => r.stopped q.f cyc
    | none => r
  let left (r : StreamRun) : Bool := match own r.id with
    | some q => decide (r.done < streamLimit (stop r) q.f)
    | none => true
  let feeding := a.streams.find? fun r => match own r.id with
    | some q => decide (cyc < entryCycle r (streamRows r q.f - 1))
    | none => false
  let back := match feeding.bind fun r => (own r.id).map fun q => innerStream r && decide ((loPass r q.f).1 ≤ cyc) with
    | some true => [cyc + 1]
    | _ => []
  let streams := (a.streams.filter left).map stop
  let mine (id : Nat) : Bool := (own id).isSome
  let out := a.queue.filter fun q => q.cmd == cmd && streams.any fun r => r.id == q.id
  { a with
    queue := a.queue.filter fun q => q.cmd != cmd,
    ghosts := a.ghosts ++ out.map ghost,
    load := a.load.filter fun l => !mine l.id,
    swaps := a.swaps.filter fun w => !mine w.1,
    waves := if feeding.isSome then (a.waves.filter fun t => decide (t ≤ cyc)) ++ back else a.waves,
    streams,
    drain := a.drain.filter fun d => !mine d.id,
    lastRow := match feeding with
      | some r => entryCycle r (admittedBy r cyc - 1)
      | none => a.lastRow }

end Sys2Proof.Machine
end

