-- ==== Sys2Proof/Machine/CmdOps.lean ====
section
/-! DEFINITION. The named operations over fences, completion records, reference counts, frame pairs and commands: how a
signal and a poison act (R504–R507), what a completion record holds (R501), how a command ends without commit (R304,
R305), is killed (R307), and is queued again.
Assumption log: DEDUCED 41, 43, 49, 130. -/

namespace Sys2Proof.Machine

/-! ### Fences (R503–R508) -/

/-- The mirror write of a fence after a change (R507). -/
def mirrorFence (s : State) (i : Nat) : State :=
  match mget s.obj.fences i with
  | none => s
  | some f =>
    match mget s.obj.tenants f.tenant with
    | none => s
    | some t =>
      if f.mirror ∧ t.mirror ≠ 0 then
        let v := if f.poison = 0 then f.value else 2 ^ 63 + f.poison
        if inAperture s (t.mirror + 8 * i) 8 ∧ hostUp s then
          hostWrite s f.tenant (t.mirror + 8 * i) (leBytes 8 v) (.mirror i)
        else
          errWrite s { errBase s Code.fenceMirrorFailed 0 (pgId pgHPT) with tenant := f.tenant, ctx := f.ctx }
      else s

/-- A fence poisoned with a code; the first code stands (R506). -/
def fencePoison (s : State) (i code : Nat) : State :=
  match mget s.obj.fences i with
  | none => s
  | some f =>
    if f.live ∧ f.poison = 0 then mirrorFence (modFence s i fun f => { f with poison := code }) i
    else s

/-- A signal of value `v` (R504). -/
def fenceSignal (s : State) (i v : Nat) : State :=
  match mget s.obj.fences i with
  | none => s
  | some f =>
    if !f.live ∨ f.poison ≠ 0 then s
    else if v ≥ 2 ^ 63 then fencePoison s i Code.fenceRange
    else if v ≤ f.value then
      errWrite s { errBase s Code.fenceRegress 0 (pgId pgSCH) with tenant := f.tenant, ctx := f.ctx }
    else mirrorFence (modFence s i fun f => { f with value := v }) i

/-- A wait is satisfied (R505): its value is reached, or it ignores the poison of its fence. A freed fence, which only
OWNER_GONE frees, counts as poisoned. -/
def waitSatisfied (s : State) (w : WaitField) : Bool :=
  !w.valid ||
  match mget s.obj.fences w.fence with
  | some f => decide (f.value ≥ w.value ∧ f.live) || (decide (f.poison ≠ 0 ∨ !f.live) && w.ignorePoison)
  | none => w.ignorePoison

/-- A wait is cancelled (R505). -/
def waitCancelled (s : State) (w : WaitField) : Bool :=
  w.valid && !waitSatisfied s w &&
  match mget s.obj.fences w.fence with
  | some f => decide (f.poison ≠ 0 ∨ !f.live)
  | none => true

/-! ### Objects and reference counts (R488–R493) -/

/-- An increment succeeds (R489). -/
def refCanInc (o : MemObj) : Bool := decide (o.state = .live ∧ 0 < o.refs ∧ o.refs < 2 ^ 32 - 1)

/-- One reference added where R489 lets it succeed. -/
def refInc (s : State) (h : Nat) : State :=
  modObj s h fun o => if refCanInc o then { o with refs := o.refs + 1 } else o

/-- One reference dropped; REFS reaching 0 makes the entry RECLAIMING (R489, R493). -/
def refDec (s : State) (h : Nat) : State :=
  modObj s h fun o =>
    if o.state = .live ∧ 0 < o.refs then
      { o with refs := o.refs - 1, state := if o.refs = 1 then .reclaiming else .live }
    else o

/-! ### Frame pairs (R288–R304) -/

/-- A frame pair before anything has touched it: both frames of its object, frame 0 current, IDLE (R289). -/
def Pair.fresh (f0 f1 : Nat) : Pair :=
  { frame0 := f0, frame1 := f1, cur := false, state := .idle, whole := false, touched := false, copied := false,
    node := 0, tag := 0, copying := none, waiters := [] }

/-- The SHADOWED object that holds an entry of the commit overlay table. -/
def pairObj (s : State) (idx : Nat) : Option (Nat × MemObj) :=
  s.obj.objs.find? fun e =>
    e.2.state != .free && e.2.kind == 1 && decide (e.2.cot ≤ idx ∧ idx < e.2.cot + e.2.size / 65536)

/-- A frame pair; none where no object holds the entry. -/
def pairOf (s : State) (idx : Nat) : Option Pair :=
  match mget s.com.pairs idx with
  | some p => some p
  | none =>
    match pairObj s idx with
    | some (_, o) => some (.fresh (o.base0 + (idx - o.cot) * 65536) (o.base1 + (idx - o.cot) * 65536))
    | none => none

def setPair (s : State) (idx : Nat) (p : Pair) : State :=
  { s with com := { s.com with pairs := mset s.com.pairs idx p } }

def modPair (s : State) (idx : Nat) (f : Pair → Pair) : State :=
  match pairOf s idx with
  | some p => setPair s idx (f p)
  | none => s

/-- The current and the working frame (R288, R289). -/
def Pair.current (p : Pair) : Nat := if p.cur then p.frame1 else p.frame0
def Pair.working (p : Pair) : Nat := if p.cur then p.frame0 else p.frame1

/-- A pair owned by a command of a node under a tag (R290). -/
def Pair.ownedBy (p : Pair) (node tag : Nat) : Bool := p.state != .idle && p.node == node && p.tag == tag

/-- The frame a node's command reads: its working frame once it has written the pair, else the current frame (R288). -/
def Pair.readFrame (p : Pair) (node tag : Nat) : Nat :=
  if p.ownedBy node tag && p.state == .owned && p.touched then p.working else p.current

/-- A pair made IDLE without a flip; CUR stands (R304). -/
def Pair.released (p : Pair) : Pair :=
  { p with state := .idle, whole := false, touched := false, copied := false, node := 0, tag := 0, copying := none }

/-- A pair flipped where its owner touched it, and made IDLE (R297, R298). -/
def Pair.flipped (p : Pair) : Pair := { p.released with cur := if p.touched then !p.cur else p.cur }

/-- A pair given to a command (R288, R292). -/
def Pair.given (p : Pair) (node tag : Nat) (whole : Bool) : Pair :=
  { p with state := .owned, whole, touched := false, copied := false, node, tag, copying := none }

/-- An IDLE pair is handed to its longest waiter where that is another module's command, which is told (R292). A local
waiter takes it in a PAIR_ACQUIRE. -/
def handOver (s : State) (idx : Nat) : State :=
  match pairOf s idx with
  | none => s
  | some p =>
    match p.state, p.waiters with
    | .idle, w :: rest =>
      if w.asker = nodeId s then s
      else
        let s := setPair s idx { p.given w.node w.tag w.whole with waiters := rest }
        sendCtl s w.asker w.tag (.claimGranted idx)
    | _, _ => s

/-- Every pair owned by a node's tag changed by `f`, then handed over. -/
def forOwned (s : State) (node tag : Nat) (f : Pair → Pair) : State :=
  (s.com.pairs.filter fun e => e.2.ownedBy node tag).foldl
    (fun s e => handOver (modPair s e.1 f) e.1) s

/-- The pairs of a tag released without a flip (R304). -/
def discardTag (s : State) (node tag : Nat) : State := forOwned s node tag Pair.released

/-- The pairs of a tag flipped where touched (R297, R298). -/
def flipTag (s : State) (node tag : Nat) : State := forOwned s node tag Pair.flipped

/-- A tag owns pairs here. -/
def tagOwns (s : State) (node tag : Nat) : Bool := s.com.pairs.any fun e => e.2.ownedBy node tag

/-- A waiter taken off every pair; the next in line takes its place (R292). -/
def dropWaiter (s : State) (node tag : Nat) : State :=
  let waits (w : Waiter) : Bool := w.node == node && w.tag == tag
  (s.com.pairs.filter fun e => e.2.waiters.any waits).foldl
    (fun s e => handOver (modPair s e.1 fun p => { p with waiters := p.waiters.filter fun w => !waits w }) e.1) s

/-- The local holdings of a command that has acquired pairs before dispatch: released; those at other modules get a
DISCARD (R304). -/
def tagsFree (s : State) (tag : Nat) : State :=
  { s with com := { s.com with tags := s.com.tags.filter fun t => t != tag } }

/-- The first tag from `t` on, modulo 65,536, that is not in use. -/
def freeTag (used : List Nat) : Nat → Nat → Option Nat
  | 0, _ => none
  | n + 1, t => if used.contains t then freeTag used n ((t + 1) % 65536) else some t

/-- The next free commit tag, if the pool holds one (R290). -/
def takeTag (s : State) : Option (Nat × State) :=
  match freeTag s.com.tags 65536 s.com.nextTag with
  | none => none
  | some t => some (t, { s with com := { s.com with tags := t :: s.com.tags, nextTag := (t + 1) % 65536 } })

/-- The other modules at which a command may hold frame pairs under its tag, or wait for them (R291, R292, R310). -/
def cmdNodes (s : State) (c : Cmd) : List Nat :=
  let gang := if c.d.isGang then (c.claims ++ c.extra).map Claim.node else []
  ((c.got.map Claim.node ++ (c.asked.map Claim.node).toList ++ gang ++ c.touchedNodes).filter fun n => n != nodeId s).eraseDups

/-- The discard of a tag (R304): local pairs go IDLE, each destination gets a DISCARD token, and the tag returns to the
pool when all have acknowledged, at once where there are none. -/
def discardAll (s : State) (cmd : Nat) (id : DWord) (tag : Nat) (nodes : List Nat) : State :=
  let s := discardTag s (nodeId s) tag
  let s := dropWaiter s (nodeId s) tag
  if nodes.isEmpty then tagsFree s tag
  else
    let s := nodes.foldl (fun s n => sendCtl s n tag (.discard 0)) s
    let r : CommitRec := { commit := false, cmd, cmdId := id, fence := none,
                           dests := nodes.map fun n => (n, .queued), opened := s.now, signaled := true }
    { s with com := { s.com with recs := mset s.com.recs tag r } }

/-! ### Stopping a command on its cores (R52, R270, R305) -/

/-- Commands of the array queue, launched work and movers of a command dropped (R52, R161, R270). -/
def CoreSt.dropWork (k : CoreSt) (cmd cyc : Nat) (id : DWord) : CoreSt :=
  let ghost (q : ArrCmd) : ArrGhost := { q, scratch := k.scratch, alloc := mget k.allocs cmd, cmdId := id }
  { k with
    groups := k.groups.filter fun e => e.2.cmd != cmd,
    arr := k.arr.drop cmd cyc ghost,
    launched := k.launched.filter fun m => m.cmd != cmd,
    movers := k.movers.filter fun e => e.2.cmd != cmd,
    bars := k.bars.filter fun e => e.1.1 / 4294967296 != cmd,
    allocs := mdel k.allocs cmd }

/-- A store still in a merging buffer when its command ends: performed whole or not at all, which is left open (R305);
one toward a SHADOWED line of an owner that lost the pair is dropped. -/
def keepEntry (s : State) (e : MergeEntry) : Bool × State :=
  match e.line with
  | .pair _ _ => (false, s)
  | .fab _ true _ => (false, s)
  | _ => chooseOf s false

/-- The merging-buffer entries of an ended command. -/
def endEntries (s : State) (c cmd : Nat) : List (Nat × MergeEntry) → State
  | [] => s
  | (i, e) :: t =>
    if e.cmd = cmd then
      let r := keepEntry s e
      let s := r.2
      let s := if r.1 then s else modCore s c fun k => { k with mbuf := mdel k.mbuf i }
      endEntries s c cmd t
    else endEntries s c cmd t

/-- What becomes of an atomic of a command that ends: one that a controller, a peer or the host has taken is performed, its result wanted no
more; one still here on a SHADOWED line is dropped (R304); whether another leaves is open (R305). -/
def stopAtom (s : State) (i : Nat) (a : AtomRec) : State :=
  let keep (s : State) : State :=
    { s with ms := { s.ms with atoms := mmod s.ms.atoms i fun a => { a with dst := none } } }
  let drop (s : State) : State := { s with ms := { s.ms with atoms := mdel s.ms.atoms i } }
  match a.st, a.tgt with
  | .toEgress, .fab _ true _ => drop s
  | .toEgress, .pair _ _ => drop s
  | .toEgress, _ =>
    let r := chooseOf s false
    if r.1 then keep r.2 else drop r.2
  | .done _, _ => drop s
  | _, _ => keep s

/-- A command's groups, queued work, loads and atomics gone from every core. -/
def stopOnCores (s : State) (cmd : Nat) (cores : List Nat) : State :=
  let id := ((cmdOf s cmd).map fun c => c.d.cmdId).getD 0
  let s := cores.foldl (fun s c =>
    let s := stopDrain s c cmd
    modCore (endEntries s c cmd (coreOf s c).mbuf) c fun k => k.dropWork cmd (coreCyc s c) id) s
  let s := { s with ms := { s.ms with
      loads := s.ms.loads.filter fun e => e.2.cmd != cmd,
      reqs := s.ms.reqs.filter fun r => r.2.cmd != cmd } }
  (s.ms.atoms.filter fun e => e.2.cmd == cmd).foldl (fun s e => stopAtom s e.1 e.2) s

/-! ### Completion records (R501, R502) -/

/-- The 64 bytes of a completion record (R501). -/
def recordBytes (cmdId : DWord) (status : Nat) (isPartial phase : Bool) (kills startFt endFt inv ovf : Nat) (amax : Word)
    (sqHead bytes energy : Nat) : List Byte :=
  leBytes 8 cmdId.toNat ++ leBytes 2 status
    ++ leBytes 2 ((if isPartial then 1 else 0) + (if phase then 32768 else 0))
    ++ leBytes 2 (min kills 0xFFFF) ++ leBytes 2 0 ++ leBytes 8 startFt ++ leBytes 8 endFt
    ++ leBytes 4 (min inv 0xFFFFFFFF) ++ leBytes 4 (min ovf 0xFFFFFFFF) ++ leBytes 4 amax.toNat ++ leBytes 4 sqHead
    ++ leBytes 8 bytes ++ leBytes 8 energy

/-- A device-half VA of a context as its device table gives it (R326–R328); none where no leaf covers it. -/
def leafFor (leaves : List Leaf) (va : Nat) : Option Leaf :=
  leaves.find? fun l => decide (l.va ≤ va ∧ va < l.va + l.size)

/-- The physical address of a device-half VA that lies in local IN_PLACE or CHANNEL memory. -/
def inPlacePa (s : State) (ctx va : Nat) : Option Nat :=
  match mget s.obj.contexts ctx with
  | none => none
  | some c =>
    match leafFor c.leaves va with
    | some l =>
      match l.back with
      | .inPlace pa => some (pa + (va - l.va))
      | .channel pa => some (pa + (va - l.va))
      | _ => none
    | none => none

/-- Where a device-half byte lies: unmapped, at another module, or here. -/
inductive Place where
  | unmapped | away | here (pa : Nat)
  deriving DecidableEq, Repr

def placeOf (s : State) (x : Context) (va : Nat) : Place :=
  match leafFor x.leaves va with
  | none => .unmapped
  | some l =>
    let o := va - l.va
    match l.back with
    | .inPlace pa => .here (pa + o)
    | .channel pa => .here (pa + o)
    | .shadowed off =>
      match pairOf s ((off + o) / 65536) with
      | some p => .here (p.current + (off + o) % 65536)
      | none => .unmapped
    | .fab _ _ _ => .away

/-- Record `n` of a queue's completion ring written (R495, R501). Answers whether it went to the host. -/
def putRecord (s : State) (qi : Nat) (q : Queue) (tenant n : Nat) (d : List Byte) (why : HostPend) : Bool × State :=
  let off := 64 * (n % 2 ^ q.log2Cq)
  let a := q.cq.toNat % 2 ^ 63 + off
  let s := modQueue s qi fun q => { q with recs := q.recs + 1, recsHeld := q.recsHeld - 1 }
  if q.cq.toNat ≥ 2 ^ 63 then
    if inAperture s a 64 then (true, hostWrite s tenant a d why) else (false, s)
  else
    match inPlacePa s q.ctx a with
    | some pa => (false, wrBytes s pa d)
    | none => (false, s)

/-- PHASE of record `n` (R501): 1 on the first pass. -/
def phaseOf (q : Queue) (n : Nat) : Bool := n / 2 ^ q.log2Cq % 2 == 0

/-! ### The end of a command -/

/-- Host writes of a command that await the host's acknowledgment (R287). -/
def hostWriting (s : State) (i : Nat) : Bool :=
  s.obj.pend.any fun e => match e.2.2 with
    | .store k _ _ _ => k == i
    | _ => false

/-- The signal fence after a final end (R504): status 0 signals, any other poisons. -/
def fenceEnd (s : State) (c : Cmd) (status : Nat) : State :=
  if c.d.sigValid then
    if status = 0 then fenceSignal s c.d.sigFence c.d.sigValue else fencePoison s c.d.sigFence status
  else s

/-- HANG_UNRESOLVED against a core (R625); the third within 24 h retires it by a core reset (R627). -/
def logUnresolved (s : State) (core : Nat) : State :=
  let s := incReg (logOnly s Code.hangUnresolved (pgCORE core)) Reg.jckUnresolved 0
  let recent := (mgetD s.err.unresolved core []).filter fun t => !since s t (sec 86400)
  let s := modErr s fun e => { e with unresolved := mset e.unresolved core (s.now :: recent) }
  if recent.length < 2 ∨ s.err.retired.contains core then s
  else
    queueRecovery (modErr s fun e => { e with retired := core :: e.retired }) (reg s Reg.errTail) (.core core)
      Code.hangUnresolved

/-- Two suspects are one: the same command, or members of one gang (R623, R625). -/
def sameSuspect (s : State) (i j : Nat) : Bool :=
  i == j ||
  match cmdOf s i, cmdOf s j with
  | some a, some b => a.d.isGang && b.d.isGang && a.d.gangId == b.d.gangId
  | _, _ => false

/-- A suspect whose run has ended leaves the suspects; HANG_UNRESOLVED follows the last of them (R625). -/
def dropSuspect (s : State) (i : Nat) : State :=
  if s.err.suspects.contains i then
    let left := s.err.suspects.filter fun x => x != i
    let next := if s.err.replaying = some i then left.find? (sameSuspect s i) else s.err.replaying
    let s := modErr s fun e => { e with suspects := left, replaying := next }
    match left, s.err.suspectCore with
    | [], some c => logUnresolved (modErr s fun e => { e with suspectCore := none }) c
    | _, _ => s
  else s

/-- A command leaves the tables: its references drop, its range list goes (R333, R489). -/
def forget (s : State) (i : Nat) : State :=
  match cmdOf s i with
  | none => s
  | some c =>
    let s := c.objs.foldl refDec (dropSuspect s i)
    let s := { s with
      cmds := mdel s.cmds i,
      xlt := { s.xlt with
        ranges := s.xlt.ranges.filter fun r => r.1 != i,
        faultCount := s.xlt.faultCount.filter fun f => f.1.1 != i } }
    modQueue s c.queue fun q => { q with order := q.order.filter fun x => x != i }

/-- The partial flag of a record (R501): a non-replayable command with a nonzero status. -/
def isPartialEnd (c : Cmd) (status : Nat) : Bool := !c.replayable && status != 0 && c.dispatched

/-- A sequence-engine command's status noted in its step (R536, R538). -/
def noteStep (s : State) (i : Nat) (c : Cmd) (status : Nat) : State :=
  match c.seq with
  | none => s
  | some (m, _) =>
    { s with srv := { s.srv with steps := mmod s.srv.steps m fun st =>
        { st with cmds := st.cmds.filter (fun x => x != i),
                  status := if st.status = 0 then status else st.status } } }

/-- The final end of a command with a status (R501–R504): its record is written, then its fence changes; a command of a
context being torn down gets no record, and a sequence-engine command none either. -/
def finish (s : State) (i status : Nat) : State :=
  match cmdOf s i with
  | none => s
  | some c =>
    let s := noteStep s i c status
    let tearing : Bool := match mget s.obj.contexts c.ctx with
      | some x => x.phase != .live
      | none => true
    if tearing || c.seq.isSome then forget (fenceEnd s c status) i
    else
      match mget s.obj.queues c.queue with
      | none => forget (fenceEnd s c status) i
      | some q =>
        let d := recordBytes c.d.cmdId status (isPartialEnd c status) (phaseOf q q.recs) c.kills c.startFt (ftNs s)
          c.invalid c.overflow c.amax (q.taken % 2 ^ 32) c.bytes c.energy
        let r := putRecord s c.queue q c.tenant q.recs d (.record i)
        if r.1 then modCmd r.2 i fun c => { c with phase := .recording status }
        else forget (fenceEnd r.2 c status) i

/-- The error-ring entry of a command that ended with a code about a node (R605, R606, R609). -/
def logCmdNode (s : State) (c : Cmd) (code page addr tag node : Nat) : State :=
  errWrite s { errBase s code 2 (pgId page) with
    tenant := c.tenant, ctx := c.ctx, cmdId := c.d.cmdId, isPartial := isPartialEnd c code, addr, tag, node }

/-- The same about this module. -/
def logCmdEnd (s : State) (c : Cmd) (code page addr : Nat) (tag : Nat) : State :=
  logCmdNode s c code page addr tag (nodeId s)

/-- An undispatched command ends with a status (R500, R505, R509): what it has acquired is released. -/
def endQuiet (s : State) (i status : Nat) : State :=
  match cmdOf s i with
  | none => s
  | some c =>
    let s := match c.tag with
      | some t => discardAll s i c.d.cmdId t (cmdNodes s c)
      | none => s
    finish (modQueue s c.queue fun q => { q with order := q.order.filter fun x => x != i }) i status

/-- The same with its entry in the error ring (R606, R609). -/
def endUndispatched (s : State) (i status : Nat) : State :=
  match cmdOf s i with
  | none => s
  | some c => endQuiet (logCmdEnd s c status pgSCH 0 0) i status

/-- A command before dispatch. -/
def Cmd.undispatched (c : Cmd) : Bool :=
  match c.phase with
  | .queued | .translating | .waiting | .acquiring | .ready => true
  | _ => false

/-- A command between its dispatch and its commit point. -/
def Cmd.started (c : Cmd) : Bool :=
  match c.phase with
  | .running | .saving _ | .saved | .ending _ => true
  | _ => false

/-- Commands with a cancelled wait end with DEP_POISONED, and so on down the chain of waits (R505). Each round ends the
first such command; a command never waits on more fences than there are commands to end. -/
def settle : Nat → State → State
  | 0, s => s
  | n + 1, s =>
    match s.cmds.find? fun e => e.2.undispatched && e.2.d.waits.any (waitCancelled s) with
    | some (i, _) => settle n (endUndispatched s i Code.depPoisoned)
    | none => s

/-- Everything that follows a change of fences (R505). -/
def settled (s : State) : State := settle (s.cmds.length + 1) s

/-- A running command taken off its cores, its pairs discarded (R304, R305). -/
def dropRun (s : State) (i : Nat) : State :=
  match cmdOf s i with
  | none => s
  | some c =>
    let s := stopOnCores s i c.cores
    let s := match c.tag with
      | some t => discardAll s i c.d.cmdId t (cmdNodes s c)
      | none => s
    let s := { s with sch := { s.sch with poolUsed := s.sch.poolUsed - c.saveBytes } }
    modCmd s i fun c => { c with cores := [], saved := [], saveBytes := 0, why := none, tag := none, got := [], asked := none, readySent := false,
                                 trapped := false,
                                 touchedNodes := [], nextGroup := 0, liveGroups := 0, turn := 0, begun := [] }

/-- A command queued again at the head of its queue (R307): a new dispatch with a new tag, counts and amax at zero. -/
def requeue (s : State) (i : Nat) : State :=
  let s := modCmd s i fun c => { c with phase := .waiting, invalid := 0, overflow := 0, amax := 0 }
  match cmdOf s i with
  | none => s
  | some c =>
    if c.seq.isSome then s
    else modQueue s c.queue fun q => { q with order := i :: q.order.filter fun x => x != i }

/-- A replayable command killed (R307, R521): its run leaves no trace and it is queued again. -/
def killRun (s : State) (i : Nat) : State :=
  requeue (modCmd (dropRun s i) i fun c => { c with kills := c.kills + 1 }) i

/-- Local members of a gang. -/
def gangOf (s : State) (c : Cmd) : Option Gang := if c.d.isGang then mget s.com.gangs c.d.gangId else none

/-- An acquisition begun anew (R292): what a waiting command holds is released, and it gets a new tag later. -/
def dropClaims (s : State) (i : Nat) (c : Cmd) : State :=
  let s := match c.tag with
    | some t => discardAll s i c.d.cmdId t (cmdNodes s c)
    | none => s
  modCmd s i fun c => { c with phase := .waiting, tag := none, got := [], asked := none, readySent := false }

/-- The command's context is not being torn down. -/
def ctxLive (s : State) (c : Cmd) : Bool := (mget s.obj.contexts c.ctx).any fun x => x.phase == .live

/-- One member of a gang that ends before its commit point (R313): queued again with a replayable gang, else recorded partial. A member of a
context that is torn down is not queued again (R509). -/
def endMember (s : State) (i code : Nat) (again : Bool) : State :=
  match cmdOf s i with
  | none => s
  | some c =>
    let again := again && ctxLive s c
    let code := if ctxLive s c then code else Code.ownerGone
    if c.started then
      if again then killRun s i
      else finish (logCmdEnd (dropRun s i) c code pgSCH 0 0) i code
    else if c.undispatched then
      if again then dropClaims s i c else endUndispatched s i code
    else s

/-- A started gang ends before its commit point (R313). `code` is the status of members that are not replayed; `again` is false where R509 forbids
the replay. -/
def endGangLocal (s : State) (gang code : Nat) (again : Bool) : State :=
  match mget s.com.gangs gang with
  | none => s
  | some g =>
    let s := g.members.foldl (fun s i => endMember s i code (again && g.replays)) s
    { s with com := { s.com with gangs := mdel s.com.gangs gang } }

/-- The modules a gang spans, told that it has ended (R313): by its leader all of them, by a member its leader. `code` is 0 where the gang may be
queued again. -/
def tellGangEnd (s : State) (gang code : Nat) : State :=
  match mget s.com.gangs gang with
  | none => s
  | some g =>
    let nodes := ((g.arrived.map Prod.fst) ++ [g.leader]).filter fun n => n != nodeId s
    nodes.eraseDups.foldl (fun s n => sendCtl s n 0 (.gangEnd gang code)) s

/-- The gang of a command that waits for GO: every member here has reported READY to another module's leader, which may have
written the commit record (R312). Its end is the leader's alone to tell. -/
def awaitsGo (s : State) (c : Cmd) : Bool :=
  c.d.isGang &&
  match mget s.com.gangs c.d.gangId with
  | some g => g.phase == .started && g.leader != nodeId s && g.members.all fun i => (cmdOf s i).any Cmd.readySent
  | none => false

/-- A started gang that a member here takes with it: at once, or where it may be past its commit point by its leader's word (R312, R313, R316). -/
def endGang (s : State) (c : Cmd) (code : Nat) (again : Bool) : State :=
  let told := tellGangEnd s c.d.gangId (if again then 0 else code)
  if awaitsGo s c then told else endGangLocal told c.d.gangId code again

/-- A command ends before its commit point by a fault, a trap or an error, with a code that becomes its status (R52,
R304); a gang member takes its gang with it (R313). `node` is the node that the code concerns. -/
def failCmdAt (s : State) (i code page addr node : Nat) : State :=
  match cmdOf s i with
  | none => s
  | some c =>
    if c.started then
      let s := logCmdNode s c code page addr (c.tag.getD 0) node
      if awaitsGo s c || (gangOf s c).any Gang.replays then settled (endGang s c code true)
      else
        let s := finish (dropRun s i) i code
        settled (if c.d.isGang then endGang s c code true else s)
    else if c.undispatched then
      settled (endQuiet (logCmdNode s c code page addr 0 node) i code)
    else s

/-- The same with a code about this module. -/
def failCmd (s : State) (i code page addr : Nat) : State := failCmdAt s i code page addr (nodeId s)

/-- A command killed for a cause that lets a replayable one be queued again and ends another with a code (R315, R409,
R613): the gang of a member ends (R313). -/
def killOrEnd (s : State) (i code page node : Nat) : State :=
  match cmdOf s i with
  | none => s
  | some c =>
    if c.started then
      if c.d.isGang then settled (endGang s c code true)
      else if c.replayable then killRun s i
      else
        let s := logCmdNode s c code page 0 (c.tag.getD 0) node
        settled (finish (dropRun s i) i code)
    else s

/-- A write to a busy pair of another command (R295): a replayable command is killed and queued again with the pair
among its claims; the fourth such end of a submission, and the first of a non-replayable one, is final. A command past its commit point
goes on (R300). -/
def busyEnd (s : State) (i : Nat) (cl : Claim) : State :=
  match cmdOf s i with
  | none => s
  | some c =>
    if !c.started then s
    else if c.replayable ∧ !c.d.isGang ∧ c.busyEnds < 3 then
      modCmd (killRun s i) i fun c => { c with busyEnds := c.busyEnds + 1, extra := cl :: c.extra }
    else failCmdAt s i Code.commitFrameBusy pgSCH (cl.pair * 65536) cl.node

end Sys2Proof.Machine
end

