-- ==== Sys2Proof/Machine/Objects.lean ====
section
/-! DEFINITION. Requests to firmware, memory objects, reference counts and host access to object memory (13).
Assumption log: DESIGN CHOICE 44, 115; DEDUCED 45, 46, 47, 48, 49, 135, 137. -/

namespace Sys2Proof.Machine

/-! ### Queue pairs and answers (R450, R454, R483) -/

/-- A tenant's queue pair is connected and not in the error state. -/
def qpUp (s : State) (t : Nat) : Bool :=
  match mget s.obj.qps t with
  | some q => q.err.isNone
  | none => false

/-- A queue pair put into the error state (R454, R487). -/
def qpFail (s : State) (t : Nat) : State :=
  { s with obj := { s.obj with qps := mmod s.obj.qps t fun q => { q with err := (q.err <|> some s.now) } } }

/-- An Invalid Request NAK: counted, and the queue pair enters the error state (R454, R478). -/
def nakInvalid (s : State) (t : Nat) : State :=
  pmcEvent (qpFail (emit (incReg s Reg.hptNaks 0) (.nakInvalid t)) t) pgHPT 0x0101 1 none

/-- A Remote Access Error NAK with CFG_ACCESS_DENIED in HPT_ERRLOG (R453, R491). -/
def nakAccess (s : State) (t : Nat) : State :=
  let s := hptLog s t Code.cfgAccessDenied
  pmcEvent (qpFail (emit (incReg s Reg.hptNaks 0) (.nakAccess t)) t) pgHPT 0x0101 1 none

/-- The boot window is open (R574): of the register pages only DEV answers. -/
def windowOpen (s : State) : Bool := s.boot.stage == 4

/-- The page is served by firmware: QTAB, SCH, ACC, SEC, FWU (PG_CAP.EMU). -/
def isEmu (page : Nat) : Bool :=
  decide (0x1000 ≤ page ∧ page ≤ 0x8000) || page == pgSCH || page == pgACC || page == pgSEC || page == pgFWU

/-- DEV_BOOTSTAT.STAGE reads halted (R596). -/
def halted (s : State) : Bool := s.boot.stage == 0xF

/-- Firmware serves an emulated page: in a halted module only SEC and FWU (R581). -/
def fwServes (s : State) (page : Nat) : Bool := s.boot.serving && (!halted s || page == pgSEC || page == pgFWU)

/-- A request of the tenant's queue pair is not yet answered: a teardown, the end of a tenant, a map request (R483). -/
def unanswered (s : State) (t : Nat) : Bool :=
  (s.obj.contexts.any fun c => c.2.req.any fun r => r.tenant == t)
    || (s.obj.tenants.any fun k => k.2.dying.any fun r => r.tenant == t)
    || (s.obj.mapReqs.any fun q => q.req.tenant == t && !q.late)

/-- Something earlier of the queue pair is not yet performed: what comes now waits behind it (R456, R483). -/
def qpHeld (s : State) (t : Nat) : Bool := (s.obj.parked.any fun p => p.tenant == t) || unanswered s t

/-- A request that firmware can perform now (R482, R483): its queue pair is up, firmware serves, and nothing earlier of the
queue pair is left. -/
def reqReady (s : State) (r : Request) : Bool :=
  qpUp s r.tenant && s.boot.serving && s.boot.ready && !qpHeld s r.tenant

/-- A request or an access that cannot be performed now waits (R456, R473, R483). -/
def park (s : State) (t : Nat) (c : FwCall) : State :=
  if qpUp s t then
    let p : Parked := { id := s.obj.nextPark, since := s.now, tenant := t, call := c }
    { s with obj := { s.obj with parked := s.obj.parked ++ [p], nextPark := s.obj.nextPark + 1 } }
  else s

/-- The 16-byte response of a request (R483). One that the aperture does not reach is logged in HPT_ERRLOG. -/
def respond (s : State) (r : Request) (status reason result : Nat) : State :=
  let s := pmcEvent s pgHPT 0x0100 1 none
  if inAperture s r.resp 16 then
    hostWrite s r.tenant r.resp
      (leBytes 4 r.reqId ++ leBytes 2 status ++ leBytes 1 reason ++ leBytes 1 0 ++ leBytes 8 result) .other
  else hptLog s r.tenant Code.reqInvalid

def refuse (s : State) (r : Request) (reason : Nat) : State := respond s r Code.reqInvalid reason 0
def accept (s : State) (r : Request) (result : Nat) : State := respond s r 0 0 result

/-- A tenant may act on what another owns: the owner, or tenant 0 (R481). -/
def mayAct (t owner : Nat) : Bool := t == 0 || t == owner

/-! ### Reference counts (R488–R490) -/

/-- An entry of the reference-count table (R488). -/
def objEntry (o : MemObj) : Nat :=
  o.gen * 2 ^ 48 + (match o.state with | .free => 0 | .live => 1 | .reclaiming => 2) * 2 ^ 46 + o.kind * 2 ^ 44
    + o.owner * 2 ^ 32 + o.refs

/-- The handle value of an entry (R484). -/
def handleOf (i : Nat) (o : MemObj) : Nat := i + o.gen * 2 ^ 32

/-- The entry a handle names, LIVE and of its generation (R484). -/
def handleLookup (s : State) (h : DWord) : Option (Nat × MemObj) :=
  let i := h.toNat % 2 ^ 22
  match mget s.obj.objs i with
  | some o => if o.state = .live ∧ h.toNat = handleOf i o then some (i, o) else none
  | none => none

/-- A share of an object with a tenant (R484); the second part says the owner made it. -/
def shareOf (o : MemObj) (t : Nat) : Option Bool := (o.shares.find? fun e => e.1 == t).map Prod.snd

/-- A tenant may read an object; may write it (R485, R491). -/
def mayRead (o : MemObj) (t : Nat) : Bool := mayAct t o.owner || (shareOf o t).isSome
def mayWrite (o : MemObj) (t : Nat) : Bool := mayAct t o.owner || shareOf o t == some true

/-! ### Allocation of frames -/

/-- The first address of software HBM (R10, R354). -/
def softBase : Nat := 0x20000000

/-- Software HBM ends where the save pool begins (R527). -/
def softEnd (s : State) : Nat := hbmBytes s - reg s Reg.schSavepool * 2 ^ 30

/-- The regions of the live objects. -/
def usedRegions (s : State) : List (Nat × Nat) :=
  s.obj.objs.flatMap fun e =>
    if e.2.state = .free then []
    else
      let n := ceilDiv e.2.size 4096 * 4096
      if e.2.kind = 1 then [(e.2.base0, n), (e.2.base1, n)] else [(e.2.base0, n)]

def overlaps (a n b m : Nat) : Bool := decide (a < b + m ∧ b < a + n)

def alignUp (a n : Nat) : Nat := ceilDiv a n * n

/-- The lowest aligned place for `n` bytes among used regions and below a limit. -/
def firstFit (used : List (Nat × Nat)) (lo hi n al : Nat) : Option Nat :=
  let cands := (alignUp lo al :: used.map fun r => alignUp (r.1 + r.2) al).filter fun a =>
    decide (lo ≤ a ∧ a + n ≤ hi) && !(used.any fun r => overlaps a n r.1 r.2)
  cands.foldl (fun b a => match b with | none => some a | some x => some (min x a)) none

/-- The alignment given to a new object: that of the largest page its size fills (R485), at least 64 KiB. -/
def objAlign (n : Nat) : Nat := if n ≥ 2 ^ 30 then 2 ^ 30 else if n ≥ 2 ^ 21 then 2 ^ 21 else 65536

/-! ### Device-table leaves (R326–R328, R485) -/

def Backing.shift (b : Backing) (n : Nat) : Backing :=
  match b with
  | .inPlace p => .inPlace (p + n)
  | .channel p => .channel (p + n)
  | .shadowed o => .shadowed (o + n)
  | .fab nd k a => .fab nd k (a + n)

def Backing.addr : Backing → Nat
  | .inPlace p => p
  | .channel p => p
  | .shadowed o => o
  | .fab _ _ a => a

/-- The leaves of a mapping, each with the largest page size that the alignment and the length allow. -/
def mkLeaves : Nat → Nat → Nat → Backing → Bool → Bool → Nat → List Leaf
  | 0, _, _, _, _, _, _ => []
  | fuel + 1, va, len, b, w, nx, h =>
    if len = 0 then []
    else
      let fits (n : Nat) : Bool := decide (va % n = 0 ∧ b.addr % n = 0 ∧ n ≤ len)
      let n := if fits (2 ^ 30) then 2 ^ 30 else if fits (2 ^ 21) then 2 ^ 21 else 4096
      { va, size := n, back := b, w, nx, handle := h } :: mkLeaves fuel (va + n) (len - n) (b.shift n) w nx h

/-- A device-half range (R318). -/
def inDeviceHalf (va len : Nat) : Bool := decide (va + len ≤ 2 ^ 56)

/-- A range that overlaps no mapping of a context. -/
def mapFree (c : Context) (va len : Nat) : Bool := !(c.maps.any fun m => overlaps va len m.va m.length)

/-- The granule of R485 for an object kind. -/
def mapGrain (kind : Nat) : Nat := if kind = 0 then 4096 else 65536

/-! ### Tenants -/

/-- A context's teardown begun (R509 steps 1–4). A gang member that waits for GO may be past its commit point, and ends by its leader's word
(R300, R312). -/
def startTeardown (s : State) (x : Nat) (req : Option Request) : State :=
  let s := modCtx s x fun c => { c with phase := .tearing, req }
  let qs := s.obj.queues.map fun e =>
    if e.2.ctx = x then (e.1, { e.2 with stopped := true, reads := [], partial_ := [], buffered := [] }) else e
  let s := { s with obj := { s.obj with queues := qs } }
  let s := (s.cmds.filter fun e => e.2.ctx == x && e.2.undispatched).foldl
    (fun s e => endQuiet s e.1 Code.ownerGone) s
  let s := (s.cmds.filter fun e => e.2.ctx == x && e.2.started).foldl
    (fun s e =>
      match cmdOf s e.1 with
      | none => s
      | some c =>
        let s := if c.replayable then s
                 else modCtx (logCmdEnd s c Code.ownerGone pgSCH 0 (c.tag.getD 0)) x
                        fun k => { k with partials := k.partials + 1 }
        if awaitsGo s c then tellGangEnd s c.d.gangId Code.ownerGone
        else
          let s := finish (dropRun s e.1) e.1 Code.ownerGone
          if c.d.isGang then endGang s c Code.ownerGone false else s) s
  settled s

/-- CREATE_TENANT (R484). -/
def doCreateTenant (s : State) (r : Request) (t : Nat) (key : DWord) (quota mirror grace : Nat) : State :=
  if r.rsv then refuse s r 1
  else if r.tenant ≠ 0 then refuse s r 4
  else if t = 0 ∨ t ≥ 4096 ∨ grace > 60000 then refuse s r 1
  else if (mget s.obj.tenants t).isSome then refuse s r 2
  else
    let rec_ : Tenant := { key, quota, used := 0, mirror, grace := if grace = 0 then 1000 else grace, dying := none }
    let s := { s with obj := { s.obj with tenants := mset s.obj.tenants t rec_ } }
    let s := { s with srv := { s.srv with acct := mset s.srv.acct t .zero } }
    accept s r 0

def execCreateTenant (r : Request) (tenant : Nat) (key : DWord) (quota mirror grace : Nat) (s : State) :
    Host.Outcome State Fault Refusal :=
  if reqReady s r then .next (doCreateTenant s r tenant key quota mirror grace)
  else .next (park s r.tenant (.createTenant r tenant key quota mirror grace))

/-- References of an object that mappings, commands, queues and other modules hold (R489). -/
def heldRefs (s : State) (h : Nat) : Nat :=
  (s.obj.contexts.map fun c => (c.2.maps.filter fun m => m.remote.isNone && m.handle == h).length).sum
    + (s.cmds.filter fun c => c.2.objs.contains h).length
    + (s.obj.queues.map fun q => (q.2.holds.filter fun x => x == h).length).sum
    + (s.obj.grants.filter fun g => g.handle == h).length

/-- The last of a destroyed tenant: its record and its queue pair go, and the request is answered (R494). -/
def endTenant (s : State) (t : Nat) : State :=
  match mget s.obj.tenants t with
  | none => s
  | some k =>
    match k.dying with
    | none => s
    | some r =>
      if s.obj.contexts.any fun c => c.2.tenant == t then s
      else
        let s := { s with obj := { s.obj with tenants := mdel s.obj.tenants t, qps := mdel s.obj.qps t } }
        accept s r 0

/-- DESTROY_TENANT (R494). -/
def doDestroyTenant (s : State) (r : Request) (t : Nat) : State :=
  if r.rsv then refuse s r 1
  else if r.tenant ≠ 0 then refuse s r 4
  else
    match mget s.obj.tenants t with
    | none => refuse s r 5
    | some k =>
      if k.dying.isSome then refuse s r 6
      else
        let s := modTenant s t fun k => { k with dying := some r }
        let s := (s.obj.objs.filter fun e => e.2.owner == t && e.2.state == .live).foldl
          (fun s e =>
            let n := heldRefs s e.1
            modObj s e.1 fun o => { o with refs := n, state := if n = 0 then .reclaiming else .live }) s
        let s := (s.obj.contexts.filter fun c => c.2.tenant == t && c.2.phase == .live).foldl
          (fun s c => startTeardown s c.1 none) s
        endTenant s t

def execDestroyTenant (r : Request) (tenant : Nat) (s : State) : Host.Outcome State Fault Refusal :=
  if reqReady s r then .next (doDestroyTenant s r tenant) else .next (park s r.tenant (.destroyTenant r tenant))

/-! ### Contexts (R487, R509) -/

/-- CREATE_CONTEXT (R484): an empty device root, no mappings, queues or fences. -/
def doCreateContext (s : State) (r : Request) (hostRoot : Nat) : State :=
  if r.rsv then refuse s r 1
  else
    match freeKey s.obj.contexts 16384 0 with
    | none => refuse s r 2
    | some x =>
      let c : Context := { tenant := r.tenant, hostRoot, deviceRoot := Config.tablePage x 4 0 % 2 ^ 36 * 4096, phase := .live, banned := false, partials := 0, req := none,
                           leaves := [], maps := [] }
      accept { s with obj := { s.obj with contexts := mset s.obj.contexts x c } } r x

def execCreateContext (r : Request) (hostRoot : Nat) (s : State) : Host.Outcome State Fault Refusal :=
  if reqReady s r then .next (doCreateContext s r hostRoot) else .next (park s r.tenant (.createContext r hostRoot))

/-- TEARDOWN_CONTEXT (R509). It is answered when the teardown is complete. -/
def doTeardownContext (s : State) (r : Request) (x : Nat) : State :=
  if r.rsv then refuse s r 1
  else
    match mget s.obj.contexts x with
    | none => refuse s r 5
    | some c =>
      if !mayAct r.tenant c.tenant then refuse s r 4
      else if c.phase ≠ .live then refuse s r 6
      else startTeardown s x (some r)

def execTeardownContext (r : Request) (ctx : Nat) (s : State) : Host.Outcome State Fault Refusal :=
  if reqReady s r then .next (doTeardownContext s r ctx) else .next (park s r.tenant (.teardownContext r ctx))

/-- A descriptor taken names a fence (R508). -/
def fenceNamed (s : State) (i : Nat) : Bool :=
  s.cmds.any fun e => (e.2.d.sigValid && e.2.d.sigFence == i) || e.2.d.waits.any fun w => w.valid && w.fence == i

/-- A fence slot freed, its generation raised (R508). -/
def freeFence (s : State) (i : Nat) : State :=
  modFence s i fun f => { f with live := false, freeing := false, gen := (f.gen + 1) % 65536, shares := [] }

/-- The first grant of a list that a release names is gone. -/
def dropGrant (n ctx i : Nat) : List RemoteGrant → List RemoteGrant
  | [] => []
  | g :: t => if g = ⟨n, ctx, i⟩ then t else g :: dropGrant n ctx i t

def doMapRelease (s : State) (n ctx : Nat) (handle : DWord) : State :=
  let i := handle.toNat % 2 ^ 22
  if s.obj.grants.contains ⟨n, ctx, i⟩ then
    refDec { s with obj := { s.obj with grants := dropGrant n ctx i s.obj.grants } } i
  else s

/-- A release of a remote mapping: sent, or held while the peer is DOWN or RESET (R486); one to this module is done. -/
def sendRelease (s : State) (node ctx : Nat) (handle : DWord) : State :=
  if node = nodeId s then doMapRelease s node ctx handle
  else match (peerOf s node).state with
  | .down | .reset => modPeer s node fun p => { p with releases := p.releases ++ [(ctx, handle)] }
  | _ => sendCtl s node 0 (.mapRelease ctx handle)

/-- Cached translations of a context's range dropped (R333, R342). -/
def dropTrans (s : State) (x va len : Nat) : State :=
  { s with xlt := { s.xlt with cache := s.xlt.cache.filter fun t => !(t.ctx == x && overlaps va len t.va t.size) } }

/-- A mapping removed: its leaves, its cached translations and its reference (R333, R486, R489). -/
def removeMapping (s : State) (x : Nat) (m : Mapping) : State :=
  let s := modCtx s x fun c => { c with leaves := c.leaves.filter fun l => !overlaps m.va m.length l.va l.size,
                                        maps := c.maps.filter fun k => k.va != m.va }
  let s := dropTrans s x m.va m.length
  match m.remote with
  | none => refDec s m.handle
  | some n => sendRelease s n x (BitVec.ofNat 64 m.handle)

/-- The rest of a teardown once every command of the context has ended (R509 steps 5–8). -/
def doTeardownFinish (s : State) (x : Nat) : State :=
  match mget s.obj.contexts x with
  | none => s
  | some c =>
    let s := (s.obj.fences.filter fun f => f.2.ctx == x && f.2.live).foldl
      (fun s f => modFence (fencePoison s f.1 Code.ownerGone) f.1 fun f => { f with freeing := true }) s
    let s := settled s
    let s := { s with xlt := { s.xlt with recs := s.xlt.recs.filter fun e => e.2.ctx != x,
                                          walks := s.xlt.walks.filter fun e => e.2.ctx != x,
                                          cache := s.xlt.cache.filter fun t => t.ctx != x,
                                          upper := s.xlt.upper.filter fun u => u.1.1 != x } }
    let s := c.maps.foldl (fun s m => removeMapping s x m) s
    let qs := s.obj.queues.filter fun q => q.2.ctx == x
    let s := qs.foldl (fun s q =>
      let s := q.2.holds.foldl refDec s
      let s := match q.2.model with
        | none => s
        | some m => { s with srv := { s.srv with seqs := s.srv.seqs.filter fun e => e.2.model != m,
                                                 steps := mdel s.srv.steps m } }
      { s with obj := { s.obj with queues := mdel s.obj.queues q.1 } }) s
    let s := { s with obj := { s.obj with contexts := mdel s.obj.contexts x },
                      sch := { s.sch with ctxCfg := mdel s.sch.ctxCfg x, ctxPin := mdel s.sch.ctxPin x } }
    let s := if c.banned then setReg s Reg.jckBanned 0 (reg s Reg.jckBanned - 1) else s
    let s := match c.req with
      | some r => accept s r c.partials
      | none => s
    endTenant s c.tenant

/-- A context being torn down with no command left (R509). -/
def teardownReady (s : State) (x : Nat) : Bool :=
  (match mget s.obj.contexts x with | some c => c.phase == .tearing | none => false)
    && !(s.cmds.any fun e => e.2.ctx == x)

def execTeardownFinish (ctx : Nat) (s : State) : Host.Outcome State Fault Refusal :=
  if teardownReady s ctx then .next (doTeardownFinish s ctx) else .next s

/-! ### Queues (R495, R510) -/

/-- A ring's place is well formed (R495): a host range within the aperture, or a device-half VA within one IN_PLACE
object. Answers the handle it holds. -/
def ringPlace (s : State) (c : Context) (a : DWord) (n : Nat) (write : Bool) : Option (List Nat) :=
  if a.toNat ≥ 2 ^ 63 then
    if a.toNat % 4096 = 0 ∧ inAperture s (a.toNat % 2 ^ 63) n then some [] else none
  else if a.toNat % 4096 ≠ 0 then none
  else
    match leafFor c.leaves a.toNat, leafFor c.leaves (a.toNat + n - 1) with
    | some l, some l' =>
      match l.back, l'.back with
      | .inPlace _, .inPlace _ =>
        if l.handle = l'.handle ∧ (!write || (l.w && l'.w)) then some [l.handle] else none
      | _, _ => none
    | _, _ => none

/-- CREATE_QUEUE (R484, R495). -/
def doCreateQueue (s : State) (r : Request) (x cls ls lc : Nat) (ring cq : DWord) : State :=
  if r.rsv then refuse s r 1
  else
    match mget s.obj.contexts x with
    | none => refuse s r 5
    | some c =>
      if !mayAct r.tenant c.tenant then refuse s r 4
      else if c.phase ≠ .live then refuse s r 6
      else if cls > 3 ∨ ls < 4 ∨ 16 < ls ∨ lc < 4 ∨ 16 < lc then refuse s r 1
      else
        match ringPlace s c ring (128 * 2 ^ ls) false, ringPlace s c cq (64 * 2 ^ lc) true,
              freeKey s.obj.queues 65536 0 with
        | some h1, some h2, some i =>
          let q : Queue := { ctx := x, cls, log2Slots := ls, log2Cq := lc, ring, cq, tail := 0, taken := 0, reads := [], partial_ := [], buffered := [],
                             cqHead := 0, recsHeld := 0, recs := 0, order := [], stopped := false,
                             destroying := false, model := none, holds := h1 ++ h2 }
          let s := (h1 ++ h2).foldl refInc s
          accept { s with obj := { s.obj with queues := mset s.obj.queues i q } } r i
        | some _, some _, none => refuse s r 2
        | _, _, _ => refuse s r 1

def execCreateQueue (r : Request) (ctx cls log2Slots log2Cq : Nat) (ring cq : DWord) (s : State) :
    Host.Outcome State Fault Refusal :=
  if reqReady s r then .next (doCreateQueue s r ctx cls log2Slots log2Cq ring cq)
  else .next (park s r.tenant (.createQueue r ctx cls log2Slots log2Cq ring cq))

/-- DESTROY_QUEUE (R510): the queue stops; each command taken and not dispatched gets a record OWNER_GONE. -/
def doDestroyQueue (s : State) (r : Request) (i : Nat) : State :=
  if r.rsv then refuse s r 1
  else
    match mget s.obj.queues i with
    | none => refuse s r 5
    | some q =>
      let owner := ((mget s.obj.contexts q.ctx).map Context.tenant).getD 0
      if !mayAct r.tenant owner then refuse s r 4
      else if q.destroying then refuse s r 6
      else
        let s := modQueue s i fun q => { q with stopped := true, destroying := true, reads := [], partial_ := [], buffered := [] }
        let s := (s.cmds.filter fun e => e.2.queue == i && e.2.undispatched).foldl
          (fun s e => endUndispatched s e.1 Code.ownerGone) s
        accept (settled s) r 0

def execDestroyQueue (r : Request) (queue : Nat) (s : State) : Host.Outcome State Fault Refusal :=
  if reqReady s r then .next (doDestroyQueue s r queue) else .next (park s r.tenant (.destroyQueue r queue))

/-- A destroyed queue whose last record has been written (R510). -/
def queueFreeReady (s : State) (i : Nat) : Bool :=
  (match mget s.obj.queues i with | some q => q.destroying | none => false)
    && !(s.cmds.any fun e => e.2.queue == i)

def doQueueFree (s : State) (i : Nat) : State :=
  match mget s.obj.queues i with
  | none => s
  | some q =>
    let s := q.holds.foldl refDec s
    { s with obj := { s.obj with queues := mdel s.obj.queues i } }

def execQueueFree (queue : Nat) (s : State) : Host.Outcome State Fault Refusal :=
  if queueFreeReady s queue then .next (doQueueFree s queue) else .next s

/-! ### Fence requests (R504–R508) -/

/-- The first fence slot that is not LIVE and not being freed. -/
def freeFenceSlot (fs : NMap Fence) : Nat → Nat → Option Nat
  | 0, _ => none
  | n + 1, k => if (match mget fs k with | some f => f.live | none => false : Bool) then freeFenceSlot fs n (k + 1) else some k

/-- CREATE_FENCE (R484, R503). -/
def doCreateFence (s : State) (r : Request) (x mirror initial : Nat) : State :=
  if r.rsv then refuse s r 1
  else
    match mget s.obj.contexts x with
    | none => refuse s r 5
    | some c =>
      if !mayAct r.tenant c.tenant then refuse s r 4
      else if c.phase ≠ .live then refuse s r 6
      else if mirror > 1 ∨ initial ≥ 2 ^ 63 then refuse s r 1
      else
        match freeFenceSlot s.obj.fences 1048576 0 with
        | none => refuse s r 2
        | some i =>
          let gen := ((mget s.obj.fences i).map Fence.gen).getD 0
          let f : Fence := { value := initial, poison := 0, ctx := x, mirror := mirror == 1, live := true,
                             tenant := c.tenant, gen, shares := [], freeing := false }
          accept (mirrorFence { s with obj := { s.obj with fences := mset s.obj.fences i f } } i) r i

def execCreateFence (r : Request) (ctx mirror initial : Nat) (s : State) : Host.Outcome State Fault Refusal :=
  if reqReady s r then .next (doCreateFence s r ctx mirror initial) else .next (park s r.tenant (.createFence r ctx mirror initial))

/-- The LIVE fence a request names. -/
def liveFence (s : State) (i : Nat) : Option Fence :=
  match mget s.obj.fences i with
  | some f => if f.live ∧ !f.freeing then some f else none
  | none => none

/-- A tenant may name a fence in waits and signals (R481, R508). -/
def fenceUsable (f : Fence) (t : Nat) : Bool := mayAct t f.tenant || f.shares.contains t

/-- DESTROY_FENCE (R508): poisoned with OWNER_GONE, freed once no taken descriptor names it. -/
def doDestroyFence (s : State) (r : Request) (i : Nat) : State :=
  if r.rsv then refuse s r 1
  else
    match liveFence s i with
    | none => refuse s r 5
    | some f =>
      if !mayAct r.tenant f.tenant then refuse s r 4
      else
        let s := modFence (fencePoison s i Code.ownerGone) i fun f => { f with freeing := true }
        accept (settled s) r 0

def execDestroyFence (r : Request) (fence : Nat) (s : State) : Host.Outcome State Fault Refusal :=
  if reqReady s r then .next (doDestroyFence s r fence) else .next (park s r.tenant (.destroyFence r fence))

def fenceFreeReady (s : State) (i : Nat) : Bool :=
  (match mget s.obj.fences i with | some f => f.live && f.freeing | none => false) && !fenceNamed s i

def execFenceSlotFree (fence : Nat) (s : State) : Host.Outcome State Fault Refusal :=
  if fenceFreeReady s fence then .next (freeFence s fence) else .next s

/-- SIGNAL_FENCE (R484, R504): answered with the value before the signal. -/
def doSignalFence (s : State) (r : Request) (i v : Nat) : State :=
  if r.rsv then refuse s r 1
  else
    match liveFence s i with
    | none => refuse s r 5
    | some f =>
      if !fenceUsable f r.tenant then refuse s r 4
      else accept (settled (fenceSignal s i v)) r f.value

def execSignalFence (r : Request) (fence value : Nat) (s : State) : Host.Outcome State Fault Refusal :=
  if reqReady s r then .next (doSignalFence s r fence value) else .next (park s r.tenant (.signalFence r fence value))

/-- POISON_FENCE (R484, R504, R505). -/
def doPoisonFence (s : State) (r : Request) (i code : Nat) : State :=
  if r.rsv ∨ code = 0 ∨ code ≥ 65536 then refuse s r 1
  else
    match liveFence s i with
    | none => refuse s r 5
    | some f =>
      if !fenceUsable f r.tenant then refuse s r 4
      else accept (settled (fencePoison s i code)) r 0

def execPoisonFence (r : Request) (fence code : Nat) (s : State) : Host.Outcome State Fault Refusal :=
  if reqReady s r then .next (doPoisonFence s r fence code) else .next (park s r.tenant (.poisonFence r fence code))

/-- SHARE_FENCE (R484, R508). -/
def doShareFence (s : State) (r : Request) (i t : Nat) : State :=
  if r.rsv ∨ t ≥ 4096 then refuse s r 1
  else
    match liveFence s i with
    | none => refuse s r 5
    | some f =>
      if !mayAct r.tenant f.tenant then refuse s r 4
      else accept (modFence s i fun f => { f with shares := t :: f.shares.filter fun x => x != t }) r 0

def execShareFence (r : Request) (fence tenant : Nat) (s : State) : Host.Outcome State Fault Refusal :=
  if reqReady s r then .next (doShareFence s r fence tenant) else .next (park s r.tenant (.shareFence r fence tenant))

/-! ### Objects (R276, R277, R485) -/

/-- The first handle index whose entry is FREE. -/
def freeHandle (os : NMap MemObj) : Nat → Nat → Option Nat
  | 0, _ => none
  | n + 1, k =>
    if (match mget os k with | some o => o.state != .free | none => false : Bool) then freeHandle os n (k + 1) else some k

/-- HBM an object occupies: its size in whole 4 KiB pages, twice for a SHADOWED one (R277). -/
def objBytes (kind size : Nat) : Nat := (if kind = 1 then 2 else 1) * (ceilDiv size 4096 * 4096)

/-- The bytes of an object that its owner's QUOTA is charged (R485): its frames, and its device-table pages and extent
records (assumption 44). -/
def quotaBytes (i gen kind size : Nat) : Nat := objBytes kind size + Config.recordBytes i gen kind size

/-- The regions of the commit overlay table in use, in entries. -/
def cotRegions (s : State) : List (Nat × Nat) :=
  (s.obj.objs.filter fun e => e.2.state != .free && e.2.kind == 1).map fun e => (e.2.cot, e.2.size / 65536)

/-- A charge of n more bytes would pass the tenant's QUOTA (R484, R485). -/
def overQuota (s : State) (tenant n : Nat) : Bool :=
  match mget s.obj.tenants tenant with
  | some t => decide (t.quota < t.used + n)
  | none => false

/-- CREATE_OBJECT (R277, R484, R485, R489): REFS = 1. -/
def doCreateObject (s : State) (r : Request) (kind size : Nat) : State :=
  if r.rsv ∨ kind > 2 ∨ size = 0 ∨ (kind ≠ 0 ∧ size % 65536 ≠ 0) then refuse s r 1
  else if overQuota s r.tenant (objBytes kind size) then refuse s r 3
  else
    let need := objBytes kind size
    match freeHandle s.obj.objs 4194304 0, firstFit (usedRegions s) softBase (softEnd s) need (objAlign size),
          (if kind = 1 then firstFit (cotRegions s) 0 8388608 (size / 65536) 1 else some 0) with
    | some i, some a, some cot =>
      let gen := ((mget s.obj.objs i).map MemObj.gen).getD 0
      let charge := quotaBytes i gen kind size
      if overQuota s r.tenant charge then refuse s r 3
      else
        let o : MemObj := { gen, state := .live, kind, owner := r.tenant, refs := 1, size, base0 := a,
                            base1 := if kind = 1 then a + need / 2 else 0, cot, shares := [] }
        let s := { s with obj := { s.obj with objs := mset s.obj.objs i o } }
        let s := modTenant s r.tenant fun t => { t with used := t.used + charge }
        accept s r (handleOf i o)
    | _, _, _ => refuse s r 2

def execCreateObject (r : Request) (kind size : Nat) (s : State) : Host.Outcome State Fault Refusal :=
  if reqReady s r then .next (doCreateObject s r kind size) else .next (park s r.tenant (.createObject r kind size))

/-- How a byte of an object is backed (R328). -/
def objBacking (o : MemObj) (off : Nat) : Backing :=
  if o.kind = 1 then .shadowed (o.cot * 65536 + off)
  else if o.kind = 2 then .channel (o.base0 + off)
  else .inPlace (o.base0 + off)

/-- MAP_OBJECT (R484, R485, R489). -/
def doMapObject (s : State) (r : Request) (h : DWord) (x w nx va off len : Nat) : State :=
  if r.rsv ∨ w > 1 ∨ nx > 1 then refuse s r 1
  else
    match mget s.obj.contexts x, handleLookup s h with
    | none, _ => refuse s r 5
    | _, none => refuse s r 5
    | some c, some (i, o) =>
      if !mayAct r.tenant c.tenant then refuse s r 4
      else if !(if w = 1 then mayWrite o r.tenant else mayRead o r.tenant) then refuse s r 4
      else if c.phase ≠ .live then refuse s r 6
      else
        let g := mapGrain o.kind
        if len = 0 ∨ va % g ≠ 0 ∨ off % g ≠ 0 ∨ len % g ≠ 0 ∨ !inDeviceHalf va len
            ∨ objBytes 0 o.size < off + len ∨ !mapFree c va len then refuse s r 1
        else if !refCanInc o then refuse s r 5
        else
          let m : Mapping := { va, length := len, offset := off, handle := i, remote := none, w := w == 1, nx := nx == 1,
                               removing := false }
          let ls := mkLeaves (len / 4096) va len (objBacking o off) (w == 1) (nx == 1) i
          let s := refInc s i
          accept (modCtx s x fun c => { c with maps := m :: c.maps, leaves := ls ++ c.leaves }) r 0

def execMapObject (r : Request) (handle : DWord) (ctx w nx va offset length : Nat) (s : State) :
    Host.Outcome State Fault Refusal :=
  if reqReady s r then .next (doMapObject s r handle ctx w nx va offset length)
  else .next (park s r.tenant (.mapObject r handle ctx w nx va offset length))

/-- UNMAP (R333, R484): the mappings that the range covers whole take leave once nothing pins them. -/
def doUnmap (s : State) (r : Request) (x va len : Nat) : State :=
  if r.rsv ∨ len = 0 ∨ va % 4096 ≠ 0 ∨ len % 4096 ≠ 0 ∨ !inDeviceHalf va len then refuse s r 1
  else
    match mget s.obj.contexts x with
    | none => refuse s r 5
    | some c =>
      if !mayAct r.tenant c.tenant then refuse s r 4
      else
        let hit := c.maps.filter fun m => overlaps va len m.va m.length && !m.removing
        if hit.isEmpty then refuse s r 5
        else if hit.any fun m => decide (m.va < va ∨ va + len < m.va + m.length) then refuse s r 1
        else
          let mark (m : Mapping) : Mapping := if overlaps va len m.va m.length then { m with removing := true } else m
          accept (modCtx s x fun c => { c with maps := c.maps.map mark }) r 0

def execUnmap (r : Request) (ctx va length : Nat) (s : State) : Host.Outcome State Fault Refusal :=
  if reqReady s r then .next (doUnmap s r ctx va length) else .next (park s r.tenant (.unmap r ctx va length))

/-- A mapping pinned by the range list of a command that is queued or running (R333). -/
def pinned (s : State) (x : Nat) (m : Mapping) : Bool :=
  s.xlt.ranges.any fun e =>
    (match cmdOf s e.1 with | some c => c.ctx == x | none => false)
      && e.2.any fun p => overlaps m.va m.length p.page p.size

def unmapReady (s : State) (x va : Nat) : Bool :=
  match mget s.obj.contexts x with
  | none => false
  | some c => c.maps.any fun m => m.va == va && m.removing && !pinned s x m

def doUnmapEffect (s : State) (x va : Nat) : State :=
  match mget s.obj.contexts x with
  | none => s
  | some c => (c.maps.filter fun m => m.va == va && m.removing).foldl (fun s m => removeMapping s x m) s

def execUnmapTakesEffect (ctx va : Nat) (s : State) : Host.Outcome State Fault Refusal :=
  if unmapReady s ctx va then .next (doUnmapEffect s ctx va) else .next s

/-- SHARE_OBJECT (R484, R485). -/
def doShareObject (s : State) (r : Request) (h : DWord) (t : Nat) : State :=
  if r.rsv ∨ t ≥ 4096 then refuse s r 1
  else
    match handleLookup s h with
    | none => refuse s r 5
    | some (i, o) =>
      if !mayAct r.tenant o.owner then refuse s r 4
      else accept (modObj s i fun o =>
        { o with shares := (t, r.tenant == o.owner || shareOf o t == some true) :: o.shares.filter fun e => e.1 != t }) r 0

def execShareObject (r : Request) (handle : DWord) (tenant : Nat) (s : State) : Host.Outcome State Fault Refusal :=
  if reqReady s r then .next (doShareObject s r handle tenant) else .next (park s r.tenant (.shareObject r handle tenant))

/-! ### Remote mappings (R486) -/

/-- The answer to a map request: a refusal's reason, or the range's place at this module with one more reference. -/
def mapGrant (s : State) (n tenant ctx : Nat) (handle : DWord) (off len kind : Nat) (w : Bool) : MapGrant × State :=
  match handleLookup s handle with
  | none => (⟨false, 5, 0⟩, s)
  | some (i, o) =>
    let g := mapGrain kind
    if o.kind ≠ kind ∨ len = 0 ∨ off % g ≠ 0 ∨ len % g ≠ 0 ∨ objBytes 0 o.size < off + len then (⟨false, 1, 0⟩, s)
    else if !(if w then mayWrite o tenant else mayRead o tenant) then (⟨false, 4, 0⟩, s)
    else if !refCanInc o then (⟨false, 5, 0⟩, s)
    else
      let s := refInc s i
      (⟨true, 0, (objBacking o off).addr⟩, { s with obj := { s.obj with grants := s.obj.grants ++ [⟨n, ctx, i⟩] } })

/-- The owner's answer to the oldest request to it: FAB leaves, or the reason. A grant that comes too late, or whose context
is going, is given back. -/
def doMapAnswer (s : State) (n : Nat) (g : MapGrant) : State :=
  match s.obj.mapReqs.find? fun q => q.node == n with
  | none => s
  | some q =>
    let s := { s with obj := { s.obj with mapReqs := s.obj.mapReqs.erase q } }
    let live : Bool := match mget s.obj.contexts q.ctx with
      | some c => c.phase == .live && mapFree c q.va q.length
      | none => false
    if q.late ∨ (g.ok ∧ !live) then
      let s := if g.ok then sendRelease s n q.ctx q.remote else s
      if q.late then s else refuse s q.req 6
    else if !g.ok then refuse s q.req g.reason
    else
      let i := q.remote.toNat
      let m : Mapping := { va := q.va, length := q.length, offset := q.offset, handle := i, remote := some n, w := q.w,
                           nx := q.nx, removing := false }
      let ls := mkLeaves (q.length / 4096) q.va q.length (.fab n q.kind g.base) q.w q.nx i
      accept (modCtx s q.ctx fun c => { c with maps := m :: c.maps, leaves := ls ++ c.leaves }) q.req 0

/-- A map request goes to a peer of the table that is UP; toward an UNVERIFIED one it is the pair's first use and waits for
the verification (R392, R407, R486). -/
def mapAsks (s : State) (n : Nat) : Bool :=
  (topoEntry s n).isSome && ((peerOf s n).state == .up || (peerOf s n).state == .unverified)

/-- MAP_REMOTE (R486 step 1): a map request on CTL to the owner's module. A range of this module is answered at once. -/
def doMapRemote (s : State) (r : Request) (x node kind w nx va : Nat) (remote : DWord) (len off : Nat) : State :=
  if r.rsv ∨ w > 1 ∨ nx > 1 ∨ kind > 2 then refuse s r 1
  else
    match mget s.obj.contexts x with
    | none => refuse s r 5
    | some c =>
      let g := mapGrain kind
      if !mayAct r.tenant c.tenant then refuse s r 4
      else if c.phase ≠ .live then refuse s r 6
      else if len = 0 ∨ va % g ≠ 0 ∨ off % g ≠ 0 ∨ len % g ≠ 0 ∨ !inDeviceHalf va len ∨ !mapFree c va len then
        refuse s r 1
      else
        let q : RemoteMapReq := { req := r, ctx := x, node, kind, w := w == 1, nx := nx == 1, va, remote,
                                  length := len, offset := off, since := s.now, late := false }
        let asked := { s with obj := { s.obj with mapReqs := s.obj.mapReqs ++ [q] } }
        if node = nodeId s then
          let g := mapGrant asked node r.tenant x remote off len kind (w == 1)
          doMapAnswer g.2 node g.1
        else if mapAsks s node then sendCtl asked node 0 (.mapRequest r.tenant x remote off len kind (w == 1))
        else refuse s r 7

def execMapRemote (r : Request) (ctx node kind w nx va : Nat) (remote : DWord) (length offset : Nat) (s : State) :
    Host.Outcome State Fault Refusal :=
  if reqReady s r then .next (doMapRemote s r ctx node kind w nx va remote length offset)
  else .next (park s r.tenant (.mapRemote r ctx node kind w nx va remote length offset))

/-- The owner has not answered within 1 ms (R486). -/
def mapRemoteLate (s : State) (node : Nat) : Bool :=
  s.obj.mapReqs.any fun q => q.node == node && !q.late && since s q.since (msec 1)

/-- The request is answered; an answer that still comes is known as late. -/
def doMapRemoteTimeout (s : State) (node : Nat) : State :=
  match s.obj.mapReqs.find? fun q => q.node == node && !q.late with
  | none => s
  | some q =>
    let mark (k : RemoteMapReq) : RemoteMapReq := if k = q then { k with late := true } else k
    refuse { s with obj := { s.obj with mapReqs := s.obj.mapReqs.map mark } } q.req 7

def execMapRemoteTimeout (node : Nat) (s : State) : Host.Outcome State Fault Refusal :=
  if mapRemoteLate s node then .next (doMapRemoteTimeout s node) else .next s

/-! ### The reference-count region (R490, R493) -/

/-- The entries of `n` handles as a tenant reads them: those of others read as 0 (R490). -/
def refcountBytes (s : State) (t : Nat) : Nat → Nat → List Byte
  | 0, _ => []
  | n + 1, i =>
    let v := match mget s.obj.objs i with
      | some o => if mayAct t o.owner then objEntry o else 0
      | none => 0
    leBytes 8 v ++ refcountBytes s t n (i + 1)

/-- A host access that the port serves: the queue pair is up, the module ready, and nothing earlier is left. -/
def hostReady (s : State) (t : Nat) : Bool := qpUp s t && s.boot.ready && !qpHeld s t

/-- An access behind something that waits at its queue pair waits too (R456). -/
def parkBehind (s : State) (t : Nat) (c : FwCall) : State := if s.boot.ready && qpHeld s t then park s t c else s

/-- An RDMA READ of entries (R490). -/
def doRefcountRead (s : State) (t i n : Nat) : State :=
  if i + n ≤ 4194304 ∧ 0 < n then emit s (.readData t (refcountBytes s t n i)) else nakAccess s t

def execRefcountRead (tenant index count : Nat) (s : State) : Host.Outcome State Fault Refusal :=
  if hostReady s tenant then .next (doRefcountRead s tenant index count)
  else .next (parkBehind s tenant (.refcountRead index count))

/-- Fetch-and-Add of ±1 on REFS (R489, R490); an add not performed logs OBJ_REF_INVALID. -/
def doRefcountFetchAdd (s : State) (t i : Nat) (add : DWord) : State :=
  let none' : MemObj := { gen := 0, state := .free, kind := 0, owner := 0, refs := 0, size := 0, base0 := 0, base1 := 0,
                          cot := 0, shares := [] }
  let o := (mget s.obj.objs i).getD none'
  let may := mayAct t o.owner && decide (i < 4194304)
  let old := if may then objEntry o else 0
  let s := emit s (.atomicData t (BitVec.ofNat 64 old))
  if may ∧ add = 1 ∧ refCanInc o then refInc s i
  else if may ∧ add = BitVec.allOnes 64 ∧ o.state = .live ∧ 0 < o.refs then refDec s i
  else errWrite s { errBase s Code.objRefInvalid 0 (pgId pgHPT) with tenant := t, addr := i }

def execRefcountFetchAdd (tenant index : Nat) (add : DWord) (s : State) : Host.Outcome State Fault Refusal :=
  if hostReady s tenant then .next (doRefcountFetchAdd s tenant index add)
  else .next (parkBehind s tenant (.refcountAdd index add))

/-- Compare-and-Swap is never performed (R490). -/
def doRefcountCas (s : State) (t i : Nat) : State :=
  let old := match mget s.obj.objs i with
    | some o => if mayAct t o.owner then objEntry o else 0
    | none => 0
  let s := emit s (.atomicData t (BitVec.ofNat 64 old))
  errWrite s { errBase s Code.objRefInvalid 0 (pgId pgHPT) with tenant := t, addr := i }

def execRefcountCas (tenant index : Nat) (s : State) : Host.Outcome State Fault Refusal :=
  if hostReady s tenant then .next (doRefcountCas s tenant index)
  else .next (parkBehind s tenant (.refcountCas index))

/-- An RDMA WRITE to the region is answered with a Remote Access Error NAK (R490). -/
def execRefcountWrite (tenant _index : Nat) (s : State) : Host.Outcome State Fault Refusal :=
  if hostReady s tenant then .next (nakAccess s tenant) else .next (parkBehind s tenant .refcountWrite)

/-- Every pair of a SHADOWED object has left HELD, and nothing owns one (R493). -/
def pairsQuiet (s : State) (o : MemObj) : Bool :=
  o.kind != 1 || !(s.com.pairs.any fun e =>
    decide (o.cot ≤ e.1 ∧ e.1 < o.cot + o.size / 65536) && e.2.state != .idle)

def reclaimReady (s : State) (h : Nat) : Bool :=
  match mget s.obj.objs h with
  | some o => o.state == .reclaiming && pairsQuiet s o
  | none => false

/-- The bytes of a region set to zero: nothing listed there. -/
def zeroRegion (s : State) (a n : Nat) : State :=
  { s with mem := s.mem.filter fun c => !decide (a ≤ c.1 ∧ c.1 < a + n),
           poison := s.poison.filter fun x => !decide (a ≤ x ∧ x < a + n) }

/-- Reclaiming ends (R493): zeros in every frame, bytes back to the quota, the entry FREE with its generation raised. -/
def doReclaimDone (s : State) (h : Nat) : State :=
  match mget s.obj.objs h with
  | none => s
  | some o =>
    let n := objBytes 0 o.size
    let s := zeroRegion s o.base0 n
    let s := if o.kind = 1 then zeroRegion s o.base1 n else s
    let s := if o.kind = 1 then
        let ps := s.com.pairs.filter fun e => !decide (o.cot ≤ e.1 ∧ e.1 < o.cot + o.size / 65536)
        { s with com := { s.com with pairs := ps } }
      else s
    let s := modTenant s o.owner fun t => { t with used := t.used - quotaBytes h o.gen o.kind o.size }
    modObj s h fun o => { o with state := .free, gen := (o.gen + 1) % 65536, refs := 0, shares := [] }

def execReclaimDone (handle : Nat) (s : State) : Host.Outcome State Fault Refusal :=
  if reclaimReady s handle then .next (doReclaimDone s handle) else .next s

/-! ### The object region (R491, R492) -/

/-- The physical address at which the host reads or writes a byte of an object: the current frame of a SHADOWED one
(R287). -/
def objPa (s : State) (o : MemObj) (off : Nat) : Nat :=
  if o.kind = 1 then
    match pairOf s (o.cot + off / 65536) with
    | some p => p.current + off % 65536
    | none => o.base0 + off
  else o.base0 + off

/-- The bytes of an object's range. -/
def objBytesAt (s : State) (o : MemObj) : Nat → Nat → List Byte
  | 0, _ => []
  | n + 1, off => rd8 s (objPa s o off) :: objBytesAt s o n (off + 1)

/-- Bytes stored into an object's range. -/
def putObj (s : State) (o : MemObj) (off : Nat) : List Byte → State
  | [] => s
  | b :: t => putObj (wrBytes s (objPa s o off) [b]) o (off + 1) t

/-- Every pair of a range is IDLE (R287). -/
def rangeIdle (s : State) (o : MemObj) (off len : Nat) : Bool :=
  o.kind != 1 || !(s.com.pairs.any fun e =>
    decide (o.cot + off / 65536 ≤ e.1 ∧ e.1 ≤ o.cot + (off + len - 1) / 65536) && e.2.state != .idle)

/-- The mask of `n` bytes from an offset on. -/
def maskAt (off n : Nat) : BitVec 128 := BitVec.ofNat 128 ((2 ^ n - 1) * 2 ^ off)

/-- The stack whose slice and channel own a physical address (R243, R352). -/
def sliceIdx (s : State) (pa : Nat) : Nat := (channelOf s pa).1

/-- The mask of a slice's merging-buffer entries of a line. -/
def heldMask (s : State) (line : Nat) : BitVec 128 :=
  ((sliceOf s (sliceIdx s line)).mbuf.filter fun e => e.line == line).foldl (fun m e => m ||| e.mask) 0

/-- The merging buffer of the owning slice holds every byte of a sector: a read of it takes nothing from the stack. -/
def heldWhole (s : State) (a : Nat) : Bool :=
  let m := maskAt (a % 128) 32
  (heldMask s (lineOf a) &&& m) == m

/-- A whole write of a sector is on its way to its channel: in the slice or in the controller's queue. -/
def rewritten (s : State) (a : Nat) : Bool :=
  let m := maskAt (a % 128) 32
  let c := channelOf s a
  heldWhole s a || (chanOf s c.1 c.2).queue.any fun o => match o with
    | .write l x _ => decide (l = lineOf a) && x &&& m == m
    | _ => false

/-- The sectors of a range that a read gets whole from the merging buffer. -/
def ownSectors (s : State) (as : List Nat) : List Nat := as.filter (heldWhole s)

/-- The first event is latched in HBS_ERRLOG (R385). -/
def hbsLatch (s : State) (st ch kind code addr : Nat) (scrub : Bool) : State :=
  if reg s Reg.hbsErrlog st ≥ 2 ^ 31 then s
  else
    let v := 2 ^ 31 + (if scrub then 2 ^ 30 else 0) + kind * 2 ^ 24 + ch * 2 ^ 16 + code
    setReg (setReg s Reg.hbsErrlog st v) Reg.hbsErraddr st (sectorOf addr)

/-- A poisoned sector has been accessed (R364, R385). -/
def notePoisoned (s : State) (a : Nat) : State :=
  let c := channelOf s a
  hbsLatch (pgErr s (pgHBS c.1) Code.memPoisoned) c.1 c.2 4 Code.memPoisoned a false

/-- The first poisoned sector of a range (R364). -/
def poisonedAt (s : State) (o : MemObj) (off len : Nat) : Option Nat :=
  if s.poison.isEmpty then none
  else ((List.range (len / 32 + 2)).map fun k => sectorOf (objPa s o (min (off + 32 * k) (off + len - 1)))).find? fun a =>
    isPoisoned s a && !rewritten s a

/-- A sector of the range is poisoned (R364). -/
def rangePoisoned (s : State) (o : MemObj) (off len : Nat) : Bool := (poisonedAt s o off len).isSome

/-- The access to a poisoned sector of the range is latched (R385). -/
def noteRange (s : State) (o : MemObj) (off len : Nat) : State :=
  match poisonedAt s o off len with
  | some a => notePoisoned s a
  | none => s

/-- The object an access names: LIVE, with the range inside it (R491). -/
def objRange (s : State) (h off len : Nat) : Option MemObj :=
  match mget s.obj.objs h with
  | some o => if o.state = .live ∧ off + len ≤ o.size then some o else none
  | none => none

/-- Bytes the host moves for a tenant (R492). -/
def chargeTenant (s : State) (t n : Nat) : State := modAcct s t fun a => { a with hbm := a.hbm + n, host := a.host + n }

def doObjectRead (s : State) (t h off len : Nat) : State :=
  if len = 0 ∨ 2 ^ 31 < len then nakInvalid s t
  else
    match objRange s h off len with
    | none => nakAccess s t
    | some o =>
      if !mayRead o t then nakAccess s t
      else if rangePoisoned s o off len then nakAccess (noteRange s o off len) t
      else chargeTenant (emit s (.readData t (objBytesAt s o len off))) t len

def execObjectRdmaRead (tenant handle offset length : Nat) (s : State) : Host.Outcome State Fault Refusal :=
  if hostReady s tenant then .next (doObjectRead s tenant handle offset length)
  else .next (parkBehind s tenant (.objectRead handle offset length))

/-- The sector at `x` lies whole in the range `[a, a + n)` of the 64 KiB of an object that start at `base`, of which it is
the part at offset `at_`. -/
def sectorIn (base at_ a n x : Nat) : Bool :=
  decide (base ≤ x ∧ x < base + 65536 ∧ a ≤ at_ + (x - base) ∧ at_ + (x - base) + 32 ≤ a + n)

/-- The poison of the sectors that a write covers whole is cleared (R364), of a SHADOWED object in its current frames. -/
def clearPoison (s : State) (o : MemObj) (off n : Nat) : State :=
  let covered (x : Nat) : Bool :=
    if o.kind = 1 then
      (List.range (n / 65536 + 2)).any fun k => sectorIn (objPa s o (off / 65536 * 65536 + 65536 * k))
        (off / 65536 * 65536 + 65536 * k) off n x
    else decide (o.base0 + off ≤ x ∧ x + 32 ≤ o.base0 + off + n)
  { s with poison := s.poison.filter fun x => !covered x }

/-- A host WRITE: into the current frame of IDLE pairs, else an RNR NAK (R287). -/
def doObjectWrite (s : State) (t h off : Nat) (d : List Byte) : State :=
  if d.isEmpty then nakInvalid s t
  else
    match objRange s h off d.length with
    | none => nakAccess s t
    | some o =>
      if !mayWrite o t then nakAccess s t
      else if !rangeIdle s o off d.length then emit (incReg s Reg.hptNaks 0) (.nakRnr t)
      else
        let s := clearPoison (putObj s o off d) o off d.length
        let s := noteRange s o off d.length
        chargeTenant (emit s (.ack t)) t d.length

def execObjectRdmaWrite (tenant handle offset : Nat) (data : List Byte) (s : State) :
    Host.Outcome State Fault Refusal :=
  if hostReady s tenant then .next (doObjectWrite s tenant handle offset data)
  else .next (parkBehind s tenant (.objectWrite handle offset data))

/-- A host ATOMIC: ADD.I64 or CAS.64 on the reducer of the owning channel (R491). -/
def doObjectAtomic (s : State) (t h off : Nat) (cas : Bool) (opnd cmp : DWord) : State :=
  if off % 8 ≠ 0 then nakInvalid s t
  else
    match objRange s h off 8 with
    | none => nakAccess s t
    | some o =>
      if !mayWrite o t then nakAccess s t
      else if rangePoisoned s o off 8 then nakAccess (noteRange s o off 8) t
      else if !rangeIdle s o off 8 then emit (incReg s Reg.hptNaks 0) (.nakRnr t)
      else
        let old := BitVec.ofNat 64 (fromLe (objBytesAt s o 8 off))
        let new := if cas then (if old = cmp then opnd else old) else old + opnd
        let s := pmcEvent s (pgHBS (channelOf s (objPa s o off)).1) 0x0100 1 none
        let s := putObj s o off (leBytes 8 new.toNat)
        chargeTenant (emit s (.atomicData t old)) t 8

def execObjectRdmaAtomic (tenant handle offset : Nat) (cas : Bool) (opnd cmp : DWord) (s : State) :
    Host.Outcome State Fault Refusal :=
  if hostReady s tenant then .next (doObjectAtomic s tenant handle offset cas opnd cmp)
  else .next (parkBehind s tenant (.objectAtomic handle offset cas opnd cmp))

end Sys2Proof.Machine
end

