-- ==== Sys2Proof/Machine/Commit.lean ====
section
/-! DEFINITION. Frame pairs, commit and gangs (07): acquisition, the frame copy, the commit point and its
acknowledgments, HELD pairs, gangs.
Assumption log: DEDUCED 42, 60, 121, 131. -/

namespace Sys2Proof.Machine

/-! ### Readiness (R292, R434, R505, R517) -/

/-- The command is the head of its queue's undispatched commands (R292, R517). -/
def isHead (s : State) (i : Nat) (c : Cmd) : Bool :=
  c.seq.isSome ||
  match mget s.obj.queues c.queue with
  | some q => q.order.head? == some i
  | none => false

/-- All of a command's waits are satisfied (R505). -/
def waitsMet (s : State) (c : Cmd) : Bool := c.d.waits.all (waitSatisfied s)

/-- Every claim of a command (R291, R295), in the order of acquisition: by node, then by frame pair (R292). -/
def insertClaim (c : Claim) : List Claim → List Claim
  | [] => [c]
  | x :: t =>
    if c.node < x.node ∨ (c.node = x.node ∧ c.pair < x.pair) then c :: x :: t
    else if c.node = x.node ∧ c.pair = x.pair then { x with whole := x.whole && c.whole } :: t
    else x :: insertClaim c t

def sortClaims : List Claim → List Claim
  | [] => []
  | c :: t => insertClaim c (sortClaims t)

def claimsOf (c : Cmd) : List Claim := sortClaims (c.claims ++ c.extra)

/-- The next claim not yet held (R292). -/
def nextClaim (c : Cmd) : Option Claim :=
  (claimsOf c).find? fun k => !(c.got.any fun g => g.node == k.node && g.pair == k.pair)

/-- A command that acquires, or may begin to: translated, waits satisfied, head of its queue (R292). -/
def mayAcquire (s : State) (i : Nat) (c : Cmd) : Bool :=
  alive s && (c.phase == .waiting || c.phase == .acquiring) && waitsMet s c && isHead s i c && !c.d.isGang

/-- Whether this waiter is the first of a pair's waiters, or none waits (R292). -/
def firstInLine (p : Pair) (node tag : Nat) : Bool :=
  match p.waiters with
  | [] => true
  | w :: _ => w.node == node && w.tag == tag

/-- A waiter set at the end of a pair's line, once. -/
def enlist (p : Pair) (w : Waiter) : Pair :=
  if p.waiters.any fun x => x.node == w.node && x.tag == w.tag then p else { p with waiters := p.waiters ++ [w] }

/-- The pair given to a waiter. -/
def giveTo (p : Pair) (node tag : Nat) (whole : Bool) : Pair :=
  { p.given node tag whole with waiters := p.waiters.filter fun x => !(x.node == node && x.tag == tag) }

/-- A tag for a command that begins to acquire, if the pool has one (R290). -/
def ensureTag (s : State) (i : Nat) (c : Cmd) : Option (Nat × State) :=
  match c.tag with
  | some t => some (t, s)
  | none =>
    match takeTag s with
    | some (t, s) => some (t, modCmd s i fun c => { c with tag := some t })
    | none => none

/-- The command after one more claim is held; READY once it holds them all (R517). -/
def gotClaim (s : State) (i : Nat) (k : Claim) : State :=
  modCmd s i fun c =>
    let c := { c with got := c.got ++ [k], asked := none, phase := .acquiring }
    if (nextClaim c).isNone then { c with phase := .ready } else c

/-- Acquisition of the next pair (R292): a local one when it is IDLE and the command first in line; a remote one by a
CLAIM to its module, once. Where a pair is not IDLE the command begins to wait. -/
def acquireNext (s : State) (i : Nat) (c : Cmd) : State :=
  match ensureTag s i c with
  | none => s
  | some (tag, s) =>
    match nextClaim c with
    | none => modCmd s i fun c => { c with phase := .ready }
    | some k =>
      let me := nodeId s
      if k.node = me then
        match pairOf s k.pair with
        | none => modCmd s i fun c => { c with phase := .acquiring }
        | some p =>
          if p.state = .idle ∧ firstInLine p me tag then gotClaim (setPair s k.pair (giveTo p me tag k.whole)) i k
          else modCmd (setPair s k.pair (enlist p ⟨me, me, tag, k.whole⟩)) i fun c => { c with phase := .acquiring }
      else if c.asked = some k then s
      else
        let s := sendCtl s k.node tag (.claim k.pair k.whole me tag)
        modCmd s i fun c => { c with phase := .acquiring, asked := some k }

/-! ### Gangs (R309–R314) -/

/-- The gang's next claim not yet held, in the order of R292. -/
def gangNext (g : Gang) : Option GangClaim :=
  let order := sortClaims (g.claims.map GangClaim.claim)
  let left := order.find? fun k => !(g.held.any fun h => h.claim.node == k.node && h.claim.pair == k.pair)
  match left with
  | none => none
  | some k => g.claims.find? fun c => c.claim.node == k.node && c.claim.pair == k.pair

def modGang (s : State) (i : Nat) (f : Gang → Gang) : State :=
  { s with com := { s.com with gangs := mmod s.com.gangs i f } }

/-- The CHANNEL memory that a member's ranges reach: the module that holds it and an address there (R309, R328). -/
def chansOf (s : State) (c : Cmd) : List (Nat × Nat) :=
  let leaves := ((mget s.obj.contexts c.ctx).map Context.leaves).getD []
  (leaves.filterMap fun l =>
    if c.d.ranges.any fun r => decide (r.va < l.va + l.size ∧ l.va < r.va + r.length) then
      match l.back with
      | .channel pa => some (nodeId s, pa)
      | .fab n k a => if k = 2 then some (n, a) else none
      | _ => none
    else none).eraseDups

/-- The CHANNEL object that holds an address of this module. -/
def chanObjAt (s : State) (a : Nat) : Option MemObj :=
  (s.obj.objs.find? fun e => e.2.state != .free && e.2.kind == 2 && decide (e.2.base0 ≤ a ∧ a < e.2.base0 + objBytes 0 e.2.size)).map
    Prod.snd

/-- Every byte of the CHANNEL objects of a gang that this module holds, zeroed (R310). -/
def zeroChannels (s : State) (chans : List (Nat × Nat)) : State :=
  let os := ((chans.filter fun c => c.1 == nodeId s).filterMap fun c => chanObjAt s c.2).eraseDups
  os.foldl (fun s o => zeroRegion s o.base0 (objBytes 0 o.size)) s

/-- A gang has started and not ended: a member here has not completed. -/
def gangRuns (s : State) (g : Gang) : Bool :=
  (g.phase == .started || g.phase == .go) && g.members.any fun i => (cmdOf s i).isSome

/-- No other gang that runs here is bound to a CHANNEL object of this one (R309). -/
def chansFree (s : State) (gang : Nat) (g : Gang) : Bool :=
  let same (a b : Nat × Nat) : Bool :=
    a == b || (a.1 == b.1 && a.1 == nodeId s && (chanObjAt s a.2).isSome && chanObjAt s a.2 == chanObjAt s b.2)
  !(s.com.gangs.any fun e => e.1 != gang && gangRuns s e.2 && e.2.chans.any fun a => g.chans.any (same a))

/-- The local members of a gang may be dispatched (R310). -/
def startMembers (s : State) (gang : Nat) (replays : Bool) (chans : List (Nat × Nat)) : State :=
  match mget s.com.gangs gang with
  | none => s
  | some g =>
    let s := { s with com := { s.com with gangGo := s.com.gangGo.filter fun x => x != gang } }
    let s := g.members.foldl (fun s i => modCmd s i fun c => { c with phase := .ready }) s
    modGang s gang fun g => { g with phase := .started, replays, chans }

/-- Once the leader owns every claimed pair, and no other gang is bound to a CHANNEL object of this one, it grants the start to all
members (R309, R310); every module that holds such an object zero-fills it. -/
def gangTryStart (s : State) (gang : Nat) : State :=
  match mget s.com.gangs gang with
  | none => s
  | some g =>
    if g.phase = .acquiring ∧ (gangNext g).isNone ∧ chansFree s gang g then
      let s := startMembers (zeroChannels s g.chans) gang g.replays g.chans
      let nodes := (g.arrived.map Prod.fst ++ g.chans.map Prod.fst).eraseDups.filter fun n => n != nodeId s
      nodes.foldl (fun s n => sendCtl s n 0 (.gangStart gang g.replays g.chans)) s
    else s

/-- The leader holds one more claim. -/
def gangGot (s : State) (gang : Nat) (k : GangClaim) : State :=
  gangTryStart (modGang s gang fun g => { g with held := k :: g.held, asked := false }) gang

/-- The leader acquires the next pair of the union of the members' claims (R310). -/
def gangAcquire (s : State) (gang : Nat) : State :=
  match mget s.com.gangs gang with
  | none => s
  | some g =>
    match gangNext g with
    | none => gangTryStart s gang
    | some k =>
      let me := nodeId s
      if k.claim.node = me then
        match pairOf s k.claim.pair with
        | none => s
        | some p =>
          if p.state = .idle ∧ firstInLine p k.node k.tag then
            gangGot (setPair s k.claim.pair (giveTo p k.node k.tag k.claim.whole)) gang k
          else setPair s k.claim.pair (enlist p ⟨me, k.node, k.tag, k.claim.whole⟩)
      else if g.asked then s
      else
        let s := sendCtl s k.claim.node k.tag (.claim k.claim.pair k.claim.whole k.node k.tag)
        modGang s gang fun g => { g with asked := true }

/-- The gang whose acquisition a member's event drives: this module leads it and it is acquiring. -/
def leadsAcquiring (s : State) (c : Cmd) : Bool :=
  c.d.isGang &&
  match mget s.com.gangs c.d.gangId with
  | some g => g.leader == nodeId s && g.phase == .acquiring
  | none => false

def pairAcquireReady (s : State) (i : Nat) : Bool :=
  match cmdOf s i with
  | none => false
  | some c => mayAcquire s i c || leadsAcquiring s c

def doPairAcquire (s : State) (i : Nat) : State :=
  match cmdOf s i with
  | none => s
  | some c => if c.d.isGang then gangAcquire s c.d.gangId else acquireNext s i c

/-- The gang ID is remembered as ended for 60 s (R311). -/
def gangRemember (s : State) (gang : Nat) : State :=
  { s with com := { s.com with endedGangs := (gang, s.now) :: s.com.endedGangs.filter fun e => e.1 != gang } }

/-- Local members of a gang that has not started complete with a code (R311). -/
def failMembers (s : State) (gang code : Nat) : State :=
  match mget s.com.gangs gang with
  | none => s
  | some g =>
    let s := g.members.foldl (fun s i => endUndispatched s i code) s
    settled { s with com := { s.com with gangs := mdel s.com.gangs gang } }

/-- The leader ends a gang before its start (R311): it releases what it has acquired, every reported member completes
with the code, and the gang ID is remembered. -/
def gangAbandon (s : State) (gang code : Nat) : State :=
  match mget s.com.gangs gang with
  | none => s
  | some g =>
    let s := g.arrived.foldl (fun s a => dropWaiter (discardTag s a.1 a.2) a.1 a.2) s
    let me := nodeId s
    let next := if g.asked then (gangNext g).toList else []
    let far := (g.held ++ next).filter fun h => h.claim.node != me && h.node != me
    let s := far.foldl (fun s h => sendCtl s h.claim.node h.tag (.discardFor h.node)) s
    let nodes := (g.arrived.map Prod.fst).eraseDups.filter fun n => n != nodeId s
    let s := nodes.foldl (fun s n => sendCtl s n 0 (.gangEnd gang code)) s
    failMembers (gangRemember s gang) gang code

/-- A gang under way; one past its commit point makes room for the next submission of its ID. -/
def freshGang (s : State) (gang : Nat) (g0 : Gang) : Gang :=
  match mget s.com.gangs gang with
  | some g => if g.phase = .go then g0 else g
  | none => g0

/-- ARRIVED of one member at the leader (R309, R310, R311). -/
def gangArrive (s : State) (gang node tag count leader wait : Nat) (claims : List Claim) (replays : Bool)
    (chans : List (Nat × Nat)) (local_ : Option Nat) : State :=
  if s.com.endedGangs.any fun e => e.1 == gang then
    match local_ with
    | some i => settled (endUndispatched s i Code.gangIncomplete)
    | none => sendCtl s node tag (.gangEnd gang Code.gangIncomplete)
  else
    let w := if wait = 0 then 10000 else wait
    let g0 : Gang := { count, leader, wait := w, phase := .gathering, members := [], arrived := [], claims := [], held := [],
                       asked := false, ready := [], since := s.now, replays := true, chans := [] }
    let g := freshGang s gang g0
    let mine : List Nat := match local_ with | some i => [i] | none => []
    let cs := claims.map fun c => (⟨c, node, tag⟩ : GangClaim)
    let g' := { g with members := g.members ++ mine, arrived := g.arrived ++ [(node, tag)], claims := g.claims ++ cs,
                       replays := g.replays && replays, chans := (g.chans ++ chans).eraseDups }
    let s := { s with com := { s.com with gangs := mset s.com.gangs gang g' } }
    if g.count ≠ count ∨ g.leader ≠ leader ∨ g.wait ≠ w then gangAbandon s gang Code.descInvalid
    else if g'.arrived.length = count then gangTryStart (modGang s gang fun g => { g with phase := .acquiring }) gang
    else s

/-- A gang member whose waits, place and translations let it report ARRIVED (R310). -/
def memberReady (s : State) (i : Nat) : Bool :=
  match cmdOf s i with
  | some c => c.d.isGang && c.phase == .waiting && waitsMet s c && isHead s i c
  | none => false

/-- A member's writes are only to SHADOWED objects, scratchpad and CHANNEL objects (R313). -/
def gangReplayable (s : State) (c : Cmd) : Bool :=
  c.d.ranges.all fun r => !r.w ||
    match (mget s.obj.contexts c.ctx).bind fun x => leafFor x.leaves r.va with
    | some l => match l.back with
      | .inPlace _ => false
      | .fab _ k _ => k != 0
      | _ => true
    | none => false

def doGangMemberReady (s : State) (i : Nat) : State :=
  match cmdOf s i with
  | none => s
  | some c =>
    match ensureTag s i c with
    | none => s
    | some (tag, s) =>
      let s := modCmd s i fun c => { c with phase := .acquiring }
      let rep := gangReplayable s c
      if c.d.gangLeader = nodeId s then
        gangArrive s c.d.gangId (nodeId s) tag c.d.gangMembers c.d.gangLeader c.d.gangWait (claimsOf c) rep (chansOf s c) (some i)
      else
        let g0 : Gang := { count := c.d.gangMembers, leader := c.d.gangLeader, wait := c.d.gangWait, phase := .gathering,
                           members := [], arrived := [], claims := [], held := [], asked := false, ready := [],
                           since := s.now, replays := rep, chans := [] }
        let g := freshGang s c.d.gangId g0
        let s := { s with com := { s.com with gangs := mset s.com.gangs c.d.gangId { g with members := g.members ++ [i] } } }
        sendCtl s c.d.gangLeader tag
          (.gangArrived c.d.gangId c.d.gangMembers c.d.gangLeader c.d.gangWait (claimsOf c) rep (chansOf s c))

def execGangMemberReady (cmd : Nat) (s : State) : Host.Outcome State Fault Refusal :=
  if memberReady s cmd then .next (doGangMemberReady s cmd) else .next s

/-- GANG_WAIT has passed since the first ARRIVED and the gang has not started (R311). -/
def gangWaitOver (s : State) (gang : Nat) : Bool :=
  match mget s.com.gangs gang with
  | some g => g.leader == nodeId s && (g.phase == .gathering || g.phase == .acquiring) && since s g.since (msec g.wait)
  | none => false

def execGangWaitExpire (gang : Nat) (s : State) : Host.Outcome State Fault Refusal :=
  if gangWaitOver s gang then .next (gangAbandon s gang Code.gangIncomplete) else .next s

/-- An ended gang's ID is forgotten after 60 s (R311). -/
def execGangMemoryExpire (gang : Nat) (s : State) : Host.Outcome State Fault Refusal :=
  if s.com.endedGangs.any fun e => e.1 == gang && since s e.2 (sec 60) then
    .next { s with com := { s.com with endedGangs := s.com.endedGangs.filter fun e => e.1 != gang } }
  else .next s

/-! ### The frame copy (R293) -/

/-- The cells of one region moved onto another, whose own cells go. -/
def copyCells (m : List Host.Cell) (src dst n : Nat) : List Host.Cell :=
  (m.filter fun c => decide (src ≤ c.1 ∧ c.1 < src + n)).foldl (fun acc c => memPut acc (c.1 - src + dst) c.2)
    (m.filter fun c => !decide (dst ≤ c.1 ∧ c.1 < dst + n))

/-- The command that owns a local pair. -/
def ownerCmd (s : State) (p : Pair) : Option Nat :=
  if p.node = nodeId s then (s.cmds.find? fun e => e.2.tag == some p.tag).map Prod.fst else none

/-- The owner's write to a pair (R288, R293, R294, R295): the first write of a pair not write-whole starts the copy. -/
def touchPair (s : State) (idx : Nat) : State :=
  modPair s idx fun p =>
    if p.touched then p
    else if p.whole then { p with touched := true }
    else { p with touched := true, copying := some s.now }

/-! ### Commit (R297–R303) -/

/-- Every group of the command has been launched and has ended, and none of its array or mover work is left. -/
def workDone (s : State) (i : Nat) (c : Cmd) : Bool :=
  c.liveGroups == 0 && c.nextGroup == ceilDiv c.d.threads 32 &&
  c.cores.all fun k =>
    let core := coreOf s k
    !(core.groups.any fun g => g.2.cmd == i) && !(core.arr.queue.any fun q => q.cmd == i)
      && !(core.launched.any fun m => m.cmd == i) && !(core.movers.any fun m => m.2.cmd == i)

/-- Every write has been performed at its slice or has entered an egress, every atomic has been performed (R297). -/
def writesDrained (s : State) (i : Nat) (c : Cmd) : Bool :=
  c.cores.all (fun k => !((coreOf s k).mbuf.any fun e => e.2.cmd == i)) && !(s.ms.atoms.any fun a => a.2.cmd == i)

/-- A command that has ended normally (the preamble of 07): it runs, its work is done and no fault has ended it. -/
def endedNormally (s : State) (i : Nat) : Bool :=
  match cmdOf s i with
  | some c => c.phase == .running && workDone s i c && writesDrained s i c && !c.trapped
  | none => false

/-- The gang's GO has been given, for a member (R312). -/
def goGiven (s : State) (c : Cmd) : Bool := !c.d.isGang || s.com.gangGo.contains c.d.gangId

/-- A commit record whose destinations have all answered closes and its tag returns to the pool (R290). -/
def closeRecord (s : State) (tag : Nat) : State :=
  match mget s.com.recs tag with
  | none => s
  | some r =>
    if r.signaled ∧ r.dests.all fun d => d.2 == .acked || d.2 == .expired then
      tagsFree { s with com := { s.com with recs := mdel s.com.recs tag } } tag
    else s

/-- A write or an atomic of the command has not been performed at its peer, as far as PERF tells. -/
def farWriting (s : State) (i : Nat) : Bool :=
  let mine (b : Blk) : Bool := b.cmd == some i
  (s.fab.peers.any fun p => p.2.unperf.any (fun u => mine u.blk) || p.2.waitingSend.any mine)
    || s.fab.ports.any fun p => p.2.ord.any mine

/-- The fence may signal (R297 step 5): local flips done, every destination has acknowledged, every host write
acknowledged (R287), every write at a peer performed, so that whoever is placed after the signal sees it (R279; DEDUCED, log entry 121).
After COMMIT_LOST the record closes with its last acknowledgment (R290). -/
def commitTry (s : State) (tag : Nat) : State :=
  match mget s.com.recs tag with
  | none => s
  | some r =>
    let quiet : Bool := match cmdOf s r.cmd with
      | some _ => !hostWriting s r.cmd && !farWriting s r.cmd
      | none => true
    if r.signaled then closeRecord s tag
    else if r.commit ∧ quiet ∧ r.dests.all fun d => d.2 == .acked then
      let s := { s with com := { s.com with recs := mset s.com.recs tag { r with signaled := true } } }
      settled (finish (closeRecord s tag) r.cmd 0)
    else s

/-- Every commit record tried again. -/
def commitAll (s : State) : State := (s.com.recs.map Prod.fst).foldl commitTry s

/-- The commit point and what follows at once (R297 steps 2–4). -/
def commitNow (s : State) (i : Nat) (c : Cmd) : State :=
  let me := nodeId s
  let tag := c.tag.getD 0
  let nodes := cmdNodes s c
  let r : CommitRec := { commit := true, cmd := i, cmdId := c.d.cmdId,
                         fence := if c.d.sigValid then some (c.d.sigFence, c.d.sigValue) else none,
                         dests := nodes.map fun n => (n, .queued), opened := s.now, signaled := false }
  let s := { s with com := { s.com with recs := mset s.com.recs tag r } }
  let s := modCmd s i fun c => { c with phase := .committing }
  let s := flipTag s me tag
  let s := nodes.foldl (fun s n => sendCtl s n tag (.commit 0)) s
  let s := modPeersActive s nodes
  commitTry (unitProgress s 2) tag
where
  /-- Pairs with commit records toward them are active (R404). -/
  modPeersActive (s : State) (ns : List Nat) : State :=
    ns.foldl (fun s n => modPeer s n fun p => { p with lastActive := s.now }) s

/-- READY of a member at the leader; GO once every member has reported (R312). -/
def gangReadyAt (s : State) (gang node tag : Nat) : State :=
  match mget s.com.gangs gang with
  | none => s
  | some g =>
    let g := { g with ready := if g.ready.contains (node, tag) then g.ready else (node, tag) :: g.ready }
    let s := modGang s gang fun _ => g
    if g.ready.length = g.count then
      let s := modGang s gang fun g => { g with phase := .go }
      let s := { s with com := { s.com with gangGo := gang :: s.com.gangGo } }
      let nodes := (g.arrived.map Prod.fst).eraseDups.filter fun n => n != nodeId s
      nodes.foldl (fun s n => sendCtl s n 0 (.gangGo gang)) s
    else s

/-- Local members past GO commit (R312). -/
def gangCommitLocal (s : State) (gang : Nat) : State :=
  match mget s.com.gangs gang with
  | none => s
  | some g => g.members.foldl (fun s i =>
      match cmdOf s i with
      | some c => if endedNormally s i then commitNow s i c else s
      | none => s) s

/-- The command's normal end: a gang member reports READY and waits for GO, any other command commits (R297, R312). -/
def doCommitPoint (s : State) (i : Nat) : State :=
  match cmdOf s i with
  | none => s
  | some c =>
    if goGiven s c then commitNow s i c
    else if c.readySent then s
    else
      let s := modCmd s i fun c => { c with readySent := true }
      if c.d.gangLeader = nodeId s then
        let s := gangReadyAt s c.d.gangId (nodeId s) (c.tag.getD 0)
        if s.com.gangGo.contains c.d.gangId then gangCommitLocal s c.d.gangId else s
      else sendCtl s c.d.gangLeader (c.tag.getD 0) (.gangReady c.d.gangId)

/-- A command that has run to its end after an INV result under a captured trap (R197). -/
def endedTrapped (s : State) (i : Nat) : Bool :=
  match cmdOf s i with
  | some c => c.phase == .running && workDone s i c && writesDrained s i c && c.trapped
  | none => false

/-- The page that a command's trap is recorded for: the first of its cores. -/
def trapPage (s : State) (i : Nat) : Nat := pgMXA (((cmdOf s i).bind fun c => c.cores.head?).getD 0)

def execCommitPoint (cmd : Nat) (s : State) : Host.Outcome State Fault Refusal :=
  if endedNormally s cmd then .next (doCommitPoint s cmd)
  else if endedTrapped s cmd then .next (failCmd s cmd Code.mxaInvalidTrap (trapPage s cmd) 0)
  else .next s

/-- The state of a token toward a destination. -/
def destSt (s : State) (tag node : Nat) : Option DestSt :=
  match mget s.com.recs tag with
  | some r => aget r.dests node
  | none => none

def setDest (s : State) (tag node : Nat) (d : DestSt) : State :=
  { s with com := { s.com with recs := mmod s.com.recs tag fun r => { r with dests := aset r.dests node d } } }

/-- A COMMIT token is out toward a destination and not answered. -/
def commitAckReady (s : State) (tag node : Nat) : Bool :=
  (match mget s.com.recs tag with | some r => r.commit | none => false) &&
  match destSt s tag node with
  | some .queued | some (.sent _) | some .lost => true
  | _ => false

/-- A destination's acknowledgment (R297, R303): a late one is logged. -/
def doCommitAck (s : State) (tag node : Nat) : State :=
  match destSt s tag node with
  | some .lost => closeRecord (logPeer (setDest s tag node .acked) Code.commitLate pgSCH node tag) tag
  | _ => commitTry (setDest s tag node .acked) tag

/-- 10 µs since the first transmission of the token without an acknowledgment (R303, R400). -/
def commitAckLate (s : State) (tag node : Nat) : Bool :=
  (match mget s.com.recs tag with | some r => r.commit | none => false) &&
  match destSt s tag node with
  | some (.sent t) => since s t (usec 10)
  | _ => false

/-- The command of a commit record ends with COMMIT_LOST (R303); the flips stand. -/
def commitLose (s : State) (tag : Nat) : State :=
  match mget s.com.recs tag with
  | none => s
  | some r =>
    if r.signaled then s
    else
      let s := { s with com := { s.com with recs := mset s.com.recs tag { r with signaled := true } } }
      let s := match cmdOf s r.cmd with
        | some c => logCmdEnd s c Code.commitLost pgSCH 0 tag
        | none => s
      settled (finish s r.cmd Code.commitLost)

def execCommitAckTimeout (tag node : Nat) (s : State) : Host.Outcome State Fault Refusal :=
  if commitAckLate s tag node then .next (commitLose (setDest s tag node .lost) tag) else .next s

/-- A record has awaited a peer that has been DOWN or RESET for 60 s (R290). -/
def recordExpired (s : State) (tag node : Nat) : Bool :=
  (match destSt s tag node with
   | some .queued | some (.sent _) | some .lost => true
   | _ => false) &&
  match (peerOf s node).lostAt with
  | some t => since s t (sec 60)
  | none => false

/-- The tag returns to the pool, the record closes; COMMIT_EXPIRED is logged for a commit record (R290). -/
def doRecordExpire (s : State) (tag node : Nat) : State :=
  let commit : Bool := (mget s.com.recs tag).any CommitRec.commit
  let s := if commit then logPeer (commitLose s tag) Code.commitExpired pgSCH node tag else s
  tagsFree { s with com := { s.com with recs := mdel s.com.recs tag } } tag

def execCommitRecordExpire (tag node : Nat) (s : State) : Host.Outcome State Fault Refusal :=
  if recordExpired s tag node then .next (doRecordExpire s tag node) else .next s

/-! ### HELD pairs (R301, R302) -/

/-- The tags of a node whose token has arrived and is being carried out (R298, R301). -/
def tokenTags (s : State) (node : Nat) : List Nat :=
  (peerOf s node).ingress.filterMap fun b => match b.msg with
    | .commit _ | .discard _ => some b.hdr.tag
    | _ => none

/-- The pairs that commands of a node own and have not begun to commit, set HELD (R301, R302). -/
def holdPairs (s : State) (node : Nat) : State :=
  let kept := tokenTags s node
  let hold (p : Pair) : Pair :=
    if p.node = node ∧ p.state = .owned ∧ !kept.contains p.tag then { p with state := .held } else p
  modPeer { s with com := { s.com with pairs := s.com.pairs.map fun e => (e.1, hold e.2) } } node fun p =>
    { p with heldSince := some s.now }

/-- The tags of a node's HELD pairs. -/
def heldTags (s : State) (node : Nat) : List Nat :=
  ((s.com.pairs.filter fun e => e.2.state == .held && e.2.node == node).map fun e => e.2.tag).eraseDups

/-- Every HELD pair of a node discarded; the tags are kept for the next REJOIN_ACK (R301, R302). -/
def discardHeld (s : State) (node : Nat) : State :=
  let tags := heldTags s node
  let s := tags.foldl (fun s t => discardTag s node t) s
  modPeer s node fun p => { p with discardedTags := p.discardedTags ++ tags }

/-- 1 s since the peer was lost (R301), or where this module's warm reset left the pairs HELD since it became ready again
(R302). -/
def heldExpired (s : State) (node : Nat) : Bool :=
  !(heldTags s node).isEmpty &&
  match (peerOf s node).heldSince with
  | some t => since s t (sec 1)
  | none => false

def execHeldPairExpire (node : Nat) (s : State) : Host.Outcome State Fault Refusal :=
  if heldExpired s node then .next (discardHeld s node) else .next s

/-! ### What tokens and gang messages do where they arrive; the blocks themselves are in Fabric.lean -/

/-- A claim that arrives (R291, R292, R301): granted when the pair is IDLE and none waits, else in line. -/
def claimArrive (s : State) (asker : Nat) (c : ClaimReq) : State :=
  match pairOf s c.pair with
  | none => s
  | some p =>
    if p.state = .idle ∧ p.waiters.isEmpty then
      sendCtl (setPair s c.pair (p.given c.owner c.tag c.whole)) asker c.tag (.claimGranted c.pair)
    else setPair s c.pair (enlist p ⟨asker, c.owner, c.tag, c.whole⟩)

/-- A COMMIT token whose blocks have all arrived (R298): flips, releases, acknowledges. -/
def commitArrive (s : State) (node tag : Nat) : State := sendCtl (flipTag s node tag) node tag .commitAck

/-- A DISCARD token (R304). -/
def discardArrive (s : State) (node tag : Nat) : State :=
  sendCtl (dropWaiter (discardTag s node tag) node tag) node tag .discardAck

/-- The DISCARD of a gang's leader for pairs that it acquired for another module's member (R311): their own module's
DISCARD is the one acknowledged. -/
def discardForArrive (s : State) (owner tag : Nat) : State := dropWaiter (discardTag s owner tag) owner tag

/-- A DISCARD acknowledged; when all have, the tag returns to the pool (R290, R304). -/
def discardAckReady (s : State) (tag node : Nat) : Bool :=
  (match mget s.com.recs tag with | some r => !r.commit | none => false) &&
  match destSt s tag node with
  | some .queued | some (.sent _) => true
  | _ => false

/-- A gang known here that has not reached its commit point (R313). -/
def gangLive (s : State) (gang : Nat) : Bool :=
  match mget s.com.gangs gang with
  | some g => g.phase != .go
  | none => false

/-- Members learn that the gang has ended (R311, R313): not started, they complete with the code; started, they stop and
discard their pairs. The leader, told by a member's module, tells the others. -/
def doGangEnd (s : State) (gang code : Nat) : State :=
  match mget s.com.gangs gang with
  | none => s
  | some g =>
    let s := if g.leader = nodeId s then tellGangEnd s gang code else s
    if g.phase = .started then settled (endGangLocal s gang (if code = 0 then Code.gangIncomplete else code) (code == 0))
    else failMembers s gang (if code = 0 then Code.gangIncomplete else code)

end Sys2Proof.Machine
end

