-- ==== Sys2Proof/Machine/Xlt.lean ====
section
/-! DEFINITION. Address translation (08): walks, cached translations, host fault records, the invalidation ring.
Assumption log: DESIGN CHOICE 44; DEDUCED 51. -/

namespace Sys2Proof.Machine

/-! ### Page-table entries of the host (R323, R324, R347) -/

/-- The fields of a host table format (R347). -/
structure HostFmt where
  levels : Nat
  pbit : Nat
  wbit : Nat
  wpol : Nat
  nxbit : Nat
  lbit : Nat
  lpol : Nat
  pahi : Nat
  deriving DecidableEq, Repr

/-- The format that XLT_FMT selects: layout A, layout B or the fields (R324). -/
def fmtOf (v : Nat) : HostFmt :=
  let levels := if bitsOf v 60 60 = 1 then 5 else 4
  match bitsOf v 63 62 with
  | 1 => ⟨levels, 0, 5, 1, 6, 9, 1, 50⟩
  | 2 => ⟨levels, 63, 61, 0, 60, 62, 0, 47⟩
  | _ => ⟨levels, bitsOf v 59 54, bitsOf v 53 48, bitsOf v 47 47, bitsOf v 46 41, bitsOf v 40 35, bitsOf v 34 34,
          bitsOf v 27 22⟩

def hostFmt (s : State) : HostFmt := fmtOf (reg s Reg.xltFmt)

/-- The physical address in an entry: bits [PAHI:12], at the same positions (R323). -/
def HostFmt.pa (f : HostFmt) (e : Nat) : Nat := bitsOf e f.pahi 12 * 4096

def HostFmt.present (f : HostFmt) (e : Nat) : Bool := bitsOf e f.pbit f.pbit == 1
def HostFmt.isLeaf (f : HostFmt) (level e : Nat) : Bool :=
  level == 0 || ((level == 1 || level == 2) && bitsOf e f.lbit f.lbit == f.lpol)
def HostFmt.writable (f : HostFmt) (e : Nat) : Bool := bitsOf e f.wbit f.wbit == f.wpol
def HostFmt.noExec (f : HostFmt) (e : Nat) : Bool := bitsOf e f.nxbit f.nxbit == 1

/-- The page size of a leaf at a level: 4 KiB, 2 MiB, 1 GiB. -/
def levelSize (level : Nat) : Nat := 4096 * 512 ^ level

/-- The address of the entry that a walk reads at a level of a table. -/
def entryAddr (table level va : Nat) : Nat := table + 8 * (va / levelSize level % 512)

/-! ### Device tables (R326–R329) -/

/-- An entry of a device table (R327). -/
structure DevEntry where
  p    : Bool
  w    : Bool
  nx   : Bool
  kind : Nat
  leaf : Bool
  fab  : Bool
  addr : Nat
  node : Nat
  deriving DecidableEq, Repr

def devEntry (e : Nat) : DevEntry :=
  { p := e.testBit 0, w := e.testBit 1, nx := e.testBit 2, kind := bitsOf e 6 5, leaf := e.testBit 7, fab := e.testBit 8,
    addr := bitsOf e 47 12 * 4096, node := bitsOf e 63 48 }

/-- What a leaf's ADDR, KIND, FAB and NODE lead to (R328). -/
def DevEntry.back (e : DevEntry) : Backing :=
  if e.fab then .fab e.node e.kind e.addr
  else match e.kind with
    | 0 => .inPlace e.addr
    | 1 => .shadowed e.addr
    | _ => .channel e.addr

/-- The word of a leaf that firmware writes. -/
def leafWord (l : Leaf) (level : Nat) : Nat :=
  let b (x : Bool) (k : Nat) : Nat := if x then 2 ^ k else 0
  let parts : Nat × Nat × Nat × Nat := match l.back with
    | .inPlace a => (0, 0, 0, a)
    | .shadowed a => (0, 0, 1, a)
    | .channel a => (0, 0, 2, a)
    | .fab n k a => (n, 1, k, a)
  1 + b l.w 1 + b l.nx 2 + parts.2.2.1 % 4 * 32 + b (level != 0) 7 + parts.2.1 * 256
    + parts.2.2.2 / 4096 % 2 ^ 36 * 4096 + parts.1 % 65536 * 2 ^ 48

/-- The physical address of the table of a level in which the entry of a VA stands (R326, R329): the model leaves it to
firmware. -/
def tableAddr (ctx level va : Nat) : Nat := Config.tablePage ctx level (va / (levelSize level * 512)) % 2 ^ 36 * 4096

/-- The entry of a VA at a level of a context's device tables, as firmware keeps them: a leaf, a pointer to the next table
where a leaf stands below it, or not present. -/
def tableEntry (c : Context) (x level va : Nat) : Nat :=
  let n := levelSize level
  match c.leaves.find? fun l => l.size == n && l.va / n == va / n with
  | some l => leafWord l level
  | none =>
    if c.leaves.any fun l => decide (l.size < n) && l.va / n == va / n then 1 + tableAddr x (level - 1) va else 0

/-! ### Looking up a translation (R318–R322, R331, R332) -/

def isHostVa (va : Nat) : Bool := va / 2 ^ 56 % 2 == 1

/-- What a translation finds: the translation, that a walk is needed, or that the access ends its command. -/
inductive XRes where
  | ok (t : Trans)
  | walk
  | bad (code : Nat)
  deriving DecidableEq, Repr

/-- The translation permits the access (R330). -/
def Trans.permits (t : Trans) (a : Access) : Bool :=
  match a with
  | .read => true
  | .write => t.w
  | .fetch => !t.nx

/-- The code of a denied access (R330). -/
def deniedCode (a : Access) : Nat :=
  match a with
  | .read => Code.xltNotPresent
  | .write => Code.xltWriteDenied
  | .fetch => Code.xltExecDenied

/-- A host VA that no host mapping can reach (R320). -/
def hostUnreachable (s : State) (ctx va : Nat) : Bool :=
  (match mget s.obj.contexts ctx with | some c => c.hostRoot == 0 | none => true)
    || ((hostFmt s).levels == 4 && va / 2 ^ 47 % 512 != 0)

def Trans.covers (t : Trans) (ctx va : Nat) : Bool := t.ctx == ctx && decide (t.va ≤ va ∧ va < t.va + t.size)

/-- The translation of an address for an access of a command (R331, R332): from its range list, from a cached
translation, else by a walk. A device-half permission failure is final (R334). -/
def xlate (s : State) (ctx cmd va : Nat) (a : Access) : XRes :=
  let listed := match aget s.xlt.ranges cmd with
    | some ps => (ps.filterMap RangePage.tr).find? fun (t : Trans) => t.covers ctx va && t.permits a
    | none => none
  match listed with
  | some t => .ok t
  | none =>
    match s.xlt.cache.find? (fun (t : Trans) => t.covers ctx va) with
    | some t =>
      if t.permits a then .ok t
      else if isHostVa va then .walk
      else .bad (deniedCode a)
    | none => if isHostVa va && hostUnreachable s ctx va then .bad Code.xltNotPresent else .walk

/-- Bytes from an address of a translation on, as a target (R276, R328). A FAB entry that names this module is local. -/
def Trans.target (s : State) (t : Trans) (va : Nat) : Tgt :=
  let off := va - t.va
  match t.back with
  | .inr p => .host (p + off)
  | .inl (.inPlace p) => .hbm (p + off)
  | .inl (.channel p) => .hbm (p + off)
  | .inl (.shadowed o) => .pair ((o + off) / 65536) ((o + off) % 65536)
  | .inl (.fab n k a) =>
    if n = nodeId s then
      (if k = 1 then .pair ((a + off) / 65536) ((a + off) % 65536) else .hbm (a + off))
    else .fab n (k == 1) (a + off)

/-- An access of `n` bytes reaches its target: in host memory, through the aperture (R322). -/
def tgtOk (s : State) (n : Nat) : Tgt → Bool
  | .host p => inAperture s p n
  | _ => true

/-- The kind of the object behind a translation: 0 IN_PLACE, 1 SHADOWED, 2 CHANNEL, 3 host (R276). -/
def Trans.kind (t : Trans) : Nat :=
  match t.back with
  | .inr _ => 3
  | .inl (.inPlace _) => 0
  | .inl (.channel _) => 2
  | .inl (.shadowed _) => 1
  | .inl (.fab _ k _) => k

/-! ### Walks (R323, R326, R331) -/

def deviceWalks (s : State) : Nat := (s.xlt.walks.filter fun w => !w.2.host).length
def hostWalks (s : State) : Nat := (s.xlt.walks.filter fun w => w.2.host).length

/-- Room for one more walk (R331). -/
def walkRoom (s : State) (host : Bool) : Bool := if host then hostWalks s < 256 else deviceWalks s < 64

/-- The key of the table that the entry of a VA at a level stands in. -/
def upperKey (ctx level va : Nat) : Nat × Nat × Nat := (ctx, level, va / (levelSize level * 512))

/-- The deepest cached table of a walk, with its level (R331): from level 3, whose table's address an entry of the top level
gives, down to `n`. -/
def upperFor (s : State) (ctx va : Nat) : Nat → Option (Nat × Nat)
  | 0 => none
  | n + 1 =>
    let k := 3 - n
    match aget s.xlt.upper (upperKey ctx k va) with
    | some t => some (k, t)
    | none => upperFor s ctx va n

/-- Where a walk from the root begins (R321). -/
def walkRoot (s : State) (ctx va : Nat) : Nat × Nat :=
  let c := mget s.obj.contexts ctx
  if isHostVa va then ((hostFmt s).levels - 1, (c.map Context.hostRoot).getD 0) else (4, (c.map Context.deviceRoot).getD 0)

/-- The tenant that owns a context. -/
def ctxTenant (s : State) (ctx : Nat) : Nat := ((mget s.obj.contexts ctx).map Context.tenant).getD 0

/-- A walk is in progress for a page and an access. -/
def walkFor (s : State) (ctx page : Nat) (a : Access) : Option (Nat × Walk) :=
  s.xlt.walks.find? fun e => e.2.ctx == ctx && e.2.va == page && e.2.acc == a

/-- A walk of a page can begin, or one is in progress that the waiter can join (R331). -/
def canWalk (s : State) (ctx page : Nat) (a : Access) : Bool := walkRoom s (isHostVa page) || (walkFor s ctx page a).isSome

/-- A group that waits for a page goes on once no page is left that it waits for. One that is parked stays so (R335). -/
def wakeGroup (s : State) (core slot cmd page : Nat) : State :=
  modGroup s core slot fun g =>
    if g.cmd = cmd then
      match g.wait with
      | .walk ps => if (ps.filter fun p => p != page).isEmpty then { g with wait := .none }
                    else { g with wait := .walk (ps.filter fun p => p != page) }
      | _ => g
    else g

/-- A parked group goes on with a response (R335). -/
def unparkGroup (s : State) (core slot cmd rec : Nat) : State :=
  modGroup s core slot fun g => if g.cmd = cmd ∧ g.wait = .parked rec then { g with wait := .none } else g

/-- A page of a command's range list filled in, and taken off what is still to translate (R332). -/
def fillRange (s : State) (i : Nat) (t : Trans) : State :=
  let fill (p : RangePage) : RangePage :=
    if p.tr.isNone && t.covers t.ctx p.page && (!p.write || t.w) then { p with tr := some t } else p
  let rs := s.xlt.ranges.map fun e => if e.1 = i then (e.1, e.2.map fill) else e
  let s := { s with xlt := { s.xlt with ranges := rs } }
  let left := ((aget rs i).getD []).filter fun p => p.tr.isNone
  modCmd s i fun c => { c with untranslated := c.untranslated.filter fun p => left.any fun q => q.page == p }

/-- What a successful walk of a page does for a waiter. -/
def wakeWaiter (s : State) (t : Trans) (page : Nat) : XWaiter → State
  | .group c g k => wakeGroup s c g k page
  | .mover c k => modCore s c fun x => { x with movers := x.movers.map fun m =>
      if m.2.cmd = k then (m.1, { m.2 with waiting := m.2.waiting.filter fun p => p != page }) else m }
  | .pre i => fillRange s i t

/-- A command is saved, or is being saved: its work waits with it (R340). -/
def isSaved (s : State) (i : Nat) : Bool :=
  match cmdOf s i with
  | some c => match c.phase with
    | .saved | .saving _ => true
    | _ => false
  | none => false

/-- A command whose group, mover or range cannot be translated ends with a code (R334, R338, R339), also where its work is
saved (R340). -/
def failWaiter (s : State) (code va : Nat) : XWaiter → State
  | .group c g k =>
    match groupOf s c g with
    | some x => if x.cmd = k ∨ isSaved s k then failCmd s k code pgXLT va else s
    | none => failCmd s k code pgXLT va
  | .mover _ k => failCmd s k code pgXLT va
  | .pre i => failCmd s i code pgXLT va

def dropWalk (s : State) (w : Nat) : State := { s with xlt := { s.xlt with walks := mdel s.xlt.walks w } }

/-- A translation cached. -/
def cacheTrans (s : State) (t : Trans) : State :=
  let rest := s.xlt.cache.filter fun x => !(x.ctx == t.ctx && x.va == t.va)
  { s with xlt := { s.xlt with cache := t :: rest } }

/-! ### Host faults (R335–R338) -/

/-- The command of a waiter. -/
def XWaiter.cmd : XWaiter → Nat
  | .group _ _ k => k
  | .mover _ k => k
  | .pre k => k

def XWaiter.source : XWaiter → Nat
  | .group .. => 0
  | .mover .. => 1
  | .pre _ => 2

/-- The fault ring is enabled and wholly in the aperture (R337, R346). -/
def fringOn (s : State) : Bool :=
  let l := reg s Reg.xltFringCtl
  decide (6 ≤ l ∧ l ≤ 16) && inAperture s (reg s Reg.xltFringBase) (32 * 2 ^ l)

/-- A record met by a command for a page: how many distinct ones it has met (R338). -/
def countFault (s : State) (cmd page rec : Nat) : Nat × State :=
  let l := (aget s.xlt.faultCount (cmd, page)).getD []
  let l := if l.contains rec then l else rec :: l
  (l.length, { s with xlt := { s.xlt with faultCount := aset s.xlt.faultCount (cmd, page) l } })

/-- A waiter put on a record: its group parks, its mover's command is switched out, its command stays undispatched
(R335). The 16th record of a command for a page ends the command at once (R338). -/
def parkWaiter (s : State) (rec page cause : Nat) (w : XWaiter) : State :=
  let r := countFault s w.cmd page rec
  let s := r.2
  if r.1 ≥ 16 then failWaiter s cause page w
  else
    match w with
    | .group c g k => modGroup s c g fun x => if x.cmd = k then { x with wait := .parked rec } else x
    | .mover _ k => modCmd s k fun c =>
        if c.phase = .running then { c with phase := .saving s.now, why := some (.hostFault rec) } else c
    | .pre _ => s

/-- A host-half walk that found no entry or no permission (R335–R337): one record for each context, page and kind of
access; with the ring disabled, or not in the aperture, the fault is treated as FAIL. -/
def hostFault (s : State) (ctx page : Nat) (a : Access) (cause : Nat) (ws : List XWaiter) : State :=
  if !fringOn s then
    let l := reg s Reg.xltFringCtl
    let s := if 6 ≤ l ∧ l ≤ 16 then logOnly s Code.xltOutOfAperture pgXLT else s
    ws.foldl (fun s w => failWaiter s cause page w) s
  else
    let same := s.xlt.recs.find? fun e => e.2.ctx == ctx && e.2.page == page && e.2.acc == a
    let key := match same with | some e => e.1 | none => s.xlt.nextRec
    let first := ws.head?
    let c := first.bind fun w => cmdOf s w.cmd
    let new : FaultRec := { ctx, page, acc := a, cause, src := (first.map XWaiter.source).getD 0,
                            cmdId := (c.map fun c => c.d.cmdId).getD 0, tenant := (c.map Cmd.tenant).getD 0,
                            seq := none, posted := 0, waiters := ws }
    let recs := match same with
      | some e => mset s.xlt.recs e.1 { e.2 with waiters := e.2.waiters ++ ws }
      | none => mset s.xlt.recs s.xlt.nextRec new
    let s := { s with xlt := { s.xlt with recs, nextRec := if same.isSome then s.xlt.nextRec else s.xlt.nextRec + 1 } }
    ws.foldl (fun s w => parkWaiter s key page cause w) s

/-! ### Beginning a walk (R322, R331) -/

/-- The entry that a walk needs next is read: in host memory through the aperture, else the walk ends (R322). -/
def readEntry (s : State) (k : Nat) (w : Walk) : State :=
  let a := entryAddr w.table w.level (w.va % 2 ^ 56)
  if !w.host then s
  else if inAperture s a 8 then hostRead s (ctxTenant s w.ctx) a 8
  else w.waiters.foldl (fun s x => failWaiter s Code.xltOutOfAperture w.va x) (dropWalk s k)

/-- A waiter set on a walk of its page; a new walk begins where none is in progress, at the deepest cached table or, where
`root` says so, at the root (R331, R338). -/
def beginWalk (s : State) (ctx va : Nat) (a : Access) (w : XWaiter) (root : Bool) : State :=
  let page := va / 4096 * 4096
  match walkFor s ctx page a with
  | some (k, _) =>
    let join (x : Walk) : Walk := if x.waiters.contains w then x else { x with waiters := x.waiters ++ [w] }
    { s with xlt := { s.xlt with walks := mmod s.xlt.walks k join } }
  | none =>
    let host := isHostVa va
    let hit := if root then none else upperFor s ctx page 4
    let st := hit.getD (walkRoot s ctx page)
    let wk : Walk := { ctx, va := page, acc := a, host, level := st.1, table := st.2, start := s.now, stale := false,
                       waiters := [w] }
    let k := s.xlt.nextWalk
    let s := { s with xlt := { s.xlt with walks := mset s.xlt.walks k wk, nextWalk := k + 1 } }
    let s := pmcEvent (pmcEvent s pgXLT 0x0100 1 (some ctx)) pgXLT 0x0101 1 (some ctx)
    let s := pmcEvent s pgXLT (if host then 0x0103 else 0x0102) 1 (some ctx)
    readEntry (if hit.isSome then pmcEvent s pgXLT 0x0104 1 (some ctx) else s) k wk

def startWalk (s : State) (ctx va : Nat) (a : Access) (w : XWaiter) : State := beginWalk s ctx va a w false

/-- Walks begun for pages, as far as there is room, and the pages that have one. -/
def startWalks (ctx : Nat) (a : Access) (w : XWaiter) : List Nat → State → List Nat × State
  | [], s => ([], s)
  | p :: t, s =>
    if canWalk s ctx p a then
      let r := startWalks ctx a w t (startWalk s ctx p a w)
      (p :: r.1, r.2)
    else startWalks ctx a w t s

/-! ### Pre-translation on the host half (R331, R332) -/

/-- A page of a command's range list that still needs a walk of its own. -/
def needsWalk (s : State) (i : Nat) (c : Cmd) (p : RangePage) : Bool :=
  p.tr.isNone && c.untranslated.contains p.page
    && !(s.xlt.walks.any fun w => w.2.ctx == c.ctx && w.2.va == p.page && w.2.waiters.contains (.pre i))
    && !(s.xlt.recs.any fun r => r.2.ctx == c.ctx && r.2.page == p.page % 2 ^ 56 && r.2.waiters.contains (.pre i))

/-- The walks that the commands being translated need, begun while there is room for them. -/
def pumpWalks (s : State) : State :=
  s.xlt.ranges.foldl (fun s r =>
    match cmdOf s r.1 with
    | none => s
    | some c =>
      if c.phase = .translating then
        r.2.foldl (fun s p =>
          if needsWalk s r.1 c p && walkRoom s true then
            startWalk s c.ctx p.page (if p.write then .write else .read) (.pre r.1)
          else s) s
      else s) s

/-! ### WALK_ENTRY_RETURN and WALK_TIMEOUT -/

/-- A table of the cached upper levels noted: the walk goes on in it (R331). -/
def descend (s : State) (k : Nat) (w : Walk) (table : Nat) : State :=
  let w' : Walk := { w with level := w.level - 1, table }
  let up := aset s.xlt.upper (upperKey w.ctx w'.level w.va) table
  readEntry { s with xlt := { s.xlt with walks := mset s.xlt.walks k w', upper := up } } k w'

/-- A device walk's entry (R326, R334), read from the context's tables in HBM. -/
def deviceStep (s : State) (k : Nat) (w : Walk) : State :=
  let e := devEntry (((mget s.obj.contexts w.ctx).map fun c => tableEntry c w.ctx w.level w.va).getD 0)
  if !e.p then w.waiters.foldl (fun s x => failWaiter s Code.xltNotPresent w.va x) (dropWalk s k)
  else if w.level = 0 ∨ (w.level ≤ 2 ∧ e.leaf) then
    let n := levelSize w.level
    let t : Trans := { ctx := w.ctx, va := w.va / n * n, size := n, back := .inl e.back, w := e.w, nx := e.nx }
    let s := cacheTrans (dropWalk s k) t
    if t.permits w.acc then w.waiters.foldl (fun s x => wakeWaiter s t w.va x) s
    else w.waiters.foldl (fun s x => failWaiter s (deniedCode w.acc) w.va x) s
  else descend s k w e.addr

/-- A host walk's entry (R323). -/
def hostStep (s : State) (k : Nat) (w : Walk) (e : Nat) : State :=
  let f := hostFmt s
  let va := w.va % 2 ^ 56
  if w.stale then
    -- discarded by an invalidation (R343): walked again from the root
    let r := walkRoot s w.ctx w.va
    let w' : Walk := { w with stale := false, level := r.1, table := r.2 }
    readEntry { s with xlt := { s.xlt with walks := mset s.xlt.walks k w' } } k w'
  else if !f.present e then hostFault (dropWalk s k) w.ctx va w.acc Code.xltNotPresent w.waiters
  else if f.isLeaf w.level e then
    let n := levelSize w.level
    let t : Trans := { ctx := w.ctx, va := w.va / n * n, size := n, back := .inr (f.pa e / n * n), w := f.writable e,
                       nx := f.noExec e }
    if t.permits w.acc then
      w.waiters.foldl (fun s x => wakeWaiter s t w.va x) (cacheTrans (dropWalk s k) t)
    else hostFault (dropWalk s k) w.ctx va w.acc (deniedCode w.acc) w.waiters
  else descend s k w (f.pa e)

def doWalkEntry (s : State) (k : Nat) (e : DWord) : State :=
  match mget s.xlt.walks k with
  | none => s
  | some w => pumpWalks (if w.host then hostStep s k w e.toNat else deviceStep s k w)

/-- A walk's entry can return: it is in progress, and for the host half the host port is up (R339). -/
def walkLive (s : State) (k : Nat) : Bool :=
  match mget s.xlt.walks k with
  | some w => !w.host || hostUp s
  | none => false

/-- 50 µs without every entry (R339). -/
def walkLate (s : State) (k : Nat) : Bool :=
  match mget s.xlt.walks k with
  | some w => since s w.start (usec 50)
  | none => false

def doWalkTimeout (s : State) (k : Nat) : State :=
  match mget s.xlt.walks k with
  | none => s
  | some w => pumpWalks (w.waiters.foldl (fun s x => failWaiter s Code.xltWalkTimeout w.va x) (dropWalk s k))

def execWalkTimeout (walk : Nat) (s : State) : Host.Outcome State Fault Refusal :=
  if walkLate s walk then .next (doWalkTimeout s walk) else .next s

/-! ### Fault records (R336–R338, R340) -/

/-- The 32 bytes of a record (R336). -/
def recordOf (r : FaultRec) (n : Nat) : List Byte :=
  leBytes 4 n ++ leBytes 2 r.cause
    ++ leBytes 2 (r.src * 16384 + (match r.acc with | .read => 0 | .write => 1 | .fetch => 2) * 4096)
    ++ leBytes 8 r.page ++ leBytes 8 r.cmdId.toNat ++ leBytes 2 r.ctx ++ leBytes 2 r.tenant ++ leBytes 4 0

/-- The oldest record not yet posted. -/
def unposted (s : State) : Option (Nat × FaultRec) := s.xlt.recs.find? fun e => e.2.seq.isNone

/-- The fault ring has room (R337). -/
def fringRoom (s : State) : Bool :=
  fringOn s &&
    decide ((reg s Reg.xltFringTail + 2 ^ 32 - reg s Reg.xltFringHead) % 2 ^ 32 < 2 ^ reg s Reg.xltFringCtl)

def postReady (s : State) : Bool := (unposted s).isSome && fringRoom s

def doFaultPost (s : State) : State :=
  match unposted s with
  | none => s
  | some (k, r) =>
    let n := reg s Reg.xltFringTail
    let s := hostWrite s r.tenant (reg s Reg.xltFringBase + 32 * (n % 2 ^ reg s Reg.xltFringCtl)) (recordOf r n) .other
    let s := { s with xlt := { s.xlt with recs := mset s.xlt.recs k { r with seq := some n, posted := s.now } } }
    let s := modAcct s r.tenant fun a => { a with host := a.host + 32 }
    pmcEvent (setReg s Reg.xltFringTail 0 ((n + 1) % 2 ^ 32)) pgXLT 0x0105 1 (some r.ctx)

def execFaultRecordPost (s : State) : Host.Outcome State Fault Refusal :=
  if postReady s then .next (doFaultPost s) else .next s

/-- A write of tenant 0 to a register that has a row of its own: the queue pair is up and nothing earlier is left, behind which it
would wait as `c` (R456); another tenant's is denied (R453). -/
def mgmtWrite (s : State) (t : Nat) (c : FwCall) (f : State → State) : State :=
  if !qpUp s t then s
  else if qpHeld s t then park s t c
  else if windowOpen s then hptLog (emit s (.ack t)) t Code.cfgEmuUnavailable
  else if t ≠ 0 then nakAccess s t
  else pmcEvent (f (emit s (.ack t))) pgHPT 0x0100 1 none

def execXltFringHeadWrite (tenant : Nat) (value : Word) (s : State) : Host.Outcome State Fault Refusal :=
  .next (mgmtWrite s tenant (.write Reg.xltFringHead.base 4 (value.setWidth 64)) fun s => setReg s Reg.xltFringHead 0 value.toNat)

/-- The record a sequence number names, if outstanding. -/
def recBySeq (s : State) (n : Nat) : Option (Nat × FaultRec) := s.xlt.recs.find? fun e => e.2.seq == some n

def dropRec (s : State) (k : Nat) : State := { s with xlt := { s.xlt with recs := mdel s.xlt.recs k } }

/-- The work of a waiter that was saved for the record becomes restorable (R335, R340). -/
def unparkSaved (s : State) (k : Nat) (w : XWaiter) : State :=
  modCmd s w.cmd fun c => if c.why = some (.hostFault k) then { c with why := some .preempted } else c

/-- RETRY for a waiter: the walk begins again from the root, and the work resumes when it succeeds (R338); where there is no
room for a walk, the work tries again by itself. -/
def retryWaiter (s : State) (k : Nat) (r : FaultRec) (w : XWaiter) : State :=
  let s := unparkSaved s k w
  let page := r.page + 2 ^ 56
  if canWalk s r.ctx page r.acc then
    let s := match w with
      | .group c g i => modGroup s c g fun x => if x.cmd = i ∧ x.wait = .parked k then { x with wait := .walk [page] } else x
      | _ => s
    beginWalk s r.ctx page r.acc w true
  else
    match w with
    | .group c g i => unparkGroup s c g i k
    | .mover c i => modCore s c fun x => { x with movers := x.movers.map fun m =>
        if m.2.cmd = i then (m.1, { m.2 with waiting := m.2.waiting.filter fun p => p != page }) else m }
    | .pre _ => s

def retryRec (s : State) (k : Nat) (r : FaultRec) : State := r.waiters.foldl (fun s w => retryWaiter s k r w) (dropRec s k)

/-- FAIL: every command waiting on the record ends with its cause (R338). -/
def failRec (s : State) (k : Nat) (r : FaultRec) : State :=
  r.waiters.foldl (fun s w => failWaiter s r.cause r.page w) (dropRec s k)

/-- A response (R338); one that names no outstanding record is ignored. -/
def doFresp (s : State) (v : DWord) : State :=
  match recBySeq s (v.toNat / 2 ^ 32) with
  | none => s
  | some (k, r) => if v.toNat % 4 = 0 then retryRec s k r else failRec s k r

def execXltFresp (tenant : Nat) (value : DWord) (s : State) : Host.Outcome State Fault Refusal :=
  .next (mgmtWrite s tenant (.write Reg.xltFresp.base 8 value) fun s => doFresp s value)

/-- No response within XLT_FSVC_LIMIT of the posting (R338). -/
def svcLate (s : State) (n : Nat) : Bool :=
  match recBySeq s n with
  | some (_, r) => since s r.posted (msec (reg s Reg.xltFsvcLimit))
  | none => false

def doSvcTimeout (s : State) (n : Nat) : State :=
  match recBySeq s n with
  | some (k, r) => failRec s k r
  | none => s

def execFaultSvcTimeout (seq : Nat) (s : State) : Host.Outcome State Fault Refusal :=
  if svcLate s seq then .next (doSvcTimeout s seq) else .next s

/-! ### The invalidation ring (R341–R343) -/

def iringOn (s : State) : Bool :=
  let l := reg s Reg.xltIringCtl
  decide (6 ≤ l ∧ l ≤ 16)

/-- The host physical address of the entry at the read position (R342). -/
def invAddr (s : State) : Nat := reg s Reg.xltIringBase + 32 * (s.xlt.invRead % 2 ^ reg s Reg.xltIringCtl)

def invReady (s : State) : Bool := iringOn s && s.xlt.invRead != s.xlt.invLimit

/-- The entry at the read position is read, if there is one and its 32 bytes lie in the aperture (R341, R342). -/
def readInv (s : State) : State := if invReady s then hostRead s 0 (invAddr s) 32 else s

/-- The doorbell: ignored while the ring is disabled (R342). -/
def ringInv (s : State) (n : Nat) : State :=
  if iringOn s then
    let idle := s.xlt.invRead == s.xlt.invLimit
    let s := { s with xlt := { s.xlt with invLimit := n } }
    if idle then readInv s else s
  else s

def execXltIringDb (tenant : Nat) (value : Word) (s : State) : Host.Outcome State Fault Refusal :=
  .next (mgmtWrite s tenant (.write Reg.xltIringDb.base 4 (value.setWidth 64)) fun s => ringInv s value.toNat)

/-- A malformed entry, which counts as one that names everything (R341). -/
def invBad (e : InvEntry) : Bool :=
  e.rsv1 != 0 || e.rsv2 != 0 || (e.kind != 1 && e.kind != 2 && e.kind != 3)
    || (e.kind == 1 && (e.pages == 0 || e.va % 4096 != 0)) || (e.kind != 3 && decide (e.ctx ≥ 16384))

/-- The entry at the read position as it is processed: one that cannot be read counts as one that names everything, with a
reserved field that is not 0 (R341). -/
def invSeen (s : State) (e : InvEntry) : InvEntry := if inAperture s (invAddr s) 32 then e else { e with rsv1 := 1 }

/-- The entry removes a host translation of a context at an address and of a size. -/
def invHits (e : InvEntry) (ctx va n : Nat) : Bool :=
  isHostVa va &&
    (invBad e || e.kind == 3 || (e.ctx == ctx && (e.kind == 2 || overlaps (va % 2 ^ 56) n (e.va % 2 ^ 56) (e.pages * 4096))))

/-- The entry concerns the upper-level entries of a context. -/
def invNames (e : InvEntry) (ctx : Nat) : Bool := invBad e || e.kind == 3 || e.ctx == ctx

/-- Range lists after an entry, and the pages that undispatched commands must translate again (R342). -/
def invRanges (s : State) (e : InvEntry) : State :=
  s.xlt.ranges.foldl (fun s r =>
    match cmdOf s r.1 with
    | none => s
    | some c =>
      let gone := r.2.filter fun p => p.tr.isSome && invHits e c.ctx p.page p.size
      if gone.isEmpty then s
      else
        let ps := r.2.map fun p => if invHits e c.ctx p.page p.size then { p with tr := none } else p
        let s := { s with xlt := { s.xlt with ranges := aset s.xlt.ranges r.1 ps } }
        if c.undispatched then
          modCmd s r.1 fun c => { c with phase := .translating,
                                         untranslated := c.untranslated ++ gone.map RangePage.page }
        else s) s

def Tgt.isHost : Tgt → Bool
  | .host _ => true
  | _ => false

/-- A cached upper-level entry leads to host tables. -/
def upperHost (u : Nat × Nat × Nat) : Bool := isHostVa (u.2.2 * (levelSize u.2.1 * 512))

/-- What may use translations that an entry removes, and must end before DONE covers the entry (R343). -/
def invWait (s : State) (e : InvEntry) : InvWait :=
  { reqs := (s.ms.reqs.filter fun r => r.2.line.isHost).map Prod.fst,
    pend := s.obj.pend.map Prod.fst,
    ents := s.cores.flatMap fun c => (c.2.mbuf.filter fun m => m.2.line.isHost).map fun m => (c.1, m.1),
    atoms := (s.ms.atoms.filter fun a => a.2.tgt.isHost).map Prod.fst,
    tiles := s.cores.flatMap fun c =>
      (c.2.movers.filter fun m => m.2.trs.any fun t => invHits e t.ctx t.va t.size).map fun m =>
        (c.1, m.1, m.2.disp, m.2.cursor) }

/-- One entry processed completely (R342); what must finish before DONE covers it is noted (R343), and the next is read. -/
def doInvalidation (s : State) (e : InvEntry) : State :=
  let e := invSeen s e
  let s := if invBad e then logOnly s Code.xltInvMalformed pgXLT else s
  let s := pumpWalks (invRanges s e)
  let walks := s.xlt.walks.map fun w => if w.2.host && invNames e w.2.ctx then (w.1, { w.2 with stale := true }) else w
  readInv { s with xlt := { s.xlt with
      cache := s.xlt.cache.filter fun t => !(invHits e t.ctx t.va t.size),
      upper := s.xlt.upper.filter fun u => !(upperHost u.1 && invNames e u.1.1),
      walks,
      invRead := (s.xlt.invRead + 1) % 2 ^ 32,
      invPending := s.xlt.invPending ++ [invWait s e] } }

def execInvalidationEntry (e : InvEntry) (s : State) : Host.Outcome State Fault Refusal :=
  if invReady s then .next (doInvalidation s e) else .next s

/-- A mover still issues the tile that it was at. -/
def tileIssues (s : State) (t : Nat × Nat × Nat × Nat) : Bool :=
  match (mget s.cores t.1).bind fun k => mget k.movers t.2.1 with
  | some m => m.disp == t.2.2.1 && m.cursor == t.2.2.2 && !m.trs.isEmpty
  | none => false

/-- What an entry waits for has ended. -/
def InvWait.over (s : State) (w : InvWait) : Bool :=
  w.reqs.all (fun i => (mget s.ms.reqs i).isNone) && w.pend.all (fun i => (mget s.obj.pend i).isNone)
    && w.ents.all (fun e => ((mget s.cores e.1).bind fun k => mget k.mbuf e.2).isNone)
    && w.atoms.all (fun i => (mget s.ms.atoms i).isNone) && !w.tiles.any (tileIssues s)

/-- Stores of a merging-buffer entry have left for the host: an invalidation that waits for the entry waits for their
acknowledgments (R343). -/
def noteSent (s : State) (core ent from_ : Nat) : State :=
  let more (w : InvWait) : InvWait :=
    if w.ents.contains (core, ent) then
      { w with pend := w.pend ++ (s.obj.pend.filter fun p => decide (from_ ≤ p.1)).map Prod.fst } else w
  { s with xlt := { s.xlt with invPending := s.xlt.invPending.map more } }

/-- Everything that used what the oldest processed entry removed has finished (R343). -/
def invDoneReady (s : State) : Bool :=
  match s.xlt.invPending with
  | [] => false
  | w :: _ => w.over s && !(s.xlt.walks.any fun w => w.2.host && w.2.stale)

/-- DONE advances; a copy goes to XLT_IDONE_ADDR (R343). -/
def doInvDone (s : State) : State :=
  let n := (reg s Reg.xltIringDone + 1) % 2 ^ 32
  let s := setReg { s with xlt := { s.xlt with invPending := s.xlt.invPending.tail } } Reg.xltIringDone 0 n
  let s := pmcEvent s pgXLT 0x0106 1 none
  if reg s Reg.xltIdoneAddr = 0 then s else hostWrite s 0 (reg s Reg.xltIdoneAddr) (leBytes 8 n) .other

def execXltIringDone (s : State) : Host.Outcome State Fault Refusal :=
  if invDoneReady s then .next (doInvDone s) else .next s

/-! ### XLT_FMT (R347) -/

/-- A custom format that R347 rejects. -/
def fmtBad (v : Nat) : Bool :=
  let p := bitsOf v 59 54
  let w := bitsOf v 53 48
  let n := bitsOf v 46 41
  let l := bitsOf v 40 35
  let hi := bitsOf v 27 22
  bitsOf v 33 28 != 12 || decide (hi < 31) || decide (62 < hi)
    || p == w || p == n || p == l || w == n || w == l || n == l
    || [p, w, n, l].any fun b => decide (12 ≤ b ∧ b ≤ hi)

/-- A write to XLT_FMT: RWI while no context exists, else ignored under R469; presets clear the fields; a rejected value
records XLT_FMT_INVALID. -/
def doFmtWrite (s : State) (v : Nat) : State :=
  if !s.obj.contexts.isEmpty then
    let s := setRaw s (hPgStat pgXLT) (rawReg s (hPgStat pgXLT) 0 ||| 2 ^ 31)
    logOnly (pgErr s pgXLT Code.cfgBusyWrite) Code.cfgBusyWrite pgXLT
  else
    let preset := bitsOf v 63 62
    if preset = 3 ∨ (preset = 0 ∧ fmtBad v = true) then
      logOnly (pgErr s pgXLT Code.xltFmtInvalid) Code.xltFmtInvalid pgXLT
    else if preset = 0 then setReg s Reg.xltFmt 0 (v &&& 0xdfffffffffc00000)
    else setReg s Reg.xltFmt 0 (v &&& 0xd000000000000000)

def execXltFmtWrite (tenant : Nat) (value : DWord) (s : State) : Host.Outcome State Fault Refusal :=
  .next (mgmtWrite s tenant (.write Reg.xltFmt.base 8 value) fun s => doFmtWrite s value.toNat)

end Sys2Proof.Machine
end

