-- ==== Sys2Proof/Machine/Issue.lean ====
section
/-! DEFINITION. How a group's next instruction issues: the fetch (R64, R330), eligibility (R17), the scheduler's choice
(R18), the units (R72), group faults (R49–R53), jumps and the forward-progress monitor (R29, R40–R43). Every lane
instruction is `issue` of its own effect.
Assumption log: DESIGN CHOICE 11; DEDUCED 20, 136. -/

namespace Sys2Proof.Machine

/-! ### Clocks and progress -/

/-- The domain clock runs (R549, R560). -/
def clockRuns (s : State) (c : Nat) : Bool :=
  match mget s.bdl.doms (c / 12) with
  | some d => !d.stopped && d.mhz != 0
  | none => false

/-- A progress event of a core for Jack (R617). -/
def coreProgress (s : State) (c : Nat) : State := modCore s c fun k => { k with lastDone := s.now }

/-! ### Fetch -/

/-- The frame that a command's access to a local pair reads (R288). -/
def readPa (s : State) (cmd idx off : Nat) : Option Nat :=
  match pairOf s idx with
  | some p => some (p.readFrame (nodeId s) (((cmdOf s cmd).bind Cmd.tag).getD 65536) + off)
  | none => none

/-- The physical address that a command reads a local target at. -/
def localPa (s : State) (cmd : Nat) : Tgt → Option Nat
  | .hbm pa => some pa
  | .pair idx off => readPa s cmd idx off
  | _ => none

/-- What a fetch of one word finds. -/
inductive Fetched where
  | word (w : DWord)
  | outside            -- it lies in another module or at the host
  | walk (va : Nat)
  | bad (code : Nat)
  deriving DecidableEq, Repr

/-- The word at an index of a kernel's code (R64). -/
def fetchWord (s : State) (cmd idx : Nat) : Fetched :=
  match cmdOf s cmd with
  | none => .outside
  | some c =>
    let va := c.d.codeVa + 8 * idx
    if va ≥ 2 ^ 57 then .bad Code.groupAddressRange
    else match xlate s c.ctx cmd va .fetch with
    | .bad k => .bad k
    | .walk => .walk va
    | .ok t =>
      if !tgtOk s 8 (t.target s va) then .bad Code.xltOutOfAperture
      else match localPa s cmd (t.target s va) with
      | some pa => .word (BitVec.ofNat 64 (fromLe (rdBytes s pa 8)))
      | none => .outside

/-- A group's next instruction. -/
inductive Next where
  | instr (i : Instr) (w0 : DWord)
  | outside
  | walk (va : Nat)
  | bad (code : Nat)
  deriving DecidableEq, Repr

/-- The next instruction of a group: one word, or two when W = 1 (R64). -/
def nextOf (s : State) (core slot : Nat) (g : Group) : Next :=
  match fetchWord s g.cmd g.pc with
  | .outside => .outside
  | .walk va => .walk va
  | .bad c => .bad c
  | .word w0 =>
    if w0.getLsbD 63 then
      match fetchWord s g.cmd (g.pc + 1) with
      | .outside => .outside
      | .walk va => .walk va
      | .bad c => .bad c
      | .word w1 => .instr (decodeLaneWord core slot w0 w1) w0
    else .instr (decodeLaneWord core slot w0 0) w0

/-- The declared register count of a group's kernel (R20, R66). -/
def declared (g : Group) : Nat := g.nreg

/-- The command `i` is the group's next instruction: what its words decode to, or ILLEGAL_INSTRUCTION for malformed words
(R66). Words outside this module are what the command says they are. -/
def fetchIs (s : State) (core slot : Nat) (g : Group) (i : Instr) : Bool :=
  match nextOf s core slot g with
  | .outside => true
  | .walk _ => true
  | .bad _ => true
  | .instr j w0 =>
    i == j || (!legalInstr (declared g) j && i == .illegalInstruction ⟨core, slot⟩ w0)

/-! ### Eligibility and the scheduler's choice (R17, R18) -/

/-- No operand of the instruction is owed (R17, R72). -/
def depsReady (g : Group) (i : Instr) : Bool :=
  !(g.sb.any fun e => (depsOf i).contains e.1)

/-- The unit that the instruction needs accepts it (R72). -/
def unitKey (slot : Nat) (u : LaneUnit) : Nat :=
  slot / 64 * 8 + match u with
    | .main => 0
    | .special => 1
    | .cross => 2
    | .scalar => 3
    | .conv => 4

def unitFree (s : State) (core slot : Nat) (i : Instr) : Bool :=
  match costOf i with
  | some c => decide (mgetD (coreOf s core).units (unitKey slot c.unit) 0 ≤ coreCyc s core)
  | none => true

/-- SAVE_MODE of a context's SCH_CTXCFG (R524): 0 FULL, 1 MARKED, 2 MARKED_THEN_FULL. -/
def saveMode (s : State) (ctx : Nat) : Nat := (mgetD s.sch.ctxCfg ctx 0).toNat / 16 % 4

/-- Every save of the command is FULL (R524, R525). -/
def saveFull (s : State) (c : Cmd) : Bool := saveMode s c.ctx == 0 || c.d.saveptVa == 0

/-- A save has stopped the group of a command that is being saved: at once under FULL, where it stands once it is parked,
at its save point or at the fallback under MARKED (R524, R525). -/
def groupFrozen (s : State) (c : Cmd) (g : Group) : Bool :=
  saveFull s c || g.halt != .run || match g.wait with
    | .parked _ => true
    | _ => false

/-- The group's command runs, and the group is not stopped by a save (R17, R52). -/
def cmdRuns (s : State) (g : Group) : Bool :=
  match cmdOf s g.cmd with
  | some c => match c.phase with
    | .running => true
    | .saving _ => !groupFrozen s c g
    | _ => false
  | none => false

/-- A queued array command may start: its command runs, or the group that issued it still goes on to a save point
(R108, R162). -/
def arrGoes (s : State) (core : Nat) (q : ArrCmd) : Bool :=
  match groupOf s core q.slot with
  | some g => cmdRuns s g
  | none => true

/-- Nothing but its next instruction holds the group back (R17). -/
def stands (s : State) (g : Group) : Bool :=
  g.wait == .none && g.halt == .run && g.penalty.isNone && !g.ended && cmdRuns s g

/-- A group whose next instruction is `i` may issue it (R17). -/
def eligibleFor (s : State) (core slot : Nat) (g : Group) (i : Instr) : Bool :=
  stands s g && depsReady g i && unitFree s core slot i

/-- A group is eligible by the instruction in its memory. Where its code lies outside this module, the next instruction is
not known before a command names it: the group is taken as eligible while none of its registers is owed. -/
def eligible (s : State) (core slot : Nat) (g : Group) : Bool :=
  match nextOf s core slot g with
  | .instr i _ => eligibleFor s core slot g i
  | .outside => stands s g && g.sb.isEmpty
  | _ => stands s g

/-- How long a group has been eligible (R18). -/
def waitOf (s : State) (core : Nat) (g : Group) : Nat :=
  match g.eligAt with
  | some t => coreCyc s core - t
  | none => 0

/-- The eligible group that issued least recently; ties go to the lower slot (R18). -/
def oldestOf : List (Nat × Group) → Option (Nat × Group)
  | [] => none
  | e :: t =>
    match oldestOf t with
    | none => some e
    | some b => if e.2.lastIssue ≤ b.2.lastIssue then some e else some b

/-- The scheduler's choice among its eligible groups (R18). -/
def choice (s : State) (core sched : Nat) (el : List (Nat × Group)) : Option Nat :=
  if el.any fun e => decide (waitOf s core e.2 ≥ 32) then (oldestOf el).map Prod.fst
  else
    let last : Option Nat := match mget (coreOf s core).lastIssuer sched with
      | some slot => if mget (coreOf s core).issuedAt sched = some (coreCyc s core) then some slot else none
      | none => none
    match last with
    | some slot => if el.any fun e => e.1 == slot then some slot else (oldestOf el).map Prod.fst
    | none => (oldestOf el).map Prod.fst

/-- The eligible groups of a scheduler by ascending slot, the named one among them. -/
def rivals (s : State) (core slot : Nat) : List (Nat × Group) :=
  (coreOf s core).groups.filter fun e => e.1 / 64 == slot / 64 && (e.1 == slot || eligible s core e.1 e.2)

/-- The scheduler has issued nothing in this cycle, and no higher-numbered one of its core has: the issues of a cycle are
taken in scheduler order (R17, R47, R63). -/
def inTurn (s : State) (core sched : Nat) : Bool :=
  (List.range 4).all fun k => decide (k < sched) || mget (coreOf s core).issuedAt k != some (coreCyc s core + 1)

/-- The scheduler issues instruction `i` from this group now (R17, R18): the clock runs, it is its turn in this cycle, the
group is eligible and is the scheduler's choice. -/
def canIssue (s : State) (gr : GroupRef) (i : Instr) : Bool :=
  match groupOf s gr.core gr.slot with
  | none => false
  | some g =>
    clockRuns s gr.core && (mget s.err.coreDown gr.core).isNone
      && inTurn s gr.core (gr.slot / 64) && fetchIs s gr.core gr.slot g i && eligibleFor s gr.core gr.slot g i
      && choice s gr.core (gr.slot / 64) (rivals s gr.core gr.slot) == some gr.slot

/-! ### Group faults (R49–R53, R62, R63) -/

/-- The fault latched in the CORE_FAULT registers, or MORE set where one is held (R62, R63). -/
def latchFault (s : State) (core slot code lane pcVa : Nat) (cmdId : DWord) : State :=
  let info := reg s Reg.coreFaultInfo core
  if info ≥ 2 ^ 31 then setReg s Reg.coreFaultInfo core (info ||| 2 ^ 30)
  else
    let s := setReg s Reg.coreFaultInfo core (2 ^ 31 + lane * 2 ^ 24 + slot * 2 ^ 16 + code)
    setReg (setReg s Reg.coreFaultPc core pcVa) Reg.coreFaultCmd core cmdId.toNat

/-- The groups of a command that its fault stops, kept until the cycle is over: what they issue in it may still fault
(R53). -/
def noteStopped (s : State) (cmd : Nat) (c : Cmd) : State :=
  let of (k : Nat × CoreSt) : List Stopped :=
    (k.2.groups.filter fun e => e.2.cmd == cmd).map fun e => ⟨k.1, e.1, e.2, c, s.now⟩
  modErr s fun e => { e with stopped := (e.stopped.filter fun x => x.at_ == s.now) ++ s.cores.flatMap of }

/-- The scheduler of a slot has issued in this cycle. -/
def tookTurn (s : State) (core slot : Nat) : State :=
  modCore s core fun k => { k with issuedAt := mset k.issuedAt (slot / 64) (coreCyc s core + 1) }

/-- A group fault of a slot at instruction index `pc`: it is latched and ends the group's command (R49, R52). -/
def faultCmdAt (s : State) (core slot cmd pc code lane : Nat) : State :=
  match cmdOf s cmd with
  | none => s
  | some c =>
    let va := c.d.codeVa + 8 * pc
    failCmd (latchFault (noteStopped s cmd c) core slot code lane va c.d.cmdId) cmd code (pgCORE core) va

/-- The same for the instruction that a group issues. -/
def groupFaultAt (s : State) (core slot cmd pc code lane : Nat) : State :=
  faultCmdAt (tookTurn s core slot) core slot cmd pc code lane

/-- An uncorrectable error in a core's SRAM (R609, R627): PG_ERR of the page takes it, and the second in 24 h retires the
core by a core reset. -/
def sramError (s : State) (core page code : Nat) : State :=
  let s := pgErr s page code
  let recent := (mgetD s.err.sramErrs core []).filter fun t => !since s t (sec 86400)
  let s := { s with err := { s.err with sramErrs := mset s.err.sramErrs core (s.now :: recent) } }
  if recent.isEmpty ∨ s.err.retired.contains core then s
  else
    queueRecovery { s with err := { s.err with retired := core :: s.err.retired } } (reg s Reg.errTail) (.core core) code

/-! ### Issue -/

/-- What an instruction does when it issues. `jump` carries the target and whether it counts as a branch for the
forward-progress monitor (R40); `stall` leaves the PC where it is. -/
inductive LaneRes where
  | done (s : State)
  | jump (s : State) (target : Nat) (counts : Bool)
  | fault (code lane : Nat)
  | stall (s : State)

/-- The issue slot, the unit and the latency taken (R17, R72). `issuedAt` holds the cycle after the one issued in, so
that the value 0 stands for none. -/
def noteIssue (s : State) (gr : GroupRef) (i : Instr) : State :=
  let cyc := coreCyc s gr.core
  let s := modCore s gr.core fun k =>
    { k with issuedAt := mset k.issuedAt (gr.slot / 64) (cyc + 1), lastIssuer := mset k.lastIssuer (gr.slot / 64) gr.slot,
             units := match costOf i with
               | some c => mset k.units (unitKey gr.slot c.unit) (cyc + c.occ)
               | none => k.units }
  let s := modGroup s gr.core gr.slot fun g =>
    { g with lastIssue := cyc + 1, eligAt := none,
             sb := g.sb ++ match costOf i with
               | some c => (owedBy i).map fun r => (r, .until (cyc + c.lat))
               | none => [] }
  pmcEvent s (pgCORE gr.core) 0x0100 1 ((groupOf s gr.core gr.slot).map fun g => ctxOf s g.cmd)

/-- The group goes on at an index. -/
def setPc (s : State) (gr : GroupRef) (pc : Nat) : State :=
  modGroup s gr.core gr.slot fun g => { g with pc := pc % 2 ^ 32 }

/-- A taken jump (R29, R40, R42): the branch penalty, and a backward one raises the forward-progress count. -/
def takeJump (s : State) (gr : GroupRef) (g : Group) (target : Nat) (counts : Bool) : State :=
  let cyc := coreCyc s gr.core
  let back := counts && decide (target ≤ g.pc)
  let s := pmcEvent s (pgCORE gr.core) 0x0107 4 (some (ctxOf s g.cmd))
  modGroup (setPc s gr target) gr.core gr.slot fun x =>
    { x with penalty := some (cyc + 5), fpc := if back then x.fpc + 1 else x.fpc }

/-- A backward branch that would reach the limit faults instead (R42). -/
def noProgress (g : Group) (target : Nat) (counts : Bool) : Bool :=
  counts && decide (target ≤ g.pc ∧ g.fpLimit ≠ 0 ∧ g.fpc + 1 ≥ g.fpLimit)

/-- The forward-progress count returns to zero (R41). -/
def clearFpc (s : State) (core slot : Nat) : State := modGroup s core slot fun g => { g with fpc := 0 }

/-- The group waits for a walk of a page (R331), where room for one exists. -/
def waitWalk (s : State) (gr : GroupRef) (g : Group) (va : Nat) (a : Access) : State :=
  if canWalk s (ctxOf s g.cmd) (va / 4096 * 4096) a then
    let s := modGroup s gr.core gr.slot fun x => { x with wait := .walk [va / 4096 * 4096], eligAt := none }
    startWalk s (ctxOf s g.cmd) va a (.group gr.core gr.slot g.cmd)
  else s

/-- One instruction of a group, for the group and the state before it: the fetch, the encoding (R66), the effect, the
next PC. -/
def runInstr (gr : GroupRef) (i : Instr) (body : State → Group → LaneRes) (s : State) (g : Group) : State :=
  match nextOf s gr.core gr.slot g with
  | .bad c => if c = Code.groupAddressRange then groupFaultAt s gr.core gr.slot g.cmd g.pc c 0
              else failCmd s g.cmd c pgXLT (((cmdOf s g.cmd).map fun c => c.d.codeVa).getD 0 + 8 * g.pc)
  | .walk va => waitWalk s gr g va .fetch
  | _ =>
    if !legalInstr (declared g) i then groupFaultAt s gr.core gr.slot g.cmd g.pc Code.groupIllegalInstr 0
    else
      match body s g with
      | .fault code lane => groupFaultAt s gr.core gr.slot g.cmd g.pc code lane
      | .stall s => s
      | .done s => setPc (noteIssue s gr i) gr (g.pc + wordsOf i)
      | .jump s' target counts =>
        if noProgress g target counts then groupFaultAt s gr.core gr.slot g.cmd g.pc Code.groupNoProgress 0
        else takeJump (noteIssue s' gr i) gr g target counts

/-- The instruction is a group fault. -/
def faultsNow (gr : GroupRef) (i : Instr) (body : State → Group → LaneRes) (s : State) (g : Group) : Bool :=
  match nextOf s gr.core gr.slot g with
  | .bad c => c == Code.groupAddressRange
  | .walk _ => false
  | _ =>
    !legalInstr (declared g) i || match body s g with
      | .fault _ _ => true
      | .jump _ target counts => noProgress g target counts
      | _ => false

/-- The groups of a core that a fault has stopped in this cycle, put back with their commands. -/
def revived (s : State) (core : Nat) : State :=
  (s.err.stopped.filter fun x => x.at_ == s.now && x.core == core).foldl (fun s x =>
    modCore { s with cmds := mset s.cmds x.group.cmd x.cmd } core fun k =>
      { k with groups := if (mget k.groups x.slot).isSome then k.groups else mset k.groups x.slot x.group }) s

/-- A group that its command's first fault has stopped faults in the same cycle: the fault is dropped and sets MORE (R53). -/
def laterFault (gr : GroupRef) (i : Instr) (body : State → Group → LaneRes) (s : State) : State :=
  let s' := revived s gr.core
  match groupOf s gr.core gr.slot, groupOf s' gr.core gr.slot with
  | none, some g =>
    if canIssue s' gr i && faultsNow gr i body s' g then
      tookTurn (setReg s Reg.coreFaultInfo gr.core (reg s Reg.coreFaultInfo gr.core ||| 2 ^ 30)) gr.core gr.slot
    else s
  | _, _ => s

/-- A lane instruction: where its scheduler issues it, its effect; otherwise nothing happens, but for the later fault of a
command that a fault has ended in this cycle. -/
def issue (gr : GroupRef) (i : Instr) (body : State → Group → LaneRes) (s : State) : Host.Outcome State Fault Refusal :=
  if canIssue s gr i then
    match groupOf s gr.core gr.slot with
    | some g => .next (runInstr gr i body s g)
    | none => .next s
  else .next (laterFault gr i body s)

/-- The effect of an instruction that only changes its group. -/
def onGroup (gr : GroupRef) (f : Group → Group) (s : State) (_ : Group) : LaneRes :=
  .done (modGroup s gr.core gr.slot f)

/-- An undefined or malformed word (R66). -/
def execIllegalInstruction (g : GroupRef) (word : DWord) (s : State) : Host.Outcome State Fault Refusal :=
  issue g (.illegalInstruction g word) (fun _ _ => .fault Code.groupIllegalInstr 0) s

end Sys2Proof.Machine
end

