-- ==== Sys2Proof/Machine/Scratch.lean ====
section
/-! DEFINITION. The scratchpad (R231–R237) and the launching of tile movers (R255–R263).
Assumption log: DESIGN CHOICE 25. -/

namespace Sys2Proof.Machine

/-! ### Allocations and bytes -/

/-- A little-endian value in scratchpad. -/
def scrVal (k : CoreSt) (cmd off n : Nat) : Nat := fromLe (scrBytes k cmd off n)

/-- Bytes of an allocation as the array and the movers read them: each 32-byte unit as it stood at issue or as it stands (R136,
R151, R267). -/
def pickBytes (k : CoreSt) (old : NMap Byte) (cmd : Nat) : Nat → Nat → Nat → State → List Byte × State
  | 0, _, _, s => ([], s)
  | fuel + 1, off, n, s =>
    if n = 0 then ([], s)
    else
      let m := min n (32 - off % 32)
      let new := scrBytes k cmd off m
      let was := (List.range m).map fun i => scrByteIn old k cmd (off + i)
      let r := chooseOf s (new == was)
      let t := pickBytes k old cmd fuel (off + m) (n - m) r.2
      ((if r.1 then new else was) ++ t.1, t.2)

/-- The bank of an allocation offset (R231). -/
def bankOf (off : Nat) : Nat := off / 32 % 32

/-- The greatest number of distinct keys that lanes address within one bank (R234). -/
def bankCost (offs keys : List Nat) : Nat :=
  let pairs := (offs.zip keys).eraseDups
  ((List.range 32).map fun b => (pairs.filter fun e => bankOf e.1 == b).length).foldl max 1

/-- The lane path taken for `n` cycles; the cycle by which the access is done (R234). -/
def takeLanePath (s : State) (core n : Nat) : Nat × State :=
  let cyc := coreCyc s core
  let start := max cyc (coreOf s core).lanePath
  let s := if n > 1 then pmcEvent s (pgTMV core) 0x0100 (n - 1) none else s
  (start + n - 1, modCore s core fun k => { k with lanePath := start + n })

/-- Port-cycles of the load/store unit taken (R54, R55); the cycle in which the first sector is served. -/
def takePorts (s : State) (core n : Nat) (ctx : Nat) : Nat × State :=
  let start := max (4 * coreCyc s core) (coreOf s core).lsu
  let s := pmcEvent s (pgCORE core) 0x0106 n (some ctx)
  (start / 4, modCore s core fun k => { k with lsu := start + n })

/-- The array feed contends for the banks (R235). -/
def feedRuns (k : CoreSt) : Bool := k.arr.load.isSome || !k.arr.streams.isEmpty || k.arr.drain.isSome

/-- Accesses of lanes or movers to the banks of offsets wait while the array feed runs (R235). One that is no load's has had
its turn once every bank can have served 32 promoted ones. -/
def awaitBanks (s : State) (core : Nat) (load : Option Nat) (offs : List Nat) : State :=
  let cyc := coreCyc s core
  if feedRuns (coreOf s core) then
    let ws := ((offs.map bankOf).eraseDups).map fun b => ({ bank := b, since := cyc, load } : BankWait)
    modCore s core fun k =>
      { k with bankWaits := (k.bankWaits.filter fun w => w.load.isSome || decide (cyc < w.since + 512)) ++ ws }
  else s

/-- An uncorrectable scratchpad word: latched, recorded, and the owning command ends (R236, R275). -/
def scrUncorr (s : State) (core cmd off : Nat) : State :=
  let e := reg s Reg.tmvEcc core
  let s := if e ≥ 2 ^ 31 then s
           else setReg (setReg s Reg.tmvEcc core (e + 2 ^ 31)) Reg.tmvEccaddr core
                  ((scrPhys (coreOf s core) cmd off).getD 0 / 4 * 4)
  failCmd (sramError s core (pgTMV core) Code.memEccUncorr) cmd Code.memEccUncorr (pgTMV core) off

/-- A corrected scratchpad word (R236, R275). -/
def scrCorr (s : State) (core : Nat) : State :=
  let e := reg s Reg.tmvEcc core
  if e % 4096 = 4095 then s else setReg s Reg.tmvEcc core (e + 1)

/-! ### Mover descriptors (R259–R263) -/

/-- A descriptor's fields. -/
structure MvDesc where
  src    : Nat
  dst    : Nat
  sstr   : List Int
  dstr   : List Int
  ext    : List Nat
  padlo  : List Nat
  padhi  : List Nat
  padval : Nat
  ctrl   : Nat
  deriving DecidableEq, Repr

def slice (b : List Byte) (o n : Nat) : Nat := fromLe ((b.drop o).take n)

def parseMv (b : List Byte) : MvDesc :=
  let five (f : Nat → Nat) : List Nat := (List.range 5).map f
  { src := slice b 0 8, dst := slice b 8 8,
    sstr := (List.range 5).map fun d => intOf 64 (slice b (0x10 + 8 * d) 8),
    dstr := (List.range 5).map fun d => intOf 64 (slice b (0x38 + 8 * d) 8),
    ext := five fun d => slice b (0x60 + 2 * d) 2 + 1, padlo := five fun d => slice b (0x6A + d) 1,
    padhi := five fun d => slice b (0x6F + d) 1, padval := slice b 0x74 4, ctrl := slice b 0x78 8 }

def mvSig (d : MvDesc) : Bool := bitsOf d.ctrl 59 59 == 1
def mvTok (d : MvDesc) : Nat := bitsOf d.ctrl 58 55
def mvSrcGlobal (d : MvDesc) : Bool := bitsOf d.ctrl 51 50 == 0
def mvDstGlobal (d : MvDesc) : Bool := bitsOf d.ctrl 49 48 == 0
def mvEsize (d : MvDesc) : Nat := 2 ^ bitsOf d.ctrl 47 45
def mvHint (d : MvDesc) : Nat := bitsOf d.ctrl 44 43

/-- Valid source indices of a dimension (R261). -/
def mvValid (d : MvDesc) (k : Nat) : Nat := d.ext.getD k 1 - d.padlo.getD k 0 - d.padhi.getD k 0

/-- The lowest and the highest offset that `n` indices of each of the first `dims` dimensions reach. -/
def spanOf (str : List Int) (n : Nat → Nat) : Nat → Int × Int
  | 0 => (0, 0)
  | k + 1 =>
    let r := spanOf str n k
    let x := ((n k : Int) - 1) * str.getD k 0
    (r.1 + min 0 x, r.2 + max 0 x)

/-- The source reads anything at all. -/
def mvReads (d : MvDesc) : Bool := (List.range 5).all fun k => decide (mvValid d k > 0)

/-- The bytes a side can reach: its lowest byte and the byte past its highest, over the first `dims` dimensions. -/
def srcSpan (d : MvDesc) (dims : Nat) : Int × Int :=
  let r := spanOf d.sstr (mvValid d) dims
  ((d.src : Int) + r.1, (d.src : Int) + r.2 + mvEsize d)

def dstSpan (d : MvDesc) (dims : Nat) : Int × Int :=
  let r := spanOf d.dstr (fun k => d.ext.getD k 1) dims
  ((d.dst : Int) + r.1, (d.dst : Int) + r.2 + mvEsize d)

/-- A side obeys R263: scratchpad within the allocation past the window, global addresses within 57 bits and a tile
within 2 MiB. -/
def sideOk (global : Bool) (alloc : Nat) (all tile : Int × Int) : Bool :=
  if global then decide (0 ≤ all.1 ∧ all.2 ≤ 2 ^ 57 ∧ tile.2 - tile.1 ≤ 2097152)
  else decide (4096 ≤ all.1 ∧ all.2 ≤ (alloc : Int))

/-- The checks of R263. -/
def mvOk (d : MvDesc) (alloc : Nat) : Bool :=
  let es := mvEsize d
  bitsOf d.ctrl 62 60 == 0 && bitsOf d.ctrl 54 52 == 0 && bitsOf d.ctrl 42 0 == 0
    && decide (bitsOf d.ctrl 51 50 ≤ 1 ∧ bitsOf d.ctrl 49 48 ≤ 1 ∧ bitsOf d.ctrl 47 45 ≤ 5)
    && !(mvSrcGlobal d && mvDstGlobal d)
    && d.src % es == 0 && d.dst % es == 0
    && (d.sstr ++ d.dstr).all (fun x => x % (es : Int) == 0)
    && (List.range 5).all (fun k => decide (d.padlo.getD k 0 + d.padhi.getD k 0 ≤ d.ext.getD k 1))
    && (!mvReads d || sideOk (mvSrcGlobal d) alloc (srcSpan d 5) (srcSpan d 2))
    && sideOk (mvDstGlobal d) alloc (dstSpan d 5) (dstSpan d 2)

/-! ### Launching (R256) -/

/-- The slots whose byte 0x7F an access writes. -/
def goSlot (off n : Nat) : Option Nat :=
  if off / 128 < 32 ∧ off / 128 * 128 + 127 < off + n then some (off / 128) else none

/-- A token on which nothing has been issued. -/
def Token.none : Token := ⟨0, 0, []⟩

/-- The number that the next command on a token gets. -/
def nextSig (g : Group) (t : Nat) : Nat := (mgetD g.tokens t .none).issued

/-- A command issued on a token (R120, R258). -/
def tokenIssued (g : Group) (t : Nat) : Group :=
  { g with tokens := mupd g.tokens t .none fun x => { x with issued := x.issued + 1, owed := x.owed ++ [x.issued] } }

/-- The completion of the command of a number on a token (R120): groups that wait for it go on. -/
def tokenDone (s : State) (core slot t n : Nat) : State :=
  modGroup s core slot fun g =>
    let x := mgetD g.tokens t .none
    let x := { x with done := x.done + 1, owed := x.owed.filter fun i => i != n }
    let g := { g with tokens := mset g.tokens t x }
    if g.wait = .token t ∧ x.issued ≤ x.done then { g with wait := .none } else g

/-- The slot's 128 bytes launched for a group (R256, R258). -/
def launchSlot (s : State) (gr : GroupRef) (cmd n : Nat) : State :=
  let desc := scrBytes (coreOf s gr.core) cmd (n * 128) 128
  let d := parseMv desc
  let sig := ((groupOf s gr.core gr.slot).map fun g => nextSig g (mvTok d)).getD 0
  let pc := ((groupOf s gr.core gr.slot).map Group.pc).getD 0
  let m : MoverCmd :=
    { cmd, group := gr.slot, slot := n, desc, cursor := 0, disp := 0, phase := .fresh, waiting := [], trs := [], sig, pc,
      old := (coreOf s gr.core).scratch, todo := [], out := [] }
  let s := modCore s gr.core fun k => fixGo { k with launched := k.launched ++ [m] } cmd n
  let s := modGroup s gr.core gr.slot fun g => if mvSig d then tokenIssued { g with fpc := 0 } (mvTok d) else { g with fpc := 0 }
  coreProgress s gr.core

/-! ### Allocation events (R232, R233) -/

/-- Granules held by some command. -/
def usedGranules (k : CoreSt) : List Nat := k.allocs.flatMap fun e => e.2.granules

def freeGranules (k : CoreSt) : List Nat := (List.range 64).filter fun g => !(usedGranules k).contains g

/-- The granules a command needs (R232). -/
def granulesFor (d : Descriptor) : Nat := ceilDiv d.scratch 65536

/-- The core is present and enabled (R6). -/
def coreOn (s : State) (c : Nat) : Bool := decide (c < 192) && s.boot.coreMask.testBit c

/-- The core holds no reset and its page is not halted (R466). -/
def coreTakes (s : State) (core : Nat) : Bool :=
  (mget s.err.coreDown core).isNone && !pgHalted s (pgCORE core) && !s.err.retired.contains core

/-- Granules of the core are being zeroed (R233). -/
def zeroBusy (s : State) (core : Nat) : Bool :=
  match (coreOf s core).zeroing with
  | some z => decide (coreCyc s core < z.2)
  | none => false

/-- A placed command's granules are reserved once enough are free, and zeroed (R233). -/
def scratchReady (s : State) (core cmd : Nat) : Bool :=
  match cmdOf s cmd with
  | some c => c.phase == .running && c.cores.contains core && coreTakes s core
      && (mget (coreOf s core).allocs cmd).isNone && !zeroBusy s core
      && decide (c.nextGroup < ceilDiv c.d.threads 32)
      && decide (granulesFor c.d ≤ (freeGranules (coreOf s core)).length)
  | none => false

def doScratchAllocate (s : State) (core cmd : Nat) : State :=
  match cmdOf s cmd with
  | none => s
  | some c =>
    modCore s core fun k =>
      let gs := (freeGranules k).take (granulesFor c.d)
      { k with allocs := mset k.allocs cmd ⟨gs⟩,
               scratch := k.scratch.filter (fun e => !gs.contains (e.1 / 65536)),
               zeroing := if gs.isEmpty then none else some (cmd, coreCyc s core + 64 * gs.length) }

def execScratchAllocate (core cmd : Nat) (s : State) : Host.Outcome State Fault Refusal :=
  if scratchReady s core cmd then .next (doScratchAllocate s core cmd) else .next s

/-- No group, array command or mover command of a command is left on a core (R233). -/
def coreQuiet (k : CoreSt) (cmd : Nat) : Bool :=
  !(k.groups.any fun e => e.2.cmd == cmd) && !(k.arr.queue.any fun q => q.cmd == cmd)
    && !(k.launched.any fun m => m.cmd == cmd) && !(k.movers.any fun e => e.2.cmd == cmd)

/-- The allocation of a command is freed once its last group on the core has ended and its work there is complete, and no
group of it is still to be placed. -/
def scratchFreeable (s : State) (core cmd : Nat) : Bool :=
  (mget (coreOf s core).allocs cmd).isSome && coreQuiet (coreOf s core) cmd &&
  match cmdOf s cmd with
  | some c => c.phase != .running || decide (c.nextGroup ≥ ceilDiv c.d.threads 32)
  | none => true

def execScratchFree (core cmd : Nat) (s : State) : Host.Outcome State Fault Refusal :=
  if scratchFreeable s core cmd then .next (modCore s core fun k => { k with allocs := mdel k.allocs cmd })
  else .next s

/-- A read that has waited 16 cycles for its bank is served next, at most one in 16 cycles for each bank (R235). -/
def promotable (s : State) (core bank : Nat) : Bool :=
  let k := coreOf s core
  let cyc := coreCyc s core
  (k.bankWaits.any fun w => w.bank == bank && decide (w.since + 16 ≤ cyc)) &&
  match mget k.promoted bank with
  | some t => decide (t + 16 ≤ cyc)
  | none => true

def doPromote (s : State) (core bank : Nat) : State :=
  let cyc := coreCyc s core
  let s := modCore s core fun k =>
    { k with bankWaits := k.bankWaits.eraseP fun w => w.bank == bank && decide (w.since + 16 ≤ cyc),
             promoted := mset k.promoted bank cyc }
  pmcEvent s (pgTMV core) 0x0101 1 none

def execScratchAccessPromote (core bank : Nat) (s : State) : Host.Outcome State Fault Refusal :=
  if promotable s core bank then .next (doPromote s core bank) else .next s

end Sys2Proof.Machine
end

