-- ==== Sys2Proof/Machine/MemPath.lean ====
section
/-! DEFINITION. The path of data between a core and memory: lines, the L1 (R238–R242), the merging buffer (R240, R241), the
L2 slices as stores and fills meet them (R243–R247), line requests, and what an atomic does to its location (R94, R370).
Assumption log: DEDUCED 31, 32, 33, 35, 37, 111; DESIGN CHOICE 127. -/

namespace Sys2Proof.Machine

/-! ### Lines -/

/-- The 128-byte line of a target. -/
def Tgt.line : Tgt → Tgt
  | .hbm a => .hbm (a / 128 * 128)
  | .pair i o => .pair i (o / 128 * 128)
  | .fab n sh a => .fab n sh (a / 128 * 128)
  | .host a => .host (a / 128 * 128)
  | .scr o => .scr (o / 128 * 128)

/-- The address a target counts in. -/
def Tgt.num : Tgt → Nat
  | .hbm a => a
  | .pair i o => i * 65536 + o
  | .fab _ _ a => a
  | .host a => a
  | .scr o => o

/-- The offset within the line, and the sector of the line. -/
def Tgt.off (t : Tgt) : Nat := t.num % 128
def Tgt.sect (t : Tgt) : Nat := t.num / 32 % 4

/-- The target `n` bytes on. -/
def Tgt.shift (n : Nat) : Tgt → Tgt
  | .hbm a => .hbm (a + n)
  | .pair i o => .pair i (o + n)
  | .fab k sh a => .fab k sh (a + n)
  | .host a => .host (a + n)
  | .scr o => .scr (o + n)

/-- Bytes of a list replaced from an offset on. -/
def putAt (d : List Byte) (off : Nat) (b : List Byte) : List Byte := d.take off ++ b ++ d.drop (off + b.length)

/-- A line of zeros. -/
def zeroLine : List Byte := List.replicate 128 0

/-- The mask of the bytes of the sectors. -/
def sectMask (v : BitVec 4) : BitVec 128 :=
  BitVec.ofNat 128 (((List.range 4).map fun k => if v.getLsbD k then (2 ^ 32 - 1) * 2 ^ (32 * k) else 0).foldl (· + ·) 0)

/-- The bytes of `new` where the mask is set, from bit `i` on. -/
def mixBytes (mask : BitVec 128) : Nat → List Byte → List Byte → List Byte
  | i, o :: os, n :: ns => (if mask.getLsbD i then n else o) :: mixBytes mask (i + 1) os ns
  | _, os, _ => os

def tagOf (s : State) (cmd : Nat) : Nat := ((cmdOf s cmd).bind Cmd.tag).getD 65536
def tenantOf (s : State) (cmd : Nat) : Nat := ((cmdOf s cmd).map Cmd.tenant).getD 0

/-! ### The L1 (R238–R242) -/

/-- Lines of SHADOWED objects are a command's own view (R288). -/
def shadowTag (cmd : Nat) : Tgt → Option Nat
  | .pair _ _ => some cmd
  | .fab _ true _ => some cmd
  | _ => none

def l1Key (cmd : Nat) (line : Tgt) (e : Tgt × L1Line) : Bool := e.1 == line && e.2.cmdShadow == shadowTag cmd line

def l1Find (k : CoreSt) (cmd : Nat) (line : Tgt) : Option L1Line := (k.l1.find? (l1Key cmd line)).map Prod.snd

/-- The set of a line: 256 sets. -/
def l1Set (line : Tgt) : Nat := line.num / 128 % 256

/-- The first `n` lines of a set kept, in the order from most recently used. -/
def l1Trim (set : Nat) : Nat → List (Tgt × L1Line) → List (Tgt × L1Line)
  | _, [] => []
  | n, e :: t =>
    if l1Set e.1 = set then (if n = 0 then l1Trim set 0 t else e :: l1Trim set (n - 1) t)
    else e :: l1Trim set n t

/-- A line made the most recently used of its set of 8 ways. -/
def l1Put (k : CoreSt) (cmd : Nat) (line : Tgt) (x : L1Line) : CoreSt :=
  { k with l1 := l1Trim (l1Set line) 8 ((line, x) :: k.l1.filter fun e => !l1Key cmd line e) }

/-- Sectors installed in a line. -/
def l1Install (k : CoreSt) (cmd : Nat) (line : Tgt) (sects : BitVec 4) (data : List Byte) : CoreSt :=
  let old := match l1Find k cmd line with
    | some x => x
    | none => { cmdShadow := shadowTag cmd line, valid := 0, data := zeroLine }
  l1Put k cmd line { old with valid := old.valid ||| sects, data := mixBytes (sectMask sects) 0 old.data data }

/-- A store's bytes written into a present line (R239); sectors that are not present stay so. -/
def l1Store (k : CoreSt) (cmd : Nat) (line : Tgt) (off : Nat) (b : List Byte) : CoreSt :=
  { k with l1 := k.l1.map fun e => if l1Key cmd line e then (e.1, { e.2 with data := putAt e.2.data off b }) else e }

/-- A sector invalidated (R239). -/
def l1Drop (k : CoreSt) (line : Tgt) (sect : Nat) : CoreSt :=
  { k with l1 := k.l1.map fun e =>
      if e.1 = line then (e.1, { e.2 with valid := e.2.valid &&& ~~~(1#4 <<< sect) }) else e }

/-- The L1 serves and installs: it is enabled. -/
def l1On (k : CoreSt) : Bool := k.l1ctl.enabled

/-! ### The merging buffer (R240, R241) -/

/-- The entry for a line and a command. -/
def mbFind (k : CoreSt) (cmd : Nat) (line : Tgt) : Option (Nat × MergeEntry) :=
  k.mbuf.find? fun e => e.2.cmd == cmd && e.2.line == line

/-- A byte held in the merging buffer for a reader of a command (R241): its own command's, else another's of a line that
is not SHADOWED. -/
def mbByte (k : CoreSt) (cmd : Nat) (line : Tgt) (o : Nat) : Option Byte :=
  let has (e : Nat × MergeEntry) : Bool := e.2.line == line && e.2.mask.getLsbD o
  match k.mbuf.find? fun e => has e && e.2.cmd == cmd with
  | some e => some (e.2.data.getD o 0)
  | none =>
    if (shadowTag cmd line).isSome then none
    else (k.mbuf.find? has).map fun e => e.2.data.getD o 0

/-- A byte that a block of a group on its way to a peer writes (R92, R402). -/
def blkByte (cmd grp : Nat) (n : Nat) (sh : Bool) (a : Nat) (b : Blk) : Option Byte :=
  if b.cmd = some cmd ∧ b.groups.contains grp ∧ b.dst = n ∧ b.shadow = sh ∧ b.addr ≤ a then
    match b.msg with
    | .write d => d[a - b.addr]?
    | .writeMasked m d => if m.getLsbD (a - b.addr) then d[a - b.addr]? else none
    | _ => none
  else none

/-- The latest of a group's bytes that are on their way to another module or to the host and not known performed (R92). -/
def sentByte (s : State) (cmd grp : Nat) (t : Tgt) : Option Byte :=
  match t with
  | .fab n sh a =>
    let ps := s.fab.ports.flatMap fun e => e.2.ord
    let p := peerOf s n
    let all := p.unperf.map Unperf.blk ++ ps ++ p.waitingSend
    (all.filterMap (blkByte cmd grp n sh a)).getLast?
  | .host a =>
    (s.obj.pend.filterMap fun e => match e.2.2 with
      | .store c gs b d => if c = cmd ∧ gs.contains grp ∧ b ≤ a then d[a - b]? else none
      | _ => none).getLast?
  | _ => none

/-- What a load of a group finds held of its bytes at issue (R92, R241). -/
def heldBytes (s : State) (core cmd grp : Nat) (t : Tgt) (n : Nat) : List (Option Byte) :=
  (List.range n).map fun i =>
    match mbByte (coreOf s core) cmd t.line (t.off + i) with
    | some b => some b
    | none => sentByte s cmd grp (t.shift i)

/-- Groups of a core that wait for a credit or for a merging-buffer entry go on (R240, R271). -/
def wakeCredit (s : State) (core : Nat) : State :=
  let wake (g : Group) : Group := if g.wait = .credit then { g with wait := .none } else g
  modCore s core fun k =>
    { k with groups := if k.groups.any fun g => g.2.wait == .credit then k.groups.map fun g => (g.1, wake g.2) else k.groups }

/-! ### The L2 (R243–R247, R380) -/

def l2Set (pa : Nat) : Nat := pa / 128 % 8192

/-- An operation queued at the channel controller of an address (R372). -/
def pushChan (s : State) (pa : Nat) (op : ChanOp) : State :=
  let c := channelOf s pa
  modChan s c.1 c.2 fun x =>
    { x with queue := x.queue ++ [op], workSince := if x.queue.isEmpty then some s.now else x.workSince }

/-- The mark of the least recently used kept line cleared. -/
def unkeepLast : List L2Tag → List L2Tag
  | [] => []
  | t :: r => if r.any L2Tag.kept then t :: unkeepLast r else { t with kept := false } :: r

def keptIn (l : List L2Tag) : Nat := (l.filter L2Tag.kept).length

/-- Marks cleared until fewer than `n` are left (R246, R380). -/
def unkeepTo (n : Nat) : Nat → List L2Tag → List L2Tag
  | 0, l => l
  | f + 1, l => if keptIn l ≥ n then unkeepTo n f (unkeepLast l) else l

/-- The least recently used line that is not kept, taken out. -/
def evict : List L2Tag → List L2Tag
  | [] => []
  | t :: r => if r.any fun x => !x.kept then t :: evict r else if t.kept then t :: r else r

def tagFor (l : List L2Tag) (line : Nat) : Option L2Tag := l.find? fun t => t.line == line
def withoutTag (l : List L2Tag) (line : Nat) : List L2Tag := l.filter fun t => t.line != line

/-- A line marked kept under a limit, and the other marks that this clears (R246). -/
def markKept (limit : Nat) (l : List L2Tag) : List L2Tag × Bool :=
  if limit = 0 then (l, false) else (unkeepTo limit 17 l, true)

/-- A hit of an access with a hint (R245); a store never drops a line (R88). A LAST load's hit drops it, or leaves it for the
requests in `early`, which reached the slice before (R247). -/
def hitSet (limit hint : Nat) (load : Bool) (early : List Nat) (t : L2Tag) (l : List L2Tag) : List L2Tag :=
  if hint = 1 ∨ (hint = 3 ∧ !load) then l
  else if hint = 3 then
    if early.isEmpty then withoutTag l t.line
    else l.map fun x => if x.line = t.line then { x with last := some early } else x
  else if hint = 2 then
    let r := markKept limit l
    let t' := (tagFor r.1 t.line).getD t
    { t' with kept := t'.kept || r.2 } :: withoutTag r.1 t.line
  else t :: withoutTag l t.line

/-- A fill of sectors under a hint (R245): 16 ways. A line that a LAST hit has dropped is there afresh. -/
def fillSet (limit hint line : Nat) (sects : BitVec 4) (l : List L2Tag) : List L2Tag :=
  if hint = 3 then l
  else
    match tagFor l line with
    | some t =>
      let t := { t with valid := t.valid ||| sects, last := none }
      hitSet limit hint true [] t (l.map fun x => if x.line = line then t else x)
    | none =>
      let r := if hint = 2 then markKept limit l else (l, false)
      let l := if r.1.length ≥ 16 then evict r.1 else r.1
      let t : L2Tag := { line, valid := sects, kept := r.2, last := none }
      if hint = 1 then l ++ [t] else t :: l

def setL2Set (s : State) (st pa : Nat) (f : List L2Tag → List L2Tag) : State :=
  modSlice s st fun x => { x with sets := mset x.sets (l2Set pa) (f (mgetD x.sets (l2Set pa) [])) }

/-- The value of L2C_KEEP_WAYS in a pending snapshot (R468). -/
def keepPending (s : State) (st : Nat) : Option DWord :=
  aget ((mget s.applying (pgL2C st)).getD []) (Reg.l2cKeepWays.at_ st)

/-- The limit of a KEEP access, which is the safe point of its set (R380): that of the pending snapshot, if any. -/
def keepLimit (s : State) (st : Nat) : Nat :=
  match keepPending s st with
  | some v => v.toNat
  | none => reg s Reg.l2cKeepWays st

/-- A KEEP access noted against a pending snapshot: the field is in effect once every set has had one (R380, R468). -/
def noteKeep (s : State) (st pa hint : Nat) : State :=
  if hint ≠ 2 ∨ (keepPending s st).isNone then s
  else
    let seen := (sliceOf s st).keepSeen
    let seen := if seen.contains (l2Set pa) then seen else l2Set pa :: seen
    if seen.length = 8192 then
      regSafePoint (modSlice s st fun x => { x with keepSeen := [] }) (pgL2C st) Reg.l2cKeepWays st
    else modSlice s st fun x => { x with keepSeen := seen }

/-- A merging-buffer entry of a slice goes to its channel controller (R243). -/
def sendL2Entry (s : State) (st : Nat) (e : L2Merge) : State :=
  let s := modSlice s st fun x => { x with mbuf := x.mbuf.filter fun y => y != e }
  pushChan s e.line (.write e.line e.mask e.cmd)

/-- The sectors that a mask covers wholly, of a line: their poison goes (R364). -/
def unpoison (s : State) (line : Nat) (mask : BitVec 128) : State :=
  { s with poison := s.poison.filter fun x =>
      !(decide (line ≤ x ∧ x < line + 128) && (mask &&& maskAt (x - line) 32) == maskAt (x - line) 32) }

/-- The slice's merging buffer takes the bytes of a write over those of `old` (R243): merged with an entry of its line and
command, sent when complete; a new line sends the oldest of 512 entries. -/
def l2Buffer (s : State) (st line : Nat) (mask : BitVec 128) (cmd : Option Nat) (old : List Byte) : State :=
  let x := sliceOf s st
  match x.mbuf.find? fun e => e.line == line && e.cmd == cmd with
  | some e =>
    let e' := { e with mask := e.mask ||| mask, old := mixBytes e.mask 0 old e.old }
    let s := modSlice s st fun x => { x with mbuf := x.mbuf.map fun y => if y = e then e' else y }
    if e'.mask = BitVec.allOnes 128 then sendL2Entry s st e' else s
  | none =>
    let s := match x.mbuf with
      | o :: _ => if x.mbuf.length ≥ 512 then sendL2Entry s st o else s
      | [] => s
    let e : L2Merge := { line, mask, cmd, opened := s.now, old }
    if mask = BitVec.allOnes 128 then pushChan s line (.write line mask cmd)
    else modSlice s st fun x => { x with mbuf := x.mbuf ++ [e] }

/-- The slice accepts writes: it is not draining (R248). -/
def sliceTakes (s : State) (pa : Nat) : Bool := (sliceOf s (sliceIdx s pa)).ctl.draining.isNone

/-- A write performed at the owning slice (R100, R243, R280): its bytes are what memory holds from now on; present sectors
are updated with the hint's effect (R245); a disabled slice passes it straight through (R248). -/
def acceptAtL2 (s : State) (line : Nat) (mask : BitVec 128) (data : List Byte) (cmd : Option Nat) (hint : Nat) : State :=
  let st := sliceIdx s line
  let old := rdBytes s line 128
  let s := { s with mem := putMasked s.mem line 0 mask data }
  if (sliceOf s st).ctl.enabled then
    let limit := keepLimit s st
    let s := match tagFor (mgetD (sliceOf s st).sets (l2Set line) []) line with
      | some t => noteKeep (setL2Set s st line (hitSet limit hint false [] t)) st line hint
      | none => s
    l2Buffer s st line mask cmd old
  else pushChan s line (.write line mask cmd)

/-! ### Sending entries onward (R240, R271, R668) -/

/-- A load of one of the entry's groups to its line is still on its way, or has data of the L1 that an error may yet have
fetched again (R253): the entry stays, so that the load does not see a later store (R92). -/
def loadInFlight (s : State) (core : Nat) (e : MergeEntry) : Bool :=
  (s.ms.reqs.any fun r => r.2.core == core && r.2.cmd == e.cmd && r.2.line == e.line && r.2.load.isSome
    && e.groups.contains r.2.grp && r.2.st != .ready)
  || s.ms.loads.any fun l => l.2.core == core && l.2.cmd == e.cmd && l.2.hit.contains e.line && e.groups.contains l.2.grp

/-- The next stage takes the entry now: the slice, or room in an egress buffer. -/
def entryTaken (s : State) (core : Nat) (e : MergeEntry) : Bool :=
  !loadInFlight s core e &&
  match e.line with
  | .hbm pa => sliceTakes s pa
  | .pair i o => match pairOf s i with
    | some p => p.copying.isNone && sliceTakes s (p.working + o)
    | none => true
  | .fab n _ _ => (peerGone s n).isSome || egressRoom s (pathPort s n) 180
  | .host _ => hostRoom s 128
  | .scr _ => true

/-- Runs of consecutive masked bytes from bit `i` on: offset and bytes. -/
def runsOf (mask : BitVec 128) : Nat → List Byte → List (Nat × List Byte)
  | _, [] => []
  | i, b :: t =>
    let r := runsOf mask (i + 1) t
    if mask.getLsbD i then
      match r with
      | (j, d) :: rest => if j = i + 1 then (i, b :: d) :: rest else (i, [b]) :: r
      | [] => [(i, [b])]
    else r

/-- Bytes of an entry noted with the requests on their way for its line (R92): what they install is overlaid with them. -/
def patchReqs (s : State) (core : Nat) (e : MergeEntry) : State :=
  let bs := (runsOf e.mask 0 e.data).flatMap fun r => (List.range r.2.length).zipWith (fun i b => (r.1 + i, b)) r.2
  let hit (r : LineReq) : Bool := r.core == core && r.line == e.line && (r.cmd == e.cmd || (shadowTag e.cmd e.line).isNone)
  if s.ms.reqs.any fun r => hit r.2 then
    let note (r : Nat × LineReq) : Nat × LineReq := if hit r.2 then (r.1, { r.2 with patch := r.2.patch ++ bs }) else r
    { s with ms := { s.ms with reqs := s.ms.reqs.map note } }
  else s

/-- The message of a masked write: a whole line, or a line with its mask (R396). -/
def writeMsg (mask : BitVec 128) (data : List Byte) : Msg :=
  if mask = BitVec.allOnes 128 then .write data else .writeMasked mask data

/-- A node that a command's SHADOWED writes have reached (R297). -/
def touchNode (s : State) (cmd n : Nat) : State :=
  modCmd s cmd fun c => if c.touchedNodes.contains n then c else { c with touchedNodes := c.touchedNodes ++ [n] }

/-- A write toward a peer enters its ordered queue (R402). -/
def sendWrite (s : State) (n : Nat) (sh : Bool) (a : Nat) (m : Msg) (cls cmd : Nat) (groups : List Nat) : State :=
  let b : Blk := { dst := n, cls, shadow := sh, addr := a, tag := tagOf s cmd, req := 0, psn := 0, msg := m,
                   cmd := some cmd, groups }
  sendOrdered (if sh then touchNode s cmd n else s) b

/-- Host writes of the masked bytes of a line (R287, R322). -/
def sendHost (s : State) (a : Nat) (mask : BitVec 128) (data : List Byte) (cmd : Nat) (groups : List Nat) : State :=
  let t := tenantOf s cmd
  (runsOf mask 0 data).foldl (fun s r =>
    chargeHost (hostWrite s t (a + r.1) r.2 (.store cmd groups (a + r.1) r.2)) (some cmd) r.2.length) s

/-- An entry leaves the core for the next stage; toward a lost peer its command ends (R407). -/
def takeEntry (s : State) (core id : Nat) (e : MergeEntry) : State :=
  let s := patchReqs s core e
  let s := wakeCredit (modCore s core fun k => { k with mbuf := mdel k.mbuf id }) core
  match e.line with
  | .hbm pa => acceptAtL2 s pa e.mask e.data (some e.cmd) e.hint
  | .pair i o => match pairOf s i with
    | some p => acceptAtL2 s (p.working + o) e.mask e.data (some e.cmd) e.hint
    | none => s
  | .fab n sh a =>
    match peerGone s n with
    | some code => failCmd s e.cmd code (pgHNS (pathPort s n)) a
    | none => sendWrite s n sh a (writeMsg e.mask e.data) 2 e.cmd e.groups
  | .host a =>
    let n := s.obj.nextPend
    noteSent (sendHost s a e.mask e.data e.cmd e.groups) core id n
  | .scr _ => s

/-- An entry sent onward if the next stage takes it, else marked as waiting (R240). -/
def sendEntry (s : State) (core id : Nat) : State :=
  match mget (coreOf s core).mbuf id with
  | none => s
  | some e =>
    if entryTaken s core e then takeEntry s core id e
    else modCore s core fun k => { k with mbuf := mset k.mbuf id { e with sent := true } }

/-- Every entry of a core that satisfies `p` sent onward. -/
def sendEntries (s : State) (core : Nat) (p : MergeEntry → Bool) : State :=
  ((coreOf s core).mbuf.filter fun e => p e.2).foldl (fun s e => sendEntry s core e.1) s

/-- A command whose work is done has its entries drained, so that it can commit (R240, R297). -/
def drainIfDone (s : State) (cmd : Nat) : State :=
  match cmdOf s cmd with
  | none => s
  | some c => if workDone s cmd c then c.cores.foldl (fun s k => sendEntries s k fun e => e.cmd == cmd) s else s

/-! ### Line requests (R238, R254, R271) -/

def addReq (s : State) (r : LineReq) : State :=
  { s with ms := { s.ms with reqs := mset s.ms.reqs s.ms.nextReq r, nextReq := s.ms.nextReq + 1 } }

def setReq (s : State) (id : Nat) (r : LineReq) : State := { s with ms := { s.ms with reqs := mset s.ms.reqs id r } }

/-- Outstanding line reads of a core's lanes and movers (R271): a mover's is over once its data is here. -/
def coreReqs (s : State) (core : Nat) : Nat :=
  (s.ms.reqs.filter fun r => r.2.core == core && (r.2.mover.isNone || r.2.st != .ready)).length

/-- The core may make line reads for these lines (R271). -/
def readCredit (s : State) (core : Nat) (lines : List Tgt) : Bool := decide (coreReqs s core + lines.length ≤ 256)

/-- The lowest and one past the highest of a set of sectors. -/
def sectSpan (v : BitVec 4) : Nat × Nat :=
  let l := (List.range 4).filter fun k => v.getLsbD k
  (l.headD 0, l.getLastD 0 + 1)

/-- A request toward a peer, under a request slot of this module (R395, R408). -/
def newOutReq (s : State) (n cmd : Nat) (what : ReqWhat) : Nat × State :=
  let q := s.fab.nextReq % 65536
  let s := { s with fab := { s.fab with nextReq := s.fab.nextReq + 1 } }
  (q, modPeer s n fun p => { p with outReqs := mset p.outReqs q { what, cmd, due := none, psn := none } })

/-- A line request made and sent on its way: to the slice, as a READ to the peer, as an RDMA READ to the host. -/
def sendReq (s : State) (r : LineReq) : State :=
  let id := s.ms.nextReq
  match r.line with
  | .fab n sh a =>
    let sp := sectSpan r.sects
    let q := newOutReq (addReq s { r with st := .atPeer }) n r.cmd (.line id)
    sendRead q.2 { dst := n, cls := 2, shadow := sh, addr := a + 32 * sp.1, tag := tagOf s r.cmd, req := q.1, psn := 0,
                   msg := .read (32 * (sp.2 - sp.1)), cmd := some r.cmd, groups := [] }
  | .host a =>
    let sp := sectSpan r.sects
    hostRead (addReq s { r with st := .toHost }) (tenantOf s r.cmd) (a + 32 * sp.1) (32 * (sp.2 - sp.1))
  | _ => addReq s { r with st := .toL2 }

/-- A mover's line requests made, as far as credits allow (R271). -/
def sendMoverReads (core m : Nat) : Nat → State → State
  | 0, s => s
  | n + 1, s =>
    match mget (coreOf s core).movers m with
    | none => s
    | some x =>
      match x.todo with
      | [] => s
      | e :: rest =>
        if readCredit s core [e.2.1] then
          let s := modCore s core fun k => { k with movers := mset k.movers m { x with todo := rest } }
          sendMoverReads core m n
            (sendReq s { core, grp := e.1, cmd := x.cmd, load := none, mover := some m, line := e.2.1, sects := e.2.2,
                         hint := mvHint (parseMv x.desc), bypass := true, noInstall := true, st := .toL2, data := [],
                         patch := [] })
        else s

/-- A line read is over: the core's movers and groups that wait for its credit go on (R271). -/
def returnCredit (s : State) (core : Nat) : State :=
  wakeCredit ((coreOf s core).movers.foldl (fun s m => sendMoverReads core m.1 m.2.todo.length s) s) core

/-- A request's data is at hand; a mover's gives its credit back. -/
def readyReq (s : State) (id : Nat) (r : LineReq) (data : List Byte) : State :=
  let s := setReq s id { r with st := .ready, data }
  if r.mover.isSome then returnCredit s r.core else s

/-! ### Atomics (R94, R98, R194, R370) -/

/-- The size of an AOP (R94). -/
def aopSize (op : Nat) : Nat := if op = 1 ∨ op = 9 ∨ op = 10 then 8 else 4

/-- What an atomic leaves at its location, and whether it writes memory (R41). -/
def atomApply (op old opnd cmp : Nat) : Nat × Bool :=
  let fp (f : Num → Num → Num) : Nat := toF32T (f (fmtF32.decode (old % 2 ^ 32)) (fmtF32.decode (opnd % 2 ^ 32)))
  match op with
  | 0 => ((old + opnd) % 2 ^ 32, true)
  | 1 => ((old + opnd) % 2 ^ 64, true)
  | 2 => (reduceAdd fmtF32 (old % 2 ^ 32) (opnd % 2 ^ 32), true)
  | 3 => (reduceAdd fmtF16 (old % 65536) (opnd % 65536)
            + 65536 * reduceAdd fmtF16 (old / 65536 % 65536) (opnd / 65536 % 65536), true)
  | 4 => (wrapInt 32 (min (intOf 32 old) (intOf 32 opnd)), true)
  | 5 => (wrapInt 32 (max (intOf 32 old) (intOf 32 opnd)), true)
  | 6 => (fp minT, true)
  | 7 => (fp maxT, true)
  | 8 => (opnd % 2 ^ 32, true)
  | 9 => (opnd % 2 ^ 64, true)
  | _ => if old = cmp then (opnd % 2 ^ 64, true) else (old, false)

/-- Atomics on memory in the order of a list of (offset, operand, comparand): the old values, whether each wrote, the
memory after (R98, R371). -/
def atomsOn (m : List Host.Cell) (sector op : Nat) : List (Nat × DWord × DWord) → List (DWord × Bool) × List Host.Cell
  | [] => ([], m)
  | (off, opnd, cmp) :: t =>
    let n := aopSize op
    let old := fromLe ((List.range n).map fun i => memGet m (sector + off + i))
    let r := atomApply op old opnd.toNat cmp.toNat
    let rest := atomsOn (putBytes m (sector + off) (leBytes n r.1)) sector op t
    ((BitVec.ofNat 64 old, r.2) :: rest.1, rest.2)

/-- A reducing write on whole sectors (R370): every element of the operation's size. -/
def reduceOn (m : List Host.Cell) (a op : Nat) (data : List Byte) : List Host.Cell :=
  let n := aopSize op
  (List.range (data.length / n)).foldl (fun m k =>
    let old := fromLe ((List.range n).map fun i => memGet m (a + n * k + i))
    let r := atomApply op old (fromLe ((data.drop (n * k)).take n)) 0
    putBytes m (a + n * k) (leBytes n r.1)) m

/-- Lanes' operations in one sector reach their channel's reducer, which applies them in the order of arrival (R371, R372). -/
def pushAtoms (s : State) (pa : Nat) (ids : List Nat) : State :=
  let as := ids.filterMap fun i => mget s.ms.atoms i
  match as with
  | [] => s
  | a :: _ =>
    let r := atomsOn s.mem (sectorOf pa) a.op (as.map fun a => (a.tgt.num % 32, a.opnd, a.cmp))
    pushChan { s with mem := r.2 } pa (.atoms (sectorOf pa) ids r.1)

/-- A peer's reducing write reaches its channel's reducer. -/
def pushReduce (s : State) (pa op : Nat) (d : List Byte) (n psn : Nat) : State :=
  pushChan { s with mem := reduceOn s.mem pa op d } pa (.reduce pa d.length n psn)

/-- A peer's atomics in one sector reach their channel's reducer. -/
def pushPeerAtoms (s : State) (pa op : Nat) (es : List AtomEntry) (n req psn : Nat) : State :=
  let r := atomsOn s.mem pa op (es.map fun e => (e.off, e.opnd, e.cmp))
  pushChan { s with mem := r.2 } pa (.peerAtoms pa (es.map AtomEntry.off) (r.1.map Prod.fst) n req psn)

end Sys2Proof.Machine
end

