-- ==== Sys2Proof/Machine/LaneMem.lean ====
section
/-! DEFINITION. The memory instructions of lanes (R83–R100): loads, stores, prefetches, atomics, fences, and the events that
complete them.
Assumption log: DEDUCED 36, 38, 117, 132; DESIGN CHOICE 39, 119. -/

namespace Sys2Proof.Machine

/-! ### Where a lane's access leads (R51, R84–R86, R122, R123, R331) -/

/-- The accesses of a group instruction: lane and address, in lane order. -/
def laneAddrs (m : Word) (addr : Nat → Nat) : List (Nat × Nat) := (lanesIn m).map fun l => (l, addr l)

/-- The lowest lane whose address is not a multiple of the size (R51, R56). -/
def misalignedLane (size : Nat) (as : List (Nat × Nat)) : Option Nat :=
  (as.find? fun a => a.2 % size != 0).map Prod.fst

/-- What translating every page of an instruction finds (R331): every lane's translation and target, the pages that need
a walk, or what ends the command. -/
inductive Placed where
  | ok (l : List (Nat × Trans × Tgt))
  | walk (vas : List Nat)
  | bad (code va : Nat)

def place (s : State) (ctx cmd : Nat) (acc : Access) (size : Nat) : List (Nat × Nat) → Placed
  | [] => .ok []
  | (l, va) :: rest =>
    match xlate s ctx cmd va acc, place s ctx cmd acc size rest with
    | .bad c, _ => .bad c va
    | .walk, .bad c v => .bad c v
    | .walk, .walk vs => .walk (va :: vs)
    | .walk, .ok _ => .walk [va]
    | .ok t, r =>
      if tgtOk s size (t.target s va) then
        match r with
        | .ok ls => .ok ((l, t, t.target s va) :: ls)
        | r => r
      else .bad Code.xltOutOfAperture va

/-- The group waits, and competes no more, until something wakes it. -/
def parkGroup (s : State) (gr : GroupRef) (w : GWait) : State :=
  modGroup s gr.core gr.slot fun g => { g with wait := w, eligAt := none }

/-- Walks begun for pages that an instruction misses, as far as there is room; the group waits for them (R331). -/
def walkPages (s : State) (gr : GroupRef) (g : Group) (acc : Access) (vas : List Nat) : State :=
  let pages := (vas.map fun v => v / 4096 * 4096).eraseDups
  let go := pages.filter (canWalk s (ctxOf s g.cmd) · acc)
  if go.isEmpty then s
  else
    let s := parkGroup s gr (.walk go)
    let r := startWalks (ctxOf s g.cmd) acc (.group gr.core gr.slot g.cmd) pages s
    let left (x : Group) : Group := match x.wait with
      | .walk ps => if x.cmd = g.cmd then { x with wait := .walk (ps.filter r.1.contains) } else x
      | _ => x
    modGroup r.2 gr.core gr.slot left

/-- A target at a peer that takes no requests, with the code that ends them (R407). -/
def goneTarget (s : State) (l : List (Nat × Trans × Tgt)) : Option (Nat × Nat) :=
  l.findSome? fun e => match e.2.2 with
    | .fab n _ _ => (peerGone s n).map fun c => (c, n)
    | _ => none

/-- A replayable command's write to IN_PLACE, CHANNEL or host-half memory (R306). -/
def undeclared (s : State) (cmd : Nat) (l : List (Nat × Trans × Tgt)) : Bool :=
  (match cmdOf s cmd with | some c => c.replayable && !c.d.isGang | none => false) && l.any fun e => e.2.1.kind != 1

/-- An access of lanes to global memory: the faults of R51 and R123 in their order, `extra` among them, the translation, an
undeclared write (R306, R317), a lost peer; then `k`. -/
def globalAccess (gr : GroupRef) (s : State) (g : Group) (acc : Access) (size : Nat) (as : List (Nat × Nat))
    (extra : Option Nat) (k : List (Nat × Trans × Tgt) → LaneRes) : LaneRes :=
  match misalignedLane size as with
  | some l => .fault Code.groupMisaligned l
  | none =>
    if as.any fun a => decide (a.2 ≥ 2 ^ 57) then .fault Code.groupAddressRange 0
    else
      match extra with
      | some c => .fault c 0
      | none =>
        match place s (ctxOf s g.cmd) g.cmd acc size as with
        | .bad c va => .stall (failCmd s g.cmd c pgXLT va)
        | .walk vas => .stall (walkPages s gr g acc vas)
        | .ok l =>
          if acc = .write ∧ undeclared s g.cmd l = true then .fault Code.groupUndeclaredWrite 0
          else
            match goneTarget s l with
            | some (c, n) => .stall (failCmd s g.cmd c (pgHNS (pathPort s n)) 0)
            | none => k l

/-- An access of lanes to scratchpad: alignment, then the bounds of the allocation (R86). -/
def scratchAccess (s : State) (core cmd size : Nat) (as : List (Nat × Nat)) (k : LaneRes) : LaneRes :=
  match misalignedLane size as with
  | some l => .fault Code.groupMisaligned l
  | none =>
    if as.any fun a => decide (a.2 + size > allocBytes (coreOf s core) cmd) then .fault Code.groupAddressRange 0 else k

/-- The distinct sectors of targets (R54). -/
def sectorsOf (l : List (Nat × Trans × Tgt)) : List (Tgt × Nat) :=
  (l.map fun e => (e.2.2.line, e.2.2.sect)).eraseDups

/-- The port-cycles of an access: the distinct sectors that its lanes address (R54). -/
def portCost (as : List (Nat × Nat)) : Nat := (as.map fun a => a.2 / 32).eraseDups.length

/-- The distinct local pairs of targets, ascending. -/
def pairsOf (l : List (Nat × Trans × Tgt)) : List Nat :=
  sortBy (fun a b => decide (a ≤ b)) ((l.filterMap fun e => match e.2.2 with | .pair i _ => some i | _ => none).eraseDups)

/-- A pair that the command owns and whose copy is under way (R293). -/
def copyingPair (s : State) (cmd : Nat) (ps : List Nat) : Option Nat :=
  ps.find? fun i => match pairOf s i with
    | some p => p.ownedBy (nodeId s) (tagOf s cmd) && p.copying.isSome
    | none => false

/-! ### Loads (R84, R87, R92, R238, R241) -/

/-- The registers of a load's destination owe its data. -/
def oweLoad (g : Group) (dst : BitVec 8) (n id : Nat) : Group :=
  { g with sb := g.sb ++ (vRes dst n).map fun r => (r, .load id) }

def addLoad (s : State) (r : LoadRec) : State :=
  { s with ms := { s.ms with loads := mset s.ms.loads s.ms.nextLoad r, nextLoad := s.ms.nextLoad + 1 } }

/-- A load from scratchpad (R234, R235): its data is read as it stands, and is usable 24 cycles later and the cycles that
the lane path costs. -/
def scratchLoad (s : State) (gr : GroupRef) (g : Group) (dst : Nat) (sreg sign : Bool) (size : Nat) (as : List (Nat × Nat)) :
    State :=
  let k := coreOf s gr.core
  let units := as.map fun a => a.2 / 32
  let t := takeLanePath s gr.core (bankCost (as.map Prod.snd) units)
  let s := t.2
  let accs := as.map fun a =>
    ({ lane := a.1, tgt := .scr a.2, hit := false, held := [], data := scrBytes k g.cmd a.2 size } : LaneAcc)
  let id := s.ms.nextLoad
  let s := addLoad s { core := gr.core, slot := gr.slot, grp := g.index, cmd := g.cmd, hint := 0, dst, sreg, size, sign, accs,
                       waits := [], hit := [], ready := t.1 + 24 }
  awaitBanks s gr.core (some id) (as.map Prod.snd)

/-- The words that an access other than a load reads from the scratchpad, to change them: what a read of them finds is judged
as a load's is, which writes no register (R236). `t` is the cycle by which the lane path has done the access. -/
def readToChange (s : State) (gr : GroupRef) (g : Group) (t size : Nat) (as : List (Nat × Nat)) : State :=
  let accs := as.map fun a =>
    ({ lane := a.1, tgt := .scr a.2, hit := false, held := [], data := scrBytes (coreOf s gr.core) g.cmd a.2 size } : LaneAcc)
  addLoad s { core := gr.core, slot := gr.slot, grp := g.index, cmd := g.cmd, hint := 0, dst := 0xFF, sreg := false, size,
              sign := false, accs, waits := [], hit := [], ready := t + 24 }

/-- The bytes held for a load: of a CHANNEL line, which is read no older than its last performed write, only those of entries
that hold stores of the load's own group (R92, R241, R282). -/
def heldFor (s : State) (core : Nat) (g : Group) (size kind : Nat) (t : Tgt) : List (Option Byte) :=
  if kind = 2 then
    (List.range size).map fun i =>
      ((coreOf s core).mbuf.find? fun e => e.2.cmd == g.cmd && e.2.line == t.line && e.2.groups.contains g.index
        && e.2.mask.getLsbD (t.off + i)).map fun e => e.2.data.getD (t.off + i) 0
  else heldBytes s core g.cmd g.index t size

/-- A load's lane access with what is at hand: the L1's data where its sector is valid, else the bytes held (R241). -/
def loadAcc (s : State) (core : Nat) (g : Group) (size : Nat) (bypass : Bool) (e : Nat × Trans × Tgt) : LaneAcc :=
  let line := e.2.2.line
  let hit := if bypass ∨ e.2.1.kind = 2 then none else
    match l1Find (coreOf s core) g.cmd line with
    | some x => if l1On (coreOf s core) && x.valid.getLsbD e.2.2.sect then some x else none
    | none => none
  match hit with
  | some x => { lane := e.1, tgt := e.2.2, hit := true, held := heldFor s core g size e.2.1.kind e.2.2,
                data := (x.data.drop e.2.2.off).take size }
  | none => { lane := e.1, tgt := e.2.2, hit := false, held := heldFor s core g size e.2.1.kind e.2.2, data := [] }

/-- A store of the group to a CHANNEL line that a load addresses is on its way to another module or to the host (R92, R282):
the load waits until it is performed there. -/
def channelSent (s : State) (g : Group) (size : Nat) (l : List (Nat × Trans × Tgt)) : Bool :=
  l.any fun e => e.2.1.kind == 2 && (List.range size).any fun i => (sentByte s g.cmd g.index (e.2.2.shift i)).isSome

/-- The sectors of a line that an instruction's unserved accesses address. -/
def missing (accs : List LaneAcc) (line : Tgt) : BitVec 4 :=
  accs.foldl (fun v a => if a.data.isEmpty ∧ a.tgt.line = line then v ||| (1#4 <<< a.tgt.sect) else v) 0

/-- The lines that an instruction misses. -/
def missLines (accs : List LaneAcc) : List Tgt :=
  ((accs.filter fun a => a.data.isEmpty).map fun a => a.tgt.line).eraseDups

/-- The kind of the object behind a line, of an instruction's targets. -/
def kindFor (l : List (Nat × Trans × Tgt)) (line : Tgt) : Nat :=
  ((l.find? fun e => e.2.2.line == line).map fun e => e.2.1.kind).getD 0

/-- One request for each line that an instruction misses (R238). -/
def requestLines (s : State) (core : Nat) (g : Group) (load : Option Nat) (hint : Nat) (bypass : Bool)
    (l : List (Nat × Trans × Tgt)) (accs : List LaneAcc) : State :=
  (missLines accs).foldl (fun s line =>
    sendReq s { core, grp := g.index, cmd := g.cmd, load, mover := none, line, sects := missing accs line, hint,
                bypass := bypass || kindFor l line == 2, noInstall := false, st := .toL2, data := [], patch := [] }) s

/-- L1 hits and misses counted, by sector. -/
def countL1 (s : State) (core : Nat) (ctx : Nat) (accs : List LaneAcc) : State :=
  let n (p : LaneAcc → Bool) : Nat := ((accs.filter p).map fun a => (a.tgt.line, a.tgt.sect)).eraseDups.length
  let h := n fun a => !a.data.isEmpty
  let m := n fun a => a.data.isEmpty
  let s := if h = 0 then s else pmcEvent s (pgTMV core) 0x0102 h (some ctx)
  if m = 0 then s else pmcEvent s (pgTMV core) 0x0103 m (some ctx)

/-- A load from global memory: 32 cycles from the L1, else until every line it misses has returned. -/
def globalLoad (s : State) (gr : GroupRef) (g : Group) (dst : Nat) (sreg sign : Bool) (size hint : Nat) (bypass : Bool)
    (ports : Nat) (l : List (Nat × Trans × Tgt)) : LaneRes :=
  match copyingPair s g.cmd (pairsOf l) with
  | some i => .stall (parkGroup s gr (.frameCopy i))
  | none =>
    let accs := l.map (loadAcc s gr.core g size bypass)
    let lines := missLines accs
    if channelSent s g size l then .stall (parkGroup s gr (.fence 2))
    else if !readCredit s gr.core lines then .stall (parkGroup s gr .credit)
    else
      let t := takePorts s gr.core ports (ctxOf s g.cmd)
      let s := countL1 t.2 gr.core (ctxOf s g.cmd) accs
      let hitLines := ((accs.filter fun a => !a.data.isEmpty).map fun a => a.tgt.line).eraseDups
      let s := modCore s gr.core fun k => hitLines.foldl (fun k ln =>
        match l1Find k g.cmd ln with
        | some x => l1Put k g.cmd ln x
        | none => k) k
      let waits := (List.range lines.length).map fun i => s.ms.nextReq + i
      let id := s.ms.nextLoad
      let s := addLoad s { core := gr.core, slot := gr.slot, grp := g.index, cmd := g.cmd, hint, dst, sreg, size, sign, accs,
                           waits, hit := hitLines, ready := t.1 + 32 }
      .done (requestLines s gr.core g (some id) hint bypass l accs)

/-- LD (R83–R88). -/
def doLd (gr : GroupRef) (f : FmtM) (s : State) (g : Group) : LaneRes :=
  let size := accBytes f.size
  let as := laneAddrs (g.eff f.pred) (addrM g f)
  let owe (s : State) (id : Nat) : State := modGroup s gr.core gr.slot fun x => oweLoad x f.data (runFor f.size) id
  if as.isEmpty then .done s
  else if f.space = 1#2 then
    scratchAccess s gr.core g.cmd size as
      (.done (owe (scratchLoad s gr g f.data.toNat false f.sign size as) s.ms.nextLoad))
  else
    globalAccess gr s g .read size as none fun l =>
      match globalLoad s gr g f.data.toNat false f.sign size f.hint.toNat (f.space == 2#2) (portCost as) l with
      | .done t => .done (owe t s.ms.nextLoad)
      | r => r

def execLd (g : GroupRef) (f : FmtM) (s : State) : Host.Outcome State Fault Refusal := issue g (.ld g f) (doLd g f) s

/-- LDSC: one load of one value for the group (R89, R667). DESIGN CHOICE (log entry 119): it is an access of no lane, and a
misaligned one records lane 0 whether or not lane 0 is in the effective mask. -/
def doLdsc (gr : GroupRef) (f : FmtM) (s : State) (g : Group) : LaneRes :=
  let size := accBytes f.size
  let owe (s : State) (id : Nat) : State :=
    modGroup s gr.core gr.slot fun x => { x with sb := x.sb ++ [(Res.s f.data.toNat, .load id)] }
  if g.eff f.pred = 0 then .done s
  else
    let as : List (Nat × Nat) := [(0, (g.base f.sbase f.nobase + offsetM f) % 2 ^ 64)]
    if f.space = 1#2 then
      scratchAccess s gr.core g.cmd size as
        (.done (owe (scratchLoad s gr g f.data.toNat true false size as) s.ms.nextLoad))
    else
      globalAccess gr s g .read size as none fun l =>
        match globalLoad s gr g f.data.toNat true false size f.hint.toNat (f.space == 2#2) (portCost as) l with
        | .done t => .done (owe t s.ms.nextLoad)
        | r => r

def execLdsc (g : GroupRef) (f : FmtM) (s : State) : Host.Outcome State Fault Refusal := issue g (.ldsc g f) (doLdsc g f) s

/-- The translations that a prefetch finds; pages that miss are dropped (R90). -/
def prefetchPlaces (s : State) (g : Group) (size : Nat) (as : List (Nat × Nat)) : List (Nat × Trans × Tgt) :=
  as.filterMap fun a =>
    match xlate s (ctxOf s g.cmd) g.cmd a.2 .read with
    | .ok t =>
      let tg := t.target s a.2
      let lost := match tg with | .fab n _ _ => (peerGone s n).isSome | _ => false
      if tgtOk s size tg && !lost then some (a.1, t, tg) else none
    | _ => none

/-- PREFETCH: line requests without a load (R90); in scratchpad it brings nothing anywhere. DESIGN CHOICE (log entry 119): with
SPACE 0b10 its lines are not installed in the L1, which R87 has such loads bypass. -/
def doPrefetch (gr : GroupRef) (f : FmtM) (s : State) (g : Group) : LaneRes :=
  let size := accBytes f.size
  let as := laneAddrs (g.eff f.pred) (addrM g f)
  if as.isEmpty then .done s
  else if f.space = 1#2 then scratchAccess s gr.core g.cmd size as (.done s)
  else
    match misalignedLane size as with
    | some l => .fault Code.groupMisaligned l
    | none =>
      if as.any fun a => decide (a.2 ≥ 2 ^ 57) then .fault Code.groupAddressRange 0
      else
        let l := prefetchPlaces s g size as
        let accs := l.map (loadAcc s gr.core g size (f.space == 2#2))
        match copyingPair s g.cmd (pairsOf l) with
        | some i => .stall (parkGroup s gr (.frameCopy i))
        | none =>
          if !readCredit s gr.core (missLines accs) then .stall (parkGroup s gr .credit)
          else
            let s := (takePorts s gr.core (portCost as) (ctxOf s g.cmd)).2
            let s := countL1 s gr.core (ctxOf s g.cmd) accs
            .done (requestLines s gr.core g none f.hint.toNat (f.space == 2#2) l accs)

def execPrefetch (g : GroupRef) (f : FmtM) (s : State) : Host.Outcome State Fault Refusal :=
  issue g (.prefetch g f) (doPrefetch g f) s

/-! ### LOAD_DATA_RETURN -/

/-- A lane's value: sign- or zero-extended (R83). -/
def loadValue (size : Nat) (sign : Bool) (d : List Byte) : Nat :=
  if sign then wrapInt 32 (intOf (8 * size) (fromLe d)) else fromLe d

/-- A load's registers written (R92); a scalar one takes the value zero-extended. -/
def writeLoad (g : Group) (r : LoadRec) : Group :=
  let val (l : Nat) : Nat := match r.accs.find? fun a => a.lane == l with
    | some a => loadValue r.size r.sign a.data
    | none => 0
  if r.sreg then g.putS r.dst (BitVec.ofNat 64 (val 0))
  else
    let m := maskOf fun l => r.accs.any fun a => a.lane == l
    g.putRun (BitVec.ofNat 8 r.dst) m ((List.range 32).map val) (if r.size ≤ 4 then 1 else r.size / 4)

/-- What the load owed is paid. -/
def payLoad (g : Group) (id : Nat) : Group := { g with sb := g.sb.filter fun e => e.2 != .load id }

/-- All data of the load is here and its latency has passed (R56). -/
def loadReady (s : State) (gr : GroupRef) (id : Nat) : Bool :=
  match mget s.ms.loads id with
  | some r => r.core == gr.core && r.slot == gr.slot && r.waits.isEmpty && decide (r.ready ≤ coreCyc s gr.core)
                && clockRuns s gr.core
  | none => false

/-- The L1 lines that gave a load data dropped and fetched again, as misses of the load: an uncorrectable error or a tag error
(R253). -/
def refetch (s : State) (core id : Nat) (r : LoadRec) (u : Upset) : State :=
  let code := if u = .tag then Code.tagParity else Code.memCacheRefetch
  let s := modCore s core fun k => { k with l1 := k.l1.filter fun e => !r.hit.any fun ln => l1Key r.cmd ln e }
  let s := r.hit.foldl (fun s _ =>
    let e := reg s Reg.tmvEcc core
    let s := if bitsOf e 23 12 = 4095 then s else setReg s Reg.tmvEcc core (e + 4096)
    errWrite s (errBase s code 1 (pgId (pgTMV core)))) s
  let accs := r.accs.map fun a => if a.hit then { a with hit := false, data := [] } else a
  let lines := missLines accs
  let waits := (List.range lines.length).map fun i => s.ms.nextReq + i
  let s := { s with ms := { s.ms with loads := mset s.ms.loads id { r with accs, waits, hit := [] } } }
  lines.foldl (fun s line =>
    sendReq s { core, grp := r.grp, cmd := r.cmd, load := some id, mover := none, line, sects := missing accs line,
                hint := r.hint, bypass := false, noInstall := false, st := .toL2, data := [], patch := [] }) s

/-- Whether a load read the scratchpad, with the offset of its first access. -/
def scrOf (r : LoadRec) : Option Nat :=
  match r.accs with
  | a :: _ => match a.tgt with
    | .scr o => some o
    | _ => none
  | [] => none

def finishLoad (s : State) (gr : GroupRef) (id : Nat) (r : LoadRec) : State :=
  let s := modGroup s gr.core gr.slot fun g => payLoad (if g.cmd = r.cmd then writeLoad g r else g) id
  let s := modCore s gr.core fun k => { k with bankWaits := k.bankWaits.filter fun w => w.load != some id }
  { s with ms := { s.ms with loads := mdel s.ms.loads id } }

def doLoadReturn (s : State) (gr : GroupRef) (id : Nat) (u : Upset) : State :=
  match mget s.ms.loads id with
  | none => s
  | some r =>
    match scrOf r, u with
    | some o, .uncorrectable => scrUncorr s gr.core r.cmd o
    | some _, .corrected => finishLoad (scrCorr s gr.core) gr id r
    | none, .uncorrectable | none, .tag => if r.hit.isEmpty then finishLoad s gr id r else refetch s gr.core id r u
    | _, _ => finishLoad s gr id r

def execLoadDataReturn (g : GroupRef) (load : Nat) (u : Upset) (s : State) : Host.Outcome State Fault Refusal :=
  if loadReady s g load then .next (doLoadReturn s g load u) else .next s

/-! ### Line requests that return (R238, R241, R242) -/

/-- The line's data where a request covers its access, with the bytes that were held. -/
def fillAcc (line : Tgt) (sects : BitVec 4) (data : List Byte) (size : Nat) (a : LaneAcc) : LaneAcc :=
  if a.data.isEmpty ∧ a.tgt.line = line ∧ sects.getLsbD a.tgt.sect then
    let d := (data.drop a.tgt.off).take size
    { a with data := (d.zip (a.held ++ List.replicate size none)).map fun p => p.2.getD p.1 }
  else a

/-- What a fill installs: the data, under the bytes that the core's stores have sent or still hold (R92, R241). -/
def installData (s : State) (r : LineReq) (data : List Byte) : List Byte :=
  let d := r.patch.foldl (fun d p => putAt d p.1 [p.2]) data
  (d.zip (List.range 128)).map fun p => (mbByte (coreOf s r.core) r.cmd r.line p.2).getD p.1

/-- A request's data reaches its load, and the L1 unless the request bypasses it, an invalidate followed it, or the L1 is
off (R238, R242, R248). A mover's request keeps its data until its tile is written. -/
def deliver (s : State) (id : Nat) (r : LineReq) (data : List Byte) : State :=
  if r.mover.isSome then readyReq s id r data
  else
    let s := match r.load with
      | none => s
      | some l =>
        let upd (x : LoadRec) : LoadRec :=
          { x with accs := x.accs.map (fillAcc r.line r.sects data x.size), waits := x.waits.filter fun w => w != id }
        { s with ms := { s.ms with loads := mmod s.ms.loads l upd } }
    let k := coreOf s r.core
    let s :=
      if !r.bypass && !r.noInstall && l1On k && k.l1ctl.invBusy.isNone then
        let d := installData s r data
        modCore s r.core fun k => l1Install k r.cmd r.line r.sects d
      else s
    returnCredit { s with ms := { s.ms with reqs := mdel s.ms.reqs id } } r.core

/-- The bytes that a request's RDMA READ brings, at their place in the line. -/
def hostLine (r : LineReq) (data : List Byte) : List Byte := putAt zeroLine (32 * (sectSpan r.sects).1) data

/-- The request's data is here, or the host's READ returns it now. -/
def fillReady (s : State) (core id : Nat) (data : List Byte) : Bool :=
  match mget s.ms.reqs id with
  | some r => r.core == core && match r.st with
    | .ready => r.mover.isNone
    | .toHost => hostUp s && decide (data.length = 32 * ((sectSpan r.sects).2 - (sectSpan r.sects).1))
    | _ => false
  | none => false

def doFill (s : State) (id : Nat) (data : List Byte) : State :=
  match mget s.ms.reqs id with
  | none => s
  | some r =>
    if r.st = .toHost then deliver (chargeHost s (some r.cmd) data.length) id r (hostLine r data)
    else deliver s id r r.data

def execL1Fill (core req : Nat) (data : List Byte) (s : State) : Host.Outcome State Fault Refusal :=
  if fillReady s core req data then .next (doFill s req data) else .next s

/-! ### The slices (R244–R247, R253, R373) -/

/-- The physical line that a local request reads. -/
def reqPa (s : State) (r : LineReq) : Option Nat := localPa s r.cmd r.line

/-- A reduction, an atomic or a partial merge on one of the sectors has not returned to the slice (R373). -/
def sectorHeld (s : State) (line : Nat) (sects : BitVec 4) : Bool :=
  let mine (a : Nat) : Bool := decide (line ≤ a ∧ a < line + 128) && sects.getLsbD ((a - line) / 32)
  let c := channelOf s line
  (s.ms.results.any fun r => r.2.sectors.any mine) ||
  (chanOf s c.1 c.2).queue.any fun o => match o with
    | .atoms pa _ _ => mine pa
    | .reduce pa n _ _ => (List.range (n / 32)).any fun k => mine (pa + 32 * k)
    | .peerAtoms pa _ _ _ _ _ => mine pa
    | .write l m _ => decide (l = line) && (List.range 4).any fun k =>
        sects.getLsbD k && (m &&& maskAt (32 * k) 32) != 0 && (m &&& maskAt (32 * k) 32) != maskAt (32 * k) 32
    | _ => false

/-- A slice can look the request up now. -/
def lookupReady (s : State) (id : Nat) : Bool :=
  match mget s.ms.reqs id with
  | some r =>
    r.st == .toL2 && match r.line with
      | .pair i _ => match pairOf s i with
        | some p => !(p.ownedBy (nodeId s) (tagOf s r.cmd) && p.copying.isSome)
                      && !sectorHeld s ((reqPa s r).getD 0) r.sects
        | none => true
      | _ => !sectorHeld s ((reqPa s r).getD 0) r.sects
  | none => false

/-- A line with an uncorrectable error or a tag error leaves the slice, and the event is recorded (R253). -/
def l2Upset (s : State) (st pa : Nat) (u : Upset) : State :=
  let present := (tagFor (mgetD (sliceOf s st).sets (l2Set pa) []) pa).isSome
  if present ∧ (u = .uncorrectable ∨ u = .tag) then
    let s := setL2Set s st pa fun l => withoutTag l pa
    let e := reg s Reg.l2cEcc st
    let s := if u = .tag then (if bitsOf e 23 12 = 4095 then s else setReg s Reg.l2cEcc st (e + 4096))
             else (if bitsOf e 11 0 = 4095 then s else setReg s Reg.l2cEcc st (e + 1))
    errWrite s { errBase s (if u = .tag then Code.tagParity else Code.memCacheRefetch) 1 (pgId (pgL2C st)) with addr := pa }
  else s

/-- The other requests of a line that reached the slice before one and are not yet looked up (R247). -/
def earlier (s : State) (id pa : Nat) : List Nat :=
  (s.ms.reqs.filter fun r => decide (r.1 < id) && r.2.st == .toL2 && reqPa s r.2 == some pa).map Prod.fst

/-- A line that a LAST hit has dropped still serves the requests that came before that hit (R247). -/
def tagServes (t : L2Tag) (id : Nat) : Bool := match t.last with
  | some ids => ids.contains id
  | none => true

/-- A request that the line of a LAST hit was still there for is served: the last of them drops it (R247). -/
def servedLast (s : State) (st pa id : Nat) (t : L2Tag) : State :=
  match t.last with
  | none => s
  | some ids =>
    let left := ids.filter fun i => i != id && match mget s.ms.reqs i with
      | some r => r.st == .toL2
      | none => false
    setL2Set s st pa fun l =>
      if left.isEmpty then withoutTag l pa else l.map fun x => if x.line = pa then { x with last := some left } else x

/-- A miss goes on to the channel. -/
def toChannel (s : State) (id : Nat) (r : LineReq) (pa : Nat) : State :=
  let own := ownSectors s (((List.range 4).filter fun k => r.sects.getLsbD k).map fun k => pa + 32 * k)
  pushChan (setReq s id { r with st := .toChannel }) pa (.read id own)

/-- One lookup (R244, R245): a hit returns the line's data under the hint's rule, a miss reads the channel. -/
def doLookup (s : State) (id : Nat) (u : Upset) : State :=
  match mget s.ms.reqs id with
  | none => s
  | some r =>
    match reqPa s r with
    | none => failCmd s r.cmd Code.memReservedRefused pgDEV 0
    | some pa =>
      let st := sliceIdx s pa
      let s := l2Upset s st pa u
      let s := pmcEvent s (pgL2C st) 0x0100 1 (some (ctxOf s r.cmd))
      let x := sliceOf s st
      match tagFor (mgetD x.sets (l2Set pa) []) pa with
      | some t =>
        if x.ctl.enabled && tagServes t id && t.valid &&& r.sects == r.sects then
          let s := pmcEvent s (pgL2C st) 0x0101 1 (some (ctxOf s r.cmd))
          let early := earlier s id pa
          let s := if t.last.isSome then servedLast s st pa id t
                   else noteKeep (setL2Set s st pa (hitSet (keepLimit s st) r.hint true early t)) st pa r.hint
          readyReq s id r (rdBytes s pa 128)
        else toChannel s id r pa
      | none => toChannel s id r pa

def execL2Lookup (req : Nat) (u : Upset) (s : State) : Host.Outcome State Fault Refusal :=
  if lookupReady s req then .next (doLookup s req u) else .next s

/-- The entry of a slice's merging buffer for a line that has been open for 1,024 cycles. -/
def l2Due (s : State) (slice line : Nat) : Option L2Merge :=
  (sliceOf s slice).mbuf.find? fun e => e.line == line && since s e.opened 1024

/-- The slice's entry of a line. -/
def l2Entry (s : State) (slice line : Nat) : Option L2Merge := (sliceOf s slice).mbuf.find? fun e => e.line == line

/-- An entry of a slice found with an uncorrectable error is discarded and ends its command (R254): its bytes are lost, and
memory holds what they were written over. -/
def loseL2Entry (s : State) (slice : Nat) (e : L2Merge) : State :=
  let s := modSlice s slice fun x => { x with mbuf := x.mbuf.filter fun y => y != e }
  let s := { s with mem := putMasked s.mem e.line 0 e.mask e.old }
  let s := errWrite (pgErr s (pgL2C slice) Code.memEccUncorr)
    { errBase s Code.memEccUncorr 2 (pgId (pgL2C slice)) with addr := e.line }
  match e.cmd with
  | some c => failCmd s c Code.memEccUncorr (pgL2C slice) e.line
  | none => s

/-- The row carries an entry's uncorrectable error, whenever it is found; without one it sends an entry that is due. -/
def execL2MbufTimeout (slice line : Nat) (u : Upset) (s : State) : Host.Outcome State Fault Refusal :=
  if u = .uncorrectable then
    match l2Entry s slice line with
    | some e => .next (loseL2Entry s slice e)
    | none => .next s
  else
    match l2Due s slice line with
    | some e => .next (sendL2Entry s slice e)
    | none => .next s

/-! ### Stores (R86, R87, R91, R239, R240, R256, R288, R293, R295, R306) -/

/-- The bytes that lane `l` stores. -/
def storeBytes (g : Group) (f : FmtM) (l : Nat) : List Byte := leBytes (accBytes f.size) (g.vrun f.data l (runFor f.size))

/-- The slots that a scratchpad store launches, in lane order (R256): those whose byte 0x7F is left with bit 7 set. -/
def launchedSlots (k : CoreSt) (cmd size : Nat) (as : List (Nat × Nat)) : List Nat :=
  ((as.filterMap fun a => goSlot a.2 size).eraseDups).filter fun n =>
    decide ((scrByte k cmd (n * 128 + 127)).toNat ≥ 128)

/-- A scratchpad store (R234, R236, R256, R263). -/
def scratchStore (s : State) (gr : GroupRef) (g : Group) (f : FmtM) (as : List (Nat × Nat)) : LaneRes :=
  let size := accBytes f.size
  let k := coreOf s gr.core
  let k' := as.foldl (fun k a => scrPutBytes k g.cmd a.2 (storeBytes g f a.1)) k
  let slots := launchedSlots k' g.cmd size as
  let touched := (as.filterMap fun a => goSlot a.2 size).eraseDups
  if slots.any fun n => !mvOk (parseMv (scrBytes k' g.cmd (n * 128) 128)) (allocBytes k g.cmd) then
    .fault Code.groupMoverDesc 0
  else
    match slots.find? fun n => slotBusy k g.cmd n with
    | some n => .stall (parkGroup s gr (.moverSlot n))
    | none =>
      let t := takeLanePath s gr.core (bankCost (as.map Prod.snd) (as.map fun a => a.2 / 32))
      let s := if size < 4 then readToChange t.2 gr g t.1 size as else t.2
      let s := awaitBanks s gr.core none (as.map Prod.snd)
      let s := modCore s gr.core fun k => as.foldl (fun k a => scrPutBytes k g.cmd a.2 (storeBytes g f a.1)) k
      let s := slots.foldl (fun s n => launchSlot s gr g.cmd n) s
      let s := modCore s gr.core fun k => touched.foldl (fun k n => fixGo k g.cmd n) k
      .done (coreProgress (clearFpc s gr.core gr.slot) gr.core)

/-- A write to the pair is one of its owner's, or makes the command its owner (R295). -/
def pairFree (s : State) (cmd : Nat) (i : Nat) : Bool :=
  match pairOf s i with
  | some p => p.state == .idle || (p.state == .owned && p.ownedBy (nodeId s) (tagOf s cmd))
  | none => true

/-- The pair owned by the command and touched (R288, R293, R295). -/
def ownPair (s : State) (cmd i : Nat) : State :=
  let s := modPair s i fun p => if p.state = .idle then p.given (nodeId s) (tagOf s cmd) false else p
  touchPair s i

/-- The gate of a write to local SHADOWED lines: a busy pair ends the command, a copy makes the group wait. -/
inductive Gate where
  | go (s : State)
  | halt (s : State)

def writeGate (s : State) (gr : GroupRef) (cmd : Nat) (ps : List Nat) : Gate :=
  match ps.find? fun i => !pairFree s cmd i with
  | some i => .halt (busyEnd s cmd ⟨nodeId s, i, false⟩)
  | none =>
    let s := ps.foldl (fun s i => ownPair s cmd i) s
    match copyingPair s cmd ps with
    | some i => .halt (parkGroup s gr (.frameCopy i))
    | none => .go s

/-- Entries that stores to these lines would open. -/
def newEntries (k : CoreSt) (cmd : Nat) (lines : List Tgt) : Nat := (lines.filter fun ln => (mbFind k cmd ln).isNone).length

/-- The oldest entry not yet waiting for its next stage. -/
def oldestEntry (k : CoreSt) : Option Nat :=
  (k.mbuf.foldl (fun (b : Option (Nat × Nat)) e =>
    if e.2.sent then b
    else match b with
      | some (_, o) => if e.2.opened < o then some (e.1, e.2.opened) else b
      | none => some (e.1, e.2.opened)) none).map Prod.fst

/-- Room made for a store's entries by sending the oldest (R240). -/
def makeRoom (core cmd : Nat) (lines : List Tgt) : Nat → State → State
  | 0, s => s
  | n + 1, s =>
    let k := coreOf s core
    if k.mbuf.length + newEntries k cmd lines ≤ 64 then s
    else
      match oldestEntry k with
      | some i => makeRoom core cmd lines n (sendEntry s core i)
      | none => s

/-- A lane's bytes into the L1 and the merging buffer (R239, R240). -/
def bufferStore (s : State) (core : Nat) (g : Group) (hint : Nat) (t : Tgt) (b : List Byte) : State :=
  let cyc := coreCyc s core
  modCore s core fun k =>
    let k := if l1On k then l1Store k g.cmd t.line t.off b else k
    let m := maskAt t.off b.length
    match mbFind k g.cmd t.line with
    | some (i, e) =>
      let gs := if e.groups.contains g.index then e.groups else g.index :: e.groups
      { k with mbuf := mset k.mbuf i { e with mask := e.mask ||| m, data := putAt e.data t.off b, groups := gs, hint } }
    | none =>
      let e : MergeEntry := { cmd := g.cmd, line := t.line, mask := m, data := putAt zeroLine t.off b, opened := cyc,
                              groups := [g.index], hint, sent := false }
      { k with mbuf := mset k.mbuf k.nextMb e, nextMb := k.nextMb + 1 }

/-- The next stage would take a store to this line now, past a merging buffer that is off (R248). -/
def straightOk (s : State) (core : Nat) (g : Group) (line : Tgt) : Bool :=
  entryTaken s core { cmd := g.cmd, line, mask := 0, data := [], opened := 0, groups := [g.index], hint := 0, sent := false }

/-- A store accepted by the load/store unit: into the L1 and the merging buffer, complete entries sent (R41, R240). -/
def acceptStore (s : State) (gr : GroupRef) (g : Group) (hint ports : Nat) (l : List (Nat × Trans × Tgt))
    (bytes : Nat → List Byte) : State :=
  let s := (takePorts s gr.core ports (ctxOf s g.cmd)).2
  let s := l.foldl (fun s e => bufferStore s gr.core g hint e.2.2 (bytes e.1)) s
  let s := coreProgress (clearFpc s gr.core gr.slot) gr.core
  if l1On (coreOf s gr.core) then sendEntries s gr.core fun e => e.mask == BitVec.allOnes 128
  else sendEntries s gr.core fun e => e.cmd == g.cmd

/-- A store to global memory after translation. -/
def globalStore (s : State) (gr : GroupRef) (g : Group) (hint ports : Nat) (l : List (Nat × Trans × Tgt))
    (bytes : Nat → List Byte) : LaneRes :=
    match writeGate s gr g.cmd (pairsOf l) with
    | .halt s => .stall s
    | .go s =>
      let lines := (l.map fun e => e.2.2.line).eraseDups
      let stall (s : State) : LaneRes :=
        .stall (pmcEvent (parkGroup s gr .credit) (pgTMV gr.core) 0x0104 1 (some (ctxOf s g.cmd)))
      if (coreOf s gr.core).l1ctl.draining.isSome then .stall (parkGroup s gr .drainHeld)
      else if !l1On (coreOf s gr.core) then
        if lines.all (straightOk s gr.core g) then .done (acceptStore s gr g hint ports l bytes) else stall s
      else
        let s := makeRoom gr.core g.cmd lines 64 s
        let k := coreOf s gr.core
        if (cmdOf s g.cmd).isNone then .stall s
        else if k.mbuf.length + newEntries k g.cmd lines ≤ 64 then .done (acceptStore s gr g hint ports l bytes)
        else stall s

/-- ST (R83–R88, R91). -/
def doSt (gr : GroupRef) (f : FmtM) (s : State) (g : Group) : LaneRes :=
  let size := accBytes f.size
  let as := laneAddrs (g.eff f.pred) (addrM g f)
  if as.isEmpty then .done s
  else if f.space = 1#2 then scratchAccess s gr.core g.cmd size as (scratchStore s gr g f as)
  else
    globalAccess gr s g .write size as none fun l =>
      globalStore s gr g (if f.hint = 3#2 then 1 else f.hint.toNat) (portCost as) l (storeBytes g f)

def execSt (g : GroupRef) (f : FmtM) (s : State) : Host.Outcome State Fault Refusal := issue g (.st g f) (doSt g f) s

/-! ### Atomics (R93–R99, R234) -/

/-- An atomic's operand and comparand for a lane (R93). -/
def atomOpnd (g : Group) (op : Nat) (f : FmtA) (l : Nat) : Nat := atomSrc g op (aopSize op) f.src f.srck l
def atomCmp (g : Group) (op : Nat) (f : FmtA) (l : Nat) : Nat :=
  if op = 10 then atomSrc g op (aopSize op) f.cmp f.cmpk l else 0

/-- Scratchpad atomics in lane order (R96, R98): the old values by lane, whether any wrote, the core after. -/
def scrAtoms (k : CoreSt) (g : Group) (op : Nat) (f : FmtA) : List (Nat × Nat) → List (Nat × Nat) × Bool × CoreSt
  | [] => ([], false, k)
  | (l, a) :: t =>
    let n := aopSize op
    let old := scrVal k g.cmd a n
    let r := atomApply op old (atomOpnd g op f l) (atomCmp g op f l)
    let rest := scrAtoms (scrPutBytes k g.cmd a (leBytes n r.1)) g op f t
    ((l, old) :: rest.1, r.2 || rest.2.1, rest.2.2)

/-- Values by lane as a list of 32. -/
def byLane (l : List (Nat × Nat)) : List Nat := (List.range 32).map fun i => ((l.find? fun e => e.1 == i).map Prod.snd).getD 0

def scratchAtom (s : State) (gr : GroupRef) (g : Group) (op : Nat) (f : FmtA) (as : List (Nat × Nat)) : LaneRes :=
  let t := takeLanePath s gr.core (bankCost (as.map Prod.snd) (as.map Prod.fst))
  let t := (t.1, awaitBanks (readToChange t.2 gr g t.1 (aopSize op) as) gr.core none (as.map Prod.snd))
  let r := scrAtoms (coreOf t.2 gr.core) g op f as
  let go := (as.filterMap fun a => goSlot a.2 (aopSize op)).eraseDups
  let s := modCore t.2 gr.core fun _ => go.foldl (fun k n => fixGo k g.cmd n) r.2.2
  let s := modGroup s gr.core gr.slot fun x =>
    let x := x.putRun f.dst (g.eff f.pred) (byLane r.1) (aopSize op / 4)
    { x with sb := x.sb ++ (vRes f.dst (aopSize op / 4)).map fun v => (v, .until (t.1 + 24)) }
  .done (if r.2.1 then coreProgress (clearFpc s gr.core gr.slot) gr.core else s)

def addAtom (s : State) (a : AtomRec) : State :=
  { s with ms := { s.ms with atoms := mset s.ms.atoms s.ms.nextAtom a, nextAtom := s.ms.nextAtom + 1 } }

def setAtoms (s : State) (ids : List Nat) (st : AtomSt) : State :=
  let put (e : Nat × AtomRec) : Nat × AtomRec := if ids.contains e.1 then (e.1, { e.2 with st }) else e
  { s with ms := { s.ms with atoms := s.ms.atoms.map put } }

/-- One entry of an ATOMIC block (R396). -/
def atomEntry (a : AtomRec) : AtomEntry := { off := a.tgt.num % 32, lane := a.lane, opnd := a.opnd, cmp := a.cmp }

/-- The first ten of a list and the rest, as often as it takes. -/
def tens {α : Type} : Nat → List α → List (List α)
  | 0, _ => []
  | n + 1, l => if l.isEmpty then [] else l.take 10 :: tens n (l.drop 10)

/-- One ATOMIC block toward a peer, of at most ten operations in one sector (R396). -/
def sendAtomBlock (s : State) (n : Nat) (sh : Bool) (sector : Nat) (ids : List Nat) : State :=
  let as := ids.filterMap fun i => mget s.ms.atoms i
  match as with
  | [] => s
  | a :: _ =>
    let q := newOutReq (setAtoms s ids .atPeer) n a.cmd (.atoms ids)
    let s := if sh then touchNode q.2 a.cmd n else q.2
    sendOrdered s { dst := n, cls := 2, shadow := sh, addr := sector, tag := tagOf s a.cmd, req := q.1, psn := 0,
                    msg := .atomic a.op (as.map atomEntry), cmd := some a.cmd, groups := [a.grp] }

/-- The bytes of the blocks that carry so many operations. -/
def atomBlockBytes (n : Nat) : Nat := 36 * ceilDiv n 10 + 24 * n

/-- One instruction's operations in one sector sent on their way (R95, R97, R371): to the reducer, to a peer if its port has
room, to the host. -/
def sendAtoms (s : State) (ids : List Nat) : State :=
  match ids.head?.bind fun i => mget s.ms.atoms i with
  | none => s
  | some a =>
    match a.tgt with
    | .hbm pa => pushAtoms (setAtoms s ids .toReducer) pa ids
    | .pair i o =>
      match pairOf s i with
      | some p => pushAtoms (setAtoms s ids .toReducer) (p.working + o) ids
      | none => s
    | .fab n sh ad =>
      match peerGone s n with
      | some code => failCmd s a.cmd code (pgHNS (pathPort s n)) ad
      | none =>
        if egressRoom s (pathPort s n) (atomBlockBytes ids.length) then
          (tens 4 ids).foldl (fun s b => sendAtomBlock s n sh (sectorOf ad) b) s
        else setAtoms s ids .toEgress
    | .host ad =>
      if hostUp s then
        ids.foldl (fun s i =>
          match mget s.ms.atoms i with
          | none => s
          | some a =>
            let t := tenantOf s a.cmd
            let k := s.obj.nextPend
            let addr := match a.tgt with | .host p => p | _ => ad
            let s := { s with obj := { s.obj with pend := mset s.obj.pend k (t, .atom i), nextPend := k + 1 } }
            let o : Out := .hostAtomic k t (rdmaVa s addr) (reg s Reg.xltAprkey) (a.op == 10) a.opnd a.cmp
            chargeHost (emit s o) (some a.cmd) 8) (setAtoms s ids .toHost)
      else setAtoms s ids .toEgress
    | .scr _ => s

/-- An atomic's sectors leave the issuing core's L1 before it is sent (R239). -/
def l1ForAtoms (s : State) (core : Nat) (l : List (Nat × Trans × Tgt)) : State :=
  let s := modCore s core fun k => l.foldl (fun k e => l1Drop k e.2.2.line e.2.2.sect) k
  let hit (r : LineReq) : Bool := r.core == core && l.any fun e => e.2.2.line == r.line && r.sects.getLsbD e.2.2.sect
  let mark (r : Nat × LineReq) : Nat × LineReq := if hit r.2 then (r.1, { r.2 with noInstall := true }) else r
  { s with ms := { s.ms with reqs := s.ms.reqs.map mark } }

def globalAtom (s : State) (gr : GroupRef) (g : Group) (op : Nat) (f : FmtA) (ports : Nat) (l : List (Nat × Trans × Tgt)) :
    LaneRes :=
    match writeGate s gr g.cmd (pairsOf l) with
    | .halt s => .stall s
    | .go s =>
      let s := (takePorts s gr.core ports (ctxOf s g.cmd)).2
      let s := l1ForAtoms s gr.core l
      let first := s.ms.nextAtom
      let dst := if f.dst = 0xFF#8 then none else some f.dst.toNat
      let s := l.foldl (fun s e =>
        addAtom s { core := gr.core, slot := gr.slot, grp := g.index, cmd := g.cmd, lane := e.1, op, tgt := e.2.2,
                    opnd := BitVec.ofNat 64 (atomOpnd g op f e.1), cmp := BitVec.ofNat 64 (atomCmp g op f e.1), dst,
                    st := .toReducer }) s
      let ids := (l.zip (List.range l.length)).map fun e => (e.1.2.2, first + e.2)
      let s := modGroup s gr.core gr.slot fun x =>
        { x with sb := x.sb ++ ids.flatMap fun e => (vRes f.dst (aopSize op / 4)).map fun r => (r, Busy.atom e.2) }
      .done ((sectorsOf l).foldl (fun s sec =>
        sendAtoms s ((ids.filter fun e => e.1.line == sec.1 && e.1.sect == sec.2).map Prod.snd)) s)

/-- ATOM of operation `op` (R93–R99). -/
def doAtom (gr : GroupRef) (op : Nat) (f : FmtA) (s : State) (g : Group) : LaneRes :=
  let size := aopSize op
  let as := laneAddrs (g.eff f.pred) (addrA g f size)
  if as.isEmpty then .done s
  else if f.space = 1#2 then scratchAccess s gr.core g.cmd size as (scratchAtom s gr g op f as)
  else
    let bad := if op ≠ 1 ∧ op ≠ 10 ∧ as.any fun a => isHostVa a.2 then some Code.groupAtomicUnsupported else none
    globalAccess gr s g .write size as bad fun l => globalAtom s gr g op f (portCost as) l

def execAtomAddI32 (g : GroupRef) (f : FmtA) (s : State) : Host.Outcome State Fault Refusal :=
  issue g (.atomAddI32 g f) (doAtom g 0 f) s
def execAtomAddI64 (g : GroupRef) (f : FmtA) (s : State) : Host.Outcome State Fault Refusal :=
  issue g (.atomAddI64 g f) (doAtom g 1 f) s
def execAtomAddF32 (g : GroupRef) (f : FmtA) (s : State) : Host.Outcome State Fault Refusal :=
  issue g (.atomAddF32 g f) (doAtom g 2 f) s
def execAtomAddF16x2 (g : GroupRef) (f : FmtA) (s : State) : Host.Outcome State Fault Refusal :=
  issue g (.atomAddF16x2 g f) (doAtom g 3 f) s
def execAtomMinI32 (g : GroupRef) (f : FmtA) (s : State) : Host.Outcome State Fault Refusal :=
  issue g (.atomMinI32 g f) (doAtom g 4 f) s
def execAtomMaxI32 (g : GroupRef) (f : FmtA) (s : State) : Host.Outcome State Fault Refusal :=
  issue g (.atomMaxI32 g f) (doAtom g 5 f) s
def execAtomMinF32 (g : GroupRef) (f : FmtA) (s : State) : Host.Outcome State Fault Refusal :=
  issue g (.atomMinF32 g f) (doAtom g 6 f) s
def execAtomMaxF32 (g : GroupRef) (f : FmtA) (s : State) : Host.Outcome State Fault Refusal :=
  issue g (.atomMaxF32 g f) (doAtom g 7 f) s
def execAtomSwap32 (g : GroupRef) (f : FmtA) (s : State) : Host.Outcome State Fault Refusal :=
  issue g (.atomSwap32 g f) (doAtom g 8 f) s
def execAtomSwap64 (g : GroupRef) (f : FmtA) (s : State) : Host.Outcome State Fault Refusal :=
  issue g (.atomSwap64 g f) (doAtom g 9 f) s
def execAtomCas64 (g : GroupRef) (f : FmtA) (s : State) : Host.Outcome State Fault Refusal :=
  issue g (.atomCas64 g f) (doAtom g 10 f) s

/-- An atomic has been performed at its reducer or at the host: one that wrote memory clears its group's forward-progress
count (R41). -/
def atomWrote (s : State) (id : Nat) (wrote : Bool) : State :=
  match mget s.ms.atoms id with
  | none => s
  | some a =>
    let same : Bool := match groupOf s a.core a.slot with
      | some g => g.cmd == a.cmd && g.index == a.grp
      | none => false
    if wrote && same then coreProgress (clearFpc s a.core a.slot) a.core else s

/-- An atomic's old value is at hand (R99): without a destination it is over. -/
def atomDone (s : State) (id : Nat) (old : DWord) (wrote : Bool) : State :=
  match mget s.ms.atoms id with
  | none => s
  | some a =>
    let s := atomWrote s id wrote
    let atoms := match a.dst with
      | some _ => mset s.ms.atoms id { a with st := .done old }
      | none => mdel s.ms.atoms id
    { s with ms := { s.ms with atoms } }

/-- The old value is here. -/
def atomReady (s : State) (gr : GroupRef) (id : Nat) : Bool :=
  match mget s.ms.atoms id with
  | some a => a.core == gr.core && a.slot == gr.slot && match a.st with
    | .done _ => true
    | _ => false
  | none => false

def doAtomReturn (s : State) (gr : GroupRef) (id : Nat) : State :=
  match mget s.ms.atoms id with
  | none => s
  | some a =>
    let old : Nat := match a.st with | .done o => o.toNat | _ => 0
    let s := modGroup s gr.core gr.slot fun g =>
      let g := if g.cmd = a.cmd then
          match a.dst with
          | some d => g.putRun (BitVec.ofNat 8 d) (BitVec.ofNat 32 (2 ^ a.lane)) (List.replicate 32 old) (aopSize a.op / 4)
          | none => g
        else g
      { g with sb := g.sb.filter fun e => e.2 != .atom id }
    { s with ms := { s.ms with atoms := mdel s.ms.atoms id } }

def execAtomReturn (g : GroupRef) (atom : Nat) (s : State) : Host.Outcome State Fault Refusal :=
  if atomReady s g atom then .next (doAtomReturn s g atom) else .next s

/-! ### Fences (R100) -/

/-- An atomic of a group that is not over at a scope: 0 still in the core, 1 not performed on this module, 2 anywhere. -/
def atomOwes (scope : Nat) (g : Group) (a : AtomRec) : Bool :=
  a.cmd == g.cmd && a.grp == g.index && match a.st with
    | .toEgress => true
    | .toReducer => decide (scope ≥ 1)
    | .toHost | .atPeer => decide (scope ≥ 2)
    | .done _ => false

/-- A block carries stores or atomics of a group. -/
def blkOwes (g : Group) (b : Blk) : Bool := b.cmd == some g.cmd && b.groups.contains g.index

/-- Every earlier store and atomic of the group has been performed at the scope. -/
def fenceMet (s : State) (core : Nat) (g : Group) (scope : Nat) : Bool :=
  let mine (e : Nat × MergeEntry) : Bool := e.2.cmd == g.cmd && e.2.groups.contains g.index
  let local_ (t : Tgt) : Bool := match t with | .hbm _ | .pair _ _ => true | _ => false
  !(s.ms.atoms.any fun a => atomOwes scope g a.2)
    && (scope == 0 || !((coreOf s core).mbuf.any fun e => mine e && (scope == 2 || local_ e.2.line)))
    && (scope != 2 ||
      (!(s.fab.ports.any fun p => p.2.ord.any (blkOwes g))
        && !(s.fab.peers.any fun p => (p.2.unperf.any fun u => blkOwes g u.blk) || p.2.waitingSend.any (blkOwes g))
        && !(s.obj.pend.any fun e => match e.2.2 with
          | .store c gs _ _ => c == g.cmd && gs.contains g.index
          | _ => false)))

/-- FENCE: a scope beyond CORE sends the group's merging-buffer entries; the group stalls until FENCE_RELEASE. -/
def doFence (gr : GroupRef) (f : FmtF) (s : State) (g : Group) : LaneRes :=
  let scope := f.scope.toNat
  let s := if scope = 0 then s else sendEntries s gr.core fun e => e.cmd == g.cmd && e.groups.contains g.index
  .done (parkGroup s gr (.fence scope))

def execFence (g : GroupRef) (f : FmtF) (s : State) : Host.Outcome State Fault Refusal :=
  issue g (.fence g f) (doFence g f) s

def fenceReady (s : State) (gr : GroupRef) : Bool :=
  match groupOf s gr.core gr.slot with
  | some g => match g.wait with
    | .fence k => fenceMet s gr.core g k
    | _ => false
  | none => false

def execFenceRelease (g : GroupRef) (s : State) : Host.Outcome State Fault Refusal :=
  if fenceReady s g then .next (modGroup s g.core g.slot fun x => { x with wait := .none }) else .next s

/-! ### The end of a group (R26, R121, R258) -/

/-- The group has ended, its atomics have left the core and its array and mover commands are complete. -/
def slotFreeReady (s : State) (gr : GroupRef) : Bool :=
  match groupOf s gr.core gr.slot with
  | some g =>
    let k := coreOf s gr.core
    g.ended && !(s.ms.atoms.any fun a => atomOwes 0 g a.2) && !(k.arr.queue.any fun q => q.slot == gr.slot)
      && !(k.launched.any fun m => m.group == gr.slot && m.cmd == g.cmd)
      && !(k.movers.any fun m => m.2.group == gr.slot && m.2.cmd == g.cmd)
  | none => false

/-- Registers, mask stack and slot are free; what the group still awaited is dropped. -/
def doSlotFree (s : State) (gr : GroupRef) : State :=
  match groupOf s gr.core gr.slot with
  | none => s
  | some g =>
    let mine (a : AtomRec) : Bool := a.cmd == g.cmd && a.grp == g.index
    let gone (e : Nat × AtomRec) : Bool := mine e.2 && match e.2.st with | .done _ => true | _ => false
    let ids := (s.ms.loads.filter fun e => e.2.core == gr.core && e.2.slot == gr.slot).map Prod.fst
    let free (r : LineReq) : LineReq := if r.load.any fun i => ids.contains i then { r with load := none } else r
    let s := { s with ms := { s.ms with
        loads := s.ms.loads.filter fun e => !ids.contains e.1,
        reqs := s.ms.reqs.map fun r => (r.1, free r.2),
        atoms := (s.ms.atoms.filter fun e => !gone e).map fun e => if mine e.2 then (e.1, { e.2 with dst := none }) else e } }
    let s := modCore s gr.core fun k =>
      { k with groups := mdel k.groups gr.slot, bankWaits := k.bankWaits.filter fun w => !w.load.any ids.contains }
    let s := pmcEvent s (pgCORE gr.core) 0x0103 1 (some (ctxOf s g.cmd))
    drainIfDone (modCmd s g.cmd fun c => { c with liveGroups := c.liveGroups - 1 }) g.cmd

def execGroupSlotFree (g : GroupRef) (s : State) : Host.Outcome State Fault Refusal :=
  if slotFreeReady s g then .next (doSlotFree s g) else .next s

/-! ### MERGE_ENTRY_TIMEOUT (R240, R254) -/

/-- The entry has been open for 256 cycles. -/
def entryDue (s : State) (core id : Nat) : Bool :=
  match mget (coreOf s core).mbuf id with
  | some e => decide (e.opened + 256 ≤ coreCyc s core)
  | none => false

/-- An entry found with an uncorrectable error is discarded and ends its command (R254). -/
def loseEntry (s : State) (core id : Nat) : State :=
  match mget (coreOf s core).mbuf id with
  | none => s
  | some e =>
    let s := wakeCredit (modCore s core fun k => { k with mbuf := mdel k.mbuf id }) core
    failCmd (sramError s core (pgTMV core) Code.memEccUncorr) e.cmd Code.memEccUncorr (pgTMV core) 0

/-- The row carries an entry's uncorrectable error, whenever it is found; without one it sends an entry that is due. -/
def execMergeEntryTimeout (core entry : Nat) (u : Upset) (s : State) : Host.Outcome State Fault Refusal :=
  if u = .uncorrectable then .next (loseEntry s core entry)
  else if entryDue s core entry then .next (sendEntry s core entry) else .next s

end Sys2Proof.Machine
end

