-- ==== Sys2Proof/Machine/Matrix.lean ====
section
/-! DEFINITION. The MX instructions: their checks at issue and their entry into the array command queue (R44–R48, R116–R121,
R133–R135, R149). -/

namespace Sys2Proof.Machine

/-! ### Operands in scratchpad (R117, R118, R132) -/

/-- S[n] as a scratchpad offset. -/
def scalarOff (g : Group) (n : BitVec 6) : Nat := (g.sreg n.toNat).toNat

/-- The gathered offsets of a STREAM's rows (R118). -/
def gatherOffs (g : Group) (f : FmtX) : List Word :=
  (List.range (mxNrows f + 1)).map fun r => g.vreg (f.vdesc + BitVec.ofNat 8 (r / 32)) (r % 32)

/-- Where row `r` of a STREAM starts (R118). -/
def streamRowOff (f : FmtX) (base : Nat) (gather : List Word) (r : Nat) : Nat :=
  if f.gather then (gather.getD r 0).toNat else base + r * streamStride f

/-- The bytes of an LDW's scale array (R135). -/
def ldwScaleBytes (f : FmtX) : Nat := if ldwOrient f = 1 then 384 else 288

/-! ### The tags the active set will hold (R134) -/

/-- The tags an LDW gives a set (R125, R153). -/
def ldwTags (f : FmtX) (low : Bool) (load : Nat) : WeightSet :=
  { state := .loading, fmt := ldwFmt f, orient := ldwOrient f == 1, noscale := f.noscale, kdim := ldwKdim f,
    ndim := ldwNdim f, low, load, w := [] }

/-- The active and the shadow set after the commands of the queue. A command that has started has already set its tags. -/
def tagsAfter (a : ArrayState) : List ArrCmd → WeightSet × WeightSet → WeightSet × WeightSet
  | [], p => p
  | q :: rest, (act, shd) =>
    tagsAfter a rest <|
      match q.kind with
      | .ldw =>
        if a.load.any fun l => l.id == q.id then (act, shd)
        else if ldwFmt q.f = 0 then (ldwTags q.f false q.id, ldwTags q.f true q.id)
        else (act, ldwTags q.f false q.id)
      | .reorient =>
        if a.load.any fun l => l.id == q.id then (act, shd)
        else (act, { act with orient := ldwOrient q.f == 1, load := q.id })
      | .swap => if a.swaps.any fun w => w.1 == q.id then (act, shd) else (shd, act)
      | _ => (act, shd)

/-- The active set that a STREAM entering the queue now will meet. -/
def activeAhead (a : ArrayState) : WeightSet := (tagsAfter a a.queue (a.active, a.shadow)).1

/-- The elements of a stream row against a set (R132). -/
def streamLen (act : WeightSet) : Nat := if act.orient then act.ndim + 1 else act.kdim + 1

/-! ### Faults at issue (R44, R45, R133, R134, R199) -/

/-- The lowest lane that holds an offset which is no multiple of 32 (R133). -/
def gatherMisaligned (offs : List Word) : Option Nat :=
  (List.range 32).find? fun l => (List.range offs.length).any fun r => r % 32 == l && (offs.getD r 0).toNat % 32 != 0

/-- The lane recorded for a row start or a STRIDE that is no multiple of 32: 0 where no lane holds the offset. -/
def mxMisaligned (kind : ArrKind) (f : FmtX) (base scale : Nat) (offs : List Word) : Option Nat :=
  match kind with
  | .ldw => if base % 32 ≠ 0 ∨ ldwStride f % 32 ≠ 0 then some 0 else none
  | .stream =>
    if f.gather then gatherMisaligned offs
    else if base % 32 ≠ 0 ∨ streamStride f % 32 ≠ 0 then some 0 else none
  | .drain => if base % 32 ≠ 0 ∨ drainStride f % 32 ≠ 0 ∨ scale % 32 ≠ 0 then some 0 else none
  | _ => none

/-- A byte that the command will touch lies outside the allocation (R134). -/
def mxOutside (a : ArrayState) (alloc : Nat) (kind : ArrKind) (f : FmtX) (base scale : Nat) (offs : List Word) : Bool :=
  match kind with
  | .ldw =>
    decide (base + ldwKdim f * ldwStride f + rowBytes (ldwFmt f) (ldwNdim f + 1) > alloc)
      || (!f.noscale && decide (scale + ldwScaleBytes f > alloc))
  | .stream =>
    let act := activeAhead a
    act.state != .empty &&
      (((List.range (mxNrows f + 1)).any fun r =>
          decide (streamRowOff f base offs r + rowBytes (mxFmt f) (streamLen act) > alloc))
        || (!f.noscale && decide (scale + 4 * (mxNrows f + 1) > alloc)))
  | .drain => decide (scale + 64 > alloc)
  | _ => false

/-- The group-wide condition of every MX instruction (R44, R45). -/
def mxDivergent (g : Group) (f : FmtX) : Bool := g.eff f.pred != 0xFFFFFFFF#32 || g.ser.isSome

/-! ### Entering the queue (R47, R119, R120, R149) -/

/-- The command in the queue, with what it read at issue. -/
def enterQueue (s : State) (gr : GroupRef) (g : Group) (kind : ArrKind) (f : FmtX) (base scale : Nat) (offs : List Word) :
    State :=
  let k := coreOf s gr.core
  let q : ArrCmd :=
    { id := k.arr.nextId, kind, cmd := g.cmd, slot := gr.slot, f, base, scale, gather := offs,
      need := nextSig g f.tok.toNat, sig := nextSig g f.tok.toNat, at_ := coreCyc s gr.core, old := k.scratch }
  let arr := { k.arr with queue := k.arr.queue ++ [q], nextId := k.arr.nextId + 1 }
  modCore s gr.core fun k => { k with arr }

/-- An MX command enters the queue, or its group waits for room in it. -/
def queueMx (kind : ArrKind) (gr : GroupRef) (f : FmtX) (s : State) (g : Group) : LaneRes :=
  let base := scalarOff g f.sbase
  let scale := scalarOff g f.sscale
  let offs := if f.gather then gatherOffs g f else []
  let k := coreOf s gr.core
  if mxDivergent g f then .fault Code.groupMatrixDivergent 0
  else
    match mxMisaligned kind f base scale offs with
    | some l => .fault Code.groupMisaligned l
    | none =>
      if mxOutside k.arr (allocBytes k g.cmd) kind f base scale offs then .fault Code.groupAddressRange 0
      else if k.arr.queue.length ≥ 16 then .stall (parkGroup s gr .arrayQueue)
      else if kind = .waitq then .done (enterQueue s gr g kind f base scale offs)
      else
        let s := enterQueue s gr g kind f base scale offs
        let s := modGroup s gr.core gr.slot fun g =>
          if f.sig then tokenIssued { g with fpc := 0 } f.tok.toNat else { g with fpc := 0 }
        .done (coreProgress s gr.core)

def execMxLdw (g : GroupRef) (f : FmtX) (s : State) : Host.Outcome State Fault Refusal :=
  issue g (.mxLdw g f) (queueMx .ldw g f) s

def execMxLdwReorient (g : GroupRef) (f : FmtX) (s : State) : Host.Outcome State Fault Refusal :=
  issue g (.mxLdwReorient g f) (queueMx .reorient g f) s

def execMxSwap (g : GroupRef) (f : FmtX) (s : State) : Host.Outcome State Fault Refusal :=
  issue g (.mxSwap g f) (queueMx .swap g f) s

def execMxStream (g : GroupRef) (f : FmtX) (s : State) : Host.Outcome State Fault Refusal :=
  issue g (.mxStream g f) (queueMx .stream g f) s

def execMxDrain (g : GroupRef) (f : FmtX) (s : State) : Host.Outcome State Fault Refusal :=
  issue g (.mxDrain g f) (queueMx .drain g f) s

def execMxWaitQ (g : GroupRef) (f : FmtX) (s : State) : Host.Outcome State Fault Refusal :=
  issue g (.mxWaitQ g f) (queueMx .waitq g f) s

/-- MX.WAIT.G: the group goes on, and waits where the token owes a completion (R120). -/
def doWaitG (gr : GroupRef) (f : FmtX) (s : State) (g : Group) : LaneRes :=
  if mxDivergent g f then .fault Code.groupMatrixDivergent 0
  else
    let t := mgetD g.tokens f.tok.toNat .none
    if t.issued ≤ t.done then .done s else .done (parkGroup s gr (.token f.tok.toNat))

def execMxWaitG (g : GroupRef) (f : FmtX) (s : State) : Host.Outcome State Fault Refusal :=
  issue g (.mxWaitG g f) (doWaitG g f) s

/-! ### The end of a queued command (R120, R149) -/

/-- Groups that wait for room in the queue try again. -/
def wakeQueue (s : State) (core : Nat) : State :=
  modCore s core fun k =>
    { k with groups := k.groups.map fun e => (e.1, if e.2.wait = .arrayQueue then { e.2 with wait := .none } else e.2) }

/-- A command leaves the queue complete: its token counts it, and a command whose work is done drains (R120, R240). -/
def arrDone (s : State) (core : Nat) (q : ArrCmd) : State :=
  let s := modCore s core fun k =>
    let queue := k.arr.queue.filter fun x => x.id != q.id
    { k with arr := { k.arr with queue } }
  let s := if q.f.sig then tokenDone s core q.slot q.f.tok.toNat q.sig else s
  drainIfDone (wakeQueue (coreProgress s core) core) q.cmd

end Sys2Proof.Machine
end

