-- ==== Sys2Proof/Machine/Array.lean ====
section
/-! DEFINITION. The 96 × 96 array: its arithmetic (R176–R189), the weight loader and the feed (R149–R156), the accumulator
memory (R137–R146, R195–R197), its preparation for a command (R126, R230).
Assumption log: DESIGN CHOICE 25, 30; DEDUCED 27, 113. -/

namespace Sys2Proof.Machine

/-! ### The internal form (R176–R181) -/

def internal (s : Bool) (e m : Nat) : BitVec 23 := BitVec.ofNat 23 ((if s then 2 ^ 22 else 0) + e * 4096 + m)

/-- The value that contributes nothing to any sum. -/
def internalNull : BitVec 23 := internal false 0 0x800

/-- A decoded value of at most 12 significant bits. -/
def internalOf : Num → BitVec 23
  | .nan => internal false 1023 0xC00
  | .inf s => internal s 1023 0x800
  | .fin s m e =>
    if m = 0 then internal s 0 0
    else
      let l := Nat.log2 m
      internal s (leadExp m e + 511).toNat (if l ≤ 11 then m * 2 ^ (11 - l) else m / 2 ^ (l - 11))

/-- The value of an encoding; none for null. -/
def numOfInternal (b : BitVec 23) : Option Num :=
  let s := b.getLsbD 22
  let e := b.toNat / 4096 % 1024
  let m := b.toNat % 4096
  if e = 0 then (if m = 0 then some (.zero s) else none)
  else if e = 1023 then some (if m = 0x800 then .inf s else .nan)
  else some (.fin s m ((e : Int) - 522))

/-- The halves of an FP32 element under a scale (R180). -/
def halves (c s : Nat) : BitVec 23 × BitVec 23 :=
  let scaled (v : Num) : BitVec 23 := if s = 255 then internalOf .nan else internalOf v
  match decodeElem 0 c with
  | .fin sg m e =>
    if m = 0 then (scaled (.zero sg), internalNull)
    else
      let n := 23 - Nat.log2 m
      let m24 := m * 2 ^ n
      let x := e - (n : Int) + ((s : Int) - 127)
      (scaled (.fin sg (m24 / 4096) (x + 12)), if m24 % 4096 = 0 then internalNull else scaled (.fin sg (m24 % 4096) x))
  | v => (scaled v, internalNull)

/-- An operand of a pass: the element, or for FP32 its high or its low half (R144, R177). -/
def operandOf (code : Nat) (low : Bool) (c s : Nat) : BitVec 23 :=
  if code = 0 then (if low then (halves c s).2 else (halves c s).1) else internalOf (decodeScaled code c s)

/-! ### The sum path and the edge (R183–R189) -/

/-- A partial sum with its side bits. -/
structure PSum where
  v   : Num
  inv : Bool
  ovf : Bool
  deriving DecidableEq, Repr

def PSum.start : PSum := ⟨.zero false, false, false⟩

/-- A finite sum as the sum path keeps it: 26 significant bits, +0 for zeros and below 2⁻⁵¹⁰, infinity from 2⁵¹². -/
def keepSum (p : PSum) (s : Bool) (m : Nat) (e : Int) : PSum :=
  if m = 0 then { p with v := .zero false }
  else
    let q := leadExp m e - 25
    let n := (roundAt 5 s m e q).1
    if leadExp n q ≥ 512 then { p with v := .inf s, ovf := true }
    else if leadExp n q < -510 then { p with v := .zero false }
    else { p with v := .fin s n q }

/-- A product added (R185). -/
def addProduct (p : PSum) (q : Num) : PSum :=
  match addNum false p.v q with
  | none => { p with v := .nan, inv := true }
  | some (.fin s m e) => keepSum p s m e
  | some v => { p with v }

/-- One enabled cell (R183). -/
def cell (p : PSum) (w x : BitVec 23) : PSum :=
  match numOfInternal w, numOfInternal x with
  | some a, some b =>
    match mulNum a b with
    | none => { p with v := .nan, inv := true }
    | some q => addProduct p q
  | _, _ => p

/-- A result at the edge: the element's new value, its SAT bit, INV and OVF. -/
structure EdgeRes where
  elem : Nat
  sat  : Bool
  inv  : Bool
  ovf  : Bool
  deriving DecidableEq, Repr

/-- The conversion to FP32 (R188). -/
def edgeConvert (p : PSum) : EdgeRes :=
  let r := fmtF32.encodeT p.v
  ⟨if r.1 % 2 ^ 31 = 0 then 0 else r.1, false, p.inv, p.ovf || r.2 == .overflowed⟩

/-- The accumulation (R189). -/
def edgeAdd (old : Nat) (r : EdgeRes) : EdgeRes :=
  match addNum false (fmtF32.decode old) (fmtF32.decode r.elem) with
  | none => ⟨fmtF32.nanCode, r.sat, true, r.ovf⟩
  | some v =>
    let t := edgeConvert ⟨v, r.inv, r.ovf⟩
    ⟨t.elem, r.sat, t.inv, t.ovf⟩

/-- The INT32 edge (R140): the sum written, or added with saturation. -/
def edgeInt (accum : Bool) (old : Nat) (sat : Bool) (v : Int) : EdgeRes :=
  if accum then
    let t := intOf 32 old + v
    let c := clampInt (intLo 32 true) (intHi 32 true) t
    ⟨wrapInt 32 c, sat || decide (c ≠ t), false, false⟩
  else ⟨wrapInt 32 v, false, false, false⟩

/-! ### Passes and modes (R138, R144, R156) -/

/-- The halves that a pass presents: whether x_lo, whether W_lo. -/
def passHalves (act : WeightSet) (fmt p : Nat) : Bool × Bool :=
  if act.fmt = 0 ∧ fmt = 0 then (p == 1, p == 2)
  else if act.fmt = 0 then (false, p == 1)
  else (p == 1, false)

def intMode (act : WeightSet) (f : FmtX) : Bool :=
  act.state != .empty && decide (act.fmt ≥ 6) && act.noscale && decide (mxFmt f ≥ 6) && f.noscale

/-- The sum of one output against a row of operands (R128, R130); none beyond the loaded tile. -/
def outputSum (w : WeightSet) (act : WeightSet) (x : List (BitVec 23)) (j : Nat) : Option (List (BitVec 23 × BitVec 23)) :=
  let wt (k n : Nat) : BitVec 23 := mgetD w.w (96 * k + n) internalNull
  if act.orient then
    if j > act.kdim then none else some ((List.range (act.ndim + 1)).map fun n => (wt j n, x.getD n internalNull))
  else
    if j > act.ndim then none else some ((List.range (act.kdim + 1)).map fun k => (wt k j, x.getD k internalNull))

/-- The exact integer that an internal form of an integer holds. -/
def intOfInternal (b : BitVec 23) : Int :=
  match numOfInternal b with
  | some (.fin s m e) =>
    let v : Nat := if e ≥ 0 then m * 2 ^ e.toNat else m / 2 ^ (-e).toNat
    if s then -(v : Int) else v
  | _ => 0

/-- An output's new element, where it changes (R139–R142). -/
def edgeOf (int accum : Bool) (old : Nat) (sat : Bool) : Option (List (BitVec 23 × BitVec 23)) → Option EdgeRes
  | none => if accum then none else some ⟨0, false, false, false⟩
  | some cells =>
    if int then some (edgeInt accum old sat ((cells.map fun c => intOfInternal c.1 * intOfInternal c.2).foldl (· + ·) 0))
    else
      let r := edgeConvert (cells.foldl (fun p c => cell p c.1 c.2) .start)
      some (if accum then edgeAdd old { r with sat } else r)

/-! ### Reading scratchpad (R136, R151) -/

/-- The core as a command's reads find it: for one that has ended, with its allocation as it stood then (R161). -/
def readCore (k : CoreSt) (q : ArrCmd) : CoreSt :=
  match k.arr.ghosts.find? fun g => g.q.id == q.id with
  | some g =>
    let allocs := match g.alloc with
      | some a => mset k.allocs q.cmd a
      | none => k.allocs
    { k with scratch := g.scratch, allocs }
  | none => k

/-- A queued command's operand bytes. -/
def operandBytes (s : State) (core : Nat) (q : ArrCmd) (off n : Nat) : List Byte × State :=
  pickBytes (readCore (coreOf s core) q) q.old q.cmd (n / 32 + 2) off n s

/-- A stream row's operands for a pass: its elements under its scales (R132, R135, R179). -/
def streamOperands (s : State) (core : Nat) (q : ArrCmd) (act : WeightSet) (low : Bool) (r : Nat) :
    List (BitVec 23) × State :=
  let code := mxFmt q.f
  let n := streamLen act
  let row := operandBytes s core q (streamRowOff q.f q.base q.gather r) (rowBytes code n)
  let v := fromLe row.1
  if q.f.noscale then
    ((List.range n).map fun i => operandOf code low (elemAt (elemWidth code) v i) 127, row.2)
  else
    let sc := operandBytes row.2 core q (q.scale + 4 * r) 4
    ((List.range n).map fun i => operandOf code low (elemAt (elemWidth code) v i) ((sc.1.getD (i / 32) 0).toNat), sc.2)

/-! ### Command faults and errors of the array (R159, R160, R168) -/

/-- MXA_CFAULT takes the first fault. -/
def latchCfault (s : State) (core code : Nat) : State :=
  if reg s Reg.mxaCfault core ≥ 2 ^ 31 then s else setReg s Reg.mxaCfault core (2 ^ 31 + code)

def arrFault (s : State) (core cmd : Nat) : State :=
  failCmd (latchCfault s core Code.mxaStateMismatch) cmd Code.mxaStateMismatch (pgMXA core) 0

/-- An uncorrectable error in accumulator memory or the weight registers. -/
def arrEcc (s : State) (core cmd : Nat) : State :=
  failCmd (sramError (latchCfault s core Code.memEccUncorr) core (pgMXA core) Code.memEccUncorr) cmd Code.memEccUncorr
    (pgMXA core) 0

/-- An upset of a scratchpad word that the array or the quantizer reads (R236). -/
def scrUpset (s : State) (core cmd off : Nat) (u : Upset) (k : State → State) : State :=
  match u with
  | .uncorrectable => scrUncorr s core cmd off
  | .corrected => k (scrCorr s core)
  | _ => k s

/-! ### The queue as the units see it (R149, R150) -/

/-- Commands dispatched to their units: those before the first WAIT.Q. -/
def dispatched (a : ArrayState) : List ArrCmd := a.queue.takeWhile fun q => q.kind != .waitq

def isLoad (q : ArrCmd) : Bool := q.kind == .ldw || q.kind == .reorient
def isDouble (q : ArrCmd) : Bool := q.kind == .ldw && ldwFmt q.f == 0
def streamStarted (a : ArrayState) (q : ArrCmd) : Bool := a.streams.any fun r => r.id == q.id
def swapStarted (a : ArrayState) (q : ArrCmd) : Bool := a.swaps.any fun w => w.1 == q.id

/-- The weight loader's next command. -/
def nextLdw (a : ArrayState) : Option ArrCmd := (dispatched a).find? isLoad

/-- The feed's next command. -/
def nextFeed (a : ArrayState) : Option ArrCmd :=
  (dispatched a).find? fun q => (q.kind == .stream && !streamStarted a q) || (q.kind == .swap && !swapStarted a q)

/-- No stream row is still to enter. -/
def feedFree (a : ArrayState) (cyc : Nat) : Bool := a.streams.isEmpty || decide (a.lastRow + 1 ≤ cyc)

/-! ### LDW (R125, R145, R150, R153, R154) -/

def ldwMayStart (a : ArrayState) (cyc : Nat) (q : ArrCmd) : Bool :=
  let waiting := (before a q).any fun x => x.kind == .stream && !streamStarted a x
  a.load.isNone && !((before a q).any fun x => x.kind == .swap) && decide (a.shFree ≤ cyc) &&
    if isDouble q then !waiting && (a.streams.isEmpty || decide (a.lastRow + 191 ≤ cyc))
    else !(waiting && a.active.state != .empty && a.active.fmt == 0)

/-- The re-orient form fits the active set (R154). -/
def reorientOk (a : ArrayState) (f : FmtX) : Bool :=
  a.active.state != .empty && a.active.fmt != 0 && ldwFmt f == a.active.fmt && ldwKdim f == a.active.kdim
    && ldwNdim f == a.active.ndim

def doLdwStart (s : State) (core : Nat) (q : ArrCmd) : State :=
  let a := (coreOf s core).arr
  if q.kind = .reorient ∧ !reorientOk a q.f then arrFault s core q.cmd
  else
    let run : LdwRun := ⟨q.id, coreCyc s core⟩
    let arr :=
      if isDouble q then { a with load := some run, active := ldwTags q.f false q.id, shadow := ldwTags q.f true q.id }
      else if q.kind = .reorient then
        let tags := { a.active with state := .loading, orient := ldwOrient q.f == 1, load := q.id, w := [] }
        { a with load := some run, shadow := tags }
      else { a with load := some run, shadow := ldwTags q.f false q.id }
    modCore s core fun k => { k with arr }

def execLdwStart (core : Nat) (s : State) : Host.Outcome State Fault Refusal :=
  match nextLdw (coreOf s core).arr with
  | some q => if arrGoes s core q && ldwMayStart (coreOf s core).arr (coreCyc s core) q then .next (doLdwStart s core q) else .next s
  | none => .next s

/-- One weight row: the registers of its cells, high halves and low halves (R132, R135, R179). -/
def weightRow (s : State) (core : Nat) (q : ArrCmd) (i : Nat) : List (Nat × BitVec 23 × BitVec 23) × State :=
  let code := ldwFmt q.f
  let n := ldwNdim q.f + 1
  let row := operandBytes s core q (q.base + i * ldwStride q.f) (rowBytes code n)
  let v := fromLe row.1
  let trans := ldwOrient q.f == 1
  let sc : List Byte × State :=
    if q.f.noscale then ([], row.2)
    else if trans then operandBytes row.2 core q (q.scale + 4 * i) 4
    else operandBytes row.2 core q (q.scale + 96 * (i / 32)) n
  let scaleAt (j : Nat) : Nat := if q.f.noscale then 127 else (sc.1.getD (if trans then j / 32 else j) 0).toNat
  ((List.range n).map fun j =>
     let c := elemAt (elemWidth code) v j
     (96 * i + j, operandOf code false c (scaleAt j), if code = 0 then operandOf 0 true c (scaleAt j) else internalNull),
   sc.2)

/-- The weight rows from row `i` on, `n` of them. -/
def weightRows (core : Nat) (q : ArrCmd) : Nat → Nat → State → List (Nat × BitVec 23 × BitVec 23) × State
  | 0, _, s => ([], s)
  | n + 1, i, s =>
    let r := weightRow s core q i
    let t := weightRows core q n (i + 1) r.2
    (r.1 ++ t.1, t.2)

/-- The tile is in the shadow set, or for a double load in both. -/
def doLdwComplete (s : State) (core : Nat) (q : ArrCmd) : State :=
  let s := pmcEvent s (pgMXA core) 0x0104 1 (some (ctxOf s q.cmd))
  if q.kind = .reorient then
    let s := modCore s core fun k =>
      let shadow := { k.arr.shadow with state := .loaded, w := k.arr.active.w }
      { k with arr := { k.arr with load := none, shadow } }
    arrDone s core q
  else
    let r := weightRows core q (ldwKdim q.f + 1) 0 s
    let hi := r.1.map fun e => (e.1, e.2.1)
    let lo := r.1.map fun e => (e.1, e.2.2)
    let s := modCore r.2 core fun k =>
      if isDouble q then
        let active := { k.arr.active with state := .loaded, w := hi }
        let shadow := { k.arr.shadow with state := .loaded, w := lo }
        { k with arr := { k.arr with load := none, active, shadow } }
      else
        let shadow := { k.arr.shadow with state := .loaded, w := hi }
        { k with arr := { k.arr with load := none, shadow } }
    arrDone s core q

def ldwDue (s : State) (core : Nat) : Option ArrCmd :=
  let a := (coreOf s core).arr
  match a.load with
  | some l =>
    match queued a l.id with
    | some q => if l.start + (if q.kind = .reorient then 4 else 108) ≤ coreCyc s core then some q else none
    | none => none
  | none => none

def execLdwComplete (core : Nat) (u : Upset) (s : State) : Host.Outcome State Fault Refusal :=
  match ldwDue s core with
  | some q =>
    if q.kind = .reorient then
      .next (if u = .uncorrectable then arrEcc s core q.cmd else doLdwComplete s core q)
    else .next (scrUpset s core q.cmd q.base u fun s => doLdwComplete s core q)
  | none => .next s

/-! ### SWAP (R155) -/

def swapMayEnter (s : State) (core : Nat) (q : ArrCmd) : Bool :=
  let a := (coreOf s core).arr
  q.kind == .swap && !((before a q).any isLoad) && feedFree a (coreCyc s core)

/-- The marker enters: rows from now on meet the exchanged sets. -/
def doSwapEnter (s : State) (core : Nat) (q : ArrCmd) : State :=
  let ts := coreCyc s core
  let s := pmcEvent s (pgMXA core) 0x0103 1 (some (ctxOf s q.cmd))
  modCore s core fun k =>
    let a := k.arr.wave ts ts
    { k with arr := { a with active := a.shadow, shadow := a.active, swaps := a.swaps ++ [(q.id, ts)] } }

def execSwapMarkerEnter (core : Nat) (s : State) : Host.Outcome State Fault Refusal :=
  match nextFeed (coreOf s core).arr with
  | some q => if arrGoes s core q && swapMayEnter s core q then .next (doSwapEnter s core q) else .next s
  | none => .next s

/-- The oldest SWAP wave that has passed every cell. -/
def swapDue (s : State) (core : Nat) : Option ArrCmd :=
  let a := (coreOf s core).arr
  match a.swaps with
  | (id, ts) :: _ => if ts + 190 ≤ coreCyc s core then queued a id else none
  | [] => none

def doSwapComplete (s : State) (core : Nat) (q : ArrCmd) : State :=
  let s := modCore s core fun k =>
    let swaps := k.arr.swaps.filter fun w => w.1 != q.id
    { k with arr := { k.arr with swaps } }
  arrDone s core q

def execSwapComplete (core : Nat) (s : State) : Host.Outcome State Fault Refusal :=
  match swapDue s core with
  | some q => .next (doSwapComplete s core q)
  | none => .next s

/-! ### STREAM (R146, R150, R152, R155, R156, R556) -/

/-- A DRAIN has read every row it names. -/
def drainRead (s : State) (core : Nat) (q : ArrCmd) : Bool :=
  match (coreOf s core).arr.drain with
  | some d => d.id == q.id && match d.start with
    | some t => decide (t + mxNrows q.f + 1 ≤ coreCyc s core)
    | none => false
  | none => false

/-- The array has admitted no row for 1,024 cycles. -/
def arrayIdle (s : State) (core : Nat) : Bool :=
  let a := (coreOf s core).arr
  a.idle || decide (a.lastRow + 1025 ≤ coreCyc s core)

/-- Arrays of a core's domain whose ramp began in the last 16 cycles (R556). -/
def rampsNow (s : State) (core : Nat) : Nat :=
  ((List.range 12).filter fun i =>
    match (coreOf s (core / 12 * 12 + i)).arr.ramp with
    | some r => decide (coreCyc s core < r + 16)
    | none => false).length

def streamMayStart (s : State) (core : Nat) (q : ArrCmd) : Bool :=
  let a := (coreOf s core).arr
  let prior := before a q
  q.kind == .stream && decide (q.at_ + 8 ≤ coreCyc s core) && !(prior.any isDouble) && feedFree a (coreCyc s core)
    && (prior.all fun x => x.kind != .drain || drainAccid x.f != streamAccid q.f || drainRead s core x)
    && (!arrayIdle s core || decide (rampsNow s core < 4))

/-- The sets that a STREAM meets are consistent (R146). -/
def streamSetsOk (a : ArrayState) : Bool :=
  a.active.state == .empty ||
    (!a.active.low && (a.active.fmt != 0 || (a.shadow.low && a.shadow.state == .loaded && a.shadow.load == a.active.load)))

def doStreamStart (s : State) (core : Nat) (q : ArrCmd) : State :=
  let a := (coreOf s core).arr
  if !streamSetsOk a then arrFault s core q.cmd
  else
    let ramp := arrayIdle s core
    let cyc := coreCyc s core
    let r : StreamRun := { id := q.id, start := cyc, ramp, act := a.active, shd := a.shadow, done := 0, limit := none }
    let lo := loPass r q.f
    let a := if innerStream r then (a.wave cyc lo.1).wave cyc (lo.2 + 1) else a
    let arr := { a with
      streams := a.streams ++ [r], lastRow := lo.2, idle := false, ramp := if ramp then some cyc else a.ramp }
    coreProgress (modCore s core fun k => { k with arr }) core

def execStreamStart (core : Nat) (u : Upset) (s : State) : Host.Outcome State Fault Refusal :=
  match nextFeed (coreOf s core).arr with
  | some q =>
    if arrGoes s core q && streamMayStart s core q then
      if (coreOf s core).arr.active.state = .empty then .next (doStreamStart s core q)
      else .next (scrUpset s core q.cmd q.base u fun s => doStreamStart s core q)
    else .next s
  | none => .next s

def execArrayIdleTimeout (core : Nat) (s : State) : Host.Outcome State Fault Refusal :=
  let a := (coreOf s core).arr
  if !a.idle ∧ a.lastRow + 1025 ≤ coreCyc s core then
    .next (modCore s core fun k => { k with arr := { k.arr with idle := true } })
  else .next s

def execRampEnd (core : Nat) (s : State) : Host.Outcome State Fault Refusal :=
  match (coreOf s core).arr.ramp with
  | some t =>
    if t + 64 ≤ coreCyc s core then
      let s := pmcEvent s (pgMXA core) 0x0105 64 none
      .next (modCore s core fun k => { k with arr := { k.arr with ramp := none } })
    else .next s
  | none => .next s

/-! ### Output rows (R128, R137–R144, R195–R197) -/

/-- The oldest STREAM with a row to write. -/
def streamRowDue (s : State) (core : Nat) : Option (StreamRun × ArrCmd) :=
  let a := (coreOf s core).arr
  match a.streams.findSome? fun r => (queued a r.id).bind fun q => if r.done < streamLimit r q.f then some (r, q) else none with
  | some (r, q) => if entryCycle r r.done + 203 ≤ coreCyc s core then some (r, q) else none
  | none => none

/-- The command has ended, and its rows run out of the array (R161). -/
def isGhost (a : ArrayState) (id : Nat) : Bool := a.ghosts.any fun g => g.q.id == id

/-- The command ID of a queue entry. -/
def arrCmdId (s : State) (core : Nat) (q : ArrCmd) : Nat :=
  match (coreOf s core).arr.ghosts.find? fun g => g.q.id == q.id with
  | some g => g.cmdId.toNat
  | none => ((cmdOf s q.cmd).map fun c => c.d.cmdId.toNat).getD 0

/-- The last row of an ended command is out, or the array stops it. -/
def dropGhost (s : State) (core id : Nat) : State :=
  modCore s core fun k =>
    let streams := k.arr.streams.filter fun r => r.id != id
    let ghosts := k.arr.ghosts.filter fun g => g.q.id != id
    { k with arr := { k.arr with streams, ghosts } }

/-- The first INV result latched (R167, R196). -/
def latchXstat (s : State) (core cmd : Nat) (orient : Bool) (pass out row : Nat) : State :=
  if reg s Reg.mxaXstat core ≥ 2 ^ 31 then s
  else
    let v := 2 ^ 31 + (if orient then 2 ^ 30 else 0) + pass * 2 ^ 28 + out * 2 ^ 20 + row
    setReg (setReg s Reg.mxaXstat core v) Reg.mxaXcmd core cmd

/-- MXA_COLINV0–MXA_COLINV2 take the outputs with an INV result (R169, R195). -/
def noteColinv (s : State) (core : Nat) (outs : List Nat) : State :=
  outs.foldl (fun s j =>
    let r := if j < 32 then Reg.mxaColinv0 else if j < 64 then Reg.mxaColinv1 else Reg.mxaColinv2
    setReg s r core (reg s r core ||| 2 ^ (j % 32))) s

/-- The counts and latches of a row's results (R195–R197). A command that has ended counts no more. -/
def noteResults (s : State) (core : Nat) (q : ArrCmd) (orient : Bool) (pass row : Nat) (rs : List (Nat × EdgeRes)) : State :=
  let invs := (rs.filter fun r => r.2.inv).map Prod.fst
  let ovfs := (rs.filter fun r => r.2.ovf).length
  let trap := (coreOf s core).arr.trap && !invs.isEmpty
  let s :=
    if isGhost (coreOf s core).arr q.id then s
    else modCmd s q.cmd fun c =>
      { c with invalid := c.invalid + invs.length, overflow := c.overflow + ovfs, trapped := c.trapped || trap }
  match invs with
  | [] => s
  | j :: _ => noteColinv (latchXstat s core (arrCmdId s core q) orient pass j row) core invs

/-- A row that a running DRAIN has read, set aside when a STREAM's row, readable from a cycle on, takes its place (R150, R157). -/
def holdRow (k : CoreSt) (addr readable : Nat) : CoreSt :=
  match k.arr.drain with
  | some d =>
    match d.start, queued k.arr d.id with
    | some t, some q =>
      let i := addr - mxAccRow q.f
      if mxAccRow q.f ≤ addr ∧ d.next ≤ i ∧ i ≤ mxNrows q.f ∧ t + i < readable ∧ (mget d.held i).isNone then
        { k with arr := { k.arr with drain := some { d with held := mset d.held i (mgetD k.arr.rows addr .unwritten) } } }
      else k
    | _, _ => k
  | none => k

/-- What the first row of a pass against W_lo and the last one bring with them: an internal swap wave (R145). -/
def noteWaves (s : State) (core : Nat) (r : StreamRun) (q : ArrCmd) : State :=
  let n := streamRows r q.f
  let ctx := some (ctxOf s q.cmd)
  if !innerStream r then s
  else
    let s := if r.done = n - (mxNrows q.f + 1) then pmcEvent s (pgMXA core) 0x0103 1 ctx else s
    if r.done + 1 = streamLimit r q.f ∧ n - (mxNrows q.f + 1) ≤ r.done then pmcEvent s (pgMXA core) 0x0103 1 ctx else s

/-- One output row of a pass into accumulator memory. A row of an ended command that meets a row of the other MODE is the
last. -/
def doRowWrite (s : State) (core : Nat) (r : StreamRun) (q : ArrCmd) : State :=
  let n := mxNrows q.f + 1
  let pass := r.done / n
  let row := r.done % n
  let addr := mxAccRow q.f + row
  let accum := streamAccum q.f || decide (pass > 0)
  let int := intMode r.act q.f
  let old := mgetD (coreOf s core).arr.rows addr .unwritten
  let ended := isGhost (coreOf s core).arr q.id
  if accum && old.written && old.int != int then (if ended then dropGhost s core q.id else arrFault s core q.cmd)
  else
    let base := if old.written then old else .unwritten
    let h := passHalves r.act (mxFmt q.f) pass
    let x := if r.act.state = .empty then ([], s) else streamOperands s core q r.act h.1 row
    let w := if h.2 then r.shd else r.act
    let sumOf (j : Nat) := if r.act.state = .empty then none else outputSum w r.act x.1 j
    let rs := (List.range 96).map fun j => edgeOf int accum (base.elems.getD j 0).toNat (base.sat.getD j false) (sumOf j)
    let elems := (List.range 96).map fun j =>
      match rs.getD j none with
      | some e => BitVec.ofNat 32 e.elem
      | none => base.elems.getD j 0
    let sat := (List.range 96).map fun j =>
      match rs.getD j none with
      | some e => e.sat
      | none => base.sat.getD j false
    let s := pmcEvent x.2 (pgMXA core) 0x0100 1 (some (ctxOf s q.cmd))
    let s := modCore (noteWaves s core r q) core fun k =>
      let k := holdRow k addr (entryCycle r r.done + 204)
      let rows := mset k.arr.rows addr { int, written := true, sat, elems }
      let streams := k.arr.streams.map fun t => if t.id = r.id then { t with done := t.done + 1 } else t
      { k with arr := { k.arr with rows, streams } }
    let results := (List.range 96).filterMap fun j => (rs.getD j none).map fun e => (j, e)
    let s := coreProgress (noteResults s core q r.act.orient pass row results) core
    if ended && r.done + 1 == streamLimit r q.f then dropGhost s core q.id else s

def execAccRowWrite (core : Nat) (u : Upset) (s : State) : Host.Outcome State Fault Refusal :=
  match streamRowDue s core with
  | some (r, q) =>
    if u = .uncorrectable then
      if isGhost (coreOf s core).arr q.id then
        .next (sramError (dropGhost s core q.id) core (pgMXA core) Code.memEccUncorr)
      else .next (arrEcc s core q.cmd)
    else .next (doRowWrite s core r q)
  | none => .next s

/-! ### The end of a STREAM, and the start of a DRAIN that waits for it (R150, R156, R157, R200) -/

/-- The DRAIN in the quantizer starts once no earlier STREAM of its ACCID is left, no earlier than 8 cycles after its
dispatch; one whose context is being saved does not start any more (R162). -/
def startDrain (s : State) (core : Nat) : State :=
  let a := (coreOf s core).arr
  match a.drain with
  | some d =>
    match d.start, queued a d.id with
    | none, some q =>
      if ((before a q).any fun x => x.kind == .stream && streamAccid x.f == drainAccid q.f) || !arrGoes s core q then s
      else
        let d := { d with start := some (max (coreCyc s core) (d.disp + 8)) }
        modCore s core fun k => { k with arr := { k.arr with drain := some d } }
    | _, _ => s
  | none => s

def streamDue (s : State) (core : Nat) : Option ArrCmd :=
  let a := (coreOf s core).arr
  match a.streams.filter fun r => !isGhost a r.id with
  | r :: _ =>
    match a.queue.find? fun q => q.id == r.id with
    | some q =>
      if r.done = streamRows r q.f ∧ entryCycle r (r.done - 1) + 204 ≤ coreCyc s core then some q else none
    | none => none
  | [] => none

def doStreamComplete (s : State) (core : Nat) (q : ArrCmd) : State :=
  let s := modCore s core fun k =>
    let streams := k.arr.streams.filter fun r => r.id != q.id
    { k with arr := { k.arr with streams } }
  startDrain (arrDone s core q) core

def execStreamComplete (core : Nat) (s : State) : Host.Outcome State Fault Refusal :=
  match streamDue s core with
  | some q => .next (doStreamComplete s core q)
  | none => .next s

/-! ### WAIT.Q (R120, R149, R158) -/

/-- The WAIT.Q at the head of what is not dispatched, its condition met: every command that its group had issued with SIG on
the token before it has completed. -/
def waitQDue (s : State) (core : Nat) : Option ArrCmd :=
  match (coreOf s core).arr.queue.find? fun q => q.kind == .waitq with
  | some q =>
    match groupOf s core q.slot with
    | some g => if (mgetD g.tokens q.f.tok.toNat .none).owed.all fun n => decide (q.need ≤ n) then some q else none
    | none => some q
  | none => none

def execWaitQRelease (core : Nat) (s : State) : Host.Outcome State Fault Refusal :=
  match waitQDue s core with
  | some q => if arrGoes s core q then .next (arrDone s core q) else .next s
  | none => .next s

/-! ### The start of a matrix command on a core (R126, R166, R197, R230) -/

/-- MXA_COLINV0–MXA_COLINV2 (R169). -/
def colinvRegs : List RegDef := [Reg.mxaColinv0, Reg.mxaColinv1, Reg.mxaColinv2]

/-- QNT_AMAX and the counters of the QNT page. -/
def qntCounts : List RegDef :=
  [Reg.qntAmax, Reg.qntNancnt, Reg.qntSatcnt, Reg.qntOvfcnt, Reg.qntInvcnt, Reg.qntRows]

/-- Sets, rows, sticky bits and the quantizer's counters cleared, the trap setting captured; rows of an ended command that are
still in the array are discarded (R161). -/
def prepareArray (s : State) (core cmd : Nat) : State :=
  let s := regSafePoint s (pgMXA core) Reg.mxaXtrap core
  let s := (colinvRegs ++ qntCounts).foldl (fun s r => setReg s r core 0) s
  let trap := reg s Reg.mxaXtrap core % 2 == 1
  modCore s core fun k =>
    { k with arr := { k.arr with
        active := .cleared, shadow := .cleared, rows := [], ghosts := [], cmd := some cmd, trap
        streams := k.arr.streams.filter fun r => !isGhost k.arr r.id } }

end Sys2Proof.Machine
end

