-- ==== Sys2Proof/Machine/Drain.lean ====
section
/-! DEFINITION. The quantizer: the DRAIN's parameter block (R200–R202, R225–R227), its two paths (R203–R217), its writes and
counts (R218–R224, R228–R230).
Assumption log: DEDUCED 28, 29. -/

namespace Sys2Proof.Machine

/-! ### The parameter block (R201, R202) -/

/-- Little-endian words of bytes. -/
def wordsIn : Nat → List Byte → List Nat
  | 0, _ => []
  | n + 1, b => fromLe (b.take 4) :: wordsIn n (b.drop 4)

/-! ### Parameter faults (R226) -/

def qpReserved (par : List Nat) (table : List (List Nat)) : Bool :=
  qpCtrl par 31 16 != 0 || qpCtrl par 3 2 != 0 || qpBlk par == 3 || decide (qpCols par > 95)
    || bitsOf (qpWord par 3) 15 6 != 0 || bitsOf (qpWord par 10) 31 16 != 0
    || ((List.range 5).any fun i => qpWord par (11 + i) != 0)
    || (qpAct par == 3 && table.any fun e => e.getD 3 0 != 0)

def qpOutside (q : ArrCmd) (alloc : Nat) (par : List Nat) : Bool :=
  decide (q.base + mxNrows q.f * drainStride q.f + rowBytes (mxFmt q.f) (qpCols par + 1) > alloc)
    || (qpBias par && decide (qpWord par 6 + 384 > alloc))
    || (qpAct par == 3 && decide (qpWord par 7 + 256 > alloc))
    || (qpBlk par != 0 && decide (qpWord par 8 + mxNrows q.f * qpStride par + 4 > alloc))
    || (qpSummary par && decide (qpWord par 9 + 32 > alloc))

def qpUnaligned (par : List Nat) : Bool :=
  (qpBias par && qpWord par 6 % 32 != 0) || (qpAct par == 3 && qpWord par 7 % 32 != 0)
    || (qpBlk par != 0 && qpWord par 8 % 4 != 0) || (qpSummary par && qpWord par 9 % 32 != 0)

def qpBadStride (par : List Nat) : Bool := qpBlk par != 0 && (qpStride par == 0 || qpStride par % 4 != 0)

/-- BREAK[1..15] ascend strictly. -/
def breaksRise : List Num → Bool
  | a :: b :: t => cmpNum a b == some .lt && breaksRise (b :: t)
  | _ => true

def qpBadTable (table : List (List Nat)) : Bool :=
  let num (e : List Nat) (k : Nat) : Num := fmtF32.decode (e.getD k 0)
  let breaks := (table.drop 1).map fun e => num e 0
  (table.any fun e => num e 1 == .nan || num e 2 == .nan) || breaks.any (fun b => b == .nan) || !breaksRise breaks

/-- The faults that the dispatch detects, the lowest REASON first. -/
def qpFault (q : ArrCmd) (alloc : Nat) (par : List Nat) (table : List (List Nat)) : Option Nat :=
  if qpReserved par table then some 1
  else if qpOutside q alloc par then some 2
  else if qpUnaligned par then some 3
  else if qpBadStride par then some 4
  else if qpAct par = 3 ∧ qpBadTable table then some 6
  else none

/-- QNT_PFAULT takes the first fault; the command ends (R225, R229). -/
def paramFault (s : State) (core : Nat) (q : ArrCmd) (reason row : Nat) : State :=
  let s := if reg s Reg.qntPfault core ≥ 2 ^ 31 then s
    else
      setReg (setReg s Reg.qntPfault core (2 ^ 31 + reason * 2 ^ 24 + row)) Reg.qntPfcmd core
        (((cmdOf s q.cmd).map fun c => c.d.cmdId.toNat).getD 0)
  failCmd (pmcEvent s (pgQNT core) 0x0103 1 (some (ctxOf s q.cmd))) q.cmd Code.qntParamInvalid (pgQNT core) 0

/-! ### DRAIN_DISPATCH (R200) -/

def nextDrain (a : ArrayState) : Option ArrCmd :=
  if a.drain.isSome then none else (dispatched a).find? fun q => q.kind == .drain

/-- The parameter block, then the bias vector and the table where it enables them, are read and checked. -/
def doDrainDispatch (s : State) (core : Nat) (q : ArrCmd) : State :=
  let pb := operandBytes s core q q.scale 64
  let par := wordsIn 16 pb.1
  let bias := if qpBias par then operandBytes pb.2 core q (qpWord par 6) 384 else ([], pb.2)
  let tb := if qpAct par = 3 then operandBytes bias.2 core q (qpWord par 7) 256 else ([], bias.2)
  let words := wordsIn 64 tb.1
  let table := if qpAct par = 3 then (List.range 16).map fun i => (words.drop (4 * i)).take 4 else []
  let s := tb.2
  match qpFault q (allocBytes (coreOf s core) q.cmd) par table with
  | some r => paramFault s core q r 0
  | none =>
    let d : DrainRun :=
      { id := q.id, disp := coreCyc s core, start := none, par, bias := wordsIn 96 bias.1, table, next := 0, rows := 0, held := [], amax := 0,
        nans := 0, sats := 0, ovfs := 0, qinv := 0 }
    startDrain (modCore s core fun k => { k with arr := { k.arr with drain := some d } }) core

def execDrainDispatch (core : Nat) (u : Upset) (s : State) : Host.Outcome State Fault Refusal :=
  match nextDrain (coreOf s core).arr with
  | some q =>
    if arrGoes s core q then .next (scrUpset s core q.cmd q.scale u fun s => doDrainDispatch s core q) else .next s
  | none => .next s

/-! ### One row (R203–R218, R220) -/

/-- The rows that STREAMs have made readable by a cycle are all in accumulator memory (R156). -/
def rowsIn (a : ArrayState) (t : Nat) : Bool :=
  a.streams.all fun r =>
    match queued a r.id with
    | some q => decide (streamLimit r q.f ≤ r.done ∨ t < entryCycle r r.done + 204)
    | none => true

/-- The first row that the DRAIN has read by now and that brings out a fault, with the fault (R226, R227). -/
def drainFault (s : State) (core : Nat) (d : DrainRun) (q : ArrCmd) (t : Nat) : Option (Nat × Nat) :=
  (List.range (mxNrows q.f + 1)).findSome? fun i =>
    if d.next ≤ i ∧ t + i ≤ coreCyc s core ∧ rowsIn (coreOf s core).arr (t + i) then
      (rowFault d.par (drainRowOf (coreOf s core) d q i) (mxFmt q.f)).map fun r => (i, r)
    else none

/-- The DRAIN whose next row is through the quantizer, or that has read a row which brings out a fault. -/
def drainRowDue (s : State) (core : Nat) : Option (DrainRun × ArrCmd) :=
  match runningDrain s core with
  | some (d, q, t) =>
    if (d.next ≤ mxNrows q.f ∧ t + d.next + 24 ≤ coreCyc s core ∧ rowsIn (coreOf s core).arr (t + d.next))
        ∨ (drainFault s core d q t).isSome then some (d, q)
    else none
  | none => none

/-- A row is through; a fault ends the command, and the rows read before it are written and counted with its end (R227). -/
def doDrainRow (s : State) (core : Nat) (d : DrainRun) (q : ArrCmd) : State :=
  match drainFault s core d q (d.start.getD 0) with
  | some (i, r) => paramFault s core q r i
  | none => drainRow s core d q

/-- An uncorrectable element ends the command; its row is not written (R160). -/
def execDrainRow (core : Nat) (u : Upset) (s : State) : Host.Outcome State Fault Refusal :=
  match drainRowDue s core with
  | some (d, q) =>
    if u = .uncorrectable then
      let skip := modCore s core fun k => { k with arr := { k.arr with drain := some { d with next := d.next + 1 } } }
      .next (arrEcc skip core q.cmd)
    else .next (doDrainRow s core d q)
  | none => .next s

/-! ### DRAIN_COMPLETE (R157, R222, R223) -/

def drainDue (s : State) (core : Nat) : Option (DrainRun × ArrCmd) :=
  match runningDrain s core with
  | some (d, q, t) => if d.next = mxNrows q.f + 1 ∧ t + mxNrows q.f + 24 ≤ coreCyc s core then some (d, q) else none
  | none => none

/-- The 32 bytes of the drain summary (R223). -/
def summaryBytes (d : DrainRun) : List Byte :=
  leBytes 4 d.amax.toNat ++ leBytes 4 d.nans ++ leBytes 4 d.sats ++ leBytes 4 d.ovfs ++ leBytes 4 d.qinv
    ++ leBytes 4 d.rows ++ leBytes 8 0

def doDrainComplete (s : State) (core : Nat) (d : DrainRun) (q : ArrCmd) : State :=
  let s := foldDrain (pmcEvent s (pgQNT core) 0x0100 1 (some (ctxOf s q.cmd))) core q.cmd d
  let s := modCore s core fun k =>
    let k := if qpSummary d.par then putDrain k q (qpWord d.par 9) (summaryBytes d) else k
    { k with arr := { k.arr with drain := none } }
  arrDone s core q

def execDrainComplete (core : Nat) (s : State) : Host.Outcome State Fault Refusal :=
  match drainDue s core with
  | some (d, q) => .next (doDrainComplete s core d q)
  | none => .next s

end Sys2Proof.Machine
end

