-- ==== Sys2Proof/Machine/FabRecv.lean ====
section
/-! DEFINITION. What this module performs for its peers (R405, R406): the ordered performance of writes, reducing writes and
atomics, reads, refusals.
Assumption log: DEDUCED 110, 114. -/

namespace Sys2Proof.Machine

/-! ### Responses (R401, R406, R408) -/

/-- A response toward a peer; a peer that is lost gets none (R407). -/
def respondOnly (s : State) (n req addr : Nat) (m : Msg) : State :=
  if (peerGone s n).isSome then s
  else sendResp s { dst := n, cls := 2, shadow := false, addr, tag := 0, req, psn := 0, msg := m, cmd := none, groups := [] }

/-- A BE request of a peer is over: its credit may be granted again (R403). -/
def creditBack (s : State) (n : Nat) : State := modPeer s n fun p => { p with granted := p.granted - 1 }

/-- The answer to a READ. -/
def respond_ (s : State) (n req addr : Nat) (m : Msg) : State :=
  match m with
  | .readResp _ => respondOnly (creditBack s n) n req addr m
  | _ => respondOnly s n req addr m

/-- REFUSED: the code and the PSN of the refused request (R406). -/
def sendRefused (s : State) (n req code psn : Nat) : State := respond_ s n req psn (.refused code psn)

/-- Bytes served for peers (R540). -/
def countIngress (s : State) (n : Nat) : State := { s with srv := { s.srv with ingress := s.srv.ingress + n } }

/-- The next data PSN of a peer not yet performed here (R396, R405): that of the oldest write, reducing write or atomic that
waits, else the next expected. -/
def perfOf (p : Peer) : Nat :=
  match p.ingress with
  | b :: _ => b.hdr.psn
  | [] => p.data.expect

/-- An ACK is owed to the peer, for what it sent or for PERF (R398, R405). -/
def oweAck (s : State) (n : Nat) : State :=
  modPeer s n fun p => { p with data := { p.data with ackDue := p.data.ackDue <|> some s.now } }

/-! ### Where a peer's request leads (R359, R386, R405, R406) -/

/-- What resolving a request's address finds. -/
inductive Resolved where
  | pa (a : Nat)
  | wait
  | refuse (code : Nat)

/-- A plain address of this module that a peer may reach. -/
def plainPa (s : State) (a n : Nat) : Resolved :=
  if a < 0x20000000 ∨ a + n > hbmBytes s then .refuse Code.memReservedRefused else .pa a

/-- The line that a peer's read addresses (R288): what its tag owns reads its working frame, everyone else the current
one. While a pair is being copied both hold the same. -/
def resolveRead (s : State) (h : BlockHdr) (n : Nat) : Resolved :=
  if h.shadow then
    if h.addr ≥ 2 ^ 39 then .refuse Code.fabShadowUnmapped
    else
      match pairOf s (h.addr / 65536) with
      | none => .refuse Code.fabShadowUnmapped
      | some p =>
        let f := if p.copying.isSome then p.current else p.readFrame h.src h.tag
        .pa (f + h.addr % 65536)
  else plainPa s h.addr n

/-- The same for a write: the pair's owner alone writes it, an IDLE pair is acquired, a copy is awaited (R293, R295). A
write accepted before its module was lost is still performed on the pair that is now HELD. -/
def resolveWrite (s : State) (h : BlockHdr) (n : Nat) : Resolved × State :=
  if h.shadow then
    let i := h.addr / 65536
    if h.addr ≥ 2 ^ 39 then (.refuse Code.fabShadowUnmapped, s)
    else
      match pairOf s i with
      | none => (.refuse Code.fabShadowUnmapped, s)
      | some p =>
        let mine := p.ownedBy h.src h.tag
        let lost := (peerGone s h.src).isSome
        if p.state = .idle ∨ (mine ∧ (p.state = .owned ∨ (p.state = .held ∧ lost))) then
          let s := if p.state = .idle then setPair s i (p.given h.src h.tag false) else s
          let s := touchPair s i
          match pairOf s i with
          | some p => if p.copying.isSome then (.wait, s) else (.pa (p.working + h.addr % 65536), s)
          | none => (.wait, s)
        else (.refuse Code.commitFrameBusy, s)
  else (plainPa s h.addr n, s)

/-! ### Performing in PSN order (R405) -/

/-- The poisoned sector that a write touches and does not cover whole (R364, R406). -/
def partialPoison (s : State) (line : Nat) (mask : BitVec 128) : Option Nat :=
  ((List.range 4).map fun k => line + 32 * k).find? fun a =>
    let m := maskAt (a - line) 32
    isPoisoned s a && !rewritten s a && (mask &&& m) != 0 && (mask &&& m) != m

/-- Whole sectors from an address on, written line by line. -/
def writeLines (s : State) (a : Nat) (data : List Byte) : State :=
  let off := a % 128
  let first := data.take (128 - off)
  let rest := data.drop (128 - off)
  let s := acceptAtL2 s (lineOf a) (maskAt off first.length) (putAt zeroLine off first) none 0
  if rest.isEmpty then s
  else acceptAtL2 s (lineOf a + 128) (maskAt 0 rest.length) (putAt zeroLine 0 rest) none 0

/-- The oldest block of a peer is over. -/
def popHead (s : State) (n : Nat) : State :=
  let be : Bool := match (peerOf s n).ingress with
    | b :: _ => b.hdr.cls == 2#2
    | [] => false
  let s := oweAck (modPeer s n fun p => { p with ingress := p.ingress.tail }) n
  if be then creditBack s n else s

def refuseHead (s : State) (n : Nat) (h : BlockHdr) (code : Nat) : State :=
  popHead (sendRefused s n h.req code h.psn) n

/-- A COMMIT or DISCARD token stands behind the data blocks that it waits for (R298). -/
def InBlk.isToken (b : InBlk) : Bool := match b.msg with
  | .commit _ | .discard _ => true
  | _ => false

/-- The oldest block of a peer performed, begun, or left to wait: the state after, and whether the next may be looked
at. -/
def performHead (s : State) (n : Nat) (b : InBlk) : State × Bool :=
  let h := b.hdr
  let start (s : State) : State :=
    modPeer s n fun p => { p with ingress := match p.ingress with
      | x :: t => { x with started := true } :: t
      | [] => [] }
  if b.started then (s, false)
  else if b.isToken then
    let s := modPeer s n fun p => { p with ingress := p.ingress.tail }
    (match b.msg with
      | .commit _ => commitArrive s n h.tag
      | _ => discardArrive s n h.tag, true)
  else
    match resolveWrite s h b.msg.len with
    | (.refuse c, s) => (refuseHead s n h c, true)
    | (.wait, s) => (s, false)
    | (.pa a, s) =>
      if !sliceTakes s a then (s, false)
      else
        match b.msg with
        | .write d => (popHead (writeLines (countIngress s d.length) a d) n, true)
        | .writeMasked m d =>
          match partialPoison s (lineOf a) m with
          | some x => (refuseHead (notePoisoned s x) n h Code.memPoisoned, true)
          | none => (popHead (acceptAtL2 (countIngress s (popCount 128 m.toNat)) (lineOf a) m d none 0) n, true)
        | .reduce op d => (pushReduce (start (countIngress s d.length)) a op d n h.psn, false)
        | .atomic op es =>
          (pushPeerAtoms (start (countIngress s (8 * es.length))) (sectorOf a) op es n h.req h.psn, false)
        | _ => (popHead s n, true)

/-- Everything of a peer that can be performed now. -/
def pump (n : Nat) : Nat → State → State
  | 0, s => s
  | k + 1, s =>
    match (peerOf s n).ingress with
    | [] => s
    | b :: _ =>
      let r := performHead s n b
      if r.2 then pump n k r.1 else r.1

def pumpPeer (s : State) (n : Nat) : State := pump n ((peerOf s n).ingress.length + 1) s

/-- The same for every peer. -/
def pumpAll (s : State) : State :=
  s.fab.peers.foldl (fun s e => if e.2.ingress.isEmpty then s else pumpPeer s e.1) s

/-- A block that a reducer has performed is over. -/
def finishHead (s : State) (n psn : Nat) : State :=
  match (peerOf s n).ingress with
  | b :: _ => if b.hdr.psn = psn ∧ b.started then pumpPeer (popHead s n) n else s
  | [] => s

/-- A block that a reducer could not perform is refused (R406). -/
def refuseStarted (s : State) (n req code psn : Nat) : State := finishHead (sendRefused s n req code psn) n psn

/-! ### Reads (R405) -/

/-- The slice has every sector of a range of one granule. -/
def l2Has (s : State) (pa len : Nat) : Bool :=
  let st := sliceIdx s pa
  (sliceOf s st).ctl.enabled &&
  (List.range (len / 32)).all fun k =>
    let a := pa + 32 * k
    match tagFor (mgetD (sliceOf s st).sets (l2Set a) []) (lineOf a) with
    | some t => t.valid.getLsbD (a % 128 / 32) && !sectorHeld s (lineOf a) (1#4 <<< (a % 128 / 32))
    | none => false

/-- The sectors of a range. -/
def sectorsIn (a n : Nat) : List Nat := (List.range (ceilDiv n 32)).map fun k => sectorOf a + 32 * k

/-- A reduction, an atomic or a partial merge on a sector of a range has not returned to the slice (R373). -/
def rangeHeld (s : State) (a n : Nat) : Bool := (sectorsIn a n).any fun x => sectorHeld s (lineOf x) (1#4 <<< (x % 128 / 32))

/-- A READ: from the slice, or through the channel. One of a sector on which a reduction is outstanding is held at the slice
(R373). -/
def serveRead (s : State) (h : BlockHdr) : State :=
  match resolveRead s h h.len with
  | .refuse c => sendRefused (creditBack s h.src) h.src h.req c h.psn
  | .wait => s
  | .pa a =>
    if rangeHeld s a h.len then { s with ms := { s.ms with heldReads := s.ms.heldReads ++ [h] } }
    else
      let s := pmcEvent s (pgL2C (sliceIdx s a)) 0x0100 1 none
      if l2Has s a h.len then
        respond_ (pmcEvent s (pgL2C (sliceIdx s a)) 0x0101 1 none) h.src h.req 0 (.readResp (rdBytes s a h.len))
      else pushChan s a (.peerRead h.src h.req a h.len h.psn (ownSectors s (sectorsIn a h.len)))

/-- A READ that arrives (R405). -/
def peerRead (s : State) (h : BlockHdr) : State := serveRead (countIngress s h.len) h

/-- The READs that reductions held, served (R373). -/
def pumpReads (s : State) : State :=
  if s.ms.heldReads.isEmpty then s
  else s.ms.heldReads.foldl serveRead { s with ms := { s.ms with heldReads := [] } }

end Sys2Proof.Machine
end

