-- ==== Sys2Proof/Machine/Cache.lean ====
section
/-! DEFINITION. Turning a cache off and on (R246, R248–R252).
Assumption log: DEDUCED 34. -/

namespace Sys2Proof.Machine

/-- The control of a cache. -/
def ctlOf (s : State) : CacheUnit → CacheCtl
  | .l1 c => (coreOf s c).l1ctl
  | .l2 i => (sliceOf s i).ctl

def modCtl (s : State) (u : CacheUnit) (f : CacheCtl → CacheCtl) : State :=
  match u with
  | .l1 c => modCore s c fun k => { k with l1ctl := f k.l1ctl }
  | .l2 i => modSlice s i fun x => { x with ctl := f x.ctl }

/-- The page of a cache's control register. -/
def unitPage : CacheUnit → Nat
  | .l1 c => pgTMV c
  | .l2 i => pgL2C i

/-- The clock an invalidate is counted in: the core's, or the 3.6 GHz clock of the slices. -/
def ctlCyc (s : State) : CacheUnit → Nat
  | .l1 c => coreCyc s c
  | .l2 _ => s.now

/-- The unit is there: an enabled core, or the slice of a populated stack (R6). -/
def unitThere (s : State) : CacheUnit → Bool
  | .l1 c => decide (c < 192) && coreOn s c
  | .l2 i => decide (i < 16) && s.boot.stackMask.testBit i

/-- ENABLE = 0 starts a drain (R248): the merging buffer empties. -/
def drainCache (s : State) (u : CacheUnit) : State :=
  let c := ctlOf s u
  if !c.enabled ∨ c.draining.isSome then s
  else
    let s := modCtl s u fun c => { c with draining := some s.now }
    match u with
    | .l1 k => sendEntries s k fun _ => true
    | .l2 i => (sliceOf s i).mbuf.foldl (fun s e => sendL2Entry s i e) s

def execCacheDisable (tenant : Nat) (u : CacheUnit) (s : State) : Host.Outcome State Fault Refusal :=
  .next (mgmtWrite s tenant (.cacheDisable u) fun s => if unitThere s u then drainCache s u else s)

/-- The merging buffer of a draining cache is empty. -/
def drained (s : State) (u : CacheUnit) : Bool :=
  (ctlOf s u).draining.isSome && match u with
    | .l1 c => (coreOf s c).mbuf.isEmpty
    | .l2 i => (sliceOf s i).mbuf.isEmpty

/-- The drain ends: ENABLE reads 0, INV_DONE clears, held stores go on (R248). -/
def endDrain (s : State) (u : CacheUnit) : State :=
  let s := modCtl s u fun c => { c with enabled := false, draining := none, invDone := false }
  match u with
  | .l1 c =>
    let wake (g : Group) : Group := if g.wait = .drainHeld then { g with wait := .none } else g
    modCore s c fun k => { k with groups := k.groups.map fun g => (g.1, wake g.2) }
  | .l2 _ => pumpAll s

def execCacheDrainEnd (u : CacheUnit) (s : State) : Host.Outcome State Fault Refusal :=
  if drained s u then .next (endDrain s u) else .next s

/-- A core's L1 emptied; fills on their way are not installed (R242). -/
def emptyL1 (s : State) (c : Nat) : State :=
  let mark (r : Nat × LineReq) : Nat × LineReq := if r.2.core = c then (r.1, { r.2 with noInstall := true }) else r
  let s := modCore s c fun k => { k with l1 := [] }
  { s with ms := { s.ms with reqs := s.ms.reqs.map mark } }

/-- A slice emptied but for lines of the control region (R251). -/
def emptyL2 (s : State) (i : Nat) : State :=
  modSlice s i fun x => { x with sets := x.sets.map fun e => (e.1, e.2.filter fun t => decide (t.line < 0x10000000)) }

/-- INV = 1 (R249); a second one while INV_BUSY reads 1 adds nothing. -/
def startInv (s : State) (u : CacheUnit) : State :=
  if (ctlOf s u).invBusy.isSome then s
  else
    let cyc := ctlCyc s u
    let s := modCtl s u fun c => { c with invBusy := some cyc, invFromDisabled := !c.enabled }
    match u with
    | .l1 c => emptyL1 s c
    | .l2 i => emptyL2 s i

def execCacheInvalidate (tenant : Nat) (u : CacheUnit) (s : State) : Host.Outcome State Fault Refusal :=
  .next (mgmtWrite s tenant (.cacheInvalidate u) fun s => if unitThere s u then startInv s u else s)

/-- 512 cycles of the L1 or 8,192 of a slice have passed (R249). -/
def invOver (s : State) (u : CacheUnit) : Bool :=
  match (ctlOf s u).invBusy, u with
  | some t, .l1 _ => decide (t + 512 ≤ ctlCyc s u)
  | some t, .l2 _ => decide (t + 8192 ≤ ctlCyc s u)
  | none, _ => false

def endInv (s : State) (u : CacheUnit) : State :=
  modCtl s u fun c => { c with invBusy := none, invFromDisabled := false, invDone := c.invDone || c.invFromDisabled }

def execCacheInvalidateDone (u : CacheUnit) (s : State) : Host.Outcome State Fault Refusal :=
  if invOver s u then .next (endInv s u) else .next s

/-- ENABLE = 1 (R250): the cache is enabled where INV_DONE = 1, no drain is in progress and INV_BUSY = 0; otherwise the write
is ignored, and CACHE_ENABLE_STALE recorded. -/
def enableCache (s : State) (u : CacheUnit) : State :=
  let c := ctlOf s u
  if c.invDone ∧ c.draining.isNone ∧ c.invBusy.isNone then modCtl s u fun c => { c with enabled := true }
  else logOnly (pgErr s (unitPage u) Code.cacheEnableStale) Code.cacheEnableStale (unitPage u)

def execCacheEnable (tenant : Nat) (u : CacheUnit) (s : State) : Host.Outcome State Fault Refusal :=
  .next (mgmtWrite s tenant (.cacheEnable u) fun s => if unitThere s u then enableCache s u else s)

/-- A write of both fields of TMV_L1CTL or L2C_CTL (R273, R379). -/
def ctlWrite (s : State) (u : CacheUnit) (v : Nat) : State :=
  let s := if v % 2 = 0 then drainCache s u else enableCache s u
  if v / 2 % 2 = 1 then startInv s u else s

/-- Every kept mark of a slice cleared (R246). -/
def clearKept (s : State) (i : Nat) : State :=
  modSlice s i fun x => { x with sets := x.sets.map fun e => (e.1, e.2.map fun t => { t with kept := false }) }

def execL2cKeepClear (tenant slice : Nat) (value : Word) (s : State) : Host.Outcome State Fault Refusal :=
  .next (mgmtWrite s tenant (.write (Reg.l2cKeepClear.at_ slice) 4 (value.setWidth 64)) fun s =>
    if unitThere s (.l2 slice) ∧ value.getLsbD 0 then clearKept s slice else s)

end Sys2Proof.Machine
end

