-- ==== Sys2Proof/Machine/Hbm.lean ====
section
/-! DEFINITION. The channel controllers and their reducers (R349–R376): accesses in arrival order, the link and the check
code, spare lanes, channel resets, the patrol scrubber, refresh bands, the atomics of the control region.
Assumption log: DEDUCED 109, 111, 120; DESIGN CHOICE 125. -/

namespace Sys2Proof.Machine

/-! ### Errors of a stack (R361–R366, R385) -/

/-- A sector poisoned (R364). -/
def poisonSector (s : State) (a : Nat) : State :=
  if isPoisoned s (sectorOf a) then s else { s with poison := sectorOf a :: s.poison }

/-- An uncorrectable sector: poisoned, counted, latched; in the control region it is fatal (R363, R366). -/
def uncorrSector (s : State) (st ch a : Nat) (scrub : Bool) : State :=
  let s := poisonSector s a
  let s := incReg (incReg s Reg.hbsUncorr st) Reg.hbsPoison st
  let s := hbsLatch (pgErr s (pgHBS st) Code.memEccUncorr) st ch 1 Code.memEccUncorr a scrub
  if a < 0x10000000 then raiseFatal s Code.memEccUncorr (pgHBS st) a else s

/-- The sectors of a line that a mask touches, and those it covers in part. -/
def maskSectors (line : Nat) (m : BitVec 128) : List Nat :=
  (((List.range 4).filter fun k => (m &&& maskAt (32 * k) 32) != 0)).map fun k => line + 32 * k
def partSectors (line : Nat) (m : BitVec 128) : List Nat :=
  (((List.range 4).filter fun k => (m &&& maskAt (32 * k) 32) != 0 && (m &&& maskAt (32 * k) 32) != maskAt (32 * k) 32)).map
    fun k => line + 32 * k

/-- A sector as the stack holds it (R362, R367): encrypted under the keys with its address as the tweak, and its check code;
a poisoned one has a code that no data produces (R364). -/
def sectorCells (s : State) (a : Nat) : Option (List Byte × Option Word) :=
  s.hbm.keys.map fun k =>
    let c := Config.encrypt k (a / 32 % 2 ^ 36) (rdBytes s (sectorOf a) 32)
    (c, if isPoisoned s (sectorOf a) then none else some (Config.checkCode c))

/-! ### Operations of a controller (R372) -/

/-- The sectors an operation accesses. -/
def opSectors (s : State) : ChanOp → List Nat
  | .read id _ => match mget s.ms.reqs id with
    | some r => match reqPa s r with
      | some pa => ((List.range 4).filter fun k => r.sects.getLsbD k).map fun k => pa + 32 * k
      | none => []
    | none => []
  | .peerRead _ _ pa n _ _ => sectorsIn pa n
  | .write l m _ => maskSectors l m
  | .atoms pa _ _ => [pa]
  | .reduce pa n _ _ => sectorsIn pa n
  | .peerAtoms pa _ _ _ _ _ => [pa]

/-- The sectors whose contents in the stack it needs. -/
def opReads (s : State) : ChanOp → List Nat
  | .write l m _ => partSectors l m
  | .read id own => (opSectors s (.read id own)).filter fun a => !own.contains a
  | .peerRead n q pa len psn own => (opSectors s (.peerRead n q pa len psn own)).filter fun a => !own.contains a
  | o => opSectors s o

def opWrites : ChanOp → Bool
  | .read _ _ | .peerRead _ _ _ _ _ _ => false
  | _ => true

/-- The operation is the reducer's (R370, R371): all but reads and writes of whole sectors. -/
def isReducerOp (s : State) : ChanOp → Bool
  | .read _ _ | .peerRead _ _ _ _ _ _ => false
  | .write l m c => !(opReads s (.write l m c)).isEmpty
  | _ => true

/-- The commands that own an operation. -/
def opCmds (s : State) : ChanOp → List Nat
  | .read id _ => ((mget s.ms.reqs id).map LineReq.cmd).toList
  | .write _ _ c => c.toList
  | .atoms _ ids _ => ((ids.filterMap fun i => (mget s.ms.atoms i).map AtomRec.cmd).eraseDups)
  | _ => []

/-- An operation that cannot be performed: its commands end with the code, a peer's request is refused (R361, R363, R364,
R406). -/
def failOp (s : State) (st code : Nat) (o : ChanOp) : State :=
  let a := (opSectors s o).headD 0
  let s := (opCmds s o).foldl (fun s c => failCmd s c code (pgHBS st) a) s
  match o with
  | .peerRead n q _ _ psn _ => sendRefused (creditBack s n) n q code psn
  | .reduce _ _ n psn => refuseStarted s n 0 code psn
  | .peerAtoms _ _ _ n q psn => refuseStarted s n q code psn
  | .atoms _ ids _ => { s with ms := { s.ms with atoms := s.ms.atoms.filter fun e => !ids.contains e.1 } }
  | _ => s

/-- The bytes that an operation moves, charged to its command (R540). -/
def chargeOp (s : State) (o : ChanOp) : State :=
  let n := 32 * (opSectors s o).length + (match o with
    | .write _ _ _ => 32 * (opReads s o).length
    | .atoms _ _ _ => 32
    | _ => 0)
  chargeHbm s (opCmds s o).head? n

/-- A reduction performed whose result is on its way to the slice (R373). -/
def addResult (s : State) (r : RedResult) : State :=
  { s with ms := { s.ms with results := mset s.ms.results s.ms.nextResult r, nextResult := s.ms.nextResult + 1 } }

/-- The largest number of operations on one element (R371). -/
def redClocks (offs : List Nat) : Nat := (offs.map fun o => (offs.filter fun x => x == o).length).foldl max 1

/-- A read's sectors installed in its slice under its hint (R245), unless the slice is off (R248). -/
def l2Fill (s : State) (pa hint : Nat) (sects : BitVec 4) : State :=
  let st := sliceIdx s pa
  if (sliceOf s st).ctl.enabled then
    noteKeep (setL2Set s st pa (fillSet (keepLimit s st) hint (lineOf pa) sects)) st pa hint
  else s

/-- What an operation does when nothing stands against it: reads take what memory holds, a write of a whole sector clears its
poison (R364), a merge takes one reducer clock for each sector (R371), and the results of reductions set out for their slice
(R373). -/
def performOp (s : State) (st : Nat) (o : ChanOp) : State :=
  match o with
  | .read id _ =>
    match mget s.ms.reqs id with
    | none => s
    | some r =>
      match reqPa s r with
      | none => s
      | some pa => readyReq (l2Fill s pa r.hint r.sects) id r (rdBytes s pa 128)
  | .peerRead n q pa len _ _ => respond_ s n q 0 (.readResp (rdBytes s pa len))
  | .write l m _ =>
    let n := (opReads s o).length
    let s := unpoison s l m
    if n = 0 then s else pumpReads (pmcEvent (pmcEvent s (pgHBS st) 0x0101 n none) (pgHBS st) 0x0100 n none)
  | .atoms pa ids olds =>
    let as := (ids.zip olds).filterMap fun e => (mget s.ms.atoms e.1).map fun a => (e.1, a.tgt.num % 32, e.2)
    let s := pmcEvent s (pgHBS st) 0x0100 (redClocks (as.map fun a => a.2.1)) none
    let s := as.foldl (fun s a => atomWrote s a.1 a.2.2.2) s
    addResult s { sectors := [pa], atoms := as.map fun a => (a.1, a.2.2.1, false), peer := none, olds := [] }
  | .reduce pa len n psn =>
    let s := pmcEvent s (pgHBS st) 0x0100 (len / 32) none
    addResult s { sectors := sectorsIn pa len, atoms := [], peer := some (n, 0, psn), olds := [] }
  | .peerAtoms pa offs olds n q psn =>
    let s := pmcEvent s (pgHBS st) 0x0100 (redClocks offs) none
    addResult s { sectors := [pa], atoms := [], peer := some (n, q, psn), olds }

/-- The lane errors that an access's failed transfers count (R360). -/
def noteLane (s : State) (st ch lane n : Nat) : State :=
  let n := min n 5
  if n = 0 then s
  else modChan s st ch fun c =>
    let old := ((aget c.laneErrs lane).getD []).filter fun t => decide (s.now < t + sec 1)
    { c with laneErrs := aset c.laneErrs lane (List.replicate n s.now ++ old) }

/-- The controller resets its channel (R365); a spare switch under way becomes part of the reset. -/
def startChanReset (s : State) (st ch : Nat) : State :=
  modChan s st ch fun c =>
    if c.down.any ChanDown.reset then c
    else { c with down := some { since := s.now, lane := c.down.bind ChanDown.lane, reset := true } }

/-- An uncorrectable sector that ends no command of this module is recorded in the error ring (R363). -/
def recordEcc (s : State) (st a : Nat) (o : ChanOp) : State :=
  if a < 0x10000000 || (opCmds s o).any fun c => (cmdOf s c).isSome then s
  else errWrite s { errBase s Code.memEccUncorr 2 (pgId (pgHBS st)) with addr := a }

/-- The fifth attempt has failed (R361): a write's sectors are poisoned, the command ends, the channel is reset. -/
def exhausted (s : State) (st ch : Nat) (o : ChanOp) : State :=
  let code := Code.memLinkRetryExhausted
  let secs := opSectors s o
  let s := if opWrites o then
      let s := secs.foldl poisonSector s
      incReg s Reg.hbsPoison st secs.length
    else s
  let s := hbsLatch (pgErr s (pgHBS st) code) st ch (if opWrites o then 3 else 2) code (secs.headD 0) false
  raiseUnit (startChanReset (failOp s st code o) st ch) code (.channel st ch)

/-- One operation with what the link and the check code report (R361–R364). -/
def runOp (s : State) (st ch : Nat) (o : ChanOp) (h : HbmOutcome) : State :=
  let s := noteLane s st ch (h.lane % 64) h.failed
  let s := incReg s Reg.hbsLinkretry st (min h.failed 4)
  let s := chargeOp s o
  let reads := opReads s o
  if h.failed ≥ 5 then exhausted s st ch o
  else
    match reads.find? (isPoisoned s) with
    | some a => failOp (notePoisoned s a) st Code.memPoisoned o
    | none =>
      if reads.isEmpty then performOp s st o
      else
        match h.ecc with
        | .clean => performOp s st o
        | .corrected => performOp (incReg s Reg.hbsCorr st) st o
        | .uncorrectable =>
          let a := reads.headD 0
          failOp (uncorrSector (recordEcc s st a o) st ch a false) st Code.memEccUncorr o

/-- The stack is populated. -/
def stackOn (s : State) (st : Nat) : Bool := decide (st < 16) && s.boot.stackMask.testBit st

/-- The oldest operation of a channel that takes requests (R360, R365, R369). -/
def chanHead (s : State) (st ch : Nat) : Option ChanOp :=
  if stackOn s st && decide (ch < 32) && (chanOf s st ch).down.isNone && !s.hbm.selfRef then (chanOf s st ch).queue.head?
  else none

def doChan (s : State) (st ch : Nat) (o : ChanOp) (h : HbmOutcome) : State :=
  let s := modChan s st ch fun c =>
    { c with queue := c.queue.tail, lastDone := s.now, workSince := if c.queue.tail.isEmpty then none else some s.now }
  pumpReads (runOp s st ch o h)

def execChannelAccess (stack channel : Nat) (o : HbmOutcome) (s : State) : Host.Outcome State Fault Refusal :=
  match chanHead s stack channel with
  | some op => if isReducerOp s op then .next s else .next (doChan s stack channel op o)
  | none => .next s

def execReducerRequest (stack channel : Nat) (o : HbmOutcome) (s : State) : Host.Outcome State Fault Refusal :=
  match chanHead s stack channel with
  | some op => if isReducerOp s op then .next (doChan s stack channel op o) else .next s
  | none => .next s

/-- A reduction's result reaches its slice (R373): the old values go to their lanes or to the peer, whose next blocks are
performed. -/
def doResult (s : State) (id : Nat) (r : RedResult) : State :=
  let s := { s with ms := { s.ms with results := mdel s.ms.results id } }
  let s := r.atoms.foldl (fun s a => atomDone s a.1 a.2.1 a.2.2) s
  let s := match r.peer with
    | none => s
    | some (n, q, psn) => finishHead (if r.olds.isEmpty then s else respond_ s n q 0 (.atomicResp r.olds)) n psn
  pumpReads s

def execReductionResult (req : Nat) (s : State) : Host.Outcome State Fault Refusal :=
  match mget s.ms.results req with
  | some r => .next (doResult s req r)
  | none => .next s

/-! ### FRAME_COPY_DONE (R293) -/

/-- The copy of a pair is under way, and its channels take accesses (R293, R360). -/
def copyReady (s : State) (idx : Nat) : Bool :=
  match pairOf s idx with
  | some p => p.copying.isSome && (List.range 256).all fun k => [p.frame0, p.frame1].all fun f =>
      let c := channelOf s (f + 256 * k)
      (chanOf s c.1 c.2).down.isNone
  | none => false

/-- The copy of the current frame into the working frame is complete: poison is copied with it (R364), its 128 KiB count
toward the tenant (R293), and what waited for it goes on. -/
def doFrameCopyDone (s : State) (idx : Nat) : State :=
  match pairOf s idx with
  | none => s
  | some p =>
    let src := p.current
    let dst := p.working
    let pois := (s.poison.filter fun x => decide (src ≤ x ∧ x < src + 65536) && !rewritten s x).map fun x => x - src + dst
    let s := { s with mem := copyCells s.mem src dst 65536,
                      poison := pois ++ s.poison.filter fun x => !decide (dst ≤ x ∧ x < dst + 65536) }
    let s := chargeHbm (setPair s idx { p with copying := none, copied := true }) (ownerCmd s p) 131072
    let count (s : State) (k : Nat) : State :=
      let pg := pgHBS (channelOf s (dst + 256 * k)).1
      pmcEvent (pmcEvent s pg 0x0102 8 none) pg 0x0100 8 none
    let s := (List.range 256).foldl count s
    let wake (g : Group) : Group := if g.wait = .frameCopy idx then { g with wait := .none } else g
    { s with cores := s.cores.map fun c => (c.1, { c.2 with groups := c.2.groups.map fun g => (g.1, wake g.2) }) }

/-- The write that waits for a copy, which has failed: its command ends, or its peer is refused (R361). -/
def failCopier (s : State) (idx code pa : Nat) : State :=
  match pairOf s idx with
  | none => s
  | some p =>
    match ownerCmd s p with
    | some c => failCmd s c code (pgHBS (channelOf s pa).1) pa
    | none =>
      match (peerOf s p.node).ingress with
      | b :: _ => if !b.started && b.hdr.shadow && b.hdr.addr / 65536 == idx && b.hdr.tag == p.tag
                  then refuseHead s p.node b.hdr code else s
      | [] => s

/-- What the link and the check code report of the copy of one sector of a pair (R361, R363). -/
def copySector (s : State) (idx : Nat) (e : Nat × HbmOutcome) : State :=
  match pairOf s idx with
  | none => s
  | some p =>
    let off := 32 * (e.1 % 2048)
    let src := p.current + off
    let dst := p.working + off
    let w := channelOf s dst
    let r := channelOf s src
    let s := noteLane s w.1 w.2 (e.2.lane % 64) e.2.failed
    let s := incReg s Reg.hbsLinkretry w.1 (min e.2.failed 4)
    if e.2.failed ≥ 5 then
      let code := Code.memLinkRetryExhausted
      let s := incReg (poisonSector s dst) Reg.hbsPoison w.1
      let s := hbsLatch (pgErr s (pgHBS w.1) code) w.1 w.2 3 code dst false
      raiseUnit (startChanReset (failCopier s idx code dst) w.1 w.2) code (.channel w.1 w.2)
    else
      match e.2.ecc with
      | .clean => s
      | .corrected => incReg s Reg.hbsCorr r.1
      | .uncorrectable =>
        failCopier (poisonSector (uncorrSector s r.1 r.2 src false) dst) idx Code.memEccUncorr src

/-- The copy with what was reported of its sectors, and everything that waited for it. -/
def doCopy (s : State) (pair : Nat) (outs : List (Nat × HbmOutcome)) : State :=
  pumpAll (outs.foldl (fun s e => copySector s pair e) (doFrameCopyDone s pair))

def execFrameCopyDone (pair : Nat) (outs : List (Nat × HbmOutcome)) (s : State) : Host.Outcome State Fault Refusal :=
  if copyReady s pair then .next (doCopy s pair outs) else .next s

/-! ### Spare lanes and channel resets (R356, R360, R365) -/

/-- Training puts the spare of a lane's group in its place (R356): no, if the group's spare is in use. -/
def trainLane (s : State) (st ch lane : Nat) : Option State :=
  let c := chanOf s st ch
  if (mget c.spares (lane / 16)).isSome then none
  else some (modChan s st ch fun c => { c with spares := mset c.spares (lane / 16) (lane % 16, false) })

/-- Serving firmware finds that the lane has 64 errors within 1 s, its group a spare, its channel no switch in the past
hour. -/
def spareReady (s : State) (st ch lane : Nat) : Bool :=
  let c := chanOf s st ch
  let recent := ((aget c.laneErrs lane).getD []).filter fun t => decide (s.now < t + sec 1)
  stackOn s st && s.boot.serving && decide (ch < 32 ∧ lane < 64 ∧ recent.length ≥ 64) && (mget c.spares (lane / 16)).isNone && c.down.isNone
    && (match c.lastSwitch with | some t => since s t (sec 3600) | none => true)

def execSpareSwitchStart (stack channel lane : Nat) (s : State) : Host.Outcome State Fault Refusal :=
  if spareReady s stack channel lane then
    let now := s.now
    .next (modChan s stack channel fun c =>
      { c with down := some { since := now, lane := some lane, reset := false }, lastSwitch := some now })
  else .next s

/-- The lane of a spare switch under way. -/
def switching (s : State) (st ch : Nat) : Option Nat :=
  match (chanOf s st ch).down with
  | some d => if d.reset then none else d.lane
  | none => none

/-- The channel is retrained with the spare and resumes in arrival order; MEM_LANE_SPARED is logged (R360). -/
def doSpareDone (s : State) (st ch lane : Nat) : State :=
  let s := modChan s st ch fun c =>
    { c with down := none, spares := mset c.spares (lane / 16) (lane % 16, true), laneErrs := adel c.laneErrs lane,
             lastDone := s.now }
  errWrite s { errBase s Code.memLaneSpared 0 (pgId (pgHBS st)) with detail := ch + 256 * lane }

def execSpareSwitchDone (stack channel : Nat) (s : State) : Host.Outcome State Fault Refusal :=
  match switching s stack channel with
  | some lane => .next (doSpareDone s stack channel lane)
  | none => .next s

/-- A channel reset is under way. -/
def resetting (s : State) (st ch : Nat) : Bool :=
  match (chanOf s st ch).down with
  | some d => d.reset
  | none => false

/-- The recovery of a domain is over: it is neither queued nor active any more (R610). -/
def endRecovery (s : State) (d : Domain) : State :=
  let act := s.err.active.filter fun r => r.domain != d
  { s with err := { s.err with active := act, queue := s.err.queue.filter fun r => r.domain != d } }

/-- The reset completes and the channel resumes, retrained with the spare for the lane that failed, if its group still has
one; where a write still cannot complete, the recovery escalates (R365, R611). -/
def doChanResetDone (s : State) (st ch : Nat) (ok : Bool) (lane : Option Nat) : State :=
  let lane := ((chanOf s st ch).down.bind ChanDown.lane) <|> lane
  let s := match lane with
    | some l => (trainLane s st ch l).getD s
    | none => s
  let s := modChan s st ch fun c => { c with down := none, laneErrs := [], lastDone := s.now }
  let s := endRecovery s (.channel st ch)
  if ok then s else escalate s (.channel st ch) Code.memLinkRetryExhausted

def execChannelResetDone (stack channel : Nat) (ok : Bool) (lane : Option Nat) (s : State) :
    Host.Outcome State Fault Refusal :=
  if resetting s stack channel then .next (doChanResetDone s stack channel ok lane) else .next s

/-! ### Refresh (R369) -/

/-- The band of a temperature. -/
def bandOf (t : Nat) : Nat := if t ≤ 85 then 0 else if t ≤ 95 then 1 else if t ≤ 105 then 2 else 3

/-- The lower bound of a band. -/
def bandFloor : Nat → Nat
  | 1 => 85
  | 2 => 95
  | 3 => 105
  | _ => 0

/-- The band after a reading: raised at once, left only 3 °C below its lower bound. -/
def nextBand (t : Nat) : Nat → Nat
  | 0 => bandOf t
  | b + 1 => if bandOf t ≥ b + 1 then bandOf t else if t + 3 ≤ bandFloor (b + 1) then nextBand t b else b + 1

def tempDue (s : State) (st : Nat) : Bool :=
  stackOn s st && s.boot.ready && match mget s.hbm.tempAt st with
    | some t => since s t (msec 1)
    | none => true

def doTemp (s : State) (st t : Nat) : State :=
  let old := mgetD s.hbm.band st 0
  let b := nextBand t old
  let s := { s with hbm := { s.hbm with temp := mset s.hbm.temp st t, tempAt := mset s.hbm.tempAt st s.now,
                                        band := mset s.hbm.band st b } }
  if b = 3 ∧ old ≠ 3 then logOnly s Code.memThermal (pgHBS st) else s

def execHbmTemperatureRead (stack temp : Nat) (s : State) : Host.Outcome State Fault Refusal :=
  if tempDue s stack then .next (doTemp s stack temp) else .next s

/-! ### The patrol scrubber (R366, R382) -/

/-- The physical address of an offset of a channel (R352, inverted). -/
def paOf (nStacks pos ch off : Nat) : Nat :=
  let n := 32 * nStacks
  let q := off / 256
  let f := (q % 512) ^^^ (q / 512 % 512) ^^^ (q / 262144 % 64)
  let c := ch * nStacks + pos
  (q * n + (c + n - f % n) % n) * 256 + off % 256

/-- Sectors of a stack: 32 channels of 3 GiB. -/
def stackSectors : Nat := 32 * (0xC0000000 / 32)

/-- The physical address of the `k`-th sector of a stack, channel by channel. -/
def patrolPa (s : State) (st k : Nat) : Nat :=
  let l := stackList s.boot.stackMask 16
  paOf l.length (l.idxOf st) (k / (0xC0000000 / 32)) (k % (0xC0000000 / 32) * 32)

/-- The period that decides when the next pass may start: the one in effect; while it is 0, one that waits for that start
(DESIGN CHOICE, log entry 120). -/
def scrubHours (s : State) (st : Nat) : Nat :=
  let h := reg s Reg.hbsScrub st
  if h != 0 then h else ((aget ((mget s.applying (pgHBS st)).getD []) (Reg.hbsScrub.at_ st)).map BitVec.toNat).getD 0

/-- The scrubber may read its next sector: it is on, the sector's channel takes accesses, and a new pass does not begin within
the period of the last. -/
def patrolReady (s : State) (st : Nat) : Bool :=
  let k := mgetD s.hbm.patrol st 0
  let h := scrubHours s st
  stackOn s st && s.boot.ready && !s.hbm.selfRef && (chanOf s st (channelOf s (patrolPa s st k)).2).down.isNone &&
  (k != 0 || h != 0 && match mget s.hbm.patrolAt st with
    | some t => since s t (sec (3600 * h))
    | none => true)

/-- The next sector of the pass read. -/
def patrolStep (s : State) (st : Nat) (e : EccState) : State :=
  let k := mgetD s.hbm.patrol st 0
  let a := patrolPa s st k
  let s := { s with hbm := { s.hbm with patrol := mset s.hbm.patrol st ((k + 1) % stackSectors) } }
  match e with
  | .clean => s
  | .corrected => incReg s Reg.hbsCorr st
  | .uncorrectable => if isPoisoned s a then s else uncorrSector s st (channelOf s a).2 a true

/-- A pass starts with HBS_SCRUB at its safe point (R382), and does not where that turns the scrubber off. -/
def doPatrol (s : State) (st : Nat) (e : EccState) : State :=
  if mgetD s.hbm.patrol st 0 = 0 then
    let s := regSafePoint s (pgHBS st) Reg.hbsScrub st
    if reg s Reg.hbsScrub st = 0 then s
    else patrolStep { s with hbm := { s.hbm with patrolAt := mset s.hbm.patrolAt st s.now } } st e
  else patrolStep s st e

def execPatrolScrub (stack : Nat) (ecc : EccState) (s : State) : Host.Outcome State Fault Refusal :=
  if patrolReady s stack then .next (doPatrol s stack ecc) else .next s

/-! ### L2-resolved atomics (R375, R376) -/

/-- What each operation leaves (R375). -/
def ctlApply (op : Nat) (old opnd cmp : Nat) : Nat :=
  match op with
  | 0 => (old + opnd) % 2 ^ 64
  | 1 => opnd % 2 ^ 64
  | 2 => if old = cmp % 2 ^ 64 then opnd % 2 ^ 64 else old
  | 3 => old &&& (opnd % 2 ^ 64)
  | 4 => (old ||| opnd) % 2 ^ 64
  | 5 => max old (opnd % 2 ^ 64)
  | _ => if old = cmp % 2 ^ 128 then opnd % 2 ^ 128 else old

/-- The COT entry of a pair as 128 bits (R289), and a pair read back from them. -/
def cotBits (p : Pair) : Nat :=
  let st := match p.state with | .idle => 0 | .owned => 1 | .committing => 2 | .held => 3
  let b (x : Bool) : Nat := if x then 1 else 0
  p.node * 2 ^ 112 + p.tag * 2 ^ 96 + st * 2 ^ 69 + b p.whole * 2 ^ 68 + b p.touched * 2 ^ 67 + b p.copied * 2 ^ 66
    + b p.cur * 2 ^ 64 + p.frame1 / 65536 * 2 ^ 32 + p.frame0 / 65536

def pairFromCot (p : Pair) (v : Nat) : Pair :=
  { p with
    node := bitsOf v 127 112, tag := bitsOf v 111 96,
    state := match bitsOf v 71 69 with | 0 => .idle | 1 => .owned | 2 => .committing | _ => .held,
    whole := bitsOf v 68 68 == 1, touched := bitsOf v 67 67 == 1, copied := bitsOf v 66 66 == 1,
    cur := bitsOf v 64 64 == 1, frame1 := bitsOf v 56 32 * 65536, frame0 := bitsOf v 24 0 * 65536 }

/-- An operation on an aligned word of the control region. -/
def ctlAligned (op addr : Nat) : Bool :=
  decide (op ≤ 6 ∧ addr < 0x10000000) && (if op = 6 then addr % 16 == 0 else addr % 8 == 0)

/-- A fence's record as 128 bits (R503), and a fence read back from them. -/
def fenceBits (f : Fence) : Nat :=
  let b (x : Bool) : Nat := if x then 1 else 0
  f.value + (f.poison + (f.ctx + 2 ^ 14 * b f.mirror + 2 ^ 15 * b f.live) * 2 ^ 16 + f.tenant * 2 ^ 32 + f.gen * 2 ^ 48) * 2 ^ 64

def fenceFrom (f : Fence) (v : Nat) : Fence :=
  { f with value := v % 2 ^ 64, poison := bitsOf v 79 64, ctx := bitsOf v 93 80, mirror := bitsOf v 94 94 == 1,
           live := bitsOf v 95 95 == 1, tenant := bitsOf v 107 96, gen := bitsOf v 127 112 }

/-- A memory-object entry read back from its 64 bits (R488). -/
def objFrom (o : MemObj) (v : Nat) : MemObj :=
  { o with gen := bitsOf v 63 48, state := match bitsOf v 47 46 with | 0 => .free | 1 => .live | _ => .reclaiming,
           kind := bitsOf v 45 44, owner := bitsOf v 43 32, refs := bitsOf v 31 0 }

/-- The pair, the memory object or the fence of a slot changed by `f`, and there from then on. -/
def putPairAt (s : State) (i : Nat) (f : Pair → Pair) : State := setPair s i (f ((pairOf s i).getD (.fresh 0 0)))

def putObjAt (s : State) (i v : Nat) : State :=
  if (mget s.obj.objs i).isNone ∧ v = 0 then s
  else
    let o := (mget s.obj.objs i).getD
      { gen := 0, state := .free, kind := 0, owner := 0, refs := 0, size := 0, base0 := 0, base1 := 0, cot := 0, shares := [] }
    { s with obj := { s.obj with objs := mset s.obj.objs i (objFrom o v) } }

def putFenceAt (s : State) (i v : Nat) : State :=
  let f := (mget s.obj.fences i).getD
    { value := 0, poison := 0, ctx := 0, mirror := false, live := false, tenant := 0, gen := 0, shares := [], freeing := false }
  { s with obj := { s.obj with fences := mset s.obj.fences i (fenceFrom f v) } }

def objBits (s : State) (i : Nat) : Nat := ((mget s.obj.objs i).map objEntry).getD 0

/-- The 64 bytes of a sequence-table entry (R529). -/
def seqBytes (e : SeqEntry) : List Byte :=
  let b (x : Bool) : Nat := if x then 1 else 0
  leBytes 2 e.tenant ++ leBytes 1 e.state
    ++ leBytes 1 (b e.inflight + 2 * b e.pausePend + 4 * b e.releasePend + 8 * e.fails) ++ leBytes 1 e.model
    ++ leBytes 1 e.prio ++ leBytes 2 0 ++ leBytes 8 e.deadline ++ leBytes 4 e.length ++ leBytes 4 e.promptLeft
    ++ leBytes 8 e.kvList ++ leBytes 4 e.kvPages ++ leBytes 4 e.maxLen ++ leBytes 8 e.user.toNat
    ++ leBytes 8 e.admitFt ++ leBytes 4 e.tokensOut ++ leBytes 2 e.cqSlot ++ leBytes 2 0

/-- An entry read back from its 64 bytes, taken as one number; what the bytes do not hold stays. -/
def seqFrom (e : SeqEntry) (v : Nat) : SeqEntry :=
  let f (off n : Nat) : Nat := v / 2 ^ (8 * off) % 2 ^ (8 * n)
  { e with tenant := f 0 2 % 4096, state := f 2 1, inflight := bitsOf (f 3 1) 0 0 == 1, pausePend := bitsOf (f 3 1) 1 1 == 1,
           releasePend := bitsOf (f 3 1) 2 2 == 1, fails := bitsOf (f 3 1) 4 3, model := f 4 1, prio := f 5 1,
           deadline := f 8 8, length := f 0x10 4, promptLeft := f 0x14 4, kvList := f 0x18 8, kvPages := f 0x20 4,
           maxLen := f 0x24 4, user := BitVec.ofNat 64 (f 0x28 8), admitFt := f 0x30 8, tokensOut := f 0x38 4,
           cqSlot := f 0x3C 2 }

/-- An entry of the sequence table written whole; STATE 0 frees it. -/
def putSeqAt (s : State) (i v : Nat) : State :=
  let none_ : SeqEntry :=
    { tenant := 0, queue := 0, state := 0, inflight := false, pausePend := false, releasePend := false, fails := 0, model := 0,
      prio := 0, deadline := 0, length := 0, promptLeft := 0, kvList := 0, kvPages := 0, maxLen := 0, user := 0, admitFt := 0,
      tokensOut := 0, cqSlot := 0, waiting := [], stepCount := 0, stepPrefill := false, stepPos := 0 }
  let e := seqFrom ((mget s.srv.seqs i).getD none_) v
  { s with srv := { s.srv with seqs := if e.state = 0 then mdel s.srv.seqs i else mset s.srv.seqs i e } }

/-- An error-ring entry read back from its 64 bytes (R605). -/
def errFrom (v : Nat) : ErrEntry :=
  let f (off n : Nat) : Nat := v / 2 ^ (8 * off) % 2 ^ (8 * n)
  { seq := f 0 4, code := f 4 2, sev := f 6 1, isPartial := bitsOf (f 7 1) 0 0 == 1, escalated := bitsOf (f 7 1) 1 1 == 1,
    more := bitsOf (f 7 1) 2 2 == 1, ft := f 8 8, unit := f 0x10 4, tenant := f 0x14 2, ctx := f 0x16 2,
    cmdId := BitVec.ofNat 64 (f 0x18 8), node := f 0x20 2, tag := f 0x22 2, addr := f 0x28 8, detail := f 0x30 16 }

/-- A slot of the error ring written whole. -/
def putErrAt (s : State) (slot v : Nat) : State :=
  let e := errFrom v
  { s with err := { s.err with ring := { e with seq := e.seq / 256 * 256 + slot } :: s.err.ring.filter (fun x => x.seq % 256 != slot) } }

/-- Where a record of 64 bytes lies that holds `a`: the sequence table or the error ring (R354). -/
inductive Ctl64 where
  | seq (i : Nat) | err (slot : Nat)
  deriving DecidableEq, Repr

def ctl64 (a : Nat) : Option Ctl64 :=
  if 0xB900000 ≤ a ∧ a < 0xBD00000 then some (.seq ((a - 0xB900000) / 64))
  else if 0xE000000 ≤ a ∧ a < 0xE004000 then some (.err ((a - 0xE000000) / 64))
  else none

/-- Such a record as one number; a slot that holds none reads 0. -/
def ctl64Bits (s : State) : Ctl64 → Nat
  | .seq i => ((mget s.srv.seqs i).map fun e => fromLe (seqBytes e)).getD 0
  | .err n => ((s.err.ring.find? fun e => e.seq % 256 == n).map fun e => fromLe (errBytes e)).getD 0

def putCtl64 (s : State) (r : Ctl64) (v : Nat) : State :=
  match r with
  | .seq i => putSeqAt s i v
  | .err n => putErrAt s n v

/-- The 16 bytes at an aligned address of the control region (R354): of the record that the range holds there, in the layout
that its chapter states (R288, R488, R503, R529, R605). Ranges whose chapters state no layout are bytes (log entry 125). -/
def ctlRead (s : State) (a : Nat) : Nat :=
  if a < 0x8000000 then ((pairOf s (a / 16)).map cotBits).getD 0
  else if a < 0xA000000 then
    let i := (a - 0x8000000) / 8
    objBits s i + 2 ^ 64 * objBits s (i + 1)
  else if a < 0xB000000 then ((mget s.obj.fences ((a - 0xA000000) / 16)).map fenceBits).getD 0
  else
    match ctl64 a with
    | some r => ctl64Bits s r / 2 ^ (8 * (a % 64)) % 2 ^ 128
    | none => fromLe (rdBytes s a 16)

def ctlPut (s : State) (a v : Nat) : State :=
  if a < 0x8000000 then handOver (putPairAt s (a / 16) fun p => pairFromCot p v) (a / 16)
  else if a < 0xA000000 then
    let i := (a - 0x8000000) / 8
    putObjAt (putObjAt s i (v % 2 ^ 64)) (i + 1) (v / 2 ^ 64)
  else if a < 0xB000000 then settled (putFenceAt s ((a - 0xA000000) / 16) v)
  else
    match ctl64 a with
    | some r =>
      let sh := 2 ^ (8 * (a % 64))
      let old := ctl64Bits s r
      putCtl64 s r (old - old / sh % 2 ^ 128 * sh + v % 2 ^ 128 * sh)
    | none => wrBytes s a (leBytes 16 v)

/-- The 4 ns that an atomic holds its line locked. -/
def lockTime : Nat := 14

/-- The lines of a slice that atomics hold locked now. -/
def lockedLines (s : State) (st : Nat) : NMap Nat := (sliceOf s st).locked.filter fun e => decide (s.now < e.2)

/-- The slice can begin an atomic on a line: the line is not locked, and fewer than 64 are in flight (R376). -/
def lockFree (s : State) (addr : Nat) : Bool :=
  let l := lockedLines s (sliceIdx s addr)
  (mget l (lineOf addr)).isNone && decide (l.length < 64)

/-- The line locked for an atomic, whose unit gets the old value. -/
def lockLine (s : State) (addr old : Nat) : State :=
  let st := sliceIdx s addr
  let l := lockedLines s st
  modSlice s st fun x => { x with locked := mset l (lineOf addr) (s.now + lockTime), returned := BitVec.ofNat 128 old }

/-- A control-region atomic resolved in its slice (R375, R376); an uncorrectable error is fatal (R366). -/
def doL2Atomic (s : State) (op addr : Nat) (opnd cmp : BitVec 128) (e : EccState) : State :=
  match e with
  | .uncorrectable => uncorrSector s (channelOf s addr).1 (channelOf s addr).2 addr false
  | _ =>
    let base := addr / 16 * 16
    let old := ctlRead s base
    if op = 6 then
      let s := lockLine s addr old
      let new := ctlApply op old opnd.toNat cmp.toNat
      if new = old then s else ctlPut s base new
    else
      let sh := 2 ^ (8 * (addr % 16))
      let w := old / sh % 2 ^ 64
      let s := lockLine s addr w
      let new := ctlApply op w opnd.toNat cmp.toNat
      if new = w then s else ctlPut s base (old - w * sh + new * sh)

def execL2Atomic (op addr : Nat) (opnd cmp : BitVec 128) (ecc : EccState) (s : State) : Host.Outcome State Fault Refusal :=
  if ctlAligned op addr && s.boot.ready && lockFree s addr then .next (doL2Atomic s op addr opnd cmp ecc) else .next s

end Sys2Proof.Machine
end

