-- ==== Sys2Proof/Machine/Movers.lean ====
section
/-! DEFINITION. Tile movers (R257–R270) and the egress of a core's data (R240, R265, R668).
Assumption log: DEDUCED 37. -/

namespace Sys2Proof.Machine

/-! ### The elements of a tile (R261, R262) -/

/-- The tiles of a command. -/
def mvTiles (d : MvDesc) : Nat := d.ext.getD 2 1 * d.ext.getD 3 1 * d.ext.getD 4 1

/-- The indices (i4, i3, i2) of the `t`-th tile, as a function of the dimension. -/
def tileIdx (d : MvDesc) (t : Nat) : Nat → Nat
  | 2 => t % d.ext.getD 2 1
  | 3 => t / d.ext.getD 2 1 % d.ext.getD 3 1
  | 4 => t / (d.ext.getD 2 1 * d.ext.getD 3 1)
  | _ => 0

/-- An index of a dimension reads the source. -/
def idxValid (d : MvDesc) (k i : Nat) : Bool := decide (d.padlo.getD k 0 ≤ i ∧ i < d.ext.getD k 1 - d.padhi.getD k 0)

/-- Σ over the dimensions of index × stride. -/
def strideSum (str : List Int) (idx : Nat → Int) : Int := ((List.range 5).map fun k => idx k * str.getD k 0).foldl (· + ·) 0

/-- An element of a tile: its run of dimension 0, where it comes from, if anywhere, and where it goes. -/
structure MvElem where
  run : Nat
  src : Option Nat
  dst : Nat
  deriving DecidableEq, Repr

/-- The elements of the `t`-th tile in cursor order. -/
def tileElems (d : MvDesc) (t : Nat) : List MvElem :=
  (List.range (d.ext.getD 1 1)).flatMap fun i1 => (List.range (d.ext.getD 0 1)).map fun i0 =>
    let idx (k : Nat) : Nat := if k = 0 then i0 else if k = 1 then i1 else tileIdx d t k
    let ok := (List.range 5).all fun k => idxValid d k (idx k)
    { run := i1,
      src := if ok then
          some (((d.src : Int) + strideSum d.sstr fun k => (idx k : Int) - (d.padlo.getD k 0 : Int)).toNat)
        else none,
      dst := ((d.dst : Int) + strideSum d.dstr fun k => (idx k : Int)).toNat }

/-- The padding element (R261). -/
def padElem (d : MvDesc) : List Byte := (List.range (mvEsize d)).map fun i => (leBytes 4 d.padval).getD (i % 4) 0

/-- The global addresses that a tile reads, and writes. -/
def tileReads (d : MvDesc) (t : Nat) : List Nat := if mvSrcGlobal d then (tileElems d t).filterMap MvElem.src else []
def tileWrites (d : MvDesc) (t : Nat) : List Nat := if mvDstGlobal d then (tileElems d t).map MvElem.dst else []

/-! ### Starting a tile (R264, R306) -/

def modMover (s : State) (core m : Nat) (f : MoverCmd → MoverCmd) : State :=
  modCore s core fun k => { k with movers := mmod k.movers m f }

/-- The key under which a mover's writes are known (R266). -/
def moverKey (core m : Nat) : Nat := 4294967296 + 4 * core + m

/-- The pages of addresses. -/
def pagesOf (vas : List Nat) : List Nat := (vas.map fun v => v / 4096 * 4096).eraseDups

/-- The target of an address among translations. -/
def tgtIn (s : State) (trs : List Trans) (ctx va : Nat) : Option Tgt :=
  (trs.find? fun t => t.covers ctx va).map fun t => t.target s va

/-- The line requests of a tile's source: of each run, each line with the sectors read (R269). -/
def tileRuns (s : State) (trs : List Trans) (ctx : Nat) (d : MvDesc) (t : Nat) : List (Nat × Tgt × BitVec 4) :=
  if mvSrcGlobal d then
    let l := (tileElems d t).foldl (fun (l : List ((Nat × Tgt) × BitVec 4)) e =>
      match e.src.bind (tgtIn s trs ctx) with
      | some x => aset l (e.run, x.line) (((aget l (e.run, x.line)).getD 0) ||| (1#4 <<< x.sect))
      | none => l) []
    l.map fun e => (e.1.1, e.1.2, e.2)
  else []

/-- The tile at a mover's cursor translated and its source requested; a page that misses makes it wait, a denied one ends
the command, and so does an undeclared write, as a group fault of the launching store (R306, R317). -/
def startTile (s : State) (core m : Nat) (x : MoverCmd) : State :=
  let d := parseMv x.desc
  let ctx := ctxOf s x.cmd
  let acc : Access := if mvDstGlobal d then .write else .read
  let vas := tileReads d x.cursor ++ tileWrites d x.cursor
  let ps := pagesOf vas
  match place s ctx x.cmd acc 1 (ps.map fun p => (0, p)) with
  | .bad c va => failCmd s x.cmd c pgXLT va
  | .walk ws =>
    let s := modMover s core m fun y => { y with phase := .retry, waiting := ws }
    let r := startWalks ctx acc (.mover core x.cmd) ws s
    modMover r.2 core m fun y => { y with waiting := y.waiting.filter r.1.contains }
  | .ok l =>
    let trs := (l.map fun e => e.2.1).eraseDups
    let retried := x.phase == .retry
    if acc = .write ∧ undeclared s x.cmd l = true then
      faultCmdAt s core x.group x.cmd x.pc Code.groupUndeclaredWrite 0
    else
      match goneTarget s l with
      | some (c, n) => failCmd s x.cmd c (pgHNS (pathPort s n)) 0
      | none =>
        let pairs := if acc = .write then pairsOf ((tileWrites d x.cursor).filterMap fun va =>
            (trs.find? fun t => t.covers ctx va).map fun t => (0, t, t.target s va)) else []
        match pairs.find? fun i => !pairFree s x.cmd i with
        | some i => busyEnd s x.cmd ⟨nodeId s, i, false⟩
        | none =>
          let s := pairs.foldl (fun s i => ownPair s x.cmd i) s
          let todo := tileRuns s trs ctx d x.cursor
          let s := modMover s core m fun y => { y with phase := .reading, waiting := [], trs, todo }
          let s := if retried then pmcEvent s (pgTMV core) 0x0106 1 (some ctx) else s
          let s := if mvSrcGlobal d then s else awaitBanks s core none ((tileElems d x.cursor).filterMap MvElem.src)
          sendMoverReads core m todo.length s

/-- A mover's tile can be started: no walk is under way for it, 16 cycles have passed since its dispatch (R269), its core's clock
runs, and its command runs; a command that is being saved starts none (R270). -/
def tileDue (s : State) (core : Nat) (m : MoverCmd) : Bool :=
  (m.phase == .fresh || m.phase == .retry) && m.waiting.isEmpty && decide (m.disp + 16 ≤ coreCyc s core) && clockRuns s core &&
  match cmdOf s m.cmd with
  | some k => k.phase == .running
  | none => false

/-- Movers whose tile can be started, started (R264). -/
def pumpMovers (s : State) : State :=
  s.cores.foldl (fun s c =>
    c.2.movers.foldl (fun s m => if tileDue s c.1 m.2 then startTile s c.1 m.1 m.2 else s) s) s

def execWalkEntryReturn (walk : Nat) (entry : DWord) (s : State) : Host.Outcome State Fault Refusal :=
  if walkLive s walk then .next (pumpMovers (doWalkEntry s walk entry)) else .next s

/-! ### MOVER_DISPATCH (R257) -/

/-- The launched command that is served next: of the commands in turn after the last one served, in launch order. -/
def nextLaunched (s : State) (core : Nat) : Option MoverCmd :=
  let k := coreOf s core
  let go := k.launched.filter fun m => match cmdOf s m.cmd with
    | some c => c.phase == .running
    | none => false
  let cmds := sortBy (fun a b => decide (a ≤ b)) (go.map MoverCmd.cmd).eraseDups
  let turn := match cmds.find? fun c => decide (k.moverTurn < c) with
    | some c => some c
    | none => cmds.head?
  turn.bind fun c => go.find? fun m => m.cmd == c

def moverReady (s : State) (core : Nat) : Bool :=
  (nextLaunched s core).isSome && (freeKey (coreOf s core).movers 4 0).isSome && clockRuns s core
    && (mget s.err.coreDown core).isNone

def doMoverDispatch (s : State) (core : Nat) : State :=
  match nextLaunched s core, freeKey (coreOf s core).movers 4 0 with
  | some m, some slot =>
    let m' := { m with disp := coreCyc s core, phase := .fresh, waiting := [], trs := [], todo := [], out := [] }
    modCore s core fun k =>
      { k with launched := k.launched.erase m, movers := mset k.movers slot m', moverTurn := m.cmd }
  | _, _ => s

def execMoverDispatch (core : Nat) (s : State) : Host.Outcome State Fault Refusal :=
  if moverReady s core then .next (doMoverDispatch s core) else .next s

/-! ### The data of a tile (R265–R268) -/

/-- A mover's requests. -/
def moverReqs (s : State) (core m : Nat) : NMap LineReq := s.ms.reqs.filter fun r => r.2.core == core && r.2.mover == some m

/-- The tile's source is at hand: every line has been requested and has returned. -/
def sourceReady (s : State) (core m : Nat) (x : MoverCmd) : Bool :=
  x.phase == .reading && x.todo.isEmpty && (moverReqs s core m).all (fun r => r.2.st == .ready) && clockRuns s core

/-- The units of scratchpad that the runs of a tile have read: one access of a run to each unit (R269), which finds it as it
stood at the launch or as it stands (R136, R267). -/
structure UnitReads where
  seen : List ((Nat × Nat) × List Byte)
  s    : State

/-- An element's bytes out of its run's access to their unit. -/
def readUnit (core : Nat) (x : MoverCmd) (run a n : Nat) (u : UnitReads) : List Byte × UnitReads :=
  match aget u.seen (run, a / 32) with
  | some b => ((b.drop (a % 32)).take n, u)
  | none =>
    let r := pickBytes (coreOf u.s core) x.old x.cmd 2 (a / 32 * 32) 32 u.s
    ((r.1.drop (a % 32)).take n, { seen := ((run, a / 32), r.1) :: u.seen, s := r.2 })

/-- The bytes of an element's source. -/
def elemBytes (core : Nat) (x : MoverCmd) (d : MvDesc) (rs : NMap LineReq) (e : MvElem) (u : UnitReads) :
    List Byte × UnitReads :=
  match e.src with
  | none => (padElem d, u)
  | some a =>
    if mvSrcGlobal d then
      match tgtIn u.s x.trs (ctxOf u.s x.cmd) a with
      | some t =>
        match rs.find? fun r => r.2.line == t.line && r.2.grp == e.run with
        | some r => ((r.2.data.drop t.off).take (mvEsize d), u)
        | none => (padElem d, u)
      | none => (padElem d, u)
    else readUnit core x e.run a (mvEsize d) u

def readElems (core : Nat) (x : MoverCmd) (d : MvDesc) (rs : NMap LineReq) :
    List MvElem → UnitReads → List (Nat × List Byte) × UnitReads
  | [], u => ([], u)
  | e :: t, u =>
    let b := elemBytes core x d rs e u
    let r := readElems core x d rs t b.2
    ((e.dst, b.1) :: r.1, r.2)

/-- A tile read whole (R268): destination and bytes of each element. -/
def tileData (s : State) (core m : Nat) (x : MoverCmd) : List (Nat × List Byte) × State :=
  let d := parseMv x.desc
  let r := readElems core x d (moverReqs s core m) (tileElems d x.cursor) ⟨[], s⟩
  (r.1, r.2.s)

/-- The lines that the bytes of a tile are written to, with mask and bytes. -/
def tileLines (s : State) (x : MoverCmd) (data : List (Nat × List Byte)) : List (Tgt × BitVec 128 × List Byte) :=
  data.foldl (fun l e =>
    match tgtIn s x.trs (ctxOf s x.cmd) e.1 with
    | some t =>
      let old := (aget l t.line).getD (0, zeroLine)
      aset l t.line (old.1 ||| maskAt t.off e.2.length, putAt old.2 t.off e.2)
    | none => l) []

def isFar : Tgt → Bool
  | .fab _ _ _ => true
  | .host _ => true
  | _ => false

/-- The tile's destination leaves the module, in part at least. -/
def tileFar (s : State) (x : MoverCmd) : Bool :=
  let d := parseMv x.desc
  (tileWrites d x.cursor).any fun va => match tgtIn s x.trs (ctxOf s x.cmd) va with
    | some t => isFar t
    | none => false

/-- A local line of a tile can be written now. -/
def localTaken (s : State) : Tgt → Bool
  | .hbm pa => sliceTakes s pa
  | .pair i o => match pairOf s i with
    | some p => p.copying.isNone && sliceTakes s (p.working + o)
    | none => true
  | _ => true

/-- The targets that a tile writes. -/
def tileDsts (s : State) (x : MoverCmd) : List Tgt :=
  ((tileWrites (parseMv x.desc) x.cursor).filterMap (tgtIn s x.trs (ctxOf s x.cmd))).map Tgt.line |>.eraseDups

/-- A unit of data is accepted now (R265, R668): by its slice, by room in the egress buffer of its port, by the host port. -/
def unitTaken (s : State) : Tgt → Bool
  | .fab n _ _ => (peerGone s n).isSome || egressRoom s (pathPort s n) 180
  | .host _ => hostRoom s 128
  | t => localTaken s t

/-- A line written at its owner; toward a lost peer the command ends (R407). -/
def putLine (s : State) (core m : Nat) (x : MoverCmd) (e : Tgt × BitVec 128 × List Byte) : State :=
  let hint := if mvHint (parseMv x.desc) = 3 then 1 else mvHint (parseMv x.desc)
  match e.1 with
  | .hbm pa => acceptAtL2 s pa e.2.1 e.2.2 (some x.cmd) hint
  | .pair i o => match pairOf s i with
    | some p => acceptAtL2 s (p.working + o) e.2.1 e.2.2 (some x.cmd) hint
    | none => s
  | .fab n sh a =>
    match peerGone s n with
    | some code => failCmd s x.cmd code (pgHNS (pathPort s n)) a
    | none => sendWrite s n sh a (writeMsg e.2.1 e.2.2) 1 x.cmd [moverKey core m]
  | .host a => sendHost s a e.2.1 e.2.2 x.cmd [moverKey core m]
  | .scr _ => s

/-- Writes of a mover on their way and not known performed (R266). -/
def moverOwes (s : State) (core m cmd : Nat) : Bool :=
  let key := moverKey core m
  let owes (b : Blk) : Bool := b.cmd == some cmd && b.groups.contains key
  (s.fab.ports.any fun p => p.2.ord.any owes)
    || (s.fab.peers.any fun p => (p.2.unperf.any fun u => owes u.blk) || p.2.waitingSend.any owes)
    || s.obj.pend.any fun e => match e.2.2 with
      | .store c gs _ _ => c == cmd && gs.contains key
      | _ => false

/-! ### EGRESS_ACCEPT -/

/-- A mover whose tile has a unit that is accepted now. -/
def tileGoes (s : State) (core m : Nat) : Bool :=
  match mget (coreOf s core).movers m with
  | some x =>
    if x.phase = .sending then (x.out.head?).all fun e => unitTaken s e.1
    else sourceReady s core m x && tileFar s x && ((tileDsts s x).head?).all (unitTaken s)
  | none => false

/-- The first byte that a tile reads in scratchpad, if any: what an upset of its reading names (R236). -/
def tileScr (d : MvDesc) (t : Nat) : Option Nat :=
  if mvSrcGlobal d then none else ((tileElems d t).filterMap MvElem.src).head?

/-- A tile's scratchpad source read with what its check codes report (R236, R275): no, if a word is uncorrectable. -/
def tileRead (s : State) (core : Nat) (x : MoverCmd) (u : Upset) : Except State State :=
  match tileScr (parseMv x.desc) x.cursor with
  | none => .ok s
  | some a =>
    if u = .uncorrectable then .error (scrUncorr s core x.cmd a)
    else .ok (if u = .corrected then scrCorr s core else s)

/-- A mover's line requests are over. -/
def dropReqs (s : State) (core m : Nat) : State :=
  { s with ms := { s.ms with reqs := s.ms.reqs.filter fun r => !(r.2.core == core && r.2.mover == some m) } }

/-- The units of a tile, read whole, wait to be accepted (R265). -/
def beginUnits (s : State) (core m : Nat) (x : MoverCmd) : State :=
  let r := tileData s core m x
  modMover (dropReqs r.2 core m) core m fun y => { y with phase := .sending, out := tileLines r.2 x r.1 }

/-- Units accepted, as far as there is room; the last makes the tile sent. -/
def sendUnits (core m : Nat) : Nat → State → State
  | 0, s => s
  | n + 1, s =>
    match mget (coreOf s core).movers m with
    | none => s
    | some x =>
      match x.out with
      | [] => modMover s core m fun y => { y with phase := .sent }
      | e :: rest =>
        if unitTaken s e.1 then
          let s := modMover s core m fun y => { y with out := rest }
          sendUnits core m n (putLine s core m x e)
        else s

/-- A tile begun, if it was not, and its units sent as far as there is room. -/
def doTileEgress (s : State) (core m : Nat) (x : MoverCmd) (u : Upset) : State :=
  if x.phase = .sending then sendUnits core m (x.out.length + 1) s
  else
    match tileRead s core x u with
    | .error s => s
    | .ok s =>
      let s := beginUnits s core m x
      sendUnits core m ((tileDsts s x).length + 1) s

/-- The lanes' atomics that wait with one of them for room: the same instruction's in the same sector. -/
def waitingAtoms (s : State) (id : Nat) : List Nat :=
  match mget s.ms.atoms id with
  | some a =>
    (s.ms.atoms.filter fun e => e.2.st == .toEgress && e.2.cmd == a.cmd && e.2.grp == a.grp && e.2.op == a.op
      && e.2.tgt.line == a.tgt.line && e.2.tgt.sect == a.tgt.sect).map Prod.fst
  | none => []

def egressReady (s : State) (core : Nat) : EgressUnit → Bool
  | .store i => match mget (coreOf s core).mbuf i with
    | some e => e.sent && entryTaken s core e
    | none => false
  | .atom i => match mget s.ms.atoms i with
    | some a => a.core == core && a.st == .toEgress && match a.tgt with
      | .fab n _ _ => (peerGone s n).isSome || egressRoom s (pathPort s n) (atomBlockBytes (waitingAtoms s i).length)
      | .host _ => hostUp s
      | _ => true
    | none => false
  | .tile m => tileGoes s core m

/-- `u` is what the check codes of the merging-buffer entry or of the tile's source report (R236, R254). -/
def doEgress (s : State) (core : Nat) (u : Upset) : EgressUnit → State
  | .store i => if u = .uncorrectable then loseEntry s core i else sendEntry s core i
  | .atom i => sendAtoms s (waitingAtoms s i)
  | .tile m => match mget (coreOf s core).movers m with
    | some x => doTileEgress s core m x u
    | none => s

def execEgressAccept (core : Nat) (unit : EgressUnit) (u : Upset) (s : State) : Host.Outcome State Fault Refusal :=
  if egressReady s core unit then .next (doEgress s core u unit) else .next s

/-! ### MOVER_TILE_ACCEPTED (R265, R266) -/

/-- Every unit of the tile has been accepted, or is accepted now where its destination is on this module. -/
def tileReady (s : State) (core m : Nat) : Bool :=
  match mget (coreOf s core).movers m with
  | some x =>
    if x.phase = .sent then !moverOwes s core m x.cmd
    else sourceReady s core m x && !tileFar s x
      && (!mvDstGlobal (parseMv x.desc) || (tileDsts s x).all (localTaken s))
  | none => false

/-- The command's completion (R256, R258, R266): GO reads 0, its token counts, a group that waits for the slot goes on. -/
def endMover (s : State) (core m : Nat) (x : MoverCmd) : State :=
  let d := parseMv x.desc
  let wake (g : Group) : Group := if g.cmd = x.cmd ∧ g.wait = .moverSlot x.slot then { g with wait := .none } else g
  let s := modCore s core fun k =>
    let k := { k with movers := mdel k.movers m }
    fixGo { k with groups := k.groups.map fun g => (g.1, wake g.2) } x.cmd x.slot
  let s := match groupOf s core x.group with
    | some g => if mvSig d ∧ g.cmd = x.cmd then tokenDone s core x.group (mvTok d) x.sig else s
    | none => s
  drainIfDone s x.cmd

/-- A tile of a destination on this module written (R267, R268). -/
def writeTile (s : State) (core m : Nat) (x : MoverCmd) : State :=
  let r := tileData s core m x
  if mvDstGlobal (parseMv x.desc) then (tileLines r.2 x r.1).foldl (fun s e => putLine s core m x e) r.2
  else
    let s := awaitBanks r.2 core none (r.1.map Prod.fst)
    let d := parseMv x.desc
    let sig := if mvSig d then some (x.group, mvTok d, x.sig) else none
    modCore s core fun k => r.1.foldl (fun k e => scrOut k x.cmd e.1 sig e.2) k

/-- The cursor moves past a tile that has been accepted whole (R265). -/
def nextTile (s : State) (core m : Nat) (x : MoverCmd) : State :=
  let s := coreProgress (pmcEvent (dropReqs s core m) (pgTMV core) 0x0105 1 (some (ctxOf s x.cmd))) core
  let x' := { x with cursor := x.cursor + 1, phase := .fresh, waiting := [], trs := [], todo := [], out := [] }
  if x.cursor + 1 = mvTiles (parseMv x.desc) then endMover s core m x
  else
    let s := modMover s core m fun _ => x'
    match cmdOf s x.cmd with
    | some c => if c.phase = .running then startTile s core m x' else s
    | none => s

def doTile (s : State) (core m : Nat) (u : Upset) : State :=
  match mget (coreOf s core).movers m with
  | none => s
  | some x =>
    if x.phase = .sent then nextTile s core m x
    else
      match tileRead s core x u with
      | .error s => s
      | .ok s => nextTile (writeTile s core m x) core m x

def execMoverTileAccepted (core mover : Nat) (u : Upset) (s : State) : Host.Outcome State Fault Refusal :=
  if tileReady s core mover then .next (doTile s core mover u) else .next s

end Sys2Proof.Machine
end

