-- ==== Sys2Proof/Machine/Hash.lean ====
section
/-! DEFINITION. SHA3-256, the hash of the topology table, of identity keys and of the measurement chain (R388, R389, R391, R588),
and the check sequences of a Harness frame: CRC-32C and the Ethernet frame check sequence (R394).
Assumption log: PRESUMED 122. -/

namespace Sys2Proof.Machine

/-! ### SHA3-256 -/

/-- The rotations of the lanes, lane (x, y) at x + 5 · y, and the round constants. -/
def keccakRot : List Nat :=
  [0, 1, 62, 28, 27, 36, 44, 6, 55, 20, 3, 10, 43, 25, 39, 41, 45, 15, 21, 8, 18, 2, 61, 56, 14]

def keccakRc : List DWord :=
  [0x0000000000000001, 0x0000000000008082, 0x800000000000808A, 0x8000000080008000, 0x000000000000808B, 0x0000000080000001,
   0x8000000080008081, 0x8000000000008009, 0x000000000000008A, 0x0000000000000088, 0x0000000080008009, 0x000000008000000A]
  ++ [0x000000008000808B, 0x800000000000008B, 0x8000000000008089, 0x8000000000008003, 0x8000000000008002, 0x8000000000000080,
   0x000000000000800A, 0x800000008000000A, 0x8000000080008081, 0x8000000000008080, 0x0000000080000001, 0x8000000080008008]

/-- The column parities folded into every lane. -/
def keccakTheta (a : List DWord) : List DWord :=
  let col (x : Nat) : DWord := (List.range 5).foldl (fun v y => v ^^^ a.getD (x + 5 * y) 0) 0
  let c := (List.range 5).map col
  let d := (List.range 5).map fun x => c.getD ((x + 4) % 5) 0 ^^^ (c.getD ((x + 1) % 5) 0).rotateLeft 1
  (List.range 25).map fun i => a.getD i 0 ^^^ d.getD (i % 5) 0

/-- The lanes rotated and moved: what stands at (x, y) goes to (y, 2x + 3y). -/
def keccakRhoPi (a : List DWord) : List DWord :=
  (List.range 25).map fun i =>
    let y := i % 5
    let x := (i / 5 + 2 * y) * 3 % 5
    let j := x + 5 * y
    (a.getD j 0).rotateLeft (keccakRot.getD j 0)

/-- The one step that is not linear, with the round's constant. -/
def keccakChi (b : List DWord) (rc : DWord) : List DWord :=
  (List.range 25).map fun i =>
    let at_ (k : Nat) : DWord := b.getD ((i + k) % 5 + i / 5 * 5) 0
    let v := at_ 0 ^^^ (~~~ at_ 1 &&& at_ 2)
    if i = 0 then v ^^^ rc else v

def keccakF (a : List DWord) : List DWord := keccakRc.foldl (fun a rc => keccakChi (keccakRhoPi (keccakTheta a)) rc) a

/-- 136 bytes absorbed. -/
def keccakAbsorb (a : List DWord) (b : List Byte) : List DWord :=
  keccakF ((List.range 25).map fun i => a.getD i 0 ^^^ BitVec.ofNat 64 (fromLe ((b.drop (8 * i)).take 8)))

/-- The message padded to whole blocks. -/
def sha3Pad (b : List Byte) : List Byte :=
  let n := 135 - b.length % 136
  if n = 0 then b ++ [0x86#8] else b ++ [0x06#8] ++ List.replicate (n - 1) 0#8 ++ [0x80#8]

def sha3Blocks : Nat → List Byte → List DWord → List DWord
  | 0, _, a => a
  | n + 1, b, a => sha3Blocks n (b.drop 136) (keccakAbsorb a (b.take 136))

/-- SHA3-256 of bytes, its first byte the least significant. -/
def sha3 (b : List Byte) : Nat :=
  let p := sha3Pad b
  let a := sha3Blocks (p.length / 136) p (List.replicate 25 0)
  fromLe ((a.take 4).flatMap fun w => leBytes 8 w.toNat)

/-! ### Check sequences (R394) -/

/-- A reflected CRC of 32 bits after one byte. -/
def crcByte (poly : Nat) (c : Nat) (b : Byte) : Nat :=
  (List.range 8).foldl (fun c _ => if c % 2 = 1 then c / 2 ^^^ poly else c / 2) (c ^^^ b.toNat)

def crc32 (poly : Nat) (b : List Byte) : Nat := b.foldl (crcByte poly) 0xFFFFFFFF ^^^ 0xFFFFFFFF

/-- CRC-32C, over a block's header and payload. -/
def crc32c (b : List Byte) : Nat := crc32 0x82F63B78 b

/-- The Ethernet frame check sequence. -/
def frameCheck (b : List Byte) : Nat := crc32 0xEDB88320 b

end Sys2Proof.Machine
end

