-- ==== Sys2Proof/Machine/Wire.lean ====
section
/-! DEFINITION. A Harness frame byte by byte (R394–R396): MAC addresses, tag, block headers, payloads, check sequences. The types
and the payloads of CTL messages, which the manual does not lay out, are free values.
Assumption log: DEDUCED 123. -/

namespace Sys2Proof.Machine

/-! ### What a message puts into its header and behind it (R395, R396, R426) -/

/-- A CTL message: its kind, and the values it carries. -/
def Msg.ctlValues : Msg → Nat × List Nat
  | .announcement a => (0, [fromLe a.key, a.nonce, a.sig, a.port, a.plane, a.reached])
  | .reset => (1, [])
  | .rejoin hash topo => (2, [hash, topo])
  | .rejoinAck tags => (3, tags)
  | .rejoinEnd => (4, [])
  | .reroute => (5, [])
  | .claim pair whole owner tag => (6, [pair, if whole then 1 else 0, owner, tag])
  | .claimGranted pair => (7, [pair])
  | .commit psn => (8, [psn])
  | .commitAck => (9, [])
  | .discard psn => (10, [psn])
  | .discardFor owner => (10, [owner])
  | .discardAck => (11, [])
  | .mapRequest t c h o l k w => (12, [t, c, h.toNat, o, l, k, if w then 1 else 0])
  | .mapAnswer ok r b => (12, [if ok then 1 else 0, r, b])
  | .mapRelease c h => (12, [c, h.toNat])
  | .gangArrived g m l w cs r hs =>
    (13, [g, m, l, w, if r then 1 else 0] ++ cs.flatMap (fun c => [c.node, c.pair, if c.whole then 1 else 0])
      ++ hs.flatMap fun h => [h.1, h.2])
  | .gangStart g r hs => (14, [g, if r then 1 else 0] ++ hs.flatMap fun h => [h.1, h.2])
  | .gangReady g => (15, [g])
  | .gangGo g => (15, [g])
  | .gangEnd g c => (15, [g, c])
  | _ => (0, [])

/-- TYPE (R396). -/
def Msg.typ : Msg → Nat
  | .ack _ => 0x01
  | .nak _ => 0x02
  | .heartbeat => 0x03
  | .timeReq _ _ _ _ | .timeResp _ _ _ _ _ _ _ => 0x04
  | .write _ => 0x10
  | .writeMasked _ _ => 0x11
  | .reduce _ _ => 0x12
  | .atomic _ _ => 0x13
  | .read _ => 0x14
  | .readResp _ => 0x15
  | .atomicResp _ => 0x16
  | .refused _ _ => 0x17
  | m => 0x20 + (Config.ctlType m.ctlValues.1).toNat

/-- ARG (R396). -/
def Msg.arg : Msg → Nat
  | .nak ctl => if ctl then 1 else 0
  | .reduce op _ | .atomic op _ => op
  | .refused code _ => code
  | _ => 0

/-- ADDR, where the message says it and not the block (R396). -/
def Msg.addrOr (m : Msg) (addr : Nat) : Nat :=
  match m with
  | .ack perf => perf % 2 ^ 32
  | .refused _ psn => psn % 2 ^ 32
  | _ => addr

/-- LEN: the payload bytes, or those that a READ requests. -/
def Msg.lenField (m : Msg) : Nat :=
  match m with
  | .read n => n
  | _ => m.len

/-- An instant of FT in a TIME block: FT_NS, FT_FRAC, two reserved bytes. -/
def stamp (t : Nat) : List Byte := leBytes 8 (t / 65536) ++ leBytes 2 (t % 65536) ++ leBytes 2 0

/-- The payload (R396, R426). -/
def Msg.body (m : Msg) : List Byte :=
  match m with
  | .write d | .reduce _ d | .readResp d => d
  | .writeMasked mask d => leBytes 16 mask.toNat ++ d
  | .atomic _ es => es.flatMap fun e =>
      leBytes 1 e.off ++ leBytes 1 e.lane ++ leBytes 6 0 ++ leBytes 8 e.opnd.toNat ++ leBytes 8 e.cmp.toNat
  | .atomicResp olds => olds.flatMap fun o => leBytes 8 o.toNat
  | .timeReq depth state seq t1 =>
    leBytes 1 1 ++ leBytes 1 depth ++ leBytes 1 state ++ leBytes 1 0 ++ leBytes 4 seq ++ stamp t1 ++ stamp 0 ++ leBytes 8 0
  | .timeResp depth state seq t1 t2 _ creq =>
    leBytes 1 2 ++ leBytes 1 depth ++ leBytes 1 state ++ leBytes 1 0 ++ leBytes 4 seq ++ stamp t1 ++ stamp t2 ++ leBytes 8 creq
  | _ => (List.range m.len).map (Config.ctlByte m.ctlValues.1 m.ctlValues.2)

/-- The 32-byte header (R395). -/
def WireBlk.header (w : WireBlk) : List Byte :=
  let b := w.blk
  leBytes 1 b.msg.typ ++ leBytes 1 (b.cls * 64 + (if b.shadow then 32 else 0)) ++ leBytes 2 w.src ++ leBytes 2 b.dst
    ++ leBytes 2 (w.session % 16 * 4096 + w.epoch % 4096) ++ leBytes 4 b.psn ++ leBytes 4 w.ack
    ++ leBytes 6 (b.msg.addrOr b.addr) ++ leBytes 2 b.msg.lenField ++ leBytes 2 b.tag ++ leBytes 2 b.req
    ++ leBytes 2 b.msg.arg ++ leBytes 2 w.credit

/-- A block: header, payload, CRC-32C. -/
def WireBlk.octets (w : WireBlk) : List Byte :=
  let d := w.header ++ w.blk.msg.body
  d ++ leBytes 4 (crc32c d)

/-! ### The frame (R394) -/

/-- A port's MAC address: HNS_MACPFX, the node, 0, the port. -/
def portMac (s : State) (node port : Nat) : List Byte :=
  (leBytes 2 (reg s Reg.hnsMacpfx)).reverse ++ (leBytes 2 node).reverse ++ leBytes 1 0 ++ leBytes 1 port

/-- The peer's port that a local port of the pair's paths reaches (R388). -/
def peerPort (s : State) (n port : Nat) : Nat := reachedPort s n (portFor s n false != port)

/-- PCP of a class. -/
def pcpOf (cls : Nat) : Nat := if cls = 0 then 7 else if cls = 1 then 5 else 3

/-- A frame's Ethernet header: MAC addresses, tag, EtherType. -/
def etherHead (s : State) (port n pcp etype : Nat) : List Byte :=
  portMac s n (peerPort s n port) ++ portMac s (nodeId s) port ++ [0x81#8, 0x00#8] ++ (leBytes 2 (pcp * 8192)).reverse
    ++ (leBytes 2 etype).reverse

/-- A frame's bytes, from the destination MAC to the frame check sequence. -/
def frameOctets (s : State) (port n cls : Nat) (ws : List WireBlk) : List Byte :=
  let d := etherHead s port n (pcpOf cls) (reg s Reg.hnsEtype) ++ ws.flatMap WireBlk.octets
  let d := d ++ List.replicate (60 - d.length) 0
  d ++ leBytes 4 (frameCheck d)

end Sys2Proof.Machine
end

