-- ==== Sys2Proof/Machine/FabSend.lean ====
section
/-! DEFINITION. What a fabric port sends (R394–R404, R440–R443): the choice of the next frame, its blocks' numbers, credits
and acknowledgments, and the timers of a pair that only send.
Assumption log: DEDUCED 53, 54, 55, 63, 135. -/

namespace Sys2Proof.Machine

/-! ### Wire time and room (R394, R399) -/

/-- The payload and the wire bytes of a frame of blocks (R394): preamble, gap, header and check sequence take 42 bytes, and a
frame has at least 64. -/
def framePayload (bs : List Blk) : Nat := (bs.map fun b => b.msg.len).foldl (· + ·) 0
def frameBytes (bs : List Blk) : Nat := max 64 (22 + (bs.map Blk.size).foldl (· + ·) 0) + 20

/-- Nanoseconds on the wire at 200 GB/s. -/
def wireNs (bs : List Blk) : Nat := ceilDiv (frameBytes bs) 200

/-- At most `n` blocks from the front whose sizes sum to at most `room`. -/
def takeFit : Nat → Nat → List Blk → List Blk
  | 0, _, _ => []
  | _, _, [] => []
  | n + 1, room, b :: t => if b.size ≤ room then b :: takeFit n (room - b.size) t else []

/-- HNS_MAXBLK in effect. -/
def maxBlk (s : State) (port : Nat) : Nat := clampTo 1 8 (reg s Reg.hnsMaxblk port)

/-- Room left in a port's replay buffer. -/
def replayRoom (s : State) (port : Nat) : Nat := 2097152 - replayUsed s port

/-! ### Classes (R440, R442) -/

/-- A block that may leave only in a slot: SCHED, its destination in the active calendar, calendars running. -/
def needsSlot (s : State) (port : Nat) (b : Blk) : Bool := b.cls == 1 && calendarsRun s && calNames s port b.dst

/-- The slot open now toward a destination (R441). -/
def slotFor (s : State) (port n : Nat) : Option OpenSlot :=
  match (portOf s port).slot with
  | some o => if o.slot.dst = n ∧ o.start ≤ ftNs s ∧ ftNs s < o.stop then some o else none
  | none => none

/-- The frame fits the slot's budget and ends its wire time the guard before the slot ends (R441). -/
def fitsSlot (s : State) (port : Nat) (o : OpenSlot) (bs : List Blk) : Bool :=
  decide (o.used + framePayload bs ≤ o.slot.budget ∧ ftNs s + wireNs bs + (portOf s port).guardNs ≤ o.stop)

/-- The most blocks of a list, from the front, that fit the slot. -/
def fitBlocks (s : State) (port : Nat) (o : OpenSlot) (bs : List Blk) : Nat → List Blk
  | 0 => []
  | n + 1 => if fitsSlot s port o (bs.take (n + 1)) then bs.take (n + 1) else fitBlocks s port o bs n

/-! ### What may leave -/

/-- The streams of a peer run on this port: its path, no re-route under way (R411). -/
def streamsOn (s : State) (port n : Nat) : Bool := pathPort s n == port && (peerOf s n).reroute.isNone

/-- A token waits until the last write of its tag toward its destination has left (R297). -/
def tokenHeld (s : State) (b : Blk) : Bool :=
  match b.msg with
  | .commit _ | .discard _ => s.fab.ports.any fun e => e.2.ord.any fun x => x.dst == b.dst && x.tag == b.tag
  | _ => false

/-- The first destination of a list of blocks for which something holds. -/
def firstDst (bs : List Blk) (p : Nat → Bool) : Option Nat := ((bs.map Blk.dst).eraseDups).find? p

def toward (bs : List Blk) (n : Nat) : List Blk := bs.filter fun b => b.dst == n

/-- A frame chosen: where its blocks come from. -/
inductive FrameSrc where
  | link | reroute | ctlAgain | ctl | again | ord | reads | resp
  deriving DecidableEq, Repr

structure Frame where
  src   : FrameSrc
  dst   : Nat
  cls   : Nat
  blks  : List Blk
  deriving DecidableEq, Repr

/-- A peer whose REROUTE is still to go out on the new path, which is this port (R411 step 2). -/
def reroutingOn (s : State) (port : Nat) : Option Nat :=
  (s.fab.peers.find? fun e => match e.2.reroute with
    | some r => !r.told && portFor s e.1 r.toAlt == port
    | none => false).map Prod.fst

/-- Link-control blocks, then the CTL stream, re-sends before new blocks (R401 1). -/
def planCtl (s : State) (port : Nat) : Option Frame :=
  let p := portOf s port
  let m := maxBlk s port
  match firstDst p.link_ fun _ => true with
  | some n => some ⟨.link, n, 0, (toward p.link_ n).take m⟩
  | none =>
    match reroutingOn s port with
    | some n => some ⟨.reroute, n, 0, [ctlBlk n 0 .reroute]⟩
    | none =>
    match s.fab.peers.find? fun e => streamsOn s port e.1 && decide (e.2.ctl.cursor < e.2.ctl.sent.length) with
    | some e => some ⟨.ctlAgain, e.1, 0, (e.2.ctl.sent.drop e.2.ctl.cursor).take m⟩
    | none =>
      let room := replayRoom s port
      let blocksFor (n : Nat) : List Blk := takeFit m room ((toward p.ctl n).takeWhile fun b => !tokenHeld s b)
      match firstDst p.ctl fun n => streamsOn s port n && !(blocksFor n).isEmpty with
      | some n => some ⟨.ctl, n, 0, blocksFor n⟩
      | none => none

/-- Data blocks of a peer to be sent again, the run at the cursor of one class. -/
def againRun (s : State) (port : Nat) (p : Peer) : List Blk :=
  let l := (p.data.sent.drop p.data.cursor).take (maxBlk s port)
  match l with
  | b :: _ => l.takeWhile fun x => needsSlot s port x == needsSlot s port b && (x.cls == 1) == (b.cls == 1)
  | [] => []

/-- No data block of a peer awaits a re-send, so new ones may follow. -/
def dataClear (s : State) (port n : Nat) : Bool :=
  streamsOn s port n && (peerOf s n).data.cursor == (peerOf s n).data.sent.length

/-- SCHED blocks in the open slot (R401 2, R441). Blocks that a NAK has named wait for the next slot (R403). -/
def planSched (s : State) (port : Nat) : Option Frame :=
  match (portOf s port).slot with
  | none => none
  | some o =>
    let n := o.slot.dst
    match slotFor s port n with
    | none => none
    | some o =>
      if pgHalted s (pgHNS port) ∨ !streamsOn s port n then none
      else
        let p := peerOf s n
        let again := (againRun s port p).takeWhile (needsSlot s port)
        if !again.isEmpty && o.barred then none
        else if !again.isEmpty then
          let l := fitBlocks s port o again again.length
          if l.isEmpty then none else some ⟨.again, n, 1, l⟩
        else if dataClear s port n then
          let run := (toward (portOf s port).ord n).takeWhile (needsSlot s port)
          let l := takeFit (maxBlk s port) (replayRoom s port) run
          let l := fitBlocks s port o l l.length
          if l.isEmpty then none else some ⟨.ord, n, 1, l⟩
        else none

/-- BE data to be sent again, then responses (R401 3). -/
def planResp (s : State) (port : Nat) : Option Frame :=
  let p := portOf s port
  let again (e : Nat × Peer) : List Blk := (againRun s port e.2).takeWhile fun b => !needsSlot s port b
  match s.fab.peers.find? fun e => streamsOn s port e.1 && !(again e).isEmpty with
  | some e => some ⟨.again, e.1, 2, again e⟩
  | none =>
    let blocksFor (n : Nat) : List Blk := takeFit (maxBlk s port) (replayRoom s port) (toward p.resp n)
    match firstDst p.resp fun n => dataClear s port n && !(blocksFor n).isEmpty with
    | some n => some ⟨.resp, n, 2, blocksFor n⟩
    | none => none

/-- BE requests of a destination that its credits allow: its ordered queue first, then its reads (R402, R403). -/
def requestsFor (s : State) (port n : Nat) : FrameSrc × List Blk :=
  let p := portOf s port
  let m := min (maxBlk s port) (peerOf s n).credits
  let room := replayRoom s port
  let o := takeFit m room ((toward p.ord n).takeWhile fun b => !needsSlot s port b)
  if o.isEmpty then (.reads, takeFit m room (toward p.reads n)) else (.ord, o)

/-- Destinations in turn: those above the last one served, then the rest (R401 4). -/
def dstsInTurn (last : Nat) (ns : List Nat) : List Nat :=
  let l := sortBy (fun a b => decide (a ≤ b)) ns.eraseDups
  (l.filter fun n => decide (last < n)) ++ l.filter fun n => decide (n ≤ last)

def planReq (s : State) (port : Nat) : Option Frame :=
  let p := portOf s port
  if pgHalted s (pgHNS port) then none
  else
    let ns := dstsInTurn p.turn ((p.ord ++ p.reads).map Blk.dst)
    match ns.find? fun n => dataClear s port n && !(requestsFor s port n).2.isEmpty with
    | some n => let r := requestsFor s port n; some ⟨r.1, n, 2, r.2⟩
    | none => none

/-- The next frame in the strict order of R401, with the exception of R443. -/
def planFrame (s : State) (port : Nat) : Option Frame :=
  let be := planResp s port <|> planReq s port
  planCtl s port <|>
    (if (portOf s port).schedRun ≥ 16 ∧ be.isSome then be else planSched s port <|> be)

/-! ### Sending -/

/-- What a link-control block says when it leaves: PERF, and the next PSN expected (R395, R396, R405). -/
def linkNow (s : State) (b : Blk) : Blk :=
  let p := peerOf s b.dst
  match b.msg with
  | .ack _ => { b with msg := .ack (perfOf p), psn := p.data.expect }
  | .nak true => { b with psn := p.ctl.expect }
  | .nak false => { b with psn := p.data.expect }
  | _ => { b with psn := p.data.expect }

/-- The PSNs of new blocks (R397). -/
def numbered (psn : Nat) : List Blk → List Blk
  | [] => []
  | b :: t => { b with psn } :: numbered ((psn + 1) % 2 ^ 32) t

/-- A COMMIT or DISCARD token names the last data block sent to its destination (R297). -/
def stamped (s : State) (b : Blk) : Blk :=
  let last := ((peerOf s b.dst).data.next + 2 ^ 32 - 1) % 2 ^ 32
  match b.msg with
  | .commit _ => { b with msg := .commit last }
  | .discard _ => { b with msg := .discard last }
  | _ => b

/-- The first transmission of a block: a token's time starts (R303, R400), a request's deadline (R408), a write awaits PERF. -/
def firstSent (s : State) (b : Blk) : State :=
  match b.msg with
  | .commit _ | .discard _ => setDest' s b
  | .read _ | .atomic _ _ =>
    let s := regSafePoint s (pgHNS 0) Reg.hnsDeadline 0
    let due := s.now + usec (clampTo 2 64 (reg s Reg.hnsDeadline))
    let s := chargeBlk s b
    modPeer s b.dst fun p =>
      let outReqs := mmod p.outReqs b.req fun r => { r with due := some due, psn := some b.psn }
      { p with outReqs }
  | .write _ | .writeMasked _ _ | .reduce _ _ =>
    modPeer (chargeBlk s b) b.dst fun p => { p with unperf := p.unperf ++ [⟨b.psn, b⟩] }
  | _ => chargeBlk s b
where
  /-- The token is out. -/
  setDest' (s : State) (b : Blk) : State :=
    match destSt s b.tag b.dst with
    | some .queued => setDest s b.tag b.dst (.sent s.now)
    | _ => s

/-- BE blocks granted to a peer now (R403): up to HNS_BEWIN, within the receive pool of 8,192 of the port. -/
def grantFor (s : State) (port n : Nat) : Nat :=
  let out := ((s.fab.peers.filter fun e => pathPort s e.1 == port).map fun e => e.2.granted).foldl (· + ·) 0
  min (clampTo 8 1024 (reg s Reg.hnsBewin) - (peerOf s n).granted) (8192 - out)

/-- The header fields that sending fills in (R395). -/
def onWire (s : State) (cls credit : Nat) (b : Blk) : WireBlk :=
  let p := peerOf s b.dst
  let ack := match b.msg with
    | .ack _ | .nak _ | .heartbeat | .timeReq _ _ _ _ | .timeResp _ _ _ _ _ _ _ => p.ctl.expect
    | _ => if cls = 0 then p.ctl.expect else p.data.expect
  { blk := { b with cls }, src := nodeId s, session := p.session, epoch := s.fab.epoch, ack, credit }

/-- The first block of a frame carries the grant. -/
def frameWires (s : State) (cls grant : Nat) : List Blk → List WireBlk
  | [] => []
  | b :: t => onWire s cls grant b :: t.map (onWire s cls 0)

/-- The acknowledgments that a frame has carried are no longer owed (R398); PERF goes only with an ACK block. -/
def acksCarried (s : State) (n cls : Nat) (bs : List Blk) : State :=
  let acks : Bool := bs.any fun b => match b.msg with
    | .ack _ => true
    | _ => false
  modPeer s n fun p =>
    let perf := perfOf p
    let link : Bool := bs.any fun b => match b.msg with
      | .ack _ | .heartbeat => true
      | _ => false
    let ctl := if cls = 0 ∨ link then { p.ctl with ackDue := none } else p.ctl
    let data := if acks ∨ (cls ≠ 0 ∧ p.perfTold = perf) then { p.data with ackDue := none } else p.data
    { p with ctl, data, perfTold := if acks then perf else p.perfTold, lastSent := s.now,
             lastActive := if bs.all (fun b => b.msg == .heartbeat) then p.lastActive else s.now }

/-- A stream after new blocks have been sent: they are kept until ACK covers them (R399). -/
def keepSent (t : StreamSt) (now : Nat) (bs : List Blk) : StreamSt :=
  { t with next := (t.next + bs.length) % 2 ^ 32, sent := t.sent ++ bs, cursor := t.cursor + bs.length,
           lastAdv := if t.sent.isEmpty then now else t.lastAdv, resent := if t.sent.isEmpty then false else t.resent }

/-- A list without the first blocks toward a destination that a frame took. -/
def without (n k : Nat) : List Blk → List Blk
  | [] => []
  | b :: t => if k = 0 then b :: t else if b.dst = n then without n (k - 1) t else b :: without n k t

/-- A frame's blocks leave their queue, numbered and kept where their stream is sequenced; the blocks as sent. -/
def takeFrame (s : State) (port : Nat) (f : Frame) : List Blk × State :=
  let n := f.dst
  let k := f.blks.length
  match f.src with
  | .link => (f.blks.map (linkNow s), modPort s port fun q => { q with link_ := without n k q.link_ })
  | .ctlAgain => (f.blks, modPeer s n fun p => { p with ctl := { p.ctl with cursor := p.ctl.cursor + k } })
  | .again => (f.blks, modPeer s n fun p => { p with data := { p.data with cursor := p.data.cursor + k } })
  | .reroute =>
    let bs := numbered (peerOf s n).ctl.next f.blks
    let s := modPeer s n fun p =>
      { p with ctl := keepSent p.ctl s.now bs, reroute := p.reroute.map fun r => { r with told := true } }
    (bs, s)
  | .ctl =>
    let bs := numbered (peerOf s n).ctl.next (f.blks.map (stamped s))
    let s := modPort s port fun q => { q with ctl := without n k q.ctl }
    let s := modPeer s n fun p => { p with ctl := keepSent p.ctl s.now bs }
    (bs, bs.foldl firstSent s)
  | .ord | .reads | .resp =>
    let bs := numbered (peerOf s n).data.next (f.blks.map fun b => { b with cls := f.cls })
    let s := modPort s port fun q =>
      match f.src with
      | .ord => { q with ord := without n k q.ord }
      | .reads => { q with reads := without n k q.reads }
      | _ => { q with resp := without n k q.resp }
    let use := if f.src = .resp ∨ f.cls = 1 then 0 else k
    let s := modPeer s n fun p => { p with data := keepSent p.data s.now bs, credits := p.credits - use }
    (bs, bs.foldl firstSent s)

/-- The port after a frame of a class: the slot's budget, the run of SCHED frames, whose turn is over. -/
def notePort (s : State) (port : Nat) (f : Frame) (bs : List Blk) : State :=
  let fresh : Bool := f.cls == 1 && (portOf s port).slot.any fun o => o.used == 0
  let s := if fresh then pmcEvent s (pgHNS port) 0x0106 1 none else s
  modPort s port fun q =>
    let slot := if f.cls = 1 then q.slot.map fun o => { o with used := o.used + framePayload bs } else q.slot
    let schedRun := if f.cls = 1 then q.schedRun + 1 else if f.cls = 2 then 0 else q.schedRun
    let turn := if f.src = .ord ∨ f.src = .reads then (if f.cls = 2 then f.dst else q.turn) else q.turn
    { q with slot, schedRun, turn, lastDone := s.now }

/-- Room in an egress buffer lets held work go on (R668). -/
def wakeAll (s : State) : State := s.cores.foldl (fun s e => wakeCredit s e.1) s

/-- One frame sent. -/
def sendFrame (s : State) (port : Nat) (f : Frame) : State :=
  let r := takeFrame s port f
  let s := regSafePoint r.2 (pgHNS 0) Reg.hnsBewin 0
  let grant := grantFor s port f.dst
  let ws := frameWires s f.cls grant r.1
  let s := emit s (.frame port ws (frameOctets s port f.dst f.cls ws))
  let s := modPeer s f.dst fun p => { p with granted := p.granted + grant }
  let s := notePort (acksCarried s f.dst f.cls r.1) port f r.1
  let s := pmcEvent (pmcEvent s (pgHNS port) (0x0100 + f.cls) 1 none) (pgHNS port) 0x0103 r.1.length none
  if f.src = .ord then wakeAll s else s

/-- What a port that can send nothing waits for: room in its replay buffer, or credits (R399, R403). -/
def countStall (s : State) (port : Nat) : State :=
  let p := portOf s port
  if (p.ctl ++ p.ord ++ p.reads ++ p.resp).isEmpty then s
  else if replayRoom s port < 328 then pmcEvent s (pgHNS port) 0x0105 1 none
  else if (p.ord ++ p.reads).any fun b => (peerOf s b.dst).credits == 0 then pmcEvent s (pgHNS port) 0x0104 1 none
  else s

def execFrameSend (port : Nat) (s : State) : Host.Outcome State Fault Refusal :=
  if (portOf s port).link = .run then
    match planFrame s port with
    | some f => .next (sendFrame s port f)
    | none => .next (countStall s port)
  else .next s

/-! ### Timers that send link-control blocks (R398, R404) -/

/-- A link-control block of a kind already waits for a peer. -/
def linkQueued (s : State) (n : Nat) (p : Msg → Bool) : Bool :=
  (portOf s (pathPort s n)).link_.any fun b => b.dst == n && p b.msg

def ackLate (s : State) (n : Nat) : Bool :=
  let p := peerOf s n
  let due (t : Option Nat) : Bool := match t with
    | some c => since s c 1800
    | none => false
  (due p.ctl.ackDue || due p.data.ackDue)
    && !(linkQueued s n fun m => match m with | .ack _ => true | _ => false)

def execAckTimer (node : Nat) (s : State) : Host.Outcome State Fault Refusal :=
  if ackLate s node then .next (sendLink s node 0 (.ack 0)) else .next s

def heartbeatDue (s : State) (n : Nat) : Bool :=
  let p := peerOf s n
  (p.state == .up || p.state == .suspect) && p.active && since s p.lastSent (usec 1)
    && !(linkQueued s n fun m => m == .heartbeat)

def execHeartbeatTimer (node : Nat) (s : State) : Host.Outcome State Fault Refusal :=
  if heartbeatDue s node then .next (sendLink s node 0 .heartbeat) else .next s

end Sys2Proof.Machine
end

