-- ==== Sys2Proof/Machine/FabPeer.lean ====
section
/-! DEFINITION. What happens to a pair of modules (R399, R404, R407–R412): acknowledgments and re-sends, the loss of a
peer and its return, deadlines, re-routing, ports that fail and come back.
Assumption log: DEDUCED 55, 56, 61, 63; DESIGN CHOICE 124. -/

namespace Sys2Proof.Machine

/-! ### Errors of a port (R419) -/

/-- A fabric error of a port: the first is latched with its node, all are counted (R419, R464). -/
def hnsLatch (s : State) (port node code : Nat) : State :=
  let s := pgErr s (pgHNS port) code
  if reg s Reg.hnsErrlog port ≥ 2 ^ 63 then s
  else setReg s Reg.hnsErrlog port (2 ^ 63 + node % 65536 * 2 ^ 32 + code)

/-! ### Acknowledgments and re-sends (R398, R399) -/

/-- A PSN lies behind another, modulo 2³². -/
def psnBefore (a b : Nat) : Bool := decide (a % 2 ^ 32 ≠ b % 2 ^ 32 ∧ (b + 2 ^ 32 - a % 2 ^ 32) % 2 ^ 32 < 2 ^ 31)

/-- The stream after an acknowledgment of everything before a PSN; it is unchanged where that covers nothing new. -/
def StreamSt.acked (t : StreamSt) (now ack : Nat) : StreamSt :=
  let done := (t.sent.takeWhile fun b => psnBefore b.psn ack).length
  if done = 0 then t
  else { t with sent := t.sent.drop done, cursor := t.cursor - done, lastAdv := now, resent := false, fails := 0 }

/-- The stream sending again from a PSN (R399): a re-send that no acknowledgment has advanced past has failed. -/
def StreamSt.again (t : StreamSt) (now psn : Nat) : StreamSt :=
  { t with cursor := (t.sent.takeWhile fun b => psnBefore b.psn psn).length, lastAdv := now, resent := true,
           fails := if t.resent then t.fails + 1 else t.fails }

def modStream (s : State) (n : Nat) (ctl : Bool) (f : StreamSt → StreamSt) : State :=
  modPeer s n fun p => if ctl then { p with ctl := f p.ctl } else { p with data := f p.data }

def streamOf (s : State) (n : Nat) (ctl : Bool) : StreamSt := if ctl then (peerOf s n).ctl else (peerOf s n).data

/-! ### The loss of a peer (R301, R311, R313, R315, R407, R409) -/

/-- A port without the blocks that it holds toward a node. -/
def Port.dropTo (p : Port) (n : Nat) : Port :=
  let keep (l : List Blk) : List Blk := l.filter fun b => b.dst != n
  { p with link_ := keep p.link_, ctl := keep p.ctl, ord := keep p.ord, reads := keep p.reads, resp := keep p.resp }

/-- A command has a request, a write or a frame pair at a node that its loss takes away (R315, R409). -/
def reaches (s : State) (n : Nat) (i : Nat) (c : Cmd) : Bool :=
  let p := peerOf s n
  let blk (b : Blk) : Bool := b.dst == n && b.cmd == some i
  c.touchedNodes.contains n || p.outReqs.any (fun e => e.2.cmd == i) || p.unperf.any (fun u => blk u.blk)
    || p.waitingSend.any blk || (s.fab.ports.any fun e => e.2.ord.any blk || e.2.reads.any blk)

/-- The commands that the loss of a node ends. -/
def victims (s : State) (n : Nat) : List Nat :=
  (s.cmds.filter fun e => e.2.started && (reaches s n e.1 e.2 || e.2.got.any fun k => k.node == n)).map Prod.fst

/-- Commands that are acquiring pairs at a lost node begin again. -/
def restartClaims (s : State) (n : Nat) : State :=
  (s.cmds.filter fun e => e.2.undispatched && !e.2.d.isGang
      && (e.2.got.any (fun k => k.node == n) || e.2.asked.any fun k => k.node == n)).foldl
    (fun s e => dropClaims s e.1 e.2) s

/-- A gang when one of its modules is lost (R311, R313). Before its start the leader ends it; after it, it ends, but for
members that have reported READY to a leader that may have passed the commit point: they await its return (R314). -/
def gangLost (s : State) (n code : Nat) (id : Nat) (g : Gang) : State :=
  let lead := g.leader == nodeId s
  let member := g.arrived.any fun a => a.1 == n
  if g.phase = .go then s
  else if g.phase = .started then
    if lead && member then settled (endGangLocal (tellGangEnd s id 0) id code true)
    else if g.leader = n then
      if g.members.all fun i => (cmdOf s i).any fun c => c.readySent then
        g.members.foldl (fun s i => modCmd s i fun c => { c with heldFor := some (n, code, s.now) }) s
      else settled (endGangLocal s id code true)
    else s
  else if lead && member then gangAbandon s id Code.gangIncomplete
  else if lead then
    modGang s id fun g => { g with held := g.held.filter fun h => h.claim.node != n, asked := false }
  else if g.leader = n then failMembers s id Code.gangIncomplete
  else s

/-- A replayable command killed for the loss waits for the peer to rejoin (R409). -/
def holdVictim (s : State) (n code i : Nat) : State :=
  match cmdOf s i with
  | none => s
  | some c =>
    let s := killOrEnd s i code (pgHNS (pathPort s n)) n
    if c.d.isGang then s
    else modCmd s i fun c => if c.undispatched then { c with heldFor := some (n, code, s.now) } else c

/-- The peer takes no more: blocks, requests and waiting claims of the pair are gone (R407). -/
def cutPeer (s : State) (n : Nat) (st : PeerState) : State :=
  let s := { s with fab := { s.fab with ports := s.fab.ports.map fun e => (e.1, e.2.dropTo n) } }
  let s := modPeer s n fun p =>
    { p with state := st, ctl := .fresh, data := .fresh, waitingSend := [], outReqs := [], unperf := [], tokens := [],
             reroute := none, rejoinWait := false, lostAt := some s.now, timeouts := 0, credits := 0, granted := 0 }
  let far (p : Pair) : Pair := { p with waiters := p.waiters.filter fun w => w.asker != n }
  { s with com := { s.com with pairs := s.com.pairs.map fun e => (e.1, far e.2) } }

/-- A peer enters DOWN or RESET with a code (R407, R409). -/
def losePeer (s : State) (n : Nat) (st : PeerState) (code : Nat) : State :=
  let vs := victims s n
  let gs := s.com.gangs
  let s := hnsLatch s (pathPort s n) n code
  let s := commitAll (holdPairs (cutPeer s n st) n)
  let s := gs.foldl (fun s e => gangLost s n code e.1 e.2) s
  let s := vs.foldl (fun s i => holdVictim s n code i) s
  wakeAll (restartClaims s n)

/-- The code that a state of a lost peer carries. -/
def lostCode (st : PeerState) : Nat := if st = .reset then Code.fabPeerReset else Code.fabPeerDown

/-- A pair is UP: what waited for it goes on, releases that were held are sent (R392, R407, R409, R486). -/
def peerUp (s : State) (n : Nat) : State :=
  let p := peerOf s n
  let s := modPeer s n fun p => { p with state := .up, lostAt := none, releases := [], rejoinWait := false, timeouts := 0,
                                         lastHeard := s.now }
  let free (c : Cmd) : Cmd := if c.heldFor.any fun h => h.1 == n then { c with heldFor := none } else c
  let s := { s with cmds := s.cmds.map fun e => (e.1, free e.2) }
  let s := p.releases.foldl (fun s r => sendCtl s n 0 (.mapRelease r.1 r.2)) s
  wakeAll (releaseWaiting s n)

/-! ### RESEND_TIMER (R399) -/

/-- The pair is not verified, this module has announced itself, and nothing has come back for 3 µs. The manual names no re-send of an
announcement that is lost (DESIGN CHOICE, log entry 124). -/
def announceDue (s : State) (n : Nat) : Bool :=
  let p := peerOf s n
  alive s && p.state == .unverified && p.told && p.heard.isNone && since s p.lastSent (usec 3)

/-- Blocks sent and not covered, and 3 µs without an advance. -/
def resendDue (s : State) (n : Nat) (ctl : Bool) : Bool :=
  let t := streamOf s n ctl
  alive s && decide (0 < t.cursor) && !t.sent.isEmpty && (peerOf s n).reroute.isNone && since s t.lastAdv (usec 3)

/-- A re-send from a PSN; the eighth failed one in a row fails the pair (R399). -/
def resendFrom (s : State) (n : Nat) (ctl : Bool) (psn : Nat) : State :=
  let port := pathPort s n
  let s := modStream (incReg s Reg.hnsResends port) n ctl fun t => t.again s.now psn
  if (streamOf s n ctl).fails ≥ 8 then
    losePeer (hnsLatch s port n Code.fabCrcRetryExhausted) n .down Code.fabPeerDown
  else s

def oldestPsn (t : StreamSt) : Nat := match t.sent with
  | b :: _ => b.psn
  | [] => t.next

def execResendTimer (node : Nat) (ctl : Bool) (s : State) : Host.Outcome State Fault Refusal :=
  if resendDue s node ctl then .next (resendFrom s node ctl (oldestPsn (streamOf s node ctl)))
  else if announceDue s node then .next (sendAnnounce s node)
  else .next s

/-! ### Re-routing (R410, R411) -/

/-- The pair has an alternate path. -/
def hasAlt (s : State) (n : Nat) : Bool := (topoEntry s n).any fun e => e.alt != 0xFF#8

def connected (s : State) (n : Nat) : Bool := (peerOf s n).state == .up || (peerOf s n).state == .suspect

/-- A re-route begins (R411 steps 1, 2): nothing sequenced is sent but REROUTE, which goes out on the new path. -/
def startReroute (s : State) (n : Nat) (alt : Bool) : State :=
  let p := peerOf s n
  if !hasAlt s n || !connected s n || p.reroute.isSome || p.onAlt == alt then s
  else modPeer s n fun p => { p with reroute := some { toAlt := alt, lastOld := p.lastSent, told := false } }

/-- The old path has drained: everything sent on it is acknowledged, or 10 µs have passed (R411 step 3). -/
def rerouteDrained (s : State) (n : Nat) : Bool :=
  let p := peerOf s n
  match p.reroute with
  | none => false
  | some r => ((p.ctl.sent.all fun b => b.msg == .reroute) && p.data.sent.isEmpty) || since s r.lastOld (usec 10)

/-- Blocks of a pair as the new path takes them: SCHED travels as BE unless the new port's calendar names the pair (R411). -/
def rerouted (s : State) (port n : Nat) (b : Blk) : Blk :=
  if b.cls = 1 ∧ !calNames s port n then { b with cls := 2 } else b

/-- The pair's blocks move to the new port, and sending resumes from the oldest unacknowledged (R411 step 4). -/
def doRerouteEnd (s : State) (n : Nat) : State :=
  let p := peerOf s n
  match p.reroute with
  | none => s
  | some r =>
    let old := pathPort s n
    let new := portFor s n r.toAlt
    let q := portOf s old
    let s := if old = new then s
      else
        let mv (l : List Blk) : List Blk := (toward l n).map (rerouted s new n)
        let s := modPort s old fun q => q.dropTo n
        modPort s new fun x =>
          { x with link_ := x.link_ ++ mv q.link_, ctl := x.ctl ++ mv q.ctl, ord := x.ord ++ mv q.ord,
                   reads := x.reads ++ mv q.reads, resp := x.resp ++ mv q.resp }
    let back (t : StreamSt) : StreamSt :=
      { t with sent := t.sent.map (rerouted s new n), cursor := 0, lastAdv := s.now, resent := false }
    let s := modPeer s n fun p =>
      { p with onAlt := r.toAlt, reroute := none, ctl := back p.ctl, data := back p.data, lastHeard := s.now }
    let s := pmcEvent s (pgHNS new) 0x0107 1 none
    wakeAll (logPeer s Code.fabRerouted (pgHNS new) n 0)

def execRerouteDrainEnd (node : Nat) (s : State) : Host.Outcome State Fault Refusal :=
  if rerouteDrained s node then .next (doRerouteEnd s node) else .next s

/-- The primary port has been in RUN for 1 s (R411). -/
def primaryBack (s : State) (n : Nat) : Bool :=
  let p := portOf s (portFor s n false)
  (peerOf s n).onAlt && (peerOf s n).reroute.isNone && connected s n && p.link == .run && since s p.runSince (sec 1)

def execPrimaryReturn (node : Nat) (s : State) : Host.Outcome State Fault Refusal :=
  if primaryBack s node then .next (startReroute s node false) else .next s

/-! ### Silence (R404, R407, R410) -/

def silent (s : State) (n us : Nat) : Bool :=
  connected s n && (peerOf s n).active && since s (peerOf s n).lastHeard (usec us)

def execPeerSilenceTimeout (node : Nat) (s : State) : Host.Outcome State Fault Refusal :=
  if silent s node 50 then .next (losePeer s node .down Code.fabPeerDown) else .next s

def execPathSilenceTimeout (node : Nat) (s : State) : Host.Outcome State Fault Refusal :=
  if silent s node 10 && !(peerOf s node).onAlt then .next (startReroute s node true) else .next s

/-- Nothing between this module and a peer is outstanding (R404): requests, blocks, claims, owned pairs, commit records. -/
def quietPair (s : State) (n : Nat) : Bool :=
  let p := peerOf s n
  let any_ (l : List Blk) : Bool := l.any fun b => b.dst == n
  p.outReqs.isEmpty && p.ctl.sent.isEmpty && p.data.sent.isEmpty && p.unperf.isEmpty && p.ingress.isEmpty
    && p.tokens.isEmpty
    && !(s.fab.ports.any fun e => any_ e.2.link_ || any_ e.2.ctl || any_ e.2.ord || any_ e.2.reads || any_ e.2.resp)
    && !(s.com.pairs.any fun e => (e.2.state != .idle && e.2.node == n) || e.2.waiters.any fun w => w.asker == n)
    && !(s.cmds.any fun e => e.2.got.any (fun k => k.node == n) || e.2.asked.any (fun k => k.node == n)
          || e.2.touchedNodes.contains n)
    && !(s.com.recs.any fun r => r.2.dests.any fun d => d.1 == n && d.2 != .acked && d.2 != .expired)

def pairIdle (s : State) (n : Nat) : Bool := (peerOf s n).active && quietPair s n && since s (peerOf s n).lastActive (msec 1)

/-- An active pair goes idle, and work toward a further peer may proceed (R404). -/
def doPairIdle (s : State) (n : Nat) : State :=
  let s := modPeer s n fun p => { p with active := false }
  match s.fab.peers.find? fun e => connected s e.1 && !e.2.waitingSend.isEmpty with
  | some e => releaseWaiting s e.1
  | none => s

def execPairIdleTimeout (node : Nat) (s : State) : Host.Outcome State Fault Refusal :=
  if pairIdle s node then .next (doPairIdle s node) else .next s

/-! ### Deadlines (R408, R409) -/

def deadlineMissed (s : State) (n q : Nat) : Bool :=
  match mget (peerOf s n).outReqs q with
  | some r => match r.due with
    | some d => decide (d ≤ s.now)
    | none => false
  | none => false

/-- A request not answered in time ends its command; the third in a row makes the peer SUSPECT (R407, R408). -/
def doDeadline (s : State) (n q : Nat) : State :=
  match mget (peerOf s n).outReqs q with
  | none => s
  | some r =>
    let port := pathPort s n
    let s := modPeer s n fun p => { p with outReqs := mdel p.outReqs q, timeouts := p.timeouts + 1 }
    let s := hnsLatch (incReg s Reg.hnsTimeouts port) port n Code.fabTimeout
    let s := failCmdAt s r.cmd Code.fabTimeout (pgHNS port) 0 n
    if (peerOf s n).timeouts ≥ 3 ∧ (peerOf s n).state = .up then
      let s := modPeer s n fun p => { p with state := .suspect }
      startReroute (logPeer s Code.fabSuspect (pgHNS port) n 0) n true
    else s

def execRequestDeadline (node req : Nat) (s : State) : Host.Outcome State Fault Refusal :=
  if deadlineMissed s node req then .next (doDeadline s node req) else .next s

/-- 1 s has passed since the loss that holds a command (R409). -/
def rejoinLate (s : State) (i : Nat) : Bool :=
  match (cmdOf s i).bind Cmd.heldFor with
  | some h => since s h.2.2 (sec 1)
  | none => false

def doRejoinLate (s : State) (i : Nat) : State :=
  match cmdOf s i with
  | none => s
  | some c =>
    let h := c.heldFor.getD (0, 0, 0)
    if c.started then settled (endGangLocal s c.d.gangId h.2.1 true)
    else failCmdAt s i h.2.1 (pgHNS (pathPort s h.1)) 0 h.1

def execPeerRejoinTimeout (cmd : Nat) (s : State) : Host.Outcome State Fault Refusal :=
  if rejoinLate s cmd then .next (doRejoinLate s cmd) else .next s

/-! ### Ports (R410, R415, R612) -/

/-- The peers whose path is on a port. -/
def pairsOn (s : State) (port : Nat) : List Nat :=
  (s.fab.peers.filter fun e => pathPort s e.1 == port).map Prod.fst

/-- A port leaves RUN: the pairs that it carries as their PRI move to ALT (R410), and its reset is due (R609, R612). -/
def doLinkDown (s : State) (port : Nat) : State :=
  let s := modPort s port fun p => { p with link := .training s.now, lanes := 0, slot := none }
  let s := (pairsOn s port).foldl (fun s n => startReroute s n true) s
  raiseLink s (.port port)

def execPortLinkDown (port : Nat) (s : State) : Host.Outcome State Fault Refusal :=
  if (portOf s port).link = .run then .next (doLinkDown s port) else .next s

def isTraining (s : State) (port : Nat) : Bool :=
  match (portOf s port).link with
  | .training _ => true
  | _ => false

/-- A port finishes training and carries traffic. -/
def doTrained (s : State) (port : Nat) (lanes : BitVec 8) : State :=
  let s := modPort s port fun p => { p with link := .run, lanes, runSince := s.now }
  endRecovery s (.port port)

def execPortTrained (port : Nat) (lanes : BitVec 8) (s : State) : Host.Outcome State Fault Refusal :=
  if isTraining s port then .next (doTrained s port lanes) else .next s

end Sys2Proof.Machine
end

