-- ==== Sys2Proof/Machine/Images.lean ====
section
/-! DEFINITION. What software and the maker lay out in memory, byte by byte: topology tables (R387, R388), calendar images
(R436, R437), firmware images (R572), the part descriptor (R580), descriptors and admission entries in ring slots (R498, R499,
R531).
Assumption log: DESIGN CHOICE 81; DEDUCED 128, 129. -/

namespace Sys2Proof.Machine

/-- A little-endian field of bytes. -/
def fld (b : List Byte) (o n : Nat) : Nat := fromLe ((b.drop o).take n)

/-- `n` bytes from an offset on. -/
def bytesAt (b : List Byte) (o n : Nat) : List Byte := (b.drop o).take n

/-! ### The topology table (R387, R388) -/

/-- One entry of 48 bytes. -/
def parseEntry (b : List Byte) : TopoEntry :=
  { node := fld b 0 2, pri := BitVec.ofNat 8 (fld b 2 1), alt := BitVec.ofNat 8 (fld b 3 1), keyhash := fld b 8 32,
    rsv := fld b 4 4 != 0 || fld b 0x28 8 != 0 }

/-- At most `n` entries. -/
def parseEntries : Nat → List Byte → List TopoEntry
  | 0, _ => []
  | n + 1, b => if b.length < 48 then [] else parseEntry (b.take 48) :: parseEntries n (b.drop 48)

/-- The table that some bytes hold, with its SHA3-256. -/
def parseTopo (b : List Byte) : TopoTable :=
  { version := fld b 0 4, count := fld b 4 4, self := fld b 8 2, timeRoot := fld b 0x0A 2,
    planes := (List.range 16).map fun p => b.getD (0x10 + p) 0, rsv := fld b 0x0C 4 != 0 || fld b 0x20 32 != 0,
    entries := parseEntries (b.length / 48) (b.drop 64), hash := sha3 b }

/-! ### Calendar images (R436, R437) -/

/-- One entry of 16 bytes. -/
def parseSlot (b : List Byte) : CalSlot :=
  { offset := fld b 0 4, dst := fld b 4 2, valid := bitsOf (fld b 6 1) 0 0 == 1,
    rsv := bitsOf (fld b 6 1) 7 1 != 0 || fld b 7 1 != 0 || fld b 0x0C 4 != 0, budget := fld b 8 4 }

def parseSlots : Nat → List Byte → List CalSlot
  | 0, _ => []
  | n + 1, b => parseSlot b :: parseSlots n (b.drop 16)

/-- The calendars of `n` ports, 1,024 entries each. -/
def parsePorts : Nat → List Byte → List (List CalSlot)
  | 0, _ => []
  | n + 1, b => parseSlots 1024 b :: parsePorts n (b.drop 16384)

/-- The ports that a mask names. -/
def portsIn (m : Nat) : Nat := ((List.range 16).filter fun p => m.testBit p).length

/-- The length of the image that a PORTMASK gives. -/
def calLength (mask : Nat) : Nat := 64 + 16384 * portsIn mask

def parseCal (b : List Byte) : CalImage :=
  let mask := fld b 8 2
  { version := fld b 0 4, frameNs := fld b 4 4, portmask := BitVec.ofNat 16 mask, rsv := fld b 0x0A 0x36 != 0,
    slots := parsePorts (portsIn mask) (b.drop 64) }

/-! ### Firmware images (R572) -/

/-- VENDOR_PK hashes to the key hash in mask ROM, and a signature of it over a message verifies. -/
def vendorSigned (pk msg sig : List Byte) : Bool := sha3 pk == Config.vendorKeyHash && Config.sigValid pk msg sig

/-- Every chunk of 1 MiB of a body, the last one short, matches its entry of CHUNK_HASH. -/
def chunksOk (hashes : List Byte) : Nat → List Byte → Bool
  | 0, _ => true
  | n + 1, body => sha3 (body.take 0x100000) == fld hashes 0 32 && chunksOk (hashes.drop 32) n (body.drop 0x100000)

/-- An image with the checks of R572 made. -/
def parseImage (b : List Byte) : FwImage :=
  let length := fld b 0x10 4
  let chunks := fld b 0x14 4
  { valid := fld b 0 4 == 0x42465749 && fld b 4 4 == 1 && decide (1 ≤ length ∧ length ≤ 0x17F0000)
      && chunks == ceilDiv length 0x100000 && decide (fld b 0x20 8 < length) && decide (0x10000 + length ≤ b.length)
      && vendorSigned (bytesAt b 0x40 64) (bytesAt b 0 0x380) (bytesAt b 0x380 29792)
      && chunksOk (bytesAt b 0x80 768) chunks (bytesAt b 0x10000 length),
    fwVer := fld b 8 8, length, handoffMin := fld b 0x18 2, handoffVer := fld b 0x1A 2, measure := sha3 (bytesAt b 0 0x380),
    bytes := b.take (0x10000 + length) }

/-! ### The part descriptor (R580) -/

def parsePart (b : List Byte) : PartDesc :=
  { magicOk := fld b 0 4 == 0x42465044, descVer := fld b 4 4, idHash := fld b 8 32, part := fld b 0x28 2, dieRev := fld b 0x2A 1,
    features := fld b 0x2C 4, coreMask := fld b 0x30 24, stackMask := fld b 0x48 2, portMask := fld b 0x4A 2,
    maxMhz := fld b 0x4C 2, hostMac := fromLe (bytesAt b 0x50 6).reverse, hash := sha3 (bytesAt b 0 0xA0),
    sigOk := vendorSigned (bytesAt b 0x60 64) (bytesAt b 0 0xA0) (bytesAt b 0xA0 29792) }

/-! ### Descriptors and admission entries (R498, R499, R531) -/

/-- A wait of 12 bytes. -/
def parseWait (b : List Byte) (o : Nat) : WaitField :=
  let w := fld b o 4
  { valid := bitsOf w 31 31 == 1, ignorePoison := bitsOf w 30 30 == 1, fence := bitsOf w 19 0,
    rsv := bitsOf w 29 20 != 0, value := fld b (o + 4) 8 }

/-- A range entry of 16 bytes. -/
def parseRange (b : List Byte) (o : Nat) : RangeField :=
  let f := fld b (o + 14) 2
  { va := fld b o 8, length := fld b (o + 8) 6, w := bitsOf f 0 0 == 1, whole := bitsOf f 1 1 == 1,
    rsv := bitsOf f 15 2 != 0 }

/-- `n` range entries from an offset on. -/
def parseRanges (b : List Byte) (o : Nat) : Nat → List RangeField
  | 0 => []
  | n + 1 => parseRange b o :: parseRanges b (o + 16) n

/-- NRANGES as far as it is read: a descriptor with more than 256 ranges is invalid whatever they hold (log entry 128). -/
def rangeCount (b : List Byte) : Nat := min 257 (fld b 0x2A 2)

/-- A descriptor from the bytes of its slots. -/
def parseDesc (b : List Byte) (saveCount : Nat) : Descriptor :=
  let flags := fld b 0x2E 2
  let sig := fld b 0x40 4
  { cmdId := BitVec.ofNat 64 (fld b 0 8), codeVa := fld b 0x08 8, argVa := BitVec.ofNat 64 (fld b 0x10 8),
    saveptVa := fld b 0x18 8, threads := fld b 0x20 4, scratch := fld b 0x24 4, vregs := fld b 0x28 1,
    setSize := fld b 0x29 1, maxCores := fld b 0x2C 2, isMatrix := bitsOf flags 0 0 == 1,
    isGang := bitsOf flags 1 1 == 1, notBefore := fld b 0x30 8, gangId := fld b 0x38 4, gangMembers := fld b 0x3C 2,
    gangLeader := fld b 0x44 2, gangWait := fld b 0x46 2, sigValid := bitsOf sig 31 31 == 1,
    sigFence := bitsOf sig 19 0, sigValue := fld b 0x48 8,
    waits := [parseWait b 0x50, parseWait b 0x5C, parseWait b 0x68, parseWait b 0x74],
    ranges := parseRanges b 128 (rangeCount b),
    rsv := bitsOf flags 15 2 != 0 || fld b 0x3E 2 != 0 || bitsOf sig 30 20 != 0, saveCount }

/-- An admission entry from the bytes of its slot. -/
def parseAdmission (b : List Byte) : Nat × Admission :=
  (fld b 8 2,
   { cmdId := BitVec.ofNat 64 (fld b 0 8), prio := fld b 0x0A 1, seq := fld b 0x0C 4, deadline := fld b 0x10 8,
     kvList := fld b 0x18 8, kvPages := fld b 0x20 4, prompt := fld b 0x24 4, maxLen := fld b 0x28 4,
     rsv := fld b 0x0B 1 != 0 || fld b 0x2C 0x54 != 0 })

end Sys2Proof.Machine
end

