-- ==== Sys2Proof/Machine/Fabric.lean ====
section
/-! DEFINITION. What a fabric port receives (R298, R304, R310–R314, R386–R418, R486): link-control blocks, data blocks,
CTL messages, and the loading of the topology table.
Assumption log: DEDUCED 54, 55, 57, 58, 59, 110, 123; DESIGN CHOICE 62. -/

namespace Sys2Proof.Machine

/-! ### Every block (R386, R398, R407) -/

/-- The block came on a port that carries traffic, for this node and from another node of the table. -/
def fromKnown (s : State) (h : BlockHdr) : Bool :=
  alive s && (portOf s h.port).link == .run && (topoEntry s h.src).isSome && h.src != nodeId s && h.dst == nodeId s

/-- A CTL acknowledgment that covers REJOIN_ACK completes the rejoin (R413). -/
def rejoinAcked (s : State) (n : Nat) (before : Nat) : State :=
  let p := peerOf s n
  if p.rejoinWait ∧ p.ctl.sent.length < before then peerUp s n else s

/-- What a block acknowledges (R395, R398): its reverse stream; a link-control block both streams. -/
def ackFrom (s : State) (h : BlockHdr) (data ctl : Option Nat) : State :=
  let n := h.src
  let before := (peerOf s n).ctl.sent.length
  let s := match ctl with
    | some a => modStream s n true fun t => t.acked s.now a
    | none => s
  let s := match data with
    | some a => modStream s n false fun t => t.acked s.now a
    | none => s
  rejoinAcked s n before

/-- Any block counts against silence, and brings credits (R395, R403, R407). -/
def noteHeard (s : State) (h : BlockHdr) : State :=
  modPeer s h.src fun p => { p with lastHeard := s.now, credits := p.credits + h.credit }

/-- A block of the pair's present session and epoch goes on; one of another epoch shows that the peer has reset; others
are discarded (R398, R407). -/
def ofPair (s : State) (h : BlockHdr) (f : State → State) : State :=
  let p := peerOf s h.src
  if !fromKnown s h ∨ !(connected s h.src || p.rejoinWait) then s
  else if h.epoch ≠ p.epoch then
    if connected s h.src then losePeer s h.src .reset Code.fabPeerReset else s
  else if h.session ≠ p.session then s
  else f (noteHeard s h)

/-- A link-control block. -/
def onLink (s : State) (h : BlockHdr) (data : Option Nat) (f : State → State) : State :=
  ofPair s h fun s => f (ackFrom s h data (some h.ack))

/-! ### The sequenced streams (R397, R398) -/

/-- An ACK at once, for a duplicate. -/
def ackDup (s : State) (n : Nat) : State :=
  if linkQueued s n fun m => match m with | .ack _ => true | _ => false then s else sendLink s n 0 (.ack 0)

/-- A NAK, at most one per microsecond and stream; whether it was sent. -/
def nakPeer (s : State) (n : Nat) (ctl : Bool) : Bool × State :=
  let due : Bool := match (streamOf s n ctl).lastNak with
    | some t => since s t (usec 1)
    | none => true
  if due then
    let s := modStream s n ctl fun t => { t with lastNak := some s.now }
    (true, sendLink (incReg s Reg.hnsNaks (pathPort s n)) n 0 (.nak ctl))
  else (false, s)

/-- The expected PSN advances, and an ACK is owed. -/
def advanced (s : State) (n : Nat) (ctl : Bool) (psn : Nat) : State :=
  let up (t : StreamSt) : StreamSt :=
    { t with expect := (psn + 1) % 2 ^ 32, ackDue := t.ackDue <|> some s.now }
  markActive (modStream s n ctl up) n

def takeSeq (s : State) (h : BlockHdr) (ctl : Bool) (f : State → State) : State :=
  let n := h.src
  let t := streamOf s n ctl
  if h.psn = t.expect then f (advanced s n ctl h.psn)
  else if psnBefore h.psn t.expect then ackDup s n
  else (nakPeer s n ctl).2

def onCtl (s : State) (h : BlockHdr) (f : State → State) : State :=
  ofPair s h fun s => takeSeq (ackFrom s h none (some h.ack)) h true f

def onData (s : State) (h : BlockHdr) (f : State → State) : State :=
  ofPair s h fun s => takeSeq (ackFrom s h (some h.ack) none) h false f

/-! ### Link-control blocks (R396, R399, R404, R405) -/

/-- Writes performed at the peer, by PERF (R405); commits that waited for them go on (R279). -/
def performedTo (s : State) (n perf : Nat) : State :=
  commitAll (modPeer s n fun p => { p with unperf := p.unperf.filter fun u => !psnBefore u.psn perf })

def execAck (h : BlockHdr) (s : State) : Host.Outcome State Fault Refusal :=
  .next (onLink s h (some h.psn) fun s => performedTo s h.src (h.addr % 2 ^ 32))

/-- The open slot toward a peer whose SCHED blocks a NAK has named takes no re-send of them (R403). -/
def barSlot (s : State) (port n : Nat) : State :=
  if (againRun s port (peerOf s n)).head?.any (needsSlot s port) then
    modPort s port fun q => { q with slot := q.slot.map fun o => { o with barred := o.barred || o.slot.dst == n } }
  else s

/-- A NAK: everything before the named PSN has arrived, and the stream is sent again from there (R399). -/
def doNak (s : State) (h : BlockHdr) : State :=
  let ctl := h.arg % 2 == 1
  let s := ackFrom s h (if ctl then none else some h.psn) (if ctl then some h.psn else none)
  if connected s h.src ∧ !(streamOf s h.src ctl).sent.isEmpty ∧ (peerOf s h.src).reroute.isNone then
    barSlot (resendFrom s h.src ctl h.psn) (pathPort s h.src) h.src
  else s

def execNak (h : BlockHdr) (s : State) : Host.Outcome State Fault Refusal :=
  .next (onLink s h none fun s => doNak s h)

def execHeartbeat (h : BlockHdr) (s : State) : Host.Outcome State Fault Refusal :=
  .next (onLink s h (some h.psn) fun s => s)

/-! ### Blocks that are bad (R396, R398) -/

def countBad (s : State) (port n : Nat) : State :=
  incReg s Reg.hnsBadblk port n

def portRuns (s : State) (port : Nat) : Bool := (portOf s port).link == .run

/-- The types of R396; every other is reserved. -/
def knownType (t : Nat) : Bool := decide (1 ≤ t ∧ t ≤ 4) || decide (0x10 ≤ t ∧ t ≤ 0x17) || decide (0x20 ≤ t ∧ t ≤ 0x2F)

def execReservedBlockType (h : BlockHdr) (typ : BitVec 8) (s : State) : Host.Outcome State Fault Refusal :=
  if portRuns s h.port && !knownType typ.toNat then .next (countBad s h.port 1) else .next s

/-- The block whose CRC fails, and the `rest` that follow it in its frame. -/
def execBlockCrcFail (port rest : Nat) (s : State) : Host.Outcome State Fault Refusal :=
  if portRuns s port then .next (countBad s port (1 + rest)) else .next s

/-! ### Tokens (R298, R304) -/

/-- Tokens whose data blocks have all been received stand behind those not yet performed. -/
def admitTokens (s : State) (n : Nat) : State :=
  let p := peerOf s n
  let now (t : InToken) : Bool := psnBefore t.psn p.data.expect
  let blk (t : InToken) : InBlk :=
    { hdr := { port := 0, cls := 0, shadow := false, src := n, dst := nodeId s, session := p.session, epoch := p.epoch,
               psn := p.data.expect, ack := 0, addr := 0, len := 0, tag := t.tag, req := 0, arg := 0, credit := 0 },
      msg := if t.commit then .commit t.psn else .discard t.psn, started := false }
  let due := p.tokens.filter now
  if due.isEmpty then s
  else modPeer s n fun p =>
    { p with tokens := p.tokens.filter fun t => !now t, ingress := p.ingress ++ due.map blk }

/-- What has arrived from a peer and may be performed now. -/
def settleIn (s : State) (n : Nat) : State := pumpPeer (admitTokens s n) n

def tokenIn (s : State) (h : BlockHdr) (commit : Bool) (psn : Nat) : State :=
  settleIn (modPeer s h.src fun p => { p with tokens := p.tokens ++ [⟨commit, h.tag, psn⟩] }) h.src

def execCommit (h : BlockHdr) (lastPsn : Nat) (s : State) : Host.Outcome State Fault Refusal :=
  .next (onCtl s h fun s => tokenIn s h true lastPsn)

/-- A DISCARD; ARG above 0 names the node, less 1, whose command's pairs a gang's leader gives back (R311). -/
def execDiscard (h : BlockHdr) (lastPsn : Nat) (s : State) : Host.Outcome State Fault Refusal :=
  .next (onCtl s h fun s =>
    if h.arg = 0 then tokenIn s h false lastPsn else discardForArrive s (h.arg - 1) h.tag)

/-! ### Writes, reducing writes, atomics (R396, R403, R405) -/

/-- Whole sectors within one 256-byte granule. -/
def granuleOk (h : BlockHdr) (n : Nat) : Bool :=
  decide (h.len = n ∧ n % 32 = 0 ∧ 0 < n ∧ h.addr % 32 = 0 ∧ h.addr % 256 + n ≤ 256)

/-- Bytes in a port's SCHED buffer (R403). -/
def schedUsed (s : State) (port : Nat) : Nat :=
  (s.fab.peers.map fun e =>
    ((e.2.ingress.filter fun b => b.hdr.port == port && b.hdr.cls == 1#2).map fun b => b.hdr.len).foldl (· + ·) 0).foldl (· + ·) 0

/-- An ordered block from a peer: a SCHED block needs room in the buffer, else it is NAKed (R403). -/
def orderedIn (s : State) (h : BlockHdr) (m : Msg) : State :=
  ofPair s h fun s =>
    let s := ackFrom s h (some h.ack) none
    if h.cls = 1#2 ∧ schedUsed s h.port + h.len > 1048576 ∧ h.psn = (streamOf s h.src false).expect then
      let r := nakPeer s h.src false
      if r.1 then incReg r.2 Reg.hnsSchovr h.port else r.2
    else
      takeSeq s h false fun s =>
        settleIn (modPeer s h.src fun p => { p with ingress := p.ingress ++ [⟨h, m, false⟩] }) h.src

def execWrite (h : BlockHdr) (data : List Byte) (s : State) : Host.Outcome State Fault Refusal :=
  if granuleOk h data.length then .next (orderedIn s h (.write data)) else .next s

def execWriteMasked (h : BlockHdr) (mask : BitVec 128) (data : List Byte) (s : State) :
    Host.Outcome State Fault Refusal :=
  if data.length = 128 ∧ h.len = 144 ∧ h.addr % 128 = 0 then .next (orderedIn s h (.writeMasked mask data)) else .next s

/-- The operations that REDUCE may carry (R396): ADD of the four types of R94. -/
def execReduce (h : BlockHdr) (data : List Byte) (s : State) : Host.Outcome State Fault Refusal :=
  if granuleOk h data.length && decide (h.arg % 16 ≤ 3) then .next (orderedIn s h (.reduce (h.arg % 16) data)) else .next s

def execAtomic (h : BlockHdr) (entries : List AtomEntry) (s : State) : Host.Outcome State Fault Refusal :=
  if decide (entries.length ≤ 10 ∧ h.arg % 16 ≤ 10 ∧ h.addr % 32 = 0)
      && entries.all (fun e => decide (e.off + aopSize (h.arg % 16) ≤ 32 ∧ e.off % aopSize (h.arg % 16) = 0)) then
    .next (orderedIn s h (.atomic (h.arg % 16) entries))
  else .next s

/-- A READ is served at the owning slice and passes the writes that wait (R402, R405). -/
def execRead (h : BlockHdr) (s : State) : Host.Outcome State Fault Refusal :=
  if granuleOk h h.len then .next (onData s h fun s => peerRead (settleIn s h.src) h) else .next s

/-! ### Responses (R407, R408) -/

/-- The request that a response answers in time. -/
def answered (s : State) (h : BlockHdr) : Option OutReq :=
  match mget (peerOf s h.src).outReqs h.req with
  | some r => match r.due with
    | some d => if s.now < d then some r else none
    | none => none
  | none => none

/-- A request answered: its slot is free, and a SUSPECT peer is UP again (R407). -/
def closeReq (s : State) (h : BlockHdr) : State :=
  modPeer s h.src fun p =>
    { p with outReqs := mdel p.outReqs h.req, timeouts := 0, state := if p.state = .suspect then .up else p.state }

/-- A response, or a late one, which is discarded and counted (R408). -/
def onResponse (s : State) (h : BlockHdr) (f : State → OutReq → State) : State :=
  onData s h fun s =>
    let s := settleIn s h.src
    match answered s h with
    | some r => f (closeReq s h) r
    | none => incReg s Reg.hnsLate h.port

def readBack (s : State) (data : List Byte) (r : OutReq) : State :=
  match r.what with
  | .line id =>
    match mget s.ms.reqs id with
    | some q =>
      let s := chargeFab s (some q.cmd) data.length
      readyReq s id q (hostLine q data)
    | none => s
  | .atoms _ => s

def execReadResp (h : BlockHdr) (data : List Byte) (s : State) : Host.Outcome State Fault Refusal :=
  .next (onResponse s h fun s r => readBack s data r)

/-- Old values to the lanes; a compare-and-swap wrote where its comparand stood (R94, R99). -/
def atomsBack (s : State) (olds : List DWord) (r : OutReq) : State :=
  match r.what with
  | .atoms ids =>
    let s := chargeFab s (some r.cmd) (8 * olds.length)
    (ids.zip olds).foldl (fun s e =>
      match mget s.ms.atoms e.1 with
      | some a => atomDone s e.1 e.2 (a.op != 10 || e.2 == a.cmp)
      | none => s) s
  | .line _ => s

def execAtomicResp (h : BlockHdr) (olds : List DWord) (s : State) : Host.Outcome State Fault Refusal :=
  .next (onResponse s h fun s r => atomsBack s olds r)

/-- The address that a request's atomics or line name at the peer. -/
def reqAddr (s : State) (r : OutReq) : Nat :=
  let num (t : Tgt) : Nat := match t with | .fab _ _ a => a | _ => 0
  match r.what with
  | .line id => match mget s.ms.reqs id with | some q => num q.line | none => 0
  | .atoms ids => match ids.head?.bind fun i => mget s.ms.atoms i with | some a => num a.tgt | none => 0

/-- A refused request ends its command with the carried code; a busy pair is a case of its own (R295, R406). -/
def refusedCmd (s : State) (h : BlockHdr) (cmd addr : Nat) : State :=
  let s := hnsLatch s h.port h.src h.arg
  if h.arg = Code.commitFrameBusy then busyEnd s cmd ⟨h.src, addr / 65536, false⟩
  else failCmdAt s cmd h.arg (pgHNS h.port) addr h.src

/-- REFUSED, by the PSN it carries: of a READ or an ATOMIC, or of a write. -/
def doRefused (s : State) (h : BlockHdr) : State :=
  let psn := h.addr % 2 ^ 32
  let p := peerOf s h.src
  match p.unperf.find? fun u => u.psn == psn with
  | some u =>
    let s := modPeer s h.src fun p => { p with unperf := p.unperf.filter fun x => x.psn != psn }
    match u.blk.cmd with
    | some i => refusedCmd s h i u.blk.addr
    | none => s
  | none =>
    match answered s h with
    | some r => if r.psn = some psn then refusedCmd (closeReq s h) h r.cmd (reqAddr s r) else s
    | none => incReg s Reg.hnsLate h.port

def execRefused (h : BlockHdr) (s : State) : Host.Outcome State Fault Refusal :=
  .next (onData s h fun s => doRefused (settleIn s h.src) h)

/-! ### Verification (R391, R392, R486) -/

/-- A pair that fails a check (R392, R407): what waits for it ends; a DIRECT port carries nothing more. -/
def rejectPeer (s : State) (n : Nat) : State :=
  let p := peerOf s n
  let port := pathPort s n
  let s := modPeer s n fun p => { p with state := .rejected, heard := none, waitingSend := [] }
  let ids := ((p.waitingSend.filterMap Blk.cmd)
    ++ (s.cmds.filter fun e => e.2.asked.any fun k => k.node == n).map Prod.fst).eraseDups
  let s := ids.foldl (fun s i => failCmdAt s i Code.fabPeerRejected (pgHNS port) 0 n) s
  let s := hnsLatch s port n Code.fabPeerRejected
  let direct : Bool := match s.fab.topo with
    | some t => (t.planes.getD port 0#8).getLsbD 7
    | none => false
  if direct then modPort s port fun q => { q with link := .fault } else s

/-- The path that a peer reports is this module's primary or alternate one (R387, R388, R392). -/
def pathAgrees (s : State) (n : Nat) (a : Announce) : Bool :=
  let on (alt : Bool) : Bool :=
    a.port == reachedPort s n alt && a.reached == portFor s n alt
      && (s.fab.topo.any fun t => (planeOf t (portFor s n alt)).toNat % 128 == a.plane)
  on false || (hasAlt s n && on true)

/-- The announcement in a peer's block agrees with this module's table: its key, its path (R392). -/
def tableAgrees (s : State) (h : BlockHdr) (a : Announce) : Bool :=
  pathAgrees s h.src a && (topoEntry s h.src).any fun e => e.keyhash == sha3 a.key

/-- The hash of an announcement, which REJOIN carries (R412). -/
def announceHash (key : List Byte) (nonce : Nat) : Nat := sha3 (key ++ leBytes 32 nonce)

/-- A peer's new announcement shows that it has cold-booted (R301, R486): its FAB leaves and the references it held go, and
its HELD pairs are discarded. -/
def peerColdBooted (s : State) (n : Nat) : State :=
  let s := if connected s n then losePeer s n .reset Code.fabPeerReset else s
  let s := discardHeld s n
  let names (l : Leaf) : Bool := match l.back with
    | .fab m _ _ => m == n
    | _ => false
  let strip (c : Context) : Context :=
    { c with leaves := c.leaves.filter fun l => !names l, maps := c.maps.filter fun m => m.remote != some n }
  let contexts := s.obj.contexts.map fun e => (e.1, strip e.2)
  let mapReqs := s.obj.mapReqs.filter fun q => q.node != n || !q.late
  let cached (t : Trans) : Bool := match t.back with
    | .inl (.fab m _ _) => m == n
    | _ => false
  let cache := s.xlt.cache.filter fun t => !cached t
  let s := { s with obj := { s.obj with contexts, mapReqs }, xlt := { s.xlt with cache } }
  let gs := s.obj.grants.filter fun g => g.node == n
  let s := gs.foldl (fun s g => refDec s g.handle) s
  let s := { s with obj := { s.obj with grants := s.obj.grants.filter fun g => g.node != n } }
  modPeer s n fun p => { p with state := .unverified, verified := none, told := false, releases := [], discardedTags := [],
                                ctl := .fresh, data := .fresh, session := 0, rejoinWait := false }

/-- An announcement: checked against the table, its signature then under way, and answered with this module's own, each time it comes. -/
def doAnnouncement (s : State) (h : BlockHdr) (a : Announce) : State :=
  let n := h.src
  let p := peerOf s n
  let hash := announceHash a.key a.nonce
  if p.verified = some hash ∨ (p.heard = some hash ∧ p.state = .unverified) then sendAnnounce s n
  else
    let s := if p.verified.isSome ∨ p.state = .rejected then peerColdBooted s n else s
    let s := modPeer s n fun p => { p with epoch := h.epoch, credits := h.credit, lastHeard := s.now }
    if tableAgrees s h a then announceTo (modPeer s n fun p => { p with heard := some hash }) n
    else rejectPeer s n

def execAnnouncement (h : BlockHdr) (a : Announce) (s : State) : Host.Outcome State Fault Refusal :=
  if fromKnown s h then .next (doAnnouncement s h a) else .next s

/-- The signature check ends, and the pair is verified or rejected. -/
def doVerified (s : State) (n : Nat) (ok : Bool) : State :=
  if !ok then rejectPeer s n
  else
    let s := modPeer s n fun p =>
      { p with verified := p.heard, heard := none, session := 0, ctl := .fresh, data := .fresh, active := false }
    peerUp s n

def execPeerVerified (node : Nat) (ok : Bool) (s : State) : Host.Outcome State Fault Refusal :=
  if (peerOf s node).state = .unverified ∧ (peerOf s node).heard.isSome then .next (doVerified s node ok) else .next s

/-! ### RESET and REJOIN (R407, R412, R413) -/

def execReset (h : BlockHdr) (s : State) : Host.Outcome State Fault Refusal :=
  .next (onCtl s h fun s => losePeer s h.src .reset Code.fabPeerReset)

/-- Tokens of this module that a peer has not answered are sent again, and GO for gangs past their commit point (R300–R302,
R314); REJOIN_END follows them (R413). -/
def resendTokens (s : State) (n : Nat) : State :=
  let s := s.com.recs.foldl (fun s r =>
    match aget r.2.dests n with
    | some .queued | some (.sent _) | some .lost =>
      sendCtlAlways s n r.1 (if r.2.commit then .commit 0 else .discard 0)
    | _ => s) s
  let s := s.com.gangs.foldl (fun s g =>
    if g.2.phase = .go ∧ g.2.leader = nodeId s ∧ (g.2.arrived.any fun a => a.1 == n) then
      sendCtlAlways s n 0 (.gangGo g.1)
    else s) s
  sendCtlAlways s n 0 .rejoinEnd

/-- REJOIN accepted (R413): the session advances, the streams start anew, REJOIN_ACK names the tags discarded here. -/
def acceptRejoin (s : State) (h : BlockHdr) : State :=
  let n := h.src
  let s := if connected s n then losePeer s n .reset Code.fabPeerReset else s
  let tags := (peerOf s n).discardedTags
  let s := modPeer s n fun p =>
    { p with session := (p.session + 1) % 16, ctl := .fresh, data := .fresh, epoch := h.epoch, rejoinWait := true,
             credits := h.credit, granted := 0, lastHeard := s.now, discardedTags := [] }
  resendTokens (sendCtlAlways s n 0 (.rejoinAck tags)) n

/-- REJOIN of a peer whose announcement this module does not know: it is verified first, and its HELD pairs are
discarded (R301, R413). -/
def rejoinUnknown (s : State) (n : Nat) : State :=
  announceTo (peerColdBooted s n) n

def doRejoin (s : State) (h : BlockHdr) (hash : Nat) : State :=
  let p := peerOf s h.src
  if p.state = .rejected then s
  else if p.verified = some hash then
    acceptRejoin s h
  else rejoinUnknown s h.src

def execRejoin (h : BlockHdr) (announceHash _topoHash : Nat) (s : State) : Host.Outcome State Fault Refusal :=
  if fromKnown s h then .next (doRejoin s h announceHash) else .next s

/-- Tags that the peer discarded: those committed here are logged as expired, and their records close (R302, R303). -/
def tagsExpired (s : State) (n : Nat) (tags : List Nat) : State :=
  tags.foldl (fun s t =>
    match mget s.com.recs t, destSt s t n with
    | some r, some d =>
      if d = .acked ∨ d = .expired then s
      else
        let s := if r.commit then logPeer (commitLose s t) Code.commitExpired pgSCH n t else s
        closeRecord (setDest s t n .expired) t
    | _, _ => s) s

/-- This module, after its warm reset, is answered (R413). -/
def doRejoinAck (s : State) (h : BlockHdr) (tags : List Nat) : State :=
  let n := h.src
  let s := modPeer s n fun p =>
    let ctl := { StreamSt.fresh with expect := 1, ackDue := some s.now }
    { p with session := h.session, epoch := h.epoch, ctl, data := .fresh, credits := h.credit, wasActive := false }
  let s := tagsExpired s n tags
  peerUp (markActive (resendTokens s n) n) n

def rejoining (s : State) (n : Nat) : Bool := (peerOf s n).state == .reset && (peerOf s n).wasActive

def execRejoinAck (h : BlockHdr) (discarded : List Nat) (s : State) : Host.Outcome State Fault Refusal :=
  if fromKnown s h && rejoining s h.src then .next (doRejoinAck s h discarded) else .next s

/-- The tokens of the peer's REJOIN have all come: pairs still HELD for it are discarded; a gang whose leader it is and that
had no GO ends (R301, R302, R313, R413). -/
def doRejoinEnd (s : State) (n : Nat) : State :=
  let s := discardHeld s n
  s.com.gangs.foldl (fun s g =>
    if g.2.leader = n ∧ g.2.phase = .started ∧ (g.2.members.any fun i => (cmdOf s i).any fun c => c.heldFor.any fun f => f.1 == n)
    then settled (endGangLocal s g.1 Code.fabPeerReset true) else s) s

def execRejoinEnd (h : BlockHdr) (s : State) : Host.Outcome State Fault Refusal :=
  .next (onCtl s h fun s => doRejoinEnd s h.src)

/-- REROUTE arrives on the path that the pair is to use (R410). -/
def execReroute (h : BlockHdr) (s : State) : Host.Outcome State Fault Refusal :=
  .next (onCtl s h fun s =>
    if h.port = pathPort s h.src then s else startReroute s h.src (!(peerOf s h.src).onAlt))

/-! ### Claims and gangs (R291, R292, R309–R314) -/

/-- A claim granted: by another module to the command or the gang that waits for it (R292, R310); a grant that no one awaits any more has
no effect. -/
def claimGranted (s : State) (h : BlockHdr) (i : Nat) : State :=
  match cmdOf s i with
  | none => s
  | some c =>
    if c.d.isGang then
      match mget s.com.gangs c.d.gangId with
      | some g =>
        match gangNext g with
        | some k => if g.asked ∧ k.claim.node = h.src ∧ k.tag = h.tag then gangGot s c.d.gangId k else s
        | none => s
      | none => s
    else
      match c.asked with
      | some k => if k.node = h.src ∧ c.tag = some h.tag then gotClaim s i k else s
      | none => s

/-- PAIR_ACQUIRE: the command's next pair, or the grant of one by the module that holds it. -/
def execPairAcquire (cmd : Nat) (h : Option BlockHdr) (s : State) : Host.Outcome State Fault Refusal :=
  match h with
  | some h => .next (onCtl s h fun s => claimGranted s h cmd)
  | none => if pairAcquireReady s cmd then .next (doPairAcquire s cmd) else .next s

/-- A destination acknowledges a COMMIT token (R297, R303). -/
def execCommitAck (h : BlockHdr) (s : State) : Host.Outcome State Fault Refusal :=
  .next (onCtl s h fun s => if commitAckReady s h.tag h.src then doCommitAck s h.tag h.src else s)

/-- A destination acknowledges a DISCARD token (R290, R304). -/
def execDiscardAck (h : BlockHdr) (s : State) : Host.Outcome State Fault Refusal :=
  .next (onCtl s h fun s => if discardAckReady s h.tag h.src then closeRecord (setDest s h.tag h.src .acked) h.tag else s)

def execClaim (h : BlockHdr) (c : ClaimReq) (s : State) : Host.Outcome State Fault Refusal :=
  .next (onCtl s h fun s => claimArrive s h.src c)

/-- ARRIVED of a member at its leader; ARG[0] says that its writes let the gang be replayed (R310, R313). -/
def execGangArrived (h : BlockHdr) (gang members leader wait : Nat) (claims : List Claim) (chans : List (Nat × Nat)) (s : State) :
    Host.Outcome State Fault Refusal :=
  .next (onCtl s h fun s => gangArrive s gang h.src h.tag members leader wait claims (h.arg % 2 == 1) chans none)

/-- A gang that another module leads and that has members here. -/
def ledBy (s : State) (gang n : Nat) : Option Gang :=
  match mget s.com.gangs gang with
  | some g => if g.leader = n ∧ n ≠ nodeId s then some g else none
  | none => none

/-- The start grant: the gang's CHANNEL objects here are zero-filled, and its members here may start (R310). -/
def doGangStart (s : State) (h : BlockHdr) (gang : Nat) (chans : List (Nat × Nat)) : State :=
  let s := zeroChannels s chans
  match ledBy s gang h.src with
  | some g => if g.phase = .gathering then startMembers s gang (h.arg % 2 == 1) chans else s
  | none => s

def execGangStart (h : BlockHdr) (gang : Nat) (chans : List (Nat × Nat)) (s : State) : Host.Outcome State Fault Refusal :=
  .next (onCtl s h fun s => doGangStart s h gang chans)

/-- READY of a member at the leader; with the last of them the gang passes its commit point (R312). -/
def execGangReady (h : BlockHdr) (gang : Nat) (s : State) : Host.Outcome State Fault Refusal :=
  .next (onCtl s h fun s =>
    let s := gangReadyAt s gang h.src h.tag
    if s.com.gangGo.contains gang then gangCommitLocal s gang else s)

/-- GANG_END from the leader, or from a member's module to the leader (R311, R313). -/
def execGangEnd (h : BlockHdr) (gang code : Nat) (s : State) : Host.Outcome State Fault Refusal :=
  .next (onCtl s h fun s => if gangLive s gang then doGangEnd s gang code else s)

/-- GO: the members here pass their own commit points (R312). -/
def execGangGo (h : BlockHdr) (gang : Nat) (s : State) : Host.Outcome State Fault Refusal :=
  .next (onCtl s h fun s =>
    match ledBy s gang h.src with
    | some g =>
      if g.phase = .started then
        let s := modGang s gang fun g => { g with phase := .go }
        gangCommitLocal { s with com := { s.com with gangGo := gang :: s.com.gangGo } } gang
      else s
    | none => s)

/-! ### Remote mappings (R485, R486) -/

def execMapRequest (h : BlockHdr) (tenant ctx : Nat) (handle : DWord) (offset length kind : Nat) (w : Bool) (s : State) :
    Host.Outcome State Fault Refusal :=
  .next (onCtl s h fun s =>
    let r := mapGrant s h.src tenant ctx handle offset length kind w
    sendCtl r.2 h.src 0 (.mapAnswer r.1.ok r.1.reason r.1.base))

def execMapAnswer (h : BlockHdr) (grant : MapGrant) (s : State) : Host.Outcome State Fault Refusal :=
  .next (onCtl s h fun s => doMapAnswer s h.src grant)

def execMapRelease (h : BlockHdr) (ctx : Nat) (handle : DWord) (s : State) : Host.Outcome State Fault Refusal :=
  .next (onCtl s h fun s => doMapRelease s h.src ctx handle)

/-! ### The topology table (R387–R390, R417) -/

/-- A port is unused by the table. -/
def portUnused (t : TopoTable) (p : Nat) : Bool := (planeOf t p).toNat % 128 == 127

/-- Every HNS page reads OFF or IDLE in PG_STAT (R390): a port that the part lacks reads OFF, one whose halt is reached HALT. -/
def portsQuiet (s : State) : Bool :=
  (List.range 16).all fun p => !s.boot.portMask.testBit p ||
    (!haltIsReached s (pgHNS p) && match (portOf s p).link with
      | .off | .idle => true
      | _ => false)

/-- CFG_BUSY_WRITE on a page (R469). -/
def busyWrite (s : State) (page : Nat) : State :=
  let s := setRaw s (hPgStat page) (rawReg s (hPgStat page) 0 % 2 ^ 31 + 2 ^ 31)
  logOnly (pgErr s page Code.cfgBusyWrite) Code.cfgBusyWrite page

/-- HNS_TOPO_CTL written: LOAD starts the reading of the table through the aperture (R389, R390). -/
def doTopoLoad (s : State) (v : Nat) : State :=
  if v % 2 = 0 then s
  else if !portsQuiet s then busyWrite s (pgHNS 0)
  else
    let s := { s with fab := { s.fab with topoSt := .loading } }
    hostRead s 0 (reg s Reg.hnsTopoBase) (reg s Reg.hnsTopoLen)

def execTopoLoad (tenant : Nat) (value : Word) (s : State) : Host.Outcome State Fault Refusal :=
  .next (mgmtWrite s tenant (.write Reg.hnsTopoCtl.base 4 (value.setWidth 64)) fun s => doTopoLoad s value.toNat)

/-- Entries in strictly ascending order of NODE. -/
def ascending : List TopoEntry → Bool
  | a :: b :: t => decide (a.node < b.node) && ascending (b :: t)
  | _ => true

/-- The ports that an entry's paths name. -/
def entryPorts (e : TopoEntry) : List Nat :=
  (e.pri.toNat % 16) :: (if e.alt = 0xFF#8 then [] else [e.alt.toNat % 16])

/-- A PRI or ALT that R389 REASON 5 rejects. -/
def badPath (s : State) (t : TopoTable) (e : TopoEntry) : Bool :=
  (entryPorts e).any fun p =>
    portUnused t p || !s.boot.portMask.testBit p
      || ((planeOf t p).getLsbD 7 && t.entries.any fun x => x.node != e.node && x.node != t.self && (entryPorts x).contains p)

/-- The first failure of R389's list. -/
def topoReason (s : State) (t : TopoTable) : Option Nat :=
  let others := t.entries.filter fun e => e.node != t.self
  if reg s Reg.hnsTopoLen ≠ 64 + 48 * t.count ∨ t.count < 1 ∨ t.count > 65536 ∨ t.entries.length ≠ t.count then some 1
  else if !ascending t.entries then some 2
  else if !(t.entries.any fun e => e.node == t.self && e.keyhash == s.boot.idHash) then some 3
  else if t.rsv ∨ t.entries.any (fun e => e.rsv) then some 4
  else if others.any (badPath s t) then some 5
  else if !(t.entries.any fun e => e.node == t.timeRoot) then some 6
  else none

/-- The ports of a loaded table: those the part lacks or the table marks unused read OFF. -/
def portsFor (s : State) (t : TopoTable) : State :=
  (List.range 16).foldl (fun s p =>
    modPort s p fun q => { q with link := if portUnused t p ∨ !s.boot.portMask.testBit p then .off else .idle }) s

/-- HNS_TOPO_LEN is the length of no table, so that REASON 1 comes before any reading. -/
def badTopoLen (s : State) : Bool :=
  let n := reg s Reg.hnsTopoLen
  decide (n < 64 + 48 ∨ 64 + 48 * 65536 < n ∨ (n - 64) % 48 ≠ 0)

/-- The end of the reading: rejected with a reason and logged, or loaded (R389). -/
def doTopoLoadDone (s : State) (image : Option (List Byte)) : State :=
  let reject (r : Nat) : State :=
    logOnly (pgErr { s with fab := { s.fab with topoSt := .rejected r } } (pgHNS 0) Code.fabTopoInvalid)
      Code.fabTopoInvalid (pgHNS 0)
  if badTopoLen s then reject 1
  else
  match image with
  | none => reject 7
  | some b =>
    if !inAperture s (reg s Reg.hnsTopoBase) (reg s Reg.hnsTopoLen) then reject 7
    else
      let t := parseTopo b
      match topoReason s t with
      | some r => reject r
      | none =>
        let s := portsFor { s with fab := { s.fab with topo := some t, topoSt := .loaded } } t
        rewriteTable (setReg s Reg.hnsTopoVer 0 t.version)

def execTopoLoadDone (image : Option (List Byte)) (s : State) : Host.Outcome State Fault Refusal :=
  if s.fab.topoSt = .loading then .next (doTopoLoadDone s image) else .next s

end Sys2Proof.Machine
end

