-- ==== Sys2Proof/Machine/FtEvents.lean ====
section
/-! DEFINITION. The events against FT (11): which are due, and the order of those with the same instant (R432, R433).
Assumption log: DEDUCED 66, 138. -/

namespace Sys2Proof.Machine

/-! ### Calendar switches (R435, R439) -/

/-- An install reaches its instant. -/
def installDue (s : State) : Bool :=
  decide (s.ftm.cal.at_ ≤ ftNs s) &&
  match s.ftm.cal.st with
  | .pending | .loading => true
  | _ => false

/-- The refused install whose ports are next to be emptied: its instant has come, and no earlier install is due. -/
def emptyDue (s : State) : Option (Nat × BitVec 16) :=
  s.ftm.empties.find? fun e => decide (e.1 ≤ ftNs s) && (s.ftm.empties.all fun x => decide (e.1 ≤ x.1))
    && (!installDue s || decide (e.1 ≤ s.ftm.cal.at_))

def calSwitchDue (s : State) : Bool := installDue s || (emptyDue s).isSome

/-- The instant of the calendar switch that is due. -/
def switchAt (s : State) : Option Nat :=
  match emptyDue s with
  | some e => some e.1
  | none => if installDue s then some s.ftm.cal.at_ else none

/-! ### Slots (R437, R441) -/

/-- The last slot that has started at a place in the frame, with the end of each. -/
def slotAt (frame pos : Nat) : List CalSlot → Option (CalSlot × Nat)
  | [] => none
  | e :: t =>
    let stop := match t with
      | n :: _ => n.offset
      | [] => frame
    if pos < e.offset then none else (slotAt frame pos t) <|> some (e, stop)

/-- The slot of a port's calendar that has started, with its start and its end in FT. -/
def currentSlot (s : State) (port : Nat) : Option OpenSlot :=
  let p := portOf s port
  let t := ftNs s
  if !calendarsRun s ∨ p.calFrame = 0 ∨ t < p.calStart then none
  else
    let pos := (t - p.calStart) % p.calFrame
    match slotAt p.calFrame pos p.calendar with
    | some (e, stop) => some { slot := e, start := t - pos + e.offset, stop := t - pos + stop, used := 0, barred := false }
    | none => none

/-- The slot that has started and is not yet open. -/
def slotDue (s : State) (port : Nat) : Option OpenSlot :=
  match currentSlot s port with
  | some o => if (portOf s port).slot.any fun x => x.start == o.start then none else some o
  | none => none

/-! ### Accounting snapshots (R432, R542) -/

/-- The latest snapshot instant that FT has reached. -/
def snapInstant (s : State) : Nat :=
  let p := 1000 * clampTo 100 1000000 (reg s Reg.ftmAccPeriod)
  ftNs s / p * p

def snapDue (s : State) : Bool := s.ftm.running && decide (s.srv.snapFt < snapInstant s)

/-! ### Steps of the sequence engine (R533) -/

/-- The module has a sequence engine (R580). -/
def seqPresent (s : State) : Bool := s.boot.features % 2 == 1

/-- The step whose instant FT has reached last. -/
def stepNow (s : State) : Option Nat :=
  if ftNs s < reg s Reg.seqEpoch then none else some ((ftNs s - reg s Reg.seqEpoch) / (reg s Reg.seqPeriod * 1000))

def stepInstant (s : State) (k : Nat) : Nat := reg s Reg.seqEpoch + k * (reg s Reg.seqPeriod * 1000)

/-- The engine works and the instant of a step has come that it has not taken. -/
def stepReached (s : State) : Option Nat :=
  match stepNow s with
  | some k =>
    if seqPresent s ∧ s.boot.ready ∧ s.ftm.running ∧ !pgHalted s pgSEQ ∧ s.srv.nextStep ≤ k then some k else none
  | none => none

/-! ### Not-before releases (R434) -/

/-- FT has reached the not-before instant of a command not yet dispatched. -/
def notBeforeReached (s : State) (c : Cmd) : Bool :=
  c.undispatched && c.d.notBefore != 0 && !c.released && decide (c.d.notBefore ≤ ftNs s)

/-- Where a command stands in its queue. -/
def queueSpot (s : State) (i : Nat) (c : Cmd) : Nat :=
  ((mget s.obj.queues c.queue).bind fun q => q.order.idxOf? i).getD 0

/-- Queue order (R518): the class, then the queue, then the place in it. -/
def queueBefore (s : State) (a b : Nat × Cmd) : Bool :=
  if a.2.cls ≠ b.2.cls then decide (a.2.cls < b.2.cls)
  else if a.2.queue ≠ b.2.queue then decide (a.2.queue < b.2.queue)
  else decide (queueSpot s a.1 a.2 < queueSpot s b.1 b.2)

/-! ### The order of events with the same instant (R433) -/

/-- An event of the instant `t` that stands above row `rank` of R432 is due: the calendar switch is row 0, then slot starts, the
snapshot, the step, not-before releases, the hand-off. -/
def ftBefore (s : State) (rank t : Nat) : Bool :=
  (decide (0 < rank) && switchAt s == some t)
  || (decide (1 < rank) && s.fab.ports.any fun p => (slotDue s p.1).any fun o => o.start == t)
  || (decide (2 < rank) && snapDue s && snapInstant s == t)
  || (decide (3 < rank) && (stepReached s).any fun k => stepInstant s k == t)
  || (decide (4 < rank) && s.cmds.any fun e => notBeforeReached s e.2 && e.2.d.notBefore == t)

/-- A step is due (R533). -/
def stepDue (s : State) : Option Nat := (stepReached s).filter fun k => !ftBefore s 3 (stepInstant s k)

/-- A command is released at its not-before instant, after those of the same instant that precede it. -/
def notBeforeDue (s : State) (i : Nat) : Bool :=
  match cmdOf s i with
  | some c => notBeforeReached s c && !ftBefore s 4 c.d.notBefore
      && !(s.cmds.any fun e => notBeforeReached s e.2 && e.2.d.notBefore == c.d.notBefore && queueBefore s e (i, c))
  | none => false

end Sys2Proof.Machine
end

