-- ==== Sys2Proof/Machine/FabricTime.lean ====
section
/-! DEFINITION. Fabric time and calendars (11): the FT counter, the time tree, the servo, the root's grandmaster, the
install and the slots of calendars, accounting snapshots.
Assumption log: DESIGN CHOICE 2, 64; DEDUCED 65, 66, 79, 114. -/

namespace Sys2Proof.Machine

/-! ### The counter (R420) -/

/-- FT in units of 2⁻¹⁶ ns. -/
def ft16 (s : State) : Nat := s.ftm.q / 18000000000000

/-- FT moved back by θ, given in units of 2⁻¹⁷ ns. -/
def stepFt (s : State) (theta : Int) : State :=
  { s with ftm := { s.ftm with q := ((s.ftm.q : Int) - theta * 9000000000000).toNat } }

def modFtm (s : State) (f : Ftm → Ftm) : State := { s with ftm := f s.ftm }

/-! ### The time tree (R424, R425) -/

/-- The distance d of R424 of a node. -/
def treeDist (t : TopoTable) (n : Nat) : Option Nat :=
  let idx (k : Nat) : Option Nat := (t.entries.map TopoEntry.node).idxOf? k
  match idx n, idx t.timeRoot with
  | some i, some r => some ((i + t.count - r) % t.count)
  | _, _ => none

/-- The node at a distance from the root. -/
def treeNode (t : TopoTable) (d : Nat) : Nat :=
  match (t.entries.map TopoEntry.node).idxOf? t.timeRoot with
  | some r => match t.entries[(r + d) % t.count]? with
    | some e => e.node
    | none => t.timeRoot
  | none => t.timeRoot

/-- The time parent and its ancestors up to the root, from distance `d` on. -/
def treeUp (t : TopoTable) : Nat → Nat → List Nat
  | 0, _ => []
  | fuel + 1, d => if d = 0 then [] else treeNode t ((d - 1) / 16) :: treeUp t fuel ((d - 1) / 16)

/-- The modules above this one in the tree, the time parent first. -/
def ancestors (s : State) : List Nat :=
  match s.fab.topo with
  | some t => match treeDist t t.self with
    | some d => treeUp t 5 d
    | none => []
  | none => []

/-- This module's level in the tree. -/
def treeDepth (s : State) : Nat := (ancestors s).length

/-- This module is the time root. -/
def isRoot (s : State) : Bool := s.fab.topo.any fun t => t.self == t.timeRoot

/-- The time parent, and the source (R425). -/
def timeParent (s : State) : Option Nat := (ancestors s).head?
def timeSource (s : State) : Option Nat := (ancestors s)[s.ftm.anc]?

/-! ### The servo (R423, R427) -/

/-- The exchange with the smallest L of those kept. -/
def bestOf : List (Int × Int) → Option (Int × Int)
  | [] => none
  | x :: t => match bestOf t with
    | some y => if y.2 < x.2 then some y else some x
    | none => some x

/-- The rate that corrects an offset: against its sign, at most 100 ppm; how fast is left open. -/
def slewRate (s : State) (theta : Int) : Int × State :=
  if theta = 0 then (0, s)
  else
    let m : Int := (Config.freeWord s.free).toNat % 100000001
    (if theta > 0 then -m else m, { s with free := s.free + 1 })

/-- An exchange taken into account: offset, delay and rate follow the best of the last 16. -/
def servo (s : State) (theta link : Int) : State :=
  let hist := ((theta, link) :: s.ftm.hist).take 16
  let best := (bestOf hist).getD (theta, link)
  let r := slewRate s best.1
  modFtm r.2 fun f => { f with hist, offset := best.1, pathDly := best.2, rate := r.1 }

/-- FT stepped to the source's time (R423). -/
def stepTo (s : State) (theta : Int) : State :=
  modFtm (stepFt s theta) fun f => { f with stepped := true, hist := [], offset := 0, rate := 0 }

/-- 1 ms in units of 2⁻¹⁷ ns. -/
def oneMs : Int := 131072000000

/-- A successful exchange with the source (R422, R423, R427). -/
def exchangeOk (s : State) (theta link : Int) : State :=
  match s.ftm.state with
  | .acquiring =>
    if !s.ftm.stepped ∧ theta ≠ 0 then modFtm (stepTo s theta) fun f => { f with streak := 0 }
    else
      let s := modFtm (servo s theta link) fun f => { f with stepped := true, streak := f.streak + 1 }
      if s.ftm.streak ≥ 16 then modFtm s fun f => { f with state := .locked, everLocked := true } else s
  | .locked => modFtm (servo s theta link) fun f => { f with streak := f.streak + 1 }
  | .holdover | .lost =>
    if theta > oneMs ∨ theta < -oneMs then
      let s := modFtm (stepTo s theta) fun f => { f with state := .acquiring, streak := 0 }
      logOnly (pgErr s pgFTM Code.fabTimeStepped) Code.fabTimeStepped pgFTM
    else modFtm (servo s theta link) fun f => { f with state := .locked, everLocked := true, streak := f.streak + 1 }

/-! ### Requests and responses (R425–R427) -/

def ftCode : FtState → Nat
  | .acquiring => 0
  | .locked => 1
  | .holdover => 2
  | .lost => 3

/-- The IEEE 1588 domain of TIME messages (R447). -/
def fabDomain (s : State) : Nat := bitsOf (reg s Reg.ftmPtpcfg) 23 16

/-- A TIME block leaves alone, on the pair's current path: a request in a Delay_Req, a response in a Sync, whose departure the
message carries (R426). -/
def sendTime (s : State) (n : Nat) (sync : Bool) (m : Msg) : State :=
  let s := regSafePoint s pgFTM Reg.ftmPtpcfg
  let port := pathPort s n
  let w := onWire s 0 0 { ctlBlk n 0 m with psn := (peerOf s n).data.expect }
  let s := emit s (.timeMsg port n (fabDomain s) sync (if sync then ft16 s else 0) (etherHead s port n 7 0x88F7) w.octets)
  modPeer s n fun p => { p with lastSent := s.now }

/-- One request to a module, which is UP; the first use of a pair verifies it (R392). -/
def askTime (s : State) (n : Nat) : State :=
  match (peerOf s n).state with
  | .up | .suspect =>
    if (portOf s (pathPort s n)).link = .run then
      let q := s.ftm.seq
      let t1 := ft16 s
      let o : TimeOut := { seq := q, node := n, t1, sent := s.now }
      sendTime (modFtm s fun f => { f with seq := (q + 1) % 2 ^ 32, outs := f.outs ++ [o] }) n false
        (.timeReq (treeDepth s) (ftCode s.ftm.state) q t1)
    else s
  | .unverified => announceTo s n
  | _ => s

def timeRequestDue (s : State) : Bool :=
  s.ftm.running && s.fab.topo.isSome && !isRoot s && since s s.ftm.lastReq (usec 1)

/-- The request to the source, and to the parent while another module is the source. -/
def doTimeRequests (s : State) : State :=
  let s := modFtm s fun f => { f with lastReq := s.now }
  let s := match timeSource s with
    | some n => askTime s n
    | none => s
  if s.ftm.anc = 0 then s
  else match timeParent s with
    | some n => askTime s n
    | none => s

def execTimeRequestTimer (s : State) : Host.Outcome State Fault Refusal :=
  if timeRequestDue s then .next (doTimeRequests s) else .next s

/-- A request is answered at once: T2 is its arrival, T3 the departure of the answer. -/
def execTimeRequest (h : BlockHdr) (seq t1 creq : Nat) (s : State) : Host.Outcome State Fault Refusal :=
  if s.ftm.running then
    .next (onLink s h (some h.psn) fun s =>
      sendTime s h.src true (.timeResp (treeDepth s) (ftCode s.ftm.state) seq t1 (ft16 s) (ft16 s) creq))
  else .next s

/-- The next ancestor becomes the source (R425). -/
def nextSource (s : State) : State :=
  if s.ftm.anc + 1 < (ancestors s).length then
    modFtm s fun f => { f with anc := f.anc + 1, srcSince := s.now, streak := 0, parentRun := 0, hist := [] }
  else s

/-- An answer of the parent while another module is the source: after 16 in a row it is the source again (R425). -/
def parentAnswered (s : State) : State :=
  let s := modFtm s fun f => { f with parentRun := f.parentRun + 1 }
  if s.ftm.parentRun ≥ 16 then
    modFtm s fun f => { f with anc := 0, srcSince := s.now, streak := 0, parentRun := 0, hist := [] }
  else s

/-- A response in time: θ and L of R427, in units of 2⁻¹⁷ ns. -/
def doTimeResponse (s : State) (o : TimeOut) (state t2 t3 creq crsp : Nat) : State :=
  let t4 := ft16 s
  let a : Int := (t2 : Int) - (o.t1 : Int) - (creq : Int)
  let b : Int := (t4 : Int) - (t3 : Int) - (crsp : Int)
  let s := modFtm s fun f => { f with outs := f.outs.erase o }
  let bad := state = 0 ∨ state = 3
  if some o.node = timeSource s then
    if bad then nextSource (modFtm s fun f => { f with streak := 0 })
    else
      let s := pmcEvent (modFtm s fun f => { f with lastOk := s.now }) pgFTM 0x0100 1 none
      exchangeOk s (b - a) (a + b)
  else if some o.node = timeParent s then
    if bad then modFtm s fun f => { f with parentRun := 0 } else parentAnswered (pmcEvent s pgFTM 0x0100 1 none)
  else s

def execTimeResponse (h : BlockHdr) (state seq t2 t3 creq crsp : Nat) (s : State) : Host.Outcome State Fault Refusal :=
  .next (onLink s h (some h.psn) fun s =>
    match s.ftm.outs.find? fun o => o.seq == seq && o.node == h.src && decide (s.now < o.sent + usec 4) with
    | some o => doTimeResponse s o state t2 t3 creq crsp
    | none => s)

def overdue (s : State) : Option TimeOut := s.ftm.outs.find? fun o => since s o.sent (usec 4)

def doExchangeFail (s : State) (o : TimeOut) : State :=
  pmcEvent (modFtm s fun f =>
    { f with outs := f.outs.erase o, streak := if some o.node = timeSource s then 0 else f.streak,
             parentRun := if some o.node = timeParent s then 0 else f.parentRun }) pgFTM 0x0101 1 none

def execTimeExchangeTimeout (s : State) : Host.Outcome State Fault Refusal :=
  match overdue s with
  | some o => .next (doExchangeFail s o)
  | none => .next s

/-- The source is not UP, and an ancestor beyond it is (R425). -/
def sourceDown (s : State) : Bool :=
  let up (n : Nat) : Bool := (peerOf s n).state == .up
  (timeSource s).any (fun n => !up n) && ((ancestors s).drop (s.ftm.anc + 1)).any up

/-- 16 µs without a successful exchange with the source, or a source that is not UP (R422, R425). -/
def sourceLate (s : State) : Bool :=
  s.ftm.running && s.fab.topo.isSome && !isRoot s
    && (since s (max s.ftm.lastOk s.ftm.srcSince) (usec 16) || sourceDown s)

/-- HOLDOVER is entered 16 µs after the last successful exchange with any source (R422). -/
def holdEntered (s : State) : State :=
  if s.ftm.state = .locked ∧ since s s.ftm.lastOk (usec 16) then
    modFtm s fun f => { f with state := .holdover, holdSince := s.now, rate := 0 }
  else s

/-- The next ancestor; after the last, the search begins with the parent again. -/
def doSourceLate (s : State) : State :=
  holdEntered
    (if s.ftm.anc + 1 < (ancestors s).length then nextSource s
     else modFtm s fun f => { f with anc := 0, srcSince := s.now, streak := 0, parentRun := 0, hist := [] })

def execSourceTimeout (s : State) : Host.Outcome State Fault Refusal :=
  if sourceLate s then .next (doSourceLate s) else .next s

def holdoverOver (s : State) : Bool :=
  s.ftm.state == .holdover && since s s.ftm.holdSince (msec (clampTo 10 10000 (reg s Reg.ftmHoldLimit)))

def execHoldoverLimit (s : State) : Host.Outcome State Fault Refusal :=
  if holdoverOver s then
    .next (logOnly (pgErr (modFtm s fun f => { f with state := .lost }) pgFTM Code.fabTimeLost) Code.fabTimeLost pgFTM)
  else .next s

/-! ### The root and its grandmaster (R429, R430) -/

def hostDomain (s : State) : Nat := bitsOf (reg s Reg.ftmPtpcfg) 15 8

/-- An Announce that the best master clock algorithm accepts. -/
def execPtpAnnounce (a : PtpAnnounce) (s : State) : Host.Outcome State Fault Refusal :=
  if s.ftm.running && isRoot s && hostUp s then
    let s := regSafePoint s pgFTM Reg.ftmPtpcfg
    if a.accepted ∧ a.domain = hostDomain s then
      .next (modFtm s fun f => { f with gm := true, gmAbsent := false, gmLost := false, lastAnn := s.now })
    else .next s
  else .next s

/-- An exchange with the grandmaster gives the root's offset from it, in ns. -/
def doPtpSync (s : State) (offset : Int) : State :=
  let s := modFtm s fun f => { f with gmOffset := offset, lastOk := s.now }
  exchangeOk s (offset * 131072) 0

def execPtpSync (offset : Int) (s : State) : Host.Outcome State Fault Refusal :=
  if s.ftm.running && isRoot s && s.ftm.gm && hostUp s then .next (doPtpSync s offset) else .next s

def gmWaitOver (s : State) : Bool :=
  s.ftm.running && isRoot s && s.ftm.state == .acquiring && !s.ftm.gm
    && since s s.ftm.bootAt (sec (clampTo 1 600 (reg s Reg.ftmGmWait)))

def execGmWaitExpire (s : State) : Host.Outcome State Fault Refusal :=
  if gmWaitOver s then .next (modFtm s fun f => { f with state := .locked, everLocked := true, gmAbsent := true }) else .next s

def execGmLost (s : State) : Host.Outcome State Fault Refusal :=
  if isRoot s && s.ftm.state == .locked && s.ftm.gm then
    .next (logOnly (pgErr (modFtm s fun f => { f with gm := false, gmLost := true, rate := 0 }) pgFTM Code.fabTimeGmLost)
      Code.fabTimeGmLost pgFTM)
  else .next s

/-- A read of FTM_NOW latches FT_FRAC (R445); in the boot window it answers ones (R473, R574). -/
def doFtmNowRead (s : State) (t : Nat) : State :=
  if windowOpen s then hptLog (emit s (.readData t (List.replicate 8 0xFF#8))) t Code.cfgEmuUnavailable
  else
    let s := setReg s Reg.ftmNowfrac 0 (ft16 s % 65536)
    pmcEvent (emit s (.readData t (leBytes 8 (ftNs s)))) pgHPT 0x0100 1 none

def execFtmNowRead (tenant : Nat) (s : State) : Host.Outcome State Fault Refusal :=
  if !qpUp s tenant then .next s
  else if qpHeld s tenant then .next (park s tenant .ftmNow)
  else .next (doFtmNowRead s tenant)

/-! ### Installing a calendar (R435–R439) -/

def modCal (s : State) (f : CalInst → CalInst) : State := modFtm s fun x => { x with cal := f x.cal }

/-- The ports of a mask. -/
def maskPorts (m : BitVec 16) : List Nat := (List.range 16).filter fun p => m.getLsbD p

/-- Ports with an empty calendar. -/
def emptyPorts (s : State) (m : BitVec 16) : State :=
  (maskPorts m).foldl (fun s p => modPort s p fun q => { q with calendar := [], slot := none }) s

/-- The ports of a refused install are empty from its instant on (R439), whatever is installed after it. -/
def emptyFrom (s : State) (at_ : Nat) (mask : BitVec 16) : State :=
  if at_ ≤ ftNs s then emptyPorts s mask else modFtm s fun f => { f with empties := f.empties ++ [(at_, mask)] }

/-- A refused install (R439). -/
def refuseCal (s : State) (reason : Nat) (mask : BitVec 16) : State :=
  let s := modCal s fun c => { c with st := .refused reason, mask, image := none }
  let s := emptyFrom s s.ftm.cal.at_ mask
  logOnly (pgErr s pgFTM Code.fabCalRefused) Code.fabCalRefused pgFTM

/-- FTM_CAL_CTL written (R438, R448). -/
def doCalInstall (s : State) (v : Nat) : State :=
  let s := setReg s Reg.ftmCalCtl 0 (v % 16384)
  if v < 2 ^ 31 then s
  else
    let at_ := reg s Reg.ftmCalAt
    let s := modCal s fun c => { c with st := .loading, mask := 0, image := none, at_ }
    if at_ < ftNs s then refuseCal s 6 0 else s

def execCalendarInstall (tenant : Nat) (value : Word) (s : State) : Host.Outcome State Fault Refusal :=
  .next (mgmtWrite s tenant (.write Reg.ftmCalCtl.base 4 (value.setWidth 64)) fun s => doCalInstall s value.toNat)

/-- Valid entries first, in strictly ascending order of OFFSET, every OFFSET below FRAME_NS (R437). -/
def slotsOk (frame : Nat) : List CalSlot → Bool
  | [] => true
  | [a] => !a.valid || decide (a.offset < frame)
  | a :: b :: t =>
    (if a.valid then decide (a.offset < frame) && (!b.valid || decide (a.offset < b.offset)) else !b.valid)
      && slotsOk frame (b :: t)

/-- The first case of R439 that an image meets. -/
def calReason (s : State) (im : CalImage) : Option Nat :=
  let lacks (p : Nat) : Bool := !s.boot.portMask.testBit p || s.fab.topo.any fun t => portUnused t p
  let known (n : Nat) : Bool := (topoEntry s n).isSome && n != nodeId s
  if im.frameNs < 10000 ∨ im.frameNs > 10000000 ∨ im.rsv ∨ im.slots.any (fun l => l.any fun e => e.rsv)
      ∨ (maskPorts im.portmask).any lacks then some 1
  else if im.slots.any fun l => !slotsOk im.frameNs l then some 2
  else if im.slots.any fun l => l.any fun e => e.valid && !known e.dst then some 3
  else none

/-- The context of the install exists, so that its tables can translate the image. -/
def calContext (s : State) : Bool :=
  match mget s.obj.contexts (reg s Reg.ftmCalCtl % 16384) with
  | some c => c.phase == .live
  | none => false

/-- The bytes of a VA range that pages of this module hold; none where one is not mapped or lies elsewhere. -/
def localBytes (s : State) (x : Context) (va : Nat) : Nat → Nat → Option (List Byte)
  | 0, _ => some []
  | fuel + 1, n =>
    if n = 0 then some []
    else
      let k := min n (4096 - va % 4096)
      match placeOf s x va, localBytes s x (va + k) fuel (n - k) with
      | .here pa, some t => some (rdBytes s pa k ++ t)
      | _, _ => none

/-- The image at FTM_CAL_VA (R436, R438): as local memory holds it, or what the loader reads elsewhere; none where it cannot be
translated or read. -/
def calImage (s : State) (data : Option (List Byte)) : Option CalImage :=
  match mget s.obj.contexts (reg s Reg.ftmCalCtl % 16384) with
  | none => none
  | some x =>
    let va := reg s Reg.ftmCalVa
    match placeOf s x va with
    | .here pa => (localBytes s x va 66 (calLength (fromLe (rdBytes s (pa + 8) 2)))).map parseCal
    | .away => data.bind fun b => if b.length = calLength (fld b 8 2) then some (parseCal b) else none
    | .unmapped =>
      if va < 2 ^ 56 then none
      else data.bind fun b => if b.length = calLength (fld b 8 2) then some (parseCal b) else none

def doCalLoaded (s : State) (image : Option CalImage) : State :=
  match image with
  | none => refuseCal s 4 0
  | some im =>
    if !calContext s then refuseCal s 4 0
    else if s.ftm.cal.at_ ≤ ftNs s then refuseCal s 5 im.portmask
    else
      match calReason s im with
      | some r => refuseCal s r im.portmask
      | none => modCal s fun c => { c with st := .pending, mask := im.portmask, image := some im }

/-- An install whose instant had passed, or passed while it loaded, still empties its ports once they are known. -/
def doCalLate (s : State) (image : Option CalImage) : State :=
  match image with
  | none => s
  | some im => emptyPorts (modCal s fun c => { c with mask := im.portmask }) im.portmask

/-- An install was refused for its instant before its image was read. -/
def imageAwaited (s : State) : Bool := (s.ftm.cal.st == .refused 5 || s.ftm.cal.st == .refused 6) && s.ftm.cal.mask == 0

def execCalendarLoadDone (image : Option (List Byte)) (s : State) : Host.Outcome State Fault Refusal :=
  if s.ftm.cal.st = .loading then .next (doCalLoaded s (calImage s image))
  else if imageAwaited s then .next (doCalLate s (calImage s image))
  else .next s

/-- The new calendars, of the ports of the mask in ascending order. -/
def applyCal (s : State) (im : CalImage) : State :=
  let s := ((maskPorts im.portmask).zip im.slots).foldl (fun s e =>
    modPort s e.1 fun q => { q with calendar := e.2.filter fun x => x.valid, calStart := s.ftm.cal.at_,
                                    calFrame := im.frameNs, slot := none }) s
  let s := setReg (setReg (setReg s Reg.ftmCalActive 0 s.ftm.cal.at_) Reg.ftmCalFrame 0 im.frameNs) Reg.ftmCalVer 0 im.version
  modCal s fun c => { c with st := .applied, image := none }

/-- The switch that is due: a refused install empties its ports, or the pending one takes effect. -/
def doCalSwitch (s : State) : State :=
  match emptyDue s with
  | some e => modFtm (emptyPorts s e.2) fun f => { f with empties := f.empties.erase e }
  | none =>
    match s.ftm.cal.st, s.ftm.cal.image with
    | .pending, some im => applyCal s im
    | _, _ => refuseCal s 5 0

def execCalendarSwitch (s : State) : Host.Outcome State Fault Refusal :=
  if calSwitchDue s then .next (doCalSwitch s) else .next s

/-! ### Slots (R437, R441) -/

/-- A slot starts: its budget is whole, and the guard staged for the port takes effect. -/
def doSlotStart (s : State) (port : Nat) (o : OpenSlot) : State :=
  let s := regSafePoint s pgFTM Reg.ftmGuard
  let guardNs := clampTo 50 5000 (reg s Reg.ftmGuard)
  pmcEvent (modPort s port fun q => { q with slot := some o, guardNs }) pgFTM 0x0102 1 none

def execSlotStart (port : Nat) (s : State) : Host.Outcome State Fault Refusal :=
  match slotDue s port with
  | some o => if ftBefore s 1 o.start then .next s else .next (doSlotStart s port o)
  | none => .next s

/-! ### Accounting snapshots (R432, R542) -/

/-- Core and array time of a tenant in ns (R540). -/
def Acct.coreTimeNs (a : Acct) : Nat := a.coreNs / (18 * 144403552893600)
def Acct.arrayTimeNs (a : Acct) : Nat := a.arrayNs / 18

/-- The 64-byte record of a tenant. -/
def snapRecord (s : State) (t : Nat) (a : Acct) : List Byte :=
  leBytes 8 a.coreTimeNs ++ leBytes 8 a.arrayTimeNs ++ leBytes 8 a.hbm ++ leBytes 8 a.fab ++ leBytes 8 a.host ++ leBytes 8 a.energy
    ++ leBytes 8 s.srv.snapFt ++ leBytes 4 s.srv.snapSeq ++ leBytes 2 t ++ leBytes 2 0

/-- The counters of every existing tenant written out, while ACC_DEST names a place in the aperture. -/
def writeSnaps (s : State) : State :=
  let dest := reg s Reg.accDest
  if dest = 0 then s
  else
    s.obj.tenants.foldl (fun s t =>
      if inAperture s (dest + 64 * t.1) 64 then
        pmcEvent (hostWrite s 0 (dest + 64 * t.1) (snapRecord s t.1 (mgetD s.srv.snaps t.1 .zero)) .other) pgACC 0x0101 1 none
      else s) s

def doSnapshot (s : State) (at_ : Nat) : State :=
  let v := s.srv
  let v := { v with snaps := v.acct, snapFt := at_, snapSeq := (v.snapSeq + 1) % 2 ^ 32, snapIngress := v.ingress,
                    snapUnattr := v.unattr, snapMeter := v.meter }
  let s := pmcEvent { s with srv := v } pgACC 0x0100 1 none
  regSafePoint (writeSnaps s) pgFTM Reg.ftmAccPeriod

def execAccountingSnapshot (s : State) : Host.Outcome State Fault Refusal :=
  if snapDue s && !ftBefore s 2 (snapInstant s) then .next (doSnapshot s (snapInstant s)) else .next s

end Sys2Proof.Machine
end

