-- ==== Sys2Proof/Machine/HostPort.lean ====
section
/-! DEFINITION. The host port (12): connections, acknowledgments of the device's own RDMA, the port's link, and the
registers of the HPT and CORE pages whose writes have rows of their own.
Assumption log: DEDUCED 43, 97; DESIGN CHOICE 67. -/

namespace Sys2Proof.Machine

/-! ### Connections (R450, R452, R487) -/

/-- A queue pair is connected, in the error state or not. -/
def connectedQp (s : State) (t : Nat) : Option HostQp := mget s.obj.qps t

/-- The request presents what its tenant must present (R452). -/
def reqAccepted (s : State) (t srcIp : Nat) (key : DWord) : Bool :=
  (match connectedQp s t with
   | some q => q.err.isSome
   | none => true) &&
  (if t = 0 then reg s Reg.hptMgmtip == 0 || reg s Reg.hptMgmtip == srcIp
   else match mget s.obj.tenants t with
     | some r => r.key == key
     | none => false)

/-- The address at which the port answers: HPT_IPV4, or 169.254 and the last two bytes of its MAC while that is 0 (R451, R478). -/
def hostIp (s : State) : Nat :=
  if reg s Reg.hptIpv4 = 0 then 0xA9FE0000 + s.boot.mac % 65536 else reg s Reg.hptIpv4

/-- The private data of REP (R452, R491, R574): the rkeys of the regions, or of the boot window while it is open. -/
def repData (s : State) : List Byte :=
  if windowOpen s then leBytes 4 (Config.rkey 3).toNat
  else leBytes 4 (Config.rkey 0).toNat ++ leBytes 4 (Config.rkey 1).toNat ++ leBytes 4 (Config.rkey 2).toNat

/-- A connection request answered with REP or REJ; tenant 0's first latches its source. -/
def doCmReq (s : State) (t srcIp : Nat) (key : DWord) : State :=
  if reqAccepted s t srcIp key then
    let s := if t = 0 ∧ reg s Reg.hptMgmtip = 0 then setReg s Reg.hptMgmtip 0 srcIp else s
    let qps := mset s.obj.qps t { src := srcIp, err := none, gone := false }
    emit { s with obj := { s.obj with qps } } (.rep t (hostIp s) (repData s))
  else emit s (.rej t)

def execCmReq (tenant srcIp : Nat) (key : DWord) (s : State) : Host.Outcome State Fault Refusal :=
  if hostUp s then .next (doCmReq s tenant srcIp key) else .next s

/-- A tenant's connection is lost (R487): its queue pair is gone, and every context of a tenant other than 0 is torn down. -/
def loseConnection (s : State) (t : Nat) : State :=
  let qps := mdel s.obj.qps t
  let parked := s.obj.parked.filter fun p => p.tenant != t
  let s := { s with obj := { s.obj with qps, parked } }
  if t = 0 then s
  else (s.obj.contexts.filter fun c => c.2.tenant == t && c.2.phase == .live).foldl (fun s c => startTeardown s c.1 none) s

def execCmDreq (tenant : Nat) (s : State) : Host.Outcome State Fault Refusal :=
  if (connectedQp s tenant).any (fun q => !q.gone) && hostUp s then .next (loseConnection s tenant) else .next s

/-- GRACE of a tenant in ms (R484); tenant 0 has no record, and 1,000 stands for what is not given. -/
def graceMs (s : State) (t : Nat) : Nat :=
  match mget s.obj.tenants t with
  | some r => if r.grace = 0 then 1000 else r.grace
  | none => 1000

def graceOver (s : State) (t : Nat) : Bool :=
  match connectedQp s t with
  | some q => match q.err with
    | some c => alive s && since s c (msec (graceMs s t))
    | none => false
  | none => false

def execConnectionGraceExpire (tenant : Nat) (s : State) : Host.Outcome State Fault Refusal :=
  if graceOver s tenant then .next (loseConnection s tenant) else .next s

/-! ### Acknowledgments of the device's own RDMA (R287, R502, R507) -/

/-- What an acknowledgment of RDMA `id` brings: a store of a command is performed (R287), an atomic returns its old value,
a completion record is followed by the fence (R502). One that cannot be performed is dropped; a mirror's is logged (R507). -/
def doHostRdmaAck (s : State) (id : Nat) (ok : Bool) (old : DWord) : State :=
  match mget s.obj.pend id with
  | none => s
  | some (t, why) =>
    let s := { s with obj := { s.obj with pend := mdel s.obj.pend id } }
    match why with
    | .store i _ _ _ =>
      match (cmdOf s i).bind Cmd.tag with
      | some k => commitTry s k
      | none => s
    | .atom a =>
      match mget s.ms.atoms a with
      | some r => atomDone s a old (r.op != 10 || old == r.cmp)
      | none => s
    | .record i =>
      match cmdOf s i with
      | some c =>
        match c.phase with
        | .recording st => settled (forget (fenceEnd s c st) i)
        | _ => s
      | none => s
    | .mirror f =>
      if ok then s
      else
        let ctx := ((mget s.obj.fences f).map Fence.ctx).getD 0xFFFF
        errWrite s { errBase s Code.fenceMirrorFailed 0 (pgId pgHPT) with tenant := t, ctx }
    | .other => s

def execHostRdmaAck (id : Nat) (ok : Bool) (old : DWord) (s : State) : Host.Outcome State Fault Refusal :=
  if (mget s.obj.pend id).isSome && hostUp s then .next (doHostRdmaAck s id ok old) else .next s

/-! ### The link of the host port (R478, R609, R612) -/

/-- Every queue pair enters the error state. -/
def failQps (s : State) : State :=
  let bad (q : HostQp) : HostQp := { q with err := (q.err <|> some s.now) }
  { s with obj := { s.obj with qps := s.obj.qps.map fun e => (e.1, bad e.2) } }

/-- The link is up on its eight lanes (R634), or down. -/
def setHostLink (s : State) (up : Bool) : State := setReg s Reg.hptPstat 0 (if up then 2 ^ 31 + 255 else 0)

/-- The host port's link fails: its queue pairs enter the error state, and its reset is due. -/
def doHostLinkDown (s : State) : State :=
  let s := failQps (setHostLink s false)
  raiseLink { s with obj := { s.obj with retrainAt := some s.now } } .hostPort

def execHostPortLinkDown (s : State) : Host.Outcome State Fault Refusal :=
  if hostUp s then .next (doHostLinkDown s) else .next s

/-- A retrain of the host port is under way in its reset, or is due 1 s after the last. -/
def retrainDue (s : State) : Bool :=
  !hostUp s &&
  match s.obj.retrainAt with
  | some t => s.err.active.any (fun a => a.domain == .hostPort) || since s t (sec 1)
  | none => false

def doRetrain (s : State) (ok : Bool) : State :=
  if ok then
    let s := flushHost (endRecovery (setHostLink s true) .hostPort)
    { s with obj := { s.obj with retrainAt := none } }
  else { s with obj := { s.obj with retrainAt := some s.now } }

def execHostPortRetrain (ok : Bool) (s : State) : Host.Outcome State Fault Refusal :=
  if retrainDue s then .next (doRetrain s ok) else .next s

/-! ### Registers of HPT and CORE with rows of their own -/

/-- HPT_MGMTIP: a write of 0 frees the management source (R452). -/
def execHptMgmtipWrite (tenant : Nat) (value : Word) (s : State) : Host.Outcome State Fault Refusal :=
  .next (mgmtWrite s tenant (.write Reg.hptMgmtip.base 4 (value.setWidth 64)) fun s => setReg s Reg.hptMgmtip 0 value.toNat)

/-- HPT_IPV4, while no queue pair but tenant 0's is connected (R479): the new address is in use from then on, and the
management queue pair, whose path names the old one, enters the error state. -/
def doIpv4 (s : State) (v : Nat) : State :=
  if (s.obj.qps.filter fun q => q.1 != 0 && !q.2.gone).isEmpty then qpFail (setReg s Reg.hptIpv4 0 v) 0 else busyWrite s pgHPT

def execHptIpv4Write (tenant : Nat) (value : Word) (s : State) : Host.Outcome State Fault Refusal :=
  .next (mgmtWrite s tenant (.write Reg.hptIpv4.base 4 (value.setWidth 64)) fun s => doIpv4 s value.toNat)

def execCoreMstkHwmWrite (tenant core : Nat) (value : Word) (s : State) : Host.Outcome State Fault Refusal :=
  .next (mgmtWrite s tenant (.write (Reg.coreMstkHwm.at_ core) 4 (value.setWidth 64)) fun s =>
    if coreOn s core then setReg s Reg.coreMstkHwm core (value.toNat % 64) else s)

/-- Clearing VALID clears MORE and lets the next fault latch (R62). -/
def clearFaultInfo (s : State) (core v : Nat) : State :=
  if coreOn s core ∧ v ≥ 2 ^ 31 then setReg s Reg.coreFaultInfo core (reg s Reg.coreFaultInfo core % 2 ^ 30) else s

def execCoreFaultInfoClear (tenant core : Nat) (value : Word) (s : State) : Host.Outcome State Fault Refusal :=
  .next (mgmtWrite s tenant (.write (Reg.coreFaultInfo.at_ core) 4 (value.setWidth 64)) fun s => clearFaultInfo s core value.toNat)

end Sys2Proof.Machine
end

