-- ==== Sys2Proof/Machine/Intake.lean ====
section
/-! DEFINITION. The intake (13, 14): doorbells, descriptors read and taken, pre-translation, not-before instants
(R332, R434, R495–R500, R519).
Assumption log: DEDUCED 43, 52, 128. -/

namespace Sys2Proof.Machine

/-! ### Rings in memory (R495, R496) -/

/-- Slots that an entry occupies (R496, R531). -/
def entrySlots : RingEntry → Nat
  | .command d => 1 + ceilDiv d.ranges.length 8
  | .admission _ _ => 1

def sumSlots (l : List RingEntry) : Nat := (l.map entrySlots).foldl (· + ·) 0

/-- The bytes of `n` slots of a device-half ring from position `p` on (R495, R496); none where a slot is not mapped. -/
def ringBytes (s : State) (q : Queue) (p : Nat) : Nat → Option (List Byte)
  | 0 => some []
  | n + 1 =>
    match inPlacePa s q.ctx (q.ring.toNat + 128 * (p % 2 ^ q.log2Slots)), ringBytes s q (p + 1) n with
    | some pa, some t => some (rdBytes s pa 128 ++ t)
    | _, _ => none

/-! ### DESCRIPTOR_READ_RETURN (R495, R519) -/

/-- A context that takes descriptors: live and not banned (R509, R626). -/
def ctxTakes (s : State) (x : Nat) : Bool :=
  match mget s.obj.contexts x with
  | some c => c.phase == .live && !c.banned
  | none => false

/-- The ring lies in host memory (R495). -/
def Queue.hostRing (q : Queue) : Bool := decide (q.ring.toNat ≥ 2 ^ 63)

/-- Slots read or being read and not taken, and the first slot not asked for. -/
def Queue.ahead (q : Queue) : Nat := sumSlots q.buffered + q.partial_.length / 128 + q.reads.foldl (· + ·) 0
def Queue.nextSlot (q : Queue) : Nat := q.taken + q.ahead

/-- The slots of the next read: up to 32, those that TAIL covers, to the end of the ring (R497, R519). -/
def Queue.readSize (q : Queue) : Nat := min 32 (min (q.tail - q.nextSlot) (2 ^ q.log2Slots - q.nextSlot % 2 ^ q.log2Slots))

/-- A read may go out: four per queue and 512 per module hold what is asked for and not taken (R519; log entry 115). -/
def readMay (s : State) (q : Queue) : Bool :=
  alive s && !q.stopped && ctxTakes s q.ctx && decide (q.readSize ≠ 0 ∧ q.ahead + q.readSize ≤ 128)
    && decide ((s.obj.queues.map fun k => k.2.ahead).foldl (· + ·) 0 + q.readSize ≤ 16384)

/-- Reads of a queue's ring go out while they may: of a host ring by RDMA READ (R495, R519). -/
def askRing (i : Nat) : Nat → State → State
  | 0, s => s
  | n + 1, s =>
    match mget s.obj.queues i with
    | none => s
    | some q =>
      if readMay s q then
        let a := q.ring.toNat % 2 ^ 63 + 128 * (q.nextSlot % 2 ^ q.log2Slots)
        let t := ((mget s.obj.contexts q.ctx).map Context.tenant).getD 0
        let s := if q.hostRing then hostRead s t a (128 * q.readSize) else s
        askRing i n (modQueue s i fun k => { k with reads := k.reads ++ [q.readSize] })
      else s

/-- Every queue reads on, in the order of the queues. -/
def askRings (s : State) : State := s.obj.queues.foldl (fun s e => askRing e.1 4 s) s

/-- The oldest read of a queue returns: from a host ring what the command brings, else what the ring holds. -/
def readBytes (s : State) (q : Queue) (data : List Byte) : Option (List Byte) :=
  match q.reads with
  | [] => none
  | n :: _ =>
    if !alive s || q.stopped || !ctxTakes s q.ctx then none
    else if q.hostRing then if hostUp s && data.length == 128 * n then some data else none
    else ringBytes s q (q.taken + sumSlots q.buffered + q.partial_.length / 128) n

/-- The entries whose slots have all been read, at most `n`, and the rest (R496, R531). -/
def splitEntries (model : Bool) : Nat → List Byte → List RingEntry × List Byte
  | 0, b => ([], b)
  | n + 1, b =>
    let k := if model then 128 else 128 * (1 + ceilDiv (rangeCount b) 8)
    if b.length < 128 ∨ b.length < k then ([], b)
    else
      let e : RingEntry := if model then .admission (parseAdmission b).1 (parseAdmission b).2 else .command (parseDesc b 0)
      let r := splitEntries model n (b.drop k)
      (e :: r.1, r.2)

def doReadReturn (s : State) (i : Nat) (d : List Byte) : State :=
  let put (q : Queue) : Queue :=
    let r := splitEntries q.model.isSome 129 (q.partial_ ++ d)
    { q with reads := q.reads.tail, partial_ := r.2, buffered := q.buffered ++ r.1 }
  askRings (modQueue s i put)

def execDescriptorReadReturn (queue : Nat) (data : List Byte) (s : State) : Host.Outcome State Fault Refusal :=
  match (mget s.obj.queues queue).bind fun q => readBytes s q data with
  | some d => .next (doReadReturn s queue d)
  | none => .next s

/-! ### DOORBELL (R453, R459, R497) -/

/-- A doorbell write has the form of R459. -/
def doorbellOk (addr len : Nat) : Bool :=
  decide (8 ≤ len ∧ len ≤ 64 ∧ len % 8 = 0 ∧ addr % 8 = 0 ∧ addr % 64 + len ≤ 64)

/-- A tenant owns a queue: its context's tenant, or tenant 0 (R453, R481). -/
def ownsQueue (s : State) (t i : Nat) : Bool :=
  match (mget s.obj.queues i).bind fun q => mget s.obj.contexts q.ctx with
  | some c => mayAct t c.tenant
  | none => t == 0

/-- A 32-bit count written by software, as the count it stands for ahead of `cur`; none where it lies behind. -/
def advanceTo (cur w : Nat) : Option Nat :=
  let d := (w % 2 ^ 32 + 2 ^ 32 - cur % 2 ^ 32) % 2 ^ 32
  if d < 2 ^ 31 then some (cur + d) else none

/-- One field of a doorbell rejected (R497). -/
def doorbellBad (s : State) (q : Queue) : State :=
  let t := ((mget s.obj.contexts q.ctx).map Context.tenant).getD 0
  errWrite s { errBase s Code.queueDoorbellInvalid 0 (pgId pgHPT) with tenant := t, ctx := q.ctx }

/-- TAIL and CQ_HEAD of a doorbell write (R497); a banned context's doorbells are ignored (R626). -/
def ring (s : State) (i tail cqHead : Nat) : State :=
  match mget s.obj.queues i with
  | none => s
  | some q =>
    if !ctxTakes s q.ctx ∨ q.stopped then s
    else
      let s := match advanceTo q.tail tail with
        | some t => if t ≤ q.taken + 2 ^ q.log2Slots then modQueue s i fun q => { q with tail := t } else doorbellBad s q
        | none => doorbellBad s q
      askRings (match advanceTo q.cqHead cqHead with
      | some h => if h ≤ q.recs then modQueue s i fun q => { q with cqHead := h } else doorbellBad s q
      | none => doorbellBad s q)

/-- A doorbell write (R453, R457, R497); in the boot window it is discarded (R574). -/
def doDoorbell (s : State) (t addr len tail cqHead : Nat) : State :=
  if windowOpen s then hptLog (emit s (.ack t)) t Code.cfgEmuUnavailable
  else if !doorbellOk addr len then nakInvalid s t
  else
    let i := (addr - 0x400000) / 64
    if !ownsQueue s t i then nakAccess s t
    else
      let s := pmcEvent (emit s (.ack t)) pgHPT 0x0100 1 none
      if addr % 64 = 0 then ring s i tail cqHead else s

/-- The doorbells (R457). -/
def doorbellRange (addr : Nat) : Bool := decide (0x400000 ≤ addr ∧ addr < 0x800000)

/-- The write lies among the doorbells, and nothing earlier of the queue pair is left (R456). -/
def doorbellReady (s : State) (t addr : Nat) : Bool := qpUp s t && doorbellRange addr && !qpHeld s t

def execDoorbell (tenant addr len tail cqHead : Nat) (s : State) : Host.Outcome State Fault Refusal :=
  if doorbellReady s tenant addr then .next (doDoorbell s tenant addr len tail cqHead)
  else if doorbellRange addr && qpHeld s tenant then .next (park s tenant (.doorbell addr len tail cqHead))
  else .next s

/-! ### The checks of R500 -/

/-- Rows per group and groups per core for a declared register count (R21, R22). -/
def rowsFor (vregs : Nat) : Nat := ceilDiv vregs 8 * 8
def groupsPerCore (vregs : Nat) : Nat := if vregs = 0 then 0 else 4 * min 64 (2048 / rowsFor vregs)

/-- A named fence is LIVE and usable by the tenant (R481, R500). -/
def fenceOk (s : State) (t i : Nat) : Bool :=
  match liveFence s i with
  | some f => fenceUsable f t
  | none => false

/-- A descriptor that R500 rejects. -/
def descBad (s : State) (t : Nat) (d : Descriptor) : Bool :=
  d.rsv || d.threads == 0 || d.vregs == 0 || d.setSize == 0 || decide (32 < d.setSize)
    || decide (groupsPerCore d.vregs < d.setSize) || decide (0x400000 < d.scratch)
    || decide (256 < d.ranges.length)
    || (d.isGang && (decide (d.gangMembers < 2 ∨ 4096 < d.gangMembers)
          || (d.gangLeader != nodeId s && (topoEntry s d.gangLeader).isNone)))
    || (d.ranges.any fun r => r.rsv || r.length == 0 || decide (r.va ≥ 2 ^ 57) || (r.whole && !r.w))
    || (d.saveptVa != 0 && (d.saveptVa % 8 != 0 || decide (d.saveptVa ≥ 2 ^ 56)))
    || (d.waits.any fun w => w.rsv || (w.valid && (decide (w.value ≥ 2 ^ 63) || !fenceOk s t w.fence)))
    || (d.sigValid && !fenceOk s t d.sigFence)

/-! ### Pre-translation (R332) -/

/-- The leaves that a device-half range touches. -/
def rangeLeaves (c : Context) (va len : Nat) : List Leaf := c.leaves.filter fun l => overlaps va len l.va l.size

/-- Every byte of a device-half range is mapped. -/
def rangeMapped (c : Context) (va len : Nat) : Bool :=
  ((rangeLeaves c va len).map fun l => min (va + len) (l.va + l.size) - max va l.va).foldl (· + ·) 0 == len

/-- The 4 KiB pages of a host-half range, untranslated. -/
def hostPages (write : Bool) : Nat → Nat → List RangePage
  | 0, _ => []
  | n + 1, p => { page := p, size := 4096, write, tr := none } :: hostPages write n (p + 4096)

def leafTrans (ctx : Nat) (l : Leaf) : Trans :=
  { ctx, va := l.va, size := l.size, back := .inl l.back, w := l.w, nx := l.nx }

/-- The declared ranges and, as a read range, the save-point table (R332, R526). -/
def allRanges (d : Descriptor) : List RangeField :=
  if d.saveptVa = 0 then d.ranges
  else d.ranges ++ [{ va := d.saveptVa, length := 16 + 32 * d.saveCount, w := false, whole := false, rsv := false }]

/-- What a range's translation gives: its pages, or the code that ends the command (R320, R332). -/
def rangePages (s : State) (x : Nat) (r : RangeField) : List RangePage ⊕ Nat :=
  match mget s.obj.contexts x with
  | none => .inr Code.xltNotPresent
  | some c =>
    if r.va + r.length ≤ 2 ^ 56 then
      if !rangeMapped c r.va r.length then .inr Code.xltNotPresent
      else if r.w ∧ (rangeLeaves c r.va r.length).any fun l => !l.w then .inr Code.xltWriteDenied
      else .inl ((rangeLeaves c r.va r.length).map fun l =>
        { page := l.va, size := l.size, write := r.w, tr := some (leafTrans x l) })
    else
      let p0 := r.va / 4096
      let p1 := (r.va + r.length - 1) / 4096
      if r.va < 2 ^ 56 ∨ 2 ^ 57 < r.va + r.length ∨ hostUnreachable s x r.va ∨ hostUnreachable s x (p1 * 4096) then
        .inr Code.xltNotPresent
      else .inl (hostPages r.w (p1 + 1 - p0) (p0 * 4096))

/-- The pages of several ranges, or the first code. -/
def allPages (s : State) (x : Nat) : List RangeField → List RangePage ⊕ Nat
  | [] => .inl []
  | r :: t =>
    match rangePages s x r, allPages s x t with
    | .inr e, _ => .inr e
    | _, .inr e => .inr e
    | .inl a, .inl b => .inl (a ++ b)

/-- Claims on `n` pairs from index `k` on, of a leaf whose frame offset 0 of pair 0 would lie at VA `va0` (R291, R499). -/
def pairClaims (node : Nat) (r : RangeField) (lva o : Nat) : Nat → Nat → List Claim
  | 0, _ => []
  | n + 1, k =>
    -- the VA of the pair's first byte, displaced by `o` to stay in Nat
    let v := lva + k * 65536
    let rest := pairClaims node r lva o n (k + 1)
    if v < r.va + r.length + o ∧ r.va + o < v + 65536 then
      { node, pair := k, whole := r.whole && decide (r.va + o ≤ v ∧ v + 65536 ≤ r.va + r.length + o) } :: rest
    else rest

/-- The claims of a writable range (R291): one for each SHADOWED pair it covers, here or at another module. -/
def rangeClaims (s : State) (c : Context) (r : RangeField) : List Claim :=
  if !r.w then []
  else
    (rangeLeaves c r.va r.length).flatMap fun l =>
      match l.back with
      | .shadowed o => pairClaims (nodeId s) r l.va o ((o + l.size - 1) / 65536 - o / 65536 + 1) (o / 65536)
      | .fab n k a =>
        if k = 1 then pairClaims n r l.va a ((a + l.size - 1) / 65536 - a / 65536 + 1) (a / 65536) else []
      | _ => []

/-- A writable range on memory whose writes stay in place (R306). -/
def rangeInPlace (c : Context) (r : RangeField) : Bool :=
  r.w && (decide (r.va + r.length > 2 ^ 56)
    || (rangeLeaves c r.va r.length).any fun l => match l.back with
        | .shadowed _ => false
        | .fab _ k _ => k != 1
        | _ => true)

/-- The local objects that a command's ranges reach (R489). -/
def rangeObjs (c : Context) (rs : List RangeField) : List Nat :=
  ((rs.flatMap fun r => rangeLeaves c r.va r.length).filterMap fun l =>
    match l.back with
    | .fab _ _ _ => none
    | _ => some l.handle).eraseDups

/-- Pre-translation of a taken descriptor begins (R332): the claims, the range list, the references; a device-half page
that is missing or may not be written ends the command. -/
def beginTranslate (s : State) (i : Nat) : State :=
  match cmdOf s i with
  | none => s
  | some c =>
    match mget s.obj.contexts c.ctx with
    | none => s
    | some x =>
      match allPages s c.ctx (allRanges c.d) with
      | .inr e => settled (endUndispatched s i e)
      | .inl ps =>
        let claims := sortClaims (c.d.ranges.flatMap fun r => rangeClaims s x r)
        let s := modCmd s i fun c => { c with phase := .translating, claims,
                                              untranslated := (ps.filter fun p => p.tr.isNone).map RangePage.page }
        let s := { s with xlt := { s.xlt with ranges := aset s.xlt.ranges i ps } }
        pumpWalks s

/-- Descriptors being translated (R519). -/
def translating (s : State) : Nat := (s.cmds.filter fun e => e.2.phase == .translating).length

/-- Waiting descriptors begin their pre-translation while fewer than 256 are being translated (R519). -/
def pumpTranslate : Nat → State → State
  | 0, s => s
  | n + 1, s =>
    if 256 ≤ translating s then s
    else
      match s.cmds.find? fun e => e.2.phase == .queued with
      | some e => pumpTranslate n (beginTranslate s e.1)
      | none => s

/-! ### DESCRIPTOR_TAKE (R489, R497, R500) -/

/-- A completion record is free (R497). -/
def recordFree (q : Queue) : Bool := decide (q.recs + q.recsHeld < q.cqHead + 2 ^ q.log2Cq)

def takeReady (s : State) (i : Nat) : Bool :=
  match mget s.obj.queues i with
  | none => false
  | some q =>
    (match q.buffered with | .command _ :: _ => true | _ => false)
      && alive s && !q.stopped && ctxTakes s q.ctx && recordFree q && decide (s.cmds.length < 65536)

/-- COUNT of the save-point table of a descriptor, read as the descriptor is taken (R526): what another module's memory holds is not
given. -/
def readSave (s : State) (ctx va : Nat) : Nat × State :=
  if va = 0 then (0, s)
  else
    match (mget s.obj.contexts ctx).map fun x => placeOf s x va with
    | some (.here pa) => (fromLe (rdBytes s pa 4), s)
    | some .away => freeNat s 32
    | _ => (0, s)

/-- A command as it is taken (R497). -/
def newCmd (s : State) (qi : Nat) (q : Queue) (tenant cls : Nat) (d : Descriptor) (seq : Option (Nat × Bool)) : Cmd :=
  let x := mget s.obj.contexts q.ctx
  let inPlace := (x.map fun x => d.ranges.any (rangeInPlace x)).getD false
  { queue := qi, pos := q.taken, slots := entrySlots (.command d), ctx := q.ctx, tenant, cls, d, phase := .queued,
    untranslated := [], claims := [], extra := [], got := [], busyEnds := 0, replayable := !inPlace && !d.isGang,
    objs := [], tag := none, part := none, cores := [], nextGroup := 0, liveGroups := 0, turn := 0, begun := [], kills := 0,
    startFt := 0, dispatchedAt := 0, resumedAt := 0, invalid := 0, overflow := 0, amax := 0, bytes := 0, energy := 0,
    touchedNodes := [], heldFor := none, dispatched := false, why := none, saved := [],
    saveBytes := 0, seq, released := false, asked := none, readySent := false, trapped := false }

/-- A command with its descriptor checked, its references taken and its pre-translation begun or waiting
(R332, R489, R500, R519). -/
def enterCmd (s : State) (i : Nat) : State :=
  match cmdOf s i with
  | none => s
  | some c =>
    if descBad s c.tenant c.d then settled (endUndispatched s i Code.descInvalid)
    else
      let objs := ((mget s.obj.contexts c.ctx).map fun x => rangeObjs x (allRanges c.d)).getD []
      let live := objs.all fun h => match mget s.obj.objs h with | some o => refCanInc o | none => false
      if !live then settled (endUndispatched s i Code.objGone)
      else
        let s := objs.foldl refInc s
        pumpTranslate 1 (modCmd s i fun c => { c with objs })

def doTake (s : State) (i : Nat) : State :=
  match mget s.obj.queues i with
  | none => s
  | some q =>
    match q.buffered with
    | .command d :: rest =>
      let t := ((mget s.obj.contexts q.ctx).map Context.tenant).getD 0
      let k := s.nextCmd
      let save := readSave s q.ctx d.saveptVa
      let s := save.2
      let c := newCmd s i q t q.cls { d with saveCount := save.1 } none
      let s := { s with cmds := mset s.cmds k c, nextCmd := k + 1 }
      let s := modQueue s i fun q => { q with taken := q.taken + c.slots, buffered := rest, recsHeld := q.recsHeld + 1,
                                              order := q.order ++ [k] }
      askRings (enterCmd (unitProgress s 0) k)
    | _ => s

def execDescriptorTake (queue : Nat) (s : State) : Host.Outcome State Fault Refusal :=
  if takeReady s queue then .next (doTake s queue) else .next s

/-! ### PRETRANSLATE_DONE (R332) and NOT_BEFORE_RELEASE (R434) -/

def pretransReady (s : State) (i : Nat) : Bool :=
  match cmdOf s i with
  | some c => alive s && c.phase == .translating && c.untranslated.isEmpty
  | none => false

def doPretransDone (s : State) (i : Nat) : State :=
  pumpTranslate 1 (modCmd s i fun c => { c with phase := .waiting })

def execPretranslateDone (cmd : Nat) (s : State) : Host.Outcome State Fault Refusal :=
  if pretransReady s cmd then .next (doPretransDone s cmd) else .next s

def execNotBeforeRelease (cmd : Nat) (s : State) : Host.Outcome State Fault Refusal :=
  if notBeforeDue s cmd then .next (modCmd s cmd fun c => { c with released := true }) else .next s

end Sys2Proof.Machine
end

