-- ==== Sys2Proof/Machine/Sched.lean ====
section
/-! DEFINITION. Scheduling (14): the launch of groups (R21–R25, R104), partitions and the dispatcher (R512–R519),
pre-emption, saves and restores (R520–R528).
Assumption log: DESIGN CHOICE 4, 44, 71, 107; DEDUCED 10, 68, 69, 70, 72, 73, 90, 108, 134, 137. -/

namespace Sys2Proof.Machine

/-! ### Room on a core (R20, R21, R23, R104) -/

/-- The slot and the rows of each resident group. -/
def residents (k : CoreSt) : List (Nat × Nat) := k.groups.map fun e => (e.1, e.2.rows)

/-- A free slot of a scheduler that has rows for a group (R21). -/
def schedSlot (l : List (Nat × Nat)) (sched rows : Nat) : Option Nat :=
  let mine := l.filter fun e => e.1 / 64 == sched
  if (mine.map Prod.snd).foldl (· + ·) 0 + rows ≤ 2048 then
    ((List.range 64).map fun n => sched * 64 + n).find? fun n => !(mine.any fun e => e.1 == n)
  else none

/-- The slot of the next group: of the schedulers in rotation from `turn` on, the first that accepts it (R23). -/
def nextSlot (l : List (Nat × Nat)) (turn rows : Nat) : Option Nat :=
  ((List.range 4).filterMap fun d => schedSlot l ((turn + d) % 4) rows).head?

/-- Slots for `n` groups, each placed after the one before; none unless all fit (R104). -/
def placeSlots (rows : Nat) : Nat → List (Nat × Nat) → Nat → Option (List Nat)
  | 0, _, _ => some []
  | n + 1, l, turn =>
    match nextSlot l turn rows with
    | none => none
    | some slot => (placeSlots rows n ((slot, rows) :: l) ((slot / 64 + 1) % 4)).map fun t => slot :: t

/-- The groups of a command, and of its placement set that is placed next. -/
def groupCount (c : Cmd) : Nat := ceilDiv c.d.threads 32
def nextSetSize (c : Cmd) : Nat := min (max c.d.setSize 1) (groupCount c - c.nextGroup)

/-- No group of another matrix command is resident (R127). -/
def matrixFree (s : State) (k : CoreSt) (cmd : Nat) (c : Cmd) : Bool :=
  !c.d.isMatrix || k.groups.all fun e => e.2.cmd == cmd ||
    match cmdOf s e.2.cmd with
    | some x => !x.d.isMatrix
    | none => true

/-! ### GROUP_LAUNCH (R24, R25, R43, R104, R126, R242, R515) -/

/-- The core can take the command's next placement set now. -/
def setFits (s : State) (core cmd : Nat) (c : Cmd) : Option (List Nat) :=
  let k := coreOf s core
  let zeroed := (mget k.allocs cmd).isSome && !(zeroBusy s core && (k.zeroing.map Prod.fst) == some cmd)
  if coreTakes s core && zeroed && matrixFree s k cmd c then
    placeSlots (rowsFor c.d.vregs) (nextSetSize c) (residents k) k.rotate
  else none

/-- The command's cores from the one whose turn it is. -/
def coreTurn (c : Cmd) : List Nat := c.cores.drop c.turn ++ c.cores.take c.turn

/-- The core is the first in rotation that can take the set. -/
def launchReady (s : State) (core cmd : Nat) : Bool :=
  match cmdOf s cmd with
  | some c => c.phase == .running && decide (c.nextGroup < groupCount c)
      && (coreTurn c).find? (fun k => (setFits s k cmd c).isSome) == some core
  | none => false

/-- The launch mask (R25). -/
def launchMask (c : Cmd) (index : Nat) : Word :=
  let t := c.d.threads % 32
  if index + 1 = groupCount c ∧ t ≠ 0 then BitVec.ofNat 32 (2 ^ t - 1) else 0xFFFFFFFF#32

/-- A group as it starts (R24, R43). -/
def newGroup (s : State) (core cmd : Nat) (c : Cmd) (index : Nat) : Group :=
  let cyc := coreCyc s core
  let m := launchMask c index
  { cmd, index, set := index / max c.d.setSize 1, rows := rowsFor c.d.vregs, nreg := c.d.vregs, pc := 0, launch := m, am := m,
    exited := 0, v := [(0, (List.range 32).map fun l => BitVec.ofNat 32 l)],
    s := [(0, c.d.argVa), (1, BitVec.ofNat 64 index), (2, BitVec.ofNat 64 core), (3, BitVec.ofNat 64 (groupCount c))],
    p := [], stack := [], ser := none, fpc := 0, fpLimit := reg s Reg.coreFpmLimit core, lmode := lmodeReset, sb := [],
    penalty := none, wait := .none, halt := .run, tokens := [], lastIssue := cyc + 1, eligAt := none, ended := false }

/-- The core has a group, or work in its array queue or its movers (R617). -/
def coreWorks (k : CoreSt) : Bool :=
  !k.groups.isEmpty || !k.arr.queue.isEmpty || !k.launched.isEmpty || !k.movers.isEmpty

/-- The first group of a command on a core empties the L1 and, for a matrix command, prepares the array (R126, R242). -/
def firstOnCore (s : State) (core cmd : Nat) (c : Cmd) : State :=
  if c.begun.contains core then s
  else
    let s := emptyL1 s core
    if c.d.isMatrix then prepareArray s core cmd else s

/-- Time without work does not count for Jack (R617). -/
def noteWork (s : State) (core : Nat) : State :=
  if coreWorks (coreOf s core) then s else modCore s core fun k => { k with workSince := some s.now }

/-- The groups placed in their slots, from index `i` on. -/
def putGroups (s : State) (core cmd : Nat) (c : Cmd) : List Nat → Nat → State
  | [], _ => s
  | slot :: t, i =>
    let g := newGroup s core cmd c i
    let s := modCore s core fun k => { k with groups := mset k.groups slot g, rotate := (slot / 64 + 1) % 4 }
    putGroups (pmcEvent s (pgCORE core) 0x0102 1 (some c.ctx)) core cmd c t (i + 1)

def doGroupLaunch (s : State) (core cmd : Nat) : State :=
  match cmdOf s cmd with
  | none => s
  | some c =>
    match setFits s core cmd c with
    | none => s
    | some slots =>
      let s := regSafePoint (noteWork s core) (pgCORE core) Reg.coreFpmLimit core
      let s := putGroups (firstOnCore s core cmd c) core cmd c slots c.nextGroup
      let turn := ((c.cores.idxOf? core).getD 0 + 1) % max c.cores.length 1
      modCmd s cmd fun c =>
        { c with nextGroup := c.nextGroup + slots.length, liveGroups := c.liveGroups + slots.length, turn,
                 begun := core :: c.begun }

def execGroupLaunch (core cmd : Nat) (s : State) : Host.Outcome State Fault Refusal :=
  if launchReady s core cmd then .next (doGroupLaunch s core cmd) else .next s

/-! ### Partitions and pins (R513, R514, R536) -/

/-- The effective mask word `w` of partition `p`: partitions 1–15 keep theirs beyond the page space (R544). -/
def partMaskAddr (p w : Nat) : Nat := 0x1000000 + 64 * p + 8 * w
def partMask (s : State) (p core : Nat) : Bool := (rawReg s (partMaskAddr p (core / 64)) 0).testBit (core % 64)

/-- The partition of an enabled core (R513). -/
def partOf (s : State) (core : Nat) : Nat :=
  (((List.range 15).map (· + 1)).find? fun p => partMask s p core).getD 0

def coreUp (s : State) (core : Nat) : Bool := coreOn s core && !s.err.retired.contains core

/-- SCH_CTXCFG of a context (R545). -/
def ctxCfgOf (s : State) (x : Nat) : Nat := (mgetD s.sch.ctxCfg x 0).toNat

def pinMask (s : State) (x core : Nat) : Bool := ((mgetD s.sch.ctxPin x []).getD (core / 64) 0).getLsbD (core % 64)

/-- The partition at whose decisions a command is considered: its context's, or the one that the sequence engine names. -/
def cmdPart (s : State) (c : Cmd) : Nat := c.part.getD (ctxCfgOf s c.ctx % 16)

/-- A command may be placed on a core (R514, R536). -/
def coreFor (s : State) (c : Cmd) (core : Nat) : Bool :=
  coreUp s core &&
    if c.part.isNone && ctxCfgOf s c.ctx / 2 ^ 31 == 1 then pinMask s c.ctx core
    else partOf s core == cmdPart s c

/-! ### The cores a command gets (R515, R519, R624) -/

/-- Commands dispatched to a core and not ended. -/
def cmdsOn (s : State) (core : Nat) : List (Nat × Cmd) := s.cmds.filter fun e => e.2.started && e.2.cores.contains core

/-- Another suspect's replay occupies the core (R624). -/
def suspectHolds (s : State) (core cmd : Nat) : Bool :=
  match s.err.replaying with
  | some r => !sameSuspect s r cmd && s.cmds.any fun e => sameSuspect s r e.1 && e.2.cores.contains core
  | none => false

/-- A core in the condition `k` accepts a command's groups (R21, R127, R233, R519). -/
def acceptsIn (s : State) (k : CoreSt) (core cmd : Nat) (c : Cmd) (others : Nat) : Bool :=
  coreFor s c core && coreTakes s core && !suspectHolds s core cmd && decide (others < 32) && matrixFree s k cmd c
    && decide (granulesFor c.d ≤ (freeGranules k).length)
    && (placeSlots (rowsFor c.d.vregs) (nextSetSize c) (residents k) k.rotate).isSome

def accepts (s : State) (core cmd : Nat) (c : Cmd) : Bool :=
  acceptsIn s (coreOf s core) core cmd c (cmdsOn s core).length

/-- The cores a command would be given: fewest resident groups first, then ascending, up to MAXCORES (R515). -/
def coresFor (s : State) (cmd : Nat) (c : Cmd) : List Nat :=
  let l := (List.range 192).filter fun k => accepts s k cmd c
  let key (k : Nat) : Nat := (coreOf s k).groups.length * 256 + k
  let l := sortBy (fun a b => decide (key a ≤ key b)) l
  if c.d.maxCores = 0 then l else l.take c.d.maxCores

/-! ### The order of dispatch (R517, R518) -/

/-- A command may be dispatched (R292, R310, R434, R505, R517); suspects other than the one replayed are held (R624). -/
def readyCmd (s : State) (i : Nat) (c : Cmd) : Bool :=
  let held := c.heldFor.isSome || (s.err.suspects.contains i && !(s.err.replaying.any fun r => sameSuspect s r i))
  let translated := c.phase == .ready || (!c.d.isGang && c.phase == .waiting && (nextClaim c).isNone)
  !held && translated && waitsMet s c && isHead s i c && (c.d.notBefore == 0 || c.released)
    && (c.tag.isSome || (takeTag s).isSome)

/-- Core-time of a tenant in a class over the last 100 ms (R518). -/
def recentTime (s : State) (tenant cls : Nat) : Nat :=
  let ms := s.now / msec 1
  ((((aget s.sch.coreTime (tenant, cls)).getD []).filter fun e => decide (ms < e.1 + 100)).map Prod.snd).foldl (· + ·) 0

def tenWeight (s : State) (tenant : Nat) : Nat := mgetD s.sch.tenW tenant 1

/-- How far a queue is from its turn: the queues of a tenant and class follow the one served last (R518). -/
def turnOf (s : State) (c : Cmd) : Nat :=
  match aget s.sch.rotation (c.tenant, c.cls) with
  | some q => if q < c.queue then c.queue - q else c.queue + 65536 - q
  | none => c.queue

/-- The first of two heads in the order of R518; equal tenants' shares go to the lower tenant. -/
def headBefore (s : State) (a b : Nat × Cmd) : Bool :=
  if a.2.cls ≠ b.2.cls then decide (a.2.cls < b.2.cls)
  else
    let x := recentTime s a.2.tenant a.2.cls * tenWeight s b.2.tenant
    let y := recentTime s b.2.tenant b.2.cls * tenWeight s a.2.tenant
    if a.2.tenant ≠ b.2.tenant then decide (x < y ∨ (x = y ∧ a.2.tenant < b.2.tenant))
    else if a.2.queue ≠ b.2.queue then decide (turnOf s a.2 < turnOf s b.2)
    else decide (a.1 < b.1)

def firstHead (s : State) : List (Nat × Cmd) → Option (Nat × Cmd)
  | [] => none
  | e :: t =>
    match firstHead s t with
    | none => some e
    | some b => if headBefore s b e then some b else some e

/-- Of heads released at the same not-before instant as the first, in its class, the one of the lowest queue (R518). -/
def sameInstant (l : List (Nat × Cmd)) (f : Nat × Cmd) : Nat × Cmd :=
  if f.2.d.notBefore = 0 then f
  else
    (l.filter fun e => e.2.d.notBefore == f.2.d.notBefore && e.2.cls == f.2.cls).foldl
      (fun b e => if e.2.queue < b.2.queue then e else b) f

/-- The head that the dispatcher dispatches next in a partition: the first ready one that can be placed. -/
def nextHead (s : State) (p : Nat) : Option (Nat × Cmd) :=
  let l := s.cmds.filter fun e => e.2.undispatched && cmdPart s e.2 == p && readyCmd s e.1 e.2 && coresFor s e.1 e.2 != []
  (firstHead s l).map (sameInstant l)

/-! ### DISPATCH (R516, R518, R544) -/

/-- The dispatcher works: the module is ready, no warm reset is under way, SCH is not halted (R466). -/
def dispatcherRuns (s : State) : Bool := s.boot.ready && alive s && !pgHalted s pgSCH

/-- The dispatcher's decision is the safe point of the SCH page, SCH_SLICE apart. -/
def schSafePoints (s : State) : State :=
  ((mget s.applying pgSCH).getD []).foldl
    (fun s e => if e.1 = Reg.schSlice.at_ 0 then s else safePoint s pgSCH e.1) s

/-- A command dispatched to cores (R24, R290, R501, R515). -/
def startCmd (s : State) (i : Nat) (c : Cmd) (cores : List Nat) : State :=
  match ensureTag s i c with
  | none => s
  | some (_, s) =>
    let ft := ftNs s
    let s := modCmd s i fun c =>
      { c with phase := .running, cores, dispatched := true, startFt := ft, dispatchedAt := s.now, resumedAt := s.now,
               nextGroup := 0, liveGroups := 0, turn := 0, begun := [] }
    let s := modQueue s c.queue fun q => { q with order := q.order.filter fun x => x != i }
    let s := { s with sch := { s.sch with rotation := aset s.sch.rotation (c.tenant, c.cls) c.queue,
                                          sliceDue := s.sch.sliceDue.filter fun x => x != i } }
    unitProgress (pmcEvent s pgSCH 0x0100 1 (some c.ctx)) 1

def doDispatch (s : State) (p : Nat) : State :=
  match nextHead s p with
  | some (i, c) => startCmd s i c (coresFor s i c)
  | none => s

def execDispatch (partition : Nat) (s : State) : Host.Outcome State Fault Refusal :=
  if dispatcherRuns s then .next (doDispatch (schSafePoints s) partition) else .next s

/-! ### SLICE_EXPIRE (R520) -/

/-- The slice of a class in ms; REALTIME has none. -/
def sliceMs (s : State) (cls : Nat) : Option Nat :=
  let v := reg s Reg.schSlice
  match cls with
  | 1 => some (bitsOf v 7 0)
  | 2 => some (bitsOf v 15 8)
  | 3 => some (bitsOf v 23 16)
  | _ => none

def sliceOver (s : State) (i : Nat) : Bool :=
  s.boot.serving && !s.sch.sliceDue.contains i &&
  match cmdOf s i with
  | some c => c.phase == .running && (match sliceMs s c.cls with | some n => since s c.resumedAt (msec n) | none => false)
  | none => false

def doSliceExpire (s : State) (i : Nat) : State :=
  regSafePoint { s with sch := { s.sch with sliceDue := i :: s.sch.sliceDue } } pgSCH Reg.schSlice

def execSliceExpire (cmd : Nat) (s : State) : Host.Outcome State Fault Refusal :=
  if sliceOver s cmd then .next (doSliceExpire s cmd) else .next s

/-! ### PREEMPT (R520–R522, R527) -/

/-- A running command may be pre-empted for a waiting one by their classes, contexts and slices (R520). -/
def mayPreempt (s : State) (v : Nat) (run wait : Cmd) : Bool :=
  run.cls != 0 && (decide (wait.cls < run.cls)
    || (wait.cls == run.cls && wait.ctx != run.ctx && s.sch.sliceDue.contains v))

/-- A gang is pre-empted only if it is replayable (R522), and not while it may be past its commit point (R316). -/
def gangMayStop (s : State) (c : Cmd) : Bool :=
  !c.d.isGang || ((gangOf s c).any Gang.replays && !awaitsGo s c)

/-- The running commands that the waiting one may displace. -/
def displaceable (s : State) (w : Cmd) : List (Nat × Cmd) :=
  s.cmds.filter fun e => e.2.phase == .running && mayPreempt s e.1 e.2 w && gangMayStop s e.2

/-- The commands that are leaving their cores. -/
def leaving (s : State) : List (Nat × Cmd) :=
  s.cmds.filter fun e => e.2.started && e.2.phase != .running

/-- A core without some commands would accept the waiting one. -/
def wouldAccept (s : State) (core w : Nat) (c : Cmd) (gone : List (Nat × Cmd)) : Bool :=
  let k := gone.foldl (fun k e => k.dropWork e.1 (coreCyc s core) e.2.d.cmdId) (coreOf s core)
  let others := (cmdsOn s core).filter fun e => !(gone.any fun x => x.1 == e.1)
  acceptsIn s k core w c others.length

/-- The commands whose leaving would let the waiting one be placed. -/
def displaced (s : State) (w : Nat) (c : Cmd) : List (Nat × Cmd) :=
  let l := displaceable s c
  let cores := (List.range 192).filter fun k => wouldAccept s k w c (leaving s ++ l)
  l.filter fun e => e.2.cores.any fun k => cores.contains k

/-- The lowest class first, then the command dispatched or restored most recently (R520). -/
def lastVictim : List (Nat × Cmd) → Option Nat
  | [] => none
  | e :: t =>
    match lastVictim t, t with
    | none, _ => some e.1
    | some b, t =>
      match t.find? fun x => x.1 == b with
      | some x => if x.2.cls < e.2.cls ∨ (x.2.cls = e.2.cls ∧ x.2.resumedAt ≤ e.2.resumedAt) then some e.1 else some b
      | none => some e.1

/-- The waiting command is ready, or a step's command whose cores are cleared ahead (R520). -/
def waitsForCores (s : State) (w : Nat) (c : Cmd) : Bool := c.undispatched && (c.seq.isSome || readyCmd s w c)

def preemptReady (s : State) (v w : Nat) : Bool :=
  s.boot.serving && dispatcherRuns s &&
  match cmdOf s w with
  | some c => waitsForCores s w c
      && !((List.range 192).any fun k => wouldAccept s k w c (leaving s)) && lastVictim (displaced s w c) == some v
  | none => false

/-- Bytes a FULL save of a group takes: rows, scalar registers, predicates, mask stack, LMODE. -/
def groupBytes (g : Group) : Nat := if g.ended then 0 else 128 * g.rows + 512 + 32 + 12 * g.stack.length + 4

/-- Bytes of an accumulator row with its tags, and of both weight sets (R162). -/
def accRowBytes : Nat := 400
def weightBytes : Nat := 55296

/-- Bytes of save-pool extents of 2 MiB (R527). -/
def extents (n : Nat) : Nat := ceilDiv n 2097152 * 2097152

/-- The greatest that a save of the command can take. -/
def saveBound (s : State) (i : Nat) (c : Cmd) : Nat :=
  extents ((c.cores.map fun core =>
    let k := coreOf s core
    ((k.groups.filter fun e => e.2.cmd == i).map fun e => groupBytes e.2).foldl (· + ·) 0 + allocBytes k i
      + (if c.d.isMatrix then 2730 * accRowBytes + weightBytes else 0)).foldl (· + ·) 0)

def poolBytes (s : State) : Nat := reg s Reg.schSavepool * 2 ^ 30

/-- SCH_SAVE_POOL_SHORT about a command. -/
def logPoolShort (s : State) (c : Cmd) : State :=
  errWrite s { errBase s Code.schSavePoolShort 0 (pgId pgSCH) with tenant := c.tenant, ctx := c.ctx, cmdId := c.d.cmdId }

/-- Kills for pre-emption counted (R544). -/
def countKill (s : State) (ctx : Nat) : State := pmcEvent (incReg s Reg.schKills 0) pgSCH 0x0101 1 (some ctx)

/-- A save begins with its room in the pool taken (R524, R527). -/
def beginSave (s : State) (i need : Nat) : State :=
  let s := modCmd s i fun c => { c with phase := .saving s.now, why := some .preempted, saveBytes := need }
  { s with sch := { s.sch with poolUsed := s.sch.poolUsed + need } }

/-- A pre-empted command is killed or saved (R521, R522, R527). -/
def doPreempt (s : State) (v : Nat) : State :=
  match cmdOf s v with
  | none => s
  | some c =>
    if c.d.isGang then
      countKill (settled (endGang s c Code.depPoisoned true)) c.ctx
    else if c.replayable ∧ s.now < c.dispatchedAt + usec (reg s Reg.schKillmax) ∧ c.kills < reg s Reg.schKilllimit then
      countKill (killRun s v) c.ctx
    else
      let need := saveBound s v c
      if s.sch.poolUsed + need ≤ poolBytes s then beginSave s v need
      else if c.replayable then countKill (killRun s v) c.ctx
      else logPoolShort s c

def execPreempt (victim waiting : Nat) (s : State) : Host.Outcome State Fault Refusal :=
  if preemptReady s victim waiting then .next (doPreempt s victim) else .next s

/-! ### Save points (R525, R526) -/

/-- An entry of a save-point table. -/
structure SavePoint where
  vlive : Nat
  slive : Nat
  spOff : Nat
  spLen : Nat
  row   : Nat
  rows  : Nat
  rsv   : Bool
  deriving DecidableEq, Repr

def parseSavePoint (b : List Byte) : SavePoint :=
  { vlive := fld b 0 1, slive := fld b 8 8, spOff := fld b 0x10 4, spLen := fld b 0x14 4, row := fld b 0x18 2,
    rows := fld b 0x1A 2, rsv := fld b 1 7 != 0 || fld b 0x1C 4 != 0 }

/-- The checks of R526. -/
def savePointOk (c : Cmd) (alloc : Nat) (p : SavePoint) : Bool :=
  !p.rsv && decide (p.vlive ≤ c.d.vregs ∧ p.spOff % 32 = 0 ∧ p.spLen % 32 = 0 ∧ p.spOff + p.spLen ≤ alloc
    ∧ p.rows ≤ 2730 ∧ p.row + p.rows ≤ 2730)

/-- Bytes that the module holds elsewhere, left open. -/
def freeBytes : Nat → State → List Byte × State
  | 0, s => ([], s)
  | n + 1, s =>
    let r := freeNat s 8
    let t := freeBytes n r.2
    (BitVec.ofNat 8 r.1 :: t.1, t.2)

/-- Entry `n` of a command's table; a table outside this module's memory holds what the run does not show. -/
def savePointAt (s : State) (i : Nat) (c : Cmd) (n : Nat) : SavePoint × State :=
  let va := c.d.saveptVa + 16 + 32 * n
  let pa : Option Nat := match xlate s c.ctx i va .read with
    | .ok t => localPa s i (t.target s va)
    | _ => none
  match pa with
  | some a => (parseSavePoint (rdBytes s a 32), s)
  | none => let r := freeBytes 32 s; (parseSavePoint r.1, r.2)

/-! ### CONTEXT_SAVE_DONE (R107, R121, R162, R198, R270, R523–R528) -/

/-- The groups of a command on a core. -/
def myGroups (k : CoreSt) (cmd : Nat) : List (Nat × Group) := k.groups.filter fun e => e.2.cmd == cmd

/-- A group stands at an instruction boundary and nothing of it is under way. -/
def groupStill (s : State) (c : Cmd) (g : Group) : Bool :=
  g.ended || (groupFrozen s c g && g.sb.isEmpty && g.penalty.isNone)

/-- The array's commands that have started are complete, each mover stands between tiles, the merging buffer holds nothing
of the command. -/
def coreStill (s : State) (cmd : Nat) (c : Cmd) (core : Nat) : Bool :=
  let k := coreOf s core
  let a := k.arr
  let mine (id : Nat) : Bool := a.queue.any fun q => q.id == id && q.cmd == cmd
  (myGroups k cmd).all (fun e => groupStill s c e.2)
    && !(a.load.any fun l => mine l.id) && !(a.swaps.any fun w => mine w.1) && !(a.streams.any fun r => mine r.id)
    && !(a.drain.any fun d => mine d.id && d.start.isSome)
    && k.movers.all (fun m => m.2.cmd != cmd || m.2.phase == .fresh || m.2.phase == .retry)
    && !(k.mbuf.any fun e => e.2.cmd == cmd)

/-- Quiesced (R528): nothing of the command is in flight. -/
def saveStill (s : State) (i : Nat) (c : Cmd) : Bool :=
  c.cores.all (coreStill s i c) && !(s.ms.loads.any fun e => e.2.cmd == i) && !(s.ms.atoms.any fun e => e.2.cmd == i)
    && !(s.ms.reqs.any fun r => r.2.cmd == i) && !hostWriting s i

/-- What a save point leaves of a group: its live registers and what every mode keeps. -/
def markedGroup (p : SavePoint) (g : Group) : Group :=
  { g with v := g.v.filter fun e => decide (e.1 < p.vlive), s := g.s.filter fun e => p.slive.testBit e.1, p := [],
           stack := [] }

/-- The groups of a core as they are saved, with the save points they stopped at; none for a group saved in full. -/
def saveGroups (i : Nat) (c : Cmd) (alloc : Nat) :
    List (Nat × Group) → State → List (Nat × Group × Option SavePoint) × State
  | [], s => ([], s)
  | (slot, g) :: t, s =>
    let r : (Group × Option SavePoint) × State :=
      match saveFull s c, g.halt with
      | false, .marked n =>
        let e := savePointAt s i c n
        if savePointOk c alloc e.1 then ((markedGroup e.1 g, some e.1), e.2) else ((g, none), e.2)
      | _, _ => ((g, none), s)
    let rest := saveGroups i c alloc t r.2
    ((slot, r.1.1, r.1.2) :: rest.1, rest.2)

/-- A place lies in one of some ranges. -/
def inRanges (l : List (Nat × Nat)) (n : Nat) : Bool := l.any fun r => decide (r.1 ≤ n ∧ n < r.1 + r.2)

/-- A command's scratchpad by allocation offset, bytes that are not 0. -/
def scratchCells (k : CoreSt) (cmd : Nat) : List (Nat × Byte) :=
  match mget k.allocs cmd with
  | none => []
  | some a =>
    (List.range a.granules.length).flatMap fun i =>
      (k.scratch.filter fun e => e.1 / 65536 == a.granules.getD i 0).map fun e => (i * 65536 + e.1 % 65536, e.2)

/-- How much of `n` places the union of some ranges covers. -/
def covered (l : List (Nat × Nat)) (unit n : Nat) : Nat :=
  ((List.range (n / unit)).filter fun i => inRanges l (i * unit)).length * unit

/-- What is saved of one core, and its size. -/
def saveCore (s : State) (i : Nat) (c : Cmd) (core : Nat) : (SavedCore × Nat) × State :=
  let k := coreOf s core
  let alloc := allocBytes k i
  let r := saveGroups i c alloc (myGroups k i) s
  let full := r.1.isEmpty || r.1.any fun e => e.2.2.isNone && !e.2.1.ended
  let sps := r.1.filterMap fun e => e.2.2
  let sp := if full then [(0, alloc)] else sps.map fun p => (p.spOff, p.spLen)
  let ac := if full then [(0, 2730)] else sps.map fun p => (p.row, p.rows)
  let matrix := k.arr.cmd == some i
  let saved : SavedCore :=
    { core, groups := r.1.map fun e => (e.1, e.2.1), scratch := (scratchCells k i).filter fun e => inRanges sp e.1,
      rows := if matrix then k.arr.rows.filter fun e => inRanges ac e.1 else [],
      active := if matrix then k.arr.active else .cleared, shadow := if matrix then k.arr.shadow else .cleared,
      queue := k.arr.queue.filter fun q => q.cmd == i,
      movers := (k.movers.filter fun m => m.2.cmd == i).map Prod.snd,
      launched := k.launched.filter fun m => m.cmd == i, bars := k.bars.filter fun e => e.1.1 / 4294967296 == i,
      allocN := alloc / 65536, trap := k.arr.trap,
      colinv := if matrix then colinvRegs.map fun r => reg s r core else [] }
  let regs := (r.1.map fun e => match e.2.2 with
    | some p => 128 * p.vlive + 8 * popCount 64 p.slive
    | none => groupBytes e.2.1).foldl (· + ·) 0
  let size := regs + (if full then alloc else covered sp 32 alloc)
    + (if matrix then covered ac 1 2730 * accRowBytes + weightBytes else 0)
  ((saved, size), r.2)

/-- What is saved of every core. -/
def saveCores (i : Nat) (c : Cmd) : List Nat → State → (List SavedCore × Nat) × State
  | [], s => (([], 0), s)
  | core :: t, s =>
    let r := saveCore s i c core
    let rest := saveCores i c t r.2
    ((r.1.1 :: rest.1.1, r.1.2 + rest.1.2), rest.2)

/-- The state is in the pool: the cores are free, the save is counted and its traffic charged. A save that the pool cannot
hold waits on its cores (R527). -/
def doSaveDone (s : State) (i : Nat) (c : Cmd) : State :=
  let r := saveCores i c c.cores s
  let size := extents r.1.2
  if s.sch.poolUsed - c.saveBytes + size ≤ poolBytes s then
    let s := c.cores.foldl (fun s core => modCore s core fun k => k.dropWork i (coreCyc s core) c.d.cmdId) r.2
    let s := { s with sch := { s.sch with poolUsed := s.sch.poolUsed - c.saveBytes + size } }
    let s := modCmd s i fun c => { c with phase := .saved, saved := r.1.1, saveBytes := size, cores := [] }
    chargeHbm (pmcEvent (incReg s Reg.schSwitches 0) pgSCH 0x0102 1 (some c.ctx)) (some i) r.1.2
  else s

def execContextSaveDone (cmd : Nat) (s : State) : Host.Outcome State Fault Refusal :=
  match cmdOf s cmd with
  | some c =>
    match c.phase with
    | .saving _ => if saveStill s cmd c then .next (doSaveDone s cmd c) else .next s
    | _ => .next s
  | none => .next s

/-! ### MARKED_FULL_FALLBACK, MARK_TIMEOUT (R524, R525) -/

/-- Some group has not come to a save point. -/
def marksOwed (s : State) (i : Nat) (c : Cmd) : Bool :=
  c.cores.any fun core => (myGroups (coreOf s core) i).any fun e => !e.2.ended && !groupFrozen s c e.2

/-- A MARKED save of the mode has waited for a group for some time since the notice. -/
def markLate (s : State) (i mode n : Nat) : Bool :=
  match cmdOf s i with
  | some c => match c.phase with
    | .saving t => !saveFull s c && saveMode s c.ctx == mode && since s t n && marksOwed s i c
    | _ => false
  | none => false

/-- Every group that has not come to a save point is saved in full. -/
def markFull (s : State) (i : Nat) : State :=
  match cmdOf s i with
  | none => s
  | some c =>
    let stop (g : Group) : Group := if g.cmd = i ∧ g.halt = .run then { g with halt := .full } else g
    let s := c.cores.foldl (fun s core =>
      modCore s core fun k => { k with groups := k.groups.map fun e => (e.1, stop e.2) }) s
    pmcEvent s pgSCH 0x0103 1 (some c.ctx)

def execMarkedFullFallback (cmd : Nat) (s : State) : Host.Outcome State Fault Refusal :=
  if markLate s cmd 2 (usec 50) then .next (markFull s cmd) else .next s

def doMarkTimeout (s : State) (i : Nat) : State :=
  match cmdOf s i with
  | none => s
  | some c =>
    errWrite (markFull s i) { errBase s Code.schMarkTimeout 0 (pgId pgSCH) with
                                tenant := c.tenant, ctx := c.ctx, cmdId := c.d.cmdId }

def execMarkTimeout (cmd : Nat) (s : State) : Host.Outcome State Fault Refusal :=
  if markLate s cmd 1 (msec (reg s Reg.schMarkmax)) then .next (doMarkTimeout s cmd) else .next s

/-! ### CONTEXT_RESTORE (R523) -/

/-- Every saved group finds its slot free and its rows. -/
def slotsFree (k : CoreSt) (gs : List (Nat × Group)) : Bool :=
  gs.all (fun e => (mget k.groups e.1).isNone) &&
    (List.range 4).all fun j =>
      let rows (l : List (Nat × Group)) : Nat := ((l.filter fun e => e.1 / 64 == j).map fun e => e.2.rows).foldl (· + ·) 0
      decide (rows k.groups + rows gs ≤ 2048)

/-- A core can take what another held. -/
def restoreFits (s : State) (i : Nat) (c : Cmd) (core : Nat) (v : SavedCore) : Bool :=
  let k := coreOf s core
  coreFor s c core && coreTakes s core && !suspectHolds s core i && decide ((cmdsOn s core).length < 32)
    && matrixFree s k i c && slotsFree k v.groups && decide (v.allocN ≤ (freeGranules k).length)

def restoreReady (s : State) (i : Nat) (cores : List Nat) : Bool :=
  s.boot.serving && dispatcherRuns s &&
  match cmdOf s i with
  | some c => c.phase == .saved && c.why == some .preempted && cores.length == c.saved.length
      && cores.eraseDups.length == cores.length
      && (cores.zip c.saved).all fun e => restoreFits s i c e.1 e.2
  | none => false

/-- A saved group as it goes on: what it waited for outside itself is tried again; a group whose fault record still awaits
its response stays parked. -/
def wakeSaved (s : State) (core : Nat) (g : Group) : Group :=
  let wait : GWait := match g.wait with
    | .barrier b p => .barrier b p
    | .token t => .token t
    | .fence f => .fence f
    | .parked r => if (mget s.xlt.recs r).isSome then .parked r else .none
    | _ => .none
  { g with wait, halt := .run, lastIssue := coreCyc s core + 1, eligAt := none }

/-- Queue entries re-enter in order, numbered afresh, their operands read from the scratchpad as it stands. -/
def reenter (k : CoreSt) (cyc : Nat) : List ArrCmd → ArrayState → ArrayState
  | [], a => a
  | q :: t, a =>
    reenter k cyc t { a with queue := a.queue ++ [{ q with id := a.nextId, at_ := cyc, old := k.scratch }], nextId := a.nextId + 1 }

/-- The registers of a core that the matrix command restored there finds: its sticky bits as saved (R169), and counts of the DRAINs that
it runs here alone (R230). A command that is the most recent one there goes on with those it left. -/
def restoreRegs (s : State) (core cmd : Nat) (v : SavedCore) : State :=
  if (coreOf s core).arr.cmd = some cmd ∧ v.core = core then s
  else
    let s := (colinvRegs.zip v.colinv).foldl (fun s e => setReg s e.1 core e.2) s
    qntCounts.foldl (fun s r => setReg s r core 0) s

/-- One core restored. -/
def restoreCore (s : State) (i : Nat) (c : Cmd) (core : Nat) (v : SavedCore) : State :=
  let s := emptyL1 (noteWork s core) core
  let s := if c.d.isMatrix && c.begun.contains v.core then restoreRegs s core i v else s
  let cyc := coreCyc s core
  let gs := v.groups.map fun e => (e.1, wakeSaved s core e.2)
  modCore s core fun k =>
    let grans := (freeGranules k).take v.allocN
    let k := { k with allocs := mset k.allocs i ⟨grans⟩, scratch := k.scratch.filter fun e => !grans.contains (e.1 / 65536) }
    let k := v.scratch.foldl (fun k e => scrPut k i e.1 e.2) k
    let fresh (m : MoverCmd) : MoverCmd := { m with phase := .fresh, waiting := [], trs := [], todo := [], out := [], old := k.scratch }
    let arr := if c.d.isMatrix && c.begun.contains v.core then
        reenter k cyc v.queue { k.arr with
          rows := v.rows, active := v.active, shadow := v.shadow, cmd := some i, trap := v.trap, ghosts := [],
          streams := k.arr.streams.filter fun r => !isGhost k.arr r.id }
      else k.arr
    { k with groups := gs.foldl (fun m e => mset m e.1 e.2) k.groups, bars := k.bars ++ v.bars,
             launched := k.launched ++ (v.movers ++ v.launched).map fresh, arr }

/-- A group's parts of the fault records are moved to the core it goes on at. -/
def moveWaiters (i : Nat) (m : List (Nat × Nat)) (w : XWaiter) : XWaiter :=
  match w with
  | .group c g k => if k = i then .group ((aget m c).getD c) g k else w
  | .mover c k => if k = i then .mover ((aget m c).getD c) k else w
  | .pre k => .pre k

def doRestore (s : State) (i : Nat) (cores : List Nat) : State :=
  match cmdOf s i with
  | none => s
  | some c =>
    let bytes := c.saveBytes
    let m := (c.saved.map SavedCore.core).zip cores
    let s := (cores.zip c.saved).foldl (fun s e => restoreCore s i c e.1 e.2) s
    let recs := s.xlt.recs.map fun e => (e.1, { e.2 with waiters := e.2.waiters.map (moveWaiters i m) })
    let s := { s with xlt := { s.xlt with recs },
                      sch := { s.sch with poolUsed := s.sch.poolUsed - bytes,
                                          sliceDue := s.sch.sliceDue.filter fun x => x != i } }
    let s := modCmd s i fun c =>
      { c with phase := .running, why := none, saved := [], saveBytes := 0, cores, resumedAt := s.now,
               begun := c.begun.filterMap (aget m) }
    chargeHbm s (some i) bytes

def execContextRestore (cmd : Nat) (cores : List Nat) (s : State) : Host.Outcome State Fault Refusal :=
  if restoreReady s cmd cores then .next (doRestore s cmd cores) else .next s

/-! ### SCH_SAVEPOOL_WRITE (R527) -/

/-- Software HBM that no object occupies. -/
def softFree (s : State) : Nat :=
  (hbmBytes s - softBase) - ((usedRegions s).map Prod.snd).foldl (· + ·) 0

/-- A resize takes effect if the pool is empty and there is room, or is ignored. -/
def doSavepool (s : State) (v : Nat) : State :=
  let n := min (v % 1024) 512
  if s.sch.poolUsed = 0 ∧ n * 2 ^ 30 ≤ softFree s then setReg s Reg.schSavepool 0 n
  else logOnly s Code.schSavePoolShort pgSCH

def execSchSavepoolWrite (tenant : Nat) (value : Word) (s : State) : Host.Outcome State Fault Refusal :=
  if fwServes s pgSCH || windowOpen s then
    .next (mgmtWrite s tenant (.write (pgSCH + 0x4C) 4 (value.setWidth 64)) fun s => doSavepool s value.toNat)
  else .next (park s tenant (.write (pgSCH + 0x4C) 4 (value.setWidth 64)))

end Sys2Proof.Machine
end

