-- ==== Sys2Proof/Machine/Serving.lean ====
section
/-! DEFINITION. The sequence engine (R529–R538) and the calibration of the energy counters (R541).
Assumption log: DEDUCED 74, 105, 112; DESIGN CHOICE 75, 76, 77, 107. -/

namespace Sys2Proof.Machine

/-! ### Models (R530, R547) -/

/-- A register that SEQ_MSEL selects, of model `m`: kept beyond the page space. -/
def seqKey (m : Nat) (r : RegDef) : Nat := 0x2000000 + 64 * m + (r.base - 0x11078)
def mReg (s : State) (m : Nat) (r : RegDef) : Nat := rawReg s (seqKey m r) r.reset

def modelEnabled (s : State) (m : Nat) : Bool := mReg s m Reg.seqMcfg / 2 ^ 31 == 1
def modelQueue (s : State) (m : Nat) : Nat := mReg s m Reg.seqMcfg % 65536

/-- The context of a model's queue, with its number. -/
def modelCtx (s : State) (m : Nat) : Option (Nat × Context) :=
  (mget s.obj.queues (modelQueue s m)).bind fun q => (mget s.obj.contexts q.ctx).map fun x => (q.ctx, x)

/-- The slots of a template from a VA on: none where one is unmapped, an empty list where one lies at another module. -/
def templateSlots (s : State) (x : Context) (va : Nat) : Nat → Option (List (List Byte))
  | 0 => some []
  | n + 1 =>
    match placeOf s x va, templateSlots s x (va + 128) n with
    | .unmapped, _ => none
    | _, none => none
    | .away, _ => some []
    | .here pa, some t => some (rdBytes s pa 128 :: t)

/-- The template at a VA with its range entries: as the memory here holds it, as the command says where some of it lies at
another module, none where it is no readable device-half memory (R536, R537). -/
def templateAt (s : State) (x : Context) (va : Nat) (d : Option Descriptor) : Option Descriptor :=
  match templateSlots s x va 1 with
  | none => none
  | some head =>
    let ranges := if head.isEmpty then ((d.map fun d => d.ranges.length).getD 0) else rangeCount head.flatten
    let n := 1 + ceilDiv ranges 8
    if inDeviceHalf va (128 * n) then
      match templateSlots s x va n with
      | none => none
      | some l => if l.length < n then d else some (parseDesc l.flatten 0)
    else none

/-- SEQ_MLIST is a writable IN_PLACE mapping of 1 MiB (R535, R537). -/
def listsOk (x : Context) (va : Nat) : Bool :=
  va % 0x100000 == 0 && inDeviceHalf va 0x100000 && rangeMapped x va 0x100000
    && (rangeLeaves x va 0x100000).all fun l => l.w && match l.back with | .inPlace _ => true | _ => false

/-- Some of a model's templates lies at another module. -/
def templatesAway (s : State) (m : Nat) : Bool :=
  match modelCtx s m with
  | none => false
  | some (_, x) =>
    let away (va : Nat) : Bool :=
      match templateSlots s x va 1 with
      | none => false
      | some head =>
        let n := 1 + ceilDiv (rangeCount head.flatten) 8
        head.isEmpty || (templateSlots s x va n).any fun l => decide (l.length < n)
    away (mReg s m Reg.seqMtmpl) || away (mReg s m Reg.seqMtmpl + 0x1000)

/-- A model's two templates, prefill before decode; `t` where they lie at another module. -/
def modelTemplates (s : State) (m : Nat) (t : Option (Descriptor × Descriptor)) : Option (Descriptor × Descriptor) :=
  match modelCtx s m with
  | none => none
  | some (_, x) =>
    match templateAt s x (mReg s m Reg.seqMtmpl) (t.map Prod.fst),
        templateAt s x (mReg s m Reg.seqMtmpl + 0x1000) (t.map Prod.snd) with
    | some p, some d => some (p, d)
    | _, _ => none

/-- The checks of R537. -/
def modelOk (s : State) (m : Nat) (t : Option (Descriptor × Descriptor)) : Bool :=
  match modelCtx s m, modelTemplates s m t with
  | some (_, x), some (p, d) =>
    x.phase == .live && listsOk x (mReg s m Reg.seqMlist) && !descBad s x.tenant p && !descBad s x.tenant d
      && decide (mReg s m Reg.seqMbase + mReg s m Reg.seqMcount ≤ 65536)
  | _, _ => false

/-- The ranges of two models overlap (R530). -/
def modelsOverlap (s : State) (m n : Nat) : Bool :=
  overlaps (mReg s m Reg.seqMbase) (mReg s m Reg.seqMcount) (mReg s n Reg.seqMbase) (mReg s n Reg.seqMcount)

/-- SEQ_MODEL_INVALID with the model (R537). -/
def logModel (s : State) (m : Nat) : State :=
  errWrite s { errBase s Code.seqModelInvalid 0 (pgId pgSEQ) with detail := m }

/-- A command's slots of the queue are admission entries while the model it serves is enabled (R531). -/
def serveQueue (s : State) (m : Nat) (on : Bool) : State :=
  modQueue s (modelQueue s m) fun q => { q with model := if on then some m else if q.model = some m then none else q.model }

def setMcfg (s : State) (m v : Nat) : State := setRaw s (seqKey m Reg.seqMcfg) v

/-- SEQ_MCFG written (R530, R537): settings of an enabled model stay; ENABLE = 0 disables it. -/
def doModelEnable (s : State) (v : Nat) (t : Option (Descriptor × Descriptor)) : State :=
  let m := reg s Reg.seqMsel % 256
  if modelEnabled s m then
    let s := if v % 65536 = modelQueue s m then s else busyWrite s pgSEQ
    if v / 2 ^ 31 % 2 = 1 then s else setMcfg (serveQueue s m false) m (modelQueue s m)
  else
    let s := setMcfg s m (v % 65536)
    if v / 2 ^ 31 % 2 = 0 then s
    else if (List.range 256).any fun n => n != m && modelEnabled s n && modelsOverlap s m n then
      logOnly s Code.seqAdmitInvalid pgSEQ
    else if modelOk s m t then serveQueue (setMcfg s m (v % 65536 + 2 ^ 31)) m true
    else logModel s m

def execSeqModelEnable (tenant : Nat) (value : Word) (templates : Option (Descriptor × Descriptor)) (s : State) :
    Host.Outcome State Fault Refusal :=
  .next (mgmtWrite s tenant (.modelEnable value templates) fun s => if seqPresent s then doModelEnable s value.toNat templates else s)

/-! ### Admission entries (R531, R532) -/

/-- The admission entry that the engine takes next from a queue. -/
def nextAdmission (s : State) (i : Nat) : Option (Nat × Nat × Admission) :=
  match mget s.obj.queues i with
  | none => none
  | some q =>
    match q.model, q.buffered with
    | some m, .admission op e :: _ =>
      if !q.stopped && ctxTakes s q.ctx && recordFree q then some (m, op, e) else none
    | _, _ => none

/-- The entry's slot is consumed and its record reserved (R497, R531). -/
def takeAdmission (s : State) (i : Nat) : State :=
  askRings (modQueue s i fun q => { q with taken := q.taken + 1, buffered := q.buffered.tail, recsHeld := q.recsHeld + 1 })

/-- A record of the engine written to a queue: its counters are 0 (R532, R538). -/
def seqRecord (s : State) (i : Nat) (cmdId : DWord) (status startFt : Nat) : State :=
  match mget s.obj.queues i with
  | none => s
  | some q =>
    let t := ((mget s.obj.contexts q.ctx).map Context.tenant).getD 0
    let d := recordBytes cmdId status false (phaseOf q q.recs) 0 startFt (ftNs s) 0 0 0 (q.taken % 2 ^ 32) 0 0
    (putRecord s i q t q.recs d .other).2

def seqGet (s : State) (i : Nat) : Option SeqEntry := mget s.srv.seqs i
def setSeq (s : State) (i : Nat) (e : SeqEntry) : State := { s with srv := { s.srv with seqs := mset s.srv.seqs i e } }
def freeSeq (s : State) (i : Nat) : State := { s with srv := { s.srv with seqs := mdel s.srv.seqs i } }

/-- A sequence ends: its entry becomes FREE and the record reserved at its admission is written (R538). -/
def endSeq (s : State) (i : Nat) (e : SeqEntry) (status : Nat) : State := seqRecord (freeSeq s i) e.queue e.user status e.admitFt

/-- The table entry that an admission entry names, if it lies in the model's range. -/
def seqIndex (s : State) (m : Nat) (e : Admission) : Option Nat :=
  if e.seq < mReg s m Reg.seqMcount then some (mReg s m Reg.seqMbase + e.seq) else none

def admitOk (s : State) (m : Nat) (e : Admission) : Bool :=
  !e.rsv && decide (e.prio ≤ 3 ∧ 1 ≤ e.prompt ∧ e.prompt < e.maxLen ∧ e.maxLen ≤ e.kvPages * mReg s m Reg.seqMkvpage)
    && match seqIndex s m e with
       | some i => (seqGet s i).isNone
       | none => false

/-- An entry refused: its record is written at once (R532). -/
def refuseEntry (s : State) (q : Nat) (e : Admission) : State := seqRecord s q e.cmdId Code.seqAdmitInvalid 0

/-- ADMIT: the entry becomes PREFILL. -/
def doAdmit (s : State) (q m : Nat) (e : Admission) : State :=
  match seqIndex s m e, mget s.obj.queues q with
  | some i, some k =>
    let t := ((mget s.obj.contexts k.ctx).map Context.tenant).getD 0
    setSeq s i
      { tenant := t, queue := q, state := 1, inflight := false, pausePend := false, releasePend := false, fails := 0,
        model := m, prio := e.prio, deadline := e.deadline, length := 0, promptLeft := e.prompt, kvList := e.kvList,
        kvPages := e.kvPages, maxLen := e.maxLen, user := e.cmdId, admitFt := ftNs s, tokensOut := 0,
        cqSlot := (k.recs + k.recsHeld - 1) % 2 ^ k.log2Cq, waiting := [], stepCount := 0, stepPrefill := false,
        stepPos := 0 }
  | _, _ => s

/-- An operation that is none of the four is refused like an ADMIT that breaks a condition. -/
def execSeqAdmit (queue : Nat) (s : State) : Host.Outcome State Fault Refusal :=
  match nextAdmission s queue with
  | some (m, op, e) =>
    if op = 2 ∨ op = 3 ∨ op = 4 then .next s
    else
      let s' := takeAdmission s queue
      .next (if op = 1 ∧ admitOk s' m e = true then doAdmit s' queue m e else refuseEntry s' queue e)
  | none => .next s

/-- The live entry that a PAUSE, RESUME or RELEASE names, its reserved bytes being 0. -/
def namedSeq (s : State) (m : Nat) (e : Admission) : Option (Nat × SeqEntry) :=
  if e.rsv then none else (seqIndex s m e).bind fun i => (seqGet s i).map fun x => (i, x)

def doPause (s : State) (q m : Nat) (e : Admission) : State :=
  match namedSeq s m e with
  | some (i, x) =>
    if x.state = 3 then refuseEntry s q e
    else if x.inflight then setSeq s i { x with pausePend := true, waiting := x.waiting ++ [(2, e.cmdId)] }
    else seqRecord (setSeq s i { x with state := 3 }) q e.cmdId 0 0
  | none => refuseEntry s q e

def execPause (queue : Nat) (s : State) : Host.Outcome State Fault Refusal :=
  match nextAdmission s queue with
  | some (m, op, e) => if op = 2 then .next (doPause (takeAdmission s queue) queue m e) else .next s
  | none => .next s

def doResume (s : State) (q m : Nat) (e : Admission) : State :=
  match namedSeq s m e with
  | some (i, x) =>
    if x.state = 3 then
      seqRecord (setSeq s i { x with state := if x.promptLeft > 0 then 1 else 2 }) q e.cmdId 0 0
    else refuseEntry s q e
  | none => refuseEntry s q e

def execResume (queue : Nat) (s : State) : Host.Outcome State Fault Refusal :=
  match nextAdmission s queue with
  | some (m, op, e) => if op = 3 then .next (doResume (takeAdmission s queue) queue m e) else .next s
  | none => .next s

def doRelease (s : State) (q m : Nat) (e : Admission) : State :=
  match namedSeq s m e with
  | some (i, x) =>
    if x.inflight then setSeq s i { x with releasePend := true, waiting := x.waiting ++ [(4, e.cmdId)] }
    else seqRecord (endSeq s i x Code.seqReleased) q e.cmdId 0 0
  | none => refuseEntry s q e

def execRelease (queue : Nat) (s : State) : Host.Outcome State Fault Refusal :=
  match nextAdmission s queue with
  | some (m, op, e) => if op = 4 then .next (doRelease (takeAdmission s queue) queue m e) else .next s
  | none => .next s

/-! ### SEQ_STEP_RELEASE (R533–R537) -/

/-- Instants up to now have passed: the next step is the one after. -/
def passSteps (s : State) : State :=
  { s with srv := { s.srv with nextStep := match stepNow s with | some k => k + 1 | none => 0 } }

def templatesOf (l : List (Nat × Descriptor × Descriptor)) (m : Nat) : Option (Descriptor × Descriptor) :=
  (l.find? fun e => e.1 == m).map Prod.snd

/-- The models of a step: those whose step before has ended and whose checks pass; the others are logged and counted. -/
def stepModels (l : List (Nat × Descriptor × Descriptor)) : List Nat → State → List Nat × State
  | [], s => ([], s)
  | m :: t, s =>
    if (mget s.srv.steps m).isSome then
      let s := incReg s Reg.seqOverruns 0
      stepModels l t (logOnly s Code.seqStepOverrun pgSEQ)
    else if modelOk s m (templatesOf l m) then
      let r := stepModels l t s
      (m :: r.1, r.2)
    else stepModels l t (incReg (logModel s m) Reg.seqFails 0)

/-- The order of R534: PRIO, DEADLINE, index. -/
def entryBefore (a b : Nat × SeqEntry) : Bool :=
  decide (a.2.prio < b.2.prio ∨ (a.2.prio = b.2.prio ∧ (a.2.deadline < b.2.deadline ∨
    (a.2.deadline = b.2.deadline ∧ a.1 ≤ b.1))))

/-- What a step has taken: the tokens left of each model's prefill budget, the entries of each model's two lists. -/
structure Build where
  budget : NMap Nat
  counts : NMap (Nat × Nat)
  taken  : List (Nat × SeqEntry)
  deriving DecidableEq, Repr

/-- Entries taken in order, `room` at most (R534). -/
def takeEntries (s : State) : List (Nat × SeqEntry) → Nat → Build → Build
  | [], _, b => b
  | _, 0, b => b
  | (i, e) :: t, room + 1, b =>
    let pre := e.state == 1
    let left := mgetD b.budget e.model (mReg s e.model Reg.seqMpftok)
    let n := if pre then min (min e.promptLeft (mReg s e.model Reg.seqMchunk)) left else 1
    if n = 0 then takeEntries s t (room + 1) b
    else
      let c := mgetD b.counts e.model (0, 0)
      let e' := { e with inflight := true, stepCount := n, stepPrefill := pre, stepPos := if pre then c.1 else c.2 }
      takeEntries s t room
        { budget := if pre then mset b.budget e.model (left - n) else b.budget,
          counts := mset b.counts e.model (if pre then (c.1 + 1, c.2) else (c.1, c.2 + 1)),
          taken := b.taken ++ [(i, e')] }

/-- Bytes written to a writable IN_PLACE mapping of a context. -/
def writeList (s : State) (x va : Nat) (d : List Byte) : State :=
  match inPlacePa s x va with
  | some pa => wrBytes s pa d
  | none => s

/-- A work list's header (R535). -/
def listHeader (count step ft : Nat) : List Byte :=
  leBytes 4 count ++ leBytes 4 0 ++ leBytes 8 step ++ leBytes 8 ft ++ List.replicate 40 0

def listBase (pre : Bool) : Nat := if pre then 0 else 0x80000

/-- A work list written: header and entries, RESULT 0. -/
def writeLists (s : State) (m x step ft : Nat) (pre : Bool) (l : List (Nat × SeqEntry)) : State :=
  let base := mReg s m Reg.seqMlist + listBase pre
  let s := writeList s x base (listHeader l.length step ft)
  l.foldl (fun s e =>
    writeList s x (base + 0x40 + 16 * e.2.stepPos)
      (leBytes 4 e.1 ++ leBytes 4 e.2.length ++ leBytes 4 e.2.stepCount ++ leBytes 4 0)) s

/-- A step's command submitted, or for an empty list its fence signaled (R536). -/
def submitList (s : State) (m x tenant step : Nat) (pre : Bool) (d : Descriptor) (count : Nat) : State :=
  if count = 0 then if d.sigValid then settled (fenceSignal s d.sigFence step) else s
  else
    match mget s.obj.queues (modelQueue s m) with
    | none => s
    | some q =>
      let save := readSave s x d.saveptVa
      let s := save.2
      let d := { d with threads := count * d.threads, sigValue := step, saveCount := save.1 }
      let k := s.nextCmd
      let part := if pre then reg s Reg.seqParts % 16 else reg s Reg.seqParts / 16 % 16
      let c := { newCmd s (modelQueue s m) { q with ctx := x } tenant 0 d (some (m, pre)) with part := some part }
      let s := { s with cmds := mset s.cmds k c, nextCmd := k + 1 }
      let st := mgetD s.srv.steps m { cmds := [], status := 0, step }
      enterCmd { s with srv := { s.srv with steps := mset s.srv.steps m { st with cmds := st.cmds ++ [k] } } } k

/-- The lists and commands of one model. -/
def buildModel (l : List (Nat × Descriptor × Descriptor)) (taken : List (Nat × SeqEntry)) (step ft : Nat) (s : State)
    (m : Nat) : State :=
  match modelCtx s m, modelTemplates s m (templatesOf l m) with
  | some (xi, x), some (p, d) =>
    let mine := taken.filter fun e => e.2.model == m
    let pre := mine.filter fun e => e.2.stepPrefill
    let dec := mine.filter fun e => !e.2.stepPrefill
    let s := writeLists (writeLists s m xi step ft true pre) m xi step ft false dec
    let s := pmcEvent s pgSEQ 0x0102 2 (some xi)
    let s := submitList s m xi x.tenant step true p pre.length
    submitList s m xi x.tenant step false d dec.length
  | _, _ => s

def doStepRelease (s : State) (k : Nat) (l : List (Nat × Descriptor × Descriptor)) : State :=
  let ft := stepInstant s k
  let s := passSteps (pageSafePoint s pgSEQ)
  let r := stepModels l ((List.range 256).filter fun m => modelEnabled s m) s
  let s := r.2
  let open_ := s.srv.seqs.filter fun e => r.1.contains e.2.model && !e.2.inflight && (e.2.state == 1 || e.2.state == 2)
  let b := takeEntries s (sortBy entryBefore open_) (reg s Reg.seqMaxseq) { budget := [], counts := [], taken := [] }
  let s := b.taken.foldl (fun s e => setSeq s e.1 e.2) s
  let s := r.1.foldl (buildModel l b.taken k ft) s
  let s := setReg (setReg s Reg.seqStep 0 k) Reg.seqLastft 0 ft
  let ns := freeNat s 16
  let s := setReg ns.2 Reg.seqBuildNs 0 (ns.1 % 50001)
  unitProgress (pmcEvent (pmcEvent s pgSEQ 0x0100 1 none) pgSEQ 0x0101 b.taken.length none) 3

def execSeqStepRelease (templates : List (Nat × Descriptor × Descriptor)) (s : State) : Host.Outcome State Fault Refusal :=
  match stepDue s with
  | some k => .next (doStepRelease s k templates)
  | none => .next s

/-! ### SEQ_STEP_END (R538) -/

/-- RESULT of an entry as its list holds it; where the list is no longer mapped, as the command says. -/
def resultOf (s : State) (results : List (Nat × Nat)) (i : Nat) (e : SeqEntry) : Nat :=
  let va := mReg s e.model Reg.seqMlist + listBase e.stepPrefill + 0x4C + 16 * e.stepPos
  match (modelCtx s e.model).bind fun x => inPlacePa s x.1 va with
  | some pa => fromLe (rdBytes s pa 4)
  | none => (aget results i).getD 0

/-- PAUSE and RELEASE entries that waited take effect; where the sequence has ended they are refused. -/
def settleWaiting (s : State) (i : Nat) (l : List (Nat × DWord)) (queue : Nat) : State :=
  let s := match seqGet s i with
    | some x => if l.any fun w => w.1 == 2 then setSeq s i { x with state := 3 } else s
    | none => s
  let live := (seqGet s i).isSome
  let s := match seqGet s i with
    | some x => if l.any fun w => w.1 == 4 then endSeq s i x Code.seqReleased else s
    | none => s
  l.foldl (fun s w => seqRecord s queue w.2 (if live then 0 else Code.seqAdmitInvalid) 0) s

/-- An entry of a step whose commands all succeeded. -/
def advanceEntry (s : State) (results : List (Nat × Nat)) (i : Nat) (e : SeqEntry) : State :=
  let left := if e.stepPrefill then e.promptLeft - e.stepCount else e.promptLeft
  let x := { e with inflight := false, fails := 0, length := e.length + e.stepCount, promptLeft := left,
                    state := if e.stepPrefill ∧ left = 0 then 2 else e.state,
                    tokensOut := if e.stepPrefill then e.tokensOut else e.tokensOut + 1,
                    pausePend := false, releasePend := false, waiting := [] }
  if resultOf s results i e = 1 ∨ x.maxLen ≤ x.length then endSeq s i x 0 else setSeq s i x

/-- An entry of a step of which a command failed. -/
def failEntry (s : State) (i : Nat) (e : SeqEntry) (status : Nat) : State :=
  let x := { e with inflight := false, fails := e.fails + 1, pausePend := false, releasePend := false, waiting := [] }
  if x.fails ≥ 3 then endSeq s i x status else setSeq s i x

def doStepEnd (s : State) (m : Nat) (st : SeqStep) (results : List (Nat × Nat)) : State :=
  let mine := s.srv.seqs.filter fun e => e.2.model == m && e.2.inflight
  let s := { s with srv := { s.srv with steps := mdel s.srv.steps m } }
  let s := if st.status = 0 then s
    else incReg (logOnly s Code.seqStepFailed pgSEQ) Reg.seqFails 0
  mine.foldl (fun s e =>
    let s := if st.status = 0 then advanceEntry s results e.1 e.2 else failEntry s e.1 e.2 st.status
    settleWaiting s e.1 e.2.waiting e.2.queue) s

def execSeqStepEnd (model : Nat) (results : List (Nat × Nat)) (s : State) : Host.Outcome State Fault Refusal :=
  match mget s.srv.steps model with
  | some st => if st.cmds.isEmpty then .next (doStepEnd s model st results) else .next s
  | none => .next s

/-! ### ENERGY_CALIBRATION (R540, R541) -/

/-- Charged energy within 3 % of the metered energy. -/
def agrees (l : List (Nat × Nat)) : Bool :=
  let m := (l.map Prod.fst).foldl (· + ·) 0
  let c := (l.map Prod.snd).foldl (· + ·) 0
  decide (100 * c ≤ 103 * m ∧ 97 * m ≤ 100 * c)

/-- Over every interval of 1 s and more the charges agree with the meter: 10 to 19 calibrations in a row do, of which every
longer run is made. -/
def calibrated (l : List (Nat × Nat)) : Bool :=
  (List.range 10).all fun n => decide (l.length < n + 10) || agrees (l.take (n + 10))

/-- Energy charged to a command and its tenant (share 2 × command), or to a tenant for commands that have ended since the
last calibration (2 × tenant + 1). -/
def chargeEnergy (s : State) (e : Nat × Nat) : State :=
  let put (s : State) (t : Nat) : State := modAcct s t fun a => { a with energy := a.energy + e.2 }
  if e.1 % 2 = 1 then put s (e.1 / 2)
  else
    match cmdOf s (e.1 / 2) with
    | some c => put (modCmd s (e.1 / 2) fun c => { c with energy := c.energy + e.2 }) c.tenant
    | none => s

/-- The share names a command in the tables or a tenant. -/
def shareNamed (s : State) (k : Nat) : Bool :=
  if k % 2 = 1 then (mget s.obj.tenants (k / 2)).isSome else (cmdOf s (k / 2)).isSome

def calibReady (s : State) (meter unattr : Nat) (shares : List (Nat × Nat)) : Bool :=
  let all := (shares.map Prod.snd).foldl (· + ·) unattr
  s.boot.serving && since s s.srv.calibAt (msec 100) && shares.all (fun e => shareNamed s e.1)
    && calibrated (((meter, all) :: s.srv.calib).take 19)

def doCalibrate (s : State) (meter unattr : Nat) (shares : List (Nat × Nat)) : State :=
  let all := (shares.map Prod.snd).foldl (· + ·) unattr
  let s := { s with srv := { s.srv with
      meter := s.srv.meter + meter, unattr := s.srv.unattr + unattr, calibAt := s.now,
      calib := ((meter, all) :: s.srv.calib).take 19 } }
  shares.foldl chargeEnergy s

def execEnergyCalibration (meter unattr : Nat) (shares : List (Nat × Nat)) (s : State) : Host.Outcome State Fault Refusal :=
  if calibReady s meter unattr shares then .next (doCalibrate s meter unattr shares) else .next s

end Sys2Proof.Machine
end

