-- ==== Sys2Proof/Machine/Signals.lean ====
section
/-! DEFINITION. The sideband signals and the monitor's STATUS (R636, R646, R649, R650), the halt of the module. -/

namespace Sys2Proof.Machine

/-- A change of the monitor's state. -/
def modMon (s : State) (f : Monitor → Monitor) : State := { s with mon := f s.mon }
def modBoot (s : State) (f : Boot → Boot) : State := { s with boot := f s.boot }

def bit (b : Bool) (n : Nat) : Nat := if b then 2 ^ n else 0

/-- STATUS (R649). -/
def statusWord (s : State) : Nat :=
  let m := s.mon
  bit m.pwrok 15 + bit s.boot.ready 14 + bit (halted s) 13 + bit (bitsOf (reg s Reg.errLastreset) 15 15 == 1) 12
    + bit m.coldReq 11 + bit (m.thermCrit || s.bdl.doms.any fun d => d.2.crit) 10 + bit m.thermTrip 9 + bit m.brownout 8
    + bit m.overvolt 7 + bit m.overcur 6 + bit m.railFault.isSome 5 + m.railFault.getD 0

/-- ALERT_N asserted (R650). -/
def assertAlert (s : State) : State :=
  if s.mon.alert then s else emit (modMon s fun m => { m with alert := true }) (.pin "ALERT_N" false)

def releaseAlert (s : State) : State :=
  if s.mon.alert then emit (modMon s fun m => { m with alert := false }) (.pin "ALERT_N" true) else s

/-- ALERT_N is asserted where a bit of STATUS[13:5] has gone from 0 to 1 since `s₀` (R650). -/
def watchStatus (s₀ s : State) : State :=
  let a := statusWord s₀
  let b := statusWord s
  if (List.range 9).any fun i => b.testBit (i + 5) && !a.testBit (i + 5) then assertAlert s else s

/-- COLD_REQ_N asserted (R646). -/
def requestCold (s : State) : State :=
  if s.mon.coldReq then s else emit (modMon s fun m => { m with coldReq := true }) (.pin "COLD_REQ_N" false)

/-- A halt at boot with an ERROR of R597; those that a power cycle may cure assert COLD_REQ_N (R646). -/
def haltBoot (s : State) (error : Nat) : State :=
  let s' := modBoot s fun b => { b with stage := 0xF, error, ready := false }
  watchStatus s (if [0x01, 0x08, 0x09, 0x0A, 0x0B].contains error then requestCold s' else s')

end Sys2Proof.Machine
end

