-- ==== Sys2Proof/Machine/Bridle.lean ====
section
/-! DEFINITION. Bridle (15): the voltage domains, the limits and the order in which they bind, pre-ramp, duty.
Assumption log: DEDUCED 78, 80; DESIGN CHOICE 107, 118. -/

namespace Sys2Proof.Machine

/-! ### Domains and operating points (R549, R550) -/

/-- The voltage of a frequency in eighths of a millivolt, interpolated between the rows of R550. -/
def volt8 (mhz : Nat) : Nat :=
  if mhz = 0 then 0 else if mhz ≤ 1600 then 4480 + (mhz - 1200) * 4 / 5 else 4800 + (mhz - 1600)

def Dom.fresh : Dom :=
  { mhz := 1200, mv8 := 4480, duty := 8, stopped := false, dutyAt := 0, fast := false, hot := false, crit := false, idle := false,
    clamped := false, limit := 0, busyAt := 0, cyc := 0, frac := 0 }

def domOf (s : State) (d : Nat) : Dom := mgetD s.bdl.doms d .fresh
def modDom (s : State) (d : Nat) (f : Dom → Dom) : State :=
  { s with bdl := { s.bdl with doms := mset s.bdl.doms d (f (domOf s d)) } }

/-- The cores of a domain, and whether it holds an enabled one (R549). -/
def domCores (d : Nat) : List Nat := (List.range 12).map fun i => 12 * d + i
def domLive (s : State) (d : Nat) : Bool := (domCores d).any (coreUp s)

/-- A register that BDL_DSEL selects, of domain `d`: kept beyond the page space. -/
def domKey (d : Nat) (r : RegDef) : Nat := 0x3000000 + 64 * d + (r.base - 0x13054)
def domReg (s : State) (d : Nat) (r : RegDef) : Nat := rawReg s (domKey d r) r.reset

def domCeil (s : State) (d : Nat) : Nat := domReg s d Reg.bdlDceil
/-- MAX_MHZ of the descriptor (R582). -/
def maxMhz (s : State) : Nat := (s.boot.desc.map PartDesc.maxMhz).getD 3600
/-- The ceiling as MEM_THERMAL lowers it (R555), not above MAX_MHZ. -/
def domTop (s : State) (d : Nat) : Nat := min (maxMhz s) (max 1200 (domCeil s d - s.bdl.memDrop))
/-- The effective floor (R557). -/
def domFloor (s : State) (d : Nat) : Nat := min (domReg s d Reg.bdlDfloor) (min (domCeil s d) (maxMhz s))

def tlim (s : State) : Nat := bitsOf (reg s Reg.bdlCtl) 15 8

/-- A pre-ramp holds the domain (R562). -/
def preHeld (s : State) (d : Nat) : Bool := s.bdl.holds.any fun h => h.2.getLsbD d

/-- The frequency a domain seeks where no limit and no cap binds (R557, R558). -/
def domSeeks (s : State) (d : Nat) (x : Dom) : Nat :=
  if x.idle && !preHeld s d then min (domFloor s d) (domTop s d) else domTop s d

/-! ### Bridle's model of the input power (R550, R559) -/

/-- A domain's predicted power: 106.25 W at full load, 3,600 MHz and full duty, in units of
1 / (32,000 · 3,600 · 6,800²) W. -/
def domPower (load : Nat) (x : Dom) : Nat := 425 * load * (x.mhz * x.mv8 * x.mv8) * x.duty

/-- Predicted input is at or below a cap in W; conversion takes 6 % of the input. -/
def underCap (sense : BridleSense) (cap : Nat) (ds : NMap Dom) : Bool :=
  let full := 3600 * 6800 * 6800
  decide (sense.other * 32000 * full + (ds.map fun e => domPower (sense.load.getD e.1 0) e.2).foldl (· + ·) 0
    ≤ cap * 30080 * full)

/-! ### One evaluation (R551, R554, R557–R560) -/

/-- A domain in the course of an evaluation: its effective floor, the frequency it seeks, the steps it may still move,
whether a limit holds it down, whether the cap does. -/
structure DomEval where
  x     : Dom
  floor : Nat
  seeks : Nat
  left  : Nat
  held  : Bool
  capped : Bool
  deriving DecidableEq, Repr

def Dom.at_ (x : Dom) (mhz : Nat) : Dom := { x with mhz, mv8 := volt8 mhz }

/-- Down by some steps, not below 1,200 MHz. -/
def DomEval.down (e : DomEval) (n : Nat) : DomEval :=
  let n := min (min n e.left) ((e.x.mhz - 1200) / 25)
  { e with x := e.x.at_ (e.x.mhz - 25 * n), left := e.left - n }

/-- The greatest by a key among those for which a key is given; ties go to the later. -/
def pickMax (key : Nat × DomEval → Option Nat) : NMap DomEval → Option (Nat × DomEval)
  | [] => none
  | e :: t =>
    match key e, pickMax key t with
    | none, r => r
    | some _, none => some e
    | some k, some r => if (key r).getD 0 < k then some e else some r

/-- The least by a key; ties go to the earlier. -/
def pickMin (key : Nat × DomEval → Option Nat) : NMap DomEval → Option (Nat × DomEval)
  | [] => none
  | e :: t =>
    match key e, pickMin key t with
    | none, r => r
    | some _, none => some e
    | some k, some r => if (key r).getD 0 < k then some r else some e

/-- The domain that the next step down is taken from (R559). -/
def nextDown (l : NMap DomEval) : Option (Nat × DomEval) :=
  let live (f : DomEval → Option Nat) (e : Nat × DomEval) : Option Nat := if e.2.x.mhz = 0 then none else f e.2
  match pickMax (live fun e => if e.floor < e.x.mhz then some (e.x.mhz - e.floor) else none) l with
  | some r => some r
  | none =>
    match pickMax (live fun e => if 1200 < e.x.mhz then some (e.x.mhz - 1200) else none) l with
    | some r => some r
    | none => pickMax (live fun e => if 1 < e.x.duty then some e.x.duty else none) l

/-- Steps down until predicted input is at the cap (R559); a domain that has moved 8 steps waits for the next evaluation. -/
def capDown (sense : BridleSense) (cap : Nat) : Nat → NMap DomEval → NMap DomEval
  | 0, l => l
  | n + 1, l =>
    if underCap sense cap (l.map fun e => (e.1, e.2.x)) then l
    else
      match nextDown l with
      | none => l
      | some (d, e) =>
        if e.left = 0 then l
        else
          let e := if 1200 < e.x.mhz then e.down 1 else { e with x := { e.x with duty := e.x.duty - 1 }, left := e.left - 1 }
          capDown sense cap n (mset l d { e with capped := true })

/-- The domain that is raised next: the reverse order of R559. -/
def nextUp (l : NMap DomEval) : Option (Nat × DomEval) :=
  let free (f : DomEval → Option Nat) (e : Nat × DomEval) : Option Nat :=
    if e.2.x.mhz = 0 ∨ e.2.held ∨ e.2.left = 0 then none else f e.2
  match pickMin (free fun e => if e.x.duty < 8 then some e.x.duty else none) l with
  | some r => some r
  | none =>
    match pickMin (free fun e => if e.x.mhz < e.floor ∧ e.x.mhz < e.seeks then some e.x.mhz else none) l with
    | some r => some r
    | none => pickMin (free fun e => if e.x.mhz < e.seeks then some (e.x.mhz - e.floor) else none) l

/-- Steps up while headroom lasts. -/
def capUp (sense : BridleSense) (cap : Nat) : Nat → NMap DomEval → NMap DomEval
  | 0, l => l
  | n + 1, l =>
    match nextUp l with
    | none => l
    | some (d, e) =>
      let x := if e.x.duty < 8 then { e.x with duty := e.x.duty + 1 } else e.x.at_ (min e.seeks (e.x.mhz + 25))
      let l' := mset l d { e with x, left := e.left - 1 }
      if underCap sense cap (l'.map fun e => (e.1, e.2.x)) then capUp sense cap n l'
      else l.map fun e => (e.1, { e.2 with capped := e.2.capped || decide (e.2.x.mhz < e.2.seeks ∨ e.2.x.duty < 8) })

/-- The fast limiter's condition in a domain (R553). -/
def overCurrent (sense : BridleSense) (d : Nat) : Bool :=
  decide (3250 < sense.avg10us ∨ 1500 < sense.current.getD d 0)

/-- A domain before the cap is looked at: gated, lowered by the limits, by its ceiling, by idleness. `steps` is how far an
electrical limit lowers it, which the spec leaves open. -/
def domStart (s : State) (sense : BridleSense) (steps d : Nat) : DomEval :=
  let x := domOf s d
  let t := sense.temp.getD d 0
  let hot := if tlim s < t then true else if t + 3 ≤ tlim s then false else x.hot
  if !domLive s d then
    { x := { x with mhz := 0, mv8 := 0, fast := false, hot }, floor := 0, seeks := 0, left := 0, held := true, capped := false }
  else
    let x := if x.mhz = 0 then x.at_ 1200 else x
    let x := { x with hot, crit := x.crit && hot, fast := false }
    let seeks := domSeeks s d x
    let elec := overCurrent sense d
    let e : DomEval := { x, floor := domFloor s d, seeks, left := 8, held := elec || hot, capped := false }
    let e := if tlim s < t then e.down 8 else e
    let e := if elec then e.down steps else e
    e.down (ceilDiv (e.x.mhz - seeks) 25)

/-- LIMIT of a domain after an evaluation (R566). -/
def domLimit (s : State) (sense : BridleSense) (d : Nat) (e : DomEval) : Nat :=
  if e.x.mhz = 0 then 0
  else if overCurrent sense d then 1
  else if e.x.hot then 2
  else if s.bdl.memDrop ≠ 0 ∧ e.x.mhz = domTop s d ∧ e.x.mhz < domCeil s d then 3
  else if e.capped then 4
  else if e.x.mhz = domCeil s d then 5
  else if e.x.idle ∧ e.x.mhz ≤ e.floor then 6
  else 0

/-- An entry into CLAMPED_BELOW_FLOOR, counted and logged with the domain (R558). -/
def countClamp (s : State) (d : Nat) : State :=
  errWrite (incReg s Reg.bdlClamps 0) { errBase s Code.bdlFloorClamped 0 (pgId pgBDL) with detail := d }

/-- The cycle counter keeps where it was; what an evaluation found is set, and an entry into CLAMPED_BELOW_FLOOR is counted
and logged (R558). -/
def putDom (sense : BridleSense) (s : State) (r : Nat × DomEval) : State :=
  let d := r.1
  let e := r.2
  let old := domOf s d
  let limit := domLimit s sense d e
  let below := decide (e.x.mhz ≠ 0 ∧ (e.x.mhz < e.floor ∨ e.x.duty < 8))
  let clamped := below && (old.clamped || decide (1 ≤ limit ∧ limit ≤ 4))
  let up := (e.x.mhz - old.mhz) / 25
  let dn := (old.mhz - e.x.mhz) / 25
  let s := pmcEvent (pmcEvent s pgBDL 0x0101 up none) pgBDL 0x0102 dn none
  let s := modDom s d fun _ => { e.x with clamped, limit }
  if clamped && !old.clamped then countClamp s d else s

/-- BDL_STAT.CAP_UNMET: every domain at one eighth and the cap still not met (R560). -/
def noteCap (s : State) (unmet : Bool) : State :=
  let s' := { s with bdl := { s.bdl with capUnmet := unmet } }
  if unmet && !s.bdl.capUnmet then logOnly s' Code.bdlCapUnmet pgBDL else s'

/-- The period above 2,800 W and the time at or below it since (R553). -/
def noteInput (s : State) (sense : BridleSense) : State :=
  let b := s.bdl
  let above := decide (2800 < sense.avg10us)
  let overSince := if above then (b.overSince <|> some s.now) else none
  let lowSince := if above then none else if b.overSince.isSome then some s.now else
    match b.lowSince with
    | some t => if since s t (msec 100) then none else some t
    | none => none
  let hist := (s.now, sense.avg10us) :: b.hist.filter fun e => !since s e.1 (msec 10)
  { s with bdl := { b with overSince, lowSince, hist, sense, lastEval := s.now } }

/-- What the module can measure: the bounds that Bridle holds (R553). -/
def senseOk (s : State) (sense : BridleSense) : Bool :=
  decide (sense.avg10us ≤ 3300) && sense.current.all (fun c => decide (c ≤ 1600))
    && (match s.bdl.overSince with
        | some t => decide (sense.avg10us ≤ 2800 ∨ s.now ≤ t + msec 10)
        | none => true)
    && (s.bdl.lowSince.isNone || decide (sense.avg1ms ≤ reg s Reg.bdlCap))

def doEvaluation (s : State) (sense : BridleSense) : State :=
  let s := noteInput (pageSafePoint s pgBDL) sense
  let r := freeNat s 3
  let steps := r.1 + 1
  let s := r.2
  let cap := reg s Reg.bdlCap
  let l := (List.range 16).map fun d => (d, domStart s sense steps d)
  let fuel := 16 * 16
  let lowered := capDown sense cap fuel l
  let under := underCap sense cap (lowered.map fun e => (e.1, e.2.x))
  let l := if under then capUp sense cap fuel lowered else lowered
  let s := l.foldl (putDom sense) s
  let unmet := !under && l.all fun e => e.2.x.mhz == 0 || e.2.x.duty == 1
  pmcEvent (noteCap s unmet) pgBDL 0x0100 1 none

/-- Every 10 µs Bridle evaluates every domain (R551). -/
def execBridleEvaluation (sense : BridleSense) (s : State) : Host.Outcome State Fault Refusal :=
  if s.boot.ready && since s s.bdl.lastEval (usec 10) && senseOk s sense then .next (doEvaluation s sense) else .next s

/-! ### Hardware limits (R553–R555) -/

/-- The fast limiter skips alternate cycles in every affected domain until the next evaluation. -/
def doFastLimiter (s : State) (sense : BridleSense) : State :=
  let hit := (List.range 16).filter fun d => overCurrent sense d && (domOf s d).mhz != 0
  incReg (hit.foldl (fun s d => modDom s d fun x => { x with fast := true }) s) Reg.bdlFastcnt 0

def execFastLimiter (sense : BridleSense) (s : State) : Host.Outcome State Fault Refusal :=
  if s.boot.ready && senseOk s sense && (List.range 16).any (overCurrent sense) then .next (doFastLimiter s sense)
  else .next s

/-- A core at 110 °C (R554): its domain at 1,200 MHz and one eighth, an entry of fatal severity; no reset (R609, R614). -/
def doThermalCritical (s : State) (core : Nat) : State :=
  let d := core / 12
  let entry := errBase s Code.bdlThermalCritical 4 (pgId pgBDL)
  let clamps := if (domOf s d).clamped then s else countClamp s d
  let s' := modDom clamps d fun x => { x.at_ 1200 with duty := 1, hot := true, crit := true, limit := 2, clamped := true }
  watchStatus s (errWrite s' entry)

/-- A domain is held once, until it is cool again. -/
def execThermalCritical (core temp : Nat) (s : State) : Host.Outcome State Fault Refusal :=
  if coreUp s core && decide (110 ≤ temp) && !(domOf s (core / 12)).crit then .next (doThermalCritical s core) else .next s

/-- Some stack's BAND reads 0b11 (R369). -/
def memHot (s : State) : Bool := s.hbm.band.any fun e => e.2 == 3

/-- A step of the ceilings is due: down while a stack reads 0b11, up while they are lowered and none does (R555). -/
def memStepDue (s : State) : Bool :=
  s.boot.ready && since s s.bdl.memAt (msec 10) && if memHot s then decide (s.bdl.memDrop < 2400) else s.bdl.memDrop != 0

def doMemStep (s : State) : State :=
  let memDrop := if memHot s then s.bdl.memDrop + 100 else s.bdl.memDrop - 100
  { s with bdl := { s.bdl with memDrop, memAt := s.now } }

def execMemThermalCeilingStep (s : State) : Host.Outcome State Fault Refusal :=
  if memStepDue s then .next (doMemStep s) else .next s

/-! ### Pre-ramp (R562) -/

/-- The domains of some cores. -/
def domainsOf (p : Nat → Bool) : BitVec 16 :=
  BitVec.ofNat 16 (((List.range 16).map fun d => if (domCores d).any p then 2 ^ d else 0).foldl (· + ·) 0)

/-- The domains that a step of the sequence engine will use. -/
def stepDomains (s : State) : BitVec 16 :=
  let p := reg s Reg.seqParts
  domainsOf fun k => coreUp s k && (partOf s k == p % 16 || partOf s k == p / 16 % 16)

/-- An instant at which a step will be released. -/
def isStepInstant (s : State) (t : Nat) : Bool :=
  let e := reg s Reg.seqEpoch
  let p := reg s Reg.seqPeriod * 1000
  seqPresent s && !pgHalted s pgSEQ && decide (e ≤ t) && (t - e) % p == 0 && decide (s.srv.nextStep ≤ (t - e) / p)

/-- The release that a pre-ramp precedes: a step, or a not-before instant of a REALTIME or INTERACTIVE queue. -/
def preSource (s : State) (t : Nat) (ds : BitVec 16) : Bool :=
  (isStepInstant s t && ds == stepDomains s) ||
  s.cmds.any fun e => e.2.undispatched && e.2.seq.isNone && decide (e.2.cls ≤ 1) && e.2.d.notBefore == t && t != 0
    && ds == domainsOf (coreFor s e.2)

def preReady (s : State) (t : Nat) (ds : BitVec 16) : Bool :=
  s.boot.ready && s.ftm.running && reg s Reg.bdlCtl % 2 == 1 && decide (t ≤ ftNs s + 20000 ∧ ftNs s < t + 100000)
    && preSource s t ds && !(s.bdl.holds.any fun h => h.1 == t && h.2 == ds)

/-- The domains are held and raised to their ceilings at once, as far as limits and the cap allow. -/
def doPreramp (s : State) (t : Nat) (ds : BitVec 16) : State :=
  let s := { s with bdl := { s.bdl with holds := (t, ds) :: s.bdl.holds } }
  let sense := s.bdl.sense
  let l := (List.range 16).map fun d =>
    let x := domOf s d
    let e : DomEval := { x, floor := domFloor s d, seeks := domTop s d, left := if ds.getLsbD d then 128 else 0,
                         held := x.hot || x.fast || !domLive s d, capped := false }
    (d, e)
  let l := capUp sense (reg s Reg.bdlCap) (16 * 128) l
  let s := l.foldl (fun s e => if e.2.x = domOf s e.1 then s else modDom s e.1 fun _ => { e.2.x with limit := 5 }) s
  pmcEvent s pgBDL 0x0105 1 none

def execGovernorPreramp (instant : Nat) (domains : BitVec 16) (s : State) : Host.Outcome State Fault Refusal :=
  if preReady s instant domains then .next (doPreramp s instant domains) else .next s

/-- A hold whose release lies 100 µs back. -/
def holdOver (s : State) : Bool := s.bdl.holds.any fun h => decide (h.1 + 100000 ≤ ftNs s)

def execPrerampHoldEnd (s : State) : Host.Outcome State Fault Refusal :=
  if holdOver s then
    .next { s with bdl := { s.bdl with holds := s.bdl.holds.filter fun h => decide (ftNs s < h.1 + 100000) } }
  else .next s

/-! ### Idle lowering (R558) and duty (R560) -/

/-- The domain holds a resident group, or an array of it is active. -/
def domBusy (s : State) (d : Nat) : Bool :=
  (domCores d).any fun c =>
    match mget s.cores c with
    | some k => !k.groups.isEmpty || k.arr.load.isSome || !k.arr.streams.isEmpty || k.arr.drain.isSome || !k.arr.swaps.isEmpty
    | none => false

def idleDue (s : State) (d : Nat) : Bool :=
  decide (d < 16) && s.boot.ready && domLive s d && !(domOf s d).idle && !domBusy s d && since s (domOf s d).busyAt (usec 100)

/-- From now on the domain seeks its effective floor, which evaluations bring it to. -/
def execIdleLowering (domain : Nat) (s : State) : Host.Outcome State Fault Refusal :=
  if idleDue s domain then .next (modDom s domain fun x => { x with idle := true }) else .next s

/-- The domain's clock is to stop: it has run its eighths; or to start again. -/
def dutyDue (s : State) (d : Nat) : Bool :=
  let x := domOf s d
  decide (d < 16) && x.mhz != 0 &&
    if x.stopped then decide (x.duty = 8) || since s x.dutyAt (usec (8 - x.duty))
    else decide (x.duty < 8) && since s x.dutyAt (usec x.duty)

def doDutyPeriod (s : State) (d : Nat) : State :=
  let x := domOf s d
  let s := if x.stopped then pmcEvent s pgBDL 0x0104 (8 - x.duty) none else s
  modDom s d fun x => { x with stopped := !x.stopped, dutyAt := s.now }

def execDutyPeriod (domain : Nat) (s : State) : Host.Outcome State Fault Refusal :=
  if dutyDue s domain then .next (doDutyPeriod s domain) else .next s

end Sys2Proof.Machine
end

