-- ==== Sys2Proof/Machine/Fwu.lean ====
section
/-! DEFINITION. Attestation and live update (16): the SEC and FWU pages up to the hand-off, and the writing of flash.
Assumption log: DEDUCED 82, 84, 138; DESIGN CHOICE 83, 85. -/

namespace Sys2Proof.Machine

/-! ### Writes to emulated pages (R472, R473) -/

/-- A write of tenant 0 to an emulated page, or its waiting until firmware serves. -/
def emuWrite (s : State) (t addr : Nat) (v : Word) (f : State → State) : State :=
  if s.boot.serving || windowOpen s then mgmtWrite s t (.write addr 4 (v.setWidth 64)) f
  else park s t (.write addr 4 (v.setWidth 64))

/-! ### Attestation (R586–R588) -/

/-- GO requests a report; while one is being signed it is ignored. -/
def doGo (s : State) (v : Nat) : State :=
  if v / 2 ^ 31 % 2 = 0 ∨ s.boot.att = .signing then s
  else modBoot s fun b => { b with att := .signing, attSeq := (b.attSeq + 1) % 65536 }

def execAttestationGo (tenant : Nat) (value : Word) (s : State) : Host.Outcome State Fault Refusal :=
  .next (emuWrite s tenant Reg.secAttCtl.base value fun s => doGo s value.toNat)

/-- SEC_NONCE0–SEC_NONCE7. -/
def nonceBytes (s : State) : List Byte := (List.range 8).flatMap fun i => leBytes 4 (reg s Reg.secNonce i)

/-- Bytes 0x0000–0x00FF of a report (R587). -/
def reportHead (s : State) : List Byte :=
  let b := s.boot
  leBytes 4 0x42464154 ++ leBytes 4 1 ++ nonceBytes s ++ leBytes 32 ((b.image.map FwImage.measure).getD 0)
    ++ leBytes 32 b.chain ++ leBytes 32 ((b.desc.map PartDesc.hash).getD 0)
    ++ leBytes 32 ((s.fab.topo.map TopoTable.hash).getD 0) ++ leBytes 64 (Config.idKey b.idHash)
    ++ leBytes 8 ((b.image.map FwImage.fwVer).getD 0) ++ leBytes 4 ((b.desc.map PartDesc.descVer).getD 0)
    ++ leBytes 2 b.handoffs ++ leBytes 2 s.fab.epoch ++ leBytes 8 (ftNs s)

/-- A report of 50,112 bytes: its head and the signature over it. -/
def report (s : State) : List Byte := reportHead s ++ (List.range 49856).map (Config.signByte (reportHead s))

/-- The report is signed and counted; it is written through the aperture, or fails (R586). -/
def doSigned (s : State) (ok : Bool) : State :=
  let dest := reg s Reg.secAttDest
  let s' := pmcEvent (modBoot s fun b => { b with reports := min 65535 (b.reports + 1) }) pgSEC 0x0100 1 none
  if ok && hostUp s && inAperture s dest 50112 then
    modBoot (hostWrite s' 0 dest (report s) .other) fun b => { b with att := .written }
  else logOnly (modBoot s' fun b => { b with att := .failed }) Code.secAttFailed pgSEC

def execAttestationSigned (ok : Bool) (s : State) : Host.Outcome State Fault Refusal :=
  if s.boot.att == .signing && s.boot.identity then .next (doSigned s ok) else .next s

/-! ### The update's states (R591) -/

def modFwu (s : State) (f : Fwu → Fwu) : State := modBoot s fun b => { b with fwu := f b.fwu }

/-- A command in a state that does not take it, or a write of several bits: REASON reads 0x3 and the update goes on. -/
def fwuBusy (s : State) : State := modFwu s fun u => { u with reason := 3 }

/-- The entry to REJECTED. -/
def fwuReject (s : State) (reason : Nat) : State :=
  let s := modFwu s fun u => { u with st := .rejected, reason, image := none, job := none, handing := false }
  logOnly (pmcEvent s pgFWU 0x0101 1 none) Code.fwStageRejected pgFWU

/-- IDLE or REJECTED: STAGE, FLASH and DESC may be written. -/
def fwuRests (s : State) : Bool := s.boot.fwu.st == .idle || s.boot.fwu.st == .rejected

/-- The commands of one write to FWU_CTL: `go` where bit `n` alone is set, nothing where none is (R603). -/
def fwuCtl (s : State) (v n : Nat) (go : State → State) : State :=
  if popCount 5 v > 1 then fwuBusy s else if v.testBit n then go s else s

def doStage (s : State) : State :=
  if fwuRests s then
    let s := modFwu s fun u => { u with st := .fetching, reason := 0, image := none }
    if inAperture s (reg s Reg.fwuSrc) (reg s Reg.fwuLen) then hostRead s 0 (reg s Reg.fwuSrc) (reg s Reg.fwuLen)
    else fwuReject s 4
  else fwuBusy s

def execFwuStage (tenant : Nat) (value : Word) (s : State) : Host.Outcome State Fault Refusal :=
  .next (emuWrite s tenant Reg.fwuCtl.base value fun s => fwuCtl s value.toNat 0 doStage)

/-- An image copied into an HBM image slot (R576, R589): slot 1, or slot 0. -/
def putSlot (s : State) (slot1 : Bool) (d : List Byte) : State := wrBytes s (if slot1 then 0x1E000000 else 0x1C000000) (d.take 0x2000000)

/-- FWU_LEN bytes have been read from FWU_SRC, or cannot be. -/
def doFetched (s : State) (image : Option (List Byte)) : State :=
  match image with
  | none => fwuReject s 4
  | some b =>
    let d := b.take (reg s Reg.fwuLen)
    modFwu (putSlot s (!s.boot.slot1) d) fun u => { u with st := .verifying, image := some (parseImage d) }

def execFwuFetchDone (image : Option (List Byte)) (s : State) : Host.Outcome State Fault Refusal :=
  if s.boot.fwu.st == .fetching && s.boot.serving then .next (doFetched s image) else .next s

/-- The whole image is at most 24 MiB (R572). -/
def imageOk (i : FwImage) : Bool := i.valid && decide (1 ≤ i.length ∧ i.length + 0x10000 ≤ 0x1800000)

/-- The compatibility check of R592. -/
def compatible (i run : FwImage) : Bool := decide (i.handoffMin ≤ run.handoffVer ∧ run.handoffVer ≤ i.handoffVer)

def doFwuVerified (s : State) : State :=
  match s.boot.fwu.image, s.boot.image with
  | some i, some run =>
    if !imageOk i then fwuReject s 1
    else if !compatible i run then fwuReject s 2
    else pmcEvent (modFwu s fun u => { u with st := .staged }) pgFWU 0x0100 1 none
  | _, _ => fwuReject s 1

def execFwuVerifyDone (s : State) : Host.Outcome State Fault Refusal :=
  if s.boot.fwu.st == .verifying && s.boot.serving then .next (doFwuVerified s) else .next s

/-- COMMIT arms the hand-off for FWU_AT, at least 1 ms ahead. -/
def doCommitUpdate (s : State) : State :=
  if s.boot.fwu.st = .staged ∨ s.boot.fwu.st = .armed ∧ !s.boot.fwu.handing then
    if ftNs s + 1000000 ≤ reg s Reg.fwuAt then
      modFwu s fun u => { u with st := .armed, reason := 0, handAt := reg s Reg.fwuAt }
    else fwuReject s 5
  else fwuBusy s

def execFwuCommit (tenant : Nat) (value : Word) (s : State) : Host.Outcome State Fault Refusal :=
  .next (emuWrite s tenant Reg.fwuCtl.base value fun s => fwuCtl s value.toNat 1 doCommitUpdate)

/-- CANCEL abandons a STAGED or ARMED update and is ignored elsewhere. -/
def doCancel (s : State) : State :=
  if s.boot.fwu.st = .staged ∨ s.boot.fwu.st = .armed ∧ !s.boot.fwu.handing then
    modFwu s fun u => { u with st := .idle, reason := 0, image := none }
  else s

def execFwuCancel (tenant : Nat) (value : Word) (s : State) : Host.Outcome State Fault Refusal :=
  .next (emuWrite s tenant Reg.fwuCtl.base value fun s => fwuCtl s value.toNat 2 doCancel)

/-! ### Flash (R595) -/

/-- FLASHING begins: the header sector of what is to be replaced is erased first. -/
def startFlash (s : State) (job : FlashJob) : State :=
  let s := modFwu s fun u => { u with st := .flashing, reason := 0, job := some job, flashAt := s.now }
  match job with
  | .image _ => modBoot s fun b => { b with flashImage := none }
  | .desc _ => modBoot s fun b => { b with flashDesc := none }

def doFlash (s : State) : State :=
  match s.boot.image with
  | some i => if fwuRests s then startFlash s (.image i) else fwuBusy s
  | none => fwuBusy s

def execFwuFlash (tenant : Nat) (value : Word) (s : State) : Host.Outcome State Fault Refusal :=
  .next (emuWrite s tenant Reg.fwuCtl.base value fun s => fwuCtl s value.toNat 3 doFlash)

/-- The masks and features of each PART (R581). -/
def masksOk (d : PartDesc) : Bool :=
  let n := popCount 192 d.coreMask
  let rest (st po fe : Nat) : Bool := d.stackMask == st && d.portMask == po && d.features % 2 == fe
  decide (d.coreMask < 2 ^ 192) &&
  if d.part = 0x0960 then n == 192 && rest 0xFFFF 0xFFFF 1
  else if d.part = 0x0840 then n == 168 && rest 0xFFFF 0xFFFF 0
  else if d.part = 0x0720 then n == 144 && rest 0x0FFF 0x00FF 1
  else false

/-- The ERROR of R597 for a descriptor that is not accepted (R581). -/
def descError (s : State) : Option PartDesc → Option Nat
  | none => some 5
  | some d =>
    if !d.magicOk || !d.sigOk then some 5
    else if d.idHash ≠ s.boot.idHash then some 6
    else if !masksOk d then some 7
    else none

def doDesc (s : State) (desc : Option (List Byte)) : State :=
  if !fwuRests s then fwuBusy s
  else if !inAperture s (reg s Reg.fwuSrc) 29952 then fwuReject s 4
  else
    let s := hostRead s 0 (reg s Reg.fwuSrc) 29952
    match desc with
    | none => fwuReject s 4
    | some b =>
      if (descError s (some (parsePart b))).isSome then fwuReject s 9
      else startFlash s (.desc (parsePart b))

def execFwuDesc (tenant : Nat) (value : Word) (desc : Option (List Byte)) (s : State) :
    Host.Outcome State Fault Refusal :=
  if s.boot.serving || windowOpen s then
    .next (mgmtWrite s tenant (.fwuDesc value desc) fun s => fwuCtl s value.toNat 4 fun s => doDesc s desc)
  else .next (park s tenant (.fwuDesc value desc))

/-- Flash holds what was written, or the writing has failed. How many sectors were written is open. -/
def doFlashed (s : State) (ok : Bool) : State :=
  let r := freeNat s 10
  let s := pmcEvent r.2 pgFWU 0x0104 r.1 none
  if !ok then fwuReject (logOnly s Code.fwFlashFailed pgFWU) 8
  else
    let s' := modFwu s fun u => { u with st := .idle, reason := 0, job := none, image := none }
    match s.boot.fwu.job with
    | some (.image i) => modBoot s' fun b => { b with flashImage := some i }
    | some (.desc d) => modBoot s' fun b => { b with flashDesc := some d }
    | none => s'

def execFlashWriteDone (ok : Bool) (s : State) : Host.Outcome State Fault Refusal :=
  if s.boot.fwu.st == .flashing && s.boot.serving then .next (doFlashed s ok) else .next s

/-! ### The hand-off (R593, R594) -/

/-- What of the registers belongs to the emulated pages: their own addresses and the partition masks. -/
def emuKey (a : Nat) : Bool := isEmu (a / 4096 * 4096) || decide (0x1000000 ≤ a ∧ a < 0x2000000)

/-- The hand-off header (R590): its place, and the header of a body; SEQ is open. -/
def handoffBase : Nat := 0xF400000

/-- The old image writes the body and the header with STATUS 0, VERSION being its HANDOFF_VER (R593). -/
def writeHandoff (s : State) : State :=
  let r := freeNat s 32
  let body := (Config.handoffBody (s.boot.handoffs + 1)).take 0xBFFFC0
  let ver := (s.boot.image.map FwImage.handoffVer).getD 0
  let head := leBytes 4 Config.handoffMagic ++ leBytes 2 ver ++ leBytes 2 0 ++ leBytes 4 r.1 ++ leBytes 4 body.length
    ++ leBytes 32 (sha3 body) ++ leBytes 16 0
  wrBytes (wrBytes r.2 handoffBase head) (handoffBase + 0x40) body

/-- STATUS of the header: 1 HANDOFF_OK, 2 rejected. -/
def putHandoffStatus (s : State) (v : Nat) : State := wrBytes s (handoffBase + 6) (leBytes 2 v)

/-- The old image stops deciding and serializes its state; the control cluster restarts into the staging slot. An instant that
arrives while firmware does not serve refuses the update. -/
def doHandoff (s : State) : State :=
  if s.boot.serving && s.boot.ready then
    let keep : FwKeep := { regs := s.regs.filter fun e => emuKey e.1, staged := s.staged.filter fun e => emuKey e.1,
                           applying := s.applying.filter fun e => emuKey e.1, ctxCfg := s.sch.ctxCfg,
                           ctxPin := s.sch.ctxPin, tenW := s.sch.tenW }
    let s := modFwu s fun u => { u with handing := true, handNow := s.now, old := s.boot.image, keep := some keep }
    pmcEvent (modBoot (writeHandoff s) fun b => { b with serving := false }) pgFWU 0x0102 1 none
  else fwuReject s 0xA

/-- The hand-off instant has come, and no other event of that instant is due (R433). -/
def handoffDue (s : State) : Bool :=
  s.boot.fwu.st == .armed && !s.boot.fwu.handing && decide (s.boot.fwu.handAt ≤ ftNs s) && !ftBefore s 5 s.boot.fwu.handAt

def execFirmwareHandoff (s : State) : Host.Outcome State Fault Refusal :=
  if handoffDue s then .next (doHandoff s) else .next s

/-- A map with the entries of the emulated pages put back. -/
def putBack {β : Type} (m keep : NMap β) : NMap β :=
  keep.foldl (fun m e => mset m e.1 e.2) (m.filter fun e => !emuKey e.1)

/-- A revert: the old image resumes from what it serialized; writes to emulated pages since then and the scheduling history
are lost (R594). -/
def revert (s : State) (reason : Nat) : State :=
  let u := s.boot.fwu
  let s :=
    match u.keep with
    | none => s
    | some k =>
      { s with regs := putBack s.regs k.regs, staged := putBack s.staged k.staged,
               applying := putBack s.applying k.applying,
               sch := { s.sch with ctxCfg := k.ctxCfg, ctxPin := k.ctxPin, tenW := k.tenW, coreTime := [], rotation := [] } }
  let s := modBoot s fun b => { b with image := (u.old <|> b.image), serving := true }
  let s := modFwu s fun v => { v with old := none, keep := none }
  fwuReject (logOnly (pmcEvent s pgFWU 0x0103 1 none) Code.fwHandoffRejected pgFWU) reason

/-- The interval of a revert in which firmware does not serve, in µs: at most 500, otherwise open. -/
def revertTime (s : State) : State :=
  let r := freeNat s 32
  modFwu r.2 fun u => { u with last := min 500 r.1 }

/-- In PROBATION; 500 ms have passed since FWU_AT on the local timer (R423). -/
def onProbation (s : State) : Bool := s.boot.fwu.st == .probation && s.boot.serving
def probationOver (s : State) : Bool := since s s.boot.fwu.handNow (msec 500)

/-- FW_CHAIN with an image's measurement added (R588). -/
def chainNext (chain measure : Nat) : Nat := sha3 (leBytes 32 chain ++ leBytes 32 measure) % 2 ^ 256

/-- The new image confirms: its slot is current, the chain advances, the query table is rewritten, flash is written. -/
def doHandoffOk (s : State) : State :=
  match s.boot.image with
  | none => s
  | some i =>
    let next (b : Boot) : Boot :=
      { b with slot1 := !b.slot1, chain := chainNext b.chain i.measure, handoffs := min 65535 (b.handoffs + 1) }
    let s := rewriteTable (modBoot (putHandoffStatus s 1) next)
    startFlash (modFwu s fun u => { u with old := none, keep := none, image := none }) (.image i)

def execHandoffOk (s : State) : Host.Outcome State Fault Refusal :=
  if onProbation s && !probationOver s then .next (doHandoffOk s) else .next s

/-- The new image writes STATUS 2. -/
def execHandoffRejected (s : State) : Host.Outcome State Fault Refusal :=
  if onProbation s then .next (revertTime (revert (putHandoffStatus s 2) 6)) else .next s

/-- No HANDOFF_OK within 500 ms of FWU_AT. -/
def execProbationTimeout (s : State) : Host.Outcome State Fault Refusal :=
  if onProbation s && probationOver s then .next (revertTime (revert s 7)) else .next s

end Sys2Proof.Machine
end

