-- ==== Sys2Proof/Machine/Boot.lean ====
section
/-! DEFINITION. Power-up, the boot ROM, network boot and firmware bring-up (16, 18).
Assumption log: DESIGN CHOICE 12, 81. -/

namespace Sys2Proof.Machine

/-! ### Power (R567, R612, R640, R641) -/

/-- Everything is lost but the contents of flash (R612); the monitor goes on from what is given. -/
def powerLoss (s : State) (mon : Monitor) : State :=
  { State.reset with
    pending := s.pending, now := s.now, free := s.free, out := s.out, mon,
    boot := { State.reset.boot with flashImage := s.boot.flashImage, flashDesc := s.boot.flashDesc } }

/-- A monitor without power that sees a level of CAR_PWRGD. -/
def Monitor.dark (m : Monitor) (car : Bool) : Monitor :=
  { State.reset.mon with carPwrgd := car, fellAt := m.fellAt }

/-- Pins whose level a loss of power changes. -/
def dropPins (s : State) (m : Monitor) : State :=
  let s := if m.pwrok then emit s (.pin "MOD_PWROK" false) else s
  let s := if m.coldReq && !s.mon.coldReq then emit s (.pin "COLD_REQ_N" true) else s
  let s := if m.thermTrip && !s.mon.thermTrip then emit s (.pin "THERM_TRIP_N" true) else s
  if m.alert && !s.mon.alert then emit s (.pin "ALERT_N" true) else s

/-- The rails come up, and fabric time starts at 0 in ACQUIRING (R421, R640). -/
def startRails (s : State) : State :=
  let s := powerLoss s { s.mon.dark true with vaux := true, railsAt := some s.now }
  { s with ftm := { s.ftm with running := true, bootAt := s.now } }

/-- A fall of CAR_PWRGD lies 100 ms back, or none has been seen. -/
def holdoffOver (s : State) : Bool :=
  match s.mon.fellAt with
  | some t => since s t (msec 100)
  | none => true

/-- CAR_PWRGD rises: a cold boot begins, or the rise waits for the end of the 100 ms (R641). -/
def doColdBoot (s : State) : State :=
  if holdoffOver s then startRails s else modMon s fun m => { m with carPwrgd := true, riseWaits := true }

def execColdBoot (s : State) : Host.Outcome State Fault Refusal :=
  if s.mon.carPwrgd then .next s else .next (doColdBoot s)

def execPwrgdHoldoffExpire (s : State) : Host.Outcome State Fault Refusal :=
  if s.mon.riseWaits && holdoffOver s then .next (startRails s) else .next s

/-- The maximum time of each rail in ms, by its number in STATUS (R640, R649). -/
def railMax (rail : Nat) : Option Nat :=
  if rail = 0 then some 10
  else if rail = 1 then some 16
  else if rail ≤ 3 then some 22
  else if rail ≤ 6 then some 34
  else if 16 ≤ rail ∧ rail ≤ 31 then some 42
  else none

def railLate (s : State) (rail : Nat) : Bool :=
  match s.mon.railsAt, railMax rail with
  | some t, some n => since s t (msec n)
  | _, _ => false

/-- The sequence stops: every rail but VAUX is off, and the rail is reported. -/
def doRailFault (s : State) (rail : Nat) : State :=
  let s' := modMon s fun m => { m with railsAt := none, railFault := some rail }
  watchStatus s (requestCold s')

def execRailSequenceTimeout (rail : Nat) (s : State) : Host.Outcome State Fault Refusal :=
  if railLate s rail then .next (doRailFault s rail) else .next s

/-! ### The boot ROM (R570–R575, R583) -/

/-- HOST_MAC, or the locally administered MAC where the descriptor cannot be read. -/
def bootMac (s : State) : Nat :=
  match s.boot.flashDesc with
  | some d => if d.magicOk then d.hostMac else 0x02C6 * 2 ^ 32 + Config.dieNumber % 2 ^ 32
  | none => 0x02C6 * 2 ^ 32 + Config.dieNumber % 2 ^ 32

/-- A verified image starts on the control cluster. -/
def startImage (s : State) (i : FwImage) (netboot : Bool) : State :=
  modBoot s fun b => { b with image := some i, netboot, stage := 5 }

/-- The boot window opens with an ERROR of R597. -/
def openWindow (s : State) (error : Nat) : State := modBoot s fun b => { b with stage := 4, error }

def doBootRom (s : State) (pufOk : Bool) : State :=
  let s := emit (modMon s fun m => { m with railsAt := none, pwrok := true }) (.pin "MOD_PWROK" true)
  if !pufOk then haltBoot s 1
  else
    let s := setHostLink (modBoot s fun b => { b with mac := bootMac s }) true
    match s.boot.flashImage with
    | none => openWindow s 2
    | some i => if imageOk i then startImage s i false else openWindow s 3

/-- Every rail is in regulation: MOD_PWROK rises and releases the boot ROM. -/
def execBootRomStart (pufOk : Bool) (s : State) : Host.Outcome State Fault Refusal :=
  if s.mon.railsAt.isSome then .next (doBootRom s pufOk) else .next s

/-- A nonzero value written to BW_RING verifies what the window holds (R575). -/
def doRing (s : State) (b : List Byte) : State :=
  let s := emit s (.ack 0)
  let i := parseImage b
  if imageOk i then startImage s i true else modBoot s fun b => { b with error := 4 }

/-- BW_STATUS (R575): rejected after an image that was not valid, accepted once one is. -/
def bwStatus (s : State) : Nat := if windowOpen s then (if s.boot.error = 4 then 2 else 0) else 3

def execBootWindowRing (image : List Byte) (s : State) : Host.Outcome State Fault Refusal :=
  if windowOpen s && qpUp s 0 then .next (doRing s image) else .next s

/-! ### Firmware bring-up (R576–R583) -/

/-- Cores that are left out of a mask, bit by bit. -/
def maskWithout (mask drop : Nat) : Nat := mask - (mask &&& drop)

/-- The descriptor is accepted: the units it enables are present. -/
def takeDesc (s : State) (d : PartDesc) : State :=
  modBoot s fun b =>
    { b with desc := some d, descOk := true, coreMask := d.coreMask, stackMask := d.stackMask, portMask := d.portMask,
             part := d.part, features := d.features }

/-- A domain at start: at 1,200 MHz, or gated where it holds no enabled core (R549, R640). -/
def domBoot (s : State) (d : Nat) : Dom :=
  if domLive s d then { Dom.fresh with busyAt := s.now } else { Dom.fresh with mhz := 0, mv8 := 0 }

/-- The last steps of bring-up: HBM keyed and zeroed, the image in slot 0, the announcement signed, READY. -/
def makeReady (s : State) (epoch : Nat) : State :=
  let r := freeNat s 256
  let s := r.2
  let image := ((s.boot.image.map FwImage.measure).getD 0)
  let body := (s.boot.image.map FwImage.bytes).getD []
  let s := { s with
    hbm := { s.hbm with keys := some (Config.keyMaterial s.free) }, mem := [], poison := [],
    fab := { s.fab with epoch := epoch % 4096, nonce := r.1 },
    bdl := { s.bdl with doms := (List.range 16).map fun d => (d, domBoot s d), lastEval := s.now },
    err := { s.err with lastCheck := s.now } }
  let s := modBoot s fun b => { b with slot1 := false, announced := true, chain := chainNext 0 image, gen := b.gen + 2,
                                       ready := true, serving := true, stage := 0xA }
  let s := putSlot s false body
  if s.boot.netboot then logOnly s Code.fwNetboot pgDEV else s

/-- Training of the populated stacks (R356): each lane that fails its eye margin, as (stack, channel, lane), gets the spare of
its group. The state, and the mask of the stacks with a channel that even its spares cannot repair (R357). -/
def trainLanes (s : State) : List (Nat × Nat × Nat) → State × Nat
  | [] => (s, 0)
  | (st, ch, lane) :: t =>
    if s.boot.stackMask.testBit st then
      match trainLane s st ch lane with
      | some s => trainLanes s t
      | none => let r := trainLanes s t
                (r.1, r.2 ||| 2 ^ st)
    else trainLanes s t

/-- From the start of the image to READY or to a halt. `coresFailed` and `stacksFailed` are masks of what self-test, core check
and training find, `lanes` the lanes that fail their eye margin; `idHash` is the hash of the identity key derived from the
seed. -/
def doFirmwareStart (s : State) (coresFailed stacksFailed : Nat) (lanes : List (Nat × Nat × Nat)) (randomOk sramOk : Bool)
    (epoch idHash : Nat) : State :=
  let s := modBoot s fun b => { b with identity := true, idHash, serving := true }
  match descError s s.boot.flashDesc, s.boot.flashDesc with
  | some e, _ => haltBoot s e
  | none, none => haltBoot s 5
  | none, some d =>
    let s := takeDesc s d
    if !sramOk then haltBoot s 8
    else
      let s := modBoot s fun b => { b with coreMask := maskWithout b.coreMask coresFailed }
      let r := trainLanes s lanes
      let s := r.1
      let bad := (stacksFailed ||| r.2) &&& s.boot.stackMask
      if s.boot.coreMask = 0 then haltBoot s 9
      else if bad ≠ 0 then
        let s := modBoot s fun b => { b with stackFault := bad }
        haltBoot { s with hbm := { s.hbm with faultStacks := stackList bad 16 } } 0xA
      else if !randomOk then haltBoot s 0xB
      else makeReady s epoch

def execFirmwareStart (coresFailed stacksFailed : Nat) (lanes : List (Nat × Nat × Nat)) (randomOk sramOk : Bool)
    (epoch idHash : Nat) (s : State) : Host.Outcome State Fault Refusal :=
  if s.boot.stage == 5 then .next (doFirmwareStart s coresFailed stacksFailed lanes randomOk sramOk epoch idHash)
  else .next s

end Sys2Proof.Machine
end

