-- ==== Sys2Proof/Machine/View.lean ====
section
/-! DEFINITION. What the registers read: the state of each page (R463), the fields that report state, the rest as stored
(R467, R468).
Assumption log: DESIGN CHOICE 9, 83; DEDUCED 86, 105, 133. -/

namespace Sys2Proof.Machine

/-! ### Pages (R6, R457, R462, R463, R466) -/

/-- The instance of a page among the cores, stacks or ports. -/
def pageCore (page : Nat) : Nat := (page - 0x80000) / 0x4000
def pageStack (page : Nat) : Nat := (page - 0x40000) / 0x2000
def pagePort (page : Nat) : Nat := (page - 0x21000) / 0x1000

def isCorePage (page : Nat) : Bool := decide (0x80000 ≤ page ∧ page < 0x380000)
def isStackPage (page : Nat) : Bool := decide (0x40000 ≤ page ∧ page < 0x60000)
def isPortPage (page : Nat) : Bool := decide (0x21000 ≤ page ∧ page ≤ 0x30000)

/-- The page is one of R457 and its unit is present and enabled (R6, R460). -/
def pagePresent (s : State) (page : Nat) : Bool :=
  pgId page != 0 &&
  if isCorePage page then coreOn s (pageCore page)
  else if isStackPage page then s.boot.stackMask.testBit (pageStack page)
  else if isPortPage page then s.boot.portMask.testBit (pagePort page)
  else if page = pgSEQ then seqPresent s
  else true

/-- HALT, RESET_REQ and ENABLE as R466 gives them to the pages. -/
def honorsHalt (page : Nat) : Bool :=
  (isCorePage page && page % 0x4000 == 0) || isPortPage page || page == pgSEQ || page == pgSCH
def honorsReset (page : Nat) : Bool :=
  (isCorePage page && page % 0x4000 == 0) || isPortPage page || (isStackPage page && page % 0x2000 == 0x1000)
def honorsEnable (page : Nat) : Bool := isPortPage page

def pgCap (s : State) (page : Nat) : Nat :=
  if pagePresent s page then
    bit (isEmu page) 31 + bit true 30 + bit (honorsHalt page) 29 + bit (honorsReset page) 28 + bit (honorsEnable page) 27
  else 0

def portState (s : State) (p : Nat) : Nat :=
  match (portOf s p).link with
  | .off => 0
  | .idle => 1
  | .training _ => 6
  | .run => 2
  | .fault => 5

def chanBusy (s : State) (st : Nat) : Bool :=
  (List.range 32).any fun ch => (chanOf s st ch).down.isSome

/-- Jack's STATE (R631). -/
def jackState (s : State) : Nat :=
  if s.err.dumping.isSome then 1
  else if !s.err.coreDown.isEmpty || s.err.clusterDown.isSome then 2
  else if s.err.replaying.isSome then 3
  else 0

def isQtab (page : Nat) : Bool := decide (0x1000 ≤ page ∧ page ≤ 0x8000)

/-- PG_STAT.STATE: 0 OFF, 1 IDLE, 2 RUN, 3 HALT, 4 DRAINING, 5 FAULT, 6 RESET. -/
def pgState (s : State) (page : Nat) : Nat :=
  if page = pgDEV then if halted s then 3 else if s.boot.ready then 2 else 6
  else if !pagePresent s page then 0
  else if honorsHalt page && haltIsReached s page then 3
  else if isCorePage page then
    let c := pageCore page
    let k := coreOf s c
    if page = pgCORE c then if (mget s.err.coreDown c).isSome then 6 else if k.groups.isEmpty then 1 else 2
    else if page = pgMXA c then if k.arr.queue.isEmpty then 1 else 2
    else if page = pgQNT c then if k.arr.drain.isNone then 1 else 2
    else if k.l1ctl.draining.isSome then 4 else if k.movers.isEmpty then 1 else 2
  else if isStackPage page then
    let st := pageStack page
    if page = pgL2C st then
      let c := (sliceOf s st).ctl
      if c.draining.isSome then 4 else if c.enabled then 2 else 1
    else if s.hbm.faultStacks.contains st then 5
    else if chanBusy s st then 6
    else 2
  else if isPortPage page then portState s (pagePort page)
  else if page = pgFTM then
    match s.ftm.state with
    | .acquiring => 6
    | .locked | .holdover => 2
    | .lost => 5
  else if page = pgXLT then if s.obj.contexts.isEmpty then 1 else 2
  else if page = pgHPT then if (s.obj.qps.filter fun q => q.1 != 0 && !q.2.gone).isEmpty then 1 else 2
  else if page = pgJCK then if jackState s = 0 then 1 else 2
  else if page = pgAWL then if reg s Reg.awlCtl % 2 = 1 then 2 else 1
  else if page = pgSEC then if s.boot.announced then 2 else 1
  else if isQtab page ∧ tableGen s % 2 = 1 then 6
  else 2

/-- OFF or IDLE: RWI fields may be written (R469). -/
def pageRests (s : State) (page : Nat) : Bool := pgState s page == 0 || pgState s page == 1

def pgStatWord (s : State) (page : Nat) : Nat :=
  rawReg s (hPgStat page) 0 / 2 ^ 31 * 2 ^ 31 + bit (mget s.applying page).isSome 30 + pgState s page

/-! ### Fields that report state -/

def cacheCtlWord (c : CacheCtl) : Nat := bit c.invDone 3 + bit c.invBusy.isSome 2 + bit c.enabled 0

/-- MXA_WSTAT's fields of one weight set (R164). -/
def wsetWord (w : WeightSet) : Nat :=
  let st := match w.state with | .empty => 0 | .loading => 1 | .loaded => 2
  st * 2 ^ 14 + w.fmt * 2 ^ 10 + bit w.orient 9 + bit w.noscale 8 + bit w.low 7

def viewCore (s : State) (page off : Nat) : Option Nat :=
  let c := pageCore page
  let k := coreOf s c
  let onSched (q : Nat) := k.groups.filter fun e => e.1 / 64 == q
  let sched (f : Nat → Nat) (w : Nat) : Nat := ((List.range 4).map fun q => f q * 2 ^ (w * q)).foldl (· + ·) 0
  if page = pgCORE c then
    if off = 0x48 then some (sched (fun q => (onSched q).length) 8)
    else if off = 0x50 then
      some (sched (fun q => 2048 - ((onSched q).map fun e => e.2.rows).foldl (· + ·) 0) 12)
    else none
  else if page = pgMXA c then
    let a := k.arr
    if off = 0x40 then
      let act := (setsAt a (coreCyc s c)).1
      let shd := (setsAt a (coreCyc s c)).2
      some (shd.kdim * 2 ^ 57 + shd.ndim * 2 ^ 50 + act.kdim * 2 ^ 43 + act.ndim * 2 ^ 36
        + wsetWord shd * 2 ^ 16 + wsetWord act + bit (a.swapping (coreCyc s c)) 6)
    else if off = 0x48 then
      let held := a.queue.any fun q => q.kind == .waitq
      some (bit held 26 + bit a.drain.isSome 25 + bit (!a.streams.isEmpty) 24 + bit a.load.isSome 23
        + bit a.ramp.isSome 22 + a.queue.length * 2 ^ 16)
    else none
  else if page = pgTMV c then
    if off = 0x40 then some (cacheCtlWord k.l1ctl)
    else if off = 0x44 then
      some (k.mbuf.length * 2 ^ 24 + min 255 k.launched.length * 2 ^ 16
        + (k.movers.map fun e => 2 ^ (12 + e.1 % 4)).foldl (· + ·) 0 + (freeGranules k).length)
    else none
  else none

def viewStack (s : State) (page off : Nat) : Option Nat :=
  let st := pageStack page
  if page = pgL2C st then
    let l := sliceOf s st
    if off = 0x40 then some (cacheCtlWord l.ctl)
    else if off = 0x4C then some (l.mbuf.length * 2 ^ 16 + min 64 (lockedLines s st).length * 2 ^ 8)
    else if off = 0x50 then some ((l.sets.map fun e => (e.2.filter L2Tag.kept).length).foldl (· + ·) 0)
    else none
  else if off = 0x40 then
    some (mgetD s.hbm.temp st 0 * 2 ^ 24 + mgetD s.hbm.band st 0 * 2 ^ 22 + bit s.hbm.selfRef 21 + bit s.hbm.keys.isSome 20)
  else if off = 0x44 then
    some (((List.range 32).map fun ch => bit (chanOf s st ch).down.isSome ch).foldl (· + ·) 0)
  else if off = 0x4C then
    let c := chanOf s st (reg s Reg.hbsSparesel st % 32)
    some ((c.spares.map fun e => (128 + bit e.2.2 6 + e.2.1 % 16) * 2 ^ (8 * e.1)).foldl (· + ·) 0)
  else none

def peerStateCode : PeerState → Nat
  | .unverified => 0
  | .up => 1
  | .suspect => 2
  | .down => 3
  | .reset => 4
  | .rejected => 5

/-- HNS_PEERSTAT (R418). -/
def peerStat (s : State) (n : Nat) : Nat :=
  if (topoEntry s n).isNone then 0xF * 2 ^ 28
  else
    let p := peerOf s n
    peerStateCode p.state * 2 ^ 28 + bit p.active 27 + bit p.onAlt 26 + pathPort s n * 2 ^ 16 + p.session % 16 * 2 ^ 12
      + p.epoch % 4096

def topoCtlWord (s : State) : Nat :=
  match s.fab.topoSt with
  | .none => 0
  | .loading => 1 * 16
  | .loaded => 2 * 16
  | .rejected r => r * 256 + 3 * 16

def viewPort (s : State) (page off : Nat) : Option Nat :=
  let p := pagePort page
  let q := portOf s p
  if off = 0x40 then
    let plane := ((s.fab.topo.map fun t => planeOf t p).getD 0).toNat
    let onAlt := s.fab.peers.any fun e => e.2.onAlt && pathPort s e.1 == p
    some (bit (q.link == .run) 31 + plane / 128 * 2 ^ 30 + plane % 128 * 2 ^ 23 + bit onAlt 16 + q.lanes.toNat)
  else if off = 0x48 then some (replayUsed s p)
  else if p ≠ 0 then none
  else if off = 0x80 then some (match s.fab.topo with | some t => 2 ^ 31 + t.self | none => 0)
  else if off = 0x9C then some (topoCtlWord s)
  else if off = 0xAC then some (peerStat s (reg s Reg.hnsPeersel))
  else if off = 0xB0 then
    let down := (s.fab.peers.filter fun e => e.2.active && e.2.state != .up).length
    some (down * 2 ^ 16 + activePairs s)
  else none

/-- A signed number as a 32-bit word. -/
def word32 (i : Int) : Nat := (BitVec.ofInt 32 i).toNat

def viewFtm (s : State) (off : Nat) : Option Nat :=
  let f := s.ftm
  let root := isRoot s
  if off = 0x40 then some (ftNs s)
  else if off = 0x4C then
    let st := match f.state with | .acquiring => 0 | .locked => 1 | .holdover => 2 | .lost => 3
    some (st * 2 ^ 29 + bit root 28 + bit f.gmAbsent 27 + bit f.gmLost 26 + treeDepth s * 2 ^ 23 + (timeSource s).getD 0)
  else if off = 0x50 then some (word32 (f.offset * 1000 / 131072))
  else if off = 0x54 then some (word32 (f.pathDly * 1000 / 131072))
  else if off = 0x58 then some (word32 f.rate)
  else if off = 0x5C then some (if root then word32 f.gmOffset else 0)
  else if off = 0x84 then
    let c := f.cal
    let r := match c.st with
      | .none => 0
      | .loading => 1 * 2 ^ 29
      | .pending => 2 * 2 ^ 29
      | .applied => 3 * 2 ^ 29
      | .refused r => 4 * 2 ^ 29 + r * 2 ^ 20
    some (r + c.mask.toNat)
  else none

/-- Cores of the descriptor removed by self-test or retirement (R596). -/
def coresRemoved (s : State) : Nat :=
  let all := ((s.boot.desc.map PartDesc.coreMask).getD 0)
  ((List.range 192).filter fun c => all.testBit c && !coreOn s c).length

/-- DEV_BOOTSTAT (R596). -/
def bootstat (s : State) : Nat :=
  let b := s.boot
  b.stage * 2 ^ 60 + b.error * 2 ^ 48 + bit b.netboot 47 + bit b.descOk 46 + bit b.warm 45 + bit s.fab.topo.isSome 44
    + bit s.ftm.everLocked 43 + coresRemoved s * 2 ^ 32 + b.stackFault * 2 ^ 16 + min 255 b.handoffs * 2 ^ 8
    + min 255 b.warms

/-- DEV_PART, the low 32 bits of query key PART (R475, R477). -/
def devPartWord (s : State) : Nat := s.boot.part + ((s.boot.desc.map PartDesc.dieRev).getD 0) * 2 ^ 16

def viewDev (s : State) (off : Nat) : Option Nat :=
  if off = 0x40 then some (devPartWord s)
  else if off = 0x44 then some (bit s.boot.ready 31 + bit s.boot.serving 30 + s.fab.epoch)
  else if off = 0x48 then some (bootstat s)
  else none

/-- SCH_CTXSTAT (R546). -/
def ctxStat (s : State) (x : Nat) : Nat :=
  let mine := s.cmds.filter fun e => e.2.ctx == x && e.2.started
  let parked := s.cores.any fun c => c.2.groups.any fun g =>
    (match g.2.wait with | .parked _ => true | _ => false) && (mine.any fun e => e.1 == g.2.cmd)
  let st := if !(s.obj.contexts.any fun c => c.1 == x) then 0
    else if parked then 4
    else if mine.any fun e => e.2.phase == .saved then 3
    else if mine.isEmpty then 1
    else 2
  st * 2 ^ 28 + min 65535 mine.length

/-- A staged value, or the effective one (R468). -/
def stagedReg (s : State) (a d : Nat) : Nat :=
  match mget s.staged a with
  | some v => v.toNat
  | none => rawReg s a d

/-- A word of a partition mask; partition 0 has what R513 computes. -/
def partMaskView (s : State) (p w : Nat) : Nat :=
  if p = 0 then
    ((List.range 64).map fun b => bit (coreOn s (64 * w + b) && partOf s (64 * w + b) == 0) b).foldl (· + ·) 0
  else stagedReg s (partMaskAddr p w) 0

def viewSch (s : State) (off : Nat) : Option Nat :=
  let x := reg s Reg.schCtxsel
  let p := reg s Reg.schPartsel
  if off = 0x40 then
    let n (f : Cmd → Bool) : Nat := min 65535 (s.cmds.filter fun e => f e.2).length
    some (n (fun c => c.phase == .saved) * 2 ^ 16 + n fun c => c.phase == .running)
  else if off = 0x50 then some (poolBytes s - s.sch.poolUsed)
  else if off = 0x70 then some (partMaskView s p 0)
  else if off = 0x78 then some (partMaskView s p 1)
  else if off = 0x80 then some (partMaskView s p 2)
  else if off = 0x8C then some (ctxCfgOf s x)
  else if off = 0x90 ∨ off = 0x98 ∨ off = 0xA0 then
    some ((mgetD s.sch.ctxPin x []).getD ((off - 0x90) / 8) 0).toNat
  else if off = 0xAC then some (tenWeight s (reg s Reg.schTensel))
  else if off = 0xB0 then some (ctxStat s x)
  else none

/-- Entries of the sequence table in a range that are not FREE. -/
def liveSeqs (s : State) (lo n : Nat) : Nat := (s.srv.seqs.filter fun e => decide (lo ≤ e.1 ∧ e.1 < lo + n)).length

def viewSeq (s : State) (off : Nat) : Option Nat :=
  let m := reg s Reg.seqMsel
  if off = 0x54 then some (liveSeqs s 0 65536)
  else if off = 0xA0 then
    some (bit (mget s.srv.steps m).isSome 31 + liveSeqs s (mReg s m Reg.seqMbase) (mReg s m Reg.seqMcount))
  else if 0x78 ≤ off ∧ off < 0xA0 then
    match Reg.all.find? fun r => r.base == pgSEQ + off with
    | some r => some (mReg s m r)
    | none => none
  else none

def viewAcc (s : State) (off : Nat) : Option Nat :=
  let v := s.srv
  let a := mgetD v.snaps (reg s Reg.accSel) .zero
  if off = 0x40 then some v.snapFt
  else if off = 0x48 then some v.snapSeq
  else if off = 0x50 then some a.coreTimeNs
  else if off = 0x58 then some a.arrayTimeNs
  else if off = 0x60 then some a.hbm
  else if off = 0x68 then some a.fab
  else if off = 0x70 then some a.host
  else if off = 0x78 then some a.energy
  else if off = 0x80 then some v.snapUnattr
  else if off = 0x88 then some v.snapMeter
  else if off = 0x90 then some v.snapIngress
  else none

/-- BDL_INPUT (R564). -/
def inputPeak (s : State) : Nat :=
  ((s.bdl.hist.filter fun e => !since s e.1 (msec 10)).map Prod.snd).foldl max 0

def viewBdl (s : State) (off : Nat) : Option Nat :=
  let d := reg s Reg.bdlDsel
  let x := domOf s d
  let some_ (f : Dom → Bool) : Bool := s.bdl.doms.any fun e => f e.2
  if off = 0x40 then
    some (bit (some_ Dom.clamped) 31 + bit s.bdl.capUnmet 30 + bit (some_ fun x => decide (x.duty < 8)) 29
      + bit (some_ Dom.hot) 28 + bit (s.bdl.memDrop != 0) 27 + bit (some_ Dom.fast) 26
      + (s.bdl.doms.map fun e => bit e.2.clamped (e.1 % 16)).foldl (· + ·) 0)
  else if off = 0x48 then some (inputPeak s * 2 ^ 16 + s.bdl.sense.avg1ms)
  else if off = 0x54 then some (stagedReg s (domKey d Reg.bdlDfloor) Reg.bdlDfloor.reset)
  else if off = 0x58 then some (stagedReg s (domKey d Reg.bdlDceil) Reg.bdlDceil.reset)
  else if off = 0x5C then
    some (x.mhz * 2 ^ 20 + x.mv8 / 8 * 2 ^ 10 + x.duty * 2 ^ 6 + bit x.clamped 5
      + bit (preHeld s d && decide (domTop s d ≤ x.mhz)) 4 + x.limit)
  else if off = 0x60 then some (s.bdl.sense.current.getD d 0 * 2 ^ 16 + s.bdl.sense.temp.getD d 0 % 256)
  else none

/-- The `i`-th 32-bit word of a hash. -/
def hashWord (h i : Nat) : Nat := h / 2 ^ (32 * i) % 2 ^ 32

def viewSec (s : State) (off : Nat) : Option Nat :=
  let b := s.boot
  if off = 0x40 then some (bit b.identity 31 + bit b.announced 30 + b.reports)
  else if off = 0x70 then
    let st := match b.att with | .none => 0 | .signing => 1 | .written => 2 | .failed => 3
    some (st * 2 ^ 29 + b.attSeq)
  else if 0x78 ≤ off ∧ off < 0x98 then some (if b.identity then hashWord b.idHash ((off - 0x78) / 4) else 0)
  else if 0x98 ≤ off ∧ off < 0xB8 then some (hashWord ((b.image.map FwImage.measure).getD 0) ((off - 0x98) / 4))
  else none

def fwuCode : FwuSt → Nat
  | .idle => 0
  | .fetching => 1
  | .verifying => 2
  | .staged => 3
  | .armed => 4
  | .probation => 5
  | .flashing => 6
  | .rejected => 7

/-- Progress of FLASHING at 2 s per MiB (R595). -/
def flashPct (s : State) : Nat :=
  match s.boot.fwu.st, s.boot.fwu.job with
  | .flashing, some (.image i) => min 100 ((s.now - s.boot.fwu.flashAt) * 100 * 0x100000 / (sec 2 * (i.length + 0x10000)))
  | _, _ => 0

def viewFwu (s : State) (off : Nat) : Option Nat :=
  let u := s.boot.fwu
  let run (f : FwImage → Nat) : Nat := (s.boot.image.map f).getD 0
  if off = 0x40 then some (fwuCode u.st * 2 ^ 28 + u.reason * 2 ^ 24 + flashPct s * 2 ^ 16)
  else if off = 0x60 then some (run FwImage.fwVer)
  else if off = 0x68 then some ((u.image.map FwImage.fwVer).getD 0)
  else if off = 0x70 then some (run FwImage.handoffVer * 2 ^ 16 + run FwImage.handoffMin)
  else if off = 0x74 then some u.last
  else none

/-- ERR_STAT (R630). -/
def errStatWord (s : State) : Nat :=
  bit (decide (errFree s < 17)) 31 + bit s.err.active.isSome 30 + s.err.queue.length * 2 ^ 16
    + ((s.err.active.map fun r => r.domain.rank).getD 0) * 2 ^ 8

def viewErr (s : State) (off : Nat) : Option Nat :=
  if off = 0x48 then some (errStatWord s)
  else if 0x80 ≤ off ∧ off < 0xC0 then
    match s.err.ring.find? fun e => e.seq % 256 == reg s Reg.errSel with
    | some e => some (fromLe (((errBytes e).drop (off - 0x80)).take 4))
    | none => some 0
  else none

def viewJck (s : State) (off : Nat) : Option Nat :=
  if off = 0x40 then
    some (jackState s * 2 ^ 28 + (s.err.suspects.filter fun i => s.err.replaying != some i).length)
  else if off = 0x68 then some s.err.dumpNo
  else if off = 0x78 then
    some (match s.err.replaying.bind (cmdOf s) with | some c => 2 ^ 31 + c.ctx | none => 0)
  else none

/-- The unit of a selected page is OFF or in RESET, or a warm reset holds it: Awl holds its output low (R654). -/
def awlHeld (s : State) : Bool :=
  let id := reg s Reg.awlSel
  match ((List.range 0x380).map (· * 0x1000)).find? fun p => pgId p == id with
  | some p => pgState s p == 0 || pgState s p == 6 || s.err.warmPhase.isSome
  | none => true

def viewAwl (s : State) (off : Nat) : Option Nat :=
  if off = 0x4C then
    let st := match s.awl.st with
      | .off => 0
      | .driving => (if awlHeld s then 3 else 1) * 2 ^ 28
      | .refused r => 2 * 2 ^ 28 + r * 2 ^ 24
    some (st + Config.groupCount (reg s Reg.awlSel) % 4097)
  else none

/-! ### The query table (R474–R476) -/

/-- KEY, INDEX and VALUE of every entry but COUNT. -/
def queryList (s : State) : List (Nat × Nat × Nat) :=
  let b := s.boot
  let mask (i : Nat) : Nat := ((List.range 64).map fun j => bit (coreOn s (64 * i + j)) j).foldl (· + ·) 0
  let topo (f : TopoTable → Nat) : Nat := (s.fab.topo.map f).getD 0
  [(0x0001, 0, tableGen s), (0x0010, 0, devPartWord s), (0x0011, 0, ((b.fwu.old <|> b.image).map FwImage.fwVer).getD 0),
    (0x0012, 0, (b.desc.map PartDesc.descVer).getD 0), (0x0020, 0, ((List.range 192).filter (coreOn s)).length),
    (0x0021, 0, mask 0), (0x0021, 1, mask 1), (0x0021, 2, mask 2), (0x0021, 3, 0), (0x0022, 0, 0x00000840FF204004),
    (0x0023, 0, 1 + 32 * 256)]
  ++ [(0x0024, 0, 96 + 96 * 256 + 2730 * 2 ^ 16 + 0xFF * 2 ^ 32), (0x0025, 0, 0x400000),
    (0x0026, 0, maxMhz s + 1200 * 2 ^ 16 + 25 * 2 ^ 32 + 16 * 2 ^ 40), (0x0030, 0, b.stackMask), (0x0031, 0, hbmBytes s),
    (0x0032, 0, hbmBytes s - softBase), (0x0033, 0, min 0x8000000000 ((hbmBytes s - softBase) / 2)), (0x0040, 0, b.portMask),
    (0x0041, 0, b.features % 2)]
  ++ [(0x0042, 0, 4096), (0x0042, 1, 16384), (0x0042, 2, 65536), (0x0042, 3, 1048576), (0x0042, 4, 4194304),
    (0x0042, 5, if seqPresent s then 65536 else 0), (0x0050, 0, match s.fab.topo with | some t => 2 ^ 31 + t.self | none => 0),
    (0x0051, 0, topo TopoTable.version)]
  ++ ((List.range 4).map fun i => (0x0052, i, topo fun t => t.hash / 2 ^ (64 * i) % 2 ^ 64))
  ++ [(0x0053, 0, topo TopoTable.count), (0x0054, 0, topo TopoTable.timeRoot)]

/-- The table with COUNT, sorted by KEY and INDEX as it stands. -/
def queryTable (s : State) : List (Nat × Nat × Nat) :=
  match queryList s with
  | [] => []
  | g :: l => g :: (0x0002, 0, l.length + 2) :: l

/-- Entry `n` of the QTAB pages as 16 bytes; all zero past the last. -/
def queryBytes (s : State) (n : Nat) : List Byte :=
  match (queryTable s)[n]? with
  | some (k, i, v) => leBytes 2 k ++ leBytes 2 i ++ leBytes 4 0 ++ leBytes 8 v
  | none => leBytes 16 0

def viewQtab (s : State) (page off : Nat) : Nat :=
  fromLe (((queryBytes s ((page / 0x1000 - 1) * 252 + (off - 0x40) / 16)).drop (off % 16)).take 4)

/-! ### Reading a register (R456, R461, R467, R659) -/

/-- A field that reports state, by its page and offset. -/
def viewField (s : State) (page off : Nat) : Option Nat :=
  if isCorePage page then viewCore s page off
  else if isStackPage page then viewStack s page off
  else if isPortPage page then viewPort s page off
  else if page = pgDEV then viewDev s off
  else if page = pgHPT then if off = 0x44 then some (s.obj.qps.filter fun q => !q.2.gone).length else none
  else if page = pgXLT then
    if off = 0x64 then
      let n (f : Walk → Bool) : Nat := (s.xlt.walks.filter fun w => f w.2).length
      let full := fringOn s && !fringRoom s && (unposted s).isSome
      some (min 64 (n fun w => !w.host) * 2 ^ 24 + min 256 (n fun w => w.host) * 2 ^ 15 + bit full 14
        + bit (!s.xlt.invPending.isEmpty) 13 + min 8191 (s.xlt.recs.filter fun r => r.2.seq.isSome).length)
    else none
  else if page = pgFTM then viewFtm s off
  else if page = pgSCH then viewSch s off
  else if page = pgSEQ then viewSeq s off
  else if page = pgACC then viewAcc s off
  else if page = pgBDL then viewBdl s off
  else if page = pgSEC then viewSec s off
  else if page = pgFWU then viewFwu s off
  else if page = pgERR then viewErr s off
  else if page = pgJCK then viewJck s off
  else if page = pgAWL then viewAwl s off
  else none

/-- The register that an address lies in, with its instance. -/
def findReg (a : Nat) : Option (RegDef × Nat) :=
  (Reg.all.findSome? fun r =>
    let hit (i : Nat) : Bool := decide (r.at_ i ≤ a ∧ a < r.at_ i + (if r.wide then 8 else 4))
    if r.count = 1 then if hit 0 then some (r, 0) else none
    else
      let i := (a - r.base) / r.stride
      if r.base ≤ a ∧ i < r.count ∧ hit i then some (r, i) else none)

/-- Bits that read 0: what a register of no type but write-only holds, and commands in it (GO, INV, LOAD). -/
def readMask (r : RegDef) : Nat :=
  if r.type = .wo then 0 else if r.base = Reg.ftmCalCtl.base then 2 ^ 31 - 1 else 2 ^ 64 - 1

/-- The value of a register as it reads. -/
def readReg (s : State) (page : Nat) (r : RegDef) (i : Nat) : Nat :=
  match viewField s page (r.at_ i - page) with
  | some v => v
  | none => (if r.type = .rws then stagedReg s (r.at_ i) r.reset else reg s r i) &&& readMask r

/-- The common header and the counter block (R461, R659). -/
def readCommon (s : State) (page off : Nat) : Nat :=
  if off = 0x00 then pgId page
  else if off = 0x04 then 0x00010000
  else if off = 0x08 then pgCap s page
  else if off = 0x0C then pgStatWord s page
  else if off = 0x18 then rawReg s (hPgCtl page) (pgCtlReset page) % 8 &&& 5
  else if off < 0x20 then rawReg s (page + off) 0
  else if off = 0xF00 then rawReg s (page + off) 0 &&& 0xBFFF0001
  else if off < 0xF40 then rawReg s (page + off) 0
  else rawReg s (page + off / 8 * 8) 0 / 2 ^ (8 * (off % 8))

/-- The four bytes at an aligned address of the register window. -/
def readWord (s : State) (a : Nat) : Nat :=
  let page := a / 0x1000 * 0x1000
  let off := a % 0x1000
  if pgId page = 0 then 0
  else if off < 0x20 ∨ (0xF00 ≤ off ∧ off < 0xF80) then
    if 0x1000 ≤ page ∧ page ≤ 0x8000 ∧ 0x20 ≤ off then viewQtab s page off else readCommon s page off % 2 ^ 32
  else if 0x1000 ≤ page ∧ page ≤ 0x8000 then if off < 0x40 then 0 else viewQtab s page off
  else
    match findReg a with
    | some (r, i) => readReg s page r i / 2 ^ (8 * (a - r.at_ i)) % 2 ^ 32
    | none => 0

/-! ### An RDMA READ of the register window (R453, R454, R473, R542, R574)

The opcode table has no row for it: it changes nothing but FTM_NOWFRAC, which FTM_NOW_READ latches. -/

/-- How a READ of the register window is answered. `waits` is a READ of an emulated page while firmware does not serve. -/
inductive WindowAnswer where
  | data (d : List Byte)
  | nakInvalid
  | nakAccess
  | waits
  deriving DecidableEq, Repr

/-- The pages that every tenant may read (R453). -/
def tenantPage (page : Nat) : Bool :=
  page == pgDEV || decide (0x1000 ≤ page ∧ page ≤ 0x8000) || page == pgFTM || page == pgACC

/-- Four bytes as a tenant reads them: on the ACC page a tenant other than 0 sees only its own counters (R542, R548). -/
def readWordFor (s : State) (t a : Nat) : Nat :=
  if t = 0 ∨ a / 0x1000 * 0x1000 ≠ pgACC then readWord s a
  else
    readWord (setReg { s with srv := { s.srv with snapUnattr := 0, snapMeter := 0, snapIngress := 0 } } Reg.accSel 0 t) a

/-- The answer to a READ of `n` bytes at `a` by tenant `t`. -/
def windowRead (s : State) (t a n : Nat) : WindowAnswer :=
  let page := a / 0x1000 * 0x1000
  if t ≠ 0 ∧ !tenantPage page then .nakAccess
  else if a % 4 ≠ 0 ∨ n % 4 ≠ 0 ∨ n = 0 ∨ 0x1000 < a % 0x1000 + n then .nakInvalid
  else if windowOpen s ∧ page ≠ pgDEV then .data (List.replicate n 0xFF)
  else if isEmu page ∧ !fwServes s page then .waits
  else .data ((List.range (n / 4)).flatMap fun i => leBytes 4 (readWordFor s t (a + 4 * i)))

end Sys2Proof.Machine
end

