-- ==== Sys2Proof/Machine/Dump.lean ====
section
/-! DEFINITION. Jack's dump (R619–R622).
Assumption log: DEDUCED 88. -/

namespace Sys2Proof.Machine

/-! ### What a dump holds (R620) -/

/-- The 4 KiB of a register page. -/
def pageBytes (s : State) (page : Nat) : List Byte :=
  (List.range 1024).flatMap fun i => leBytes 4 (readWord s (page + 4 * i))

/-- A record's header: FT_NS at which the record was read. -/
def dumpRecHead (s : State) : List Byte := leBytes 8 (ftNs s) ++ List.replicate 4088 0

/-- Byte 0x19 of a group state. -/
def groupStateCode (g : Group) : Nat :=
  match g.wait with
  | .parked _ => 6
  | .barrier _ _ => 3
  | .token _ => 4
  | .arrayQueue | .moverSlot _ | .credit => 5
  | .drainHeld | .fence _ | .walk _ | .frameCopy _ => 2
  | .none => if !g.sb.isEmpty then 2 else if g.ser.isSome then 7 else 1

/-- The state of a group slot, 32 bytes. -/
def groupState (s : State) (c slot : Nat) : List Byte :=
  match groupOf s c slot with
  | none => List.replicate 26 0 ++ leBytes 1 slot ++ List.replicate 5 0
  | some g =>
    let va := ((cmdOf s g.cmd).map fun c => c.d.codeVa).getD 0 + 8 * g.pc
    let id := ((cmdOf s g.cmd).map fun c => c.d.cmdId.toNat).getD 0
    leBytes 8 va ++ leBytes 8 id ++ leBytes 4 g.am.toNat ++ leBytes 4 g.fpc ++ leBytes 1 g.stack.length
      ++ leBytes 1 (groupStateCode g) ++ leBytes 1 slot ++ List.replicate 5 0

/-- Scratchpad window `n` of JCK_SAMPLE; a disabled one holds 0 (R631). -/
def windowBytes (s : State) (c n : Nat) : List Byte :=
  let b := reg s Reg.jckSample / 2 ^ (8 * n) % 256
  if b / 128 = 1 then (List.range 65536).map fun i => mgetD (coreOf s c).scratch (b % 64 * 65536 + i) 0
  else List.replicate 65536 0

/-- A core record of 320 KiB. -/
def coreRecord (s : State) (c : Nat) : List Byte :=
  dumpRecHead s ++ pageBytes s (pgCORE c) ++ pageBytes s (pgMXA c) ++ pageBytes s (pgQNT c) ++ pageBytes s (pgTMV c)
    ++ (List.range 256).flatMap (groupState s c) ++ List.replicate 36864 0 ++ windowBytes s c 0 ++ windowBytes s c 1
    ++ windowBytes s c 2 ++ windowBytes s c 3

/-- A record of register pages. -/
def pageRecord (s : State) (pages : List Nat) : List Byte := dumpRecHead s ++ pages.flatMap (pageBytes s)

/-- The control cluster's record: the pages that firmware serves, and 64 KiB of control-core state, which is left open. -/
def clusterRecord (s : State) : List Byte × State :=
  let r := freeBytes 65536 s
  (pageRecord s [pgSCH, pgACC, pgSEC, pgFWU] ++ r.1, r.2)

/-- The record of one unit by its domain, under the PG_ID of its first page. -/
def recordOfDomain (s : State) (d : Domain) : (Nat × List Byte) × State :=
  match d with
  | .core c => ((pgId (pgCORE c), coreRecord s c), s)
  | .channel st _ => ((pgId (pgHBS st), pageRecord s [pgHBS st, pgL2C st]), s)
  | .port p => ((pgId (pgHNS p), pageRecord s [pgHNS p]), s)
  | .hostPort => ((pgId pgHPT, pageRecord s [pgHPT]), s)
  | .cluster =>
    let r := clusterRecord s
    ((pgId pgSCH, r.1), r.2)
  | .device => ((pgId pgDEV, pageRecord s [pgDEV]), s)

/-- The hardware pages of the module beside those of cores, stacks and ports. -/
def modulePages : List Nat := [pgDEV, pgSEQ, pgBDL, pgERR, pgJCK, pgFTM, pgXLT, pgAWL, pgHPT]

/-- Every core and unit, in the order of the page map. -/
def dumpDomains (s : State) (d : Domain) : List Domain :=
  if d = .device then
    ((List.range 16).filter s.boot.portMask.testBit).map Domain.port
      ++ ((List.range 16).filter s.boot.stackMask.testBit).map (Domain.channel · 0)
      ++ ((List.range 192).filter s.boot.coreMask.testBit).map Domain.core ++ [.cluster]
  else [d]

def dumpRecords (s : State) : List Domain → List (Nat × List Byte) × State
  | [] => ([], s)
  | d :: t =>
    let r := recordOfDomain s d
    let q := dumpRecords r.2 t
    (r.1 :: q.1, q.2)

/-- The records laid out one after the other from the end of the slot's header, with their directory. -/
def dumpLayout : Nat → List (Nat × List Byte) → List Byte × List Byte
  | _, [] => ([], [])
  | off, (id, b) :: t =>
    let r := dumpLayout (off + b.length) t
    (leBytes 4 id ++ leBytes 4 off ++ leBytes 4 b.length ++ leBytes 4 0 ++ r.1, b ++ r.2)

/-- Where dump `k` lies. -/
def dumpBase (k : Nat) : Nat := 0x10000000 + k % 3 * 0x4000000

/-! ### The dump's course (R619–R622) -/

/-- A dump begins: its number is taken, its records are read and written. -/
def startDump (s : State) (d : Domain) (code : Nat) : State :=
  let k := s.err.dumpNo
  let pages := if d = .device then modulePages.map fun p => (pgId p, pageRecord s [p]) else []
  let r := dumpRecords s (dumpDomains s d)
  let recs := pages ++ r.1
  let lay := dumpLayout 0x10000 recs
  let size := 0x10000 + lay.2.length
  let head := leBytes 4 k ++ leBytes 2 code ++ leBytes 1 d.rank ++ leBytes 1 0 ++ leBytes 8 (ftNs s) ++ leBytes 8 0
    ++ leBytes 4 recs.length ++ leBytes 4 size ++ List.replicate 32 0 ++ lay.1
  let s := wrBytes (wrBytes r.2 (dumpBase k) head) (dumpBase k + 0x10000) lay.2
  let s := modErr s fun e => { e with dumping := some (d, code, s.now), dumpNo := k + 1, sizeKb := ceilDiv size 1024, dumpMiss := [] }
  pmcEvent s pgJCK 0x0100 1 none

/-- The dump is complete, or stops with TRUNC. -/
def endDump (s : State) (trunc : Bool) : State :=
  if s.err.dumping.isNone then s
  else
    let k := s.err.dumpNo - 1
    let s := wrBytes s (dumpBase k + 0x10) (leBytes 8 (ftNs s))
    let s := if trunc then wrBytes s (dumpBase k + 7) (leBytes 1 1) else s
    let due := s.err.copyDue.filter (fun j => j % 3 != k % 3) ++ [k]
    let s := modErr s fun e => { e with dumping := none, trunc, dumpMiss := [], copyDue := due }
    setReg s Reg.jckLastdump 0 (k % 3 * 2 ^ 30 + bit trunc 29 + s.err.sizeKb)

/-- The entry of the directory of the dump in progress for a unit: its place in the directory, the record's offset and
length. -/
def dirEntry (s : State) (unit : Nat) : Option (Nat × Nat × Nat) :=
  let base := dumpBase (s.err.dumpNo - 1)
  ((List.range (fromLe (rdBytes s (base + 0x18) 4))).map fun i =>
      let a := base + 0x40 + 16 * i
      (fromLe (rdBytes s a 4), a, fromLe (rdBytes s (a + 4) 4), fromLe (rdBytes s (a + 8) 4))).findSome? fun e =>
    if e.1 = unit then some e.2 else none

/-- The pattern of what was not read, over `n` units of 4 KiB. -/
def badUnits (n : Nat) : List Byte := (List.replicate (512 * n) [0xAD#8, 0x0B#8, 0xAD#8, 0x0B#8, 0xAD#8, 0x0B#8, 0xAD#8, 0x0B#8]).flatten

/-- A read of one 4 KiB of a record is not answered. Which one, and the bit of the record's flags, are left open. The
second in a row gives up the rest of the record. -/
def doDumpMiss (s : State) (unit : Nat) : State :=
  match dirEntry s unit with
  | none => s
  | some (dir, off, len) =>
    let units := len / 4096
    let r := freeNat s 32
    let b := freeNat r.2 5
    let s := b.2
    let prev := mget s.err.dumpMiss unit
    let lo := match prev with
      | some p => p + 1
      | none => 0
    if units ≤ lo then s
    else
      let n := lo + r.1 % (units - lo)
      let again := prev.isSome && n == lo
      let a := dumpBase (s.err.dumpNo - 1) + off + 4096 * n
      let s := wrBytes s a (badUnits (if again then units - n else 1))
      let flags := fromLe (rdBytes s (dir + 12) 4) ||| 2 ^ b.1
      let s := wrBytes s (dir + 12) (leBytes 4 flags)
      let s := modErr s fun e => { e with dumpMiss := mset e.dumpMiss unit (if again then units else n) }
      pmcEvent s pgJCK 0x0101 1 none

def execDumpReadTimeout (unit : Nat) (s : State) : Host.Outcome State Fault Refusal :=
  if s.err.dumping.isSome then .next (doDumpMiss s unit) else .next s

def dumpLate (s : State) : Bool :=
  match s.err.dumping with
  | some (_, _, t) => since s t (msec 40)
  | none => false

def execDumpTimeout (s : State) : Host.Outcome State Fault Refusal :=
  if dumpLate s then .next (endDump s true) else .next s

/-- A completed dump may be copied to the host: the module is ready and firmware serves. -/
def copyReady_ (s : State) : Bool :=
  !s.err.copyDue.isEmpty && s.boot.ready && s.boot.serving && hostUp s && reg s Reg.jckDestlen != 0

/-- The copy of one dump, up to JCK_DESTLEN bytes; one that the aperture does not reach is not made. COPIED is about the
latest dump. -/
def copyDump (s : State) (k : Nat) : State :=
  let n := min (reg s Reg.jckDestlen) (fromLe (rdBytes s (dumpBase k + 0x1C) 4))
  if inAperture s (reg s Reg.jckDest) n then
    let s' := hostWrite s 0 (reg s Reg.jckDest) (rdBytes s (dumpBase k) n) .other
    if k + 1 = s.err.dumpNo then setReg s' Reg.jckLastdump 0 (reg s Reg.jckLastdump ||| 2 ^ 28) else s'
  else s

/-- The oldest dump not yet copied, of those whose slot still holds it. -/
def doDumpCopy (s : State) : State :=
  match s.err.copyDue with
  | k :: t => copyDump (modErr s fun e => { e with copyDue := t }) k
  | [] => s

def execDumpCopy (s : State) : Host.Outcome State Fault Refusal :=
  if copyReady_ s && s.err.dumping.isNone then .next (doDumpCopy s) else .next s

end Sys2Proof.Machine
end

