-- ==== Sys2Proof/Machine/Recovery.lean ====
section
/-! DEFINITION. Recoveries, core and port resets, Jack's watchdogs and suspects (R607–R613, R617–R627).
Assumption log: DEDUCED 87, 89, 90, 91, 93, 134. -/

namespace Sys2Proof.Machine

/-! ### The ERR page's own rows (R607, R614) -/

/-- Entries consumed: a value behind ERR_HEAD or past ERR_TAIL is ignored. -/
def doErrHead (s : State) (v : Nat) : State :=
  if v < reg s Reg.errHead ∨ reg s Reg.errTail < v then s else setReg s Reg.errHead 0 v

def execErrHeadWrite (tenant : Nat) (value : Word) (s : State) : Host.Outcome State Fault Refusal :=
  .next (mgmtWrite s tenant (.write Reg.errHead.base 4 (value.setWidth 64)) fun s => doErrHead s value.toNat)

/-- A warm reset the host asks for. -/
def hostWarm (s : State) : State := if alive s then dueWarm s 5 0 else s

def execErrWarmreq (tenant : Nat) (value : Word) (s : State) : Host.Outcome State Fault Refusal :=
  .next (mgmtWrite s tenant (.write Reg.errWarmreq.base 4 (value.setWidth 64)) fun s => if value = 0x5752 then hostWarm s else s)

/-! ### Recoveries (R609–R612, R619) -/

/-- A recovery of Jack's, or a channel reset that hardware began: it needs no firmware (R610). -/
def selfRuns (r : Recovery) : Bool :=
  r.code == Code.hangDetected || match r.domain with
    | .channel _ _ => true
    | _ => false

/-- The recovery that runs next. -/
def nextRecovery (s : State) : Option Recovery :=
  if s.err.active.isSome || s.err.warmReq.isSome || !alive s then none
  else if s.boot.serving then s.err.queue.head? else s.err.queue.find? selfRuns

/-- Jack dumps before it: every core reset, of which one for a hang only when JCK_CTL.DUMP is 1, and every hang (R619). -/
def willDump (s : State) (d : Domain) (code : Nat) : Bool :=
  if code = Code.hangDetected then reg s Reg.jckCtl % 2 == 1
  else match d with
    | .core _ => true
    | _ => false

/-- The recovery is the current one, and its dump begins; a dump before another reset than a core's is complete before
the reset begins. -/
def beginRecovery (s : State) (r : Recovery) : State :=
  let s := modErr s fun e => { e with active := some { r with started := some s.now }, queue := e.queue.erase r }
  let s := pmcEvent s pgERR (0x0102 + r.domain.rank) 1 none
  let s := if willDump s r.domain r.code then startDump s r.domain r.code else s
  match r.domain with
  | .core _ => s
  | .channel st ch =>
    let s := endDump s false
    if resetting s st ch then s else startChanReset s st ch
  | _ => endDump s false

def execRecoveryStart (s : State) : Host.Outcome State Fault Refusal :=
  match nextRecovery s with
  | some r => .next (beginRecovery s r)
  | none => .next s

/-- The current recovery has exceeded the time of R612; a core's counts from its reset, or from a dump that has run out. -/
def recoveryLate (s : State) : Option Recovery :=
  s.err.active.filter fun r =>
    let t := r.started.getD s.now
    match r.domain with
    | .core c =>
      match mget s.err.coreDown c with
      | some t => since s t (usec 50)
      | none => since s t (msec 40 + usec 50)
    | .channel _ _ => since s t (msec 1)
    | .port _ | .hostPort => since s t (msec 2)
    | .cluster => since s t (msec 40)
    | .device => false

def execRecoveryTimeout (s : State) : Host.Outcome State Fault Refusal :=
  match recoveryLate s with
  | some r => .next (escalate s r.domain r.code)
  | none => .next s

/-! ### Hangs (R617–R619) -/

def unitLimit (s : State) : Nat := msec (reg s Reg.jckUnitLimit)

def hungCore (s : State) (c : Nat) : Bool :=
  let k := coreOf s c
  coreWorks k && (mget s.err.coreDown c).isNone &&
  match k.workSince with
  | some t => since s (max t k.lastDone) (msec (reg s Reg.jckCoreLimit))
  | none => false

def hungChan (s : State) (st ch : Nat) : Bool :=
  let c := chanOf s st ch
  !c.queue.isEmpty && c.down.isNone &&
  match c.workSince with
  | some t => since s (max t c.lastDone) (unitLimit s)
  | none => false

def hungPort (s : State) (p : Nat) : Bool :=
  let q := portOf s p
  q.link == .run &&
  match q.workSince with
  | some t => since s (max t q.lastDone) (unitLimit s)
  | none => false

def hungUnit (s : State) (u : Nat) : Bool :=
  match mget s.err.unitSince u with
  | some t => since s (max t (mgetD s.err.unitDone u 0)) (unitLimit s)
  | none => false

/-- The page of intake, dispatcher and commit unit, and of the sequence engine. -/
def watchedPage (u : Nat) : Nat := if u = 3 then pgSEQ else pgSCH

/-- HANG_DETECTED with the SEQ of the dump to come (R605, R619). -/
def logHang (s : State) (d : Domain) (page : Nat) : State :=
  let ahead := (s.err.queue.filter fun r => willDump s r.domain r.code).length
  let seq := if d = .device ∨ willDump s d Code.hangDetected then s.err.dumpNo + ahead else 0
  incReg (errWrite s { errBase s Code.hangDetected 3 (pgId page) with detail := seq }) Reg.jckHangs 0

/-- A recovery of the domain is under way or due. -/
def inRecovery (s : State) (d : Domain) : Bool :=
  (s.err.active.any fun r => r.domain == d) || s.err.queue.any fun r => r.domain == d

/-- A hung engine's domain is to be reset. -/
def foundHung (s : State) (d : Domain) : State :=
  let n := reg s Reg.errTail
  queueRecovery (logHang s d d.page) n d Code.hangDetected

/-- The engines of one kind, those already in recovery apart. -/
def hungDomains (s : State) : List Domain :=
  let cores := ((List.range 192).filter fun c => hungCore s c).map Domain.core
  let chans := (s.hbm.chans.filter fun e => hungChan s (e.1 / 32) (e.1 % 32)).map fun e => Domain.channel (e.1 / 32) (e.1 % 32)
  let ports := ((List.range 16).filter fun p => hungPort s p).map Domain.port
  (cores ++ chans ++ ports).filter fun d => !inRecovery s d

/-- Jack's check, the safe point of the JCK page's fields. A hung unit of the module calls for a warm reset. -/
def doJackCheck (s : State) : State :=
  let s := modErr (pageSafePoint s pgJCK) fun e => { e with lastCheck := s.now }
  let s := (hungDomains s).foldl foundHung s
  match (List.range 4).find? fun u => hungUnit s u with
  | some u => dueWarm (logHang s .device (watchedPage u)) 1 Code.hangDetected
  | none => s

def execJackCheck (s : State) : Host.Outcome State Fault Refusal :=
  if s.boot.ready && alive s && s.err.warmReq.isNone && since s s.err.lastCheck (msec 1) then .next (doJackCheck s)
  else .next s

/-! ### A core reset (R612, R613, R623–R627) -/

/-- A command has groups, array work or mover work on a core. -/
def hasWork (k : CoreSt) (i : Nat) : Bool :=
  k.groups.any (fun e => e.2.cmd == i) || k.arr.queue.any (fun q => q.cmd == i) || k.launched.any (fun m => m.cmd == i)
    || k.movers.any fun e => e.2.cmd == i

/-- The commands that a reset of a core ends. -/
def coreVictims (s : State) (core : Nat) : List Nat :=
  (s.cmds.filter fun e => e.2.started && hasWork (coreOf s core) e.1).map Prod.fst

/-- A replayable command, or a member of a replayable gang. -/
def replays (s : State) (i : Nat) : Bool :=
  match cmdOf s i with
  | some c => if c.d.isGang then (gangOf s c).any Gang.replays else c.replayable
  | none => false

/-- The suspects among the commands that a hang ended, gangs with all their members here (R623). -/
def suspectsOf (s : State) (vs : List Nat) : List Nat :=
  (s.cmds.filter fun e => vs.any fun v => replays s v && sameSuspect s v e.1).map Prod.fst

/-- Merging-buffer entries that the 4 µs of a core reset may still drain; which they are is left open (R612). -/
def lastDrain : State → List (Nat × MergeEntry) → List (Nat × MergeEntry) × State
  | s, [] => ([], s)
  | s, e :: t =>
    let r := chooseOf s false
    let q := lastDrain r.2 t
    (if r.1 then e :: q.1 else q.1, q.2)

/-- The core with nothing in it. -/
def clearCore (s : State) (core : Nat) : State :=
  let old := coreOf s core
  let r := lastDrain s old.mbuf
  let s := modCore r.2 core fun _ => { CoreSt.fresh with mbuf := r.1, nextMb := old.nextMb }
  let s := { s with
    ms := { s.ms with reqs := s.ms.reqs.filter fun e => e.2.core != core,
                      loads := s.ms.loads.filter fun e => e.2.core != core },
    cmds := s.cmds.map fun e => (e.1, { e.2 with begun := e.2.begun.filter fun c => c != core }) }
  modErr s fun e => { e with coreDown := mset e.coreDown core s.now }

/-- The core leaves the enabled mask (R627). -/
def retireCore (s : State) (core : Nat) : State :=
  if s.err.retired.contains core && s.boot.coreMask.testBit core then
    let s := rewriteTable (modBoot s fun b => { b with coreMask := maskWithout b.coreMask (2 ^ core) })
    logOnly s Code.rcvCoreRetired (pgCORE core)
  else s

/-- A context is banned (R626): its commands end with HANG_GUILTY, and nothing more of it is taken until its teardown. -/
def banContext (s : State) (x : Nat) : State :=
  match mget s.obj.contexts x with
  | none => s
  | some c =>
    if c.banned then s
    else
      let s := modCtx s x fun c => { c with banned := true }
      let s := setReg s Reg.jckBanned 0 (reg s Reg.jckBanned + 1)
      (s.cmds.filter fun e => e.2.ctx == x).foldl (fun s e => failCmd s e.1 Code.hangGuilty pgSCH 0) s

/-- The suspect that hung again ends, its context is banned, the others are released (R625). -/
def endGuilty (s : State) (i : Nat) : State :=
  match cmdOf s i with
  | none => s
  | some c =>
    let s := modErr s fun e => { e with suspects := [], replaying := none, suspectCore := none }
    let s := if c.d.isGang then settled (endGang s c Code.hangGuilty false)
             else failCmd s i Code.hangGuilty pgSCH 0
    banContext (incReg s Reg.jckGuilty 0) c.ctx

/-- The suspect being replayed, where the reset core is one that it hung on. -/
def guilty (s : State) (vs : List Nat) : Option Nat :=
  s.err.replaying.filter fun r => vs.any fun v => sameSuspect s r v

/-- New suspects after a hang, or HANG_UNRESOLVED where there are none. -/
def noteSuspects (s : State) (core : Nat) (new : List Nat) : State :=
  if new.isEmpty then logUnresolved s core
  else
    modErr s fun e => { e with suspects := e.suspects ++ new.filter (fun i => !e.suspects.contains i),
                               suspectCore := (e.suspectCore <|> some core) }

/-- The dump is done and the core is reset. -/
def doCoreReset (s : State) (core code : Nat) : State :=
  let s := endDump s false
  let hang : Bool := code == Code.hangDetected
  let vs := coreVictims s core
  let g := if hang then guilty s vs else none
  let new := suspectsOf s vs
  let s := match g with
    | some r => endGuilty s r
    | none => s
  let why := if hang then Code.hangSuspectLost else code
  let s := vs.foldl (fun s i => killOrEnd s i why (pgCORE core) (nodeId s)) s
  let s := if hang && g.isNone && reg s Reg.jckCtl / 2 % 2 == 1 then
             noteSuspects s core (new.filter fun i => (cmdOf s i).isSome)
           else s
  retireCore (clearCore s core) core

/-- The current recovery is of this core, for this code, and its reset has not begun. -/
def coreResetDue (s : State) (core code : Nat) : Bool :=
  (s.err.active.any fun r => r.domain == .core core && r.code == code) && (mget s.err.coreDown core).isNone

def execCoreReset (core code : Nat) (s : State) : Host.Outcome State Fault Refusal :=
  if coreResetDue s core code then .next (doCoreReset s core code) else .next s

/-- The core returns to its partition. -/
def execCoreResetDone (core : Nat) (s : State) : Host.Outcome State Fault Refusal :=
  if (mget s.err.coreDown core).isSome && alive s then
    .next (endRecovery (modErr s fun e => { e with coreDown := mdel e.coreDown core }) (.core core))
  else .next s

/-- The suspect whose turn it is: the one dispatched longest ago (R624). -/
def oldestSuspect (s : State) : Option Nat :=
  (s.err.suspects.foldl (fun b i =>
    let t := ((cmdOf s i).map Cmd.dispatchedAt).getD 0
    match b with
    | some (_, u) => if t < u then some (i, t) else b
    | none => some (i, t)) (none : Option (Nat × Nat))).map Prod.fst

/-- A suspect may be replayed: none is, and the core that hung is back. -/
def replayDue (s : State) : Bool :=
  s.err.replaying.isNone && alive s &&
  match s.err.suspectCore with
  | some c => (mget s.err.coreDown c).isNone
  | none => true

def execSuspectReplay (s : State) : Host.Outcome State Fault Refusal :=
  match oldestSuspect s with
  | some i =>
    if replayDue s then .next (pmcEvent (modErr s fun e => { e with replaying := some i }) pgJCK 0x0102 1 none) else .next s
  | none => .next s

/-! ### A port reset (R410, R612) -/

/-- The port's current recovery; a port that the topology leaves unused, or that ENABLE holds, is not trained. -/
def portResetDue (s : State) (port : Nat) : Bool :=
  (s.err.active.any fun r => r.domain == .port port) && (portOf s port).link != .off && (portOf s port).link != .idle

/-- The port trains again; its pairs move to ALT where they have one. -/
def doPortReset (s : State) (port : Nat) : State :=
  let s := modPort s port fun p => { p with link := .training s.now, lanes := 0, slot := none }
  (pairsOn s port).foldl (fun s n => startReroute s n true) s

def execPortReset (port : Nat) (s : State) : Host.Outcome State Fault Refusal :=
  if portResetDue s port then .next (doPortReset s port) else .next s

/-! ### The control cluster (R612, R617) -/

/-- Jack finds the control cluster hung: it dumps and restarts it. Scheduling history, pending pre-emptions and the recovery
queue beyond its head are lost; hardware goes on (R512). -/
def doClusterRestart (s : State) : State :=
  let n := reg s Reg.errTail
  let s := logHang s .cluster pgSCH
  let s := if reg s Reg.jckCtl % 2 = 1 then startDump s .cluster Code.hangDetected else s
  let r : Recovery := ⟨n, .cluster, Code.hangDetected, some s.now⟩
  let s := modErr s fun e => { e with clusterDown := some s.now, queue := e.queue.take 1, active := (e.active <|> some r) }
  let s := modBoot s fun b => { b with serving := false }
  let s := { s with sch := { s.sch with coreTime := [], rotation := [], sliceDue := [] } }
  pmcEvent s pgERR 0x0106 1 none

/-- No heartbeat has come for JCK_CTL_LIMIT; a hand-off is watched by R593. -/
def execControlClusterRestart (s : State) : Host.Outcome State Fault Refusal :=
  if s.boot.ready && alive s && s.err.clusterDown.isNone && s.boot.serving && s.err.warmReq.isNone then
    .next (doClusterRestart s)
  else .next s

end Sys2Proof.Machine
end

