-- ==== Sys2Proof/Machine/Warm.lean ====
section
/-! DEFINITION. The device's warm reset and the warm restart (R300–R302, R412, R471, R568, R569, R579, R614–R616).
Assumption log: DEDUCED 94, 95, 98, 99; PRESUMED 96. -/

namespace Sys2Proof.Machine

/-! ### What becomes of commands (R614) -/

/-- The host port's acknowledgments are no longer awaited: completion records on their way count as written. -/
def settleRecords (s : State) : State :=
  let s := { s with obj := { s.obj with pend := [], hostEg := [] } }
  s.cmds.foldl (fun s e =>
    match e.2.phase with
    | .recording st => forget (fenceEnd s e.2 st) e.1
    | _ => s) s

/-- A command that runs when the reset begins. A gang member that waits for GO keeps its pairs and awaits its leader's answer (R314). -/
def warmRunning (s : State) (i : Nat) : State :=
  match cmdOf s i with
  | none => s
  | some c =>
    if c.phase = .saved ∨ !c.started then s
    else if awaitsGo s c then
      modCmd s i fun c => { c with cores := [], heldFor := some (c.d.gangLeader, Code.fabPeerReset, s.now) }
    else killOrEnd s i Code.rcvWarmReset pgSCH (nodeId s)

/-- A command not dispatched acquires and is translated from the start. -/
def warmWaiting (s : State) (i : Nat) : State :=
  match cmdOf s i with
  | none => s
  | some c =>
    if c.undispatched then modCmd (dropClaims s i c) i fun c => { c with phase := .queued, untranslated := [] }
    else if c.phase = .saved then
      modCmd s i fun c => { c with why := c.why.map fun _ => .preempted }
    else s

def warmCommands (s : State) : State :=
  let l := s.cmds.map Prod.fst
  let s := l.foldl warmRunning (settleRecords s)
  let s := l.foldl warmWaiting s
  let keep (g : Nat × Gang) : Bool := g.2.phase == .go || g.2.members.any fun i => (cmdOf s i).any fun c => awaitsGo s c
  settleRecords { s with com := { s.com with gangs := s.com.gangs.filter keep } }

/-! ### On-die state (R612) -/

/-- A stopped port: nothing queued, no calendar; its lanes stay trained (R568). -/
def Port.stopped (p : Port) : Port := { Port.fresh with link := p.link, lanes := p.lanes, runSince := p.runSince }

/-- A channel controller with nothing queued; its spare mappings stay (R358). -/
def Chan.stopped (c : Chan) : Chan := { Chan.fresh with spares := c.spares, lastSwitch := c.lastSwitch }

/-- Everything on the die that a warm reset does not keep. -/
def loseOnDie (s : State) : State :=
  let kept (i : Nat) : Bool := (cmdOf s i).any fun c => !c.undispatched
  { s with
    cores := [],
    ms := { s.ms with reqs := [], loads := [], atoms := [], results := [], l2 := [] },
    xlt := { s.xlt with cache := [], upper := [], walks := [], recs := [], invPending := [], faultCount := [],
                        ranges := s.xlt.ranges.filter fun r => kept r.1 },
    hbm := { s.hbm with chans := s.hbm.chans.map fun e => (e.1, e.2.stopped), selfRef := true },
    sch := { s.sch with coreTime := [], rotation := [], sliceDue := [] },
    obj := { s.obj with parked := [], qps := s.obj.qps.map fun e => (e.1, { e.2 with err := (e.2.err <|> some s.now), gone := true }) },
    err := { s.err with queue := [], active := none, suspects := [], replaying := none, suspectCore := none,
                        clusterDown := none, coreDown := [], unitSince := [], unitDone := [] } }

/-- Live update across a warm reset (R591, R594, R595): what is staged and not armed is lost, probation ends in a revert. -/
def warmFwu (s : State) : State :=
  match s.boot.fwu.st with
  | .fetching | .verifying | .staged | .rejected => modFwu s fun u => { u with st := .idle, reason := 0, image := none }
  | .probation => revert s 7
  | .armed => if s.boot.fwu.handing then revert s 7 else s
  | _ => s

/-! ### WARM_RESET (R412, R614, R615) -/

/-- RESET to every active peer, which this module then takes for reset until it rejoins. -/
def resetPeer (s : State) (n : Nat) : State :=
  let s := sendCtlAlways (cutPeer s n .reset) n 0 .reset
  modPeer s n fun p => { p with wasActive := true }

/-- The reset would begin less than 10 s after the third previous one began. -/
def storm (s : State) : Bool :=
  match s.err.warmStarts[2]? with
  | some t => !since s t (sec 10)
  | none => false

/-- The module halts, signals the carrier and waits for a cold boot. -/
def haltStorm (s : State) : State :=
  let s' := modBoot s fun b => { b with stage := 0xF, ready := false, serving := false }
  let s' := setReg s' Reg.errLastreset 0 (reg s' Reg.errLastreset ||| 2 ^ 15)
  let s' := modErr s' fun e => { e with warmReq := none }
  let s' := { s' with cores := [], ms := { s'.ms with reqs := [], loads := [], atoms := [], results := [] } }
  watchStatus s (requestCold s')

def doWarmReset (s : State) (trigger code : Nat) : State :=
  let peers := (s.fab.peers.filter fun e => connected s e.1 && e.2.active).map Prod.fst
  let s := peers.foldl resetPeer s
  let s := startDump (endDump s false) .device code
  let s := modErr s fun e => { e with warmReq := none, warmPhase := some s.now, warmStarts := s.now :: e.warmStarts.take 2 }
  let s := setReg s Reg.errLastreset 0 (code * 65536 + trigger)
  let s := setReg s Reg.errLastresetft 0 (ftNs s)
  let s := pmcEvent s pgERR 0x0107 1 none
  let s := modBoot (warmFwu s) fun b => { b with ready := false, serving := false, stage := 0xB }
  loseOnDie (warmCommands s)

def execWarmReset (s : State) : Host.Outcome State Fault Refusal :=
  match s.err.warmReq with
  | some (trigger, code) =>
    if alive s then .next (if storm s then haltStorm s else doWarmReset s trigger code) else .next s
  | none => .next s

/-! ### Registers across a warm reset (R471) -/

/-- Registers of type RW that count, and the consumer's position in the fault ring, whose SEQ starts again (R336). -/
def warmCounters : List RegDef :=
  [Reg.coreMstkHwm, Reg.tmvEcc, Reg.l2cEcc, Reg.hbsCorr, Reg.hbsUncorr, Reg.hbsLinkretry, Reg.hbsPoison, Reg.hnsBadblk,
    Reg.hnsNaks, Reg.hnsResends, Reg.hnsTimeouts, Reg.hnsLate, Reg.hnsSchovr, Reg.hptNaks, Reg.hptResends,
    Reg.schSwitches, Reg.schKills, Reg.seqOverruns, Reg.seqFails, Reg.bdlClamps, Reg.bdlFastcnt, Reg.errDropped,
    Reg.jckHangs, Reg.jckGuilty, Reg.jckUnresolved, Reg.awlTrigcnt, Reg.xltFringHead]

/-- Registers of type RO that report what survives. -/
def warmReports : List RegDef :=
  [Reg.errTail, Reg.errLastreset, Reg.errLastresetft, Reg.jckLastdump, Reg.jckBanned, Reg.hnsTopoVer, Reg.hptPstat,
    Reg.seqStep, Reg.seqLastft, Reg.seqBuildNs, Reg.xltIringDone]

/-- The value stored under an address stays. -/
def warmKeeps (a : Nat) : Bool :=
  let off := a % 0x1000
  if 0x1000000 ≤ a then true
  else if off < 0x40 then off == 0x18
  else if 0xF00 ≤ off then off == 0xF00 || decide (0xF10 ≤ off ∧ off < 0xF30)
  else
    match findReg a with
    | some (r, _) =>
      match r.type with
      | .rw => !warmCounters.contains r
      | .rws | .rwi => true
      | .ro => warmReports.contains r
      | _ => false
    | none => true

def keepRegs (s : State) : State :=
  { s with regs := s.regs.filter fun e => warmKeeps e.1, staged := [], applying := [] }

/-! ### Records of the control region (R354, R616) -/

/-- Both frames of a pair poisoned, and the pair IDLE. -/
def rebuildPair (s : State) (idx : Nat) : State :=
  match pairOf s idx with
  | none => s
  | some p =>
    let sectors := (List.range 2048).flatMap fun i => [p.frame0 + 32 * i, p.frame1 + 32 * i]
    setPair { s with poison := s.poison ++ sectors.filter fun a => !s.poison.contains a } idx (.fresh p.frame0 p.frame1)

/-- REFS counted from mappings and commands; what the host held is lost. -/
def rebuildObj (s : State) (h : Nat) : State :=
  let n := heldRefs s h
  modObj s h fun o => if o.state = .live then { o with refs := n, state := if n = 0 then .reclaiming else .live } else o

def rebuildFence (s : State) (i : Nat) : State :=
  mirrorFence (modFence s i fun f => if f.live then { f with value := 0, poison := Code.memPoisoned } else f) i

/-- A queue destroyed with MEM_POISONED. -/
def rebuildQueue (s : State) (i : Nat) : State :=
  let s := modQueue s i fun q => { q with stopped := true, destroying := true, reads := [], partial_ := [], buffered := [] }
  settled ((s.cmds.filter fun e => e.2.queue == i && e.2.undispatched).foldl
    (fun s e => endUndispatched s e.1 Code.memPoisoned) s)

def rebuildCtx (s : State) (x : Nat) : State :=
  match mget s.obj.contexts x with
  | some c => if c.phase = .live then startTeardown s x none else s
  | none => s

/-- A tenant destroyed under R494, with no request to answer. -/
def rebuildTenant (s : State) (t : Nat) : State :=
  let s := (s.obj.objs.filter fun e => e.2.owner == t && e.2.state == .live).foldl (fun s e => rebuildObj s e.1) s
  let s := (s.obj.contexts.filter fun c => c.2.tenant == t && c.2.phase == .live).foldl (fun s c => startTeardown s c.1 none) s
  { s with obj := { s.obj with tenants := mdel s.obj.tenants t, qps := mdel s.obj.qps t } }

def rebuildSeq (s : State) (i : Nat) : State :=
  match seqGet s i with
  | some e => endSeq s i e Code.memPoisoned
  | none => s

/-- A commit that is lost: its fence is poisoned, its destinations discard its pairs. -/
def rebuildRec (s : State) (tag : Nat) : State :=
  let s := commitLose s tag
  { s with com := { s.com with recs := mmod s.com.recs tag fun r => { r with commit := false } } }

/-- The command whose range list lies in a slot of 512 bytes. -/
def rebuildRange (s : State) (slot : Nat) : State :=
  match s.cmds.find? fun e => e.1 % 65536 == slot with
  | some e => failCmd s e.1 Code.memPoisoned pgSCH 0
  | none => s

/-- A slot of the error ring cleared. -/
def rebuildErr (s : State) (slot : Nat) : State :=
  incReg (modErr s fun e => { e with ring := e.ring.filter fun x => x.seq % 256 != slot }) Reg.errDropped 0

/-- What firmware kept: registers at their reset values, no topology table. -/
def rebuildFw (s : State) : State :=
  let s := { s with regs := s.regs.filter fun e => match findReg e.1 with
      | some (r, _) => decide (r.type = RegType.ro)
      | none => false }
  { s with fab := { s.fab with topo := none, topoSt := .none }, sch := { s.sch with ctxCfg := [], ctxPin := [], tenW := [] } }

/-- The `k` records of a size that begin in a sector, rebuilt and logged. -/
def rebuildEach (s : State) (first k : Nat) (f : State → Nat → State) (a : Nat) : State :=
  (List.range k).foldl (fun s i =>
    errWrite (f s (first + i)) { errBase s Code.rcvCtlRebuilt 0 (pgId pgSCH) with addr := a }) s

/-- The records of a poisoned sector of the control region. -/
def rebuildSector (s : State) (a : Nat) : State :=
  let s := { s with poison := s.poison.filter fun x => x != a }
  if a < 0x08000000 then rebuildEach s (a / 16) 2 rebuildPair a
  else if a < 0x0A000000 then rebuildEach s ((a - 0x08000000) / 8) 4 rebuildObj a
  else if a < 0x0B000000 then rebuildEach s ((a - 0x0A000000) / 16) 2 rebuildFence a
  else if a < 0x0B400000 then rebuildEach s ((a - 0x0B000000) / 64) 1 rebuildQueue a
  else if a < 0x0B800000 then rebuildEach s ((a - 0x0B400000) / 256) 1 rebuildCtx a
  else if a < 0x0B900000 then rebuildEach s ((a - 0x0B800000) / 256) 1 rebuildTenant a
  else if a < 0x0BD00000 then rebuildEach s ((a - 0x0B900000) / 64) 1 rebuildSeq a
  else if a < 0x0C000000 then rebuildEach s ((a - 0x0BD00000) / 48) 1 rebuildRec a
  else if a < 0x0E000000 then rebuildEach s ((a - 0x0C000000) / 512) 1 rebuildRange a
  else if a < 0x0E004000 then rebuildEach s ((a - 0x0E000000) / 64) 1 rebuildErr a
  else if a < 0x0F000000 then s
  else rebuildEach s 0 1 (fun s _ => rebuildFw s) a

/-- After a reset for an uncorrectable error of the control region, every poisoned record is rebuilt. -/
def rebuildAll (s : State) : State :=
  if reg s Reg.errLastreset % 256 = 1 then
    (s.poison.filter fun a => decide (a < 0x10000000)).foldl rebuildSector s
  else s

/-- What the intake had read of its rings and not taken is lost and read again (R612, R614). -/
def rereadRings (s : State) : State :=
  askRings { s with obj := { s.obj with queues := s.obj.queues.map fun e =>
    (e.1, { e.2 with reads := [], partial_ := [], buffered := [] }) } }

/-! ### WARM_RESTART (R300, R302, R412, R568, R569, R579) -/

/-- Pairs that other modules' commands own become HELD. -/
def holdForeign (s : State) : State :=
  let hold (p : Pair) : Pair :=
    let p := { p with waiters := p.waiters.filter fun w => w.asker == nodeId s }
    if p.node ≠ nodeId s ∧ (p.state = .owned ∨ p.state = .committing) then { p with state := .held } else p
  let since (p : Peer) : Peer := { p with heldSince := some s.now }
  { s with com := { s.com with pairs := s.com.pairs.map fun e => (e.1, hold e.2) },
           fab := { s.fab with peers := s.fab.peers.map fun e => (e.1, since e.2) } }

/-- REJOIN to every peer that was active before the reset. -/
def rejoinAll (s : State) : State :=
  let topo := (s.fab.topo.map TopoTable.hash).getD 0
  let hash := announceHash (leBytes 64 (Config.idKey s.boot.idHash)) s.fab.nonce
  (s.fab.peers.filter fun e => rejoining s e.1).foldl (fun s e => sendCtlAlways s e.1 0 (.rejoin hash topo)) s

/-- Units as a reset leaves them: ports empty, streams at PSN 0, domains at their start, fabric time in HOLDOVER. -/
def freshUnits (s : State) : State :=
  let ports := s.fab.ports.map fun e => (e.1, e.2.stopped)
  let quiet (p : Peer) : Peer := { p with ctl := .fresh, data := .fresh, ingress := [], tokens := [], credits := 0, granted := 0 }
  let peers := s.fab.peers.map fun e => (e.1, quiet e.2)
  let s := { s with fab := { s.fab with epoch := (s.fab.epoch + 1) % 4096, ports, peers } }
  let s := { s with ftm := { s.ftm with state := .holdover, holdSince := s.now, streak := 0, outs := [], hist := [], anc := 0, parentRun := 0,
                                        cal := { st := .none, mask := 0, image := none, at_ := 0 }, empties := [] } }
  { s with bdl := { s.bdl with doms := (List.range 16).map fun d => (d, domBoot s d), lastEval := s.now, holds := [], memDrop := 0,
                               capUnmet := false, overSince := none, lowSince := none },
           hbm := { s.hbm with selfRef := false } }

/-- READY again. -/
def warmReady (s : State) : State :=
  let s := modBoot s fun b => { b with ready := true, serving := true, stage := 0xA, warm := true, warms := min 255 (b.warms + 1),
                                       gen := b.gen + 2 }
  let s := modErr s fun e => { e with warmPhase := none, lastCheck := s.now }
  let bad (q : HostQp) : HostQp := { q with err := q.err.map fun _ => s.now }
  { s with obj := { s.obj with qps := s.obj.qps.map fun e => (e.1, bad e.2) } }

/-- Firmware's update goes on as R591 and R595 say. -/
def warmFwuAfter (s : State) : State :=
  match s.boot.fwu.st with
  | .armed => modFwu s fun u => { u with st := .idle, image := none }
  | .flashing => match s.boot.fwu.job with
    | some j => startFlash s j
    | none => s
  | _ => s

/-- From the end of the hold to READY, or to a halt where no core is left. -/
def doWarmRestart (s : State) (coresFailed : Nat) : State :=
  let s := endDump s false
  let s := modBoot s fun b => { b with coreMask := maskWithout b.coreMask coresFailed }
  if s.boot.coreMask = 0 then haltBoot (modErr s fun e => { e with warmPhase := none }) 9
  else
    let s := freshUnits (keepRegs s)
    let s := holdForeign (rebuildAll s)
    let s := (s.com.recs.map Prod.fst).foldl commitTry s
    let s := (s.err.retired).foldl retireCore s
    let s := rereadRings (flushHost (warmReady s))
    let s := warmFwuAfter (rejoinAll s)
    pumpTranslate 256 s

def execWarmRestart (coresFailed : Nat) (s : State) : Host.Outcome State Fault Refusal :=
  if s.err.warmPhase.isSome then .next (doWarmRestart s coresFailed) else .next s

end Sys2Proof.Machine
end

