-- ==== Sys2Proof/Machine/Monitor.lean ====
section
/-! DEFINITION. Power-off, input faults, the thermal trip, and the commands of the module monitor (R641–R651).
Assumption log: DESIGN CHOICE 13; DEDUCED 99, 100. -/

namespace Sys2Proof.Machine

/-! ### Power (R641–R643, R645) -/

/-- CAR_PWRGD falls: every rail is turned off. -/
def doPowerOff (s : State) : State :=
  dropPins (powerLoss s { s.mon.dark false with fellAt := some s.now }) s.mon

def execPowerOff (s : State) : Host.Outcome State Fault Refusal :=
  if s.mon.carPwrgd then .next (doPowerOff s) else .next s

/-- Every rail but VAUX is off, a cause is latched, and a power cycle is asked for. -/
def shutdown (s : State) (latch : Monitor → Monitor) : State :=
  let m := latch { s.mon with pwrok := false, railsAt := none, riseWaits := false }
  watchStatus s (requestCold (dropPins (powerLoss s m) s.mon))

/-- The input stage watches a module that CAR_PWRGD has turned on. -/
def watched (s : State) : Bool := s.mon.vaux && s.mon.carPwrgd

/-- An excursion just outside the range: operation continues. -/
def marginal (mv : Nat) : Bool := decide ((55000 ≤ mv ∧ mv < 56000) ∨ (62000 < mv ∧ mv ≤ 63000))

def doMarginal (s : State) : State :=
  assertAlert (if s.mon.pwrok then logOnly s Code.modInputMarginal pgDEV else s)

def execInputMarginal (mv : Nat) (s : State) : Host.Outcome State Fault Refusal :=
  if watched s && marginal mv then .next (doMarginal s) else .next s

def execBrownoutShutdown (mv : Nat) (s : State) : Host.Outcome State Fault Refusal :=
  if watched s && decide (mv < 55000) && !s.mon.brownout then .next (shutdown s fun m => { m with brownout := true })
  else .next s

def execOvervoltageShutdown (mv : Nat) (s : State) : Host.Outcome State Fault Refusal :=
  if watched s && decide (63000 < mv) && !s.mon.overvolt then .next (shutdown s fun m => { m with overvolt := true })
  else .next s

def execOvercurrentShutdown (ma : Nat) (s : State) : Host.Outcome State Fault Refusal :=
  if watched s && decide (62000 < ma) && !s.mon.overcur then .next (shutdown s fun m => { m with overcur := true })
  else .next s

/-- Below 40 V VAUX falls, and with it every cause. -/
def doVauxLoss (s : State) : State := dropPins (powerLoss s (s.mon.dark s.mon.carPwrgd)) s.mon

def execVauxLoss (mv : Nat) (s : State) : Host.Outcome State Fault Refusal :=
  if s.mon.vaux && decide (mv < 40000) then .next (doVauxLoss s) else .next s

/-- A trip temperature in °C: core sensor, stack, power stage, OUTLET. -/
def tripsAt (core stack vr outlet : Nat) : Bool := decide (118 ≤ core ∨ 115 ≤ stack ∨ 125 ≤ vr ∨ 65 ≤ outlet)

/-- A trip; a domain's hold under BDL_THERMAL_CRITICAL goes on being reported (R651). -/
def doThermalTrip (s : State) : State :=
  let crit : Bool := s.mon.thermCrit || s.bdl.doms.any fun d => d.2.crit
  emit (shutdown s fun m => { m with thermTrip := true, thermCrit := crit }) (.pin "THERM_TRIP_N" false)

def execThermalTrip (core stack vr outlet : Nat) (s : State) : Host.Outcome State Fault Refusal :=
  if watched s && tripsAt core stack vr outlet && !s.mon.thermTrip then .next (doThermalTrip s) else .next s

/-! ### The monitor's commands (R647–R650) -/

/-- A Read Word. -/
def smbWord (s : State) (v : Nat) : State := emit s (.smb (leBytes 2 v))

/-- A Read Word of a measurement, which the spec leaves to the sensors. -/
def smbSense (s : State) : State :=
  let r := freeNat s 16
  smbWord r.2 r.1

/-- A Block Read of a value that the die gives: 0 until MOD_PWROK rises. -/
def smbDie (s : State) (v : Nat) : State := emit s (.smb (leBytes 8 (if s.mon.pwrok then v else 0)))

def execStatus (s : State) : Host.Outcome State Fault Refusal :=
  if s.mon.vaux then .next (smbWord s (statusWord s)) else .next s

def execVin (s : State) : Host.Outcome State Fault Refusal := if s.mon.vaux then .next (smbSense s) else .next s
def execIin (s : State) : Host.Outcome State Fault Refusal := if s.mon.vaux then .next (smbSense s) else .next s

def execPin (s : State) : Host.Outcome State Fault Refusal :=
  if s.mon.vaux then .next (smbWord s s.bdl.sense.avg1ms) else .next s

def execPinPeak (s : State) : Host.Outcome State Fault Refusal :=
  if s.mon.vaux then .next (smbWord s (inputPeak s)) else .next s

def execEin (s : State) : Host.Outcome State Fault Refusal :=
  if s.mon.vaux then .next (smbDie s s.srv.meter) else .next s

def execTCore (s : State) : Host.Outcome State Fault Refusal := if s.mon.vaux then .next (smbSense s) else .next s
def execTHbm (s : State) : Host.Outcome State Fault Refusal := if s.mon.vaux then .next (smbSense s) else .next s
def execTVr (s : State) : Host.Outcome State Fault Refusal := if s.mon.vaux then .next (smbSense s) else .next s
def execInlet (s : State) : Host.Outcome State Fault Refusal := if s.mon.vaux then .next (smbSense s) else .next s
def execOutlet (s : State) : Host.Outcome State Fault Refusal := if s.mon.vaux then .next (smbSense s) else .next s

def execBootstat (s : State) : Host.Outcome State Fault Refusal :=
  if s.mon.vaux then .next (smbDie s (bootstat s)) else .next s

def execPart (s : State) : Host.Outcome State Fault Refusal :=
  if s.mon.vaux then .next (emit s (.smb (leBytes 4 (devPartWord s) ++ leBytes 6 Config.dieNumber ++ leBytes 2 0))) else .next s

/-- WARM_RESET on the bus: without effect while MOD_PWROK is low, during a warm reset and while halted. -/
def execSmbWarmReset (value : Byte) (s : State) : Host.Outcome State Fault Refusal :=
  if s.mon.vaux && s.mon.pwrok && value == 0x52#8 then .next (hostWarm s) else .next s

def execClearAlert (_value : Byte) (s : State) : Host.Outcome State Fault Refusal :=
  if s.mon.vaux then .next (releaseAlert s) else .next s

/-- The alert response address is read: the module whose ALERT_N is asserted answers with its own address. -/
def execAlertResponse (s : State) : Host.Outcome State Fault Refusal :=
  if s.mon.vaux && s.mon.alert then .next (releaseAlert (emit s (.smb (leBytes 1 (2 * (0x60 + Config.addrStrap.toNat))))))
  else .next s

end Sys2Proof.Machine
end

