-- ==== Sys2Proof/Machine/Awl.lean ====
section
/-! DEFINITION. Awl's selection and trigger (R653–R658), the TAP (R662).
Assumption log: PRESUMED 14; DESIGN CHOICE 101. -/

namespace Sys2Proof.Machine

/-! ### Awl -/

def modAwl (s : State) (f : Awl → Awl) : State := { s with awl := f s.awl }

/-- TRIG falls, or becomes high-impedance. -/
def dropTrig (s : State) : State :=
  if s.awl.trig.isSome then emit (modAwl s fun a => { a with trig := none }) (.pin "TRIG" false) else s

/-- The page that a PG_ID names and whose unit is present (R457, R460). -/
def awlPage (s : State) (id : Nat) : Option Nat :=
  ((List.range 0x380).map (· * 0x1000)).find? fun p => pgId p == id && pagePresent s p

/-- The REASON for which the selection is refused (R653). -/
def awlRefusal (s : State) : Option Nat :=
  let id := reg s Reg.awlSel
  let g := reg s Reg.awlGroup
  if id = pgId pgSEC ∨ Config.secretGroup id g then some 1
  else if (awlPage s id).isNone then some 2
  else if Config.groupCount id % 4097 ≤ g then some 3
  else none

/-- Fields have taken effect: the selection is made anew. -/
def awlSelect (s : State) : State :=
  if reg s Reg.awlCtl % 2 = 0 then modAwl (dropTrig s) fun a => { a with st := .off }
  else
    match awlRefusal s with
    | some r =>
      let s := modAwl (dropTrig s) fun a => { a with st := .refused r }
      logOnly (pgErr s pgAWL Code.awlSelDenied) Code.awlSelDenied pgAWL
    | none => modAwl s fun a => { a with st := .driving }

/-- A period of the pin clock in cycles (R656). -/
def pinPeriod (s : State) : Nat := 18 * 2 ^ bitsOf (reg s Reg.awlCtl) 9 8

/-- A rising edge of the pin clock: the fields of an APPLY take effect together (R655). -/
def pinEdge (s : State) : State :=
  if (mget s.applying pgAWL).isSome && s.now % pinPeriod s == 0 then awlSelect (pageSafePoint s pgAWL) else s

/-- TRIG falls after at least four periods, a period after the last match (R658). -/
def trigEnd (s : State) : State :=
  match s.awl.trig with
  | some t => if since s t (4 * pinPeriod s) && since s s.awl.matched (pinPeriod s) then dropTrig s else s
  | none => s

/-- The trigger watches: Awl drives, is not held, and TRIGEN is 1. -/
def triggerOn (s : State) : Bool :=
  s.awl.st == .driving && !awlHeld s && s.mon.pwrok && bitsOf (reg s Reg.awlCtl) 2 2 == 1

def matchesTrig (s : State) (sample : Word) : Bool :=
  sample.toNat &&& reg s Reg.awlTmask == reg s Reg.awlTmatch

/-- What TESTOUT carries of a sample in the half-period after a rising or a falling edge of the pin clock (R654, R656): none
where the pins are high-impedance; with FWDCLK pin 15 carries the pin clock, which the flag says. -/
def testout (s : State) (sample : Word) (falling : Bool) : Option (BitVec 16 × Bool) :=
  let half := if falling then sample.toNat / 65536 else sample.toNat % 65536
  let half := if awlHeld s then 0 else half
  let fwdclk := bitsOf (reg s Reg.awlCtl) 1 1 == 1
  if s.awl.st = .driving ∧ s.mon.pwrok then some (BitVec.ofNat 16 (if fwdclk then half % 32768 else half), fwdclk) else none

/-- A rise of TRIG: counted, its time taken. -/
def trigRise (s : State) : State :=
  let s := emit (modAwl s fun a => { a with trig := some s.now, matched := s.now }) (.pin "TRIG" true)
  let s := setReg (incReg s Reg.awlTrigcnt 0) Reg.awlTrigft 0 (ftNs s)
  match awlPage s (reg s Reg.awlSel) with
  | some p => pmcEvent s p 0x0004 1 none
  | none => s

def execAwlTrigger (sample : Word) (s : State) : Host.Outcome State Fault Refusal :=
  if triggerOn s && matchesTrig s sample then
    .next (if s.awl.trig.isSome then modAwl s fun a => { a with matched := s.now } else trigRise s)
  else .next s

/-! ### The TAP -/

/-- The instruction that a code selects; codes that name none select BYPASS. -/
def tapOf (code : Nat) : TapInstr :=
  if code = 1 then .idcode
  else if code = 2 then .sample
  else if code = 3 then .extest
  else if code = 4 then .clamp
  else if code = 5 then .highz
  else .bypass

/-- EXTEST, CLAMP and HIGHZ act as BYPASS but in stages 0x0 and 0xF. -/
def tapActs (s : State) : TapInstr :=
  match s.awl.tap with
  | .extest | .clamp | .highz => if s.boot.stage = 0 ∨ s.boot.stage = 0xF then s.awl.tap else .bypass
  | t => t

/-- IDCODE (R662). -/
def idCode : Nat := 0x10960C5F

def execJtagInstruction (code : Nat) (s : State) : Host.Outcome State Fault Refusal :=
  if s.awl.trstLow then .next s else .next (modAwl s fun a => { a with tap := tapOf code })

/-- TRST_N: low holds the TAP in Test-Logic-Reset. -/
def execTrstN (low : Bool) (s : State) : Host.Outcome State Fault Refusal :=
  .next (modAwl s fun a => { a with trstLow := low, tap := if low then .idcode else a.tap })

end Sys2Proof.Machine
end

