-- ==== Sys2Proof/Machine/Control.lean ====
section
/-! DEFINITION. Control: branches, the mask stack, SER regions, calls, barriers, save points (R27–R43, R101–R108).
Assumption log: DEDUCED 19, 132. -/

namespace Sys2Proof.Machine

/-- The group's next index (R64). Control instructions are one word. -/
def nextIdx (g : Group) : Nat := (g.pc + 1) % 2 ^ 32

/-- The group changed, then the jump of R30, R31, R33 or R34 where its active mask became zero. -/
def emptyJump (gr : GroupRef) (s : State) (g' : Group) (target : Option Nat) : LaneRes :=
  let s := modGroup s gr.core gr.slot fun _ => g'
  match target with
  | some t => if g'.am = 0 then .jump s t true else .done s
  | none => .done s

/-- CORE_MSTK_HWM rises with the depth (R59). -/
def noteDepth (s : State) (core depth : Nat) : State :=
  if depth > reg s Reg.coreMstkHwm core then setReg s Reg.coreMstkHwm core depth else s

/-! ### Branches (R28) -/

/-- BRA. -/
def execBra (g : GroupRef) (f : FmtB) (s : State) : Host.Outcome State Fault Refusal :=
  issue g (.bra g f) (fun s _ => .jump s f.target.toNat true) s

/-- BRA.ANY: some lane of the effective mask has Pn set. -/
def execBraAny (g : GroupRef) (f : FmtB) (s : State) : Host.Outcome State Fault Refusal :=
  issue g (.braAny g f)
    (fun s x => if x.am &&& x.preg f.pred.toNat ≠ 0 then .jump s f.target.toNat true else .done s) s

/-- BRA.ALL: every lane of AM has Pn set. -/
def execBraAll (g : GroupRef) (f : FmtB) (s : State) : Host.Outcome State Fault Refusal :=
  issue g (.braAll g f)
    (fun s x => if x.am &&& ~~~(x.preg f.pred.toNat) = 0 then .jump s f.target.toNat true else .done s) s

/-! ### The mask stack (R30–R35) -/

def doPushm (gr : GroupRef) (f : FmtB) (s : State) (g : Group) : LaneRes :=
  if g.stack.length ≥ 32 then .fault Code.groupMaskStackOverflow 0
  else
    let p := g.preg f.pred.toNat
    let e : StackEntry := { saved := g.am, pending := g.am &&& ~~~p, target := f.target.toNat }
    let s := noteDepth (pmcEvent s (pgCORE gr.core) 0x0104 1 (some (ctxOf s g.cmd))) gr.core (g.stack.length + 1)
    emptyJump gr s { g with stack := e :: g.stack, am := g.am &&& p } (some f.target.toNat)

def execPushm (g : GroupRef) (f : FmtB) (s : State) : Host.Outcome State Fault Refusal :=
  issue g (.pushm g f) (doPushm g f) s

def doElsem (gr : GroupRef) (f : FmtB) (s : State) (g : Group) : LaneRes :=
  match g.stack with
  | [] => .fault Code.groupIllegalInstr 0
  | e :: t =>
    emptyJump gr s { g with stack := { e with target := f.target.toNat, pending := 0 } :: t, am := e.pending }
      (some f.target.toNat)

def execElsem (g : GroupRef) (f : FmtB) (s : State) : Host.Outcome State Fault Refusal :=
  issue g (.elsem g f) (doElsem g f) s

def doPopm (gr : GroupRef) (s : State) (g : Group) : LaneRes :=
  match g.stack with
  | [] => .fault Code.groupIllegalInstr 0
  | e :: t => emptyJump gr s { g with stack := t, am := e.saved } none

def execPopm (g : GroupRef) (f : FmtB) (s : State) : Host.Outcome State Fault Refusal :=
  issue g (.popm g f) (doPopm g) s

/-- Lanes not in `p` cleared from SAVED and PENDING of the top `k` entries (R33, R34). -/
def clearTop (p : Word) : Nat → List StackEntry → List StackEntry
  | k + 1, e :: t => { e with saved := e.saved &&& p, pending := e.pending &&& p } :: clearTop p k t
  | _, l => l

/-- ANDM at depth 0, with k above the depth, or outside the entries pushed in a SER region (R35, R37). -/
def andmBad (g : Group) (k : Nat) : Bool :=
  g.stack.isEmpty || decide (k > g.stack.length) ||
  match g.ser with
  | some r => decide (g.stack.length ≤ r.depth ∨ k > g.stack.length - r.depth)
  | none => false

def doAndm (gr : GroupRef) (f : FmtB) (s : State) (g : Group) : LaneRes :=
  if andmBad g f.k.toNat then .fault Code.groupIllegalInstr 0
  else
    let p := g.preg f.pred.toNat
    emptyJump gr s { g with am := g.am &&& p, stack := clearTop p f.k.toNat g.stack } (g.stack.head?.map StackEntry.target)

def execAndm (g : GroupRef) (f : FmtB) (s : State) : Host.Outcome State Fault Refusal :=
  issue g (.andm g f) (doAndm g f) s

/-! ### Barriers of a placement set (R105) -/

/-- The key of a set's barriers: its command and its number. -/
def setKey (g : Group) : Nat := g.cmd * 4294967296 + g.set

def barOf (s : State) (core : Nat) (g : Group) (b : Nat) : Barrier :=
  (aget (coreOf s core).bars (setKey g, b)).getD { arrived := [], phase := 0 }

def setBar (s : State) (core : Nat) (g : Group) (b : Nat) (x : Barrier) : State :=
  modCore s core fun k => { k with bars := aset k.bars (setKey g, b) x }

/-- Every group of the set has been launched (R104, R105). -/
def setLaunched (s : State) (g : Group) : Bool :=
  match cmdOf s g.cmd with
  | some c => decide (c.nextGroup ≥ min ((g.set + 1) * max c.d.setSize 1) (ceilDiv c.d.threads 32))
  | none => false

/-- The groups of the set that have not ended have all arrived. -/
def phaseOver (s : State) (core : Nat) (g : Group) (b : Barrier) : Bool :=
  setLaunched s g &&
  (coreOf s core).groups.all fun e =>
    !(e.2.cmd == g.cmd && e.2.set == g.set) || e.2.ended || b.arrived.contains e.1

/-- A phase that is over completes: its waiters go on (R105). -/
def settleBar (s : State) (core : Nat) (g : Group) (b : Nat) : State :=
  let x := barOf s core g b
  if phaseOver s core g x ∧ x.arrived ≠ [] then
    let s := setBar s core g b { arrived := [], phase := x.phase + 1 }
    let wake (y : Group) : Group :=
      if y.cmd = g.cmd ∧ y.set = g.set ∧ y.wait = .barrier b x.phase then { y with wait := .none } else y
    modCore s core fun k => { k with groups := k.groups.map fun e => (e.1, wake e.2) }
  else s

/-- Every barrier of a set looked at, after one of its groups has ended. -/
def settleBars (s : State) (core : Nat) (g : Group) : Nat → State
  | 0 => s
  | n + 1 => settleBar (settleBars s core g n) core g n

/-- Barrier instructions at a depth above 0 or in a SER region fault (R37, R106). -/
def barBad (g : Group) : Bool := !g.stack.isEmpty || g.ser.isSome

/-- The group arrives; a second arrival in one phase faults (R105). -/
def arrive (gr : GroupRef) (b : Nat) (s : State) (g : Group) : Option State :=
  let x := barOf s gr.core g b
  if x.arrived.contains gr.slot then none
  else some (settleBar (setBar s gr.core g b { x with arrived := gr.slot :: x.arrived }) gr.core g b)

/-- The group waits while its arrival stands (R105). -/
def awaitBar (gr : GroupRef) (b : Nat) (s : State) (g : Group) : State :=
  let x := barOf s gr.core g b
  if x.arrived.contains gr.slot then
    modGroup s gr.core gr.slot fun y => { y with wait := .barrier b x.phase }
  else s

def execBarArrive (g : GroupRef) (f : FmtB) (s : State) : Host.Outcome State Fault Refusal :=
  issue g (.barArrive g f)
    (fun s x =>
      if barBad x then .fault Code.groupIllegalInstr 0
      else match arrive g (f.target.toNat % 16) s x with
      | some s => .done s
      | none => .fault Code.groupIllegalInstr 0) s

def execBarWait (g : GroupRef) (f : FmtB) (s : State) : Host.Outcome State Fault Refusal :=
  issue g (.barWait g f)
    (fun s x =>
      if barBad x then .fault Code.groupIllegalInstr 0 else .done (awaitBar g (f.target.toNat % 16) s x)) s

def execBarSync (g : GroupRef) (f : FmtB) (s : State) : Host.Outcome State Fault Refusal :=
  issue g (.barSync g f)
    (fun s x =>
      if barBad x then .fault Code.groupIllegalInstr 0
      else match arrive g (f.target.toNat % 16) s x with
      | some s => .done (awaitBar g (f.target.toNat % 16) s x)
      | none => .fault Code.groupIllegalInstr 0) s

/-! ### EXIT (R26, R34) -/

/-- EXIT in a SER region faults (R37); the last lane's EXIT ends the group, which no longer counts in its barriers. -/
def doExit (gr : GroupRef) (f : FmtB) (s : State) (g : Group) : LaneRes :=
  if g.ser.isSome then .fault Code.groupIllegalInstr 0
  else
    let gone := g.eff f.pred
    let exited := g.exited ||| gone
    let g' := { g with am := g.am &&& ~~~gone, exited, stack := clearTop (~~~gone) 32 g.stack }
    if g.launch &&& ~~~exited = 0 then
      let g' := { g' with ended := true, stack := [] }
      let s := modGroup s gr.core gr.slot fun _ => g'
      .done (coreProgress (settleBars s gr.core g' 16) gr.core)
    else emptyJump gr s g' (g'.stack.head?.map StackEntry.target)

def execExit (g : GroupRef) (f : FmtB) (s : State) : Host.Outcome State Fault Refusal :=
  issue g (.exit g f) (doExit g f) s

/-! ### SER regions (R36–R38) -/

/-- The lowest lane of a mask from lane `l` on, as a mask. -/
def lowestFrom (m : Word) (l : Nat) : Word :=
  match (lanesIn m).find? fun i => decide (l ≤ i) with
  | some i => BitVec.ofNat 32 (2 ^ i)
  | none => 0

def laneIndex (m : Word) : Nat := ((lanesIn m).head?).getD 32

def doSerBegin (gr : GroupRef) (s : State) (g : Group) : LaneRes :=
  if g.ser.isSome then .fault Code.groupIllegalInstr 0
  else
    let first := lowestFrom g.am 0
    let r : SerRegion := { lanes := g.am, cur := laneIndex first, start := nextIdx g, depth := g.stack.length }
    let s := pmcEvent s (pgCORE gr.core) 0x0105 1 (some (ctxOf s g.cmd))
    .done (modGroup s gr.core gr.slot fun x => { x with ser := some r, am := first })

def execSerBegin (g : GroupRef) (f : FmtB) (s : State) : Host.Outcome State Fault Refusal :=
  issue g (.serBegin g f) (doSerBegin g) s

def doSerEnd (gr : GroupRef) (s : State) (g : Group) : LaneRes :=
  match g.ser with
  | none => .fault Code.groupIllegalInstr 0
  | some r =>
    if g.stack.length ≠ r.depth then .fault Code.groupIllegalInstr 0
    else
      let next := lowestFrom r.lanes (r.cur + 1)
      if next = 0 then .done (modGroup s gr.core gr.slot fun x => { x with ser := none, am := r.lanes })
      else
        let s := pmcEvent s (pgCORE gr.core) 0x0105 1 (some (ctxOf s g.cmd))
        .jump (modGroup s gr.core gr.slot fun x => { x with ser := some { r with cur := laneIndex next }, am := next })
          r.start false

def execSerEnd (g : GroupRef) (f : FmtB) (s : State) : Host.Outcome State Fault Refusal :=
  issue g (.serEnd g f) (doSerEnd g) s

/-! ### Calls (R103) -/

def execCall (g : GroupRef) (f : FmtB) (s : State) : Host.Outcome State Fault Refusal :=
  issue g (.call g f)
    (fun s x => .jump (modGroup s g.core g.slot fun y => y.putS 63 (BitVec.ofNat 64 (nextIdx x))) f.target.toNat false) s

def execRet (g : GroupRef) (f : FmtB) (s : State) : Host.Outcome State Fault Refusal :=
  issue g (.ret g f) (fun s x => .jump s ((x.sreg 63).toNat % 2 ^ 32) false) s

/-! ### Save points (R108) -/

/-- A MARKED save of the command is pending. -/
def markPending (s : State) (c : Cmd) : Bool :=
  match c.phase with
  | .saving _ => !saveFull s c
  | _ => false

/-- A group has array commands that have not completed. -/
def arrayOwed (s : State) (core slot : Nat) : Bool := (coreOf s core).arr.queue.any fun q => q.slot == slot

/-- SAVEPT n: without a table no effect; beyond the table a fault; with a MARKED save pending the group stops after it,
once its array commands have completed. -/
def doSavept (gr : GroupRef) (f : FmtB) (s : State) (g : Group) : LaneRes :=
  match cmdOf s g.cmd with
  | none => .done s
  | some c =>
    if c.d.saveptVa = 0 then .done s
    else if f.target.toNat ≥ c.d.saveCount then .fault Code.groupIllegalInstr 0
    else if markPending s c then
      if arrayOwed s gr.core gr.slot then .stall s
      else .done (modGroup s gr.core gr.slot fun x => { x with halt := .marked f.target.toNat })
    else .done s

def execSavept (g : GroupRef) (f : FmtB) (s : State) : Host.Outcome State Fault Refusal :=
  issue g (.savept g f) (doSavept g f) s

/-! ### Events of a group -/

/-- The branch penalty is over (R29). -/
def penaltyOver (s : State) (gr : GroupRef) : Bool :=
  match groupOf s gr.core gr.slot with
  | some g => match g.penalty with
    | some t => decide (t ≤ coreCyc s gr.core)
    | none => false
  | none => false

def execBranchPenaltyEnd (g : GroupRef) (s : State) : Host.Outcome State Fault Refusal :=
  if penaltyOver s g then .next (modGroup s g.core g.slot fun x => { x with penalty := none }) else .next s

/-- A latency or a unit's occupancy has ended (R72). -/
def sbDue (cyc : Nat) (e : Res × Busy) : Bool :=
  match e.2 with
  | .until t => decide (t ≤ cyc)
  | _ => false

def readyDue (s : State) (gr : GroupRef) : Bool :=
  match groupOf s gr.core gr.slot with
  | some g => g.sb.any (sbDue (coreCyc s gr.core))
  | none => false

/-- Arithmetic results become usable (R72). A result that a register-file error has lost ends the command (R609). -/
def doOperandReady (s : State) (gr : GroupRef) (u : Upset) : State :=
  let cyc := coreCyc s gr.core
  let s := modGroup s gr.core gr.slot fun x => { x with sb := x.sb.filter fun e => !sbDue cyc e }
  match u, groupOf s gr.core gr.slot with
  | .uncorrectable, some g =>
    failCmd (sramError s gr.core (pgCORE gr.core) Code.memEccUncorr) g.cmd Code.memEccUncorr (pgCORE gr.core) 0
  | _, _ => s

def execOperandReady (g : GroupRef) (u : Upset) (s : State) : Host.Outcome State Fault Refusal :=
  if readyDue s g then .next (doOperandReady s g u) else .next s

end Sys2Proof.Machine
end

