-- ==== Sys2Proof/Machine/LaneInt.lean ====
section
/-! DEFINITION. The integer, logic, shift and bit-count instructions of OP 0x01–0x04 (R665). -/

namespace Sys2Proof.Machine

/-- A vector result in the lanes of the effective mask (R27, R68). -/
def laneV (gr : GroupRef) (f : FmtR) (val : Group → Nat → Nat) : State → Group → LaneRes :=
  onGroup gr fun g => g.putV f.dst (g.eff f.pred) ((List.range 32).map fun l => BitVec.ofNat 32 (val g l))

/-- An operation on each element of sources A, B and C. -/
def elemsABC (f : FmtR) (op : Nat → Nat → Nat → Nat → Nat) (g : Group) (l : Nat) : Nat :=
  let t := f.typ.toNat
  onElems t (op t) (g.srcA f t l) (g.srcB f t l) (g.srcC f t l)

def elemsAB (f : FmtR) (op : Nat → Nat → Nat → Nat) (g : Group) (l : Nat) : Nat :=
  let t := f.typ.toNat
  onElems t (fun a b _ => op t a b) (g.srcA f t l) (g.srcB f t l) 0

def elemsA (f : FmtR) (op : Nat → Nat → Nat) (g : Group) (l : Nat) : Nat :=
  let t := f.typ.toNat
  onElems t (fun a _ _ => op t a) (g.srcA f t l) 0 0

/-- Bitwise operations on element codes. -/
def andnOf (w a b : Nat) : Nat := a &&& (2 ^ w - 1 - b)

/-- ADD.I (R665). -/
def execAddI (g : GroupRef) (f : FmtR) (s : State) : Host.Outcome State Fault Refusal :=
  issue g (.addI g f) (laneV g f (elemsAB f fun t a b => intArith t f.sat (fun x y _ => x + y) a b 0)) s

/-- SUB.I (R665). -/
def execSubI (g : GroupRef) (f : FmtR) (s : State) : Host.Outcome State Fault Refusal :=
  issue g (.subI g f) (laneV g f (elemsAB f fun t a b => intArith t f.sat (fun x y _ => x - y) a b 0)) s

/-- MUL.I: the low bits of the product, or the product saturated under SAT (R665, R68). -/
def execMulI (g : GroupRef) (f : FmtR) (s : State) : Host.Outcome State Fault Refusal :=
  issue g (.mulI g f) (laneV g f (elemsAB f fun t a b => intArith t f.sat (fun x y _ => x * y) a b 0)) s

/-- MAD.I: A × B + C, wrapped or saturated (R665, R68). -/
def execMadI (g : GroupRef) (f : FmtR) (s : State) : Host.Outcome State Fault Refusal :=
  issue g (.madI g f) (laneV g f (elemsABC f fun t a b c => intArith t f.sat (fun x y z => x * y + z) a b c)) s

/-- MIN.I, compared signed for I types and unsigned for U types (R665). -/
def execMinI (g : GroupRef) (f : FmtR) (s : State) : Host.Outcome State Fault Refusal :=
  issue g (.minI g f) (laneV g f (elemsAB f fun t a b => if elemInt t a ≤ elemInt t b then a else b)) s

/-- MAX.I (R665). -/
def execMaxI (g : GroupRef) (f : FmtR) (s : State) : Host.Outcome State Fault Refusal :=
  issue g (.maxI g f) (laneV g f (elemsAB f fun t a b => if elemInt t a ≥ elemInt t b then a else b)) s

/-- AND (R665). -/
def execAnd (g : GroupRef) (f : FmtR) (s : State) : Host.Outcome State Fault Refusal :=
  issue g (.and g f) (laneV g f (elemsAB f fun _ a b => a &&& b)) s

/-- OR (R665). -/
def execOr (g : GroupRef) (f : FmtR) (s : State) : Host.Outcome State Fault Refusal :=
  issue g (.or g f) (laneV g f (elemsAB f fun _ a b => a ||| b)) s

/-- XOR (R665). -/
def execXor (g : GroupRef) (f : FmtR) (s : State) : Host.Outcome State Fault Refusal :=
  issue g (.xor g f) (laneV g f (elemsAB f fun _ a b => a ^^^ b)) s

/-- ANDN: A AND NOT B (R665). -/
def execAndn (g : GroupRef) (f : FmtR) (s : State) : Host.Outcome State Fault Refusal :=
  issue g (.andn g f) (laneV g f (elemsAB f fun t a b => andnOf (elemBits t) a b)) s

/-- SHL; the count is B of the same element, whole and unsigned (R665, R666). -/
def execShl (g : GroupRef) (f : FmtR) (s : State) : Host.Outcome State Fault Refusal :=
  issue g (.shl g f) (laneV g f (elemsAB f fun t a b => shlOf (elemBits t) a b)) s

/-- SHR; the count is B of the same element, whole and unsigned (R665, R666). -/
def execShr (g : GroupRef) (f : FmtR) (s : State) : Host.Outcome State Fault Refusal :=
  issue g (.shr g f) (laneV g f (elemsAB f fun t a b => shrOf (elemBits t) a b)) s

/-- SAR; the count is B of the same element, whole and unsigned (R665, R666). -/
def execSar (g : GroupRef) (f : FmtR) (s : State) : Host.Outcome State Fault Refusal :=
  issue g (.sar g f) (laneV g f (elemsAB f fun t a b => sarOf (elemBits t) a b)) s

/-- ONES: the count of 1 bits (R665). -/
def execOnes (g : GroupRef) (f : FmtR) (s : State) : Host.Outcome State Fault Refusal :=
  issue g (.ones g f) (laneV g f (elemsA f fun _ a => popCount 32 a)) s

/-- BITREV (R665). -/
def execBitrev (g : GroupRef) (f : FmtR) (s : State) : Host.Outcome State Fault Refusal :=
  issue g (.bitrev g f) (laneV g f (elemsA f fun _ a => bitrevOf 32 a)) s

/-- LZC: 32 for 0 (R665). -/
def execLzc (g : GroupRef) (f : FmtR) (s : State) : Host.Outcome State Fault Refusal :=
  issue g (.lzc g f) (laneV g f (elemsA f fun _ a => lzcOf 32 a)) s

end Sys2Proof.Machine
end

