-- ==== Sys2Proof/Machine/LaneFloat.lean ====
section
/-! DEFINITION. The lanes' float arithmetic (OP 0x10), the special functions (OP 0x20) and the compares (OP 0x24)
(R665, R73, R74, R80–R82).
Assumption log: DEDUCED 17. -/

namespace Sys2Proof.Machine

/-- The flags that the lanes of a mask raise (R80). -/
def flagsIn (m : Word) (rs : List (Nat × Nat)) : Nat := (lanesIn m).foldl (fun a l => a ||| (rs.getD l (0, 0)).2) 0

/-- A vector result with sticky flags from the lanes of the effective mask (R80). -/
def laneF (gr : GroupRef) (f : FmtR) (val : Group → Nat → Nat × Nat) : State → Group → LaneRes :=
  onGroup gr fun g =>
    let m := g.eff f.pred
    let rs := (List.range 32).map (val g)
    (g.putV f.dst m (rs.map fun r => BitVec.ofNat 32 r.1)).raise (flagsIn m rs)

/-- One element of a float operation under the group's mode, clamped under SAT (R68, R78). -/
def floatElem (g : Group) (f : FmtR) (op : Nat → List Num → Option Num) (fmt : NumFmt) (cs : List Nat) : Nat × Nat :=
  let mode := effRnd f.rnd g.lmode
  let r := floatOp fmt mode (lmodeFtz g.lmode) (op mode) cs
  (if f.sat then satFloat fmt r.1 else r.1, r.2)

/-- A float operation on sources A and B, or A, B and C. -/
def floatAB (f : FmtR) (op : Nat → List Num → Option Num) (g : Group) (l : Nat) : Nat × Nat :=
  let t := f.typ.toNat
  onFloats t (floatElem g f op) [g.srcA f t l, g.srcB f t l]

def floatABC (f : FmtR) (op : Nat → List Num → Option Num) (g : Group) (l : Nat) : Nat × Nat :=
  let t := f.typ.toNat
  onFloats t (floatElem g f op) [g.srcA f t l, g.srcB f t l, g.srcC f t l]

/-- MINNUM.F and MAXNUM.F of sources A and B (R82). -/
def floatNum (f : FmtR) (op : List Num → Option Num) (g : Group) (l : Nat) : Nat × Nat :=
  let t := f.typ.toNat
  numOp fmtF32 (lmodeFtz g.lmode) op (g.srcA f t l) (g.srcB f t l)

/-- A special function of source A (R73). -/
def special (f : FmtR) (op : Nat) (g : Group) (l : Nat) : Nat × Nat :=
  let r := specialOp op (lmodeFtz g.lmode) (g.srcA f 0 l)
  (if f.sat then satFloat fmtF32 r.1 else r.1, r.2)

/-- A compare of one lane: both halves for the packed types (R74). -/
def cmpLane (f : FmtR) (rel : Rel) (g : Group) (l : Nat) : Bool × Nat :=
  let t := f.typ.toNat
  let a := g.srcA f t l
  let b := g.srcB f t l
  let ftz := lmodeFtz g.lmode
  match t with
  | 0 => cmpFloat fmtF32 ftz rel a b
  | 1 =>
    let lo := cmpFloat fmtF16 ftz rel (a % 65536) (b % 65536)
    let hi := cmpFloat fmtF16 ftz rel (a / 65536) (b / 65536)
    (lo.1 && hi.1, lo.2 ||| hi.2)
  | _ =>
    let w := 2 ^ elemBits t
    let one (x y : Nat) : Bool := rel.holds (compare (elemInt t x) (elemInt t y))
    (if isPacked t then one (a % w) (b % w) && one (a / w) (b / w) else one a b, 0)

/-- A compare writes Pd in the lanes of the effective mask (R74). -/
def laneCmp (gr : GroupRef) (f : FmtR) (rel : Rel) : State → Group → LaneRes :=
  onGroup gr fun g =>
    let m := g.eff f.pred
    let rs := (List.range 32).map (cmpLane f rel g)
    let fl := (lanesIn m).foldl (fun a l => a ||| (rs.getD l (false, 0)).2) 0
    (g.putP (f.dst.toNat % 8) m (maskOf fun l => (rs.getD l (false, 0)).1)).raise fl

/-- ADD.F and ADD.H2 (R665). -/
def execAddF (g : GroupRef) (f : FmtR) (s : State) : Host.Outcome State Fault Refusal :=
  issue g (.addF g f) (laneF g f (floatAB f opAdd)) s

/-- SUB.F and SUB.H2 (R665). -/
def execSubF (g : GroupRef) (f : FmtR) (s : State) : Host.Outcome State Fault Refusal :=
  issue g (.subF g f) (laneF g f (floatAB f opSub)) s

/-- MUL.F and MUL.H2 (R665). -/
def execMulF (g : GroupRef) (f : FmtR) (s : State) : Host.Outcome State Fault Refusal :=
  issue g (.mulF g f) (laneF g f (floatAB f fun _ => opMul)) s

/-- MAD.F and MAD.H2: A × B + C, rounded once (R665). -/
def execMadF (g : GroupRef) (f : FmtR) (s : State) : Host.Outcome State Fault Refusal :=
  issue g (.madF g f) (laneF g f (floatABC f opMad)) s

/-- MIN.F: NaN if either is NaN, −0 below +0 (R82). -/
def execMinF (g : GroupRef) (f : FmtR) (s : State) : Host.Outcome State Fault Refusal :=
  issue g (.minF g f) (laneF g f (floatAB f fun _ => opMin)) s

/-- MAX.F (R82). -/
def execMaxF (g : GroupRef) (f : FmtR) (s : State) : Host.Outcome State Fault Refusal :=
  issue g (.maxF g f) (laneF g f (floatAB f fun _ => opMax)) s

/-- MINNUM.F (R82). -/
def execMinnumF (g : GroupRef) (f : FmtR) (s : State) : Host.Outcome State Fault Refusal :=
  issue g (.minnumF g f) (laneF g f (floatNum f opMin)) s

/-- MAXNUM.F (R82). -/
def execMaxnumF (g : GroupRef) (f : FmtR) (s : State) : Host.Outcome State Fault Refusal :=
  issue g (.maxnumF g f) (laneF g f (floatNum f opMax)) s

/-- RECIP (R73). -/
def execRecip (g : GroupRef) (f : FmtR) (s : State) : Host.Outcome State Fault Refusal :=
  issue g (.recip g f) (laneF g f (special f 0)) s

/-- RSQRT (R73). -/
def execRsqrt (g : GroupRef) (f : FmtR) (s : State) : Host.Outcome State Fault Refusal :=
  issue g (.rsqrt g f) (laneF g f (special f 1)) s

/-- EXP2 (R73). -/
def execExp2 (g : GroupRef) (f : FmtR) (s : State) : Host.Outcome State Fault Refusal :=
  issue g (.exp2 g f) (laneF g f (special f 2)) s

/-- LOG2 (R73). -/
def execLog2 (g : GroupRef) (f : FmtR) (s : State) : Host.Outcome State Fault Refusal :=
  issue g (.log2 g f) (laneF g f (special f 3)) s

/-- SIN (R73). -/
def execSin (g : GroupRef) (f : FmtR) (s : State) : Host.Outcome State Fault Refusal :=
  issue g (.sin g f) (laneF g f (special f 4)) s

/-- COS (R73). -/
def execCos (g : GroupRef) (f : FmtR) (s : State) : Host.Outcome State Fault Refusal :=
  issue g (.cos g f) (laneF g f (special f 5)) s

/-- CMP.EQ (R74). -/
def execCmpEq (g : GroupRef) (f : FmtR) (s : State) : Host.Outcome State Fault Refusal :=
  issue g (.cmpEq g f) (laneCmp g f .eq) s

/-- CMP.NE (R74). -/
def execCmpNe (g : GroupRef) (f : FmtR) (s : State) : Host.Outcome State Fault Refusal :=
  issue g (.cmpNe g f) (laneCmp g f .ne) s

/-- CMP.LT (R74). -/
def execCmpLt (g : GroupRef) (f : FmtR) (s : State) : Host.Outcome State Fault Refusal :=
  issue g (.cmpLt g f) (laneCmp g f .lt) s

/-- CMP.LE (R74). -/
def execCmpLe (g : GroupRef) (f : FmtR) (s : State) : Host.Outcome State Fault Refusal :=
  issue g (.cmpLe g f) (laneCmp g f .le) s

/-- CMP.GT (R74). -/
def execCmpGt (g : GroupRef) (f : FmtR) (s : State) : Host.Outcome State Fault Refusal :=
  issue g (.cmpGt g f) (laneCmp g f .gt) s

/-- CMP.GE (R74). -/
def execCmpGe (g : GroupRef) (f : FmtR) (s : State) : Host.Outcome State Fault Refusal :=
  issue g (.cmpGe g f) (laneCmp g f .ge) s

end Sys2Proof.Machine
end

