-- ==== Sys2Proof/Machine/LaneMisc.lean ====
section
/-! DEFINITION. Select, predicate logic, lane exchange, predicate collection, group reductions, the scalar class, moves
between vector and scalar, the mode word (R665, R74–R79, R667).
Assumption log: DEDUCED 15, 16; DESIGN CHOICE 119. -/

namespace Sys2Proof.Machine

/-- PCOMB writes Pd in the lanes of the effective mask (R74). -/
def laneP (gr : GroupRef) (f : FmtR) (op : Word → Word → Word) : State → Group → LaneRes :=
  onGroup gr fun g =>
    g.putP (f.dst.toNat % 8) (g.eff f.pred) (op (g.preg (f.a.toNat % 8)) (g.preg (f.b.toNat % 8)))

/-- The source lane of an exchange (R75), from the lane and the value of source B, or none outside 0–31. -/
def srcLane (i : Int) : Option Nat := if 0 ≤ i ∧ i < 32 then some i.toNat else none

/-- XLANE: source A of the source lane, whether or not it is in the effective mask; the lane's own outside 0–31
(R75). -/
def laneX (gr : GroupRef) (f : FmtR) (from_ : Nat → Word → Option Nat) : State → Group → LaneRes :=
  laneV gr f fun g l =>
    let k := BitVec.ofNat 32 (g.srcB f 2 l)
    g.srcA f f.typ.toNat ((from_ l k).getD l)

/-- One level of the pairwise tree (R77). -/
def pairUp (op : Nat → Nat → Nat × Nat) : List (Nat × Nat) → List (Nat × Nat)
  | a :: b :: t =>
    let r := op a.1 b.1
    (r.1, a.2 ||| b.2 ||| r.2) :: pairUp op t
  | l => l

/-- The tree over at most 32 values; the code and the flags of the root. -/
def treeOf (op : Nat → Nat → Nat × Nat) : Nat → List (Nat × Nat) → List (Nat × Nat)
  | 0, l => l
  | n + 1, l => treeOf op n (pairUp op l)

/-- GRED (R77): the values of the effective mask combined into Sd. -/
def laneG (gr : GroupRef) (f : FmtR) (fop : Nat → List Num → Option Num) (fid : Nat)
    (iop : Int → Int → Int) (iid : Nat → Int) : State → Group → LaneRes :=
  onGroup gr fun g =>
    let t := f.typ.toNat
    let vs := (lanesIn (g.eff f.pred)).map fun l => g.srcA f t l
    let d := f.dst.toNat % 64
    if t = 0 then
      let mode := g.lmode.toNat % 8
      let op (a b : Nat) : Nat × Nat := floatOp fmtF32 mode (lmodeFtz g.lmode) (fop mode) [a, b]
      match treeOf op 5 (vs.map fun v => (v, 0)) with
      | r :: _ => (g.putS d (scalarOf t r.1)).raise r.2
      | [] => g.putS d (scalarOf t fid)
    else
      let v := match vs.map (elemInt t) with
        | [] => iid t
        | x :: xs => xs.foldl iop x
      g.putS d (scalarOf t (wrapInt 32 v))

/-- The scalar class acts once for the group, if its effective mask holds a lane (R667). -/
def laneS (gr : GroupRef) (f : FmtR) (val : Group → Nat) : State → Group → LaneRes :=
  onGroup gr fun g => if g.eff f.pred = 0 then g else g.putS (f.dst.toNat % 64) (scalarOf f.typ.toNat (val g))

/-- An element operation of the scalar class. -/
def scalarAB (f : FmtR) (op : Nat → Nat → Nat → Nat) (g : Group) : Nat :=
  let t := f.typ.toNat
  op t (g.srcA f t 0) (g.srcB f t 0)

/-- PICK: A in lanes whose bit of the predicate is set, B in the others (R665). -/
def execPick (g : GroupRef) (f : FmtR) (s : State) : Host.Outcome State Fault Refusal :=
  issue g (.pick g f) (laneV g f fun x l => if (x.preg (f.c.toNat % 8)).getLsbD l then x.srcA f f.typ.toNat l else x.srcB f f.typ.toNat l) s

/-- PCOMB.AND (R74). -/
def execPcombAnd (g : GroupRef) (f : FmtR) (s : State) : Host.Outcome State Fault Refusal :=
  issue g (.pcombAnd g f) (laneP g f fun a b => a &&& b) s

/-- PCOMB.OR (R74). -/
def execPcombOr (g : GroupRef) (f : FmtR) (s : State) : Host.Outcome State Fault Refusal :=
  issue g (.pcombOr g f) (laneP g f fun a b => a ||| b) s

/-- PCOMB.XOR (R74). -/
def execPcombXor (g : GroupRef) (f : FmtR) (s : State) : Host.Outcome State Fault Refusal :=
  issue g (.pcombXor g f) (laneP g f fun a b => a ^^^ b) s

/-- PCOMB.ANDN (R74). -/
def execPcombAndn (g : GroupRef) (f : FmtR) (s : State) : Host.Outcome State Fault Refusal :=
  issue g (.pcombAndn g f) (laneP g f fun a b => a &&& ~~~b) s

/-- PCOMB.NOT (R74). -/
def execPcombNot (g : GroupRef) (f : FmtR) (s : State) : Host.Outcome State Fault Refusal :=
  issue g (.pcombNot g f) (laneP g f fun a _ => ~~~a) s

/-- XLANE.AT: s = k (R75). -/
def execXlaneAt (g : GroupRef) (f : FmtR) (s : State) : Host.Outcome State Fault Refusal :=
  issue g (.xlaneAt g f) (laneX g f fun _ k => srcLane k.toInt) s

/-- XLANE.UP: s = l − k (R75). -/
def execXlaneUp (g : GroupRef) (f : FmtR) (s : State) : Host.Outcome State Fault Refusal :=
  issue g (.xlaneUp g f) (laneX g f fun l k => srcLane ((l : Int) - k.toInt)) s

/-- XLANE.DN: s = l + k (R75). -/
def execXlaneDn (g : GroupRef) (f : FmtR) (s : State) : Host.Outcome State Fault Refusal :=
  issue g (.xlaneDn g f) (laneX g f fun l k => srcLane ((l : Int) + k.toInt)) s

/-- XLANE.FLIP: s = l XOR k (R75). -/
def execXlaneFlip (g : GroupRef) (f : FmtR) (s : State) : Host.Outcome State Fault Refusal :=
  issue g (.xlaneFlip g f) (laneX g f fun l k => srcLane (BitVec.ofNat 32 l ^^^ k).toInt) s

/-- PMASK: the lanes of the effective mask in which the predicate is set (R76). -/
def execPmask (g : GroupRef) (f : FmtR) (s : State) : Host.Outcome State Fault Refusal :=
  issue g (.pmask g f) (onGroup g fun x => x.putS (f.dst.toNat % 64) ((x.eff f.pred &&& x.preg (f.a.toNat % 8)).setWidth 64)) s

/-- GRED.ADD (R77). -/
def execGredAdd (g : GroupRef) (f : FmtR) (s : State) : Host.Outcome State Fault Refusal :=
  issue g (.gredAdd g f) (laneG g f opAdd 0 (fun a b => a + b) (fun _ => 0)) s

/-- GRED.MIN; the identity is the largest value (R77). -/
def execGredMin (g : GroupRef) (f : FmtR) (s : State) : Host.Outcome State Fault Refusal :=
  issue g (.gredMin g f) (laneG g f (fun _ => opMin) 0x7F800000 min (fun t => intHi 32 (isSigned t))) s

/-- GRED.MAX; the identity is the smallest value (R77). -/
def execGredMax (g : GroupRef) (f : FmtR) (s : State) : Host.Outcome State Fault Refusal :=
  issue g (.gredMax g f) (laneG g f (fun _ => opMax) 0xFF800000 max (fun t => intLo 32 (isSigned t))) s

/-- ADD.S (R665). -/
def execAddS (g : GroupRef) (f : FmtR) (s : State) : Host.Outcome State Fault Refusal :=
  issue g (.addS g f) (laneS g f (scalarAB f fun t a b => intArith t f.sat (fun x y _ => x + y) a b 0)) s

/-- SUB.S (R665). -/
def execSubS (g : GroupRef) (f : FmtR) (s : State) : Host.Outcome State Fault Refusal :=
  issue g (.subS g f) (laneS g f (scalarAB f fun t a b => intArith t f.sat (fun x y _ => x - y) a b 0)) s

/-- MUL.S (R665). -/
def execMulS (g : GroupRef) (f : FmtR) (s : State) : Host.Outcome State Fault Refusal :=
  issue g (.mulS g f) (laneS g f (scalarAB f fun t a b => intArith t f.sat (fun x y _ => x * y) a b 0)) s

/-- SHL.S, with an element width of 64 (R665). -/
def execShlS (g : GroupRef) (f : FmtR) (s : State) : Host.Outcome State Fault Refusal :=
  issue g (.shlS g f) (laneS g f (scalarAB f fun _ a b => shlOf 64 a b)) s

/-- SHR.S, with an element width of 64 (R665). -/
def execShrS (g : GroupRef) (f : FmtR) (s : State) : Host.Outcome State Fault Refusal :=
  issue g (.shrS g f) (laneS g f (scalarAB f fun _ a b => shrOf 64 a b)) s

/-- SAR.S, with an element width of 64 (R665). -/
def execSarS (g : GroupRef) (f : FmtR) (s : State) : Host.Outcome State Fault Refusal :=
  issue g (.sarS g f) (laneS g f (scalarAB f fun _ a b => sarOf 64 a b)) s

/-- AND.S (R665). -/
def execAndS (g : GroupRef) (f : FmtR) (s : State) : Host.Outcome State Fault Refusal :=
  issue g (.andS g f) (laneS g f (scalarAB f fun _ a b => a &&& b)) s

/-- OR.S (R665). -/
def execOrS (g : GroupRef) (f : FmtR) (s : State) : Host.Outcome State Fault Refusal :=
  issue g (.orS g f) (laneS g f (scalarAB f fun _ a b => a ||| b)) s

/-- XOR.S (R665). -/
def execXorS (g : GroupRef) (f : FmtR) (s : State) : Host.Outcome State Fault Refusal :=
  issue g (.xorS g f) (laneS g f (scalarAB f fun _ a b => a ^^^ b)) s

/-- MOV.VS: A[31:0] in every lane of the effective mask (R665). -/
def execMovVs (g : GroupRef) (f : FmtR) (s : State) : Host.Outcome State Fault Refusal :=
  issue g (.movVs g f) (laneV g f fun x l => x.srcA f f.typ.toNat l) s

/-- MOV.SV: A of lane k, whether or not it is in the effective mask (R665). -/
def execMovSv (g : GroupRef) (f : FmtR) (s : State) : Host.Outcome State Fault Refusal :=
  issue g (.movSv g f) (laneS g f fun x => x.srcA f f.typ.toNat (x.srcB f 3 0 % 32)) s

/-- SETMODE with a reserved RND faults (R79); with an empty effective mask it does nothing (R667). -/
def doSetmode (gr : GroupRef) (f : FmtR) (s : State) (g : Group) : LaneRes :=
  let v := BitVec.ofNat 32 (g.srcA f 3 0)
  let rnd := v.toNat % 8
  if g.eff f.pred = 0 then .done s
  else if rnd = 0 ∨ rnd ≥ 6 then .fault Code.groupIllegalInstr 0
  else .done (modGroup s gr.core gr.slot fun x => { x with lmode := v &&& lmodeMask })

/-- SETMODE (R79). -/
def execSetmode (g : GroupRef) (f : FmtR) (s : State) : Host.Outcome State Fault Refusal :=
  issue g (.setmode g f) (doSetmode g f) s

/-- GETMODE (R79). -/
def execGetmode (g : GroupRef) (f : FmtR) (s : State) : Host.Outcome State Fault Refusal :=
  issue g (.getmode g f) (laneS g f fun x => x.lmode.toNat) s

end Sys2Proof.Machine
end

