-- ==== Sys2Proof/Machine/LaneCvt.lean ====
section
/-! DEFINITION. The conversions: CVT (R109, R110) and CVT.BLK (R111–R115).
Assumption log: DEDUCED 18; DESIGN CHOICE 119. -/

namespace Sys2Proof.Machine

/-- An immediate as a CVT source: exact for F32 and F16, sign-extended else (R69). -/
def cvtImm (src : Nat) : Nat := if src = 0 then 0 else if src = 1 then 1 else 2

/-- CVT (R109, R110). -/
def execCvt (g : GroupRef) (src : BitVec 5) (f : FmtR) (s : State) : Host.Outcome State Fault Refusal :=
  issue g (.cvt g src f)
    (laneF g f fun x l =>
      cvtOp src.toNat f.typ.toNat (effRnd f.rnd x.lmode) (lmodeFtz x.lmode) (x.srcA f (cvtImm src.toNat) l)) s

/-- CVT.BLK.ENC: the packed block to Vd, the E8 and the amax to Sd (R111, R113, R115). -/
def doBlkEnc (gr : GroupRef) (f : FmtR) (s : State) (g : Group) : LaneRes :=
  if g.eff f.pred ≠ 0xFFFFFFFF#32 then .fault Code.groupBlockPartial 0
  else
    let vs := (List.range 32).map fun l => fmtF32.decode (g.vreg f.a l).toNat
    let r := blkEnc f.typ.toNat vs
    let words := (List.range 32).map fun l => BitVec.ofNat 32 (r.2.2 / 2 ^ (32 * l) % 2 ^ 32)
    .done (modGroup s gr.core gr.slot fun x =>
      (x.putV f.dst 0xFFFFFFFF#32 words).putS (f.b.toNat % 64) (BitVec.ofNat 64 (r.1 + 2 ^ 32 * r.2.1)))

def execCvtBlkEnc (g : GroupRef) (f : FmtR) (s : State) : Host.Outcome State Fault Refusal :=
  issue g (.cvtBlkEnc g f) (doBlkEnc g f) s

/-- CVT.BLK.DEC: element i of Va's block under the E8 of source B to lane i (R112, R115). -/
def doBlkDec (gr : GroupRef) (f : FmtR) (s : State) (g : Group) : LaneRes :=
  if g.eff f.pred ≠ 0xFFFFFFFF#32 then .fault Code.groupBlockPartial 0
  else
    let packed := packElems 32 ((List.range 32).map fun l => (g.vreg f.a l).toNat)
    let e8 := g.srcB f 2 0 % 256
    .done (modGroup s gr.core gr.slot fun x =>
      x.putV f.dst 0xFFFFFFFF#32 ((List.range 32).map fun l => BitVec.ofNat 32 (blkDec f.typ.toNat e8 packed l)))

def execCvtBlkDec (g : GroupRef) (f : FmtR) (s : State) : Host.Outcome State Fault Refusal :=
  issue g (.cvtBlkDec g f) (doBlkDec g f) s

end Sys2Proof.Machine
end

