-- ==== Sys2Proof/Machine/Window.lean ====
section
/-! DEFINITION. Writes to the register window (R453–R473, R659): page control, staged fields and their application, every
register by its type, and what an emulated page does while firmware does not serve.
Assumption log: DEDUCED 92, 102, 103, 104, 105, 106. -/

namespace Sys2Proof.Machine

/-! ### Staged fields (R468) -/

/-- Where the RWS fields of a page are kept, with their reset values: registers of the page, and the partition masks and
domain limits that a selector shows (R544, R564). -/
def rwsKeys (page : Nat) : List (Nat × Nat) :=
  let own := Reg.all.flatMap fun r =>
    if r.type = .rws ∧ !(page = pgSCH ∧ r.base ≥ 0x10070) ∧ !(page = pgBDL ∧ r.base ≥ 0x13054) then
      if r.count = 1 then (if r.base / 0x1000 * 0x1000 = page then [(r.base, r.reset)] else [])
      else
        let i := (page - r.base / 0x1000 * 0x1000) / r.stride
        if r.base / 0x1000 * 0x1000 ≤ page ∧ i < r.count ∧ r.at_ i / 0x1000 * 0x1000 = page then [(r.at_ i, r.reset)] else []
    else []
  let masks := if page = pgSCH then
      (List.range 15).flatMap fun p => (List.range 3).map fun w => (partMaskAddr (p + 1) w, 0)
    else []
  let limits := if page = pgBDL then
      (List.range 16).flatMap fun d => [(domKey d Reg.bdlDfloor, Reg.bdlDfloor.reset), (domKey d Reg.bdlDceil, Reg.bdlDceil.reset)]
    else []
  own ++ masks ++ limits

/-- A page in OFF, IDLE or HALT. -/
def appliesNow (s : State) (page : Nat) : Bool := pageRests s page || pgState s page == 3

/-- What follows when a snapshot takes effect outside its block's own safe points. -/
def applied (s : State) (page : Nat) : State :=
  if page = pgAWL then awlSelect s else if page = pgSEQ then passSteps s else s

/-- APPLY: a snapshot of every RWS field that differs from the value in effect replaces the pending one. -/
def doApply (s : State) (page : Nat) : State :=
  let q := rawReg s (hPgApplyseq page) 0
  let req := (q / 65536 + 1) % 65536
  let snap := (rwsKeys page).filterMap fun k =>
    let v := stagedReg s k.1 k.2
    if v = rawReg s k.1 k.2 then none else some (k.1, BitVec.ofNat 64 v)
  if snap.isEmpty then setRaw { s with applying := mdel s.applying page } (hPgApplyseq page) (req * 65536 + req)
  else
    let s := setRaw { s with applying := mset s.applying page snap } (hPgApplyseq page) (req * 65536 + q % 65536)
    let s := if isStackPage page then modSlice s (pageStack page) fun x => { x with keepSeen := [] } else s
    if appliesNow s page then applied (pageSafePoint s page) page else s

/-! ### PG_CTL (R465, R466) -/

def setCtlBit (s : State) (page n : Nat) (on : Bool) : State :=
  let v := rawReg s (hPgCtl page) (pgCtlReset page)
  let v := if v.testBit n then v - 2 ^ n else v
  setRaw s (hPgCtl page) (v + bit on n)

/-- HALT: asked for, or the return to the state the block left. -/
def doHalt (s : State) (page : Nat) (on : Bool) : State :=
  if !honorsHalt page then s
  else
    let s := setCtlBit s page 2 on
    if on then s
    else
      let was := haltIsReached s page
      let s := setRaw s (hPgStat page) (rawReg s (hPgStat page) 0 / 16 * 16)
      if page = pgSEQ ∧ was then passSteps s else s

/-- The block is at a safe point of the HALT that is asked for. -/
def haltDue (s : State) (page : Nat) : Bool :=
  honorsHalt page && pagePresent s page && pgHalted s page && !haltIsReached s page

def execHaltReached (page : Nat) (s : State) : Host.Outcome State Fault Refusal :=
  if haltDue s page then .next (setRaw s (hPgStat page) (rawReg s (hPgStat page) 0 / 16 * 16 + 3)) else .next s

/-- RESET_REQ: the unit's entry, and the reset of its domain queued; a stack's channels are reset in turn. -/
def doResetReq (s : State) (page : Nat) : State :=
  if !honorsReset page then s
  else if isCorePage page then raiseUnit s Code.rcvResetRequested (.core (pageCore page))
  else if isPortPage page then raiseUnit s Code.rcvResetRequested (.port (pagePort page))
  else
    let n := reg s Reg.errTail
    let st := pageStack page
    ((List.range 31).map (· + 1)).foldl (fun s ch => queueRecovery s n (.channel st ch) Code.rcvResetRequested)
      (raiseUnit s Code.rcvResetRequested (.channel st 0))

/-- A port leaves RUN for IDLE; its pairs move to ALT where they have one (R410). -/
def disablePort (s : State) (p : Nat) : State :=
  if (portOf s p).link = .off then s
  else
    let s := modPort s p fun q => { q with link := .idle, lanes := 0, slot := none }
    endRecovery ((pairsOn s p).foldl (fun s n => startReroute s n true) s) (.port p)

/-- ENABLE of a port (R390, R466). -/
def doEnable (s : State) (page : Nat) (on : Bool) : State :=
  if !honorsEnable page then s
  else
    let p := pagePort page
    if on then
      if s.fab.topo.isNone then logOnly (pgErr s page Code.fabTopoInvalid) Code.fabTopoInvalid page
      else
        let s := setCtlBit s page 0 true
        if (portOf s p).link = .idle then modPort s p fun q => { q with link := .training s.now } else s
    else disablePort (setCtlBit s page 0 false) p

/-- A write of PG_CTL. -/
def doPgCtl (s : State) (page v : Nat) : State :=
  let s := if v.testBit 1 then doApply s page else s
  let s := if v.testBit 2 = pgHalted s page then s else doHalt s page (v.testBit 2)
  let s := if v.testBit 0 = pgEnabled s page then s else doEnable s page (v.testBit 0)
  if v.testBit 3 then doResetReq s page else s

/-! ### Registers by type (R467–R470) -/

/-- A value as its register holds it. -/
def fitted (r : RegDef) (v : Nat) : Nat :=
  let v := v &&& r.wmask
  match r.bounds with
  | some (lo, hi) => clampTo lo hi v
  | none => v

def clampBytes (lo hi : Nat) : Nat → Nat → Nat
  | 0, _ => 0
  | n + 1, v => clampTo lo hi (v % 256) + 256 * clampBytes lo hi n (v / 256)

/-- Fields within a register that have bounds of their own. -/
def fittedReg (r : RegDef) (v : Nat) : Nat :=
  if r.base = Reg.schSlice.base then clampBytes 1 255 3 v
  else if r.base = Reg.bdlCtl.base then clampTo 85 100 (bitsOf v 15 8) * 256 + v % 2
  else fitted r v

/-- A domain's floor or ceiling: a multiple of 25 within 1,200–3,600. -/
def fittedMhz (v : Nat) : Nat := clampTo 1200 3600 (v % 4096 / 25 * 25)

def stage (s : State) (a v : Nat) : State := { s with staged := mset s.staged a (BitVec.ofNat 64 v) }

/-- SCH_CTXCFG: SAVEMODE 0b11 reads back 0b00. -/
def fittedCtxcfg (v : Nat) : Nat :=
  (v / 2 ^ 31 % 2) * 2 ^ 31 + (if bitsOf v 5 4 = 3 then 0 else bitsOf v 5 4) * 16 + v % 16

def setAt (l : List DWord) (i : Nat) (v : DWord) : List DWord := (l ++ List.replicate (3 - l.length) 0).set i v

/-- SCH fields that a selector shows (R544). -/
def writeSch (s : State) (r : RegDef) (v : Nat) : Option State :=
  let p := reg s Reg.schPartsel
  let x := reg s Reg.schCtxsel
  if r.base = Reg.schSavepool.base then some (doSavepool s v)
  else if 0x10070 ≤ r.base ∧ r.base ≤ 0x10080 then
    some (if p = 0 then s else stage s (partMaskAddr p ((r.base - 0x10070) / 8)) v)
  else if r.base = Reg.schCtxcfg.base then
    some { s with sch := { s.sch with ctxCfg := mset s.sch.ctxCfg x (BitVec.ofNat 32 (fittedCtxcfg v)) } }
  else if 0x10090 ≤ r.base ∧ r.base ≤ 0x100A0 then
    let l := setAt (mgetD s.sch.ctxPin x []) ((r.base - 0x10090) / 8) (BitVec.ofNat 64 v)
    some { s with sch := { s.sch with ctxPin := mset s.sch.ctxPin x l } }
  else if r.base = Reg.schTenweight.base then
    some { s with sch := { s.sch with tenW := mset s.sch.tenW (reg s Reg.schTensel) (fitted r v) } }
  else none

/-- A model's settings; those of an enabled model stay (R530). A write that enables a model whose templates lie at another
module is the row of its own, which carries them. -/
def writeSeq (s : State) (r : RegDef) (v : Nat) : Option State :=
  let m := reg s Reg.seqMsel % 256
  if r.base = Reg.seqMcfg.base then
    some (if v / 2 ^ 31 % 2 = 1 ∧ !modelEnabled s m ∧ templatesAway (setMcfg s m (v % 65536)) m then s else doModelEnable s v none)
  else if 0x1107C ≤ r.base ∧ r.base ≤ 0x1109C then
    some (if modelEnabled s m then busyWrite s pgSEQ else setRaw s (seqKey m r) (fitted r v))
  else none

/-- FWU_CTL; DESC is the row of its own that carries the descriptor. -/
def writeFwuCtl (s : State) (v : Nat) : State :=
  if popCount 5 v > 1 then fwuBusy s
  else if v.testBit 0 then doStage s
  else if v.testBit 1 then doCommitUpdate s
  else if v.testBit 2 then doCancel s
  else if v.testBit 3 then doFlash s
  else s

/-- Registers whose writing does more than store. -/
def writeSpecial (s : State) (r : RegDef) (i v : Nat) : Option State :=
  let is (q : RegDef) : Bool := r.base == q.base
  if is Reg.tmvL1ctl then some (ctlWrite s (.l1 i) v)
  else if is Reg.l2cCtl then some (ctlWrite s (.l2 i) v)
  else if is Reg.l2cKeepClear then some (if v % 2 = 1 then clearKept s i else s)
  else if is Reg.hnsTopoCtl then some (doTopoLoad s v)
  else if is Reg.hnsTopoBase || is Reg.hnsTopoLen || is Reg.hnsEtype || is Reg.hnsMacpfx then
    some (if portsQuiet s then setReg s r i (fitted r v) else busyWrite s (pgHNS 0))
  else if is Reg.xltFmt then some (doFmtWrite s v)
  else if is Reg.xltFresp then some (doFresp s (BitVec.ofNat 64 v))
  else if is Reg.xltIringDb then some (ringInv s v)
  else if is Reg.hptIpv4 then some (doIpv4 s v)
  else if is Reg.coreFaultInfo then some (clearFaultInfo s i v)
  else if is Reg.ftmCalCtl then some (doCalInstall s v)
  else if is Reg.bdlDfloor || is Reg.bdlDceil then some (stage s (domKey (reg s Reg.bdlDsel) r) (fittedMhz v))
  else if is Reg.errHead then some (doErrHead s v)
  else if is Reg.errWarmreq then some (if v = 0x5752 then hostWarm s else s)
  else if is Reg.secAttCtl then some (doGo s v)
  else if is Reg.fwuCtl then some (writeFwuCtl s v)
  else if is Reg.tmvEcc then
    let old := reg s r i
    some (setReg s r i ((v &&& r.wmask) + (if v / 2 ^ 31 = 1 then 0 else old / 2 ^ 31 * 2 ^ 31)))
  else if 0x10000 ≤ r.base ∧ r.base < 0x11000 then writeSch s r v
  else if 0x11000 ≤ r.base ∧ r.base < 0x12000 then writeSeq s r v
  else none

/-- A register by its type. -/
def writeReg (s : State) (page : Nat) (r : RegDef) (i v : Nat) : State :=
  match writeSpecial s r i v with
  | some t => t
  | none =>
    match r.type with
    | .ro | .wo => s
    | .rw => setReg s r i (fittedReg r v)
    | .rws => stage s (r.at_ i) (fittedReg r v)
    | .rwi => if pageRests s page then setReg s r i (fittedReg r v) else busyWrite s page
    | .w1c =>
      let old := reg s r i
      setReg s r i (old - (old &&& (v &&& r.w1c)))

/-! ### The common header and the counters (R461–R465, R659) -/

def pmcClearAll (s : State) (page : Nat) : State :=
  (List.range 8).foldl (fun s n => setRaw s (page + 0xF40 + 8 * n) 0) s

def writeHeader (s : State) (page off v : Nat) : State :=
  if off = 0x0C then
    if v / 2 ^ 31 % 2 = 1 then setRaw s (hPgStat page) (rawReg s (hPgStat page) 0 % 2 ^ 31) else s
  else if off = 0x10 then if v / 2 ^ 31 % 2 = 1 then setRaw s (hPgErr page) 0 else s
  else if off = 0x14 then setRaw s (hPgErrcnt page) v
  else if off = 0x18 then doPgCtl s page v
  else s

def writePmc (s : State) (page off v : Nat) : State :=
  if off = 0xF00 then
    let s := setRaw s (page + off) (v &&& 0xBFFF0001)
    if v.testBit 1 then pmcClearAll s page else s
  else if off = 0xF04 then
    let old := rawReg s (page + off) 0
    setRaw s (page + off) (old - (old &&& v))
  else if 0xF10 ≤ off ∧ off < 0xF30 then setRaw s (page + off) (v % 65536)
  else s

/-- A 32-bit write, or one of a whole 64-bit register. -/
def writeAt (s : State) (a v : Nat) : State :=
  let page := a / 0x1000 * 0x1000
  let off := a % 0x1000
  if !pagePresent s page then s
  else if off < 0x20 then writeHeader s page off v
  else if isQtab page then s
  else if 0xF40 ≤ off ∧ off < 0xF80 then setRaw s a v
  else if 0xF00 ≤ off then writePmc s page off v
  else
    match findReg a with
    | some (r, i) => writeReg s page r i v
    | none => s

/-- The 64-bit register that an address lies in. -/
def wideAt (a : Nat) : Option Nat :=
  let off := a % 0x1000
  if pgId (a / 0x1000 * 0x1000) = 0 then none
  else if 0xF40 ≤ off ∧ off < 0xF80 then some (a / 8 * 8)
  else if off < 0x40 ∨ 0xF00 ≤ off then none
  else
    match findReg a with
    | some (r, i) => if r.wide then some (r.at_ i) else none
    | none => none

/-- A write of 4 or 8 bytes: a half of a 64-bit register is refused, two 32-bit registers are written in ascending
order. -/
def writeValue (s : State) (a size v : Nat) : State :=
  if size = 8 then
    if (wideAt a).isSome then writeAt s a v else writeAt (writeAt s a (v % 2 ^ 32)) (a + 4) (v / 2 ^ 32)
  else writeAt s a (v % 2 ^ 32)

/-! ### REGISTER_WRITE and the rows of the page control -/

/-- The length and the alignment of R454, and R470. -/
def formOk (a size : Nat) : Bool :=
  (size == 8 || (size == 4 && (wideAt a).isNone)) && a % size == 0

/-- A write that is performed. -/
def performWrite (s : State) (t a size v : Nat) : State :=
  pmcEvent (writeValue (emit s (.ack t)) a size v) pgHPT 0x0100 1 none

/-- A write to an emulated page while firmware does not serve waits (R473). -/
def waitsForFw (s : State) (page : Nat) : Bool := isEmu page && !fwServes s page

/-- In the boot window only DEV answers (R574). -/
def windowWrite (s : State) (t a size v : Nat) : State :=
  if a / 0x1000 = 0 then performWrite s t a size v else hptLog (emit s (.ack t)) t Code.cfgEmuUnavailable

/-- A write that nothing holds up. -/
def performAccess (s : State) (t a size : Nat) (value : DWord) : State :=
  if doorbellRange a then doDoorbell s t a size (value.toNat % 2 ^ 32) (value.toNat / 2 ^ 32)
  else if t ≠ 0 then nakAccess s t
  else if !formOk a size then nakInvalid s t
  else if windowOpen s then windowWrite s t a size value.toNat
  else performWrite s t a size value.toNat

/-- A write that firmware must serve and cannot now (R473). -/
def awaitsFw (s : State) (t a size : Nat) : Bool :=
  !doorbellRange a && t == 0 && formOk a size && !windowOpen s && waitsForFw s (a / 0x1000 * 0x1000)

def doRegisterWrite (s : State) (t a size : Nat) (value : DWord) : State :=
  if qpHeld s t || awaitsFw s t a size then park s t (.write a size value) else performAccess s t a size value

def execRegisterWrite (tenant addr size : Nat) (value : DWord) (s : State) : Host.Outcome State Fault Refusal :=
  if qpUp s tenant then .next (doRegisterWrite s tenant addr size value) else .next s

/-- A write of PG_CTL that sets one field and leaves the others as they are. -/
def ctlField (s : State) (t page n : Nat) (on : Bool) (f : State → State) : State :=
  let v := rawReg s (hPgCtl page) (pgCtlReset page) % 8 &&& 5
  let v := (if v.testBit n then v - 2 ^ n else v) + bit on n
  if waitsForFw s page && t == 0 && !windowOpen s then park s t (.write (hPgCtl page) 4 (BitVec.ofNat 64 v))
  else mgmtWrite s t (.write (hPgCtl page) 4 (BitVec.ofNat 64 v)) fun s => if pagePresent s page then f s else s

def execPgApply (tenant page : Nat) (s : State) : Host.Outcome State Fault Refusal :=
  .next (ctlField s tenant page 1 true fun s => doApply s page)

def execPgHalt (tenant page : Nat) (on : Bool) (s : State) : Host.Outcome State Fault Refusal :=
  .next (ctlField s tenant page 2 on fun s => doHalt s page on)

def execPgResetReq (tenant page : Nat) (s : State) : Host.Outcome State Fault Refusal :=
  .next (ctlField s tenant page 3 true fun s => doResetReq s page)

def execPgEnable (tenant page : Nat) (on : Bool) (s : State) : Host.Outcome State Fault Refusal :=
  .next (ctlField s tenant page 0 on fun s => doEnable s page on)

/-- PMC_CTL.CLEAR: the eight counters of a page, RUN and FILTER staying as they are. -/
def doPmcClear (s : State) (t page : Nat) : State :=
  let v := rawReg s (page + 0xF00) 0 ||| 2
  if waitsForFw s page && t == 0 && !windowOpen s then park s t (.write (page + 0xF00) 4 (BitVec.ofNat 64 v))
  else
    mgmtWrite s t (.write (page + 0xF00) 4 (BitVec.ofNat 64 v)) fun s =>
      if pagePresent s page && !isQtab page then pmcClearAll s page else s

def execPmcClear (tenant page : Nat) (s : State) : Host.Outcome State Fault Refusal := .next (doPmcClear s tenant page)

/-! ### EMU_ACCESS_TIMEOUT (R473) -/

/-- A write to an emulated page that firmware does not serve, as against a request. -/
def fwAccess (s : State) (p : Parked) : Bool :=
  match p.call with
  | .write a n _ => awaitsFw s p.tenant a n
  | .fwuDesc _ _ => !s.boot.serving
  | _ => false

/-- The waiting access that has waited 50 ms. -/
def overdueAccess (s : State) (id : Nat) : Option Parked :=
  s.obj.parked.find? fun p => p.id == id && fwAccess s p && since s p.since (msec 50)

/-- The write is discarded, and the queue pair is answered. -/
def dropAccess (s : State) (p : Parked) : State :=
  let s := { s with obj := { s.obj with parked := s.obj.parked.filter fun q => q.id != p.id } }
  hptLog (emit s (.ack p.tenant)) p.tenant Code.cfgEmuUnavailable

def execEmuAccessTimeout (access : Nat) (s : State) : Host.Outcome State Fault Refusal :=
  match overdueAccess s access with
  | some p => .next (dropAccess s p)
  | none => .next s

end Sys2Proof.Machine
end

