-- ==== Sys2Proof/Machine/Serve.lean ====
section
/-! DEFINITION. What has waited at a queue pair is performed (R456, R473, R483); firmware serves again after a
control-cluster restart (R612) and in a hand-off (R593, R594).
Assumption log: DEDUCED 84; DESIGN CHOICE 115. -/

namespace Sys2Proof.Machine

/-- A request with an undefined OP (R483). -/
def doBadOp (s : State) (r : Request) : State := refuse s r 1

def execRequestBadOp (r : Request) (op : Nat) (s : State) : Host.Outcome State Fault Refusal :=
  if reqReady s r then .next (doBadOp s r) else .next (park s r.tenant (.requestBadOp r op))

/-- What has waited, as firmware performs it. -/
def performCall (s : State) (p : Parked) : State :=
  match p.call with
  | .createTenant r t key quota mirror grace => doCreateTenant s r t key quota mirror grace
  | .destroyTenant r t => doDestroyTenant s r t
  | .createContext r root => doCreateContext s r root
  | .teardownContext r x => doTeardownContext s r x
  | .createQueue r x cls ls lc ring cq => doCreateQueue s r x cls ls lc ring cq
  | .destroyQueue r q => doDestroyQueue s r q
  | .createFence r x m i => doCreateFence s r x m i
  | .destroyFence r f => doDestroyFence s r f
  | .signalFence r f v => doSignalFence s r f v
  | .poisonFence r f c => doPoisonFence s r f c
  | .shareFence r f t => doShareFence s r f t
  | .createObject r k n => doCreateObject s r k n
  | .mapObject r h x w nx va off len => doMapObject s r h x w nx va off len
  | .unmap r x va len => doUnmap s r x va len
  | .mapRemote r x node k w nx va remote len off => doMapRemote s r x node k w nx va remote len off
  | .shareObject r h t => doShareObject s r h t
  | .requestBadOp r _ => doBadOp s r
  | .write a n v => if qpUp s p.tenant then performAccess s p.tenant a n v else s
  | .fwuDesc v d => mgmtWrite s p.tenant p.call fun s => fwuCtl s v.toNat 4 fun s => doDesc s d
  | .cacheDisable u => mgmtWrite s p.tenant p.call fun s => if unitThere s u then drainCache s u else s
  | .cacheInvalidate u => mgmtWrite s p.tenant p.call fun s => if unitThere s u then startInv s u else s
  | .cacheEnable u => mgmtWrite s p.tenant p.call fun s => if unitThere s u then enableCache s u else s
  | .modelEnable v t => mgmtWrite s p.tenant p.call fun s => if seqPresent s then doModelEnable s v.toNat t else s
  | .doorbell a n tail cq => if qpUp s p.tenant then doDoorbell s p.tenant a n tail cq else s
  | .ftmNow => if qpUp s p.tenant then doFtmNowRead s p.tenant else s
  | .refcountRead i n => if qpUp s p.tenant then doRefcountRead s p.tenant i n else s
  | .refcountAdd i d => if qpUp s p.tenant then doRefcountFetchAdd s p.tenant i d else s
  | .refcountCas i => if qpUp s p.tenant then doRefcountCas s p.tenant i else s
  | .refcountWrite => if qpUp s p.tenant then nakAccess s p.tenant else s
  | .objectRead h o n => if qpUp s p.tenant then doObjectRead s p.tenant h o n else s
  | .objectWrite h o d => if qpUp s p.tenant then doObjectWrite s p.tenant h o d else s
  | .objectAtomic h o c x y => if qpUp s p.tenant then doObjectAtomic s p.tenant h o c x y else s

/-- What waits can be performed: firmware serves it, or hardware does (R473). -/
def callReady (s : State) (p : Parked) : Bool :=
  match p.call with
  | .write _ _ _ | .fwuDesc _ _ => !fwAccess s p
  | .cacheDisable _ | .cacheInvalidate _ | .cacheEnable _ | .modelEnable _ _ | .doorbell _ _ _ _ | .ftmNow | .refcountRead _ _
  | .refcountAdd _ _ | .refcountCas _ | .refcountWrite | .objectRead _ _ _ | .objectWrite _ _ _ | .objectAtomic _ _ _ _ _ => true
  | _ => s.boot.serving && s.boot.ready

/-- What waits, in the order it came: each is performed unless something earlier of its queue pair is left (R456, R483). -/
def performWaiting : List Parked → State → State
  | [], s => s
  | p :: t, s =>
    performWaiting t
      (if qpHeld s p.tenant || !callReady s p then { s with obj := { s.obj with parked := s.obj.parked ++ [p] } }
       else performCall s p)

def pumpParked (s : State) : State :=
  performWaiting s.obj.parked { s with obj := { s.obj with parked := [] } }

/-- Firmware serves again, and performs in order what has waited. -/
def serveAgain (s : State) : State := pumpParked (modBoot s fun b => { b with serving := true })

/-! ### CONTROL_CLUSTER_RESTART_DONE -/

/-- The dump is complete and the control cluster works again. -/
def doClusterBack (s : State) : State :=
  let s := modErr (endDump s false) fun e => { e with clusterDown := none }
  serveAgain (endRecovery s .cluster)

def execControlClusterRestartDone (s : State) : Host.Outcome State Fault Refusal :=
  if s.err.clusterDown.isSome && alive s then .next (doClusterBack s) else .next s

/-! ### HANDOFF_RESUME and HANDOFF_WATCHDOG -/

/-- 1.5 ms have passed since the hand-off began, on the local timer (R423). -/
def handoffLate (s : State) : Bool := since s s.boot.fwu.handNow (usec 1500)

/-- The new image resumes from what the old one serialized, and is in probation. -/
def doHandoffResume (s : State) : State :=
  let s := modBoot s fun b => { b with image := (b.fwu.image <|> b.image) }
  let s := modFwu s fun u => { u with st := .probation, handing := false, last := (s.now - u.handNow) / 3600 % 65536 }
  serveAgain s

def execHandoffResume (s : State) : Host.Outcome State Fault Refusal :=
  if s.boot.fwu.handing && alive s && !handoffLate s then .next (doHandoffResume s) else .next s

/-- The new image has not served in time: the old one resumes. -/
def doHandoffExpired (s : State) : State :=
  let s := modFwu (revert s 7) fun u => { u with last := min 2000 ((s.now - s.boot.fwu.handNow) / 3600) }
  serveAgain s

def execHandoffWatchdog (s : State) : Host.Outcome State Fault Refusal :=
  if s.boot.fwu.handing && alive s && handoffLate s then .next (doHandoffExpired s) else .next s

end Sys2Proof.Machine
end

