-- ==== Sys2Proof/Machine/Dispatch.lean ====
section
/-! DEFINITION. One arm for each command: a direct call of its meaning.
Assumption log: DEDUCED 6. -/

namespace Sys2Proof.Machine

/-- What a command does to the module (everything but the queue of waiting commands). -/
def exec (i : Instr) (s : State) : Host.Outcome State Fault Refusal :=
  match i with
  | .illegalInstruction g word => Sys2Proof.Machine.execIllegalInstruction g word s
  | .addI g f => Sys2Proof.Machine.execAddI g f s
  | .subI g f => Sys2Proof.Machine.execSubI g f s
  | .mulI g f => Sys2Proof.Machine.execMulI g f s
  | .madI g f => Sys2Proof.Machine.execMadI g f s
  | .minI g f => Sys2Proof.Machine.execMinI g f s
  | .maxI g f => Sys2Proof.Machine.execMaxI g f s
  | .and g f => Sys2Proof.Machine.execAnd g f s
  | .or g f => Sys2Proof.Machine.execOr g f s
  | .xor g f => Sys2Proof.Machine.execXor g f s
  | .andn g f => Sys2Proof.Machine.execAndn g f s
  | .shl g f => Sys2Proof.Machine.execShl g f s
  | .shr g f => Sys2Proof.Machine.execShr g f s
  | .sar g f => Sys2Proof.Machine.execSar g f s
  | .ones g f => Sys2Proof.Machine.execOnes g f s
  | .bitrev g f => Sys2Proof.Machine.execBitrev g f s
  | .lzc g f => Sys2Proof.Machine.execLzc g f s
  | .addF g f => Sys2Proof.Machine.execAddF g f s
  | .subF g f => Sys2Proof.Machine.execSubF g f s
  | .mulF g f => Sys2Proof.Machine.execMulF g f s
  | .madF g f => Sys2Proof.Machine.execMadF g f s
  | .minF g f => Sys2Proof.Machine.execMinF g f s
  | .maxF g f => Sys2Proof.Machine.execMaxF g f s
  | .minnumF g f => Sys2Proof.Machine.execMinnumF g f s
  | .maxnumF g f => Sys2Proof.Machine.execMaxnumF g f s
  | .recip g f => Sys2Proof.Machine.execRecip g f s
  | .rsqrt g f => Sys2Proof.Machine.execRsqrt g f s
  | .exp2 g f => Sys2Proof.Machine.execExp2 g f s
  | .log2 g f => Sys2Proof.Machine.execLog2 g f s
  | .sin g f => Sys2Proof.Machine.execSin g f s
  | .cos g f => Sys2Proof.Machine.execCos g f s
  | .cmpEq g f => Sys2Proof.Machine.execCmpEq g f s
  | .cmpNe g f => Sys2Proof.Machine.execCmpNe g f s
  | .cmpLt g f => Sys2Proof.Machine.execCmpLt g f s
  | .cmpLe g f => Sys2Proof.Machine.execCmpLe g f s
  | .cmpGt g f => Sys2Proof.Machine.execCmpGt g f s
  | .cmpGe g f => Sys2Proof.Machine.execCmpGe g f s
  | .pick g f => Sys2Proof.Machine.execPick g f s
  | .pcombAnd g f => Sys2Proof.Machine.execPcombAnd g f s
  | .pcombOr g f => Sys2Proof.Machine.execPcombOr g f s
  | .pcombXor g f => Sys2Proof.Machine.execPcombXor g f s
  | .pcombAndn g f => Sys2Proof.Machine.execPcombAndn g f s
  | .pcombNot g f => Sys2Proof.Machine.execPcombNot g f s
  | .xlaneAt g f => Sys2Proof.Machine.execXlaneAt g f s
  | .xlaneUp g f => Sys2Proof.Machine.execXlaneUp g f s
  | .xlaneDn g f => Sys2Proof.Machine.execXlaneDn g f s
  | .xlaneFlip g f => Sys2Proof.Machine.execXlaneFlip g f s
  | .pmask g f => Sys2Proof.Machine.execPmask g f s
  | .gredAdd g f => Sys2Proof.Machine.execGredAdd g f s
  | .gredMin g f => Sys2Proof.Machine.execGredMin g f s
  | .gredMax g f => Sys2Proof.Machine.execGredMax g f s
  | .addS g f => Sys2Proof.Machine.execAddS g f s
  | .subS g f => Sys2Proof.Machine.execSubS g f s
  | .mulS g f => Sys2Proof.Machine.execMulS g f s
  | .shlS g f => Sys2Proof.Machine.execShlS g f s
  | .shrS g f => Sys2Proof.Machine.execShrS g f s
  | .sarS g f => Sys2Proof.Machine.execSarS g f s
  | .andS g f => Sys2Proof.Machine.execAndS g f s
  | .orS g f => Sys2Proof.Machine.execOrS g f s
  | .xorS g f => Sys2Proof.Machine.execXorS g f s
  | .movVs g f => Sys2Proof.Machine.execMovVs g f s
  | .movSv g f => Sys2Proof.Machine.execMovSv g f s
  | .cvt g src f => Sys2Proof.Machine.execCvt g src f s
  | .cvtBlkEnc g f => Sys2Proof.Machine.execCvtBlkEnc g f s
  | .cvtBlkDec g f => Sys2Proof.Machine.execCvtBlkDec g f s
  | .setmode g f => Sys2Proof.Machine.execSetmode g f s
  | .getmode g f => Sys2Proof.Machine.execGetmode g f s
  | .ld g f => Sys2Proof.Machine.execLd g f s
  | .st g f => Sys2Proof.Machine.execSt g f s
  | .prefetch g f => Sys2Proof.Machine.execPrefetch g f s
  | .ldsc g f => Sys2Proof.Machine.execLdsc g f s
  | .atomAddI32 g f => Sys2Proof.Machine.execAtomAddI32 g f s
  | .atomAddI64 g f => Sys2Proof.Machine.execAtomAddI64 g f s
  | .atomAddF32 g f => Sys2Proof.Machine.execAtomAddF32 g f s
  | .atomAddF16x2 g f => Sys2Proof.Machine.execAtomAddF16x2 g f s
  | .atomMinI32 g f => Sys2Proof.Machine.execAtomMinI32 g f s
  | .atomMaxI32 g f => Sys2Proof.Machine.execAtomMaxI32 g f s
  | .atomMinF32 g f => Sys2Proof.Machine.execAtomMinF32 g f s
  | .atomMaxF32 g f => Sys2Proof.Machine.execAtomMaxF32 g f s
  | .atomSwap32 g f => Sys2Proof.Machine.execAtomSwap32 g f s
  | .atomSwap64 g f => Sys2Proof.Machine.execAtomSwap64 g f s
  | .atomCas64 g f => Sys2Proof.Machine.execAtomCas64 g f s
  | .fence g f => Sys2Proof.Machine.execFence g f s
  | .bra g f => Sys2Proof.Machine.execBra g f s
  | .braAny g f => Sys2Proof.Machine.execBraAny g f s
  | .braAll g f => Sys2Proof.Machine.execBraAll g f s
  | .pushm g f => Sys2Proof.Machine.execPushm g f s
  | .elsem g f => Sys2Proof.Machine.execElsem g f s
  | .popm g f => Sys2Proof.Machine.execPopm g f s
  | .andm g f => Sys2Proof.Machine.execAndm g f s
  | .exit g f => Sys2Proof.Machine.execExit g f s
  | .serBegin g f => Sys2Proof.Machine.execSerBegin g f s
  | .serEnd g f => Sys2Proof.Machine.execSerEnd g f s
  | .call g f => Sys2Proof.Machine.execCall g f s
  | .ret g f => Sys2Proof.Machine.execRet g f s
  | .barArrive g f => Sys2Proof.Machine.execBarArrive g f s
  | .barWait g f => Sys2Proof.Machine.execBarWait g f s
  | .barSync g f => Sys2Proof.Machine.execBarSync g f s
  | .savept g f => Sys2Proof.Machine.execSavept g f s
  | .mxLdw g f => Sys2Proof.Machine.execMxLdw g f s
  | .mxLdwReorient g f => Sys2Proof.Machine.execMxLdwReorient g f s
  | .mxSwap g f => Sys2Proof.Machine.execMxSwap g f s
  | .mxStream g f => Sys2Proof.Machine.execMxStream g f s
  | .mxDrain g f => Sys2Proof.Machine.execMxDrain g f s
  | .mxWaitQ g f => Sys2Proof.Machine.execMxWaitQ g f s
  | .mxWaitG g f => Sys2Proof.Machine.execMxWaitG g f s
  | .branchPenaltyEnd g => Sys2Proof.Machine.execBranchPenaltyEnd g s
  | .loadDataReturn g load u => Sys2Proof.Machine.execLoadDataReturn g load u s
  | .atomReturn g atom => Sys2Proof.Machine.execAtomReturn g atom s
  | .fenceRelease g => Sys2Proof.Machine.execFenceRelease g s
  | .groupSlotFree g => Sys2Proof.Machine.execGroupSlotFree g s
  | .scratchAllocate core cmd => Sys2Proof.Machine.execScratchAllocate core cmd s
  | .groupLaunch core cmd => Sys2Proof.Machine.execGroupLaunch core cmd s
  | .scratchFree core cmd => Sys2Proof.Machine.execScratchFree core cmd s
  | .scratchAccessPromote core bank => Sys2Proof.Machine.execScratchAccessPromote core bank s
  | .ldwStart core => Sys2Proof.Machine.execLdwStart core s
  | .ldwComplete core u => Sys2Proof.Machine.execLdwComplete core u s
  | .swapMarkerEnter core => Sys2Proof.Machine.execSwapMarkerEnter core s
  | .swapComplete core => Sys2Proof.Machine.execSwapComplete core s
  | .streamStart core u => Sys2Proof.Machine.execStreamStart core u s
  | .accRowWrite core u => Sys2Proof.Machine.execAccRowWrite core u s
  | .streamComplete core => Sys2Proof.Machine.execStreamComplete core s
  | .arrayIdleTimeout core => Sys2Proof.Machine.execArrayIdleTimeout core s
  | .rampEnd core => Sys2Proof.Machine.execRampEnd core s
  | .waitQRelease core => Sys2Proof.Machine.execWaitQRelease core s
  | .drainDispatch core u => Sys2Proof.Machine.execDrainDispatch core u s
  | .drainRow core u => Sys2Proof.Machine.execDrainRow core u s
  | .drainComplete core => Sys2Proof.Machine.execDrainComplete core s
  | .mergeEntryTimeout core entry u => Sys2Proof.Machine.execMergeEntryTimeout core entry u s
  | .egressAccept core unit u => Sys2Proof.Machine.execEgressAccept core unit u s
  | .l1Fill core req data => Sys2Proof.Machine.execL1Fill core req data s
  | .l2Lookup req u => Sys2Proof.Machine.execL2Lookup req u s
  | .l2MbufTimeout slice line u => Sys2Proof.Machine.execL2MbufTimeout slice line u s
  | .cacheDisable tenant u => Sys2Proof.Machine.execCacheDisable tenant u s
  | .cacheDrainEnd u => Sys2Proof.Machine.execCacheDrainEnd u s
  | .cacheInvalidate tenant u => Sys2Proof.Machine.execCacheInvalidate tenant u s
  | .cacheInvalidateDone u => Sys2Proof.Machine.execCacheInvalidateDone u s
  | .cacheEnable tenant u => Sys2Proof.Machine.execCacheEnable tenant u s
  | .l2cKeepClear tenant slice value => Sys2Proof.Machine.execL2cKeepClear tenant slice value s
  | .moverDispatch core => Sys2Proof.Machine.execMoverDispatch core s
  | .moverTileAccepted core mover u => Sys2Proof.Machine.execMoverTileAccepted core mover u s
  | .pairAcquire cmd h => Sys2Proof.Machine.execPairAcquire cmd h s
  | .frameCopyDone pair outs => Sys2Proof.Machine.execFrameCopyDone pair outs s
  | .commitPoint cmd => Sys2Proof.Machine.execCommitPoint cmd s
  | .commitAck h => Sys2Proof.Machine.execCommitAck h s
  | .commitAckTimeout tag node => Sys2Proof.Machine.execCommitAckTimeout tag node s
  | .commitRecordExpire tag node => Sys2Proof.Machine.execCommitRecordExpire tag node s
  | .heldPairExpire node => Sys2Proof.Machine.execHeldPairExpire node s
  | .gangMemberReady cmd => Sys2Proof.Machine.execGangMemberReady cmd s
  | .gangWaitExpire gang => Sys2Proof.Machine.execGangWaitExpire gang s
  | .gangMemoryExpire gang => Sys2Proof.Machine.execGangMemoryExpire gang s
  | .descriptorReadReturn queue data => Sys2Proof.Machine.execDescriptorReadReturn queue data s
  | .doorbell tenant addr len tail cqHead => Sys2Proof.Machine.execDoorbell tenant addr len tail cqHead s
  | .descriptorTake queue => Sys2Proof.Machine.execDescriptorTake queue s
  | .pretranslateDone cmd => Sys2Proof.Machine.execPretranslateDone cmd s
  | .dispatch partition => Sys2Proof.Machine.execDispatch partition s
  | .walkEntryReturn walk entry => Sys2Proof.Machine.execWalkEntryReturn walk entry s
  | .walkTimeout walk => Sys2Proof.Machine.execWalkTimeout walk s
  | .faultRecordPost => Sys2Proof.Machine.execFaultRecordPost s
  | .xltFringHeadWrite tenant value => Sys2Proof.Machine.execXltFringHeadWrite tenant value s
  | .xltFresp tenant value => Sys2Proof.Machine.execXltFresp tenant value s
  | .faultSvcTimeout seq => Sys2Proof.Machine.execFaultSvcTimeout seq s
  | .xltIringDb tenant value => Sys2Proof.Machine.execXltIringDb tenant value s
  | .invalidationEntry e => Sys2Proof.Machine.execInvalidationEntry e s
  | .xltIringDone => Sys2Proof.Machine.execXltIringDone s
  | .xltFmtWrite tenant value => Sys2Proof.Machine.execXltFmtWrite tenant value s
  | .channelAccess stack channel o => Sys2Proof.Machine.execChannelAccess stack channel o s
  | .reducerRequest stack channel o => Sys2Proof.Machine.execReducerRequest stack channel o s
  | .reductionResult req => Sys2Proof.Machine.execReductionResult req s
  | .l2Atomic op addr opnd cmp ecc => Sys2Proof.Machine.execL2Atomic op addr opnd cmp ecc s
  | .hbmTemperatureRead stack temp => Sys2Proof.Machine.execHbmTemperatureRead stack temp s
  | .spareSwitchStart stack channel lane => Sys2Proof.Machine.execSpareSwitchStart stack channel lane s
  | .spareSwitchDone stack channel => Sys2Proof.Machine.execSpareSwitchDone stack channel s
  | .channelResetDone stack channel ok lane => Sys2Proof.Machine.execChannelResetDone stack channel ok lane s
  | .patrolScrub stack ecc => Sys2Proof.Machine.execPatrolScrub stack ecc s
  | .topoLoad tenant value => Sys2Proof.Machine.execTopoLoad tenant value s
  | .topoLoadDone image => Sys2Proof.Machine.execTopoLoadDone image s
  | .peerVerified node ok => Sys2Proof.Machine.execPeerVerified node ok s
  | .ack h => Sys2Proof.Machine.execAck h s
  | .nak h => Sys2Proof.Machine.execNak h s
  | .heartbeat h => Sys2Proof.Machine.execHeartbeat h s
  | .timeRequest h seq t1 creq => Sys2Proof.Machine.execTimeRequest h seq t1 creq s
  | .timeResponse h state seq t2 t3 creq crsp => Sys2Proof.Machine.execTimeResponse h state seq t2 t3 creq crsp s
  | .write h data => Sys2Proof.Machine.execWrite h data s
  | .writeMasked h mask data => Sys2Proof.Machine.execWriteMasked h mask data s
  | .reduce h data => Sys2Proof.Machine.execReduce h data s
  | .atomic h entries => Sys2Proof.Machine.execAtomic h entries s
  | .read h => Sys2Proof.Machine.execRead h s
  | .readResp h data => Sys2Proof.Machine.execReadResp h data s
  | .atomicResp h olds => Sys2Proof.Machine.execAtomicResp h olds s
  | .refused h => Sys2Proof.Machine.execRefused h s
  | .reservedBlockType h typ => Sys2Proof.Machine.execReservedBlockType h typ s
  | .announcement h a => Sys2Proof.Machine.execAnnouncement h a s
  | .reset h => Sys2Proof.Machine.execReset h s
  | .rejoin h announceHash topoHash => Sys2Proof.Machine.execRejoin h announceHash topoHash s
  | .rejoinAck h discarded => Sys2Proof.Machine.execRejoinAck h discarded s
  | .rejoinEnd h => Sys2Proof.Machine.execRejoinEnd h s
  | .reroute h => Sys2Proof.Machine.execReroute h s
  | .claim h c => Sys2Proof.Machine.execClaim h c s
  | .commit h lastPsn => Sys2Proof.Machine.execCommit h lastPsn s
  | .discard h lastPsn => Sys2Proof.Machine.execDiscard h lastPsn s
  | .mapRequest h tenant ctx handle offset length kind w => Sys2Proof.Machine.execMapRequest h tenant ctx handle offset length kind w s
  | .mapAnswer h grant => Sys2Proof.Machine.execMapAnswer h grant s
  | .mapRelease h ctx handle => Sys2Proof.Machine.execMapRelease h ctx handle s
  | .gangArrived h gang members leader wait claims chans => Sys2Proof.Machine.execGangArrived h gang members leader wait claims chans s
  | .gangStart h gang chans => Sys2Proof.Machine.execGangStart h gang chans s
  | .gangReady h gang => Sys2Proof.Machine.execGangReady h gang s
  | .gangGo h gang => Sys2Proof.Machine.execGangGo h gang s
  | .ackTimer node => Sys2Proof.Machine.execAckTimer node s
  | .resendTimer node ctl => Sys2Proof.Machine.execResendTimer node ctl s
  | .heartbeatTimer node => Sys2Proof.Machine.execHeartbeatTimer node s
  | .peerSilenceTimeout node => Sys2Proof.Machine.execPeerSilenceTimeout node s
  | .pathSilenceTimeout node => Sys2Proof.Machine.execPathSilenceTimeout node s
  | .requestDeadline node req => Sys2Proof.Machine.execRequestDeadline node req s
  | .pairIdleTimeout node => Sys2Proof.Machine.execPairIdleTimeout node s
  | .rerouteDrainEnd node => Sys2Proof.Machine.execRerouteDrainEnd node s
  | .primaryReturn node => Sys2Proof.Machine.execPrimaryReturn node s
  | .peerRejoinTimeout cmd => Sys2Proof.Machine.execPeerRejoinTimeout cmd s
  | .portLinkDown port => Sys2Proof.Machine.execPortLinkDown port s
  | .portTrained port lanes => Sys2Proof.Machine.execPortTrained port lanes s
  | .timeRequestTimer => Sys2Proof.Machine.execTimeRequestTimer s
  | .timeExchangeTimeout => Sys2Proof.Machine.execTimeExchangeTimeout s
  | .sourceTimeout => Sys2Proof.Machine.execSourceTimeout s
  | .holdoverLimit => Sys2Proof.Machine.execHoldoverLimit s
  | .ptpAnnounce a => Sys2Proof.Machine.execPtpAnnounce a s
  | .ptpSync offset => Sys2Proof.Machine.execPtpSync offset s
  | .gmWaitExpire => Sys2Proof.Machine.execGmWaitExpire s
  | .gmLost => Sys2Proof.Machine.execGmLost s
  | .ftmNowRead tenant => Sys2Proof.Machine.execFtmNowRead tenant s
  | .calendarInstall tenant value => Sys2Proof.Machine.execCalendarInstall tenant value s
  | .calendarLoadDone image => Sys2Proof.Machine.execCalendarLoadDone image s
  | .calendarSwitch => Sys2Proof.Machine.execCalendarSwitch s
  | .slotStart port => Sys2Proof.Machine.execSlotStart port s
  | .accountingSnapshot => Sys2Proof.Machine.execAccountingSnapshot s
  | .notBeforeRelease cmd => Sys2Proof.Machine.execNotBeforeRelease cmd s
  | .seqStepRelease templates => Sys2Proof.Machine.execSeqStepRelease templates s
  | .seqStepEnd model results => Sys2Proof.Machine.execSeqStepEnd model results s
  | .seqAdmit queue => Sys2Proof.Machine.execSeqAdmit queue s
  | .pause queue => Sys2Proof.Machine.execPause queue s
  | .resume queue => Sys2Proof.Machine.execResume queue s
  | .release queue => Sys2Proof.Machine.execRelease queue s
  | .seqModelEnable tenant value templates => Sys2Proof.Machine.execSeqModelEnable tenant value templates s
  | .preempt victim waiting => Sys2Proof.Machine.execPreempt victim waiting s
  | .sliceExpire cmd => Sys2Proof.Machine.execSliceExpire cmd s
  | .contextSaveDone cmd => Sys2Proof.Machine.execContextSaveDone cmd s
  | .markedFullFallback cmd => Sys2Proof.Machine.execMarkedFullFallback cmd s
  | .markTimeout cmd => Sys2Proof.Machine.execMarkTimeout cmd s
  | .contextRestore cmd cores => Sys2Proof.Machine.execContextRestore cmd cores s
  | .schSavepoolWrite tenant value => Sys2Proof.Machine.execSchSavepoolWrite tenant value s
  | .energyCalibration meter unattr shares => Sys2Proof.Machine.execEnergyCalibration meter unattr shares s
  | .bridleEvaluation sense => Sys2Proof.Machine.execBridleEvaluation sense s
  | .fastLimiter sense => Sys2Proof.Machine.execFastLimiter sense s
  | .thermalCritical core temp => Sys2Proof.Machine.execThermalCritical core temp s
  | .memThermalCeilingStep => Sys2Proof.Machine.execMemThermalCeilingStep s
  | .governorPreramp instant domains => Sys2Proof.Machine.execGovernorPreramp instant domains s
  | .prerampHoldEnd => Sys2Proof.Machine.execPrerampHoldEnd s
  | .idleLowering domain => Sys2Proof.Machine.execIdleLowering domain s
  | .cmReq tenant srcIp key => Sys2Proof.Machine.execCmReq tenant srcIp key s
  | .cmDreq tenant => Sys2Proof.Machine.execCmDreq tenant s
  | .connectionGraceExpire tenant => Sys2Proof.Machine.execConnectionGraceExpire tenant s
  | .registerWrite tenant addr size value => Sys2Proof.Machine.execRegisterWrite tenant addr size value s
  | .pgApply tenant page => Sys2Proof.Machine.execPgApply tenant page s
  | .pgHalt tenant page on => Sys2Proof.Machine.execPgHalt tenant page on s
  | .haltReached page => Sys2Proof.Machine.execHaltReached page s
  | .pgResetReq tenant page => Sys2Proof.Machine.execPgResetReq tenant page s
  | .pgEnable tenant page on => Sys2Proof.Machine.execPgEnable tenant page on s
  | .coreMstkHwmWrite tenant core value => Sys2Proof.Machine.execCoreMstkHwmWrite tenant core value s
  | .coreFaultInfoClear tenant core value => Sys2Proof.Machine.execCoreFaultInfoClear tenant core value s
  | .hptMgmtipWrite tenant value => Sys2Proof.Machine.execHptMgmtipWrite tenant value s
  | .hptIpv4Write tenant value => Sys2Proof.Machine.execHptIpv4Write tenant value s
  | .emuAccessTimeout access => Sys2Proof.Machine.execEmuAccessTimeout access s
  | .createTenant r tenant key quota mirror grace => Sys2Proof.Machine.execCreateTenant r tenant key quota mirror grace s
  | .destroyTenant r tenant => Sys2Proof.Machine.execDestroyTenant r tenant s
  | .createContext r hostRoot => Sys2Proof.Machine.execCreateContext r hostRoot s
  | .teardownContext r ctx => Sys2Proof.Machine.execTeardownContext r ctx s
  | .teardownFinish ctx => Sys2Proof.Machine.execTeardownFinish ctx s
  | .createQueue r ctx cls log2Slots log2Cq ring cq => Sys2Proof.Machine.execCreateQueue r ctx cls log2Slots log2Cq ring cq s
  | .destroyQueue r queue => Sys2Proof.Machine.execDestroyQueue r queue s
  | .queueFree queue => Sys2Proof.Machine.execQueueFree queue s
  | .createFence r ctx mirror initial => Sys2Proof.Machine.execCreateFence r ctx mirror initial s
  | .destroyFence r fence => Sys2Proof.Machine.execDestroyFence r fence s
  | .fenceSlotFree fence => Sys2Proof.Machine.execFenceSlotFree fence s
  | .signalFence r fence value => Sys2Proof.Machine.execSignalFence r fence value s
  | .poisonFence r fence code => Sys2Proof.Machine.execPoisonFence r fence code s
  | .shareFence r fence tenant => Sys2Proof.Machine.execShareFence r fence tenant s
  | .createObject r kind size => Sys2Proof.Machine.execCreateObject r kind size s
  | .mapObject r handle ctx w nx va offset length => Sys2Proof.Machine.execMapObject r handle ctx w nx va offset length s
  | .unmap r ctx va length => Sys2Proof.Machine.execUnmap r ctx va length s
  | .unmapTakesEffect ctx va => Sys2Proof.Machine.execUnmapTakesEffect ctx va s
  | .mapRemote r ctx node kind w nx va remote length offset => Sys2Proof.Machine.execMapRemote r ctx node kind w nx va remote length offset s
  | .mapRemoteTimeout node => Sys2Proof.Machine.execMapRemoteTimeout node s
  | .shareObject r handle tenant => Sys2Proof.Machine.execShareObject r handle tenant s
  | .refcountRead tenant index count => Sys2Proof.Machine.execRefcountRead tenant index count s
  | .refcountFetchAdd tenant index add => Sys2Proof.Machine.execRefcountFetchAdd tenant index add s
  | .refcountCas tenant index => Sys2Proof.Machine.execRefcountCas tenant index s
  | .refcountWrite tenant index => Sys2Proof.Machine.execRefcountWrite tenant index s
  | .objectRdmaRead tenant handle offset length => Sys2Proof.Machine.execObjectRdmaRead tenant handle offset length s
  | .objectRdmaWrite tenant handle offset data => Sys2Proof.Machine.execObjectRdmaWrite tenant handle offset data s
  | .objectRdmaAtomic tenant handle offset cas opnd cmp => Sys2Proof.Machine.execObjectRdmaAtomic tenant handle offset cas opnd cmp s
  | .reclaimDone handle => Sys2Proof.Machine.execReclaimDone handle s
  | .hostRdmaAck id ok old => Sys2Proof.Machine.execHostRdmaAck id ok old s
  | .coldBoot => Sys2Proof.Machine.execColdBoot s
  | .railSequenceTimeout rail => Sys2Proof.Machine.execRailSequenceTimeout rail s
  | .bootRomStart pufOk => Sys2Proof.Machine.execBootRomStart pufOk s
  | .bootWindowRing image => Sys2Proof.Machine.execBootWindowRing image s
  | .firmwareStart coresFailed stacksFailed lanes randomOk sramOk epoch idHash => Sys2Proof.Machine.execFirmwareStart coresFailed stacksFailed lanes randomOk sramOk epoch idHash s
  | .attestationGo tenant value => Sys2Proof.Machine.execAttestationGo tenant value s
  | .attestationSigned ok => Sys2Proof.Machine.execAttestationSigned ok s
  | .fwuStage tenant value => Sys2Proof.Machine.execFwuStage tenant value s
  | .fwuFetchDone image => Sys2Proof.Machine.execFwuFetchDone image s
  | .fwuVerifyDone => Sys2Proof.Machine.execFwuVerifyDone s
  | .fwuCommit tenant value => Sys2Proof.Machine.execFwuCommit tenant value s
  | .fwuCancel tenant value => Sys2Proof.Machine.execFwuCancel tenant value s
  | .fwuFlash tenant value => Sys2Proof.Machine.execFwuFlash tenant value s
  | .fwuDesc tenant value desc => Sys2Proof.Machine.execFwuDesc tenant value desc s
  | .firmwareHandoff => Sys2Proof.Machine.execFirmwareHandoff s
  | .handoffResume => Sys2Proof.Machine.execHandoffResume s
  | .handoffWatchdog => Sys2Proof.Machine.execHandoffWatchdog s
  | .handoffOk => Sys2Proof.Machine.execHandoffOk s
  | .handoffRejected => Sys2Proof.Machine.execHandoffRejected s
  | .probationTimeout => Sys2Proof.Machine.execProbationTimeout s
  | .flashWriteDone ok => Sys2Proof.Machine.execFlashWriteDone ok s
  | .errHeadWrite tenant value => Sys2Proof.Machine.execErrHeadWrite tenant value s
  | .errWarmreq tenant value => Sys2Proof.Machine.execErrWarmreq tenant value s
  | .recoveryStart => Sys2Proof.Machine.execRecoveryStart s
  | .recoveryTimeout => Sys2Proof.Machine.execRecoveryTimeout s
  | .jackCheck => Sys2Proof.Machine.execJackCheck s
  | .dumpReadTimeout unit => Sys2Proof.Machine.execDumpReadTimeout unit s
  | .dumpTimeout => Sys2Proof.Machine.execDumpTimeout s
  | .coreReset core code => Sys2Proof.Machine.execCoreReset core code s
  | .suspectReplay => Sys2Proof.Machine.execSuspectReplay s
  | .dumpCopy => Sys2Proof.Machine.execDumpCopy s
  | .portReset port => Sys2Proof.Machine.execPortReset port s
  | .controlClusterRestart => Sys2Proof.Machine.execControlClusterRestart s
  | .warmReset => Sys2Proof.Machine.execWarmReset s
  | .warmRestart coresFailed => Sys2Proof.Machine.execWarmRestart coresFailed s
  | .powerOff => Sys2Proof.Machine.execPowerOff s
  | .inputMarginal mv => Sys2Proof.Machine.execInputMarginal mv s
  | .brownoutShutdown mv => Sys2Proof.Machine.execBrownoutShutdown mv s
  | .overvoltageShutdown mv => Sys2Proof.Machine.execOvervoltageShutdown mv s
  | .overcurrentShutdown ma => Sys2Proof.Machine.execOvercurrentShutdown ma s
  | .vauxLoss mv => Sys2Proof.Machine.execVauxLoss mv s
  | .thermalTrip core stack vr outlet => Sys2Proof.Machine.execThermalTrip core stack vr outlet s
  | .status => Sys2Proof.Machine.execStatus s
  | .vin => Sys2Proof.Machine.execVin s
  | .iin => Sys2Proof.Machine.execIin s
  | .pin => Sys2Proof.Machine.execPin s
  | .pinPeak => Sys2Proof.Machine.execPinPeak s
  | .ein => Sys2Proof.Machine.execEin s
  | .tCore => Sys2Proof.Machine.execTCore s
  | .tHbm => Sys2Proof.Machine.execTHbm s
  | .tVr => Sys2Proof.Machine.execTVr s
  | .inlet => Sys2Proof.Machine.execInlet s
  | .outlet => Sys2Proof.Machine.execOutlet s
  | .bootstat => Sys2Proof.Machine.execBootstat s
  | .part => Sys2Proof.Machine.execPart s
  | .smbWarmReset value => Sys2Proof.Machine.execSmbWarmReset value s
  | .clearAlert value => Sys2Proof.Machine.execClearAlert value s
  | .alertResponse => Sys2Proof.Machine.execAlertResponse s
  | .awlTrigger sample => Sys2Proof.Machine.execAwlTrigger sample s
  | .pmcClear tenant page => Sys2Proof.Machine.execPmcClear tenant page s
  | .jtagInstruction code => Sys2Proof.Machine.execJtagInstruction code s
  | .frameSend port => Sys2Proof.Machine.execFrameSend port s
  | .blockCrcFail port rest => Sys2Proof.Machine.execBlockCrcFail port rest s
  | .discardAck h => Sys2Proof.Machine.execDiscardAck h s
  | .gangEnd h gang code => Sys2Proof.Machine.execGangEnd h gang code s
  | .controlClusterRestartDone => Sys2Proof.Machine.execControlClusterRestartDone s
  | .coreResetDone core => Sys2Proof.Machine.execCoreResetDone core s
  | .hostPortLinkDown => Sys2Proof.Machine.execHostPortLinkDown s
  | .hostPortRetrain ok => Sys2Proof.Machine.execHostPortRetrain ok s
  | .operandReady g u => Sys2Proof.Machine.execOperandReady g u s
  | .dutyPeriod domain => Sys2Proof.Machine.execDutyPeriod domain s
  | .pwrgdHoldoffExpire => Sys2Proof.Machine.execPwrgdHoldoffExpire s
  | .trstN low => Sys2Proof.Machine.execTrstN low s
  | .requestBadOp r op => Sys2Proof.Machine.execRequestBadOp r op s

end Sys2Proof.Machine
end

