-- ==== Sys2Proof/Machine/Tick.lean ====
section
/-! DEFINITION. A cycle of the 3.6 GHz clock: what passes by itself. Every event that a cycle brings is a command; here are the
clocks and the counts of time (R15, R18, R420, R518, R540, R552, R553, R618, R655, R658, R661).
Assumption log: DESIGN CHOICE 2; DEDUCED 26, 79, 80, 91. -/

namespace Sys2Proof.Machine

/-! ### Clocks (R15, R552, R553, R560) -/

/-- A domain's clock over a cycle of 3.6 GHz: a stopped or gated clock does not advance, under the fast limiter it skips
every second cycle. -/
def Dom.tick (x : Dom) : Dom :=
  if x.stopped ∨ x.mhz = 0 then x
  else
    let f := x.frac + if x.fast then x.mhz else 2 * x.mhz
    if f < 7200 then { x with frac := f } else { x with frac := f - 7200, cyc := x.cyc + 1 }

/-- A core's domain clock completes a cycle in this cycle of 3.6 GHz. -/
def coreTicks (s : State) (c : Nat) : Bool :=
  match mget s.bdl.doms (c / 12) with
  | some d => decide (d.cyc < d.tick.cyc)
  | none => false

/-- Cycles that the fast limiter skips. -/
def skipped (s : State) : Nat := (s.bdl.doms.filter fun e => e.2.fast && decide (e.2.cyc < e.2.tick.cyc)).length

/-- Idleness counts from the last cycle with work; a domain that holds work again is no longer idle (R558). -/
def tickDom (s : State) (e : Nat × Dom) : Nat × Dom :=
  (e.1, if domBusy s e.1 then { e.2.tick with busyAt := s.now, idle := false } else e.2.tick)

def tickDoms (s : State) : State :=
  let s' := if skipped s = 0 then s else pmcEvent s pgBDL 0x0103 (skipped s) none
  { s' with bdl := { s'.bdl with doms := s.bdl.doms.map (tickDom s) } }

/-- FT over a cycle (R420, R424). -/
def tickFt (s : State) : State :=
  if s.ftm.running then
    { s with ftm := { s.ftm with q := s.ftm.q + (5 * 65536 * (1000000000000 + s.ftm.rate)).toNat } }
  else s

/-! ### Groups that wait for their turn (R18) -/

/-- The group has issued in the current cycle of its core. -/
def issuedNow (s : State) (core : Nat) (g : Group) : Bool := g.lastIssue == coreCyc s core + 1

/-- The end of a core's cycle for a group: it goes on waiting, or does not wait. -/
def tickGroup (s : State) (core slot : Nat) (g : Group) : Group :=
  if !issuedNow s core g && eligible s core slot g then { g with eligAt := some (g.eligAt.getD (coreCyc s core)) }
  else { g with eligAt := none }

def tickCore (s : State) (core : Nat) (k : CoreSt) : CoreSt :=
  if coreTicks s core then { k with groups := k.groups.map fun e => (e.1, tickGroup s core e.1 e.2) } else k

def tickGroups (s : State) : State :=
  { s with cores := s.cores.map fun e => (e.1, tickCore s e.1 e.2) }

/-- A cycle of the core had no eligible group (R661). -/
def noneEligible (s : State) (core : Nat) (k : CoreSt) : Bool :=
  coreTicks s core && !k.groups.any fun e => issuedNow s core e.2 || eligible s core e.1 e.2

/-! ### Counted time (R518, R540, R661) -/

/-- 5 · 144,403,552,893,600 units of `Acct.coreNs` are a cycle. -/
def cycleUnits : Nat := 722017764468000

/-- Core-time of a tenant in a class (R518), kept by millisecond for 100 ms. -/
def addCoreTime (s : State) (tenant cls n : Nat) : State :=
  let ms := s.now / msec 1
  let old := ((aget s.sch.coreTime (tenant, cls)).getD []).filter fun e => decide (ms < e.1 + 100)
  let new := match old with
    | (m, k) :: t => if m = ms then (m, k + n) :: t else (ms, n) :: (m, k) :: t
    | [] => [(ms, n)]
  { s with sch := { s.sch with coreTime := aset s.sch.coreTime (tenant, cls) new } }

/-- The share of a command resident on a core. -/
def chargeCore (n : Nat) (s : State) (cmd : Nat) : State :=
  match cmdOf s cmd with
  | some c => addCoreTime (modAcct s c.tenant fun a => { a with coreNs := a.coreNs + n }) c.tenant c.cls n
  | none => s

/-- The array holds stream rows or runs an LDW or a DRAIN (R540). -/
def arrayWorks (a : ArrayState) : Bool :=
  a.load.isSome || !a.streams.isEmpty || a.drain.any fun d => d.start.isSome

def chargeArray (s : State) (a : ArrayState) : State :=
  match if arrayWorks a then a.cmd.bind (cmdOf s) else none with
  | some c => modAcct s c.tenant fun x => { x with arrayNs := x.arrayNs + 5 }
  | none => s

def chargeTime (s : State) (e : Nat × CoreSt) : State :=
  let cmds := (e.2.groups.map fun g => g.2.cmd).eraseDups
  chargeArray (cmds.foldl (chargeCore (cycleUnits / cmds.length)) s) e.2.arr

/-- Pages whose counters run. -/
def runningPages (s : State) : List Nat :=
  (s.regs.filter fun e => e.1 % 4096 == 0xF00 && decide (e.1 < 0x400000) && e.2.getLsbD 0).map fun e => e.1 - 0xF00

/-- Cycles of a block's own clock in this cycle of 3.6 GHz (R15). -/
def blockCycles (s : State) (page : Nat) : Nat :=
  if isCorePage page then (if coreTicks s (pageCore page) then 1 else 0)
  else if isStackPage page && (page / 4096) % 2 == 1 then (s.now + 1) * 4 / 9 - s.now * 4 / 9
  else 1

/-- FT microseconds that a cycle completes. -/
def ftMicros (s : State) : Nat := (tickFt s).ftm.q / (1000 * ftUnit) - s.ftm.q / (1000 * ftUnit)

/-- A core's cycle without an eligible group counts on its CORE page. -/
def countIdle (s : State) (page : Nat) : State :=
  if isCorePage page && page == pgCORE (pageCore page) && noneEligible s (pageCore page) ((mget s.cores (pageCore page)).getD .fresh)
  then pmcEvent s page 0x0101 1 none else s

def countPage (s : State) (page : Nat) : State :=
  pmcEvent (pmcEvent (countIdle s page) page 0x0001 (blockCycles s page) none) page 0x0002 (ftMicros s) none

/-! ### Jack's time (R617, R618) -/

/-- Time that does not count toward a core's limit: its clock is stopped, it is being saved, every resident group is parked
for a host fault. -/
def corePaused (s : State) (core : Nat) (k : CoreSt) : Bool :=
  !clockRuns s core
    || (s.cmds.any fun e => e.2.cores.contains core && match e.2.phase with
          | .saving _ => true
          | _ => false)
    || (!k.groups.isEmpty && k.groups.all fun e => match e.2.wait with
          | .parked _ => true
          | _ => false)

def jackCore (s : State) (e : Nat × CoreSt) : Nat × CoreSt :=
  match e.2.workSince with
  | some t => if corePaused s e.1 e.2 then (e.1, { e.2 with workSince := some (max t e.2.lastDone + 1) }) else e
  | none => e

/-- A port works while it has a frame that it may send now. -/
def jackPort (s : State) (e : Nat × Port) : Nat × Port :=
  (e.1, { e.2 with workSince := if (planFrame s e.1).isSome then (e.2.workSince <|> some s.now) else none })

/-- Items are queued at the intake, the dispatcher, the commit unit, the sequence engine. -/
def unitBusy (s : State) (u : Nat) : Bool :=
  if u = 0 then s.obj.queues.any fun e => takeReady s e.1
  else if u = 1 then dispatcherRuns s && (List.range 16).any fun p => (nextHead s p).isSome
  else if u = 2 then s.cmds.any fun e => endedNormally s e.1
  else (stepDue s).isSome

def jackUnit (s : State) (m : NMap Nat) (u : Nat) : NMap Nat :=
  if unitBusy s u then (if (mget m u).isSome then m else mset m u s.now) else mdel m u

def tickJack (s : State) : State :=
  let cores := s.cores.map (jackCore s)
  let ports := s.fab.ports.map (jackPort s)
  let units := (List.range 4).foldl (jackUnit s) s.err.unitSince
  modErr { s with cores, fab := { s.fab with ports } } fun e => { e with unitSince := units }

/-! ### The cycle -/

/-- The parts of a cycle that a powered module has, each over the state before the clocks move. -/
def poweredTick (s : State) : State :=
  let s := trigEnd (pinEdge s)
  let s := tickJack (s.cores.foldl chargeTime s)
  let s := (runningPages s).foldl countPage s
  let s := if alive s then pumpMovers (pumpTranslate 256 s) else s
  let s := if s.obj.parked.isEmpty then s else pumpParked s
  tickFt (tickDoms (tickGroups s))

/-- One cycle of the 3.6 GHz clock. -/
def tick (s : State) : State :=
  let s' := if s.mon.pwrok then poweredTick s else s
  { s' with now := s.now + 1 }

end Sys2Proof.Machine
end

