-- ==== Sys2Proof/WellFormed.lean ====
section
/-! DEFINITION. Which commands are well formed: units that exist, identifiers within their fields, lane instructions with a
legal encoding for some kernel (R66). -/

namespace Sys2Proof

/-- The unit numbers of R1, R17, R62, R349, R401, R549. -/
def coreOk (c : Nat) : Bool := decide (c < 192)
def groupOk (g : GroupRef) : Bool := decide (g.core < 192 ∧ g.slot < 256)
def portOk (p : Nat) : Bool := decide (p < 16)
def stackOk (n : Nat) : Bool := decide (n < 16)
def channelOk (n : Nat) : Bool := decide (n < 32)
def domainOk (d : Nat) : Bool := decide (d < 16)

/-- Nodes, tenants, contexts, queues, commit tags and error codes are 16 bits (R386, R395, R484, R605). -/
def idOk (n : Nat) : Bool := decide (n < 65536)

/-- A handle: index in [21:0], generation in [47:32] (R484). -/
def handleOk (h : Nat) : Bool := decide (h < 2 ^ 48 ∧ h / 2 ^ 22 % 2 ^ 10 = 0)

/-- A register page has its place in the window (R457). -/
def pageOk (p : Nat) : Bool := decide (p % 4096 = 0) && Machine.pgId p != 0

def cacheOk : CacheUnit → Bool
  | .l1 c => coreOk c
  | .l2 n => stackOk n

/-- The fields of a block's header (R395). -/
def hdrOk (h : BlockHdr) : Bool :=
  portOk h.port && h.cls != 3#2 && idOk h.src && idOk h.dst && decide (h.session < 16 ∧ h.epoch < 4096)
    && decide (h.psn < 2 ^ 32 ∧ h.ack < 2 ^ 32 ∧ h.addr < 2 ^ 48 ∧ h.len ≤ 256)
    && idOk h.tag && idOk h.req && idOk h.arg && idOk h.credit

def claimReqOk (c : ClaimReq) : Bool := idOk c.owner && idOk c.tag && decide (c.pair < 2 ^ 32)

/-- An access fails five times at most (R362); a lane is one of 64. -/
def outcomeOk (o : HbmOutcome) : Bool := decide (o.failed ≤ 5 ∧ o.lane < 64)

/-- One value for each domain. -/
def senseShape (b : BridleSense) : Bool := decide (b.current.length = 16 ∧ b.temp.length = 16 ∧ b.load.length = 16)

/-- The command is well formed. -/
def wellFormed (i : Instr) : Bool :=
  match i with
  | .illegalInstruction g _ | .branchPenaltyEnd g | .loadDataReturn g _ _ | .atomReturn g _ | .fenceRelease g
  | .groupSlotFree g | .operandReady g _ =>
    groupOk g
  | .addI g _ | .subI g _ | .mulI g _ | .madI g _ | .minI g _ | .maxI g _ | .and g _ | .or g _ | .xor g _ | .andn g _
  | .shl g _ | .shr g _ | .sar g _ | .ones g _ | .bitrev g _ | .lzc g _ | .addF g _ | .subF g _ | .mulF g _
  | .madF g _ | .minF g _ | .maxF g _ | .minnumF g _ | .maxnumF g _ | .recip g _ | .rsqrt g _ | .exp2 g _ | .log2 g _
  | .sin g _ | .cos g _ | .cmpEq g _ | .cmpNe g _ | .cmpLt g _ | .cmpLe g _ | .cmpGt g _ | .cmpGe g _ | .pick g _
  | .pcombAnd g _ | .pcombOr g _ | .pcombXor g _ | .pcombAndn g _ | .pcombNot g _ | .xlaneAt g _ | .xlaneUp g _
  | .xlaneDn g _ | .xlaneFlip g _ | .pmask g _ | .gredAdd g _ | .gredMin g _ | .gredMax g _ | .addS g _ | .subS g _
  | .mulS g _ | .shlS g _ | .shrS g _ | .sarS g _ | .andS g _ | .orS g _ | .xorS g _ | .movVs g _ | .movSv g _
  | .cvt g _ _ | .cvtBlkEnc g _ | .cvtBlkDec g _ | .setmode g _ | .getmode g _ | .ld g _ | .st g _ | .prefetch g _
  | .ldsc g _ | .atomAddI32 g _ | .atomAddI64 g _ | .atomAddF32 g _ | .atomAddF16x2 g _ | .atomMinI32 g _
  | .atomMaxI32 g _ | .atomMinF32 g _ | .atomMaxF32 g _ | .atomSwap32 g _ | .atomSwap64 g _ | .atomCas64 g _
  | .fence g _ | .bra g _ | .braAny g _ | .braAll g _ | .pushm g _ | .elsem g _ | .popm g _ | .andm g _ | .exit g _
  | .serBegin g _ | .serEnd g _ | .call g _ | .ret g _ | .barArrive g _ | .barWait g _ | .barSync g _ | .savept g _
  | .mxLdw g _ | .mxLdwReorient g _ | .mxSwap g _ | .mxStream g _ | .mxDrain g _ | .mxWaitQ g _ | .mxWaitG g _ =>
    groupOk g && Machine.legalInstr 255 i
  | .scratchAllocate core _ | .groupLaunch core _ | .scratchFree core _ | .ldwStart core | .ldwComplete core _
  | .swapMarkerEnter core | .swapComplete core | .streamStart core _ | .accRowWrite core _ | .streamComplete core
  | .arrayIdleTimeout core | .rampEnd core | .waitQRelease core | .drainDispatch core _ | .drainRow core _
  | .drainComplete core | .mergeEntryTimeout core _ _ | .egressAccept core _ _ | .moverDispatch core
  | .moverTileAccepted core _ _ | .thermalCritical core _ | .coreResetDone core =>
    coreOk core
  | .scratchAccessPromote core bank =>
    coreOk core && decide (bank < 32)
  | .l1Fill core _ data =>
    coreOk core && decide (data.length ≤ 4096)
  | .l2Lookup _ _ | .commitPoint _ | .gangMemberReady _ | .gangWaitExpire _
  | .gangMemoryExpire _ | .pretranslateDone _ | .walkEntryReturn _ _ | .walkTimeout _ | .faultRecordPost
  | .faultSvcTimeout _ | .invalidationEntry _ | .xltIringDone | .reductionResult _ | .topoLoadDone _
  | .peerRejoinTimeout _ | .timeRequestTimer | .timeExchangeTimeout | .sourceTimeout | .holdoverLimit
  | .ptpAnnounce _ | .ptpSync _ | .gmWaitExpire | .gmLost | .calendarLoadDone _ | .calendarSwitch
  | .accountingSnapshot | .notBeforeRelease _ | .seqStepRelease _ | .seqStepEnd _ _ | .preempt _ _ | .sliceExpire _
  | .contextSaveDone _ | .markedFullFallback _ | .markTimeout _ | .contextRestore _ _ | .energyCalibration _ _ _
  | .memThermalCeilingStep | .governorPreramp _ _ | .prerampHoldEnd | .emuAccessTimeout _ | .hostRdmaAck _ _ _
  | .coldBoot | .railSequenceTimeout _ | .bootRomStart _ | .bootWindowRing _ | .attestationSigned _ | .fwuFetchDone _
  | .fwuVerifyDone | .firmwareHandoff | .handoffResume | .handoffWatchdog | .handoffOk | .handoffRejected
  | .probationTimeout | .flashWriteDone _ | .recoveryStart | .recoveryTimeout | .jackCheck | .dumpReadTimeout _
  | .dumpTimeout | .suspectReplay | .dumpCopy | .controlClusterRestart | .warmReset | .powerOff | .inputMarginal _
  | .brownoutShutdown _ | .overvoltageShutdown _ | .overcurrentShutdown _ | .vauxLoss _ | .status | .vin | .iin
  | .pin | .pinPeak | .ein | .tCore | .tHbm | .tVr | .inlet | .outlet | .bootstat | .part | .smbWarmReset _
  | .clearAlert _ | .alertResponse | .awlTrigger _ | .controlClusterRestartDone | .hostPortLinkDown
  | .hostPortRetrain _ | .pwrgdHoldoffExpire | .trstN _ =>
    true
  | .l2MbufTimeout slice _ _ =>
    stackOk slice
  | .cacheDisable tenant u | .cacheInvalidate tenant u | .cacheEnable tenant u =>
    idOk tenant && cacheOk u
  | .cacheDrainEnd u | .cacheInvalidateDone u =>
    cacheOk u
  | .l2cKeepClear tenant slice _ =>
    idOk tenant && stackOk slice
  | .commitAckTimeout tag node | .commitRecordExpire tag node =>
    idOk tag && idOk node
  | .heldPairExpire node | .peerVerified node _ | .ackTimer node | .resendTimer node _ | .heartbeatTimer node
  | .peerSilenceTimeout node | .pathSilenceTimeout node | .requestDeadline node _ | .pairIdleTimeout node
  | .rerouteDrainEnd node | .primaryReturn node | .mapRemoteTimeout node =>
    idOk node
  | .descriptorReadReturn queue _ | .descriptorTake queue | .seqAdmit queue | .pause queue | .resume queue
  | .release queue | .queueFree queue =>
    idOk queue
  | .doorbell tenant _ _ _ _ | .xltFringHeadWrite tenant _ | .xltFresp tenant _ | .xltIringDb tenant _
  | .xltFmtWrite tenant _ | .topoLoad tenant _ | .ftmNowRead tenant | .calendarInstall tenant _
  | .seqModelEnable tenant _ _ | .schSavepoolWrite tenant _ | .cmReq tenant _ _ | .cmDreq tenant
  | .connectionGraceExpire tenant | .hptMgmtipWrite tenant _ | .hptIpv4Write tenant _ | .attestationGo tenant _
  | .fwuStage tenant _ | .fwuCommit tenant _ | .fwuCancel tenant _ | .fwuFlash tenant _ | .fwuDesc tenant _ _
  | .errHeadWrite tenant _ | .errWarmreq tenant _ =>
    idOk tenant
  | .dispatch partition =>
    decide (partition < 16)
  | .channelAccess stack channel o | .reducerRequest stack channel o =>
    stackOk stack && channelOk channel && outcomeOk o
  | .l2Atomic op _ _ _ _ =>
    decide (op < 65536)
  | .hbmTemperatureRead stack _ | .patrolScrub stack _ =>
    stackOk stack
  | .spareSwitchStart stack channel lane =>
    stackOk stack && channelOk channel && decide (lane < 64)
  | .spareSwitchDone stack channel =>
    stackOk stack && channelOk channel
  | .channelResetDone stack channel _ lane =>
    stackOk stack && channelOk channel && lane.all fun l => decide (l < 64)
  | .ack h | .nak h | .heartbeat h | .timeRequest h _ _ _ | .timeResponse h _ _ _ _ _ _ | .read h | .refused h
  | .reservedBlockType h _ | .reset h | .commitAck h | .discardAck h | .rejoin h _ _ | .rejoinAck h _ | .rejoinEnd h
  | .reroute h | .commit h _ | .discard h _ | .mapAnswer h _ | .gangArrived h _ _ _ _ _ _ | .gangStart h _ _
  | .gangReady h _ | .gangGo h _ =>
    hdrOk h
  | .write h data | .writeMasked h _ data | .reduce h data | .readResp h data =>
    hdrOk h && decide (data.length ≤ 4096)
  | .atomic h entries =>
    hdrOk h && decide (entries.length ≤ 10)
  | .atomicResp h olds =>
    hdrOk h && decide (olds.length ≤ 10)
  | .claim h c =>
    hdrOk h && claimReqOk c
  | .mapRequest h tenant ctx _ _ _ _ _ =>
    hdrOk h && idOk tenant && idOk ctx
  | .mapRelease h ctx _ =>
    hdrOk h && idOk ctx
  | .portLinkDown port | .portTrained port _ | .slotStart port | .portReset port | .frameSend port
  | .blockCrcFail port _ =>
    portOk port
  | .bridleEvaluation sense | .fastLimiter sense =>
    senseShape sense
  | .idleLowering domain | .dutyPeriod domain =>
    domainOk domain
  | .registerWrite tenant _ size _ =>
    idOk tenant && decide (size = 4 ∨ size = 8)
  | .pgApply tenant page | .pgHalt tenant page _ | .pgResetReq tenant page | .pgEnable tenant page _
  | .pmcClear tenant page =>
    idOk tenant && pageOk page
  | .haltReached page =>
    pageOk page
  | .coreMstkHwmWrite tenant core _ | .coreFaultInfoClear tenant core _ =>
    idOk tenant && coreOk core
  | .createTenant r tenant _ _ _ _ | .destroyTenant r tenant | .shareObject r _ tenant =>
    idOk r.tenant && idOk tenant
  | .createContext r _ | .createObject r _ _ =>
    idOk r.tenant
  | .teardownContext r ctx | .createQueue r ctx _ _ _ _ _ | .createFence r ctx _ _ | .mapObject r _ ctx _ _ _ _ _
  | .unmap r ctx _ _ =>
    idOk r.tenant && idOk ctx
  | .teardownFinish ctx | .unmapTakesEffect ctx _ =>
    idOk ctx
  | .destroyQueue r queue =>
    idOk r.tenant && idOk queue
  | .destroyFence r fence | .signalFence r fence _ =>
    idOk r.tenant && decide (fence < 2 ^ 32)
  | .fenceSlotFree fence =>
    decide (fence < 2 ^ 32)
  | .poisonFence r fence code =>
    idOk r.tenant && decide (fence < 2 ^ 32) && idOk code
  | .shareFence r fence tenant =>
    idOk r.tenant && decide (fence < 2 ^ 32) && idOk tenant
  | .mapRemote r ctx node _ _ _ _ _ _ _ =>
    idOk r.tenant && idOk ctx && idOk node
  | .refcountRead tenant index _ | .refcountFetchAdd tenant index _ | .refcountCas tenant index
  | .refcountWrite tenant index =>
    idOk tenant && decide (index < 2 ^ 22)
  | .objectRdmaRead tenant handle _ _ | .objectRdmaWrite tenant handle _ _ | .objectRdmaAtomic tenant handle _ _ _ _ =>
    idOk tenant && handleOk handle
  | .reclaimDone handle =>
    handleOk handle
  | .firmwareStart coresFailed stacksFailed lanes _ _ _ _ =>
    decide (coresFailed < 2 ^ 192) && decide (stacksFailed < 65536)
      && lanes.all fun e => stackOk e.1 && channelOk e.2.1 && decide (e.2.2 < 64)
  | .frameCopyDone _ outs =>
    outs.all fun e => decide (e.1 < 2048) && outcomeOk e.2
  | .coreReset core code =>
    coreOk core && idOk code
  | .warmRestart coresFailed =>
    decide (coresFailed < 2 ^ 192)
  | .thermalTrip core stack _ _ =>
    coreOk core && stackOk stack
  | .jtagInstruction code =>
    decide (code < 32)
  | .gangEnd h _ code =>
    hdrOk h && idOk code
  | .announcement h a =>
    hdrOk h && decide (a.key.length ≤ 4096)
  | .pairAcquire _ h =>
    h.all hdrOk
  | .requestBadOp r op =>
    idOk r.tenant && decide (op < 65536)

end Sys2Proof
end

