-- ==== Sys2Proof/Safety.lean ====
section
/-! DEFINITION. The terms in which claims are made: a command completes, a lane instruction issues and what its issue leaves
alone, the tables of lane instructions of one shape, the invariants of the module.
Assumption log: DESIGN CHOICE 3; DEDUCED 16. -/

namespace Sys2Proof.Machine

/-! ### Completion -/

/-- The command answers a next state of which `P` holds. -/
def Gives (i : Instr) (s : State) (P : State → Prop) : Prop := ∃ t, exec i s = .next t ∧ P t

/-! ### Issue (R17, R18, R64, R66) -/

/-- Instruction `i` of the resident group `g` issues now: its scheduler chooses it, its words are here or lie in another
module, and they are well formed for the kernel. -/
structure Issues (s : State) (gr : GroupRef) (g : Group) (i : Instr) : Prop where
  resident : groupOf s gr.core gr.slot = some g
  chosen   : canIssue s gr i = true
  fetched  : nextOf s gr.core gr.slot g = .outside ∨ ∃ j w, nextOf s gr.core gr.slot g = .instr j w
  legal    : legalInstr (declared g) i = true

/-- Where the group goes on after `i` (R64). -/
def goesOn (g : Group) (i : Instr) : Nat := (g.pc + wordsOf i) % 2 ^ 32

/-- The destinations that `i` owes until its latency is over (R72). -/
def owes (s : State) (gr : GroupRef) (i : Instr) : List (Res × Busy) :=
  match costOf i with
  | some c => (owedBy i).map fun r => (r, .until (coreCyc s gr.core + c.lat))
  | none => []

/-- After the issue the group is `x`, with the marks of an issue in this cycle. -/
def IssuedAs (s t : State) (gr : GroupRef) (i : Instr) (x : Group) : Prop :=
  groupOf t gr.core gr.slot =
    some { x with lastIssue := coreCyc s gr.core + 1, eligAt := none, sb := x.sb ++ owes s gr i }

/-- The issue has changed nothing outside the group but what its core's schedulers and units keep and registers of its CORE
page: no memory, no other group, core, command, page or unit. -/
def CoreOnly (s t : State) (gr : GroupRef) : Prop :=
  t = { s with cores := t.cores, regs := t.regs }
    ∧ (∀ c, c ≠ gr.core → coreOf t c = coreOf s c)
    ∧ (∃ groups issuedAt lastIssuer units,
        coreOf t gr.core = { coreOf s gr.core with groups, issuedAt, lastIssuer, units })
    ∧ (∀ sl, sl ≠ gr.slot → groupOf t gr.core sl = groupOf s gr.core sl)
    ∧ ∀ a, a < pgCORE gr.core ∨ pgCORE gr.core + 0x1000 ≤ a → mget t.regs a = mget s.regs a

/-- A taken jump: the index, the branch penalty, and the forward-progress count of a counted one (R29, R40). -/
def jumped (s : State) (gr : GroupRef) (g : Group) (target : Nat) (counts : Bool) (x : Group) : Group :=
  { x with pc := target % 2 ^ 32, penalty := some (coreCyc s gr.core + 5),
           fpc := if counts && decide (target ≤ g.pc) then x.fpc + 1 else x.fpc }

/-- The group leaves by a taken jump, or faults where the forward-progress count forbids it (R29, R40, R42). -/
def Jumps (s : State) (gr : GroupRef) (g : Group) (i : Instr) (target : Nat) (counts : Bool) (x : Group) : Prop :=
  (noProgress g target counts = false → Gives i s fun t => IssuedAs s t gr i (jumped s gr g target counts x) ∧ CoreOnly s t gr) ∧
  (noProgress g target counts = true →
    exec i s = .next (groupFaultAt s gr.core gr.slot g.cmd g.pc Code.groupNoProgress 0))

/-- The instruction issues, its group goes on as `x` at the next index, and nothing outside the group changes. -/
def GoesOn (s : State) (gr : GroupRef) (g : Group) (i : Instr) (x : Group) : Prop :=
  Gives i s fun t => IssuedAs s t gr i { x with pc := goesOn g i } ∧ CoreOnly s t gr

/-- A group fault of this code in this lane, at the instruction (R49, R52). -/
def Faults (s : State) (gr : GroupRef) (g : Group) (i : Instr) (code lane : Nat) : Prop :=
  exec i s = .next (groupFaultAt s gr.core gr.slot g.cmd g.pc code lane)

/-- A command of the table whose condition does not hold is no event and changes nothing (log entry 3). -/
def Idle (s : State) (rows : List (Instr × Bool)) : Prop := ∀ e ∈ rows, e.2 = false → exec e.1 s = .next s

/-! ### Lane instructions of one shape (R665) -/

/-- Those that write Vd in the lanes of the effective mask, with the value for a lane. -/
def vecRows (gr : GroupRef) (f : FmtR) : List (Instr × (Group → Nat → Nat)) :=
  [ (.addI gr f, elemsAB f fun t a b => intArith t f.sat (fun x y _ => x + y) a b 0),
    (.subI gr f, elemsAB f fun t a b => intArith t f.sat (fun x y _ => x - y) a b 0),
    (.mulI gr f, elemsAB f fun t a b => intArith t f.sat (fun x y _ => x * y) a b 0),
    (.madI gr f, elemsABC f fun t a b c => intArith t f.sat (fun x y z => x * y + z) a b c),
    (.minI gr f, elemsAB f fun t a b => if elemInt t a ≤ elemInt t b then a else b),
    (.maxI gr f, elemsAB f fun t a b => if elemInt t a ≥ elemInt t b then a else b),
    (.and gr f, elemsAB f fun _ a b => a &&& b),
    (.or gr f, elemsAB f fun _ a b => a ||| b),
    (.xor gr f, elemsAB f fun _ a b => a ^^^ b),
    (.andn gr f, elemsAB f fun t a b => a &&& (2 ^ elemBits t - 1 - b)),
    (.shl gr f, elemsAB f fun t a b => if b ≥ elemBits t then 0 else a * 2 ^ b % 2 ^ elemBits t),
    (.shr gr f, elemsAB f fun t a b => if b ≥ elemBits t then 0 else a / 2 ^ b),
    (.sar gr f, elemsAB f fun t a b => sarOf (elemBits t) a b),
    (.ones gr f, elemsA f fun _ a => popCount 32 a),
    (.bitrev gr f, elemsA f fun _ a => bitrevOf 32 a),
    (.lzc gr f, elemsA f fun _ a => if a = 0 then 32 else 31 - Nat.log2 a),
    (.pick gr f, fun g l => if (g.preg (f.c.toNat % 8)).getLsbD l then g.srcA f f.typ.toNat l else g.srcB f f.typ.toNat l),
    (.movVs gr f, fun g l => g.srcA f f.typ.toNat l) ]

/-- The lane exchanges, with the lane that a lane's value comes from, if it is one of 0–31 (R75). -/
def exchangeRows (gr : GroupRef) (f : FmtR) : List (Instr × (Nat → Word → Int)) :=
  [ (.xlaneAt gr f, fun _ k => k.toInt),
    (.xlaneUp gr f, fun l k => (l : Int) - k.toInt),
    (.xlaneDn gr f, fun l k => (l : Int) + k.toInt),
    (.xlaneFlip gr f, fun l k => (BitVec.ofNat 32 l ^^^ k).toInt) ]

/-- Those that also raise the sticky flags of a result (R80): value and flags for a lane. -/
def floatRows (gr : GroupRef) (f : FmtR) : List (Instr × (Group → Nat → Nat × Nat)) :=
  [ (.addF gr f, floatAB f opAdd), (.subF gr f, floatAB f opSub), (.mulF gr f, floatAB f fun _ => opMul),
    (.madF gr f, floatABC f opMad), (.minF gr f, floatAB f fun _ => opMin), (.maxF gr f, floatAB f fun _ => opMax),
    (.minnumF gr f, floatNum f opMin), (.maxnumF gr f, floatNum f opMax), (.recip gr f, special f 0),
    (.rsqrt gr f, special f 1), (.exp2 gr f, special f 2), (.log2 gr f, special f 3), (.sin gr f, special f 4),
    (.cos gr f, special f 5) ]

/-- The compares (R74). -/
def compareRows (gr : GroupRef) (f : FmtR) : List (Instr × Rel) :=
  [ (.cmpEq gr f, .eq), (.cmpNe gr f, .ne), (.cmpLt gr f, .lt), (.cmpLe gr f, .le), (.cmpGt gr f, .gt), (.cmpGe gr f, .ge) ]

/-- The predicate operations (R74). -/
def predRows (gr : GroupRef) (f : FmtR) : List (Instr × (Word → Word → Word)) :=
  [ (.pcombAnd gr f, fun a b => a &&& b), (.pcombOr gr f, fun a b => a ||| b), (.pcombXor gr f, fun a b => a ^^^ b),
    (.pcombAndn gr f, fun a b => a &&& ~~~b), (.pcombNot gr f, fun a _ => ~~~a) ]

/-- The scalar class (R665, R667), with the value. -/
def scalarRows (gr : GroupRef) (f : FmtR) : List (Instr × (Group → Nat)) :=
  [ (.addS gr f, scalarAB f fun t a b => intArith t f.sat (fun x y _ => x + y) a b 0),
    (.subS gr f, scalarAB f fun t a b => intArith t f.sat (fun x y _ => x - y) a b 0),
    (.mulS gr f, scalarAB f fun t a b => intArith t f.sat (fun x y _ => x * y) a b 0),
    (.shlS gr f, scalarAB f fun _ a b => if b ≥ 64 then 0 else a * 2 ^ b % 2 ^ 64),
    (.shrS gr f, scalarAB f fun _ a b => if b ≥ 64 then 0 else a / 2 ^ b),
    (.sarS gr f, scalarAB f fun _ a b => sarOf 64 a b),
    (.andS gr f, scalarAB f fun _ a b => a &&& b),
    (.orS gr f, scalarAB f fun _ a b => a ||| b),
    (.xorS gr f, scalarAB f fun _ a b => a ^^^ b),
    (.movSv gr f, fun g => g.srcA f f.typ.toNat (g.srcB f 3 0 % 32)),
    (.getmode gr f, fun g => g.lmode.toNat) ]

/-- The atomics, with AOP (R94). -/
def atomRows (gr : GroupRef) (f : FmtA) : List (Instr × Nat) :=
  [ (.atomAddI32 gr f, 0), (.atomAddI64 gr f, 1), (.atomAddF32 gr f, 2), (.atomAddF16x2 gr f, 3), (.atomMinI32 gr f, 4),
    (.atomMaxI32 gr f, 5), (.atomMinF32 gr f, 6), (.atomMaxF32 gr f, 7), (.atomSwap32 gr f, 8), (.atomSwap64 gr f, 9),
    (.atomCas64 gr f, 10) ]

/-- The commands that enter the array command queue (R116, R118). -/
def arrayRows (gr : GroupRef) (f : FmtX) : List (Instr × ArrKind) :=
  [ (.mxLdw gr f, .ldw), (.mxLdwReorient gr f, .reorient), (.mxSwap gr f, .swap), (.mxStream gr f, .stream),
    (.mxDrain gr f, .drain), (.mxWaitQ gr f, .waitq) ]

/-! ### Invariants -/

/-- Memory is in its canonical form. -/
def MemoryCanonical (s : State) : Prop := Memory.wf s.mem = true

end Sys2Proof.Machine
end

