-- ==== Sys2Proof/Certificates/Slice0/Obligations.lean ====
section
/-! DEFINITION. The statements about the module for the provers. -/

open Sys2Proof Sys2Proof.Machine

/-! ### The step, the state after reset, memory, the words of lane instructions -/

/-- A step takes the command at the front of the queue: it answers what `exec` answers for that command on the state with
the rest of the queue (the model's queue, log entry 1). -/
def Obligations.StepRunsTheFrontCommand : Prop :=
  ∀ (s : State) (c : Instr) (rest : List Instr),
    step { s with pending := c :: rest } = exec c { s with pending := rest }

/-- On an empty queue a step is one cycle of the 3.6 GHz clock (log entry 2): the cycle count rises by one, nothing waits, and a
module without power changes in nothing else. -/
def Obligations.EmptyQueuePassesOneCycle : Prop :=
  ∀ s : State, s.pending = [] →
    step s = .next (tick s) ∧ (tick s).now = s.now + 1 ∧ (s.mon.pwrok = false → tick s = { s with now := s.now + 1 })

/-- The module never stops: every step answers a next state (R609: an error ends a command, resets a unit or the module). -/
def Obligations.EveryStepAnswersANextState : Prop := ∀ s : State, ∃ t, step s = .next t

/-- FT while it runs: over a cycle of a powered module, T = 5/18 ns · (1 + rate), in units of 2⁻¹⁶ ns / (18 · 10¹²); the
rate is in parts per 10¹² (R420). A domain's cycle count over a cycle of 3.6 GHz (R15, R552, R553, R560): never by more than
one, by one in every cycle at 3,600 MHz, by none while its clock is stopped or gated, and under the fast limiter half as
fast. -/
def Obligations.ClocksAdvanceByTheirRate : Prop :=
  (∀ s : State, s.ftm.running = true →
     (tickFt s).ftm.q = s.ftm.q + (5 * 65536 * (1000000000000 + s.ftm.rate)).toNat ∧
     (-1000000000000 < s.ftm.rate → s.ftm.q < (tickFt s).ftm.q)) ∧
  (∀ x : Dom,
     (x.tick.cyc = x.cyc ∨ x.tick.cyc = x.cyc + 1) ∧
     (x.stopped = true → x.tick = x) ∧
     (x.mhz = 0 → x.tick = x) ∧
     (x.stopped = false → x.fast = false → x.mhz = 3600 → x.tick.cyc = x.cyc + 1) ∧
     (x.stopped = false → 0 < x.mhz → x.frac < 7200 → x.mhz ≤ 3600 →
       7200 * x.tick.cyc + x.tick.frac = 7200 * x.cyc + x.frac + (if x.fast then x.mhz else 2 * x.mhz)))

/-- Right after reset: no memory is listed, so every byte reads as cold boot leaves it, zero (R368); the registers whose reset
values R471 and the tables give read so; the module is not powered, not ready, and nothing waits. -/
def Obligations.ResetHoldsTheSpecsValues : Prop :=
  (∀ a, rd8 State.reset a = 0) ∧
  reg State.reset Reg.jckCoreLimit = 100 ∧ reg State.reset Reg.xltFmt = 0x4000000000000000 ∧
  (∀ p : Nat, p < 16 → pgEnabled State.reset (pgHNS p) = false) ∧ (∀ c : Nat, c < 192 → pgEnabled State.reset (pgCORE c) = true) ∧
  State.reset.boot.ready = false ∧ State.reset.boot.stage = 0 ∧ State.reset.mon.pwrok = false ∧
  State.reset.pending = [] ∧ State.reset.obj.tenants = [] ∧ State.reset.cmds = []

/-- Memory after reset is in its canonical form. -/
def Obligations.ResetMemoryIsCanonical : Prop := MemoryCanonical State.reset

/-- Every step keeps memory in its canonical form: addresses strictly rising and no entry equal to what an unlisted address
reads as. -/
def Obligations.EveryStepKeepsMemoryCanonical : Prop :=
  ∀ s t : State, MemoryCanonical s → step s = .next t → MemoryCanonical t

/-- Bytes stored read back as stored, and every other byte of memory reads as before. -/
def Obligations.StoredBytesReadBack : Prop :=
  ∀ (s : State) (a : Nat) (d : List Byte), MemoryCanonical s →
    rdBytes (wrBytes s a d) a d.length = d ∧
    (∀ b, b < a ∨ a + d.length ≤ b → rd8 (wrBytes s a d) b = rd8 s b) ∧
    MemoryCanonical (wrBytes s a d)

/-- Encoding and decoding of lane instructions agree (R64–R68, R83, R93, R94, R100–R102, R116, R665): the words of every lane
instruction, every field at every value, decode to that instruction of that group. -/
def Obligations.LaneWordsDecodeToTheirInstruction : Prop :=
  ∀ (i : Instr) (g : GroupRef) (w0 : DWord) (w1 : Option DWord) (next : DWord),
    encodeLane i = some (g, w0, w1) → decodeLaneWord g.core g.slot w0 (w1.getD next) = i

/-- Words written out from the tables decode to their instructions: ADD.I V2 ← V0, V1 of TYPE U32; LD; EXIT; MX.SWAP; an
undefined OP. -/
def Obligations.WrittenOutWordsDecode : Prop :=
  decodeLaneWord 7 3 0x0100_4000_2000_3000#64 0 =
    .addI ⟨7, 3⟩ { pred := 0, dst := 2, a := 0, b := 1, c := 0, typ := 3, sat := false, rnd := 0, ka := 0, kb := 0, kc := 0,
                   rsv := 0, wide := none } ∧
  decodeLaneWord 0 0 0x4000_A0E1_8840_0010#64 0 =
    .ld ⟨0, 0⟩ { pred := 0, data := 5, voff := 7, sbase := 3, nobase := false, wideoff := false, size := 2, space := 0,
                 hint := 1, sign := false, imm := 16, wide := none } ∧
  decodeLaneWord 1 64 0x6027_0000_0000_0000#64 0 =
    .exit ⟨1, 64⟩ { w := false, pred := 1, k := 0, rsv := 0, target := 0 } ∧
  decodeLaneWord 1 64 0x7001_0000_0000_0000#64 0 =
    .mxSwap ⟨1, 64⟩ { pred := 0, vdesc := 0, sbase := 0, sig := false, tok := 0, gather := false, sscale := 0,
                      noscale := false, rsv := 0, wide := none } ∧
  decodeLaneWord 1 64 0x7F01_0000_0000_0000#64 0 = .illegalInstruction ⟨1, 64⟩ 0x7F01_0000_0000_0000#64

/-! ### Lane instructions -/

/-- A vector instruction that issues writes its value to Vd in the lanes of the effective mask and nowhere else (R27, R68,
R69, R665): every other register and lane, the masks, memory and every other group keep their values. A destination of 0xFF
is written nowhere and still reads zero. -/
def Obligations.VectorInstructionsWriteTheirLanes : Prop :=
  ∀ (s : State) (gr : GroupRef) (f : FmtR) (g : Group) (i : Instr) (val : Group → Nat → Nat),
    (i, val) ∈ vecRows gr f → Issues s gr g i →
    Gives i s fun t => ∃ v,
      IssuedAs s t gr i { g with v, pc := goesOn g i } ∧ CoreOnly s t gr ∧
      ∀ (r : BitVec 8) (l : Nat), l < 32 →
        ({ g with v } : Group).vreg r l =
          if r = f.dst ∧ r ≠ 0xFF#8 ∧ (g.eff f.pred).getLsbD l then BitVec.ofNat 32 (val g l) else g.vreg r l

/-- A lane exchange gives each lane of the effective mask source A of its source lane, whether or not that lane is in the mask,
and the lane's own source A where the source lane is outside 0–31 (R75). -/
def Obligations.LaneExchangesReadTheSourceLane : Prop :=
  ∀ (s : State) (gr : GroupRef) (f : FmtR) (g : Group) (i : Instr) (src : Nat → Word → Int),
    (i, src) ∈ exchangeRows gr f → Issues s gr g i →
    Gives i s fun t => ∃ v,
      IssuedAs s t gr i { g with v, pc := goesOn g i } ∧ CoreOnly s t gr ∧
      ∀ (r : BitVec 8) (l : Nat), l < 32 →
        ({ g with v } : Group).vreg r l =
          if r = f.dst ∧ r ≠ 0xFF#8 ∧ (g.eff f.pred).getLsbD l then
            let k := src l (BitVec.ofNat 32 (g.srcB f 2 l))
            BitVec.ofNat 32 (g.srcA f f.typ.toNat (if 0 ≤ k ∧ k < 32 then k.toNat else l))
          else g.vreg r l

/-- Float arithmetic, special functions and conversions write Vd in the lanes of the effective mask and raise the sticky flags
of exactly those lanes (R73, R80, R109, R665); a special function's value within its bound is a free value (log entry 4). -/
def Obligations.FloatInstructionsWriteLanesAndFlags : Prop :=
  ∀ (s : State) (gr : GroupRef) (f : FmtR) (g : Group) (i : Instr) (val : Group → Nat → Nat × Nat),
    ((i, val) ∈ floatRows gr f ∨ ∃ src : BitVec 5, i = .cvt gr src f ∧ val = fun x l =>
      cvtOp src.toNat f.typ.toNat (effRnd f.rnd x.lmode) (lmodeFtz x.lmode) (x.srcA f (cvtImm src.toNat) l)) →
    Issues s gr g i →
    Gives i s fun t => ∃ v,
      let lmode := raiseFlags g.lmode (flagsIn (g.eff f.pred) ((List.range 32).map (val g)))
      IssuedAs s t gr i { g with v, lmode, pc := goesOn g i } ∧
      CoreOnly s t gr ∧
      ∀ (r : BitVec 8) (l : Nat), l < 32 →
        ({ g with v } : Group).vreg r l =
          if r = f.dst ∧ r ≠ 0xFF#8 ∧ (g.eff f.pred).getLsbD l then BitVec.ofNat 32 (val g l).1 else g.vreg r l

/-- Compares and predicate operations write Pd in the lanes of the effective mask alone, and a write to P0 is ignored (R24,
R74). -/
def Obligations.ComparesAndPredicatesWriteTheirMask : Prop :=
  ∀ (s : State) (gr : GroupRef) (f : FmtR) (g : Group),
    (∀ (i : Instr) (rel : Rel), (i, rel) ∈ compareRows gr f → Issues s gr g i →
      Gives i s fun t => ∃ p,
        let lmode := raiseFlags g.lmode ((lanesIn (g.eff f.pred)).foldl (fun a l => a ||| (cmpLane f rel g l).2) 0)
        IssuedAs s t gr i { g with p, lmode, pc := goesOn g i } ∧
        CoreOnly s t gr ∧
        ∀ n l : Nat, l < 32 → (({ g with p } : Group).preg n).getLsbD l =
          if n = f.dst.toNat % 8 ∧ n ≠ 0 ∧ (g.eff f.pred).getLsbD l then (cmpLane f rel g l).1 else (g.preg n).getLsbD l) ∧
    (∀ (i : Instr) (op : Word → Word → Word), (i, op) ∈ predRows gr f → Issues s gr g i →
      Gives i s fun t => ∃ p,
        IssuedAs s t gr i { g with p, pc := goesOn g i } ∧ CoreOnly s t gr ∧
        ∀ n l : Nat, l < 32 → (({ g with p } : Group).preg n).getLsbD l =
          if n = f.dst.toNat % 8 ∧ n ≠ 0 ∧ (g.eff f.pred).getLsbD l then
            (op (g.preg (f.a.toNat % 8)) (g.preg (f.b.toNat % 8))).getLsbD l
          else (g.preg n).getLsbD l)

/-- The scalar class acts once for the group: Sd takes the value where the effective mask holds a lane, and nothing else
changes; with an empty mask no register changes (R667, R68). -/
def Obligations.ScalarInstructionsActOnce : Prop :=
  ∀ (s : State) (gr : GroupRef) (f : FmtR) (g : Group) (i : Instr) (val : Group → Nat),
    (i, val) ∈ scalarRows gr f → Issues s gr g i →
    Gives i s fun t => ∃ x,
      IssuedAs s t gr i { g with s := x, pc := goesOn g i } ∧ CoreOnly s t gr ∧
      ∀ n : Nat, ({ g with s := x } : Group).sreg n =
        if n = f.dst.toNat % 64 ∧ g.eff f.pred ≠ 0 then scalarOf f.typ.toNat (val g) else g.sreg n

/-- PMASK, the reductions, SETMODE and the block conversions. PMASK puts the lanes of the effective mask in which the predicate
is set into Sd (R76). A reduction writes Sd alone, and for an integer TYPE the combination of the mask's lanes, or the
identity of an empty mask (R77). SETMODE takes A under the implemented bits unless RND is reserved, which is
GROUP_ILLEGAL_INSTR (R79). A block conversion of a full group writes Vd, and CVT.BLK.ENC also Sd; of a partial group it
faults (R111–R113). -/
def Obligations.CollectionsModeAndBlocks : Prop :=
  ∀ (s : State) (gr : GroupRef) (f : FmtR) (g : Group),
    (Issues s gr g (.pmask gr f) → Gives (.pmask gr f) s fun t => ∃ x,
      IssuedAs s t gr (.pmask gr f) { g with s := x, pc := goesOn g (.pmask gr f) } ∧ CoreOnly s t gr ∧
      ∀ n : Nat, ({ g with s := x } : Group).sreg n =
        if n = f.dst.toNat % 64 then (g.am &&& g.preg f.pred.toNat &&& g.preg (f.a.toNat % 8)).setWidth 64 else g.sreg n) ∧
    (∀ (i : Instr) (op : Int → Int → Int) (unit : Int),
      (i, op, unit) ∈ ([ (.gredAdd gr f, (fun a b => a + b), 0), (.gredMin gr f, min, intHi 32 (isSigned f.typ.toNat)),
                         (.gredMax gr f, max, intLo 32 (isSigned f.typ.toNat)) ] : List (Instr × (Int → Int → Int) × Int)) →
      Issues s gr g i →
      Gives i s fun t => ∃ x fl,
        IssuedAs s t gr i { g with s := x, pc := goesOn g i, lmode := raiseFlags g.lmode fl } ∧ CoreOnly s t gr ∧
        (∀ n : Nat, n ≠ f.dst.toNat % 64 → ({ g with s := x } : Group).sreg n = g.sreg n) ∧
        (f.typ.toNat ≠ 0 → fl = 0 ∧ ({ g with s := x } : Group).sreg (f.dst.toNat % 64) =
          scalarOf f.typ.toNat (wrapInt 32
            (match (lanesIn (g.eff f.pred)).map fun l => elemInt f.typ.toNat (g.srcA f f.typ.toNat l) with
             | [] => unit
             | y :: ys => ys.foldl op y)))) ∧
    (Issues s gr g (.setmode gr f) →
      let v := BitVec.ofNat 32 (g.srcA f 3 0)
      (g.eff f.pred = 0 → GoesOn s gr g (.setmode gr f) g) ∧
      (g.eff f.pred ≠ 0 → 1 ≤ v.toNat % 8 → v.toNat % 8 ≤ 5 →
        GoesOn s gr g (.setmode gr f) { g with lmode := v &&& lmodeMask }) ∧
      (g.eff f.pred ≠ 0 → v.toNat % 8 = 0 ∨ 6 ≤ v.toNat % 8 → Faults s gr g (.setmode gr f) Code.groupIllegalInstr 0)) ∧
    (∀ i : Instr, i = .cvtBlkEnc gr f ∨ i = .cvtBlkDec gr f → Issues s gr g i →
      (g.eff f.pred = 0xFFFFFFFF#32 → Gives i s fun t => ∃ v x,
        IssuedAs s t gr i { g with v, s := x, pc := goesOn g i } ∧ CoreOnly s t gr ∧
        (∀ (r : BitVec 8) (l : Nat), r ≠ f.dst → ({ g with v } : Group).vreg r l = g.vreg r l) ∧
        (∀ n : Nat, (n ≠ f.b.toNat % 64 ∨ i = .cvtBlkDec gr f) → ({ g with s := x } : Group).sreg n = g.sreg n)) ∧
      (g.eff f.pred ≠ 0xFFFFFFFF#32 →
        Faults s gr g i Code.groupBlockPartial 0))

/-! ### Control -/

/-- Branches (R28, R29, R40, R42): BRA always jumps, BRA.ANY where some lane of the effective mask has the predicate set,
BRA.ALL where every lane of the active mask has it set. A taken branch goes to its target, the group is not eligible for the
next 4 cycles, and a backward one adds one to the forward-progress count, or faults where that would reach the limit. A
branch not taken goes on. -/
def Obligations.JumpsGoToTheirTargets : Prop :=
  ∀ (s : State) (gr : GroupRef) (f : FmtB) (g : Group) (i : Instr) (taken : Bool),
    (i, taken) ∈ ([ (.bra gr f, true), (.braAny gr f, g.am &&& g.preg f.pred.toNat != 0),
                    (.braAll gr f, g.am &&& ~~~(g.preg f.pred.toNat) == 0) ] : List (Instr × Bool)) →
    Issues s gr g i →
    (taken = true → Jumps s gr g i f.target.toNat true g) ∧ (taken = false → GoesOn s gr g i g)

/-- CALL writes the index of the next instruction to S63, the upper 32 bits 0, and jumps to its target; RET jumps to the low
32 bits of S63. Both carry the branch penalty, and neither counts as a branch (R40, R103). -/
def Obligations.CallsAndReturnsUseS63 : Prop :=
  ∀ (s : State) (gr : GroupRef) (f : FmtB) (g : Group),
    (Issues s gr g (.call gr f) →
      Jumps s gr g (.call gr f) f.target.toNat false (g.putS 63 (BitVec.ofNat 64 ((g.pc + 1) % 2 ^ 32)))) ∧
    (Issues s gr g (.ret gr f) → Jumps s gr g (.ret gr f) ((g.sreg 63).toNat % 2 ^ 32) false g)

/-- PUSHM (R30, R35): it pushes the active mask, the lanes without the predicate and the target, and sets the active mask to
the lanes with it; where that is empty the group jumps to the target; at depth 32 it overflows. ELSEM, POPM and ANDM
(R31–R33, R35, R37). ELSEM sets the top entry's TARGET, sets the active mask to its PENDING and clears PENDING; POPM sets
the active mask to its SAVED and removes it; ANDM keeps the lanes of the predicate in the active mask and in SAVED and
PENDING of the top k entries. Where ELSEM or ANDM leaves no lane, the group jumps to the target of the top entry. At depth
0, or for ANDM with k above the depth or beyond what a SER region pushed, they are illegal. -/
def Obligations.MaskStackFollowsItsRules : Prop :=
  (∀ (s : State) (gr : GroupRef) (f : FmtB) (g : Group), Issues s gr g (.pushm gr f) →
     let p := g.preg f.pred.toNat
     let x := { g with stack := ⟨g.am, g.am &&& ~~~p, f.target.toNat⟩ :: g.stack, am := g.am &&& p }
     (32 ≤ g.stack.length → Faults s gr g (.pushm gr f) Code.groupMaskStackOverflow 0) ∧
     (g.stack.length < 32 → g.am &&& p ≠ 0 → GoesOn s gr g (.pushm gr f) x) ∧
     (g.stack.length < 32 → g.am &&& p = 0 → Jumps s gr g (.pushm gr f) f.target.toNat true x)) ∧
  (∀ (s : State) (gr : GroupRef) (f : FmtB) (g : Group),
     let p := g.preg f.pred.toNat
     (Issues s gr g (.elsem gr f) →
       (g.stack = [] → Faults s gr g (.elsem gr f) Code.groupIllegalInstr 0) ∧
       (∀ e rest, g.stack = e :: rest →
         let x := { g with stack := ⟨e.saved, 0, f.target.toNat⟩ :: rest, am := e.pending }
         (e.pending ≠ 0 → GoesOn s gr g (.elsem gr f) x) ∧
         (e.pending = 0 → Jumps s gr g (.elsem gr f) f.target.toNat true x))) ∧
     (Issues s gr g (.popm gr f) →
       (g.stack = [] → Faults s gr g (.popm gr f) Code.groupIllegalInstr 0) ∧
       (∀ e rest, g.stack = e :: rest → GoesOn s gr g (.popm gr f) { g with stack := rest, am := e.saved })) ∧
     (Issues s gr g (.andm gr f) →
       let x := { g with am := g.am &&& p, stack := clearTop p f.k.toNat g.stack }
       (andmBad g f.k.toNat = true → Faults s gr g (.andm gr f) Code.groupIllegalInstr 0) ∧
       (andmBad g f.k.toNat = false → g.am &&& p ≠ 0 → GoesOn s gr g (.andm gr f) x) ∧
       (∀ e rest, andmBad g f.k.toNat = false → g.am &&& p = 0 → g.stack = e :: rest →
         Jumps s gr g (.andm gr f) e.target true x)) ∧
     (g.ser = none → (andmBad g f.k.toNat = true ↔ g.stack = [] ∨ g.stack.length < f.k.toNat)))

/-- EXIT takes the lanes of its effective mask out of the active mask and out of SAVED and PENDING of every entry. While
lanes of the launch mask remain, the group goes on, or jumps to the target of the top entry where its active mask is
empty; once every lane has finished the group has ended and its stack is gone. In a SER region it is illegal (R34, R37). -/
def Obligations.ExitRetiresItsLanes : Prop :=
  ∀ (s : State) (gr : GroupRef) (f : FmtB) (g : Group), Issues s gr g (.exit gr f) →
    let gone := g.am &&& g.preg f.pred.toNat
    let x := { g with am := g.am &&& ~~~gone, exited := g.exited ||| gone, stack := clearTop (~~~gone) 32 g.stack }
    (g.ser ≠ none → Faults s gr g (.exit gr f) Code.groupIllegalInstr 0) ∧
    (g.ser = none → g.launch &&& ~~~x.exited ≠ 0 → x.am ≠ 0 → GoesOn s gr g (.exit gr f) x) ∧
    (∀ e rest, g.ser = none → g.launch &&& ~~~x.exited ≠ 0 → x.am = 0 → g.stack = e :: rest →
      Jumps s gr g (.exit gr f) e.target true x) ∧
    (g.ser = none → g.launch &&& ~~~x.exited = 0 → Gives (.exit gr f) s fun t =>
      ∃ y, groupOf t gr.core gr.slot = some y ∧ y.ended = true ∧ y.stack = [] ∧ y.exited = x.exited ∧ y.am = x.am)

/-- SER regions (R36–R38): SER.BEGIN records the active mask as the lane set and the next index as the start, and goes on
with the lowest lane alone. At SER.END the group jumps to the start with the lowest lane left, or goes on with the whole
lane set when none is left. A nested region, an end outside a region, and an end at another depth than the beginning are
illegal. -/
def Obligations.SerRegionsRunLaneByLane : Prop :=
  ∀ (s : State) (gr : GroupRef) (f : FmtB) (g : Group),
    (Issues s gr g (.serBegin gr f) →
      (g.ser ≠ none → Faults s gr g (.serBegin gr f) Code.groupIllegalInstr 0) ∧
      (g.ser = none →
        let first := lowestFrom g.am 0
        GoesOn s gr g (.serBegin gr f)
          { g with ser := some ⟨g.am, laneIndex first, (g.pc + 1) % 2 ^ 32, g.stack.length⟩, am := first })) ∧
    (Issues s gr g (.serEnd gr f) →
      (g.ser = none → Faults s gr g (.serEnd gr f) Code.groupIllegalInstr 0) ∧
      (∀ r, g.ser = some r → g.stack.length ≠ r.depth → Faults s gr g (.serEnd gr f) Code.groupIllegalInstr 0) ∧
      (∀ r, g.ser = some r → g.stack.length = r.depth →
        let next := lowestFrom r.lanes (r.cur + 1)
        (next = 0 → GoesOn s gr g (.serEnd gr f) { g with ser := none, am := r.lanes }) ∧
        (next ≠ 0 → Jumps s gr g (.serEnd gr f) r.start false
          { g with ser := some { r with cur := laneIndex next }, am := next })))

/-- Group barriers (R105, R106) and save points (R108). With masks pushed or in a SER region a barrier is illegal, and so is
a second arrival in a phase. BAR.ARRIVE and BAR.SYNC note the group's arrival and go on, BAR.SYNC to wait for the phase; an
arrival that ends the phase empties the barrier, begins the next phase and lets the set's waiting groups go on. BAR.WAIT
waits while the group's arrival stands, and goes on without one. SAVEPT without a table goes on, whatever its number; beyond
the table it is illegal; in the table it goes on, and with a MARKED save pending it halts the group there once its array
commands are complete. -/
def Obligations.BarriersAndSavePoints : Prop :=
  ∀ (s : State) (gr : GroupRef) (f : FmtB) (g : Group),
    let n := f.target.toNat % 16
    let b := barOf s gr.core g n
    let arrived := b.arrived.contains gr.slot
    let b' : Barrier := { b with arrived := gr.slot :: b.arrived }
    let ends := phaseOver s gr.core g b'
    (∀ i : Instr, i = .barArrive gr f ∨ i = .barWait gr f ∨ i = .barSync gr f → Issues s gr g i → barBad g = true →
      Faults s gr g i Code.groupIllegalInstr 0) ∧
    (∀ i : Instr, i = .barArrive gr f ∨ i = .barSync gr f → Issues s gr g i → barBad g = false →
      (arrived = true → Faults s gr g i Code.groupIllegalInstr 0) ∧
      (arrived = false → ends = false → Gives i s fun t =>
        IssuedAs s t gr i { g with
          pc := goesOn g i, wait := if i = .barSync gr f then .barrier n b.phase else g.wait } ∧
        barOf t gr.core g n = b' ∧ t = { s with cores := t.cores, regs := t.regs }) ∧
      (arrived = false → ends = true → Gives i s fun t =>
        IssuedAs s t gr i { g with pc := goesOn g i } ∧
        barOf t gr.core g n = { arrived := [], phase := b.phase + 1 } ∧
        t = { s with cores := t.cores, regs := t.regs } ∧
        ∀ sl y, sl ≠ gr.slot → groupOf s gr.core sl = some y → y.cmd = g.cmd → y.set = g.set →
          y.wait = .barrier n b.phase → groupOf t gr.core sl = some { y with wait := .none })) ∧
    (Issues s gr g (.barWait gr f) → barBad g = false →
      GoesOn s gr g (.barWait gr f) { g with wait := if arrived then .barrier n b.phase else g.wait }) ∧
    (∀ c, cmdOf s g.cmd = some c → Issues s gr g (.savept gr f) →
      (c.d.saveptVa = 0 → GoesOn s gr g (.savept gr f) g) ∧
      (c.d.saveptVa ≠ 0 → c.d.saveCount ≤ f.target.toNat → Faults s gr g (.savept gr f) Code.groupIllegalInstr 0) ∧
      (c.d.saveptVa ≠ 0 → f.target.toNat < c.d.saveCount → markPending s c = false → GoesOn s gr g (.savept gr f) g) ∧
      (c.d.saveptVa ≠ 0 → f.target.toNat < c.d.saveCount → markPending s c = true →
        (arrayOwed s gr.core gr.slot = false → GoesOn s gr g (.savept gr f) { g with halt := .marked f.target.toNat }) ∧
        (arrayOwed s gr.core gr.slot = true → exec (.savept gr f) s = .next s)))

/-- FENCE of scope CORE, or of a group whose core has nothing in its merging buffer, waits at its scope and changes nothing
else (R100). MX.WAIT.G of a full group goes on, and waits where commands of its token are not complete; of a divergent group
it is GROUP_MATRIX_DIVERGENT (R44, R120). An undefined word ends its command with GROUP_ILLEGAL_INSTR, at the instruction's
address (R52, R66). -/
def Obligations.FencesWaitsAndUndefinedWords : Prop :=
  (∀ (s : State) (gr : GroupRef) (g : Group),
     (∀ f : FmtF, Issues s gr g (.fence gr f) → f.scope = 0 ∨ (coreOf s gr.core).mbuf = [] →
       GoesOn s gr g (.fence gr f) { g with wait := .fence f.scope.toNat }) ∧
     (∀ f : FmtX, Issues s gr g (.mxWaitG gr f) →
       let k := mgetD g.tokens f.tok.toNat .none
       (mxDivergent g f = true → Faults s gr g (.mxWaitG gr f) Code.groupMatrixDivergent 0) ∧
       (mxDivergent g f = false → GoesOn s gr g (.mxWaitG gr f)
         { g with wait := if k.issued ≤ k.done then g.wait else .token f.tok.toNat }))) ∧
  (∀ (s : State) (gr : GroupRef) (g : Group) (w : DWord),
     groupOf s gr.core gr.slot = some g → canIssue s gr (.illegalInstruction gr w) = true →
     (nextOf s gr.core gr.slot g = .outside ∨ ∃ j w', nextOf s gr.core gr.slot g = .instr j w') →
     Faults s gr g (.illegalInstruction gr w) Code.groupIllegalInstr 0)

/-- Accesses to scratchpad (R56, R86, R89, R90, R96, R98): with every lane aligned and inside the allocation, LD and LDSC take
their data at once and owe it to their destination, ST that launches no mover slot leaves its bytes in the scratchpad and
goes on, PREFETCH goes on, an atomic goes on; none changes memory. A misaligned lane is GROUP_MISALIGNED in the lowest such
lane, and an access outside the allocation GROUP_ADDRESS_RANGE. -/
def Obligations.ScratchpadAccesses : Prop :=
  ∀ (s : State) (gr : GroupRef) (g : Group),
    let k := coreOf s gr.core
    (∀ f : FmtM, f.space = 1#2 →
      let as := laneAddrs (g.eff f.pred) (addrM g f)
      let fits := as ≠ [] ∧ misalignedLane (accBytes f.size) as = none ∧ ∀ a ∈ as, a.2 + accBytes f.size ≤ allocBytes k g.cmd
      (Issues s gr g (.ld gr f) → fits → Gives (.ld gr f) s fun t => ∃ r x,
        mget t.ms.loads s.ms.nextLoad = some r ∧ r.waits = [] ∧ r.cmd = g.cmd ∧ r.size = accBytes f.size ∧
        r.accs.map LaneAcc.data = as.map (fun a => scrBytes k g.cmd a.2 (accBytes f.size)) ∧
        groupOf t gr.core gr.slot = some x ∧ x.pc = goesOn g (.ld gr f) ∧ x.v = g.v ∧ t.mem = s.mem ∧
        ∀ v ∈ vRes f.data (runFor f.size), (v, Busy.load s.ms.nextLoad) ∈ x.sb) ∧
      (Issues s gr g (.st gr f) → fits → as.filterMap (fun a => goSlot a.2 (accBytes f.size)) = [] →
        Gives (.st gr f) s fun t => ∃ x,
          (coreOf t gr.core).scratch =
            (as.foldl (fun k a => scrPutBytes k g.cmd a.2 (storeBytes g f a.1)) k).scratch ∧
          groupOf t gr.core gr.slot = some x ∧ x.pc = goesOn g (.st gr f) ∧ x.fpc = 0 ∧ x.v = g.v ∧ t.mem = s.mem) ∧
      (Issues s gr g (.prefetch gr f) → fits → GoesOn s gr g (.prefetch gr f) g) ∧
      (∀ i : Instr, i = .ld gr f ∨ i = .st gr f ∨ i = .prefetch gr f → Issues s gr g i →
        (∀ l, misalignedLane (accBytes f.size) as = some l → Faults s gr g i Code.groupMisaligned l) ∧
        (misalignedLane (accBytes f.size) as = none → (∃ a ∈ as, allocBytes k g.cmd < a.2 + accBytes f.size) →
          Faults s gr g i Code.groupAddressRange 0))) ∧
    (∀ f : FmtM, f.space = 1#2 → Issues s gr g (.ldsc gr f) → g.eff f.pred ≠ 0 →
      let va := (g.base f.sbase f.nobase + offsetM f) % 2 ^ 64
      va % accBytes f.size = 0 → va + accBytes f.size ≤ allocBytes k g.cmd →
      Gives (.ldsc gr f) s fun t => ∃ r x,
        mget t.ms.loads s.ms.nextLoad = some r ∧ r.sreg = true ∧
        r.accs.map LaneAcc.data = [scrBytes k g.cmd va (accBytes f.size)] ∧
        groupOf t gr.core gr.slot = some x ∧ x.pc = goesOn g (.ldsc gr f) ∧ x.s = g.s ∧ t.mem = s.mem ∧
        (Res.s f.data.toNat, Busy.load s.ms.nextLoad) ∈ x.sb) ∧
    (∀ (f : FmtA) (i : Instr) (op : Nat), (i, op) ∈ atomRows gr f → f.space = 1#2 → Issues s gr g i →
      let as := laneAddrs (g.eff f.pred) (addrA g f (aopSize op))
      (∀ l, misalignedLane (aopSize op) as = some l → Faults s gr g i Code.groupMisaligned l) ∧
      (as ≠ [] → misalignedLane (aopSize op) as = none →
        (∀ a ∈ as, a.2 + aopSize op ≤ allocBytes k g.cmd) → Gives i s fun t => ∃ x,
          groupOf t gr.core gr.slot = some x ∧ x.pc = goesOn g i ∧ t.mem = s.mem ∧ t.cmds = s.cmds))

/-- Accesses to global memory of aligned lanes (R51, R84, R123, R238, R240, R271, R306): an address of 2⁵⁷ or more is
GROUP_ADDRESS_RANGE. A load whose pages are translated, with room for its line requests and none of its group's stores to a
CHANNEL line still on its way, owes its data to its destination. A store whose pages are translated, to no pair, through an
L1 that is on and a merging buffer with room, is accepted and the group goes on; one that a replayable command has not
declared is GROUP_UNDECLARED_WRITE. A load, a store, a prefetch or an atomic with no lane in its effective mask only goes on
(R27, R667). -/
def Obligations.GlobalAndMaskedAccesses : Prop :=
  (∀ (s : State) (gr : GroupRef) (g : Group) (f : FmtM),
     let size := accBytes f.size
     let as := laneAddrs (g.eff f.pred) (addrM g f)
     f.space ≠ 1#2 → as ≠ [] → misalignedLane size as = none →
     ((∃ a ∈ as, 2 ^ 57 ≤ a.2) → ∀ i : Instr, i = .ld gr f ∨ i = .st gr f ∨ i = .prefetch gr f → Issues s gr g i →
       Faults s gr g i Code.groupAddressRange 0) ∧
     ((∀ a ∈ as, a.2 < 2 ^ 57) → ∀ l,
       (Issues s gr g (.ld gr f) → place s (ctxOf s g.cmd) g.cmd .read size as = .ok l → goneTarget s l = none →
         copyingPair s g.cmd (pairsOf l) = none →
         channelSent s g size l = false →
         coreReqs s gr.core + (missLines (l.map (loadAcc s gr.core g size (f.space == 2#2)))).length ≤ 256 →
         Gives (.ld gr f) s fun t => ∃ r x,
           mget t.ms.loads s.ms.nextLoad = some r ∧ r.cmd = g.cmd ∧ r.size = size ∧
           groupOf t gr.core gr.slot = some x ∧ x.pc = goesOn g (.ld gr f) ∧ x.v = g.v ∧
           (∀ v ∈ vRes f.data (runFor f.size), (v, Busy.load s.ms.nextLoad) ∈ x.sb) ∧ t.mem = s.mem) ∧
       (Issues s gr g (.st gr f) → place s (ctxOf s g.cmd) g.cmd .write size as = .ok l → goneTarget s l = none →
         (undeclared s g.cmd l = true → Faults s gr g (.st gr f) Code.groupUndeclaredWrite 0) ∧
         (undeclared s g.cmd l = false → pairsOf l = [] → (cmdOf s g.cmd).isSome = true → l1On (coreOf s gr.core) = true →
           (coreOf s gr.core).l1ctl.draining = none →
           (coreOf s gr.core).mbuf.length + newEntries (coreOf s gr.core) g.cmd (l.map fun e => e.2.2.line).eraseDups ≤ 64 →
           exec (.st gr f) s = .next
             (setPc (noteIssue
                 (acceptStore s gr g (if f.hint = 3#2 then 1 else f.hint.toNat) (portCost as) l (storeBytes g f)) gr (.st gr f))
               gr (goesOn g (.st gr f))))))) ∧
  (∀ (s : State) (gr : GroupRef) (g : Group),
     (∀ (f : FmtM) (i : Instr), i ∈ [Instr.ld gr f, .st gr f, .prefetch gr f, .ldsc gr f] → Issues s gr g i →
       g.eff f.pred = 0 → GoesOn s gr g i g) ∧
     (∀ (f : FmtA) (i : Instr) (op : Nat), (i, op) ∈ atomRows gr f → Issues s gr g i →
       g.eff f.pred = 0 → GoesOn s gr g i g))

/-- An MX instruction of a full group that is aligned and inside its allocation enters the array command queue at its end
and goes on; with 16 commands in the queue the group waits where it is (R44, R116–R119, R133, R134). A divergent group is
GROUP_MATRIX_DIVERGENT. -/
def Obligations.MatrixCommandsQueueInOrder : Prop :=
  ∀ (s : State) (gr : GroupRef) (g : Group) (f : FmtX) (i : Instr) (k : ArrKind),
    (i, k) ∈ arrayRows gr f → Issues s gr g i →
    let base := scalarOff g f.sbase
    let scale := scalarOff g f.sscale
    let offs := if f.gather then gatherOffs g f else []
    let arr := (coreOf s gr.core).arr
    let alloc := allocBytes (coreOf s gr.core) g.cmd
    (mxDivergent g f = true → Faults s gr g i Code.groupMatrixDivergent 0) ∧
    (mxDivergent g f = false → (∀ l, mxMisaligned k f base scale offs = some l → Faults s gr g i Code.groupMisaligned l) ∧
      (mxMisaligned k f base scale offs = none →
        (mxOutside arr alloc k f base scale offs = true → Faults s gr g i Code.groupAddressRange 0) ∧
        (mxOutside arr alloc k f base scale offs = false → arr.queue.length < 16 → Gives i s fun t => ∃ q x,
          (coreOf t gr.core).arr.queue = arr.queue ++ [q] ∧ q.kind = k ∧ q.cmd = g.cmd ∧ q.slot = gr.slot ∧ q.f = f ∧
          q.base = base ∧ q.scale = scale ∧ q.gather = offs ∧
          groupOf t gr.core gr.slot = some x ∧ x.pc = goesOn g i ∧ x.v = g.v ∧ x.s = g.s ∧ t.mem = s.mem) ∧
        (mxOutside arr alloc k f base scale offs = false → 16 ≤ arr.queue.length → Gives i s fun t =>
          groupOf t gr.core gr.slot = some { g with wait := .arrayQueue, eligAt := none } ∧
          t = { s with cores := t.cores } ∧ (coreOf t gr.core).arr = arr)))

/-! ### Events of groups, cores and arrays -/

/-- What ends a group's wait changes the group and nothing it does not own: the end of a branch penalty (R29), results that
become usable (R72), a load's data written to its registers (R92), an atomic's old value (R99), a fence (R100). Each happens
where its time or its cause has come, and nowhere else. -/
def Obligations.GroupEventsResumeTheGroup : Prop :=
  ∀ (s : State) (gr : GroupRef) (g : Group), groupOf s gr.core gr.slot = some g →
    (∀ p, g.penalty = some p →
      (p ≤ coreCyc s gr.core → Gives (.branchPenaltyEnd gr) s fun t =>
        groupOf t gr.core gr.slot = some { g with penalty := none } ∧ t = { s with cores := t.cores }) ∧
      (coreCyc s gr.core < p → exec (.branchPenaltyEnd gr) s = .next s)) ∧
    (g.sb.any (sbDue (coreCyc s gr.core)) = true → ∀ u : Upset, u ≠ .uncorrectable →
      Gives (.operandReady gr u) s fun t =>
        groupOf t gr.core gr.slot = some { g with sb := g.sb.filter fun e => !sbDue (coreCyc s gr.core) e } ∧
        t = { s with cores := t.cores }) ∧
    (∀ id r, mget s.ms.loads id = some r → loadReady s gr id = true → g.cmd = r.cmd →
      Gives (.loadDataReturn gr id .none) s fun t =>
        groupOf t gr.core gr.slot = some (payLoad (writeLoad g r) id) ∧ t.mem = s.mem ∧
        t.ms.loads = mdel s.ms.loads id) ∧
    (∀ id a old d, mget s.ms.atoms id = some a → a.core = gr.core → a.slot = gr.slot → a.st = .done old → a.dst = some d →
      g.cmd = a.cmd → Gives (.atomReturn gr id) s fun t =>
        let x := g.putRun (BitVec.ofNat 8 d) (BitVec.ofNat 32 (2 ^ a.lane)) (List.replicate 32 old.toNat) (aopSize a.op / 4)
        groupOf t gr.core gr.slot = some { x with sb := x.sb.filter fun e => e.2 != .atom id } ∧
        t.mem = s.mem ∧ t.ms.atoms = mdel s.ms.atoms id) ∧
    (∀ k, g.wait = .fence k →
      (fenceMet s gr.core g k = true → Gives (.fenceRelease gr) s fun t =>
        groupOf t gr.core gr.slot = some { g with wait := .none } ∧ t = { s with cores := t.cores }) ∧
      (fenceMet s gr.core g k = false → exec (.fenceRelease gr) s = .next s))

/-- A group's slot is empty after GROUP_SLOT_FREE, which happens once the group has ended and owes no atomic, array command or
mover command (R26, R121, R258). A launch puts the next groups of the command into the slots that the set takes, each with
its launch mask active and PC 0, and counts them as launched and live (R25, R104). -/
def Obligations.GroupsLaunchAndLeave : Prop :=
  ∀ (s : State) (core cmd : Nat) (c : Cmd), cmdOf s cmd = some c →
    (∀ (gr : GroupRef) (g : Group), groupOf s gr.core gr.slot = some g → slotFreeReady s gr = true →
      exec (.groupSlotFree gr) s = .next (doSlotFree s gr) ∧ g.ended = true ∧
      groupOf (doSlotFree s gr) gr.core gr.slot = none) ∧
    (∀ gr : GroupRef, slotFreeReady s gr = false → exec (.groupSlotFree gr) s = .next s) ∧
    (∀ slots, launchReady s core cmd = true → setFits s core cmd c = some slots →
      exec (.groupLaunch core cmd) s = .next (doGroupLaunch s core cmd) ∧
      (∃ c', cmdOf (doGroupLaunch s core cmd) cmd = some c' ∧
        c'.nextGroup = c.nextGroup + slots.length ∧ c'.liveGroups = c.liveGroups + slots.length) ∧
      ∀ j slot, slots[j]? = some slot → ∃ g, groupOf (doGroupLaunch s core cmd) core slot = some g ∧ g.cmd = cmd ∧
        g.index = c.nextGroup + j ∧ g.pc = 0 ∧ g.launch = launchMask c g.index ∧ g.am = g.launch ∧ g.ended = false) ∧
    (launchReady s core cmd = false → exec (.groupLaunch core cmd) s = .next s)

/-- Scratchpad of a command (R232, R233, R235): its granules, the lowest free ones, read zero until they are written, and
the next allocation waits 64 cycles a granule; they are free again once the core is quiet for the command. A read that has
waited 16 cycles for a bank goes first, once in 16 cycles. An entry of a merging buffer that has been open for 256 cycles is
sent (R240); one found with an uncorrectable error, then or when it goes out, is discarded and ends its command (R254). What
waited for room in an egress buffer goes when there is room (R668). -/
def Obligations.ScratchpadAllocationAndBuffers : Prop :=
  (∀ (s : State) (core : Nat),
     (∀ cmd c, cmdOf s cmd = some c → scratchReady s core cmd = true →
       Gives (.scratchAllocate core cmd) s fun t =>
         let gs := (freeGranules (coreOf s core)).take (granulesFor c.d)
         mget (coreOf t core).allocs cmd = some ⟨gs⟩ ∧
         (∀ e ∈ (coreOf t core).scratch, e.1 / 65536 ∉ gs) ∧
         (gs ≠ [] → (coreOf t core).zeroing = some (cmd, coreCyc s core + 64 * gs.length)) ∧
         t = { s with cores := t.cores }) ∧
     (∀ cmd, scratchFreeable s core cmd = true → Gives (.scratchFree core cmd) s fun t =>
       (coreOf t core).allocs = mdel (coreOf s core).allocs cmd ∧ t = { s with cores := t.cores }) ∧
     (∀ cmd, scratchFreeable s core cmd = false → exec (.scratchFree core cmd) s = .next s) ∧
     (∀ bank, promotable s core bank = true → Gives (.scratchAccessPromote core bank) s fun t =>
       mget (coreOf t core).promoted bank = some (coreCyc s core) ∧ t.mem = s.mem) ∧
     (∀ bank, promotable s core bank = false → exec (.scratchAccessPromote core bank) s = .next s)) ∧
  (∀ (s : State) (core id : Nat) (e : MergeEntry),
     mget (coreOf s core).mbuf id = some e →
     (∀ u : Upset, u ≠ .uncorrectable →
       (e.opened + 256 ≤ coreCyc s core → exec (.mergeEntryTimeout core id u) s = .next (sendEntry s core id)) ∧
       (coreCyc s core < e.opened + 256 → exec (.mergeEntryTimeout core id u) s = .next s) ∧
       (e.sent = true → entryTaken s core e = true →
         exec (.egressAccept core (.store id) u) s = .next (takeEntry s core id e)) ∧
       (e.sent = false → exec (.egressAccept core (.store id) u) s = .next s)) ∧
     (∃ t : State, (coreOf t core).mbuf = mdel (coreOf s core).mbuf id ∧
       loseEntry s core id =
         failCmd (sramError t core (pgTMV core) Code.memEccUncorr) e.cmd Code.memEccUncorr (pgTMV core) 0) ∧
     exec (.mergeEntryTimeout core id .uncorrectable) s = .next (loseEntry s core id) ∧
     (e.sent = true → entryTaken s core e = true →
       exec (.egressAccept core (.store id) .uncorrectable) s = .next (loseEntry s core id)) ∧
     (∀ (u : Upset) (x : EgressUnit), egressReady s core x = true →
       exec (.egressAccept core x u) s = .next (doEgress s core u x)))

/-- The array's load path (R125, R145, R150, R153, R154): the next LDW or re-orient starts when the load path is free, no
SWAP or double load stands before it and the shadow set is free; the tags of the set are the command's from then on, and the
set is loading; a re-orient that does not fit the active set is MXA_STATE_MISMATCH. It completes 108 cycles later, a
re-orient 4 cycles later; an uncorrectable error of a weight that a re-orient copies is the array's (R160). SWAP exchanges
the active and the shadow set when its marker enters the array, and holds the shadow set for 191 cycles; it leaves the queue
190 cycles after its marker (R150, R155). -/
def Obligations.WeightSetsLoadAndSwap : Prop :=
  (∀ (s : State) (core : Nat) (q : ArrCmd),
     let a := (coreOf s core).arr
     (nextLdw a = some q → arrGoes s core q = true → ldwMayStart a (coreCyc s core) q = true →
       (q.kind = .ldw → isDouble q = false → Gives (.ldwStart core) s fun t =>
         (coreOf t core).arr = { a with load := some ⟨q.id, coreCyc s core⟩, shadow := ldwTags q.f false q.id } ∧
         t = { s with cores := t.cores }) ∧
       (isDouble q = true → q.kind ≠ .reorient → Gives (.ldwStart core) s fun t =>
         let load := some ⟨q.id, coreCyc s core⟩
         (coreOf t core).arr = { a with load, active := ldwTags q.f false q.id, shadow := ldwTags q.f true q.id }) ∧
       (q.kind = .reorient → reorientOk a q.f = false →
         exec (.ldwStart core) s = .next (arrFault s core q.cmd))) ∧
     (ldwDue s core = none → ∀ u, exec (.ldwComplete core u) s = .next s) ∧
     (ldwDue s core = some q → exec (.ldwComplete core .none) s = .next (doLdwComplete s core q)) ∧
     (ldwDue s core = some q → q.kind = .reorient →
       exec (.ldwComplete core .uncorrectable) s = .next (arrEcc s core q.cmd)) ∧
     (ldwDue s core = some q → ∃ l, a.load = some l ∧ (q.kind = .ldw → l.start + 108 ≤ coreCyc s core) ∧
       (q.kind = .reorient → l.start + 4 ≤ coreCyc s core))) ∧
  (∀ (s : State) (core : Nat) (q : ArrCmd),
     let a := (coreOf s core).arr
     (nextFeed a = some q → arrGoes s core q = true → swapMayEnter s core q = true →
       Gives (.swapMarkerEnter core) s fun t =>
         (coreOf t core).arr.active = a.shadow ∧ (coreOf t core).arr.shadow = a.active ∧
         coreCyc s core + 191 ≤ (coreOf t core).arr.shFree ∧ (coreOf t core).arr.rows = a.rows ∧ t.mem = s.mem) ∧
     (swapDue s core = some q → exec (.swapComplete core) s = .next (doSwapComplete s core q)) ∧
     (swapDue s core = some q → ∃ ts rest, a.swaps = (q.id, ts) :: rest ∧ ts + 190 ≤ coreCyc s core) ∧
     (swapDue s core = none → exec (.swapComplete core) s = .next s))

/-- STREAM (R126–R131, R146, R148, R155, R156): where the next command of the feed is a STREAM that may start, STREAM_START
appends its run, which begins now with the sets as they are now, and leaves queue, accumulator rows and memory alone; sets
that do not fit end its command, and so does an uncorrectable word of its rows, unless the active set is EMPTY and it reads
none (R155, R236). Each of its rows is written to accumulator memory no sooner than 203 cycles after it entered, and no
other row changes. A STREAM whose rows are all written completes. An array that has admitted no row for 1,024 cycles is
idle, and a ramp ends after 64 cycles (R152). MX.WAIT.Q leaves the queue when its token's commands are complete (R120). -/
def Obligations.StreamsAccumulateTheirRows : Prop :=
  ∀ (s : State) (core : Nat),
    let a := (coreOf s core).arr
    (∀ q, nextFeed a = some q → arrGoes s core q = true → streamMayStart s core q = true →
      (streamSetsOk a = false → exec (.streamStart core .none) s = .next (arrFault s core q.cmd)) ∧
      (streamSetsOk a = true → ∀ u, u ≠ .uncorrectable ∨ a.active.state = .empty →
        Gives (.streamStart core u) s fun t => ∃ r,
          (coreOf t core).arr.streams = a.streams ++ [r] ∧ r.id = q.id ∧ r.start = coreCyc s core ∧ r.act = a.active ∧
          r.shd = a.shadow ∧ r.done = 0 ∧ (coreOf t core).arr.idle = false ∧ (coreOf t core).arr.rows = a.rows ∧
          (coreOf t core).arr.queue = a.queue ∧ t.mem = s.mem) ∧
      (a.active.state ≠ .empty → exec (.streamStart core .uncorrectable) s = .next (scrUncorr s core q.cmd q.base))) ∧
    (∀ r q, streamRowDue s core = some (r, q) → isGhost a q.id = false →
      entryCycle r r.done + 203 ≤ coreCyc s core ∧
      exec (.accRowWrite core .uncorrectable) s = .next (arrEcc s core q.cmd) ∧
      (∀ u, u ≠ .uncorrectable → exec (.accRowWrite core u) s = .next (doRowWrite s core r q)) ∧
      (streamAccum q.f = false → r.done < mxNrows q.f + 1 →
        (∃ e, mget (coreOf (doRowWrite s core r q) core).arr.rows (mxAccRow q.f + r.done) = some e ∧
          e.written = true ∧ e.int = intMode r.act q.f) ∧
        ∀ n, n ≠ mxAccRow q.f + r.done → mget (coreOf (doRowWrite s core r q) core).arr.rows n = mget a.rows n)) ∧
    (streamRowDue s core = none → ∀ u, exec (.accRowWrite core u) s = .next s) ∧
    (∀ q, streamDue s core = some q → exec (.streamComplete core) s = .next (doStreamComplete s core q)) ∧
    (streamDue s core = none → exec (.streamComplete core) s = .next s) ∧
    (a.idle = false → a.lastRow + 1025 ≤ coreCyc s core → Gives (.arrayIdleTimeout core) s fun t =>
      (coreOf t core).arr = { a with idle := true } ∧ t = { s with cores := t.cores }) ∧
    (∀ r, a.ramp = some r → r + 64 ≤ coreCyc s core → Gives (.rampEnd core) s fun t =>
      (coreOf t core).arr = { a with ramp := none } ∧ t.mem = s.mem) ∧
    (∀ q, waitQDue s core = some q → arrGoes s core q = true → exec (.waitQRelease core) s = .next (arrDone s core q)) ∧
    (waitQDue s core = none → exec (.waitQRelease core) s = .next s)

/-- DRAIN (R157–R162, R199–R224): its parameters are read when it is dispatched; each row is quantized and written in its turn,
and no accumulator row changes; a row that brings out a fault of the parameters ends the command, as does an uncorrectable
element; it completes after the last row, and its counts then enter the totals. -/
def Obligations.DrainsQuantizeTheirRows : Prop :=
  ∀ (s : State) (core : Nat),
    let a := (coreOf s core).arr
    (∀ q, nextDrain a = some q → arrGoes s core q = true →
      exec (.drainDispatch core .none) s = .next (doDrainDispatch s core q)) ∧
    (nextDrain a = none → ∀ u, exec (.drainDispatch core u) s = .next s) ∧
    (∀ d q, drainRowDue s core = some (d, q) →
      (∃ t, exec (.drainRow core .uncorrectable) s = .next (arrEcc t core q.cmd) ∧ t = { s with cores := t.cores }) ∧
      (∀ i r, drainFault s core d q (d.start.getD 0) = some (i, r) →
        exec (.drainRow core .none) s = .next (paramFault s core q r i)) ∧
      (drainFault s core d q (d.start.getD 0) = none →
        Gives (.drainRow core .none) s fun t => ∃ d', (coreOf t core).arr.drain = some d' ∧ d'.next = d.next + 1 ∧
          d'.rows = d.rows + 1 ∧ d'.id = d.id ∧ d'.par = d.par ∧ d'.start = d.start ∧
          (coreOf t core).arr.rows = a.rows ∧ t.mem = s.mem ∧ t.cmds = s.cmds)) ∧
    (drainRowDue s core = none → ∀ u, exec (.drainRow core u) s = .next s) ∧
    (∀ d q, drainDue s core = some (d, q) →
      d.next = mxNrows q.f + 1 ∧ exec (.drainComplete core) s = .next (doDrainComplete s core d q) ∧
      (∀ c, cmdOf s q.cmd = some c → cmdOf (foldDrain s core q.cmd d) q.cmd = some { c with
        invalid := c.invalid + d.qinv, overflow := c.overflow + d.sats + d.ovfs,
        amax := if qpFold d.par then amaxMax c.amax d.amax else c.amax })) ∧
    (drainDue s core = none → exec (.drainComplete core) s = .next s)

/-! ### Caches, movers, HBM -/

/-- Cache events (R238, R240, R244, R247–R249, R254): a line request's data arrives, a slice looks a request up, an open
entry of a slice's merging buffer is written after 1,024 cycles, and one found with an uncorrectable error is discarded, the
bytes that it covered as they were before; a drain ends, an invalidate ends. After the drain of an L1 it is off and INV_DONE
is clear; the end of an invalidate sets INV_DONE exactly where it began with the cache off. ENABLE = 1 of a cache (R250): it
is enabled when INV_DONE is 1, no drain is in progress and INV_BUSY is 0; otherwise the write is ignored, and
CACHE_ENABLE_STALE is recorded in PG_ERR of the page and in the error ring. -/
def Obligations.CachesDrainInvalidateAndEnable : Prop :=
  (∀ (s : State) (core req slice line : Nat) (data : List Byte) (u : Upset) (c : CacheUnit),
     (fillReady s core req data = true → exec (.l1Fill core req data) s = .next (doFill s req data)) ∧
     (lookupReady s req = true → exec (.l2Lookup req u) s = .next (doLookup s req u)) ∧
     (drained s c = true → exec (.cacheDrainEnd c) s = .next (endDrain s c)) ∧
     (invOver s c = true → exec (.cacheInvalidateDone c) s = .next (endInv s c)) ∧
     Idle s [ (.l1Fill core req data, fillReady s core req data), (.l2Lookup req u, lookupReady s req),
       (.cacheDrainEnd c, drained s c), (.cacheInvalidateDone c, invOver s c) ] ∧
     (u ≠ .uncorrectable → l2Due s slice line = none → exec (.l2MbufTimeout slice line u) s = .next s) ∧
     (∀ e, u ≠ .uncorrectable → l2Due s slice line = some e →
       exec (.l2MbufTimeout slice line u) s = .next (sendL2Entry s slice e) ∧
       (sendL2Entry s slice e).mem = s.mem ∧ ∀ y ∈ (sliceOf (sendL2Entry s slice e) slice).mbuf, y ≠ e) ∧
     (∀ e, l2Entry s slice line = some e →
       exec (.l2MbufTimeout slice line .uncorrectable) s = .next (loseL2Entry s slice e)) ∧
     (l2Entry s slice line = none → exec (.l2MbufTimeout slice line .uncorrectable) s = .next s) ∧
     ctlOf (endDrain s (.l1 core)) (.l1 core) =
       { ctlOf s (.l1 core) with enabled := false, draining := none, invDone := false } ∧
     ctlOf (endInv s c) c = { ctlOf s c with
       invBusy := none, invFromDisabled := false, invDone := (ctlOf s c).invDone || (ctlOf s c).invFromDisabled } ∧
     (endInv s c).mem = s.mem) ∧
  (∀ (s : State) (u : CacheUnit),
     let c := ctlOf s u
     (c.draining = none → c.invBusy = none → c.invDone = true → ctlOf (enableCache s u) u = { c with enabled := true }) ∧
     (c.draining ≠ none ∨ c.invBusy ≠ none ∨ c.invDone = false → ctlOf (enableCache s u) u = c ∧
       enableCache s u = logOnly (pgErr s (unitPage u) Code.cacheEnableStale) Code.cacheEnableStale (unitPage u)))

/-- Tile movers (R257–R270) and the page walks that they and lanes wait for (R331, R332): a launched command is dispatched to
a free mover of a core whose clock runs, and nothing else changes; a tile that can be accepted is accepted, and an
uncorrectable word of its source ends the command with MEM_ECC_UNCORR; an entry of a walk arrives. -/
def Obligations.MoversAndWalksAdvance : Prop :=
  ∀ (s : State) (core mover walk : Nat) (u : Upset) (entry : DWord),
    (moverReady s core = true → ∃ m slot, nextLaunched s core = some m ∧ freeKey (coreOf s core).movers 4 0 = some slot ∧
      Gives (.moverDispatch core) s fun t =>
        (coreOf t core).launched = (coreOf s core).launched.erase m ∧
        mget (coreOf t core).movers slot =
          some { m with disp := coreCyc s core, phase := .fresh, waiting := [], trs := [], todo := [], out := [] } ∧
        (coreOf t core).moverTurn = m.cmd ∧ t = { s with cores := t.cores }) ∧
    (tileReady s core mover = true → exec (.moverTileAccepted core mover u) s = .next (doTile s core mover u)) ∧
    (∀ x, tileReady s core mover = true → mget (coreOf s core).movers mover = some x → x.phase = .sent →
      doTile s core mover u = nextTile s core mover x) ∧
    (walkLive s walk = true → exec (.walkEntryReturn walk entry) s = .next (pumpMovers (doWalkEntry s walk entry))) ∧
    Idle s [ (.moverDispatch core, moverReady s core), (.moverTileAccepted core mover u, tileReady s core mover),
      (.walkEntryReturn walk entry, walkLive s walk) ]

/-- A channel serves its operations one at a time, in the order of arrival (R371, R372): the head of its queue leaves it and
is performed, by the controller or by its reducer; an operation whose turn it is not changes nothing. A reduction's results
return to their operations (R373). -/
def Obligations.ChannelsServeInOrder : Prop :=
  ∀ (s : State) (stack channel : Nat) (o : HbmOutcome),
    (∀ op, chanHead s stack channel = some op →
      (isReducerOp s op = false → exec (.channelAccess stack channel o) s = .next (doChan s stack channel op o) ∧
        exec (.reducerRequest stack channel o) s = .next s) ∧
      (isReducerOp s op = true → exec (.reducerRequest stack channel o) s = .next (doChan s stack channel op o) ∧
        exec (.channelAccess stack channel o) s = .next s)) ∧
    (chanHead s stack channel = none →
      exec (.channelAccess stack channel o) s = .next s ∧ exec (.reducerRequest stack channel o) s = .next s) ∧
    (∀ op, chanHead s stack channel = some op → ∃ t : State,
      doChan s stack channel op o = pumpReads (runOp t stack channel op o) ∧
      (chanOf t stack channel).queue = (chanOf s stack channel).queue.tail ∧ t.mem = s.mem) ∧
    (∀ req r, mget s.ms.results req = some r → exec (.reductionResult req) s = .next (doResult s req r)) ∧
    (∀ req, mget s.ms.results req = none → exec (.reductionResult req) s = .next s)

/-- Maintenance of the stacks (R360, R365, R366, R369, R375): lane sparing, channel reset, temperature bands, patrol, and the
atomics of the control region. A channel that switches a lane to a spare is down from now on; a channel whose reset is done is
up, its lane errors forgotten. The temperature read is stored and its band is at least the band of the temperature; a band
is left downward only 3 degrees below its floor. A sound step of the patrol changes no byte and goes on to the next sector. -/
def Obligations.StackMaintenance : Prop :=
  ∀ (s : State) (stack channel lane temp op addr : Nat) (ok : Bool) (spare : Option Nat) (ecc : EccState)
    (opnd cmp : BitVec 128),
    (ctlAligned op addr = true → s.boot.ready = true → lockFree s addr = true →
      exec (.l2Atomic op addr opnd cmp ecc) s = .next (doL2Atomic s op addr opnd cmp ecc)) ∧
    (tempDue s stack = true → exec (.hbmTemperatureRead stack temp) s = .next (doTemp s stack temp)) ∧
    (resetting s stack channel = true →
      exec (.channelResetDone stack channel ok spare) s = .next (doChanResetDone s stack channel ok spare)) ∧
    (patrolReady s stack = true → exec (.patrolScrub stack ecc) s = .next (doPatrol s stack ecc)) ∧
    (spareReady s stack channel lane = true → Gives (.spareSwitchStart stack channel lane) s fun t =>
      chanOf t stack channel = { chanOf s stack channel with
        down := some { since := s.now, lane := some lane, reset := false }, lastSwitch := some s.now } ∧
      t.mem = s.mem ∧ t.cores = s.cores) ∧
    Idle s [ (.l2Atomic op addr opnd cmp ecc, ctlAligned op addr && s.boot.ready && lockFree s addr),
      (.hbmTemperatureRead stack temp, tempDue s stack), (.patrolScrub stack ecc, patrolReady s stack),
      (.channelResetDone stack channel ok spare, resetting s stack channel),
      (.spareSwitchStart stack channel lane, spareReady s stack channel lane) ] ∧
    (∀ l, switching s stack channel = some l →
      exec (.spareSwitchDone stack channel) s = .next (doSpareDone s stack channel l)) ∧
    (switching s stack channel = none → exec (.spareSwitchDone stack channel) s = .next s) ∧
    mget (doTemp s stack temp).hbm.temp stack = some temp ∧
    mget (doTemp s stack temp).hbm.band stack = some (nextBand temp (mgetD s.hbm.band stack 0)) ∧
    (∀ old, bandOf temp ≤ nextBand temp old) ∧
    (∀ old, old ≤ 3 → nextBand temp old < old → temp + 3 ≤ bandFloor old) ∧
    (mgetD s.hbm.patrol stack 0 ≠ 0 →
      (doPatrol s stack .clean).mem = s.mem ∧
      mget (doPatrol s stack .clean).hbm.patrol stack = some ((mgetD s.hbm.patrol stack 0 + 1) % stackSectors))

/-! ### Commands on their way: intake, translation, dispatch, commit -/

/-- The intake (R495–R500, R505, R517, R523): the slots that a read of a ring brings are taken over, a doorbell moves the tail, a
descriptor is taken, pretranslation ends, NOT_BEFORE is reached and releases its command, and the dispatcher starts the next
head. A doorbell write of a wrong length or place is an Invalid Request NAK, and one of a queue that is not the tenant's a
Remote Access NAK (R453, R496). One behind something of the queue pair not yet performed waits (R456). -/
def Obligations.IntakeTakesDescriptors : Prop :=
  ∀ (s : State) (queue cmd tenant addr len tail cqHead partition : Nat) (data : List Byte),
    (∀ q d, mget s.obj.queues queue = some q → readBytes s q data = some d →
      exec (.descriptorReadReturn queue data) s = .next (doReadReturn s queue d)) ∧
    (∀ q, mget s.obj.queues queue = some q → readBytes s q data = none →
      exec (.descriptorReadReturn queue data) s = .next s) ∧
    (doorbellReady s tenant addr = true →
      exec (.doorbell tenant addr len tail cqHead) s = .next (doDoorbell s tenant addr len tail cqHead)) ∧
    (takeReady s queue = true → exec (.descriptorTake queue) s = .next (doTake s queue)) ∧
    (pretransReady s cmd = true → exec (.pretranslateDone cmd) s = .next (doPretransDone s cmd)) ∧
    (∀ c, cmdOf s cmd = some c → notBeforeDue s cmd = true → c.d.notBefore ≤ ftNs s ∧
      Gives (.notBeforeRelease cmd) s fun t => cmdOf t cmd = some { c with released := true } ∧ t = { s with cmds := t.cmds }) ∧
    (∀ i c, dispatcherRuns s = true → nextHead (schSafePoints s) partition = some (i, c) →
      exec (.dispatch partition) s = .next (startCmd (schSafePoints s) i c (coresFor (schSafePoints s) i c))) ∧
    (dispatcherRuns s = true → nextHead (schSafePoints s) partition = none →
      exec (.dispatch partition) s = .next (schSafePoints s)) ∧
    (doorbellRange addr = true → qpHeld s tenant = true → exec (.doorbell tenant addr len tail cqHead) s =
      .next (park s tenant (.doorbell addr len tail cqHead))) ∧
    Idle s [ (.doorbell tenant addr len tail cqHead, doorbellRange addr && (qpUp s tenant || qpHeld s tenant)),
      (.descriptorTake queue, takeReady s queue),
      (.pretranslateDone cmd, pretransReady s cmd), (.notBeforeRelease cmd, notBeforeDue s cmd),
      (.dispatch partition, dispatcherRuns s) ] ∧
    (windowOpen s = false → doorbellOk addr len = false → doDoorbell s tenant addr len tail cqHead = nakInvalid s tenant) ∧
    (windowOpen s = false → doorbellOk addr len = true → ownsQueue s tenant ((addr - 0x400000) / 64) = false →
      doDoorbell s tenant addr len tail cqHead = nakAccess s tenant)

/-- Translation faults and invalidations (R334–R343): a walk of 50 µs times out; a fault record is written to the ring while it
has room, and XLT_FRING_TAIL rises by one; service times out after its limit; an entry of the invalidation ring is applied,
after which no translation that it names is cached; its end is reported, and XLT_IRING_DONE rises by one. -/
def Obligations.TranslationFaultsAndInvalidations : Prop :=
  ∀ (s : State) (walk seq : Nat) (e : InvEntry),
    (walkLate s walk = true → exec (.walkTimeout walk) s = .next (doWalkTimeout s walk)) ∧
    (∀ w, mget s.xlt.walks walk = some w → (walkLate s walk = true ↔ since s w.start (usec 50) = true)) ∧
    (postReady s = true → exec .faultRecordPost s = .next (doFaultPost s) ∧
      reg (doFaultPost s) Reg.xltFringTail = (reg s Reg.xltFringTail + 1) % 2 ^ 32) ∧
    (svcLate s seq = true → exec (.faultSvcTimeout seq) s = .next (doSvcTimeout s seq)) ∧
    (invReady s = true → exec (.invalidationEntry e) s = .next (doInvalidation s e) ∧
      ∀ x ∈ (doInvalidation s e).xlt.cache, invHits (invSeen s e) x.ctx x.va x.size = false) ∧
    (invDoneReady s = true → exec .xltIringDone s = .next (doInvDone s) ∧
      (doInvDone s).xlt.invPending = s.xlt.invPending.tail ∧ (doInvDone s).mem = s.mem ∧
      reg (doInvDone s) Reg.xltIringDone = (reg s Reg.xltIringDone + 1) % 2 ^ 32) ∧
    Idle s [ (.walkTimeout walk, walkLate s walk), (.faultRecordPost, postReady s), (.faultSvcTimeout seq, svcLate s seq),
      (.invalidationEntry e, invReady s), (.xltIringDone, invDoneReady s) ]

/-- Commands commit (R292, R293, R296–R304, R310–R315): pairs are acquired, a frame copy is done, a command that has ended
reaches its commit point or, where an invalid operation is trapped, fails with MXA_INVALID_TRAP; tokens time out after 10 µs
and records expire 60 s after a loss; HELD pairs of a peer are discarded; a gang's member is ready, a gang's wait runs out, and
a gang that has ended is forgotten after 60 s. The acknowledgments and grants that a peer sends, and its word that a gang has
ended, are CTL messages, each with its effect where it is awaited. -/
def Obligations.CommandsCommit : Prop :=
  ∀ (s : State) (h : BlockHdr) (cmd tag node gang code pair : Nat) (outs : List (Nat × HbmOutcome)),
    (pairAcquireReady s cmd = true → exec (.pairAcquire cmd none) s = .next (doPairAcquire s cmd)) ∧
    exec (.pairAcquire cmd (some h)) s = .next (onCtl s h fun s => claimGranted s h cmd) ∧
    (copyReady s pair = true → exec (.frameCopyDone pair outs) s = .next (doCopy s pair outs)) ∧
    exec (.commitAck h) s =
      .next (onCtl s h fun s => if commitAckReady s h.tag h.src then doCommitAck s h.tag h.src else s) ∧
    exec (.discardAck h) s =
      .next (onCtl s h fun s =>
        if discardAckReady s h.tag h.src then closeRecord (setDest s h.tag h.src .acked) h.tag else s) ∧
    exec (.gangEnd h gang code) s = .next (onCtl s h fun s => if gangLive s gang then doGangEnd s gang code else s) ∧
    (commitAckLate s tag node = true →
      exec (.commitAckTimeout tag node) s = .next (commitLose (setDest s tag node .lost) tag)) ∧
    (recordExpired s tag node = true → exec (.commitRecordExpire tag node) s = .next (doRecordExpire s tag node)) ∧
    (heldExpired s node = true → exec (.heldPairExpire node) s = .next (discardHeld s node)) ∧
    (memberReady s cmd = true → exec (.gangMemberReady cmd) s = .next (doGangMemberReady s cmd)) ∧
    (gangWaitOver s gang = true → exec (.gangWaitExpire gang) s = .next (gangAbandon s gang Code.gangIncomplete)) ∧
    (s.com.endedGangs.any (fun e => e.1 == gang && since s e.2 (sec 60)) = true → Gives (.gangMemoryExpire gang) s fun t =>
      (∀ e ∈ t.com.endedGangs, e.1 ≠ gang) ∧ (∀ e ∈ s.com.endedGangs, e.1 ≠ gang → e ∈ t.com.endedGangs) ∧
      t = { s with com := { s.com with endedGangs := t.com.endedGangs } }) ∧
    (endedNormally s cmd = true → exec (.commitPoint cmd) s = .next (doCommitPoint s cmd)) ∧
    (endedTrapped s cmd = true →
      exec (.commitPoint cmd) s = .next (failCmd s cmd Code.mxaInvalidTrap (trapPage s cmd) 0)) ∧
    Idle s [ (.pairAcquire cmd none, pairAcquireReady s cmd), (.frameCopyDone pair outs, copyReady s pair),
      (.commitAckTimeout tag node, commitAckLate s tag node), (.commitRecordExpire tag node, recordExpired s tag node),
      (.heldPairExpire node, heldExpired s node), (.gangMemberReady cmd, memberReady s cmd),
      (.gangWaitExpire gang, gangWaitOver s gang),
      (.gangMemoryExpire gang, s.com.endedGangs.any fun e => e.1 == gang && since s e.2 (sec 60)),
      (.commitPoint cmd, endedNormally s cmd || endedTrapped s cmd) ]

/-- Time slices, saves and restores (R519–R530): each takes effect where it is due. The end of a time slice marks the command;
the fallback of a MARKED save stops every group of the command that still runs; a save is done once nothing of the command is
under way. -/
def Obligations.PreemptionSavesAndRestores : Prop :=
  ∀ (s : State) (cmd victim waiting : Nat) (cores : List Nat),
    (preemptReady s victim waiting = true → exec (.preempt victim waiting) s = .next (doPreempt s victim)) ∧
    (sliceOver s cmd = true → exec (.sliceExpire cmd) s = .next (doSliceExpire s cmd) ∧
      cmd ∈ (doSliceExpire s cmd).sch.sliceDue) ∧
    (markLate s cmd 2 (usec 50) = true → exec (.markedFullFallback cmd) s = .next (markFull s cmd)) ∧
    (∀ c, cmdOf s cmd = some c → ∀ k ∈ c.cores, ∀ e ∈ (coreOf (markFull s cmd) k).groups,
      e.2.cmd = cmd → e.2.halt ≠ .run) ∧
    (markLate s cmd 1 (msec (reg s Reg.schMarkmax)) = true → exec (.markTimeout cmd) s = .next (doMarkTimeout s cmd)) ∧
    (restoreReady s cmd cores = true → exec (.contextRestore cmd cores) s = .next (doRestore s cmd cores)) ∧
    Idle s [ (.preempt victim waiting, preemptReady s victim waiting), (.sliceExpire cmd, sliceOver s cmd),
      (.markedFullFallback cmd, markLate s cmd 2 (usec 50)),
      (.markTimeout cmd, markLate s cmd 1 (msec (reg s Reg.schMarkmax))),
      (.contextRestore cmd cores, restoreReady s cmd cores) ] ∧
    (∀ c t, cmdOf s cmd = some c → c.phase = .saving t → saveStill s cmd c = true →
      exec (.contextSaveDone cmd) s = .next (doSaveDone s cmd c)) ∧
    (∀ c t, cmdOf s cmd = some c → c.phase = .saving t → saveStill s cmd c = false →
      exec (.contextSaveDone cmd) s = .next s)

/-- The sequence engine (R531–R540): steps are released and end, calibration closes, and admission entries are taken in their
order: ADMIT of a good entry makes its table entry PREFILL, any other operation that is none of the four, and a bad ADMIT,
is refused with SEQ_ADMIT_INVALID. -/
def Obligations.SequencesAreAdmittedAndStep : Prop :=
  ∀ (s : State) (queue model meter unattr : Nat) (shares results : List (Nat × Nat)) (l : List (Nat × Descriptor × Descriptor)),
    (calibReady s meter unattr shares = true →
      exec (.energyCalibration meter unattr shares) s = .next (doCalibrate s meter unattr shares)) ∧
    Idle s [ (.energyCalibration meter unattr shares, calibReady s meter unattr shares) ] ∧
    (∀ k, stepDue s = some k → exec (.seqStepRelease l) s = .next (doStepRelease s k l)) ∧
    (stepDue s = none → exec (.seqStepRelease l) s = .next s) ∧
    (∀ st, mget s.srv.steps model = some st → st.cmds = [] →
      exec (.seqStepEnd model results) s = .next (doStepEnd s model st results)) ∧
    (∀ m op e, nextAdmission s queue = some (m, op, e) →
      let t := takeAdmission s queue
      (op = 1 → admitOk t m e = true → exec (.seqAdmit queue) s = .next (doAdmit t queue m e)) ∧
      (op = 1 ∧ admitOk t m e = false ∨ op = 0 ∨ 4 < op → exec (.seqAdmit queue) s = .next (refuseEntry t queue e)) ∧
      (op = 2 → exec (.pause queue) s = .next (doPause t queue m e)) ∧
      (op = 3 → exec (.resume queue) s = .next (doResume t queue m e)) ∧
      (op = 4 → exec (.release queue) s = .next (doRelease t queue m e)) ∧
      (op ≠ 2 → exec (.pause queue) s = .next s) ∧ (op ≠ 3 → exec (.resume queue) s = .next s) ∧
      (op ≠ 4 → exec (.release queue) s = .next s)) ∧
    (∀ m e i k, seqIndex s m e = some i → mget s.obj.queues queue = some k → ∃ x,
      seqGet (doAdmit s queue m e) i = some x ∧ x.state = 1 ∧ x.model = m ∧ x.prio = e.prio ∧ x.promptLeft = e.prompt ∧
      x.length = 0 ∧ x.maxLen = e.maxLen ∧ x.kvList = e.kvList ∧ x.kvPages = e.kvPages ∧ x.user = e.cmdId ∧
      x.deadline = e.deadline ∧ x.queue = queue)

/-! ### The fabric -/

/-- Link-control blocks and CTL messages (R395–R399, R404–R418): each is taken only from a peer of the table on a port that
runs, in the pair's session and epoch; a sequenced message only in its turn, after what it acknowledges and the credits that it
brings, and then with its effect. Announcements, REJOIN and REJOIN_ACK, which begin a session, are taken from a peer of the
table; a time request while FT runs. -/
def Obligations.ControlBlocksAreTakenInTheirPair : Prop :=
  ∀ (s : State) (h : BlockHdr) (seq t1 creq st t2 t3 crsp a b gang members leader wait tenant ctx kind offset length : Nat)
    (w : Bool) (l : List Nat) (cl : List Claim) (ch : List (Nat × Nat)) (q : ClaimReq) (handle : DWord) (mg : MapGrant)
    (an : Announce),
    (∀ f : State → State, fromKnown s h = true → connected s h.src = true → h.epoch = (peerOf s h.src).epoch →
      h.session = (peerOf s h.src).session → (peerOf s h.src).rejoinWait = false →
      (∀ d, onLink s h d f = f (ackFrom (noteHeard s h) h d (some h.ack))) ∧
      (h.psn = (peerOf s h.src).ctl.expect →
        onCtl s h f = f (advanced (ackFrom (noteHeard s h) h none (some h.ack)) h.src true h.psn))) ∧
    (exec (.ack h) s = .next (onLink s h (some h.psn) fun s => performedTo s h.src (h.addr % 2 ^ 32)) ∧
     exec (.nak h) s = .next (onLink s h none fun s => doNak s h) ∧
     exec (.heartbeat h) s = .next (onLink s h (some h.psn) fun s => s) ∧
     exec (.rejoinEnd h) s = .next (onCtl s h fun s => doRejoinEnd s h.src) ∧
     exec (.claim h q) s = .next (onCtl s h fun s => claimArrive s h.src q) ∧
     exec (.commit h a) s = .next (onCtl s h fun s => tokenIn s h true a) ∧
     exec (.reset h) s = .next (onCtl s h fun s => losePeer s h.src .reset Code.fabPeerReset) ∧
     exec (.reroute h) s = .next (onCtl s h fun s =>
       if h.port = pathPort s h.src then s else startReroute s h.src (!(peerOf s h.src).onAlt))) ∧
    (s.ftm.running = true → exec (.timeRequest h seq t1 creq) s = .next (onLink s h (some h.psn) fun s =>
      sendTime s h.src true (.timeResp (treeDepth s) (ftCode s.ftm.state) seq t1 (ft16 s) (ft16 s) creq))) ∧
    (fromKnown s h = true → exec (.announcement h an) s = .next (doAnnouncement s h an)) ∧
    (fromKnown s h = true → exec (.rejoin h a b) s = .next (doRejoin s h a)) ∧
    (fromKnown s h = true → rejoining s h.src = true → exec (.rejoinAck h l) s = .next (doRejoinAck s h l)) ∧
    Idle s [ (.timeRequest h seq t1 creq, s.ftm.running), (.announcement h an, fromKnown s h),
      (.rejoin h a b, fromKnown s h), (.rejoinAck h l, fromKnown s h && rejoining s h.src) ] ∧
    (∀ i : Instr, i ∈ [Instr.ack h, .nak h, .heartbeat h, .timeResponse h st seq t2 t3 creq crsp, .rejoinEnd h, .claim h q,
                       .commit h a, .discard h a, .mapRequest h tenant ctx handle offset length kind w, .mapAnswer h mg,
                       .mapRelease h ctx handle, .gangArrived h gang members leader wait cl ch, .gangStart h gang ch,
                       .gangReady h gang, .gangGo h gang, .gangEnd h gang a, .reset h, .reroute h, .commitAck h,
                       .discardAck h] →
      (fromKnown s h = false → exec i s = .next s) ∧
      (connected s h.src = true → h.epoch = (peerOf s h.src).epoch → h.session ≠ (peerOf s h.src).session →
        exec i s = .next s) ∧
      (fromKnown s h = true → connected s h.src = true → h.epoch ≠ (peerOf s h.src).epoch →
        exec i s = .next (losePeer s h.src .reset Code.fabPeerReset))) ∧
    (∃ f : State → State, exec (.mapRequest h tenant ctx handle offset length kind w) s = .next (onCtl s h f) ∧
      ∀ s, f s = let r := mapGrant s h.src tenant ctx handle offset length kind w
                 sendCtl r.2 h.src 0 (.mapAnswer r.1.ok r.1.reason r.1.base)) ∧
    exec (.discard h a) s = .next (onCtl s h fun s =>
      if h.arg = 0 then tokenIn s h false a else discardForArrive s (h.arg - 1) h.tag) ∧
    exec (.mapAnswer h mg) s = .next (onCtl s h fun s => doMapAnswer s h.src mg) ∧
    exec (.mapRelease h ctx handle) s = .next (onCtl s h fun s => doMapRelease s h.src ctx handle) ∧
    exec (.gangArrived h gang members leader wait cl ch) s =
      .next (onCtl s h fun s => gangArrive s gang h.src h.tag members leader wait cl (h.arg % 2 == 1) ch none) ∧
    exec (.gangStart h gang ch) s = .next (onCtl s h fun s => doGangStart s h gang ch) ∧
    (∃ f : State → State, exec (.gangReady h gang) s = .next (onCtl s h f) ∧
      ∀ s, (gangReadyAt s gang h.src h.tag).com.gangGo.contains gang = false → f s = gangReadyAt s gang h.src h.tag) ∧
    (∃ f : State → State, exec (.gangGo h gang) s = .next (onCtl s h f) ∧ ∀ s, ledBy s gang h.src = none → f s = s) ∧
    (∃ f : State → State, exec (.timeResponse h st seq t2 t3 creq crsp) s = .next (onLink s h (some h.psn) f) ∧
      ∀ s, (s.ftm.outs.find? fun o => o.seq == seq && o.node == h.src && decide (s.now < o.sent + usec 4)) = none → f s = s)

/-- Data blocks (R396–R398, R403, R405): a well-formed write, masked write, reducing write or atomic is taken in the pair's order;
a read and what answers a request likewise; blocks of a bad CRC and of an unknown type count in HNS_BADBLK and change no
memory. A block in its turn is taken after what it acknowledges and the credits that it brings. A block of another session is
discarded, and so is a malformed one. -/
def Obligations.DataBlocksAreTakenInOrder : Prop :=
  ∀ (s : State) (h : BlockHdr) (data : List Byte) (mask : BitVec 128) (es : List AtomEntry) (olds : List DWord) (typ : BitVec 8)
    (port rest : Nat),
    let atomsFit := es.length ≤ 10 ∧ h.arg % 16 ≤ 10 ∧ h.addr % 32 = 0 ∧
      ∀ e ∈ es, e.off + aopSize (h.arg % 16) ≤ 32 ∧ e.off % aopSize (h.arg % 16) = 0
    (granuleOk h data.length = true → exec (.write h data) s = .next (orderedIn s h (.write data))) ∧
    (granuleOk h data.length = false → exec (.write h data) s = .next s) ∧
    (data.length = 128 → h.len = 144 → h.addr % 128 = 0 →
      exec (.writeMasked h mask data) s = .next (orderedIn s h (.writeMasked mask data))) ∧
    (data.length ≠ 128 ∨ h.len ≠ 144 ∨ h.addr % 128 ≠ 0 → exec (.writeMasked h mask data) s = .next s) ∧
    (granuleOk h data.length = true → h.arg % 16 ≤ 3 →
      exec (.reduce h data) s = .next (orderedIn s h (.reduce (h.arg % 16) data))) ∧
    (granuleOk h data.length = false ∨ 3 < h.arg % 16 → exec (.reduce h data) s = .next s) ∧
    (atomsFit → exec (.atomic h es) s = .next (orderedIn s h (.atomic (h.arg % 16) es))) ∧
    (¬ atomsFit → exec (.atomic h es) s = .next s) ∧
    (granuleOk h h.len = true → exec (.read h) s = .next (onData s h fun s => peerRead (settleIn s h.src) h)) ∧
    (granuleOk h h.len = false → exec (.read h) s = .next s) ∧
    exec (.readResp h data) s = .next (onResponse s h fun s r => readBack s data r) ∧
    exec (.atomicResp h olds) s = .next (onResponse s h fun s r => atomsBack s olds r) ∧
    exec (.refused h) s = .next (onData s h fun s => doRefused (settleIn s h.src) h) ∧
    (∀ f : State → State, fromKnown s h = true → connected s h.src = true → h.epoch = (peerOf s h.src).epoch →
      h.session = (peerOf s h.src).session → (peerOf s h.src).rejoinWait = false →
      h.psn = (peerOf s h.src).data.expect →
      onData s h f = f (advanced (ackFrom (noteHeard s h) h (some h.ack) none) h.src false h.psn)) ∧
    (portRuns s h.port = true → knownType typ.toNat = false →
      exec (.reservedBlockType h typ) s = .next (countBad s h.port 1)) ∧
    (portRuns s h.port = false ∨ knownType typ.toNat = true → exec (.reservedBlockType h typ) s = .next s) ∧
    (portRuns s port = true → exec (.blockCrcFail port rest) s = .next (countBad s port (1 + rest))) ∧
    (portRuns s port = false → exec (.blockCrcFail port rest) s = .next s) ∧
    (countBad s port (1 + rest)).mem = s.mem ∧
    (∀ i : Instr, i ∈ [Instr.write h data, .writeMasked h mask data, .reduce h data, .atomic h es, .read h, .readResp h data,
                       .atomicResp h olds, .refused h] →
      connected s h.src = true → h.epoch = (peerOf s h.src).epoch → h.session ≠ (peerOf s h.src).session →
      exec i s = .next s)

/-- Peers, paths and ports (R392, R399, R404, R406–R418): timers and link events take effect where they are due, a frame leaves a
port that runs and is counted as a stall where nothing may go. A peer whose signature check fails is rejected. The ACK timer and
the heartbeat timer queue an unsequenced block on the pair's port, and a trained port runs. -/
def Obligations.PeersAndPortsChangeState : Prop :=
  ∀ (s : State) (node port req cmd : Nat) (ctl ok : Bool) (lanes : BitVec 8) (image : Option (List Byte)),
    ((peerOf s node).state = .unverified → (peerOf s node).heard ≠ none →
      exec (.peerVerified node ok) s = .next (doVerified s node ok)) ∧
    (ackLate s node = true → exec (.ackTimer node) s = .next (sendLink s node 0 (.ack 0))) ∧
    (heartbeatDue s node = true → exec (.heartbeatTimer node) s = .next (sendLink s node 0 .heartbeat)) ∧
    (∀ m, (portOf (sendLink s node 0 m) (pathPort s node)).link_ =
      (portOf s (pathPort s node)).link_ ++ [{ ctlBlk node 0 m with psn := 0 }] ∧ (sendLink s node 0 m).mem = s.mem) ∧
    (resendDue s node ctl = true →
      exec (.resendTimer node ctl) s = .next (resendFrom s node ctl (oldestPsn (streamOf s node ctl)))) ∧
    (resendDue s node ctl = false → announceDue s node = true →
      exec (.resendTimer node ctl) s = .next (sendAnnounce s node)) ∧
    (silent s node 50 = true → exec (.peerSilenceTimeout node) s = .next (losePeer s node .down Code.fabPeerDown)) ∧
    (silent s node 10 = true → (peerOf s node).onAlt = false →
      exec (.pathSilenceTimeout node) s = .next (startReroute s node true)) ∧
    (deadlineMissed s node req = true → exec (.requestDeadline node req) s = .next (doDeadline s node req)) ∧
    (pairIdle s node = true → exec (.pairIdleTimeout node) s = .next (doPairIdle s node)) ∧
    (rerouteDrained s node = true → exec (.rerouteDrainEnd node) s = .next (doRerouteEnd s node)) ∧
    (primaryBack s node = true → exec (.primaryReturn node) s = .next (startReroute s node false)) ∧
    (rejoinLate s cmd = true → exec (.peerRejoinTimeout cmd) s = .next (doRejoinLate s cmd)) ∧
    (mapRemoteLate s node = true → exec (.mapRemoteTimeout node) s = .next (doMapRemoteTimeout s node)) ∧
    ((portOf s port).link = .run → exec (.portLinkDown port) s = .next (doLinkDown s port)) ∧
    (isTraining s port = true → Gives (.portTrained port lanes) s fun t =>
      portOf t port = { portOf s port with link := .run, lanes, runSince := s.now } ∧ t.mem = s.mem) ∧
    (portResetDue s port = true → exec (.portReset port) s = .next (doPortReset s port)) ∧
    (s.fab.topoSt = .loading → exec (.topoLoadDone image) s = .next (doTopoLoadDone s image)) ∧
    (s.fab.topoSt ≠ .loading → exec (.topoLoadDone image) s = .next s) ∧
    Idle s [ (.peerVerified node ok, (peerOf s node).state == .unverified && (peerOf s node).heard.isSome),
      (.ackTimer node, ackLate s node), (.heartbeatTimer node, heartbeatDue s node),
      (.resendTimer node ctl, resendDue s node ctl || announceDue s node),
      (.peerSilenceTimeout node, silent s node 50), (.pathSilenceTimeout node, silent s node 10 && !(peerOf s node).onAlt),
      (.requestDeadline node req, deadlineMissed s node req), (.pairIdleTimeout node, pairIdle s node),
      (.rerouteDrainEnd node, rerouteDrained s node), (.primaryReturn node, primaryBack s node),
      (.peerRejoinTimeout cmd, rejoinLate s cmd), (.mapRemoteTimeout node, mapRemoteLate s node),
      (.portLinkDown port, (portOf s port).link == .run), (.portTrained port lanes, isTraining s port),
      (.portReset port, portResetDue s port) ] ∧
    doVerified s node false = rejectPeer s node ∧
    ((portOf s port).link = .run →
      (∀ f, planFrame s port = some f → exec (.frameSend port) s = .next (sendFrame s port f)) ∧
      (planFrame s port = none → exec (.frameSend port) s = .next (countStall s port))) ∧
    ((portOf s port).link ≠ .run → exec (.frameSend port) s = .next s)

/-- Fabric time (R420–R437): requests, exchanges and their failures, holdover and its limit, the grandmaster, the calendar, the
accounting snapshot, each where it is due and no event of the same instant goes before it. A lost grandmaster leaves the rate at zero; holdover past its limit leaves FT lost;
without a grandmaster at the end of the wait the root's FT is locked; a calendar slot starts once. -/
def Obligations.TimeFollowsTheRoot : Prop :=
  ∀ (s : State) (port tenant : Nat) (a : PtpAnnounce) (offset : Int) (image : Option (List Byte)),
    (timeRequestDue s = true → exec .timeRequestTimer s = .next (doTimeRequests s)) ∧
    (sourceLate s = true → exec .sourceTimeout s = .next (doSourceLate s)) ∧
    (holdoverOver s = true → Gives .holdoverLimit s fun t =>
      t.ftm = { s.ftm with state := .lost } ∧ t.mem = s.mem ∧
      2 ^ 31 ≤ rawReg t (hPgErr pgFTM) 0) ∧
    (s.ftm.running = true → isRoot s = true → s.ftm.gm = true → hostUp s = true →
      exec (.ptpSync offset) s = .next (doPtpSync s offset)) ∧
    (gmWaitOver s = true → Gives .gmWaitExpire s fun t =>
      t = { s with ftm := { s.ftm with state := .locked, everLocked := true, gmAbsent := true } }) ∧
    (isRoot s = true → s.ftm.state = .locked → s.ftm.gm = true → Gives .gmLost s fun t =>
      t.ftm = { s.ftm with gm := false, gmLost := true, rate := 0 } ∧ t.mem = s.mem) ∧
    (calSwitchDue s = true → exec .calendarSwitch s = .next (doCalSwitch s)) ∧
    (snapDue s = true → ftBefore s 2 (snapInstant s) = false →
      exec .accountingSnapshot s = .next (doSnapshot s (snapInstant s))) ∧
    Idle s [ (.timeRequestTimer, timeRequestDue s), (.sourceTimeout, sourceLate s), (.holdoverLimit, holdoverOver s),
      (.ptpSync offset, s.ftm.running && isRoot s && s.ftm.gm && hostUp s), (.gmWaitExpire, gmWaitOver s),
      (.gmLost, isRoot s && s.ftm.state == .locked && s.ftm.gm), (.calendarSwitch, calSwitchDue s),
      (.accountingSnapshot, snapDue s && !ftBefore s 2 (snapInstant s)) ] ∧
    (∀ o, overdue s = some o → exec .timeExchangeTimeout s = .next (doExchangeFail s o)) ∧
    (overdue s = none → exec .timeExchangeTimeout s = .next s) ∧
    (s.ftm.cal.st = .loading → exec (.calendarLoadDone image) s = .next (doCalLoaded s (calImage s image))) ∧
    (imageAwaited s = true → exec (.calendarLoadDone image) s = .next (doCalLate s (calImage s image))) ∧
    (s.ftm.cal.st ≠ .loading → imageAwaited s = false → exec (.calendarLoadDone image) s = .next s) ∧
    (∀ o, slotDue s port = some o →
      (ftBefore s 1 o.start = false →
        Gives (.slotStart port) s fun t => (portOf t port).slot = some o ∧ t.mem = s.mem) ∧
      (ftBefore s 1 o.start = true → exec (.slotStart port) s = .next s)) ∧
    (slotDue s port = none → exec (.slotStart port) s = .next s) ∧
    (qpUp s tenant = true → qpHeld s tenant = false → windowOpen s = false → Gives (.ftmNowRead tenant) s fun t =>
      t.out = .readData tenant (leBytes 8 (ftNs s)) :: s.out ∧ t.ftm = s.ftm ∧ t.mem = s.mem) ∧
    (qpUp s tenant = true → qpHeld s tenant = true → exec (.ftmNowRead tenant) s = .next (park s tenant .ftmNow)) ∧
    (s.ftm.running = true → isRoot s = true → hostUp s = true → a.accepted = true →
      Gives (.ptpAnnounce a) s fun t => (a.domain = hostDomain (regSafePoint s pgFTM Reg.ftmPtpcfg) →
        t.ftm.gm = true ∧ t.ftm.gmAbsent = false ∧ t.ftm.gmLost = false ∧ t.ftm.lastAnn = s.now))

/-! ### The host: register writes, requests, objects -/

/-- Register writes of rows of their own (R453, R454, R574): of tenant 0 they are acknowledged and take effect, of any other
tenant they are answered with a Remote Access NAK and have none; in the boot window they are discarded with
CFG_EMU_UNAVAILABLE; behind something of the queue pair that is not yet performed each waits (R456); on a queue pair that is
down nothing happens. Which rows, and each one's effect, is the table. -/
def Obligations.ManagementWritesTakeEffect : Prop :=
  ∀ (s : State) (t core slice : Nat) (u : CacheUnit) (v : Word) (d : DWord) (tpl : Option (Descriptor × Descriptor)) (i : Instr)
    (call : FwCall) (f : State → State),
    (i, call, f) ∈ ([
      (.cacheDisable t u, .cacheDisable u, fun s => if unitThere s u then drainCache s u else s),
      (.cacheInvalidate t u, .cacheInvalidate u, fun s => if unitThere s u then startInv s u else s),
      (.cacheEnable t u, .cacheEnable u, fun s => if unitThere s u then enableCache s u else s),
      (.l2cKeepClear t slice v, .write (Reg.l2cKeepClear.at_ slice) 4 (v.setWidth 64), fun s => if unitThere s (.l2 slice) ∧ v.getLsbD 0 then clearKept s slice else s),
      (.xltFringHeadWrite t v, .write Reg.xltFringHead.base 4 (v.setWidth 64), fun s => setReg s Reg.xltFringHead 0 v.toNat),
      (.xltFresp t d, .write Reg.xltFresp.base 8 d, fun s => doFresp s d),
      (.xltIringDb t v, .write Reg.xltIringDb.base 4 (v.setWidth 64), fun s => ringInv s v.toNat),
      (.xltFmtWrite t d, .write Reg.xltFmt.base 8 d, fun s => doFmtWrite s d.toNat),
      (.topoLoad t v, .write Reg.hnsTopoCtl.base 4 (v.setWidth 64), fun s => doTopoLoad s v.toNat),
      (.calendarInstall t v, .write Reg.ftmCalCtl.base 4 (v.setWidth 64), fun s => doCalInstall s v.toNat),
      (.seqModelEnable t v tpl, .modelEnable v tpl, fun s => if seqPresent s then doModelEnable s v.toNat tpl else s),
      (.coreMstkHwmWrite t core v, .write (Reg.coreMstkHwm.at_ core) 4 (v.setWidth 64), fun s => if coreOn s core then setReg s Reg.coreMstkHwm core (v.toNat % 64) else s),
      (.coreFaultInfoClear t core v, .write (Reg.coreFaultInfo.at_ core) 4 (v.setWidth 64), fun s => clearFaultInfo s core v.toNat),
      (.hptMgmtipWrite t v, .write Reg.hptMgmtip.base 4 (v.setWidth 64), fun s => setReg s Reg.hptMgmtip 0 v.toNat),
      (.hptIpv4Write t v, .write Reg.hptIpv4.base 4 (v.setWidth 64), fun s => doIpv4 s v.toNat),
      (.errHeadWrite t v, .write Reg.errHead.base 4 (v.setWidth 64), fun s => doErrHead s v.toNat),
      (.errWarmreq t v, .write Reg.errWarmreq.base 4 (v.setWidth 64), fun s => if v = 0x5752 then hostWarm s else s) ] : List (Instr × FwCall × (State → State))) →
    (qpUp s t = false → exec i s = .next s) ∧
    (qpUp s t = true → qpHeld s t = true → exec i s = .next (park s t call)) ∧
    (qpUp s t = true → qpHeld s t = false → windowOpen s = true → exec i s = .next (hptLog (emit s (.ack t)) t Code.cfgEmuUnavailable)) ∧
    (qpUp s t = true → qpHeld s t = false → windowOpen s = false → t ≠ 0 → exec i s = .next (nakAccess s t)) ∧
    (qpUp s t = true → qpHeld s t = false → windowOpen s = false → t = 0 →
      exec i s = .next (pmcEvent (f (emit s (.ack t))) pgHPT 0x0100 1 none))

/-- Emulated register writes of rows of their own (R473): while firmware serves the page, tenant 0's take effect; while it does
not, or something earlier of the queue pair is not yet performed (R456), they wait, each under a number of its own, and after 50 ms one is discarded and acknowledged. -/
def Obligations.EmulatedWritesWaitForFirmware : Prop :=
  ∀ (s : State) (v : Word) (desc : Option (List Byte)) (access : Nat) (i : Instr) (call : FwCall)
    (serves : Bool) (f : State → State),
    (i, call, serves, f) ∈ ([
      (.attestationGo 0 v, .write Reg.secAttCtl.base 4 (v.setWidth 64), s.boot.serving, fun s => doGo s v.toNat),
      (.fwuStage 0 v, .write Reg.fwuCtl.base 4 (v.setWidth 64), s.boot.serving, fun s => fwuCtl s v.toNat 0 doStage),
      (.fwuCommit 0 v, .write Reg.fwuCtl.base 4 (v.setWidth 64), s.boot.serving,
        fun s => fwuCtl s v.toNat 1 doCommitUpdate),
      (.fwuCancel 0 v, .write Reg.fwuCtl.base 4 (v.setWidth 64), s.boot.serving, fun s => fwuCtl s v.toNat 2 doCancel),
      (.fwuFlash 0 v, .write Reg.fwuCtl.base 4 (v.setWidth 64), s.boot.serving, fun s => fwuCtl s v.toNat 3 doFlash),
      (.fwuDesc 0 v desc, .fwuDesc v desc, s.boot.serving, fun s => fwuCtl s v.toNat 4 fun s => doDesc s desc),
      (.schSavepoolWrite 0 v, .write (pgSCH + 0x4C) 4 (v.setWidth 64), fwServes s pgSCH, fun s => doSavepool s v.toNat) ]
      : List (Instr × FwCall × Bool × (State → State))) →
    qpUp s 0 = true → windowOpen s = false →
    (serves = true → qpHeld s 0 = false → exec i s = .next (pmcEvent (f (emit s (.ack 0))) pgHPT 0x0100 1 none)) ∧
    (serves = false ∨ qpHeld s 0 = true → Gives i s fun t => ∃ p, t.obj.parked = s.obj.parked ++ [p] ∧ p.id = s.obj.nextPark ∧
      p.tenant = 0 ∧ p.call = call ∧ p.since = s.now ∧ t.mem = s.mem) ∧
    (∀ p, overdueAccess s access = some p → Gives (.emuAccessTimeout access) s fun t =>
      (∀ q ∈ t.obj.parked, q.id ≠ p.id) ∧ t.out.head? = some (.ack p.tenant)) ∧
    (overdueAccess s access = none → exec (.emuAccessTimeout access) s = .next s)

/-- Registers of any page (R453–R471): a write outside the doorbells of another tenant than 0 is a Remote Access NAK, one of
a wrong form an Invalid Request NAK, and one behind something not yet performed waits (R456). APPLY, HALT, RESET_REQ and
ENABLE of a page that hardware serves act as the page honors them; a block that has reached its halt reads HALT; PMC_CLEAR
clears the counters where it may. The host port (R449–R452, R456, R478, R487): connections, grace, acknowledgments, link
loss and retraining take effect where they are due, and change nothing elsewhere. A REQ that is not accepted is answered
REJ; one that is makes the tenant's queue pair, without error, of that address. A training that fails is due again one
second later. -/
def Obligations.RegisterPagesAndTheHostPort : Prop :=
  (∀ (s : State) (t page addr size : Nat) (value : DWord) (on : Bool),
     (qpUp s t = true → exec (.registerWrite t addr size value) s = .next (doRegisterWrite s t addr size value)) ∧
     (haltDue s page = true →
       exec (.haltReached page) s = .next (setRaw s (hPgStat page) (rawReg s (hPgStat page) 0 / 16 * 16 + 3))) ∧
     exec (.pmcClear t page) s = .next (doPmcClear s t page) ∧
     Idle s [ (.registerWrite t addr size value, qpUp s t), (.haltReached page, haltDue s page) ] ∧
     (qpUp s t = true → qpHeld s t = false → t ≠ 0 → ¬ (0x400000 ≤ addr ∧ addr < 0x800000) →
       exec (.registerWrite t addr size value) s = .next (nakAccess s t)) ∧
     (qpUp s 0 = true → qpHeld s 0 = false → ¬ (0x400000 ≤ addr ∧ addr < 0x800000) → formOk addr size = false →
       exec (.registerWrite 0 addr size value) s = .next (nakInvalid s 0)) ∧
     (qpUp s t = true → qpHeld s t = true →
       exec (.registerWrite t addr size value) s = .next (park s t (.write addr size value))) ∧
     (∀ (i : Instr) (f : State → State),
       (i, f) ∈ ([ (.pgApply 0 page, fun s => doApply s page), (.pgHalt 0 page on, fun s => doHalt s page on),
                   (.pgResetReq 0 page, fun s => doResetReq s page), (.pgEnable 0 page on, fun s => doEnable s page on) ]
                 : List (Instr × (State → State))) →
       qpUp s 0 = true → qpHeld s 0 = false → windowOpen s = false → waitsForFw s page = false → pagePresent s page = true →
       exec i s = .next (pmcEvent (f (emit s (.ack 0))) pgHPT 0x0100 1 none)) ∧
     (haltDue s page = true → Gives (.haltReached page) s fun t =>
       rawReg t (hPgStat page) 0 % 16 = 3 ∧ t = { s with regs := t.regs })) ∧
  (∀ (s : State) (tenant srcIp id : Nat) (key old : DWord) (ok : Bool),
     (hostUp s = true → exec (.cmReq tenant srcIp key) s = .next (doCmReq s tenant srcIp key)) ∧
     (reqAccepted s tenant srcIp key = false → hostUp s = true → exec (.cmReq tenant srcIp key) s = .next (emit s (.rej tenant))) ∧
     (reqAccepted s tenant srcIp key = true → hostUp s = true → Gives (.cmReq tenant srcIp key) s fun t =>
       mget t.obj.qps tenant = some { src := srcIp, err := none, gone := false } ∧ t.mem = s.mem ∧ t.cmds = s.cmds) ∧
     (∀ q, connectedQp s tenant = some q → q.gone = false → hostUp s = true →
       exec (.cmDreq tenant) s = .next (loseConnection s tenant)) ∧
     mget (loseConnection s 0).obj.qps 0 = none ∧
     (graceOver s tenant = true → exec (.connectionGraceExpire tenant) s = .next (loseConnection s tenant)) ∧
     ((mget s.obj.pend id).isSome = true → hostUp s = true →
       exec (.hostRdmaAck id ok old) s = .next (doHostRdmaAck s id ok old)) ∧
     (hostUp s = true → exec .hostPortLinkDown s = .next (doHostLinkDown s)) ∧
     (retrainDue s = true → exec (.hostPortRetrain ok) s = .next (doRetrain s ok)) ∧
     doRetrain s false = { s with obj := { s.obj with retrainAt := some s.now } } ∧
     Idle s [ (.cmReq tenant srcIp key, hostUp s), (.cmDreq tenant, (connectedQp s tenant).any (fun q => !q.gone) && hostUp
       s), (.connectionGraceExpire tenant, graceOver s tenant), (.hostRdmaAck id ok old, (mget s.obj.pend id).isSome &&
       hostUp s), (.hostPortLinkDown, hostUp s), (.hostPortRetrain ok, retrainDue s) ])

/-- Requests (R481–R486): on a queue pair that is up, while firmware serves and nothing earlier of the queue pair is left,
each does what its operation says; otherwise the request waits behind those that wait, with the time it came and its
operands; on a queue pair that is down nothing happens. What objects, mappings, contexts, queues and fences leave behind
goes where nothing holds it any more (R333, R493, R494, R508–R510): a freed queue is in no slot, and a freed fence's slot
goes to its next generation. -/
def Obligations.RequestsAreServedAndThingsReleased : Prop :=
  (∀ (s : State) (r : Request) (a b c e k l m n : Nat) (x y : DWord) (i : Instr) (call : FwCall) (t : State),
     (i, call, t) ∈ ([
       (.createTenant r a x b c e, .createTenant r a x b c e, doCreateTenant s r a x b c e),
       (.destroyTenant r a, .destroyTenant r a, doDestroyTenant s r a),
       (.createContext r a, .createContext r a, doCreateContext s r a),
       (.teardownContext r a, .teardownContext r a, doTeardownContext s r a),
       (.createQueue r a b c e x y, .createQueue r a b c e x y, doCreateQueue s r a b c e x y),
       (.destroyQueue r a, .destroyQueue r a, doDestroyQueue s r a),
       (.createFence r a b c, .createFence r a b c, doCreateFence s r a b c),
       (.destroyFence r a, .destroyFence r a, doDestroyFence s r a),
       (.signalFence r a b, .signalFence r a b, doSignalFence s r a b),
       (.poisonFence r a b, .poisonFence r a b, doPoisonFence s r a b),
       (.shareFence r a b, .shareFence r a b, doShareFence s r a b),
       (.createObject r a b, .createObject r a b, doCreateObject s r a b),
       (.mapObject r x a b c e k l, .mapObject r x a b c e k l, doMapObject s r x a b c e k l),
       (.unmap r a b c, .unmap r a b c, doUnmap s r a b c),
       (.mapRemote r a b c e k l x m n, .mapRemote r a b c e k l x m n, doMapRemote s r a b c e k l x m n),
       (.shareObject r x a, .shareObject r x a, doShareObject s r x a),
       (.requestBadOp r a, .requestBadOp r a, doBadOp s r) ] : List (Instr × FwCall × State)) →
     (reqReady s r = true → exec i s = .next t) ∧
     (reqReady s r = false → exec i s = .next (park s r.tenant call)) ∧
     (qpUp s r.tenant = false → exec i s = .next s) ∧
     (reqReady s r = false → qpUp s r.tenant = true → Gives i s fun u =>
       u.obj.parked = s.obj.parked ++ [⟨s.obj.nextPark, s.now, r.tenant, call⟩] ∧ u.mem = s.mem ∧ u.cmds = s.cmds)) ∧
  (∀ (s : State) (ctx queue fence va handle : Nat),
     (teardownReady s ctx = true → exec (.teardownFinish ctx) s = .next (doTeardownFinish s ctx)) ∧
     (queueFreeReady s queue = true → exec (.queueFree queue) s = .next (doQueueFree s queue)) ∧
     mget (doQueueFree s queue).obj.queues queue = none ∧
     (∀ f, mget s.obj.fences fence = some f → mget (freeFence s fence).obj.fences fence =
       some { f with live := false, freeing := false, gen := (f.gen + 1) % 65536, shares := [] }) ∧
     (fenceFreeReady s fence = true → exec (.fenceSlotFree fence) s = .next (freeFence s fence)) ∧
     (unmapReady s ctx va = true → exec (.unmapTakesEffect ctx va) s = .next (doUnmapEffect s ctx va)) ∧
     (reclaimReady s handle = true → exec (.reclaimDone handle) s = .next (doReclaimDone s handle)) ∧
     Idle s [ (.teardownFinish ctx, teardownReady s ctx), (.queueFree queue, queueFreeReady s queue), (.fenceSlotFree fence,
       fenceFreeReady s fence), (.unmapTakesEffect ctx va, unmapReady s ctx va), (.reclaimDone handle, reclaimReady s
       handle) ])

/-- Fence signals (R504): above VALUE and below 2⁶³, of a live fence that is not poisoned, a signal sets VALUE; at or below it is
ignored and logs FENCE_REGRESS; of 2⁶³ or more it poisons the fence with FENCE_RANGE and leaves VALUE; of a poisoned fence it
changes nothing. SIGNAL_FENCE does this and answers the value before; POISON_FENCE poisons only a fence without poison. -/
def Obligations.FencesFollowTheirSignals : Prop :=
  ∀ (s : State) (r : Request) (n v code : Nat) (f : Fence), mget s.obj.fences n = some f → f.live = true →
    (f.poison = 0 → f.value < v → v < 2 ^ 63 → mget (fenceSignal s n v).obj.fences n = some { f with value := v }) ∧
    (f.poison = 0 → v ≤ f.value → v < 2 ^ 63 → (fenceSignal s n v).obj.fences = s.obj.fences ∧
      fenceSignal s n v = errWrite s { errBase s Code.fenceRegress 0 (pgId pgSCH) with tenant := f.tenant, ctx := f.ctx }) ∧
    (f.poison = 0 → 2 ^ 63 ≤ v →
      mget (fenceSignal s n v).obj.fences n = some { f with poison := Code.fenceRange }) ∧
    (f.poison ≠ 0 → fenceSignal s n v = s ∧ fencePoison s n code = s) ∧
    (f.poison = 0 → mget (fencePoison s n code).obj.fences n = some { f with poison := code }) ∧
    (reqReady s r = true → r.rsv = false → f.freeing = false → fenceUsable f r.tenant = true →
      exec (.signalFence r n v) s = .next (accept (settled (fenceSignal s n v)) r f.value) ∧
      (0 < code → code < 65536 →
        exec (.poisonFence r n code) s = .next (accept (settled (fencePoison s n code)) r 0)))

/-- The reference-count region (R490): a read answers the entries of the tenant's handles and zero for others; Fetch-and-Add
of one is applied to REFS where it succeeds and answers the entry as it was; Compare-and-Swap answers the entry, changes
nothing and logs OBJ_REF_INVALID; a write is a Remote Access NAK. -/
def Obligations.ReferenceCountsFollowTheHost : Prop :=
  ∀ (s : State) (t h n : Nat) (add : DWord) (o : MemObj), hostReady s t = true →
    (0 < n → h + n ≤ 4194304 → Gives (.refcountRead t h n) s fun u => ∃ d,
      u = emit s (.readData t d) ∧ d.length = 8 * n ∧
      ∀ k, k < n → (d.drop (8 * k)).take 8 = leBytes 8 (match mget s.obj.objs (h + k) with
        | some x => if mayAct t x.owner then objEntry x else 0
        | none => 0)) ∧
    (n = 0 ∨ 4194304 < h + n → exec (.refcountRead t h n) s = .next (nakAccess s t)) ∧
    exec (.refcountWrite t h) s = .next (nakAccess s t) ∧
    (mget s.obj.objs h = some o → mayAct t o.owner = true → Gives (.refcountCas t h) s fun u =>
      u.obj.objs = s.obj.objs ∧ u.mem = s.mem) ∧
    (mget s.obj.objs h = some o → h < 4194304 →
      (mayAct t o.owner = true → o.state = .live → 0 < o.refs → o.refs < 0xFFFFFFFF → Gives (.refcountFetchAdd t h 1) s fun u =>
        u.out.head? = some (.atomicData t (BitVec.ofNat 64 (objEntry o))) ∧
        mget u.obj.objs h = some { o with refs := o.refs + 1 }) ∧
      (mayAct t o.owner = true → o.state = .live → 1 < o.refs → Gives (.refcountFetchAdd t h (BitVec.allOnes 64)) s fun u =>
        mget u.obj.objs h = some { o with refs := o.refs - 1 }) ∧
      (mayAct t o.owner = false ∨ o.state ≠ .live ∨ o.refs = 0 ∨ (add ≠ 1 ∧ add ≠ BitVec.allOnes 64) →
        Gives (.refcountFetchAdd t h add) s fun u => u.obj.objs = s.obj.objs ∧ u.mem = s.mem))

/-- The object region (R287, R491, R492): an access to an object that is not LIVE, outside its size or not permitted is a
Remote Access NAK; a read answers the bytes; a write or an atomic of pairs that are not IDLE is an RNR NAK and changes
no memory; else a write is acknowledged and an atomic answers the old value. -/
def Obligations.ObjectRegionFollowsTheHost : Prop :=
  ∀ (s : State) (t h off len : Nat) (d : List Byte) (cas : Bool) (opnd cmp : DWord), hostReady s t = true →
    exec (.objectRdmaRead t h off len) s = .next (doObjectRead s t h off len) ∧
    exec (.objectRdmaWrite t h off d) s = .next (doObjectWrite s t h off d) ∧
    exec (.objectRdmaAtomic t h off cas opnd cmp) s = .next (doObjectAtomic s t h off cas opnd cmp) ∧
    (objRange s h off len = none → 0 < len → len ≤ 2 ^ 31 →
      exec (.objectRdmaRead t h off len) s = .next (nakAccess s t)) ∧
    (d ≠ [] → objRange s h off d.length = none → exec (.objectRdmaWrite t h off d) s = .next (nakAccess s t)) ∧
    (∀ o, 0 < len → len ≤ 2 ^ 31 → objRange s h off len = some o → mayRead o t = true → rangePoisoned s o off len = false →
      Gives (.objectRdmaRead t h off len) s fun u =>
        u.out = .readData t (objBytesAt s o len off) :: s.out ∧ u.mem = s.mem) ∧
    (∀ o, d ≠ [] → objRange s h off d.length = some o →
      (mayWrite o t = false → exec (.objectRdmaWrite t h off d) s = .next (nakAccess s t)) ∧
      (mayWrite o t = true → rangeIdle s o off d.length = false → Gives (.objectRdmaWrite t h off d) s fun u =>
        u.mem = s.mem ∧ u.out = .nakRnr t :: s.out) ∧
      (mayWrite o t = true → rangeIdle s o off d.length = true → Gives (.objectRdmaWrite t h off d) s fun u =>
        u.out = .ack t :: s.out ∧ u.mem = (putObj s o off d).mem))

/-! ### Power, boot, firmware, errors, recovery, monitor -/

/-- Bridle (R549–R566): an evaluation, the fast limiter, the thermal steps, the governor's pre-ramps and their ends, idle and
duty changes, each where its condition holds. -/
def Obligations.BridleActsOnItsConditions : Prop :=
  ∀ (s : State) (sense : BridleSense) (core temp instant domain : Nat) (domains : BitVec 16),
    (s.boot.ready = true → since s s.bdl.lastEval (usec 10) = true → senseOk s sense = true →
      exec (.bridleEvaluation sense) s = .next (doEvaluation s sense)) ∧
    (s.boot.ready = true → senseOk s sense = true → (List.range 16).any (overCurrent sense) = true →
      exec (.fastLimiter sense) s = .next (doFastLimiter s sense)) ∧
    (coreUp s core = true → 110 ≤ temp → (domOf s (core / 12)).crit = false →
      exec (.thermalCritical core temp) s = .next (doThermalCritical s core)) ∧
    (memStepDue s = true → exec .memThermalCeilingStep s = .next (doMemStep s)) ∧
    (preReady s instant domains = true → exec (.governorPreramp instant domains) s = .next (doPreramp s instant domains)) ∧
    (holdOver s = true →
      exec .prerampHoldEnd s =
        .next ({ s with bdl := { s.bdl with holds := s.bdl.holds.filter fun h => decide (ftNs s < h.1 + 100000) } })) ∧
    (idleDue s domain = true → exec (.idleLowering domain) s = .next (modDom s domain fun x => { x with idle := true })) ∧
    (dutyDue s domain = true → exec (.dutyPeriod domain) s = .next (doDutyPeriod s domain)) ∧
    Idle s [ (.bridleEvaluation sense, s.boot.ready && since s s.bdl.lastEval (usec 10) && senseOk s sense), (.fastLimiter
      sense, s.boot.ready && senseOk s sense && (List.range 16).any (overCurrent sense)), (.thermalCritical core temp,
      coreUp s core && decide (110 ≤ temp) && !(domOf s (core / 12)).crit), (.memThermalCeilingStep, memStepDue s),
      (.governorPreramp instant domains, preReady s instant domains), (.prerampHoldEnd, holdOver s), (.idleLowering
      domain, idleDue s domain), (.dutyPeriod domain, dutyDue s domain) ]

/-- Cold boot (R567–R585): CAR_PWRGD, the hold-off, the rails, the boot ROM, the boot window's doorbell, the start of firmware,
each where the boot stands at it; a module that CAR_PWRGD has turned on does not boot again. -/
def Obligations.BootRunsInItsStages : Prop :=
  ∀ (s : State) (rail coresFailed stacksFailed epoch idHash : Nat) (lanes : List (Nat × Nat × Nat))
    (pufOk randomOk sramOk : Bool) (image : List Byte),
    (s.mon.carPwrgd = false → exec .coldBoot s = .next (doColdBoot s)) ∧
    (s.mon.riseWaits = true → holdoffOver s = true → exec .pwrgdHoldoffExpire s = .next (startRails s)) ∧
    (railLate s rail = true → exec (.railSequenceTimeout rail) s = .next (doRailFault s rail)) ∧
    (s.mon.railsAt.isSome = true → exec (.bootRomStart pufOk) s = .next (doBootRom s pufOk)) ∧
    (windowOpen s = true → qpUp s 0 = true → exec (.bootWindowRing image) s = .next (doRing s image)) ∧
    (s.boot.stage = 5 →
      exec (.firmwareStart coresFailed stacksFailed lanes randomOk sramOk epoch idHash) s =
        .next (doFirmwareStart s coresFailed stacksFailed lanes randomOk sramOk epoch idHash)) ∧
    Idle s [ (.coldBoot, !s.mon.carPwrgd), (.pwrgdHoldoffExpire, s.mon.riseWaits && holdoffOver s), (.railSequenceTimeout
      rail, railLate s rail), (.bootRomStart pufOk, s.mon.railsAt.isSome), (.bootWindowRing image, windowOpen s &&
      qpUp s 0), (.firmwareStart coresFailed stacksFailed lanes randomOk sramOk epoch idHash, s.boot.stage == 5) ]

/-- Firmware update and attestation (R586–R603): fetch, verification, hand-off, probation and flash go on where the update
stands at them. A hand-off that is rejected or runs out of probation puts the update in REJECTED with REASON 6 or 7 and
firmware serves again; a failed flash write with REASON 8. -/
def Obligations.UpdatesRunInTheirStates : Prop :=
  ∀ (s : State) (ok : Bool) (image : Option (List Byte)),
    (s.boot.att = .signing → s.boot.identity = true → exec (.attestationSigned ok) s = .next (doSigned s ok)) ∧
    (s.boot.fwu.st = .fetching → s.boot.serving = true → exec (.fwuFetchDone image) s = .next (doFetched s image)) ∧
    (s.boot.fwu.st = .verifying → s.boot.serving = true → exec .fwuVerifyDone s = .next (doFwuVerified s)) ∧
    (s.boot.fwu.st = .flashing → s.boot.serving = true → exec (.flashWriteDone ok) s = .next (doFlashed s ok)) ∧
    (handoffDue s = true → exec .firmwareHandoff s = .next (doHandoff s)) ∧
    (s.boot.fwu.handing = true → alive s = true → handoffLate s = false → exec .handoffResume s = .next (doHandoffResume s)) ∧
    (s.boot.fwu.handing = true → alive s = true → handoffLate s = true → exec .handoffWatchdog s = .next (doHandoffExpired s)) ∧
    (onProbation s = true → probationOver s = false → exec .handoffOk s = .next (doHandoffOk s)) ∧
    (onProbation s = true → exec .handoffRejected s = .next (revertTime (revert (putHandoffStatus s 2) 6))) ∧
    (onProbation s = true → probationOver s = true → exec .probationTimeout s = .next (revertTime (revert s 7))) ∧
    Idle s [ (.attestationSigned ok, s.boot.att == .signing && s.boot.identity), (.fwuFetchDone image, s.boot.fwu.st ==
      .fetching && s.boot.serving), (.fwuVerifyDone, s.boot.fwu.st == .verifying && s.boot.serving), (.flashWriteDone
      ok, s.boot.fwu.st == .flashing && s.boot.serving), (.firmwareHandoff,
      handoffDue s), (.handoffResume, s.boot.fwu.handing && alive s &&
      !handoffLate s), (.handoffWatchdog, s.boot.fwu.handing && alive s && handoffLate s), (.handoffOk, onProbation s
      && !probationOver s), (.handoffRejected, onProbation s), (.probationTimeout, onProbation s && probationOver s) ] ∧
    (∀ n, (revertTime (revert s n)).boot.fwu.st = .rejected ∧ (revertTime (revert s n)).boot.fwu.reason = n ∧
      (revertTime (revert s n)).boot.serving = true) ∧
    ((doFlashed s false).boot.fwu.st = .rejected ∧ (doFlashed s false).boot.fwu.reason = 8) ∧
    ((doFetched s none).boot.fwu.st = .rejected ∧ (doFetched s none).boot.fwu.reason = 4)

/-- Recovery, dumps and warm reset (R609–R635): each step happens where it is due; a warm reset that is due happens while the
module works, as a storm halt where resets storm; a suspect's replay marks the suspect as replaying. -/
def Obligations.RecoveriesTakeTheirSteps : Prop :=
  ∀ (s : State) (core code unit coresFailed : Nat),
    (s.boot.ready = true → alive s = true → s.err.warmReq.isNone = true → since s s.err.lastCheck (msec 1) = true →
      exec .jackCheck s = .next (doJackCheck s)) ∧
    (coreResetDue s core code = true → exec (.coreReset core code) s = .next (doCoreReset s core code)) ∧
    ((mget s.err.coreDown core).isSome = true → alive s = true →
      exec (.coreResetDone core) s =
        .next (endRecovery (modErr s fun e => { e with coreDown := mdel e.coreDown core }) (.core core))) ∧
    (s.boot.ready = true → alive s = true → s.err.clusterDown.isNone = true → s.boot.serving = true → s.err.warmReq.isNone = true →
      exec .controlClusterRestart s = .next (doClusterRestart s)) ∧
    (s.err.clusterDown.isSome = true → alive s = true → exec .controlClusterRestartDone s = .next (doClusterBack s)) ∧
    (s.err.dumping.isSome = true → exec (.dumpReadTimeout unit) s = .next (doDumpMiss s unit)) ∧
    (dumpLate s = true → exec .dumpTimeout s = .next (endDump s true)) ∧
    (copyReady_ s = true → s.err.dumping.isNone = true → exec .dumpCopy s = .next (doDumpCopy s)) ∧
    (s.err.warmPhase.isSome = true → exec (.warmRestart coresFailed) s = .next (doWarmRestart s coresFailed)) ∧
    Idle s [ (.jackCheck, s.boot.ready && alive s && s.err.warmReq.isNone && since s s.err.lastCheck (msec 1)), (.coreReset
      core code, coreResetDue s core code), (.coreResetDone core, (mget s.err.coreDown core).isSome && alive s),
      (.controlClusterRestart, s.boot.ready && alive s && s.err.clusterDown.isNone && s.boot.serving &&
      s.err.warmReq.isNone), (.controlClusterRestartDone, s.err.clusterDown.isSome && alive s), (.dumpReadTimeout
      unit, s.err.dumping.isSome), (.dumpTimeout, dumpLate s), (.dumpCopy, copyReady_ s && s.err.dumping.isNone),
      (.warmRestart coresFailed, s.err.warmPhase.isSome) ] ∧
    (∀ r, nextRecovery s = some r → exec .recoveryStart s = .next (beginRecovery s r)) ∧
    (nextRecovery s = none → exec .recoveryStart s = .next s) ∧
    (∀ r, recoveryLate s = some r → exec .recoveryTimeout s = .next (escalate s r.domain r.code)) ∧
    (recoveryLate s = none → exec .recoveryTimeout s = .next s) ∧
    (∀ trigger c, s.err.warmReq = some (trigger, c) → alive s = true →
      exec .warmReset s = .next (if storm s then haltStorm s else doWarmReset s trigger c)) ∧
    (s.err.warmReq = none ∨ alive s = false → exec .warmReset s = .next s) ∧
    (∀ i, oldestSuspect s = some i → replayDue s = true →
      Gives .suspectReplay s fun t => t.err = { s.err with replaying := some i } ∧ t.mem = s.mem) ∧
    (replayDue s = false → exec .suspectReplay s = .next s)

/-- The error ring and PG_ERR (R464, R607, R608): an entry of severity CORRECTED, LOGGED or COMMAND that finds fewer than 17 free
slots is not written and is counted; a UNIT or FATAL one that finds none is not written, and a warm reset with TRIGGER 3 is
due; any other is written with the tail's number, and the tail rises. ERR_HEAD ignores a value below itself or above the
tail. A page's PG_ERR holds its first error until it is cleared. -/
def Obligations.ErrorRingAndPageErrors : Prop :=
  ∀ (s : State) (e : ErrEntry) (v page code : Nat),
    (e.sev ≤ 2 → errFree s < 17 → (errWrite s e).err = s.err ∧ reg (errWrite s e) Reg.errTail = reg s Reg.errTail ∧
      reg (errWrite s e) Reg.errDropped = satInc (reg s Reg.errDropped) 1 % 2 ^ 64) ∧
    (2 < e.sev → errFree s = 0 → errWrite s e = dueWarm s 3 e.code) ∧
    (17 ≤ errFree s ∨ (2 < e.sev ∧ 0 < errFree s) →
      (errWrite s e).err.ring.head? = some { e with seq := reg s Reg.errTail } ∧
      reg (errWrite s e) Reg.errTail = (reg s Reg.errTail + 1) % 2 ^ 64 ∧
      ∀ x ∈ s.err.ring, x.seq % 256 ≠ reg s Reg.errTail % 256 → x ∈ (errWrite s e).err.ring) ∧
    (v < reg s Reg.errHead ∨ reg s Reg.errTail < v → doErrHead s v = s) ∧
    (reg s Reg.errHead ≤ v → v ≤ reg s Reg.errTail → v < 2 ^ 64 → reg (doErrHead s v) Reg.errHead = v) ∧
    (page < 2 ^ 40 → code < 65536 →
      (2 ^ 31 ≤ rawReg s (hPgErr page) 0 → rawReg (pgErr s page code) (hPgErr page) 0 = rawReg s (hPgErr page) 0) ∧
      (rawReg s (hPgErr page) 0 < 2 ^ 31 → rawReg (pgErr s page code) (hPgErr page) 0 = 2 ^ 31 + code))

/-- Power and the monitor (R636–R650): an excursion of the input or a trip temperature turns off every rail but VAUX and latches its
cause, once; loss of VAUX or of CAR_PWRGD turns the module off; an excursion just outside the range only alerts. -/
def Obligations.ProtectionTurnsTheModuleOff : Prop :=
  ∀ (s : State) (mv ma core stack vr outlet : Nat),
    (s.mon.carPwrgd = true → exec .powerOff s = .next (doPowerOff s)) ∧
    (watched s = true → marginal mv = true → exec (.inputMarginal mv) s = .next (doMarginal s)) ∧
    (watched s = true → mv < 55000 → s.mon.brownout = false →
      exec (.brownoutShutdown mv) s = .next (shutdown s fun m => { m with brownout := true })) ∧
    (watched s = true → 63000 < mv → s.mon.overvolt = false →
      exec (.overvoltageShutdown mv) s = .next (shutdown s fun m => { m with overvolt := true })) ∧
    (watched s = true → 62000 < ma → s.mon.overcur = false →
      exec (.overcurrentShutdown ma) s = .next (shutdown s fun m => { m with overcur := true })) ∧
    (s.mon.vaux = true → mv < 40000 → exec (.vauxLoss mv) s = .next (doVauxLoss s)) ∧
    (watched s = true → tripsAt core stack vr outlet = true → s.mon.thermTrip = false →
      exec (.thermalTrip core stack vr outlet) s = .next (doThermalTrip s)) ∧
    Idle s [ (.powerOff, s.mon.carPwrgd), (.inputMarginal mv, watched s && marginal mv), (.brownoutShutdown mv, watched s &&
      decide (mv < 55000) && !s.mon.brownout), (.overvoltageShutdown mv, watched s && decide (63000 < mv) &&
      !s.mon.overvolt), (.overcurrentShutdown ma, watched s && decide (62000 < ma) && !s.mon.overcur), (.vauxLoss mv,
      s.mon.vaux && decide (mv < 40000)), (.thermalTrip core stack vr outlet, watched s && tripsAt core stack vr
      outlet && !s.mon.thermTrip) ] ∧
    (∀ f : Monitor → Monitor, (f { s.mon with pwrok := false, railsAt := none, riseWaits := false }).pwrok = false →
      (shutdown s f).mon.pwrok = false) ∧
    (doThermalTrip s).mon.thermTrip = true ∧ (doThermalTrip s).mon.pwrok = false ∧ (doPowerOff s).mon.pwrok = false ∧
    (doVauxLoss s).mon.pwrok = false

/-- The monitor's commands (R647–R650): on VAUX each answers, STATUS with the status word, ENERGY and BOOTSTAT as 0 until
MOD_PWROK has risen, a measurement with a free value of 16 bits (log entries 4 and 13), and changes nothing of the module
but the free values drawn; off VAUX none answers. Awl (R651–R663): TRST_N low selects IDCODE and holds it there; while it is
high an instruction code selects its instruction, and BYPASS where it names none; a sample that matches an armed trigger
raises it, or counts as a match while it is up. -/
def Obligations.MonitorAndAwlAnswer : Prop :=
  (∀ (s : State) (value : Byte),
     (s.mon.vaux = true → exec .status s = .next (smbWord s (statusWord s))) ∧
     (s.mon.vaux = true → exec .vin s = .next (smbSense s)) ∧
     (s.mon.vaux = true → exec .iin s = .next (smbSense s)) ∧
     (s.mon.vaux = true → exec .tCore s = .next (smbSense s)) ∧
     (s.mon.vaux = true → exec .tHbm s = .next (smbSense s)) ∧
     (s.mon.vaux = true → exec .tVr s = .next (smbSense s)) ∧
     (s.mon.vaux = true → exec .inlet s = .next (smbSense s)) ∧
     (s.mon.vaux = true → exec .outlet s = .next (smbSense s)) ∧
     (s.mon.vaux = true → exec .pin s = .next (smbWord s s.bdl.sense.avg1ms)) ∧
     (s.mon.vaux = true → exec .pinPeak s = .next (smbWord s (inputPeak s))) ∧
     (s.mon.vaux = true → exec .ein s = .next (smbDie s s.srv.meter)) ∧
     (s.mon.vaux = true → exec .bootstat s = .next (smbDie s (bootstat s))) ∧
     (s.mon.vaux = true →
       exec .part s = .next (emit s (.smb (leBytes 4 (devPartWord s) ++ leBytes 6 Config.dieNumber ++ leBytes 2 0)))) ∧
     (s.mon.vaux = true → s.mon.pwrok = true → value = 0x52#8 → exec (.smbWarmReset value) s = .next (hostWarm s)) ∧
     (s.mon.vaux = true → exec (.clearAlert value) s = .next (releaseAlert s)) ∧
     (s.mon.vaux = true → s.mon.alert = true →
       exec .alertResponse s = .next (releaseAlert (emit s (.smb (leBytes 1 (2 * (0x60 + Config.addrStrap.toNat))))))) ∧
     Idle s [ (.status, s.mon.vaux), (.vin, s.mon.vaux), (.iin, s.mon.vaux), (.tCore, s.mon.vaux), (.tHbm, s.mon.vaux), (.tVr,
       s.mon.vaux), (.inlet, s.mon.vaux), (.outlet, s.mon.vaux), (.pin, s.mon.vaux), (.pinPeak, s.mon.vaux), (.ein,
       s.mon.vaux), (.bootstat, s.mon.vaux), (.part, s.mon.vaux), (.smbWarmReset value, s.mon.vaux && s.mon.pwrok &&
       value == 0x52#8), (.clearAlert value, s.mon.vaux), (.alertResponse, s.mon.vaux && s.mon.alert) ] ∧
     (s.mon.vaux = true → s.mon.pwrok = false → Gives .ein s fun t => t.out = .smb (leBytes 8 0) :: s.out) ∧
     (s.mon.vaux = true → Gives .vin s fun t => ∃ d, t.out = .smb d :: s.out ∧ d.length = 2 ∧ t.mon = s.mon ∧ t.mem = s.mem) ∧
     (s.mon.vaux = true → s.mon.alert = true → Gives (.clearAlert value) s fun t => t.mon.alert = false)) ∧
  (∀ (s : State) (code : Nat) (low : Bool) (sample : Word),
     Gives (.trstN low) s (fun t => t.awl = { s.awl with trstLow := low, tap := if low then .idcode else s.awl.tap } ∧
       t = { s with awl := t.awl }) ∧
     (s.awl.trstLow = true → exec (.jtagInstruction code) s = .next s) ∧
     (s.awl.trstLow = false → Gives (.jtagInstruction code) s fun t =>
       t.awl = { s.awl with tap := tapOf code } ∧ t = { s with awl := t.awl }) ∧
     (5 < code ∨ code = 0 → tapOf code = .bypass) ∧
     (triggerOn s = false ∨ matchesTrig s sample = false → exec (.awlTrigger sample) s = .next s) ∧
     (triggerOn s = true → matchesTrig s sample = true →
       (s.awl.trig = none → exec (.awlTrigger sample) s = .next (trigRise s)) ∧
       (s.awl.trig ≠ none → Gives (.awlTrigger sample) s fun t => t.awl = { s.awl with matched := s.now } ∧
         t = { s with awl := t.awl })))
end

