-- ==== Sys2Proof/Laws/Maps.lean ====
section
/-! SUPPORT. What the maps of the state hold after an update. -/

namespace Sys2Proof.Machine

@[simp] theorem mget_nil {β : Type} (k : Nat) : mget ([] : NMap β) k = none := rfl

theorem mget_mset {β : Type} (m : NMap β) (k : Nat) (v : β) (j : Nat) :
    mget (mset m k v) j = if j = k then some v else mget m j := by
  induction m with
  | nil => simp [mset, mget, eq_comm]
  | cons e t ih =>
    obtain ⟨k', v'⟩ := e
    simp only [mset]
    split
    · simp [mget, eq_comm]
    · split
      · subst_vars; by_cases h : k' = j
        · simp [mget, h]
        · simp [mget, h, Ne.symm h]
      · by_cases h : k' = j
        · subst h; simp [mget]; omega
        · simp [mget, h, ih]

@[simp] theorem mget_mset_same {β : Type} (m : NMap β) (k : Nat) (v : β) : mget (mset m k v) k = some v := by
  simp [mget_mset]

theorem mget_mset_ne {β : Type} (m : NMap β) {k j : Nat} (v : β) (h : j ≠ k) : mget (mset m k v) j = mget m j := by
  simp [mget_mset, h]

@[simp] theorem mgetD_mset_same {β : Type} (m : NMap β) (k : Nat) (v d : β) : mgetD (mset m k v) k d = v := by
  simp [mgetD]

theorem mgetD_mset_ne {β : Type} (m : NMap β) {k j : Nat} (v d : β) (h : j ≠ k) :
    mgetD (mset m k v) j d = mgetD m j d := by
  simp [mgetD, mget_mset, h]

theorem mget_mdel_ne {β : Type} (m : NMap β) {k j : Nat} (h : j ≠ k) : mget (mdel m k) j = mget m j := by
  induction m with
  | nil => rfl
  | cons e t ih =>
    obtain ⟨k', v'⟩ := e
    simp only [mdel]
    split
    · subst_vars; rw [ih]; simp [mget, Ne.symm h]
    · simp [mget, ih]

@[simp] theorem mget_mdel_same {β : Type} (m : NMap β) (k : Nat) : mget (mdel m k) k = none := by
  induction m with
  | nil => rfl
  | cons e t ih =>
    simp only [mdel]
    split
    · exact ih
    · simp [mget, *]

theorem mget_mmod {β : Type} (m : NMap β) (k : Nat) (f : β → β) (j : Nat) :
    mget (mmod m k f) j = if j = k then (mget m j).map f else mget m j := by
  unfold mmod
  cases h : mget m k with
  | none => by_cases e : j = k <;> simp [e, h]
  | some v => by_cases e : j = k <;> simp [e, h, mget_mset]

@[simp] theorem mget_mmod_same {β : Type} (m : NMap β) (k : Nat) (f : β → β) :
    mget (mmod m k f) k = (mget m k).map f := by
  simp [mget_mmod]

theorem mget_mmod_ne {β : Type} (m : NMap β) {k j : Nat} (f : β → β) (h : j ≠ k) : mget (mmod m k f) j = mget m j := by
  simp [mget_mmod, h]

theorem mget_mupd {β : Type} (m : NMap β) (k : Nat) (d : β) (f : β → β) (j : Nat) :
    mget (mupd m k d f) j = if j = k then some (f (mgetD m k d)) else mget m j := by
  simp [mupd, mget_mset]

theorem aget_aset {κ β : Type} [DecidableEq κ] (m : List (κ × β)) (k : κ) (v : β) (j : κ) :
    aget (aset m k v) j = if j = k then some v else aget m j := by
  induction m with
  | nil => simp [aset, aget, eq_comm]
  | cons e t ih =>
    obtain ⟨k', v'⟩ := e
    simp only [aset]
    split
    · subst_vars; by_cases h : k' = j
      · simp [aget, h]
      · simp [aget, h, Ne.symm h]
    · by_cases h : k' = j
      · subst h; rename_i n; simp [aget, n]
      · simp [aget, h, ih]

/-- A key that `freeKey` finds is unlisted and within its bounds. -/
theorem freeKey_free {β : Type} (m : NMap β) (n k r : Nat) (h : freeKey m n k = some r) :
    mget m r = none ∧ k ≤ r ∧ r < k + n := by
  induction n generalizing k with
  | zero => simp [freeKey] at h
  | succ n ih =>
    simp only [freeKey] at h
    split at h
    · obtain ⟨a, b, c⟩ := ih _ h; exact ⟨a, by omega, by omega⟩
    · rename_i e; cases h; exact ⟨by simpa using e, by omega, by omega⟩

end Sys2Proof.Machine
end

