-- ==== Sys2Proof/Laws/State.lean ====
section
/-! SUPPORT. Each update of the state and each field that it leaves alone: one lemma each, true by computation. -/

namespace Sys2Proof.Machine

/-! ### setReg -/

@[simp] theorem setReg_pending (s : State) (r : RegDef) (i v : Nat) : (setReg s r i v).pending = s.pending := rfl
@[simp] theorem setReg_now (s : State) (r : RegDef) (i v : Nat) : (setReg s r i v).now = s.now := rfl
@[simp] theorem setReg_free (s : State) (r : RegDef) (i v : Nat) : (setReg s r i v).free = s.free := rfl
@[simp] theorem setReg_out (s : State) (r : RegDef) (i v : Nat) : (setReg s r i v).out = s.out := rfl
@[simp] theorem setReg_staged (s : State) (r : RegDef) (i v : Nat) : (setReg s r i v).staged = s.staged := rfl
@[simp] theorem setReg_applying (s : State) (r : RegDef) (i v : Nat) : (setReg s r i v).applying = s.applying := rfl
@[simp] theorem setReg_mem (s : State) (r : RegDef) (i v : Nat) : (setReg s r i v).mem = s.mem := rfl
@[simp] theorem setReg_poison (s : State) (r : RegDef) (i v : Nat) : (setReg s r i v).poison = s.poison := rfl
@[simp] theorem setReg_cores (s : State) (r : RegDef) (i v : Nat) : (setReg s r i v).cores = s.cores := rfl
@[simp] theorem setReg_ms (s : State) (r : RegDef) (i v : Nat) : (setReg s r i v).ms = s.ms := rfl
@[simp] theorem setReg_hbm (s : State) (r : RegDef) (i v : Nat) : (setReg s r i v).hbm = s.hbm := rfl
@[simp] theorem setReg_xlt (s : State) (r : RegDef) (i v : Nat) : (setReg s r i v).xlt = s.xlt := rfl
@[simp] theorem setReg_obj (s : State) (r : RegDef) (i v : Nat) : (setReg s r i v).obj = s.obj := rfl
@[simp] theorem setReg_cmds (s : State) (r : RegDef) (i v : Nat) : (setReg s r i v).cmds = s.cmds := rfl
@[simp] theorem setReg_nextCmd (s : State) (r : RegDef) (i v : Nat) : (setReg s r i v).nextCmd = s.nextCmd := rfl
@[simp] theorem setReg_com (s : State) (r : RegDef) (i v : Nat) : (setReg s r i v).com = s.com := rfl
@[simp] theorem setReg_sch (s : State) (r : RegDef) (i v : Nat) : (setReg s r i v).sch = s.sch := rfl
@[simp] theorem setReg_srv (s : State) (r : RegDef) (i v : Nat) : (setReg s r i v).srv = s.srv := rfl
@[simp] theorem setReg_err (s : State) (r : RegDef) (i v : Nat) : (setReg s r i v).err = s.err := rfl
@[simp] theorem setReg_fab (s : State) (r : RegDef) (i v : Nat) : (setReg s r i v).fab = s.fab := rfl
@[simp] theorem setReg_ftm (s : State) (r : RegDef) (i v : Nat) : (setReg s r i v).ftm = s.ftm := rfl
@[simp] theorem setReg_bdl (s : State) (r : RegDef) (i v : Nat) : (setReg s r i v).bdl = s.bdl := rfl
@[simp] theorem setReg_boot (s : State) (r : RegDef) (i v : Nat) : (setReg s r i v).boot = s.boot := rfl
@[simp] theorem setReg_mon (s : State) (r : RegDef) (i v : Nat) : (setReg s r i v).mon = s.mon := rfl
@[simp] theorem setReg_awl (s : State) (r : RegDef) (i v : Nat) : (setReg s r i v).awl = s.awl := rfl

/-! ### incReg -/

@[simp] theorem incReg_pending (s : State) (r : RegDef) (i n : Nat) : (incReg s r i n).pending = s.pending := rfl
@[simp] theorem incReg_now (s : State) (r : RegDef) (i n : Nat) : (incReg s r i n).now = s.now := rfl
@[simp] theorem incReg_free (s : State) (r : RegDef) (i n : Nat) : (incReg s r i n).free = s.free := rfl
@[simp] theorem incReg_out (s : State) (r : RegDef) (i n : Nat) : (incReg s r i n).out = s.out := rfl
@[simp] theorem incReg_staged (s : State) (r : RegDef) (i n : Nat) : (incReg s r i n).staged = s.staged := rfl
@[simp] theorem incReg_applying (s : State) (r : RegDef) (i n : Nat) : (incReg s r i n).applying = s.applying := rfl
@[simp] theorem incReg_mem (s : State) (r : RegDef) (i n : Nat) : (incReg s r i n).mem = s.mem := rfl
@[simp] theorem incReg_poison (s : State) (r : RegDef) (i n : Nat) : (incReg s r i n).poison = s.poison := rfl
@[simp] theorem incReg_cores (s : State) (r : RegDef) (i n : Nat) : (incReg s r i n).cores = s.cores := rfl
@[simp] theorem incReg_ms (s : State) (r : RegDef) (i n : Nat) : (incReg s r i n).ms = s.ms := rfl
@[simp] theorem incReg_hbm (s : State) (r : RegDef) (i n : Nat) : (incReg s r i n).hbm = s.hbm := rfl
@[simp] theorem incReg_xlt (s : State) (r : RegDef) (i n : Nat) : (incReg s r i n).xlt = s.xlt := rfl
@[simp] theorem incReg_obj (s : State) (r : RegDef) (i n : Nat) : (incReg s r i n).obj = s.obj := rfl
@[simp] theorem incReg_cmds (s : State) (r : RegDef) (i n : Nat) : (incReg s r i n).cmds = s.cmds := rfl
@[simp] theorem incReg_nextCmd (s : State) (r : RegDef) (i n : Nat) : (incReg s r i n).nextCmd = s.nextCmd := rfl
@[simp] theorem incReg_com (s : State) (r : RegDef) (i n : Nat) : (incReg s r i n).com = s.com := rfl
@[simp] theorem incReg_sch (s : State) (r : RegDef) (i n : Nat) : (incReg s r i n).sch = s.sch := rfl
@[simp] theorem incReg_srv (s : State) (r : RegDef) (i n : Nat) : (incReg s r i n).srv = s.srv := rfl
@[simp] theorem incReg_err (s : State) (r : RegDef) (i n : Nat) : (incReg s r i n).err = s.err := rfl
@[simp] theorem incReg_fab (s : State) (r : RegDef) (i n : Nat) : (incReg s r i n).fab = s.fab := rfl
@[simp] theorem incReg_ftm (s : State) (r : RegDef) (i n : Nat) : (incReg s r i n).ftm = s.ftm := rfl
@[simp] theorem incReg_bdl (s : State) (r : RegDef) (i n : Nat) : (incReg s r i n).bdl = s.bdl := rfl
@[simp] theorem incReg_boot (s : State) (r : RegDef) (i n : Nat) : (incReg s r i n).boot = s.boot := rfl
@[simp] theorem incReg_mon (s : State) (r : RegDef) (i n : Nat) : (incReg s r i n).mon = s.mon := rfl
@[simp] theorem incReg_awl (s : State) (r : RegDef) (i n : Nat) : (incReg s r i n).awl = s.awl := rfl

/-! ### setRaw -/

@[simp] theorem setRaw_pending (s : State) (a v : Nat) : (setRaw s a v).pending = s.pending := rfl
@[simp] theorem setRaw_now (s : State) (a v : Nat) : (setRaw s a v).now = s.now := rfl
@[simp] theorem setRaw_free (s : State) (a v : Nat) : (setRaw s a v).free = s.free := rfl
@[simp] theorem setRaw_out (s : State) (a v : Nat) : (setRaw s a v).out = s.out := rfl
@[simp] theorem setRaw_staged (s : State) (a v : Nat) : (setRaw s a v).staged = s.staged := rfl
@[simp] theorem setRaw_applying (s : State) (a v : Nat) : (setRaw s a v).applying = s.applying := rfl
@[simp] theorem setRaw_mem (s : State) (a v : Nat) : (setRaw s a v).mem = s.mem := rfl
@[simp] theorem setRaw_poison (s : State) (a v : Nat) : (setRaw s a v).poison = s.poison := rfl
@[simp] theorem setRaw_cores (s : State) (a v : Nat) : (setRaw s a v).cores = s.cores := rfl
@[simp] theorem setRaw_ms (s : State) (a v : Nat) : (setRaw s a v).ms = s.ms := rfl
@[simp] theorem setRaw_hbm (s : State) (a v : Nat) : (setRaw s a v).hbm = s.hbm := rfl
@[simp] theorem setRaw_xlt (s : State) (a v : Nat) : (setRaw s a v).xlt = s.xlt := rfl
@[simp] theorem setRaw_obj (s : State) (a v : Nat) : (setRaw s a v).obj = s.obj := rfl
@[simp] theorem setRaw_cmds (s : State) (a v : Nat) : (setRaw s a v).cmds = s.cmds := rfl
@[simp] theorem setRaw_nextCmd (s : State) (a v : Nat) : (setRaw s a v).nextCmd = s.nextCmd := rfl
@[simp] theorem setRaw_com (s : State) (a v : Nat) : (setRaw s a v).com = s.com := rfl
@[simp] theorem setRaw_sch (s : State) (a v : Nat) : (setRaw s a v).sch = s.sch := rfl
@[simp] theorem setRaw_srv (s : State) (a v : Nat) : (setRaw s a v).srv = s.srv := rfl
@[simp] theorem setRaw_err (s : State) (a v : Nat) : (setRaw s a v).err = s.err := rfl
@[simp] theorem setRaw_fab (s : State) (a v : Nat) : (setRaw s a v).fab = s.fab := rfl
@[simp] theorem setRaw_ftm (s : State) (a v : Nat) : (setRaw s a v).ftm = s.ftm := rfl
@[simp] theorem setRaw_bdl (s : State) (a v : Nat) : (setRaw s a v).bdl = s.bdl := rfl
@[simp] theorem setRaw_boot (s : State) (a v : Nat) : (setRaw s a v).boot = s.boot := rfl
@[simp] theorem setRaw_mon (s : State) (a v : Nat) : (setRaw s a v).mon = s.mon := rfl
@[simp] theorem setRaw_awl (s : State) (a v : Nat) : (setRaw s a v).awl = s.awl := rfl

/-! ### emit -/

@[simp] theorem emit_pending (s : State) (o : Out) : (emit s o).pending = s.pending := rfl
@[simp] theorem emit_now (s : State) (o : Out) : (emit s o).now = s.now := rfl
@[simp] theorem emit_free (s : State) (o : Out) : (emit s o).free = s.free := rfl
@[simp] theorem emit_regs (s : State) (o : Out) : (emit s o).regs = s.regs := rfl
@[simp] theorem emit_staged (s : State) (o : Out) : (emit s o).staged = s.staged := rfl
@[simp] theorem emit_applying (s : State) (o : Out) : (emit s o).applying = s.applying := rfl
@[simp] theorem emit_mem (s : State) (o : Out) : (emit s o).mem = s.mem := rfl
@[simp] theorem emit_poison (s : State) (o : Out) : (emit s o).poison = s.poison := rfl
@[simp] theorem emit_cores (s : State) (o : Out) : (emit s o).cores = s.cores := rfl
@[simp] theorem emit_ms (s : State) (o : Out) : (emit s o).ms = s.ms := rfl
@[simp] theorem emit_hbm (s : State) (o : Out) : (emit s o).hbm = s.hbm := rfl
@[simp] theorem emit_xlt (s : State) (o : Out) : (emit s o).xlt = s.xlt := rfl
@[simp] theorem emit_obj (s : State) (o : Out) : (emit s o).obj = s.obj := rfl
@[simp] theorem emit_cmds (s : State) (o : Out) : (emit s o).cmds = s.cmds := rfl
@[simp] theorem emit_nextCmd (s : State) (o : Out) : (emit s o).nextCmd = s.nextCmd := rfl
@[simp] theorem emit_com (s : State) (o : Out) : (emit s o).com = s.com := rfl
@[simp] theorem emit_sch (s : State) (o : Out) : (emit s o).sch = s.sch := rfl
@[simp] theorem emit_srv (s : State) (o : Out) : (emit s o).srv = s.srv := rfl
@[simp] theorem emit_err (s : State) (o : Out) : (emit s o).err = s.err := rfl
@[simp] theorem emit_fab (s : State) (o : Out) : (emit s o).fab = s.fab := rfl
@[simp] theorem emit_ftm (s : State) (o : Out) : (emit s o).ftm = s.ftm := rfl
@[simp] theorem emit_bdl (s : State) (o : Out) : (emit s o).bdl = s.bdl := rfl
@[simp] theorem emit_boot (s : State) (o : Out) : (emit s o).boot = s.boot := rfl
@[simp] theorem emit_mon (s : State) (o : Out) : (emit s o).mon = s.mon := rfl
@[simp] theorem emit_awl (s : State) (o : Out) : (emit s o).awl = s.awl := rfl

/-! ### hostWrite -/

/-- A write to the host changes what goes to the host and what waits for it alone. -/
theorem hostWrite_changes (s : State) (t a : Nat) (d : List Byte) (w : HostPend) :
    ∃ out obj, hostWrite s t a d w = { s with out, obj } := by
  unfold hostWrite toHostPort
  dsimp only
  split
  · split <;> exact ⟨_, _, rfl⟩
  · exact ⟨_, _, rfl⟩

@[simp] theorem hostWrite_pending (s : State) (t a : Nat) (d : List Byte) (w : HostPend) : (hostWrite s t a d w).pending = s.pending := by
  obtain ⟨_, _, h⟩ := hostWrite_changes s t a d w; rw [h]
@[simp] theorem hostWrite_now (s : State) (t a : Nat) (d : List Byte) (w : HostPend) : (hostWrite s t a d w).now = s.now := by
  obtain ⟨_, _, h⟩ := hostWrite_changes s t a d w; rw [h]
@[simp] theorem hostWrite_free (s : State) (t a : Nat) (d : List Byte) (w : HostPend) : (hostWrite s t a d w).free = s.free := by
  obtain ⟨_, _, h⟩ := hostWrite_changes s t a d w; rw [h]
@[simp] theorem hostWrite_regs (s : State) (t a : Nat) (d : List Byte) (w : HostPend) : (hostWrite s t a d w).regs = s.regs := by
  obtain ⟨_, _, h⟩ := hostWrite_changes s t a d w; rw [h]
@[simp] theorem hostWrite_staged (s : State) (t a : Nat) (d : List Byte) (w : HostPend) : (hostWrite s t a d w).staged = s.staged := by
  obtain ⟨_, _, h⟩ := hostWrite_changes s t a d w; rw [h]
@[simp] theorem hostWrite_applying (s : State) (t a : Nat) (d : List Byte) (w : HostPend) : (hostWrite s t a d w).applying = s.applying := by
  obtain ⟨_, _, h⟩ := hostWrite_changes s t a d w; rw [h]
@[simp] theorem hostWrite_mem (s : State) (t a : Nat) (d : List Byte) (w : HostPend) : (hostWrite s t a d w).mem = s.mem := by
  obtain ⟨_, _, h⟩ := hostWrite_changes s t a d w; rw [h]
@[simp] theorem hostWrite_poison (s : State) (t a : Nat) (d : List Byte) (w : HostPend) : (hostWrite s t a d w).poison = s.poison := by
  obtain ⟨_, _, h⟩ := hostWrite_changes s t a d w; rw [h]
@[simp] theorem hostWrite_cores (s : State) (t a : Nat) (d : List Byte) (w : HostPend) : (hostWrite s t a d w).cores = s.cores := by
  obtain ⟨_, _, h⟩ := hostWrite_changes s t a d w; rw [h]
@[simp] theorem hostWrite_ms (s : State) (t a : Nat) (d : List Byte) (w : HostPend) : (hostWrite s t a d w).ms = s.ms := by
  obtain ⟨_, _, h⟩ := hostWrite_changes s t a d w; rw [h]
@[simp] theorem hostWrite_hbm (s : State) (t a : Nat) (d : List Byte) (w : HostPend) : (hostWrite s t a d w).hbm = s.hbm := by
  obtain ⟨_, _, h⟩ := hostWrite_changes s t a d w; rw [h]
@[simp] theorem hostWrite_xlt (s : State) (t a : Nat) (d : List Byte) (w : HostPend) : (hostWrite s t a d w).xlt = s.xlt := by
  obtain ⟨_, _, h⟩ := hostWrite_changes s t a d w; rw [h]
@[simp] theorem hostWrite_cmds (s : State) (t a : Nat) (d : List Byte) (w : HostPend) : (hostWrite s t a d w).cmds = s.cmds := by
  obtain ⟨_, _, h⟩ := hostWrite_changes s t a d w; rw [h]
@[simp] theorem hostWrite_nextCmd (s : State) (t a : Nat) (d : List Byte) (w : HostPend) : (hostWrite s t a d w).nextCmd = s.nextCmd := by
  obtain ⟨_, _, h⟩ := hostWrite_changes s t a d w; rw [h]
@[simp] theorem hostWrite_com (s : State) (t a : Nat) (d : List Byte) (w : HostPend) : (hostWrite s t a d w).com = s.com := by
  obtain ⟨_, _, h⟩ := hostWrite_changes s t a d w; rw [h]
@[simp] theorem hostWrite_sch (s : State) (t a : Nat) (d : List Byte) (w : HostPend) : (hostWrite s t a d w).sch = s.sch := by
  obtain ⟨_, _, h⟩ := hostWrite_changes s t a d w; rw [h]
@[simp] theorem hostWrite_srv (s : State) (t a : Nat) (d : List Byte) (w : HostPend) : (hostWrite s t a d w).srv = s.srv := by
  obtain ⟨_, _, h⟩ := hostWrite_changes s t a d w; rw [h]
@[simp] theorem hostWrite_err (s : State) (t a : Nat) (d : List Byte) (w : HostPend) : (hostWrite s t a d w).err = s.err := by
  obtain ⟨_, _, h⟩ := hostWrite_changes s t a d w; rw [h]
@[simp] theorem hostWrite_fab (s : State) (t a : Nat) (d : List Byte) (w : HostPend) : (hostWrite s t a d w).fab = s.fab := by
  obtain ⟨_, _, h⟩ := hostWrite_changes s t a d w; rw [h]
@[simp] theorem hostWrite_ftm (s : State) (t a : Nat) (d : List Byte) (w : HostPend) : (hostWrite s t a d w).ftm = s.ftm := by
  obtain ⟨_, _, h⟩ := hostWrite_changes s t a d w; rw [h]
@[simp] theorem hostWrite_bdl (s : State) (t a : Nat) (d : List Byte) (w : HostPend) : (hostWrite s t a d w).bdl = s.bdl := by
  obtain ⟨_, _, h⟩ := hostWrite_changes s t a d w; rw [h]
@[simp] theorem hostWrite_boot (s : State) (t a : Nat) (d : List Byte) (w : HostPend) : (hostWrite s t a d w).boot = s.boot := by
  obtain ⟨_, _, h⟩ := hostWrite_changes s t a d w; rw [h]
@[simp] theorem hostWrite_mon (s : State) (t a : Nat) (d : List Byte) (w : HostPend) : (hostWrite s t a d w).mon = s.mon := by
  obtain ⟨_, _, h⟩ := hostWrite_changes s t a d w; rw [h]
@[simp] theorem hostWrite_awl (s : State) (t a : Nat) (d : List Byte) (w : HostPend) : (hostWrite s t a d w).awl = s.awl := by
  obtain ⟨_, _, h⟩ := hostWrite_changes s t a d w; rw [h]

/-! ### dueWarm -/

@[simp] theorem dueWarm_pending (s : State) (t c : Nat) : (dueWarm s t c).pending = s.pending := rfl
@[simp] theorem dueWarm_now (s : State) (t c : Nat) : (dueWarm s t c).now = s.now := rfl
@[simp] theorem dueWarm_free (s : State) (t c : Nat) : (dueWarm s t c).free = s.free := rfl
@[simp] theorem dueWarm_out (s : State) (t c : Nat) : (dueWarm s t c).out = s.out := rfl
@[simp] theorem dueWarm_regs (s : State) (t c : Nat) : (dueWarm s t c).regs = s.regs := rfl
@[simp] theorem dueWarm_staged (s : State) (t c : Nat) : (dueWarm s t c).staged = s.staged := rfl
@[simp] theorem dueWarm_applying (s : State) (t c : Nat) : (dueWarm s t c).applying = s.applying := rfl
@[simp] theorem dueWarm_mem (s : State) (t c : Nat) : (dueWarm s t c).mem = s.mem := rfl
@[simp] theorem dueWarm_poison (s : State) (t c : Nat) : (dueWarm s t c).poison = s.poison := rfl
@[simp] theorem dueWarm_cores (s : State) (t c : Nat) : (dueWarm s t c).cores = s.cores := rfl
@[simp] theorem dueWarm_ms (s : State) (t c : Nat) : (dueWarm s t c).ms = s.ms := rfl
@[simp] theorem dueWarm_hbm (s : State) (t c : Nat) : (dueWarm s t c).hbm = s.hbm := rfl
@[simp] theorem dueWarm_xlt (s : State) (t c : Nat) : (dueWarm s t c).xlt = s.xlt := rfl
@[simp] theorem dueWarm_obj (s : State) (t c : Nat) : (dueWarm s t c).obj = s.obj := rfl
@[simp] theorem dueWarm_cmds (s : State) (t c : Nat) : (dueWarm s t c).cmds = s.cmds := rfl
@[simp] theorem dueWarm_nextCmd (s : State) (t c : Nat) : (dueWarm s t c).nextCmd = s.nextCmd := rfl
@[simp] theorem dueWarm_com (s : State) (t c : Nat) : (dueWarm s t c).com = s.com := rfl
@[simp] theorem dueWarm_sch (s : State) (t c : Nat) : (dueWarm s t c).sch = s.sch := rfl
@[simp] theorem dueWarm_srv (s : State) (t c : Nat) : (dueWarm s t c).srv = s.srv := rfl
@[simp] theorem dueWarm_fab (s : State) (t c : Nat) : (dueWarm s t c).fab = s.fab := rfl
@[simp] theorem dueWarm_ftm (s : State) (t c : Nat) : (dueWarm s t c).ftm = s.ftm := rfl
@[simp] theorem dueWarm_bdl (s : State) (t c : Nat) : (dueWarm s t c).bdl = s.bdl := rfl
@[simp] theorem dueWarm_boot (s : State) (t c : Nat) : (dueWarm s t c).boot = s.boot := rfl
@[simp] theorem dueWarm_mon (s : State) (t c : Nat) : (dueWarm s t c).mon = s.mon := rfl
@[simp] theorem dueWarm_awl (s : State) (t c : Nat) : (dueWarm s t c).awl = s.awl := rfl

/-! ### modErr -/

@[simp] theorem modErr_pending (s : State) (f : Errors → Errors) : (modErr s f).pending = s.pending := rfl
@[simp] theorem modErr_now (s : State) (f : Errors → Errors) : (modErr s f).now = s.now := rfl
@[simp] theorem modErr_free (s : State) (f : Errors → Errors) : (modErr s f).free = s.free := rfl
@[simp] theorem modErr_out (s : State) (f : Errors → Errors) : (modErr s f).out = s.out := rfl
@[simp] theorem modErr_regs (s : State) (f : Errors → Errors) : (modErr s f).regs = s.regs := rfl
@[simp] theorem modErr_staged (s : State) (f : Errors → Errors) : (modErr s f).staged = s.staged := rfl
@[simp] theorem modErr_applying (s : State) (f : Errors → Errors) : (modErr s f).applying = s.applying := rfl
@[simp] theorem modErr_mem (s : State) (f : Errors → Errors) : (modErr s f).mem = s.mem := rfl
@[simp] theorem modErr_poison (s : State) (f : Errors → Errors) : (modErr s f).poison = s.poison := rfl
@[simp] theorem modErr_cores (s : State) (f : Errors → Errors) : (modErr s f).cores = s.cores := rfl
@[simp] theorem modErr_ms (s : State) (f : Errors → Errors) : (modErr s f).ms = s.ms := rfl
@[simp] theorem modErr_hbm (s : State) (f : Errors → Errors) : (modErr s f).hbm = s.hbm := rfl
@[simp] theorem modErr_xlt (s : State) (f : Errors → Errors) : (modErr s f).xlt = s.xlt := rfl
@[simp] theorem modErr_obj (s : State) (f : Errors → Errors) : (modErr s f).obj = s.obj := rfl
@[simp] theorem modErr_cmds (s : State) (f : Errors → Errors) : (modErr s f).cmds = s.cmds := rfl
@[simp] theorem modErr_nextCmd (s : State) (f : Errors → Errors) : (modErr s f).nextCmd = s.nextCmd := rfl
@[simp] theorem modErr_com (s : State) (f : Errors → Errors) : (modErr s f).com = s.com := rfl
@[simp] theorem modErr_sch (s : State) (f : Errors → Errors) : (modErr s f).sch = s.sch := rfl
@[simp] theorem modErr_srv (s : State) (f : Errors → Errors) : (modErr s f).srv = s.srv := rfl
@[simp] theorem modErr_fab (s : State) (f : Errors → Errors) : (modErr s f).fab = s.fab := rfl
@[simp] theorem modErr_ftm (s : State) (f : Errors → Errors) : (modErr s f).ftm = s.ftm := rfl
@[simp] theorem modErr_bdl (s : State) (f : Errors → Errors) : (modErr s f).bdl = s.bdl := rfl
@[simp] theorem modErr_boot (s : State) (f : Errors → Errors) : (modErr s f).boot = s.boot := rfl
@[simp] theorem modErr_mon (s : State) (f : Errors → Errors) : (modErr s f).mon = s.mon := rfl
@[simp] theorem modErr_awl (s : State) (f : Errors → Errors) : (modErr s f).awl = s.awl := rfl

/-! ### unitProgress -/

@[simp] theorem unitProgress_pending (s : State) (u : Nat) : (unitProgress s u).pending = s.pending := rfl
@[simp] theorem unitProgress_now (s : State) (u : Nat) : (unitProgress s u).now = s.now := rfl
@[simp] theorem unitProgress_free (s : State) (u : Nat) : (unitProgress s u).free = s.free := rfl
@[simp] theorem unitProgress_out (s : State) (u : Nat) : (unitProgress s u).out = s.out := rfl
@[simp] theorem unitProgress_regs (s : State) (u : Nat) : (unitProgress s u).regs = s.regs := rfl
@[simp] theorem unitProgress_staged (s : State) (u : Nat) : (unitProgress s u).staged = s.staged := rfl
@[simp] theorem unitProgress_applying (s : State) (u : Nat) : (unitProgress s u).applying = s.applying := rfl
@[simp] theorem unitProgress_mem (s : State) (u : Nat) : (unitProgress s u).mem = s.mem := rfl
@[simp] theorem unitProgress_poison (s : State) (u : Nat) : (unitProgress s u).poison = s.poison := rfl
@[simp] theorem unitProgress_cores (s : State) (u : Nat) : (unitProgress s u).cores = s.cores := rfl
@[simp] theorem unitProgress_ms (s : State) (u : Nat) : (unitProgress s u).ms = s.ms := rfl
@[simp] theorem unitProgress_hbm (s : State) (u : Nat) : (unitProgress s u).hbm = s.hbm := rfl
@[simp] theorem unitProgress_xlt (s : State) (u : Nat) : (unitProgress s u).xlt = s.xlt := rfl
@[simp] theorem unitProgress_obj (s : State) (u : Nat) : (unitProgress s u).obj = s.obj := rfl
@[simp] theorem unitProgress_cmds (s : State) (u : Nat) : (unitProgress s u).cmds = s.cmds := rfl
@[simp] theorem unitProgress_nextCmd (s : State) (u : Nat) : (unitProgress s u).nextCmd = s.nextCmd := rfl
@[simp] theorem unitProgress_com (s : State) (u : Nat) : (unitProgress s u).com = s.com := rfl
@[simp] theorem unitProgress_sch (s : State) (u : Nat) : (unitProgress s u).sch = s.sch := rfl
@[simp] theorem unitProgress_srv (s : State) (u : Nat) : (unitProgress s u).srv = s.srv := rfl
@[simp] theorem unitProgress_fab (s : State) (u : Nat) : (unitProgress s u).fab = s.fab := rfl
@[simp] theorem unitProgress_ftm (s : State) (u : Nat) : (unitProgress s u).ftm = s.ftm := rfl
@[simp] theorem unitProgress_bdl (s : State) (u : Nat) : (unitProgress s u).bdl = s.bdl := rfl
@[simp] theorem unitProgress_boot (s : State) (u : Nat) : (unitProgress s u).boot = s.boot := rfl
@[simp] theorem unitProgress_mon (s : State) (u : Nat) : (unitProgress s u).mon = s.mon := rfl
@[simp] theorem unitProgress_awl (s : State) (u : Nat) : (unitProgress s u).awl = s.awl := rfl

/-! ### markMore -/

@[simp] theorem markMore_pending (s : State) (n : Nat) : (markMore s n).pending = s.pending := rfl
@[simp] theorem markMore_now (s : State) (n : Nat) : (markMore s n).now = s.now := rfl
@[simp] theorem markMore_free (s : State) (n : Nat) : (markMore s n).free = s.free := rfl
@[simp] theorem markMore_out (s : State) (n : Nat) : (markMore s n).out = s.out := rfl
@[simp] theorem markMore_regs (s : State) (n : Nat) : (markMore s n).regs = s.regs := rfl
@[simp] theorem markMore_staged (s : State) (n : Nat) : (markMore s n).staged = s.staged := rfl
@[simp] theorem markMore_applying (s : State) (n : Nat) : (markMore s n).applying = s.applying := rfl
@[simp] theorem markMore_mem (s : State) (n : Nat) : (markMore s n).mem = s.mem := rfl
@[simp] theorem markMore_poison (s : State) (n : Nat) : (markMore s n).poison = s.poison := rfl
@[simp] theorem markMore_cores (s : State) (n : Nat) : (markMore s n).cores = s.cores := rfl
@[simp] theorem markMore_ms (s : State) (n : Nat) : (markMore s n).ms = s.ms := rfl
@[simp] theorem markMore_hbm (s : State) (n : Nat) : (markMore s n).hbm = s.hbm := rfl
@[simp] theorem markMore_xlt (s : State) (n : Nat) : (markMore s n).xlt = s.xlt := rfl
@[simp] theorem markMore_obj (s : State) (n : Nat) : (markMore s n).obj = s.obj := rfl
@[simp] theorem markMore_cmds (s : State) (n : Nat) : (markMore s n).cmds = s.cmds := rfl
@[simp] theorem markMore_nextCmd (s : State) (n : Nat) : (markMore s n).nextCmd = s.nextCmd := rfl
@[simp] theorem markMore_com (s : State) (n : Nat) : (markMore s n).com = s.com := rfl
@[simp] theorem markMore_sch (s : State) (n : Nat) : (markMore s n).sch = s.sch := rfl
@[simp] theorem markMore_srv (s : State) (n : Nat) : (markMore s n).srv = s.srv := rfl
@[simp] theorem markMore_fab (s : State) (n : Nat) : (markMore s n).fab = s.fab := rfl
@[simp] theorem markMore_ftm (s : State) (n : Nat) : (markMore s n).ftm = s.ftm := rfl
@[simp] theorem markMore_bdl (s : State) (n : Nat) : (markMore s n).bdl = s.bdl := rfl
@[simp] theorem markMore_boot (s : State) (n : Nat) : (markMore s n).boot = s.boot := rfl
@[simp] theorem markMore_mon (s : State) (n : Nat) : (markMore s n).mon = s.mon := rfl
@[simp] theorem markMore_awl (s : State) (n : Nat) : (markMore s n).awl = s.awl := rfl

/-! ### wrBytes -/

@[simp] theorem wrBytes_pending (s : State) (a : Nat) (d : List Byte) : (wrBytes s a d).pending = s.pending := rfl
@[simp] theorem wrBytes_now (s : State) (a : Nat) (d : List Byte) : (wrBytes s a d).now = s.now := rfl
@[simp] theorem wrBytes_free (s : State) (a : Nat) (d : List Byte) : (wrBytes s a d).free = s.free := rfl
@[simp] theorem wrBytes_out (s : State) (a : Nat) (d : List Byte) : (wrBytes s a d).out = s.out := rfl
@[simp] theorem wrBytes_regs (s : State) (a : Nat) (d : List Byte) : (wrBytes s a d).regs = s.regs := rfl
@[simp] theorem wrBytes_staged (s : State) (a : Nat) (d : List Byte) : (wrBytes s a d).staged = s.staged := rfl
@[simp] theorem wrBytes_applying (s : State) (a : Nat) (d : List Byte) : (wrBytes s a d).applying = s.applying := rfl
@[simp] theorem wrBytes_poison (s : State) (a : Nat) (d : List Byte) : (wrBytes s a d).poison = s.poison := rfl
@[simp] theorem wrBytes_cores (s : State) (a : Nat) (d : List Byte) : (wrBytes s a d).cores = s.cores := rfl
@[simp] theorem wrBytes_ms (s : State) (a : Nat) (d : List Byte) : (wrBytes s a d).ms = s.ms := rfl
@[simp] theorem wrBytes_hbm (s : State) (a : Nat) (d : List Byte) : (wrBytes s a d).hbm = s.hbm := rfl
@[simp] theorem wrBytes_xlt (s : State) (a : Nat) (d : List Byte) : (wrBytes s a d).xlt = s.xlt := rfl
@[simp] theorem wrBytes_obj (s : State) (a : Nat) (d : List Byte) : (wrBytes s a d).obj = s.obj := rfl
@[simp] theorem wrBytes_cmds (s : State) (a : Nat) (d : List Byte) : (wrBytes s a d).cmds = s.cmds := rfl
@[simp] theorem wrBytes_nextCmd (s : State) (a : Nat) (d : List Byte) : (wrBytes s a d).nextCmd = s.nextCmd := rfl
@[simp] theorem wrBytes_com (s : State) (a : Nat) (d : List Byte) : (wrBytes s a d).com = s.com := rfl
@[simp] theorem wrBytes_sch (s : State) (a : Nat) (d : List Byte) : (wrBytes s a d).sch = s.sch := rfl
@[simp] theorem wrBytes_srv (s : State) (a : Nat) (d : List Byte) : (wrBytes s a d).srv = s.srv := rfl
@[simp] theorem wrBytes_err (s : State) (a : Nat) (d : List Byte) : (wrBytes s a d).err = s.err := rfl
@[simp] theorem wrBytes_fab (s : State) (a : Nat) (d : List Byte) : (wrBytes s a d).fab = s.fab := rfl
@[simp] theorem wrBytes_ftm (s : State) (a : Nat) (d : List Byte) : (wrBytes s a d).ftm = s.ftm := rfl
@[simp] theorem wrBytes_bdl (s : State) (a : Nat) (d : List Byte) : (wrBytes s a d).bdl = s.bdl := rfl
@[simp] theorem wrBytes_boot (s : State) (a : Nat) (d : List Byte) : (wrBytes s a d).boot = s.boot := rfl
@[simp] theorem wrBytes_mon (s : State) (a : Nat) (d : List Byte) : (wrBytes s a d).mon = s.mon := rfl
@[simp] theorem wrBytes_awl (s : State) (a : Nat) (d : List Byte) : (wrBytes s a d).awl = s.awl := rfl

/-! ### modCore -/

@[simp] theorem modCore_pending (s : State) (c : Nat) (f : CoreSt → CoreSt) : (modCore s c f).pending = s.pending := rfl
@[simp] theorem modCore_now (s : State) (c : Nat) (f : CoreSt → CoreSt) : (modCore s c f).now = s.now := rfl
@[simp] theorem modCore_free (s : State) (c : Nat) (f : CoreSt → CoreSt) : (modCore s c f).free = s.free := rfl
@[simp] theorem modCore_out (s : State) (c : Nat) (f : CoreSt → CoreSt) : (modCore s c f).out = s.out := rfl
@[simp] theorem modCore_regs (s : State) (c : Nat) (f : CoreSt → CoreSt) : (modCore s c f).regs = s.regs := rfl
@[simp] theorem modCore_staged (s : State) (c : Nat) (f : CoreSt → CoreSt) : (modCore s c f).staged = s.staged := rfl
@[simp] theorem modCore_applying (s : State) (c : Nat) (f : CoreSt → CoreSt) : (modCore s c f).applying = s.applying := rfl
@[simp] theorem modCore_mem (s : State) (c : Nat) (f : CoreSt → CoreSt) : (modCore s c f).mem = s.mem := rfl
@[simp] theorem modCore_poison (s : State) (c : Nat) (f : CoreSt → CoreSt) : (modCore s c f).poison = s.poison := rfl
@[simp] theorem modCore_ms (s : State) (c : Nat) (f : CoreSt → CoreSt) : (modCore s c f).ms = s.ms := rfl
@[simp] theorem modCore_hbm (s : State) (c : Nat) (f : CoreSt → CoreSt) : (modCore s c f).hbm = s.hbm := rfl
@[simp] theorem modCore_xlt (s : State) (c : Nat) (f : CoreSt → CoreSt) : (modCore s c f).xlt = s.xlt := rfl
@[simp] theorem modCore_obj (s : State) (c : Nat) (f : CoreSt → CoreSt) : (modCore s c f).obj = s.obj := rfl
@[simp] theorem modCore_cmds (s : State) (c : Nat) (f : CoreSt → CoreSt) : (modCore s c f).cmds = s.cmds := rfl
@[simp] theorem modCore_nextCmd (s : State) (c : Nat) (f : CoreSt → CoreSt) : (modCore s c f).nextCmd = s.nextCmd := rfl
@[simp] theorem modCore_com (s : State) (c : Nat) (f : CoreSt → CoreSt) : (modCore s c f).com = s.com := rfl
@[simp] theorem modCore_sch (s : State) (c : Nat) (f : CoreSt → CoreSt) : (modCore s c f).sch = s.sch := rfl
@[simp] theorem modCore_srv (s : State) (c : Nat) (f : CoreSt → CoreSt) : (modCore s c f).srv = s.srv := rfl
@[simp] theorem modCore_err (s : State) (c : Nat) (f : CoreSt → CoreSt) : (modCore s c f).err = s.err := rfl
@[simp] theorem modCore_fab (s : State) (c : Nat) (f : CoreSt → CoreSt) : (modCore s c f).fab = s.fab := rfl
@[simp] theorem modCore_ftm (s : State) (c : Nat) (f : CoreSt → CoreSt) : (modCore s c f).ftm = s.ftm := rfl
@[simp] theorem modCore_bdl (s : State) (c : Nat) (f : CoreSt → CoreSt) : (modCore s c f).bdl = s.bdl := rfl
@[simp] theorem modCore_boot (s : State) (c : Nat) (f : CoreSt → CoreSt) : (modCore s c f).boot = s.boot := rfl
@[simp] theorem modCore_mon (s : State) (c : Nat) (f : CoreSt → CoreSt) : (modCore s c f).mon = s.mon := rfl
@[simp] theorem modCore_awl (s : State) (c : Nat) (f : CoreSt → CoreSt) : (modCore s c f).awl = s.awl := rfl

/-! ### modGroup -/

@[simp] theorem modGroup_pending (s : State) (c slot : Nat) (f : Group → Group) : (modGroup s c slot f).pending = s.pending := rfl
@[simp] theorem modGroup_now (s : State) (c slot : Nat) (f : Group → Group) : (modGroup s c slot f).now = s.now := rfl
@[simp] theorem modGroup_free (s : State) (c slot : Nat) (f : Group → Group) : (modGroup s c slot f).free = s.free := rfl
@[simp] theorem modGroup_out (s : State) (c slot : Nat) (f : Group → Group) : (modGroup s c slot f).out = s.out := rfl
@[simp] theorem modGroup_regs (s : State) (c slot : Nat) (f : Group → Group) : (modGroup s c slot f).regs = s.regs := rfl
@[simp] theorem modGroup_staged (s : State) (c slot : Nat) (f : Group → Group) : (modGroup s c slot f).staged = s.staged := rfl
@[simp] theorem modGroup_applying (s : State) (c slot : Nat) (f : Group → Group) : (modGroup s c slot f).applying = s.applying := rfl
@[simp] theorem modGroup_mem (s : State) (c slot : Nat) (f : Group → Group) : (modGroup s c slot f).mem = s.mem := rfl
@[simp] theorem modGroup_poison (s : State) (c slot : Nat) (f : Group → Group) : (modGroup s c slot f).poison = s.poison := rfl
@[simp] theorem modGroup_ms (s : State) (c slot : Nat) (f : Group → Group) : (modGroup s c slot f).ms = s.ms := rfl
@[simp] theorem modGroup_hbm (s : State) (c slot : Nat) (f : Group → Group) : (modGroup s c slot f).hbm = s.hbm := rfl
@[simp] theorem modGroup_xlt (s : State) (c slot : Nat) (f : Group → Group) : (modGroup s c slot f).xlt = s.xlt := rfl
@[simp] theorem modGroup_obj (s : State) (c slot : Nat) (f : Group → Group) : (modGroup s c slot f).obj = s.obj := rfl
@[simp] theorem modGroup_cmds (s : State) (c slot : Nat) (f : Group → Group) : (modGroup s c slot f).cmds = s.cmds := rfl
@[simp] theorem modGroup_nextCmd (s : State) (c slot : Nat) (f : Group → Group) : (modGroup s c slot f).nextCmd = s.nextCmd := rfl
@[simp] theorem modGroup_com (s : State) (c slot : Nat) (f : Group → Group) : (modGroup s c slot f).com = s.com := rfl
@[simp] theorem modGroup_sch (s : State) (c slot : Nat) (f : Group → Group) : (modGroup s c slot f).sch = s.sch := rfl
@[simp] theorem modGroup_srv (s : State) (c slot : Nat) (f : Group → Group) : (modGroup s c slot f).srv = s.srv := rfl
@[simp] theorem modGroup_err (s : State) (c slot : Nat) (f : Group → Group) : (modGroup s c slot f).err = s.err := rfl
@[simp] theorem modGroup_fab (s : State) (c slot : Nat) (f : Group → Group) : (modGroup s c slot f).fab = s.fab := rfl
@[simp] theorem modGroup_ftm (s : State) (c slot : Nat) (f : Group → Group) : (modGroup s c slot f).ftm = s.ftm := rfl
@[simp] theorem modGroup_bdl (s : State) (c slot : Nat) (f : Group → Group) : (modGroup s c slot f).bdl = s.bdl := rfl
@[simp] theorem modGroup_boot (s : State) (c slot : Nat) (f : Group → Group) : (modGroup s c slot f).boot = s.boot := rfl
@[simp] theorem modGroup_mon (s : State) (c slot : Nat) (f : Group → Group) : (modGroup s c slot f).mon = s.mon := rfl
@[simp] theorem modGroup_awl (s : State) (c slot : Nat) (f : Group → Group) : (modGroup s c slot f).awl = s.awl := rfl

/-! ### modCmd -/

@[simp] theorem modCmd_pending (s : State) (i : Nat) (f : Cmd → Cmd) : (modCmd s i f).pending = s.pending := rfl
@[simp] theorem modCmd_now (s : State) (i : Nat) (f : Cmd → Cmd) : (modCmd s i f).now = s.now := rfl
@[simp] theorem modCmd_free (s : State) (i : Nat) (f : Cmd → Cmd) : (modCmd s i f).free = s.free := rfl
@[simp] theorem modCmd_out (s : State) (i : Nat) (f : Cmd → Cmd) : (modCmd s i f).out = s.out := rfl
@[simp] theorem modCmd_regs (s : State) (i : Nat) (f : Cmd → Cmd) : (modCmd s i f).regs = s.regs := rfl
@[simp] theorem modCmd_staged (s : State) (i : Nat) (f : Cmd → Cmd) : (modCmd s i f).staged = s.staged := rfl
@[simp] theorem modCmd_applying (s : State) (i : Nat) (f : Cmd → Cmd) : (modCmd s i f).applying = s.applying := rfl
@[simp] theorem modCmd_mem (s : State) (i : Nat) (f : Cmd → Cmd) : (modCmd s i f).mem = s.mem := rfl
@[simp] theorem modCmd_poison (s : State) (i : Nat) (f : Cmd → Cmd) : (modCmd s i f).poison = s.poison := rfl
@[simp] theorem modCmd_cores (s : State) (i : Nat) (f : Cmd → Cmd) : (modCmd s i f).cores = s.cores := rfl
@[simp] theorem modCmd_ms (s : State) (i : Nat) (f : Cmd → Cmd) : (modCmd s i f).ms = s.ms := rfl
@[simp] theorem modCmd_hbm (s : State) (i : Nat) (f : Cmd → Cmd) : (modCmd s i f).hbm = s.hbm := rfl
@[simp] theorem modCmd_xlt (s : State) (i : Nat) (f : Cmd → Cmd) : (modCmd s i f).xlt = s.xlt := rfl
@[simp] theorem modCmd_obj (s : State) (i : Nat) (f : Cmd → Cmd) : (modCmd s i f).obj = s.obj := rfl
@[simp] theorem modCmd_nextCmd (s : State) (i : Nat) (f : Cmd → Cmd) : (modCmd s i f).nextCmd = s.nextCmd := rfl
@[simp] theorem modCmd_com (s : State) (i : Nat) (f : Cmd → Cmd) : (modCmd s i f).com = s.com := rfl
@[simp] theorem modCmd_sch (s : State) (i : Nat) (f : Cmd → Cmd) : (modCmd s i f).sch = s.sch := rfl
@[simp] theorem modCmd_srv (s : State) (i : Nat) (f : Cmd → Cmd) : (modCmd s i f).srv = s.srv := rfl
@[simp] theorem modCmd_err (s : State) (i : Nat) (f : Cmd → Cmd) : (modCmd s i f).err = s.err := rfl
@[simp] theorem modCmd_fab (s : State) (i : Nat) (f : Cmd → Cmd) : (modCmd s i f).fab = s.fab := rfl
@[simp] theorem modCmd_ftm (s : State) (i : Nat) (f : Cmd → Cmd) : (modCmd s i f).ftm = s.ftm := rfl
@[simp] theorem modCmd_bdl (s : State) (i : Nat) (f : Cmd → Cmd) : (modCmd s i f).bdl = s.bdl := rfl
@[simp] theorem modCmd_boot (s : State) (i : Nat) (f : Cmd → Cmd) : (modCmd s i f).boot = s.boot := rfl
@[simp] theorem modCmd_mon (s : State) (i : Nat) (f : Cmd → Cmd) : (modCmd s i f).mon = s.mon := rfl
@[simp] theorem modCmd_awl (s : State) (i : Nat) (f : Cmd → Cmd) : (modCmd s i f).awl = s.awl := rfl

/-! ### modTenant -/

@[simp] theorem modTenant_pending (s : State) (i : Nat) (f : Tenant → Tenant) : (modTenant s i f).pending = s.pending := rfl
@[simp] theorem modTenant_now (s : State) (i : Nat) (f : Tenant → Tenant) : (modTenant s i f).now = s.now := rfl
@[simp] theorem modTenant_free (s : State) (i : Nat) (f : Tenant → Tenant) : (modTenant s i f).free = s.free := rfl
@[simp] theorem modTenant_out (s : State) (i : Nat) (f : Tenant → Tenant) : (modTenant s i f).out = s.out := rfl
@[simp] theorem modTenant_regs (s : State) (i : Nat) (f : Tenant → Tenant) : (modTenant s i f).regs = s.regs := rfl
@[simp] theorem modTenant_staged (s : State) (i : Nat) (f : Tenant → Tenant) : (modTenant s i f).staged = s.staged := rfl
@[simp] theorem modTenant_applying (s : State) (i : Nat) (f : Tenant → Tenant) : (modTenant s i f).applying = s.applying := rfl
@[simp] theorem modTenant_mem (s : State) (i : Nat) (f : Tenant → Tenant) : (modTenant s i f).mem = s.mem := rfl
@[simp] theorem modTenant_poison (s : State) (i : Nat) (f : Tenant → Tenant) : (modTenant s i f).poison = s.poison := rfl
@[simp] theorem modTenant_cores (s : State) (i : Nat) (f : Tenant → Tenant) : (modTenant s i f).cores = s.cores := rfl
@[simp] theorem modTenant_ms (s : State) (i : Nat) (f : Tenant → Tenant) : (modTenant s i f).ms = s.ms := rfl
@[simp] theorem modTenant_hbm (s : State) (i : Nat) (f : Tenant → Tenant) : (modTenant s i f).hbm = s.hbm := rfl
@[simp] theorem modTenant_xlt (s : State) (i : Nat) (f : Tenant → Tenant) : (modTenant s i f).xlt = s.xlt := rfl
@[simp] theorem modTenant_cmds (s : State) (i : Nat) (f : Tenant → Tenant) : (modTenant s i f).cmds = s.cmds := rfl
@[simp] theorem modTenant_nextCmd (s : State) (i : Nat) (f : Tenant → Tenant) : (modTenant s i f).nextCmd = s.nextCmd := rfl
@[simp] theorem modTenant_com (s : State) (i : Nat) (f : Tenant → Tenant) : (modTenant s i f).com = s.com := rfl
@[simp] theorem modTenant_sch (s : State) (i : Nat) (f : Tenant → Tenant) : (modTenant s i f).sch = s.sch := rfl
@[simp] theorem modTenant_srv (s : State) (i : Nat) (f : Tenant → Tenant) : (modTenant s i f).srv = s.srv := rfl
@[simp] theorem modTenant_err (s : State) (i : Nat) (f : Tenant → Tenant) : (modTenant s i f).err = s.err := rfl
@[simp] theorem modTenant_fab (s : State) (i : Nat) (f : Tenant → Tenant) : (modTenant s i f).fab = s.fab := rfl
@[simp] theorem modTenant_ftm (s : State) (i : Nat) (f : Tenant → Tenant) : (modTenant s i f).ftm = s.ftm := rfl
@[simp] theorem modTenant_bdl (s : State) (i : Nat) (f : Tenant → Tenant) : (modTenant s i f).bdl = s.bdl := rfl
@[simp] theorem modTenant_boot (s : State) (i : Nat) (f : Tenant → Tenant) : (modTenant s i f).boot = s.boot := rfl
@[simp] theorem modTenant_mon (s : State) (i : Nat) (f : Tenant → Tenant) : (modTenant s i f).mon = s.mon := rfl
@[simp] theorem modTenant_awl (s : State) (i : Nat) (f : Tenant → Tenant) : (modTenant s i f).awl = s.awl := rfl

/-! ### modCtx -/

@[simp] theorem modCtx_pending (s : State) (i : Nat) (f : Context → Context) : (modCtx s i f).pending = s.pending := rfl
@[simp] theorem modCtx_now (s : State) (i : Nat) (f : Context → Context) : (modCtx s i f).now = s.now := rfl
@[simp] theorem modCtx_free (s : State) (i : Nat) (f : Context → Context) : (modCtx s i f).free = s.free := rfl
@[simp] theorem modCtx_out (s : State) (i : Nat) (f : Context → Context) : (modCtx s i f).out = s.out := rfl
@[simp] theorem modCtx_regs (s : State) (i : Nat) (f : Context → Context) : (modCtx s i f).regs = s.regs := rfl
@[simp] theorem modCtx_staged (s : State) (i : Nat) (f : Context → Context) : (modCtx s i f).staged = s.staged := rfl
@[simp] theorem modCtx_applying (s : State) (i : Nat) (f : Context → Context) : (modCtx s i f).applying = s.applying := rfl
@[simp] theorem modCtx_mem (s : State) (i : Nat) (f : Context → Context) : (modCtx s i f).mem = s.mem := rfl
@[simp] theorem modCtx_poison (s : State) (i : Nat) (f : Context → Context) : (modCtx s i f).poison = s.poison := rfl
@[simp] theorem modCtx_cores (s : State) (i : Nat) (f : Context → Context) : (modCtx s i f).cores = s.cores := rfl
@[simp] theorem modCtx_ms (s : State) (i : Nat) (f : Context → Context) : (modCtx s i f).ms = s.ms := rfl
@[simp] theorem modCtx_hbm (s : State) (i : Nat) (f : Context → Context) : (modCtx s i f).hbm = s.hbm := rfl
@[simp] theorem modCtx_xlt (s : State) (i : Nat) (f : Context → Context) : (modCtx s i f).xlt = s.xlt := rfl
@[simp] theorem modCtx_cmds (s : State) (i : Nat) (f : Context → Context) : (modCtx s i f).cmds = s.cmds := rfl
@[simp] theorem modCtx_nextCmd (s : State) (i : Nat) (f : Context → Context) : (modCtx s i f).nextCmd = s.nextCmd := rfl
@[simp] theorem modCtx_com (s : State) (i : Nat) (f : Context → Context) : (modCtx s i f).com = s.com := rfl
@[simp] theorem modCtx_sch (s : State) (i : Nat) (f : Context → Context) : (modCtx s i f).sch = s.sch := rfl
@[simp] theorem modCtx_srv (s : State) (i : Nat) (f : Context → Context) : (modCtx s i f).srv = s.srv := rfl
@[simp] theorem modCtx_err (s : State) (i : Nat) (f : Context → Context) : (modCtx s i f).err = s.err := rfl
@[simp] theorem modCtx_fab (s : State) (i : Nat) (f : Context → Context) : (modCtx s i f).fab = s.fab := rfl
@[simp] theorem modCtx_ftm (s : State) (i : Nat) (f : Context → Context) : (modCtx s i f).ftm = s.ftm := rfl
@[simp] theorem modCtx_bdl (s : State) (i : Nat) (f : Context → Context) : (modCtx s i f).bdl = s.bdl := rfl
@[simp] theorem modCtx_boot (s : State) (i : Nat) (f : Context → Context) : (modCtx s i f).boot = s.boot := rfl
@[simp] theorem modCtx_mon (s : State) (i : Nat) (f : Context → Context) : (modCtx s i f).mon = s.mon := rfl
@[simp] theorem modCtx_awl (s : State) (i : Nat) (f : Context → Context) : (modCtx s i f).awl = s.awl := rfl

/-! ### modQueue -/

@[simp] theorem modQueue_pending (s : State) (i : Nat) (f : Queue → Queue) : (modQueue s i f).pending = s.pending := rfl
@[simp] theorem modQueue_now (s : State) (i : Nat) (f : Queue → Queue) : (modQueue s i f).now = s.now := rfl
@[simp] theorem modQueue_free (s : State) (i : Nat) (f : Queue → Queue) : (modQueue s i f).free = s.free := rfl
@[simp] theorem modQueue_out (s : State) (i : Nat) (f : Queue → Queue) : (modQueue s i f).out = s.out := rfl
@[simp] theorem modQueue_regs (s : State) (i : Nat) (f : Queue → Queue) : (modQueue s i f).regs = s.regs := rfl
@[simp] theorem modQueue_staged (s : State) (i : Nat) (f : Queue → Queue) : (modQueue s i f).staged = s.staged := rfl
@[simp] theorem modQueue_applying (s : State) (i : Nat) (f : Queue → Queue) : (modQueue s i f).applying = s.applying := rfl
@[simp] theorem modQueue_mem (s : State) (i : Nat) (f : Queue → Queue) : (modQueue s i f).mem = s.mem := rfl
@[simp] theorem modQueue_poison (s : State) (i : Nat) (f : Queue → Queue) : (modQueue s i f).poison = s.poison := rfl
@[simp] theorem modQueue_cores (s : State) (i : Nat) (f : Queue → Queue) : (modQueue s i f).cores = s.cores := rfl
@[simp] theorem modQueue_ms (s : State) (i : Nat) (f : Queue → Queue) : (modQueue s i f).ms = s.ms := rfl
@[simp] theorem modQueue_hbm (s : State) (i : Nat) (f : Queue → Queue) : (modQueue s i f).hbm = s.hbm := rfl
@[simp] theorem modQueue_xlt (s : State) (i : Nat) (f : Queue → Queue) : (modQueue s i f).xlt = s.xlt := rfl
@[simp] theorem modQueue_cmds (s : State) (i : Nat) (f : Queue → Queue) : (modQueue s i f).cmds = s.cmds := rfl
@[simp] theorem modQueue_nextCmd (s : State) (i : Nat) (f : Queue → Queue) : (modQueue s i f).nextCmd = s.nextCmd := rfl
@[simp] theorem modQueue_com (s : State) (i : Nat) (f : Queue → Queue) : (modQueue s i f).com = s.com := rfl
@[simp] theorem modQueue_sch (s : State) (i : Nat) (f : Queue → Queue) : (modQueue s i f).sch = s.sch := rfl
@[simp] theorem modQueue_srv (s : State) (i : Nat) (f : Queue → Queue) : (modQueue s i f).srv = s.srv := rfl
@[simp] theorem modQueue_err (s : State) (i : Nat) (f : Queue → Queue) : (modQueue s i f).err = s.err := rfl
@[simp] theorem modQueue_fab (s : State) (i : Nat) (f : Queue → Queue) : (modQueue s i f).fab = s.fab := rfl
@[simp] theorem modQueue_ftm (s : State) (i : Nat) (f : Queue → Queue) : (modQueue s i f).ftm = s.ftm := rfl
@[simp] theorem modQueue_bdl (s : State) (i : Nat) (f : Queue → Queue) : (modQueue s i f).bdl = s.bdl := rfl
@[simp] theorem modQueue_boot (s : State) (i : Nat) (f : Queue → Queue) : (modQueue s i f).boot = s.boot := rfl
@[simp] theorem modQueue_mon (s : State) (i : Nat) (f : Queue → Queue) : (modQueue s i f).mon = s.mon := rfl
@[simp] theorem modQueue_awl (s : State) (i : Nat) (f : Queue → Queue) : (modQueue s i f).awl = s.awl := rfl

/-! ### modFence -/

@[simp] theorem modFence_pending (s : State) (i : Nat) (f : Fence → Fence) : (modFence s i f).pending = s.pending := rfl
@[simp] theorem modFence_now (s : State) (i : Nat) (f : Fence → Fence) : (modFence s i f).now = s.now := rfl
@[simp] theorem modFence_free (s : State) (i : Nat) (f : Fence → Fence) : (modFence s i f).free = s.free := rfl
@[simp] theorem modFence_out (s : State) (i : Nat) (f : Fence → Fence) : (modFence s i f).out = s.out := rfl
@[simp] theorem modFence_regs (s : State) (i : Nat) (f : Fence → Fence) : (modFence s i f).regs = s.regs := rfl
@[simp] theorem modFence_staged (s : State) (i : Nat) (f : Fence → Fence) : (modFence s i f).staged = s.staged := rfl
@[simp] theorem modFence_applying (s : State) (i : Nat) (f : Fence → Fence) : (modFence s i f).applying = s.applying := rfl
@[simp] theorem modFence_mem (s : State) (i : Nat) (f : Fence → Fence) : (modFence s i f).mem = s.mem := rfl
@[simp] theorem modFence_poison (s : State) (i : Nat) (f : Fence → Fence) : (modFence s i f).poison = s.poison := rfl
@[simp] theorem modFence_cores (s : State) (i : Nat) (f : Fence → Fence) : (modFence s i f).cores = s.cores := rfl
@[simp] theorem modFence_ms (s : State) (i : Nat) (f : Fence → Fence) : (modFence s i f).ms = s.ms := rfl
@[simp] theorem modFence_hbm (s : State) (i : Nat) (f : Fence → Fence) : (modFence s i f).hbm = s.hbm := rfl
@[simp] theorem modFence_xlt (s : State) (i : Nat) (f : Fence → Fence) : (modFence s i f).xlt = s.xlt := rfl
@[simp] theorem modFence_cmds (s : State) (i : Nat) (f : Fence → Fence) : (modFence s i f).cmds = s.cmds := rfl
@[simp] theorem modFence_nextCmd (s : State) (i : Nat) (f : Fence → Fence) : (modFence s i f).nextCmd = s.nextCmd := rfl
@[simp] theorem modFence_com (s : State) (i : Nat) (f : Fence → Fence) : (modFence s i f).com = s.com := rfl
@[simp] theorem modFence_sch (s : State) (i : Nat) (f : Fence → Fence) : (modFence s i f).sch = s.sch := rfl
@[simp] theorem modFence_srv (s : State) (i : Nat) (f : Fence → Fence) : (modFence s i f).srv = s.srv := rfl
@[simp] theorem modFence_err (s : State) (i : Nat) (f : Fence → Fence) : (modFence s i f).err = s.err := rfl
@[simp] theorem modFence_fab (s : State) (i : Nat) (f : Fence → Fence) : (modFence s i f).fab = s.fab := rfl
@[simp] theorem modFence_ftm (s : State) (i : Nat) (f : Fence → Fence) : (modFence s i f).ftm = s.ftm := rfl
@[simp] theorem modFence_bdl (s : State) (i : Nat) (f : Fence → Fence) : (modFence s i f).bdl = s.bdl := rfl
@[simp] theorem modFence_boot (s : State) (i : Nat) (f : Fence → Fence) : (modFence s i f).boot = s.boot := rfl
@[simp] theorem modFence_mon (s : State) (i : Nat) (f : Fence → Fence) : (modFence s i f).mon = s.mon := rfl
@[simp] theorem modFence_awl (s : State) (i : Nat) (f : Fence → Fence) : (modFence s i f).awl = s.awl := rfl

/-! ### modObj -/

@[simp] theorem modObj_pending (s : State) (i : Nat) (f : MemObj → MemObj) : (modObj s i f).pending = s.pending := rfl
@[simp] theorem modObj_now (s : State) (i : Nat) (f : MemObj → MemObj) : (modObj s i f).now = s.now := rfl
@[simp] theorem modObj_free (s : State) (i : Nat) (f : MemObj → MemObj) : (modObj s i f).free = s.free := rfl
@[simp] theorem modObj_out (s : State) (i : Nat) (f : MemObj → MemObj) : (modObj s i f).out = s.out := rfl
@[simp] theorem modObj_regs (s : State) (i : Nat) (f : MemObj → MemObj) : (modObj s i f).regs = s.regs := rfl
@[simp] theorem modObj_staged (s : State) (i : Nat) (f : MemObj → MemObj) : (modObj s i f).staged = s.staged := rfl
@[simp] theorem modObj_applying (s : State) (i : Nat) (f : MemObj → MemObj) : (modObj s i f).applying = s.applying := rfl
@[simp] theorem modObj_mem (s : State) (i : Nat) (f : MemObj → MemObj) : (modObj s i f).mem = s.mem := rfl
@[simp] theorem modObj_poison (s : State) (i : Nat) (f : MemObj → MemObj) : (modObj s i f).poison = s.poison := rfl
@[simp] theorem modObj_cores (s : State) (i : Nat) (f : MemObj → MemObj) : (modObj s i f).cores = s.cores := rfl
@[simp] theorem modObj_ms (s : State) (i : Nat) (f : MemObj → MemObj) : (modObj s i f).ms = s.ms := rfl
@[simp] theorem modObj_hbm (s : State) (i : Nat) (f : MemObj → MemObj) : (modObj s i f).hbm = s.hbm := rfl
@[simp] theorem modObj_xlt (s : State) (i : Nat) (f : MemObj → MemObj) : (modObj s i f).xlt = s.xlt := rfl
@[simp] theorem modObj_cmds (s : State) (i : Nat) (f : MemObj → MemObj) : (modObj s i f).cmds = s.cmds := rfl
@[simp] theorem modObj_nextCmd (s : State) (i : Nat) (f : MemObj → MemObj) : (modObj s i f).nextCmd = s.nextCmd := rfl
@[simp] theorem modObj_com (s : State) (i : Nat) (f : MemObj → MemObj) : (modObj s i f).com = s.com := rfl
@[simp] theorem modObj_sch (s : State) (i : Nat) (f : MemObj → MemObj) : (modObj s i f).sch = s.sch := rfl
@[simp] theorem modObj_srv (s : State) (i : Nat) (f : MemObj → MemObj) : (modObj s i f).srv = s.srv := rfl
@[simp] theorem modObj_err (s : State) (i : Nat) (f : MemObj → MemObj) : (modObj s i f).err = s.err := rfl
@[simp] theorem modObj_fab (s : State) (i : Nat) (f : MemObj → MemObj) : (modObj s i f).fab = s.fab := rfl
@[simp] theorem modObj_ftm (s : State) (i : Nat) (f : MemObj → MemObj) : (modObj s i f).ftm = s.ftm := rfl
@[simp] theorem modObj_bdl (s : State) (i : Nat) (f : MemObj → MemObj) : (modObj s i f).bdl = s.bdl := rfl
@[simp] theorem modObj_boot (s : State) (i : Nat) (f : MemObj → MemObj) : (modObj s i f).boot = s.boot := rfl
@[simp] theorem modObj_mon (s : State) (i : Nat) (f : MemObj → MemObj) : (modObj s i f).mon = s.mon := rfl
@[simp] theorem modObj_awl (s : State) (i : Nat) (f : MemObj → MemObj) : (modObj s i f).awl = s.awl := rfl

/-! ### modSlice -/

@[simp] theorem modSlice_pending (s : State) (i : Nat) (f : L2Slice → L2Slice) : (modSlice s i f).pending = s.pending := rfl
@[simp] theorem modSlice_now (s : State) (i : Nat) (f : L2Slice → L2Slice) : (modSlice s i f).now = s.now := rfl
@[simp] theorem modSlice_free (s : State) (i : Nat) (f : L2Slice → L2Slice) : (modSlice s i f).free = s.free := rfl
@[simp] theorem modSlice_out (s : State) (i : Nat) (f : L2Slice → L2Slice) : (modSlice s i f).out = s.out := rfl
@[simp] theorem modSlice_regs (s : State) (i : Nat) (f : L2Slice → L2Slice) : (modSlice s i f).regs = s.regs := rfl
@[simp] theorem modSlice_staged (s : State) (i : Nat) (f : L2Slice → L2Slice) : (modSlice s i f).staged = s.staged := rfl
@[simp] theorem modSlice_applying (s : State) (i : Nat) (f : L2Slice → L2Slice) : (modSlice s i f).applying = s.applying := rfl
@[simp] theorem modSlice_mem (s : State) (i : Nat) (f : L2Slice → L2Slice) : (modSlice s i f).mem = s.mem := rfl
@[simp] theorem modSlice_poison (s : State) (i : Nat) (f : L2Slice → L2Slice) : (modSlice s i f).poison = s.poison := rfl
@[simp] theorem modSlice_cores (s : State) (i : Nat) (f : L2Slice → L2Slice) : (modSlice s i f).cores = s.cores := rfl
@[simp] theorem modSlice_hbm (s : State) (i : Nat) (f : L2Slice → L2Slice) : (modSlice s i f).hbm = s.hbm := rfl
@[simp] theorem modSlice_xlt (s : State) (i : Nat) (f : L2Slice → L2Slice) : (modSlice s i f).xlt = s.xlt := rfl
@[simp] theorem modSlice_obj (s : State) (i : Nat) (f : L2Slice → L2Slice) : (modSlice s i f).obj = s.obj := rfl
@[simp] theorem modSlice_cmds (s : State) (i : Nat) (f : L2Slice → L2Slice) : (modSlice s i f).cmds = s.cmds := rfl
@[simp] theorem modSlice_nextCmd (s : State) (i : Nat) (f : L2Slice → L2Slice) : (modSlice s i f).nextCmd = s.nextCmd := rfl
@[simp] theorem modSlice_com (s : State) (i : Nat) (f : L2Slice → L2Slice) : (modSlice s i f).com = s.com := rfl
@[simp] theorem modSlice_sch (s : State) (i : Nat) (f : L2Slice → L2Slice) : (modSlice s i f).sch = s.sch := rfl
@[simp] theorem modSlice_srv (s : State) (i : Nat) (f : L2Slice → L2Slice) : (modSlice s i f).srv = s.srv := rfl
@[simp] theorem modSlice_err (s : State) (i : Nat) (f : L2Slice → L2Slice) : (modSlice s i f).err = s.err := rfl
@[simp] theorem modSlice_fab (s : State) (i : Nat) (f : L2Slice → L2Slice) : (modSlice s i f).fab = s.fab := rfl
@[simp] theorem modSlice_ftm (s : State) (i : Nat) (f : L2Slice → L2Slice) : (modSlice s i f).ftm = s.ftm := rfl
@[simp] theorem modSlice_bdl (s : State) (i : Nat) (f : L2Slice → L2Slice) : (modSlice s i f).bdl = s.bdl := rfl
@[simp] theorem modSlice_boot (s : State) (i : Nat) (f : L2Slice → L2Slice) : (modSlice s i f).boot = s.boot := rfl
@[simp] theorem modSlice_mon (s : State) (i : Nat) (f : L2Slice → L2Slice) : (modSlice s i f).mon = s.mon := rfl
@[simp] theorem modSlice_awl (s : State) (i : Nat) (f : L2Slice → L2Slice) : (modSlice s i f).awl = s.awl := rfl

/-! ### modChan -/

@[simp] theorem modChan_pending (s : State) (st ch : Nat) (f : Chan → Chan) : (modChan s st ch f).pending = s.pending := rfl
@[simp] theorem modChan_now (s : State) (st ch : Nat) (f : Chan → Chan) : (modChan s st ch f).now = s.now := rfl
@[simp] theorem modChan_free (s : State) (st ch : Nat) (f : Chan → Chan) : (modChan s st ch f).free = s.free := rfl
@[simp] theorem modChan_out (s : State) (st ch : Nat) (f : Chan → Chan) : (modChan s st ch f).out = s.out := rfl
@[simp] theorem modChan_regs (s : State) (st ch : Nat) (f : Chan → Chan) : (modChan s st ch f).regs = s.regs := rfl
@[simp] theorem modChan_staged (s : State) (st ch : Nat) (f : Chan → Chan) : (modChan s st ch f).staged = s.staged := rfl
@[simp] theorem modChan_applying (s : State) (st ch : Nat) (f : Chan → Chan) : (modChan s st ch f).applying = s.applying := rfl
@[simp] theorem modChan_mem (s : State) (st ch : Nat) (f : Chan → Chan) : (modChan s st ch f).mem = s.mem := rfl
@[simp] theorem modChan_poison (s : State) (st ch : Nat) (f : Chan → Chan) : (modChan s st ch f).poison = s.poison := rfl
@[simp] theorem modChan_cores (s : State) (st ch : Nat) (f : Chan → Chan) : (modChan s st ch f).cores = s.cores := rfl
@[simp] theorem modChan_ms (s : State) (st ch : Nat) (f : Chan → Chan) : (modChan s st ch f).ms = s.ms := rfl
@[simp] theorem modChan_xlt (s : State) (st ch : Nat) (f : Chan → Chan) : (modChan s st ch f).xlt = s.xlt := rfl
@[simp] theorem modChan_obj (s : State) (st ch : Nat) (f : Chan → Chan) : (modChan s st ch f).obj = s.obj := rfl
@[simp] theorem modChan_cmds (s : State) (st ch : Nat) (f : Chan → Chan) : (modChan s st ch f).cmds = s.cmds := rfl
@[simp] theorem modChan_nextCmd (s : State) (st ch : Nat) (f : Chan → Chan) : (modChan s st ch f).nextCmd = s.nextCmd := rfl
@[simp] theorem modChan_com (s : State) (st ch : Nat) (f : Chan → Chan) : (modChan s st ch f).com = s.com := rfl
@[simp] theorem modChan_sch (s : State) (st ch : Nat) (f : Chan → Chan) : (modChan s st ch f).sch = s.sch := rfl
@[simp] theorem modChan_srv (s : State) (st ch : Nat) (f : Chan → Chan) : (modChan s st ch f).srv = s.srv := rfl
@[simp] theorem modChan_err (s : State) (st ch : Nat) (f : Chan → Chan) : (modChan s st ch f).err = s.err := rfl
@[simp] theorem modChan_fab (s : State) (st ch : Nat) (f : Chan → Chan) : (modChan s st ch f).fab = s.fab := rfl
@[simp] theorem modChan_ftm (s : State) (st ch : Nat) (f : Chan → Chan) : (modChan s st ch f).ftm = s.ftm := rfl
@[simp] theorem modChan_bdl (s : State) (st ch : Nat) (f : Chan → Chan) : (modChan s st ch f).bdl = s.bdl := rfl
@[simp] theorem modChan_boot (s : State) (st ch : Nat) (f : Chan → Chan) : (modChan s st ch f).boot = s.boot := rfl
@[simp] theorem modChan_mon (s : State) (st ch : Nat) (f : Chan → Chan) : (modChan s st ch f).mon = s.mon := rfl
@[simp] theorem modChan_awl (s : State) (st ch : Nat) (f : Chan → Chan) : (modChan s st ch f).awl = s.awl := rfl

/-! ### modPeer -/

@[simp] theorem modPeer_pending (s : State) (n : Nat) (f : Peer → Peer) : (modPeer s n f).pending = s.pending := rfl
@[simp] theorem modPeer_now (s : State) (n : Nat) (f : Peer → Peer) : (modPeer s n f).now = s.now := rfl
@[simp] theorem modPeer_free (s : State) (n : Nat) (f : Peer → Peer) : (modPeer s n f).free = s.free := rfl
@[simp] theorem modPeer_out (s : State) (n : Nat) (f : Peer → Peer) : (modPeer s n f).out = s.out := rfl
@[simp] theorem modPeer_regs (s : State) (n : Nat) (f : Peer → Peer) : (modPeer s n f).regs = s.regs := rfl
@[simp] theorem modPeer_staged (s : State) (n : Nat) (f : Peer → Peer) : (modPeer s n f).staged = s.staged := rfl
@[simp] theorem modPeer_applying (s : State) (n : Nat) (f : Peer → Peer) : (modPeer s n f).applying = s.applying := rfl
@[simp] theorem modPeer_mem (s : State) (n : Nat) (f : Peer → Peer) : (modPeer s n f).mem = s.mem := rfl
@[simp] theorem modPeer_poison (s : State) (n : Nat) (f : Peer → Peer) : (modPeer s n f).poison = s.poison := rfl
@[simp] theorem modPeer_cores (s : State) (n : Nat) (f : Peer → Peer) : (modPeer s n f).cores = s.cores := rfl
@[simp] theorem modPeer_ms (s : State) (n : Nat) (f : Peer → Peer) : (modPeer s n f).ms = s.ms := rfl
@[simp] theorem modPeer_hbm (s : State) (n : Nat) (f : Peer → Peer) : (modPeer s n f).hbm = s.hbm := rfl
@[simp] theorem modPeer_xlt (s : State) (n : Nat) (f : Peer → Peer) : (modPeer s n f).xlt = s.xlt := rfl
@[simp] theorem modPeer_obj (s : State) (n : Nat) (f : Peer → Peer) : (modPeer s n f).obj = s.obj := rfl
@[simp] theorem modPeer_cmds (s : State) (n : Nat) (f : Peer → Peer) : (modPeer s n f).cmds = s.cmds := rfl
@[simp] theorem modPeer_nextCmd (s : State) (n : Nat) (f : Peer → Peer) : (modPeer s n f).nextCmd = s.nextCmd := rfl
@[simp] theorem modPeer_com (s : State) (n : Nat) (f : Peer → Peer) : (modPeer s n f).com = s.com := rfl
@[simp] theorem modPeer_sch (s : State) (n : Nat) (f : Peer → Peer) : (modPeer s n f).sch = s.sch := rfl
@[simp] theorem modPeer_srv (s : State) (n : Nat) (f : Peer → Peer) : (modPeer s n f).srv = s.srv := rfl
@[simp] theorem modPeer_err (s : State) (n : Nat) (f : Peer → Peer) : (modPeer s n f).err = s.err := rfl
@[simp] theorem modPeer_ftm (s : State) (n : Nat) (f : Peer → Peer) : (modPeer s n f).ftm = s.ftm := rfl
@[simp] theorem modPeer_bdl (s : State) (n : Nat) (f : Peer → Peer) : (modPeer s n f).bdl = s.bdl := rfl
@[simp] theorem modPeer_boot (s : State) (n : Nat) (f : Peer → Peer) : (modPeer s n f).boot = s.boot := rfl
@[simp] theorem modPeer_mon (s : State) (n : Nat) (f : Peer → Peer) : (modPeer s n f).mon = s.mon := rfl
@[simp] theorem modPeer_awl (s : State) (n : Nat) (f : Peer → Peer) : (modPeer s n f).awl = s.awl := rfl

/-! ### modPort -/

@[simp] theorem modPort_pending (s : State) (p : Nat) (f : Port → Port) : (modPort s p f).pending = s.pending := rfl
@[simp] theorem modPort_now (s : State) (p : Nat) (f : Port → Port) : (modPort s p f).now = s.now := rfl
@[simp] theorem modPort_free (s : State) (p : Nat) (f : Port → Port) : (modPort s p f).free = s.free := rfl
@[simp] theorem modPort_out (s : State) (p : Nat) (f : Port → Port) : (modPort s p f).out = s.out := rfl
@[simp] theorem modPort_regs (s : State) (p : Nat) (f : Port → Port) : (modPort s p f).regs = s.regs := rfl
@[simp] theorem modPort_staged (s : State) (p : Nat) (f : Port → Port) : (modPort s p f).staged = s.staged := rfl
@[simp] theorem modPort_applying (s : State) (p : Nat) (f : Port → Port) : (modPort s p f).applying = s.applying := rfl
@[simp] theorem modPort_mem (s : State) (p : Nat) (f : Port → Port) : (modPort s p f).mem = s.mem := rfl
@[simp] theorem modPort_poison (s : State) (p : Nat) (f : Port → Port) : (modPort s p f).poison = s.poison := rfl
@[simp] theorem modPort_cores (s : State) (p : Nat) (f : Port → Port) : (modPort s p f).cores = s.cores := rfl
@[simp] theorem modPort_ms (s : State) (p : Nat) (f : Port → Port) : (modPort s p f).ms = s.ms := rfl
@[simp] theorem modPort_hbm (s : State) (p : Nat) (f : Port → Port) : (modPort s p f).hbm = s.hbm := rfl
@[simp] theorem modPort_xlt (s : State) (p : Nat) (f : Port → Port) : (modPort s p f).xlt = s.xlt := rfl
@[simp] theorem modPort_obj (s : State) (p : Nat) (f : Port → Port) : (modPort s p f).obj = s.obj := rfl
@[simp] theorem modPort_cmds (s : State) (p : Nat) (f : Port → Port) : (modPort s p f).cmds = s.cmds := rfl
@[simp] theorem modPort_nextCmd (s : State) (p : Nat) (f : Port → Port) : (modPort s p f).nextCmd = s.nextCmd := rfl
@[simp] theorem modPort_com (s : State) (p : Nat) (f : Port → Port) : (modPort s p f).com = s.com := rfl
@[simp] theorem modPort_sch (s : State) (p : Nat) (f : Port → Port) : (modPort s p f).sch = s.sch := rfl
@[simp] theorem modPort_srv (s : State) (p : Nat) (f : Port → Port) : (modPort s p f).srv = s.srv := rfl
@[simp] theorem modPort_err (s : State) (p : Nat) (f : Port → Port) : (modPort s p f).err = s.err := rfl
@[simp] theorem modPort_ftm (s : State) (p : Nat) (f : Port → Port) : (modPort s p f).ftm = s.ftm := rfl
@[simp] theorem modPort_bdl (s : State) (p : Nat) (f : Port → Port) : (modPort s p f).bdl = s.bdl := rfl
@[simp] theorem modPort_boot (s : State) (p : Nat) (f : Port → Port) : (modPort s p f).boot = s.boot := rfl
@[simp] theorem modPort_mon (s : State) (p : Nat) (f : Port → Port) : (modPort s p f).mon = s.mon := rfl
@[simp] theorem modPort_awl (s : State) (p : Nat) (f : Port → Port) : (modPort s p f).awl = s.awl := rfl

/-! ### modAcct -/

@[simp] theorem modAcct_pending (s : State) (t : Nat) (f : Acct → Acct) : (modAcct s t f).pending = s.pending := rfl
@[simp] theorem modAcct_now (s : State) (t : Nat) (f : Acct → Acct) : (modAcct s t f).now = s.now := rfl
@[simp] theorem modAcct_free (s : State) (t : Nat) (f : Acct → Acct) : (modAcct s t f).free = s.free := rfl
@[simp] theorem modAcct_out (s : State) (t : Nat) (f : Acct → Acct) : (modAcct s t f).out = s.out := rfl
@[simp] theorem modAcct_regs (s : State) (t : Nat) (f : Acct → Acct) : (modAcct s t f).regs = s.regs := rfl
@[simp] theorem modAcct_staged (s : State) (t : Nat) (f : Acct → Acct) : (modAcct s t f).staged = s.staged := rfl
@[simp] theorem modAcct_applying (s : State) (t : Nat) (f : Acct → Acct) : (modAcct s t f).applying = s.applying := rfl
@[simp] theorem modAcct_mem (s : State) (t : Nat) (f : Acct → Acct) : (modAcct s t f).mem = s.mem := rfl
@[simp] theorem modAcct_poison (s : State) (t : Nat) (f : Acct → Acct) : (modAcct s t f).poison = s.poison := rfl
@[simp] theorem modAcct_cores (s : State) (t : Nat) (f : Acct → Acct) : (modAcct s t f).cores = s.cores := rfl
@[simp] theorem modAcct_ms (s : State) (t : Nat) (f : Acct → Acct) : (modAcct s t f).ms = s.ms := rfl
@[simp] theorem modAcct_hbm (s : State) (t : Nat) (f : Acct → Acct) : (modAcct s t f).hbm = s.hbm := rfl
@[simp] theorem modAcct_xlt (s : State) (t : Nat) (f : Acct → Acct) : (modAcct s t f).xlt = s.xlt := rfl
@[simp] theorem modAcct_obj (s : State) (t : Nat) (f : Acct → Acct) : (modAcct s t f).obj = s.obj := rfl
@[simp] theorem modAcct_cmds (s : State) (t : Nat) (f : Acct → Acct) : (modAcct s t f).cmds = s.cmds := rfl
@[simp] theorem modAcct_nextCmd (s : State) (t : Nat) (f : Acct → Acct) : (modAcct s t f).nextCmd = s.nextCmd := rfl
@[simp] theorem modAcct_com (s : State) (t : Nat) (f : Acct → Acct) : (modAcct s t f).com = s.com := rfl
@[simp] theorem modAcct_sch (s : State) (t : Nat) (f : Acct → Acct) : (modAcct s t f).sch = s.sch := rfl
@[simp] theorem modAcct_err (s : State) (t : Nat) (f : Acct → Acct) : (modAcct s t f).err = s.err := rfl
@[simp] theorem modAcct_fab (s : State) (t : Nat) (f : Acct → Acct) : (modAcct s t f).fab = s.fab := rfl
@[simp] theorem modAcct_ftm (s : State) (t : Nat) (f : Acct → Acct) : (modAcct s t f).ftm = s.ftm := rfl
@[simp] theorem modAcct_bdl (s : State) (t : Nat) (f : Acct → Acct) : (modAcct s t f).bdl = s.bdl := rfl
@[simp] theorem modAcct_boot (s : State) (t : Nat) (f : Acct → Acct) : (modAcct s t f).boot = s.boot := rfl
@[simp] theorem modAcct_mon (s : State) (t : Nat) (f : Acct → Acct) : (modAcct s t f).mon = s.mon := rfl
@[simp] theorem modAcct_awl (s : State) (t : Nat) (f : Acct → Acct) : (modAcct s t f).awl = s.awl := rfl

/-! ### setPair -/

@[simp] theorem setPair_pending (s : State) (i : Nat) (p : Pair) : (setPair s i p).pending = s.pending := rfl
@[simp] theorem setPair_now (s : State) (i : Nat) (p : Pair) : (setPair s i p).now = s.now := rfl
@[simp] theorem setPair_free (s : State) (i : Nat) (p : Pair) : (setPair s i p).free = s.free := rfl
@[simp] theorem setPair_out (s : State) (i : Nat) (p : Pair) : (setPair s i p).out = s.out := rfl
@[simp] theorem setPair_regs (s : State) (i : Nat) (p : Pair) : (setPair s i p).regs = s.regs := rfl
@[simp] theorem setPair_staged (s : State) (i : Nat) (p : Pair) : (setPair s i p).staged = s.staged := rfl
@[simp] theorem setPair_applying (s : State) (i : Nat) (p : Pair) : (setPair s i p).applying = s.applying := rfl
@[simp] theorem setPair_mem (s : State) (i : Nat) (p : Pair) : (setPair s i p).mem = s.mem := rfl
@[simp] theorem setPair_poison (s : State) (i : Nat) (p : Pair) : (setPair s i p).poison = s.poison := rfl
@[simp] theorem setPair_cores (s : State) (i : Nat) (p : Pair) : (setPair s i p).cores = s.cores := rfl
@[simp] theorem setPair_ms (s : State) (i : Nat) (p : Pair) : (setPair s i p).ms = s.ms := rfl
@[simp] theorem setPair_hbm (s : State) (i : Nat) (p : Pair) : (setPair s i p).hbm = s.hbm := rfl
@[simp] theorem setPair_xlt (s : State) (i : Nat) (p : Pair) : (setPair s i p).xlt = s.xlt := rfl
@[simp] theorem setPair_obj (s : State) (i : Nat) (p : Pair) : (setPair s i p).obj = s.obj := rfl
@[simp] theorem setPair_cmds (s : State) (i : Nat) (p : Pair) : (setPair s i p).cmds = s.cmds := rfl
@[simp] theorem setPair_nextCmd (s : State) (i : Nat) (p : Pair) : (setPair s i p).nextCmd = s.nextCmd := rfl
@[simp] theorem setPair_sch (s : State) (i : Nat) (p : Pair) : (setPair s i p).sch = s.sch := rfl
@[simp] theorem setPair_srv (s : State) (i : Nat) (p : Pair) : (setPair s i p).srv = s.srv := rfl
@[simp] theorem setPair_err (s : State) (i : Nat) (p : Pair) : (setPair s i p).err = s.err := rfl
@[simp] theorem setPair_fab (s : State) (i : Nat) (p : Pair) : (setPair s i p).fab = s.fab := rfl
@[simp] theorem setPair_ftm (s : State) (i : Nat) (p : Pair) : (setPair s i p).ftm = s.ftm := rfl
@[simp] theorem setPair_bdl (s : State) (i : Nat) (p : Pair) : (setPair s i p).bdl = s.bdl := rfl
@[simp] theorem setPair_boot (s : State) (i : Nat) (p : Pair) : (setPair s i p).boot = s.boot := rfl
@[simp] theorem setPair_mon (s : State) (i : Nat) (p : Pair) : (setPair s i p).mon = s.mon := rfl
@[simp] theorem setPair_awl (s : State) (i : Nat) (p : Pair) : (setPair s i p).awl = s.awl := rfl

/-! ### modPair -/

@[simp] theorem modPair_pending (s : State) (i : Nat) (f : Pair → Pair) : (modPair s i f).pending = s.pending := by
  unfold modPair; split <;> rfl
@[simp] theorem modPair_now (s : State) (i : Nat) (f : Pair → Pair) : (modPair s i f).now = s.now := by
  unfold modPair; split <;> rfl
@[simp] theorem modPair_free (s : State) (i : Nat) (f : Pair → Pair) : (modPair s i f).free = s.free := by
  unfold modPair; split <;> rfl
@[simp] theorem modPair_out (s : State) (i : Nat) (f : Pair → Pair) : (modPair s i f).out = s.out := by
  unfold modPair; split <;> rfl
@[simp] theorem modPair_regs (s : State) (i : Nat) (f : Pair → Pair) : (modPair s i f).regs = s.regs := by
  unfold modPair; split <;> rfl
@[simp] theorem modPair_staged (s : State) (i : Nat) (f : Pair → Pair) : (modPair s i f).staged = s.staged := by
  unfold modPair; split <;> rfl
@[simp] theorem modPair_applying (s : State) (i : Nat) (f : Pair → Pair) : (modPair s i f).applying = s.applying := by
  unfold modPair; split <;> rfl
@[simp] theorem modPair_mem (s : State) (i : Nat) (f : Pair → Pair) : (modPair s i f).mem = s.mem := by
  unfold modPair; split <;> rfl
@[simp] theorem modPair_poison (s : State) (i : Nat) (f : Pair → Pair) : (modPair s i f).poison = s.poison := by
  unfold modPair; split <;> rfl
@[simp] theorem modPair_cores (s : State) (i : Nat) (f : Pair → Pair) : (modPair s i f).cores = s.cores := by
  unfold modPair; split <;> rfl
@[simp] theorem modPair_ms (s : State) (i : Nat) (f : Pair → Pair) : (modPair s i f).ms = s.ms := by
  unfold modPair; split <;> rfl
@[simp] theorem modPair_hbm (s : State) (i : Nat) (f : Pair → Pair) : (modPair s i f).hbm = s.hbm := by
  unfold modPair; split <;> rfl
@[simp] theorem modPair_xlt (s : State) (i : Nat) (f : Pair → Pair) : (modPair s i f).xlt = s.xlt := by
  unfold modPair; split <;> rfl
@[simp] theorem modPair_obj (s : State) (i : Nat) (f : Pair → Pair) : (modPair s i f).obj = s.obj := by
  unfold modPair; split <;> rfl
@[simp] theorem modPair_cmds (s : State) (i : Nat) (f : Pair → Pair) : (modPair s i f).cmds = s.cmds := by
  unfold modPair; split <;> rfl
@[simp] theorem modPair_nextCmd (s : State) (i : Nat) (f : Pair → Pair) : (modPair s i f).nextCmd = s.nextCmd := by
  unfold modPair; split <;> rfl
@[simp] theorem modPair_sch (s : State) (i : Nat) (f : Pair → Pair) : (modPair s i f).sch = s.sch := by
  unfold modPair; split <;> rfl
@[simp] theorem modPair_srv (s : State) (i : Nat) (f : Pair → Pair) : (modPair s i f).srv = s.srv := by
  unfold modPair; split <;> rfl
@[simp] theorem modPair_err (s : State) (i : Nat) (f : Pair → Pair) : (modPair s i f).err = s.err := by
  unfold modPair; split <;> rfl
@[simp] theorem modPair_fab (s : State) (i : Nat) (f : Pair → Pair) : (modPair s i f).fab = s.fab := by
  unfold modPair; split <;> rfl
@[simp] theorem modPair_ftm (s : State) (i : Nat) (f : Pair → Pair) : (modPair s i f).ftm = s.ftm := by
  unfold modPair; split <;> rfl
@[simp] theorem modPair_bdl (s : State) (i : Nat) (f : Pair → Pair) : (modPair s i f).bdl = s.bdl := by
  unfold modPair; split <;> rfl
@[simp] theorem modPair_boot (s : State) (i : Nat) (f : Pair → Pair) : (modPair s i f).boot = s.boot := by
  unfold modPair; split <;> rfl
@[simp] theorem modPair_mon (s : State) (i : Nat) (f : Pair → Pair) : (modPair s i f).mon = s.mon := by
  unfold modPair; split <;> rfl
@[simp] theorem modPair_awl (s : State) (i : Nat) (f : Pair → Pair) : (modPair s i f).awl = s.awl := by
  unfold modPair; split <;> rfl

/-! ### modBoot -/

@[simp] theorem modBoot_pending (s : State) (f : Boot → Boot) : (modBoot s f).pending = s.pending := rfl
@[simp] theorem modBoot_now (s : State) (f : Boot → Boot) : (modBoot s f).now = s.now := rfl
@[simp] theorem modBoot_free (s : State) (f : Boot → Boot) : (modBoot s f).free = s.free := rfl
@[simp] theorem modBoot_out (s : State) (f : Boot → Boot) : (modBoot s f).out = s.out := rfl
@[simp] theorem modBoot_regs (s : State) (f : Boot → Boot) : (modBoot s f).regs = s.regs := rfl
@[simp] theorem modBoot_staged (s : State) (f : Boot → Boot) : (modBoot s f).staged = s.staged := rfl
@[simp] theorem modBoot_applying (s : State) (f : Boot → Boot) : (modBoot s f).applying = s.applying := rfl
@[simp] theorem modBoot_mem (s : State) (f : Boot → Boot) : (modBoot s f).mem = s.mem := rfl
@[simp] theorem modBoot_poison (s : State) (f : Boot → Boot) : (modBoot s f).poison = s.poison := rfl
@[simp] theorem modBoot_cores (s : State) (f : Boot → Boot) : (modBoot s f).cores = s.cores := rfl
@[simp] theorem modBoot_ms (s : State) (f : Boot → Boot) : (modBoot s f).ms = s.ms := rfl
@[simp] theorem modBoot_hbm (s : State) (f : Boot → Boot) : (modBoot s f).hbm = s.hbm := rfl
@[simp] theorem modBoot_xlt (s : State) (f : Boot → Boot) : (modBoot s f).xlt = s.xlt := rfl
@[simp] theorem modBoot_obj (s : State) (f : Boot → Boot) : (modBoot s f).obj = s.obj := rfl
@[simp] theorem modBoot_cmds (s : State) (f : Boot → Boot) : (modBoot s f).cmds = s.cmds := rfl
@[simp] theorem modBoot_nextCmd (s : State) (f : Boot → Boot) : (modBoot s f).nextCmd = s.nextCmd := rfl
@[simp] theorem modBoot_com (s : State) (f : Boot → Boot) : (modBoot s f).com = s.com := rfl
@[simp] theorem modBoot_sch (s : State) (f : Boot → Boot) : (modBoot s f).sch = s.sch := rfl
@[simp] theorem modBoot_srv (s : State) (f : Boot → Boot) : (modBoot s f).srv = s.srv := rfl
@[simp] theorem modBoot_err (s : State) (f : Boot → Boot) : (modBoot s f).err = s.err := rfl
@[simp] theorem modBoot_fab (s : State) (f : Boot → Boot) : (modBoot s f).fab = s.fab := rfl
@[simp] theorem modBoot_ftm (s : State) (f : Boot → Boot) : (modBoot s f).ftm = s.ftm := rfl
@[simp] theorem modBoot_bdl (s : State) (f : Boot → Boot) : (modBoot s f).bdl = s.bdl := rfl
@[simp] theorem modBoot_mon (s : State) (f : Boot → Boot) : (modBoot s f).mon = s.mon := rfl
@[simp] theorem modBoot_awl (s : State) (f : Boot → Boot) : (modBoot s f).awl = s.awl := rfl

/-! ### modFwu -/

@[simp] theorem modFwu_pending (s : State) (f : Fwu → Fwu) : (modFwu s f).pending = s.pending := rfl
@[simp] theorem modFwu_now (s : State) (f : Fwu → Fwu) : (modFwu s f).now = s.now := rfl
@[simp] theorem modFwu_free (s : State) (f : Fwu → Fwu) : (modFwu s f).free = s.free := rfl
@[simp] theorem modFwu_out (s : State) (f : Fwu → Fwu) : (modFwu s f).out = s.out := rfl
@[simp] theorem modFwu_regs (s : State) (f : Fwu → Fwu) : (modFwu s f).regs = s.regs := rfl
@[simp] theorem modFwu_staged (s : State) (f : Fwu → Fwu) : (modFwu s f).staged = s.staged := rfl
@[simp] theorem modFwu_applying (s : State) (f : Fwu → Fwu) : (modFwu s f).applying = s.applying := rfl
@[simp] theorem modFwu_mem (s : State) (f : Fwu → Fwu) : (modFwu s f).mem = s.mem := rfl
@[simp] theorem modFwu_poison (s : State) (f : Fwu → Fwu) : (modFwu s f).poison = s.poison := rfl
@[simp] theorem modFwu_cores (s : State) (f : Fwu → Fwu) : (modFwu s f).cores = s.cores := rfl
@[simp] theorem modFwu_ms (s : State) (f : Fwu → Fwu) : (modFwu s f).ms = s.ms := rfl
@[simp] theorem modFwu_hbm (s : State) (f : Fwu → Fwu) : (modFwu s f).hbm = s.hbm := rfl
@[simp] theorem modFwu_xlt (s : State) (f : Fwu → Fwu) : (modFwu s f).xlt = s.xlt := rfl
@[simp] theorem modFwu_obj (s : State) (f : Fwu → Fwu) : (modFwu s f).obj = s.obj := rfl
@[simp] theorem modFwu_cmds (s : State) (f : Fwu → Fwu) : (modFwu s f).cmds = s.cmds := rfl
@[simp] theorem modFwu_nextCmd (s : State) (f : Fwu → Fwu) : (modFwu s f).nextCmd = s.nextCmd := rfl
@[simp] theorem modFwu_com (s : State) (f : Fwu → Fwu) : (modFwu s f).com = s.com := rfl
@[simp] theorem modFwu_sch (s : State) (f : Fwu → Fwu) : (modFwu s f).sch = s.sch := rfl
@[simp] theorem modFwu_srv (s : State) (f : Fwu → Fwu) : (modFwu s f).srv = s.srv := rfl
@[simp] theorem modFwu_err (s : State) (f : Fwu → Fwu) : (modFwu s f).err = s.err := rfl
@[simp] theorem modFwu_fab (s : State) (f : Fwu → Fwu) : (modFwu s f).fab = s.fab := rfl
@[simp] theorem modFwu_ftm (s : State) (f : Fwu → Fwu) : (modFwu s f).ftm = s.ftm := rfl
@[simp] theorem modFwu_bdl (s : State) (f : Fwu → Fwu) : (modFwu s f).bdl = s.bdl := rfl
@[simp] theorem modFwu_mon (s : State) (f : Fwu → Fwu) : (modFwu s f).mon = s.mon := rfl
@[simp] theorem modFwu_awl (s : State) (f : Fwu → Fwu) : (modFwu s f).awl = s.awl := rfl

/-! ### modFtm -/

@[simp] theorem modFtm_pending (s : State) (f : Ftm → Ftm) : (modFtm s f).pending = s.pending := rfl
@[simp] theorem modFtm_now (s : State) (f : Ftm → Ftm) : (modFtm s f).now = s.now := rfl
@[simp] theorem modFtm_free (s : State) (f : Ftm → Ftm) : (modFtm s f).free = s.free := rfl
@[simp] theorem modFtm_out (s : State) (f : Ftm → Ftm) : (modFtm s f).out = s.out := rfl
@[simp] theorem modFtm_regs (s : State) (f : Ftm → Ftm) : (modFtm s f).regs = s.regs := rfl
@[simp] theorem modFtm_staged (s : State) (f : Ftm → Ftm) : (modFtm s f).staged = s.staged := rfl
@[simp] theorem modFtm_applying (s : State) (f : Ftm → Ftm) : (modFtm s f).applying = s.applying := rfl
@[simp] theorem modFtm_mem (s : State) (f : Ftm → Ftm) : (modFtm s f).mem = s.mem := rfl
@[simp] theorem modFtm_poison (s : State) (f : Ftm → Ftm) : (modFtm s f).poison = s.poison := rfl
@[simp] theorem modFtm_cores (s : State) (f : Ftm → Ftm) : (modFtm s f).cores = s.cores := rfl
@[simp] theorem modFtm_ms (s : State) (f : Ftm → Ftm) : (modFtm s f).ms = s.ms := rfl
@[simp] theorem modFtm_hbm (s : State) (f : Ftm → Ftm) : (modFtm s f).hbm = s.hbm := rfl
@[simp] theorem modFtm_xlt (s : State) (f : Ftm → Ftm) : (modFtm s f).xlt = s.xlt := rfl
@[simp] theorem modFtm_obj (s : State) (f : Ftm → Ftm) : (modFtm s f).obj = s.obj := rfl
@[simp] theorem modFtm_cmds (s : State) (f : Ftm → Ftm) : (modFtm s f).cmds = s.cmds := rfl
@[simp] theorem modFtm_nextCmd (s : State) (f : Ftm → Ftm) : (modFtm s f).nextCmd = s.nextCmd := rfl
@[simp] theorem modFtm_com (s : State) (f : Ftm → Ftm) : (modFtm s f).com = s.com := rfl
@[simp] theorem modFtm_sch (s : State) (f : Ftm → Ftm) : (modFtm s f).sch = s.sch := rfl
@[simp] theorem modFtm_srv (s : State) (f : Ftm → Ftm) : (modFtm s f).srv = s.srv := rfl
@[simp] theorem modFtm_err (s : State) (f : Ftm → Ftm) : (modFtm s f).err = s.err := rfl
@[simp] theorem modFtm_fab (s : State) (f : Ftm → Ftm) : (modFtm s f).fab = s.fab := rfl
@[simp] theorem modFtm_bdl (s : State) (f : Ftm → Ftm) : (modFtm s f).bdl = s.bdl := rfl
@[simp] theorem modFtm_boot (s : State) (f : Ftm → Ftm) : (modFtm s f).boot = s.boot := rfl
@[simp] theorem modFtm_mon (s : State) (f : Ftm → Ftm) : (modFtm s f).mon = s.mon := rfl
@[simp] theorem modFtm_awl (s : State) (f : Ftm → Ftm) : (modFtm s f).awl = s.awl := rfl

/-! ### modDom -/

@[simp] theorem modDom_pending (s : State) (d : Nat) (f : Dom → Dom) : (modDom s d f).pending = s.pending := rfl
@[simp] theorem modDom_now (s : State) (d : Nat) (f : Dom → Dom) : (modDom s d f).now = s.now := rfl
@[simp] theorem modDom_free (s : State) (d : Nat) (f : Dom → Dom) : (modDom s d f).free = s.free := rfl
@[simp] theorem modDom_out (s : State) (d : Nat) (f : Dom → Dom) : (modDom s d f).out = s.out := rfl
@[simp] theorem modDom_regs (s : State) (d : Nat) (f : Dom → Dom) : (modDom s d f).regs = s.regs := rfl
@[simp] theorem modDom_staged (s : State) (d : Nat) (f : Dom → Dom) : (modDom s d f).staged = s.staged := rfl
@[simp] theorem modDom_applying (s : State) (d : Nat) (f : Dom → Dom) : (modDom s d f).applying = s.applying := rfl
@[simp] theorem modDom_mem (s : State) (d : Nat) (f : Dom → Dom) : (modDom s d f).mem = s.mem := rfl
@[simp] theorem modDom_poison (s : State) (d : Nat) (f : Dom → Dom) : (modDom s d f).poison = s.poison := rfl
@[simp] theorem modDom_cores (s : State) (d : Nat) (f : Dom → Dom) : (modDom s d f).cores = s.cores := rfl
@[simp] theorem modDom_ms (s : State) (d : Nat) (f : Dom → Dom) : (modDom s d f).ms = s.ms := rfl
@[simp] theorem modDom_hbm (s : State) (d : Nat) (f : Dom → Dom) : (modDom s d f).hbm = s.hbm := rfl
@[simp] theorem modDom_xlt (s : State) (d : Nat) (f : Dom → Dom) : (modDom s d f).xlt = s.xlt := rfl
@[simp] theorem modDom_obj (s : State) (d : Nat) (f : Dom → Dom) : (modDom s d f).obj = s.obj := rfl
@[simp] theorem modDom_cmds (s : State) (d : Nat) (f : Dom → Dom) : (modDom s d f).cmds = s.cmds := rfl
@[simp] theorem modDom_nextCmd (s : State) (d : Nat) (f : Dom → Dom) : (modDom s d f).nextCmd = s.nextCmd := rfl
@[simp] theorem modDom_com (s : State) (d : Nat) (f : Dom → Dom) : (modDom s d f).com = s.com := rfl
@[simp] theorem modDom_sch (s : State) (d : Nat) (f : Dom → Dom) : (modDom s d f).sch = s.sch := rfl
@[simp] theorem modDom_srv (s : State) (d : Nat) (f : Dom → Dom) : (modDom s d f).srv = s.srv := rfl
@[simp] theorem modDom_err (s : State) (d : Nat) (f : Dom → Dom) : (modDom s d f).err = s.err := rfl
@[simp] theorem modDom_fab (s : State) (d : Nat) (f : Dom → Dom) : (modDom s d f).fab = s.fab := rfl
@[simp] theorem modDom_ftm (s : State) (d : Nat) (f : Dom → Dom) : (modDom s d f).ftm = s.ftm := rfl
@[simp] theorem modDom_boot (s : State) (d : Nat) (f : Dom → Dom) : (modDom s d f).boot = s.boot := rfl
@[simp] theorem modDom_mon (s : State) (d : Nat) (f : Dom → Dom) : (modDom s d f).mon = s.mon := rfl
@[simp] theorem modDom_awl (s : State) (d : Nat) (f : Dom → Dom) : (modDom s d f).awl = s.awl := rfl

/-! ### modAwl -/

@[simp] theorem modAwl_pending (s : State) (f : Awl → Awl) : (modAwl s f).pending = s.pending := rfl
@[simp] theorem modAwl_now (s : State) (f : Awl → Awl) : (modAwl s f).now = s.now := rfl
@[simp] theorem modAwl_free (s : State) (f : Awl → Awl) : (modAwl s f).free = s.free := rfl
@[simp] theorem modAwl_out (s : State) (f : Awl → Awl) : (modAwl s f).out = s.out := rfl
@[simp] theorem modAwl_regs (s : State) (f : Awl → Awl) : (modAwl s f).regs = s.regs := rfl
@[simp] theorem modAwl_staged (s : State) (f : Awl → Awl) : (modAwl s f).staged = s.staged := rfl
@[simp] theorem modAwl_applying (s : State) (f : Awl → Awl) : (modAwl s f).applying = s.applying := rfl
@[simp] theorem modAwl_mem (s : State) (f : Awl → Awl) : (modAwl s f).mem = s.mem := rfl
@[simp] theorem modAwl_poison (s : State) (f : Awl → Awl) : (modAwl s f).poison = s.poison := rfl
@[simp] theorem modAwl_cores (s : State) (f : Awl → Awl) : (modAwl s f).cores = s.cores := rfl
@[simp] theorem modAwl_ms (s : State) (f : Awl → Awl) : (modAwl s f).ms = s.ms := rfl
@[simp] theorem modAwl_hbm (s : State) (f : Awl → Awl) : (modAwl s f).hbm = s.hbm := rfl
@[simp] theorem modAwl_xlt (s : State) (f : Awl → Awl) : (modAwl s f).xlt = s.xlt := rfl
@[simp] theorem modAwl_obj (s : State) (f : Awl → Awl) : (modAwl s f).obj = s.obj := rfl
@[simp] theorem modAwl_cmds (s : State) (f : Awl → Awl) : (modAwl s f).cmds = s.cmds := rfl
@[simp] theorem modAwl_nextCmd (s : State) (f : Awl → Awl) : (modAwl s f).nextCmd = s.nextCmd := rfl
@[simp] theorem modAwl_com (s : State) (f : Awl → Awl) : (modAwl s f).com = s.com := rfl
@[simp] theorem modAwl_sch (s : State) (f : Awl → Awl) : (modAwl s f).sch = s.sch := rfl
@[simp] theorem modAwl_srv (s : State) (f : Awl → Awl) : (modAwl s f).srv = s.srv := rfl
@[simp] theorem modAwl_err (s : State) (f : Awl → Awl) : (modAwl s f).err = s.err := rfl
@[simp] theorem modAwl_fab (s : State) (f : Awl → Awl) : (modAwl s f).fab = s.fab := rfl
@[simp] theorem modAwl_ftm (s : State) (f : Awl → Awl) : (modAwl s f).ftm = s.ftm := rfl
@[simp] theorem modAwl_bdl (s : State) (f : Awl → Awl) : (modAwl s f).bdl = s.bdl := rfl
@[simp] theorem modAwl_boot (s : State) (f : Awl → Awl) : (modAwl s f).boot = s.boot := rfl
@[simp] theorem modAwl_mon (s : State) (f : Awl → Awl) : (modAwl s f).mon = s.mon := rfl

end Sys2Proof.Machine
end

