-- ==== Sys2Proof/Laws/Ops.lean ====
section
/-! SUPPORT. The shared operations: for each, once, everything that it can change; and each field that it leaves alone. -/

namespace Sys2Proof.Machine

/-- Counting an event changes registers alone. -/
theorem pmcBump_changes (s : State) (page code k n : Nat) : ∃ x0, pmcBump s page code k n = { s with regs := x0 } := by
  induction n with
  | zero => exact ⟨s.regs, rfl⟩
  | succ n ih =>
    obtain ⟨r, h⟩ := ih
    simp only [pmcBump, h]
    split
    · split <;> exact ⟨_, rfl⟩
    · exact ⟨_, rfl⟩

@[simp] theorem pmcBump_pending (s : State) (page code k n : Nat) : (pmcBump s page code k n).pending = s.pending := by
  obtain ⟨_, h⟩ := pmcBump_changes s page code k n; rw [h]
@[simp] theorem pmcBump_now (s : State) (page code k n : Nat) : (pmcBump s page code k n).now = s.now := by
  obtain ⟨_, h⟩ := pmcBump_changes s page code k n; rw [h]
@[simp] theorem pmcBump_free (s : State) (page code k n : Nat) : (pmcBump s page code k n).free = s.free := by
  obtain ⟨_, h⟩ := pmcBump_changes s page code k n; rw [h]
@[simp] theorem pmcBump_out (s : State) (page code k n : Nat) : (pmcBump s page code k n).out = s.out := by
  obtain ⟨_, h⟩ := pmcBump_changes s page code k n; rw [h]
@[simp] theorem pmcBump_staged (s : State) (page code k n : Nat) : (pmcBump s page code k n).staged = s.staged := by
  obtain ⟨_, h⟩ := pmcBump_changes s page code k n; rw [h]
@[simp] theorem pmcBump_applying (s : State) (page code k n : Nat) : (pmcBump s page code k n).applying = s.applying := by
  obtain ⟨_, h⟩ := pmcBump_changes s page code k n; rw [h]
@[simp] theorem pmcBump_mem (s : State) (page code k n : Nat) : (pmcBump s page code k n).mem = s.mem := by
  obtain ⟨_, h⟩ := pmcBump_changes s page code k n; rw [h]
@[simp] theorem pmcBump_poison (s : State) (page code k n : Nat) : (pmcBump s page code k n).poison = s.poison := by
  obtain ⟨_, h⟩ := pmcBump_changes s page code k n; rw [h]
@[simp] theorem pmcBump_cores (s : State) (page code k n : Nat) : (pmcBump s page code k n).cores = s.cores := by
  obtain ⟨_, h⟩ := pmcBump_changes s page code k n; rw [h]
@[simp] theorem pmcBump_ms (s : State) (page code k n : Nat) : (pmcBump s page code k n).ms = s.ms := by
  obtain ⟨_, h⟩ := pmcBump_changes s page code k n; rw [h]
@[simp] theorem pmcBump_hbm (s : State) (page code k n : Nat) : (pmcBump s page code k n).hbm = s.hbm := by
  obtain ⟨_, h⟩ := pmcBump_changes s page code k n; rw [h]
@[simp] theorem pmcBump_xlt (s : State) (page code k n : Nat) : (pmcBump s page code k n).xlt = s.xlt := by
  obtain ⟨_, h⟩ := pmcBump_changes s page code k n; rw [h]
@[simp] theorem pmcBump_obj (s : State) (page code k n : Nat) : (pmcBump s page code k n).obj = s.obj := by
  obtain ⟨_, h⟩ := pmcBump_changes s page code k n; rw [h]
@[simp] theorem pmcBump_cmds (s : State) (page code k n : Nat) : (pmcBump s page code k n).cmds = s.cmds := by
  obtain ⟨_, h⟩ := pmcBump_changes s page code k n; rw [h]
@[simp] theorem pmcBump_nextCmd (s : State) (page code k n : Nat) : (pmcBump s page code k n).nextCmd = s.nextCmd := by
  obtain ⟨_, h⟩ := pmcBump_changes s page code k n; rw [h]
@[simp] theorem pmcBump_com (s : State) (page code k n : Nat) : (pmcBump s page code k n).com = s.com := by
  obtain ⟨_, h⟩ := pmcBump_changes s page code k n; rw [h]
@[simp] theorem pmcBump_sch (s : State) (page code k n : Nat) : (pmcBump s page code k n).sch = s.sch := by
  obtain ⟨_, h⟩ := pmcBump_changes s page code k n; rw [h]
@[simp] theorem pmcBump_srv (s : State) (page code k n : Nat) : (pmcBump s page code k n).srv = s.srv := by
  obtain ⟨_, h⟩ := pmcBump_changes s page code k n; rw [h]
@[simp] theorem pmcBump_err (s : State) (page code k n : Nat) : (pmcBump s page code k n).err = s.err := by
  obtain ⟨_, h⟩ := pmcBump_changes s page code k n; rw [h]
@[simp] theorem pmcBump_fab (s : State) (page code k n : Nat) : (pmcBump s page code k n).fab = s.fab := by
  obtain ⟨_, h⟩ := pmcBump_changes s page code k n; rw [h]
@[simp] theorem pmcBump_ftm (s : State) (page code k n : Nat) : (pmcBump s page code k n).ftm = s.ftm := by
  obtain ⟨_, h⟩ := pmcBump_changes s page code k n; rw [h]
@[simp] theorem pmcBump_bdl (s : State) (page code k n : Nat) : (pmcBump s page code k n).bdl = s.bdl := by
  obtain ⟨_, h⟩ := pmcBump_changes s page code k n; rw [h]
@[simp] theorem pmcBump_boot (s : State) (page code k n : Nat) : (pmcBump s page code k n).boot = s.boot := by
  obtain ⟨_, h⟩ := pmcBump_changes s page code k n; rw [h]
@[simp] theorem pmcBump_mon (s : State) (page code k n : Nat) : (pmcBump s page code k n).mon = s.mon := by
  obtain ⟨_, h⟩ := pmcBump_changes s page code k n; rw [h]
@[simp] theorem pmcBump_awl (s : State) (page code k n : Nat) : (pmcBump s page code k n).awl = s.awl := by
  obtain ⟨_, h⟩ := pmcBump_changes s page code k n; rw [h]

/-- An event counted changes registers alone (R660). -/
theorem pmcEvent_changes (s : State) (page code k : Nat) (ctx : Option Nat) : ∃ x0, pmcEvent s page code k ctx = { s with regs := x0 } := by
  unfold pmcEvent
  dsimp only
  split
  · exact ⟨s.regs, rfl⟩
  · split
    · exact ⟨s.regs, rfl⟩
    · exact pmcBump_changes s page code k 8

@[simp] theorem pmcEvent_pending (s : State) (page code k : Nat) (ctx : Option Nat) : (pmcEvent s page code k ctx).pending = s.pending := by
  obtain ⟨_, h⟩ := pmcEvent_changes s page code k ctx; rw [h]
@[simp] theorem pmcEvent_now (s : State) (page code k : Nat) (ctx : Option Nat) : (pmcEvent s page code k ctx).now = s.now := by
  obtain ⟨_, h⟩ := pmcEvent_changes s page code k ctx; rw [h]
@[simp] theorem pmcEvent_free (s : State) (page code k : Nat) (ctx : Option Nat) : (pmcEvent s page code k ctx).free = s.free := by
  obtain ⟨_, h⟩ := pmcEvent_changes s page code k ctx; rw [h]
@[simp] theorem pmcEvent_out (s : State) (page code k : Nat) (ctx : Option Nat) : (pmcEvent s page code k ctx).out = s.out := by
  obtain ⟨_, h⟩ := pmcEvent_changes s page code k ctx; rw [h]
@[simp] theorem pmcEvent_staged (s : State) (page code k : Nat) (ctx : Option Nat) : (pmcEvent s page code k ctx).staged = s.staged := by
  obtain ⟨_, h⟩ := pmcEvent_changes s page code k ctx; rw [h]
@[simp] theorem pmcEvent_applying (s : State) (page code k : Nat) (ctx : Option Nat) : (pmcEvent s page code k ctx).applying = s.applying := by
  obtain ⟨_, h⟩ := pmcEvent_changes s page code k ctx; rw [h]
@[simp] theorem pmcEvent_mem (s : State) (page code k : Nat) (ctx : Option Nat) : (pmcEvent s page code k ctx).mem = s.mem := by
  obtain ⟨_, h⟩ := pmcEvent_changes s page code k ctx; rw [h]
@[simp] theorem pmcEvent_poison (s : State) (page code k : Nat) (ctx : Option Nat) : (pmcEvent s page code k ctx).poison = s.poison := by
  obtain ⟨_, h⟩ := pmcEvent_changes s page code k ctx; rw [h]
@[simp] theorem pmcEvent_cores (s : State) (page code k : Nat) (ctx : Option Nat) : (pmcEvent s page code k ctx).cores = s.cores := by
  obtain ⟨_, h⟩ := pmcEvent_changes s page code k ctx; rw [h]
@[simp] theorem pmcEvent_ms (s : State) (page code k : Nat) (ctx : Option Nat) : (pmcEvent s page code k ctx).ms = s.ms := by
  obtain ⟨_, h⟩ := pmcEvent_changes s page code k ctx; rw [h]
@[simp] theorem pmcEvent_hbm (s : State) (page code k : Nat) (ctx : Option Nat) : (pmcEvent s page code k ctx).hbm = s.hbm := by
  obtain ⟨_, h⟩ := pmcEvent_changes s page code k ctx; rw [h]
@[simp] theorem pmcEvent_xlt (s : State) (page code k : Nat) (ctx : Option Nat) : (pmcEvent s page code k ctx).xlt = s.xlt := by
  obtain ⟨_, h⟩ := pmcEvent_changes s page code k ctx; rw [h]
@[simp] theorem pmcEvent_obj (s : State) (page code k : Nat) (ctx : Option Nat) : (pmcEvent s page code k ctx).obj = s.obj := by
  obtain ⟨_, h⟩ := pmcEvent_changes s page code k ctx; rw [h]
@[simp] theorem pmcEvent_cmds (s : State) (page code k : Nat) (ctx : Option Nat) : (pmcEvent s page code k ctx).cmds = s.cmds := by
  obtain ⟨_, h⟩ := pmcEvent_changes s page code k ctx; rw [h]
@[simp] theorem pmcEvent_nextCmd (s : State) (page code k : Nat) (ctx : Option Nat) : (pmcEvent s page code k ctx).nextCmd = s.nextCmd := by
  obtain ⟨_, h⟩ := pmcEvent_changes s page code k ctx; rw [h]
@[simp] theorem pmcEvent_com (s : State) (page code k : Nat) (ctx : Option Nat) : (pmcEvent s page code k ctx).com = s.com := by
  obtain ⟨_, h⟩ := pmcEvent_changes s page code k ctx; rw [h]
@[simp] theorem pmcEvent_sch (s : State) (page code k : Nat) (ctx : Option Nat) : (pmcEvent s page code k ctx).sch = s.sch := by
  obtain ⟨_, h⟩ := pmcEvent_changes s page code k ctx; rw [h]
@[simp] theorem pmcEvent_srv (s : State) (page code k : Nat) (ctx : Option Nat) : (pmcEvent s page code k ctx).srv = s.srv := by
  obtain ⟨_, h⟩ := pmcEvent_changes s page code k ctx; rw [h]
@[simp] theorem pmcEvent_err (s : State) (page code k : Nat) (ctx : Option Nat) : (pmcEvent s page code k ctx).err = s.err := by
  obtain ⟨_, h⟩ := pmcEvent_changes s page code k ctx; rw [h]
@[simp] theorem pmcEvent_fab (s : State) (page code k : Nat) (ctx : Option Nat) : (pmcEvent s page code k ctx).fab = s.fab := by
  obtain ⟨_, h⟩ := pmcEvent_changes s page code k ctx; rw [h]
@[simp] theorem pmcEvent_ftm (s : State) (page code k : Nat) (ctx : Option Nat) : (pmcEvent s page code k ctx).ftm = s.ftm := by
  obtain ⟨_, h⟩ := pmcEvent_changes s page code k ctx; rw [h]
@[simp] theorem pmcEvent_bdl (s : State) (page code k : Nat) (ctx : Option Nat) : (pmcEvent s page code k ctx).bdl = s.bdl := by
  obtain ⟨_, h⟩ := pmcEvent_changes s page code k ctx; rw [h]
@[simp] theorem pmcEvent_boot (s : State) (page code k : Nat) (ctx : Option Nat) : (pmcEvent s page code k ctx).boot = s.boot := by
  obtain ⟨_, h⟩ := pmcEvent_changes s page code k ctx; rw [h]
@[simp] theorem pmcEvent_mon (s : State) (page code k : Nat) (ctx : Option Nat) : (pmcEvent s page code k ctx).mon = s.mon := by
  obtain ⟨_, h⟩ := pmcEvent_changes s page code k ctx; rw [h]
@[simp] theorem pmcEvent_awl (s : State) (page code k : Nat) (ctx : Option Nat) : (pmcEvent s page code k ctx).awl = s.awl := by
  obtain ⟨_, h⟩ := pmcEvent_changes s page code k ctx; rw [h]

/-- An error of a page changes registers alone (R464). -/
theorem pgErr_changes (s : State) (page code : Nat) : ∃ x0, pgErr s page code = { s with regs := x0 } := by
  unfold pgErr
  dsimp only
  obtain ⟨r, h⟩ := pmcEvent_changes (if 2 ^ 31 ≤ rawReg (setRaw s (hPgErrcnt page) (satInc (rawReg s (hPgErrcnt page) 0) 1)) (hPgErr page) 0
    then setRaw s (hPgErrcnt page) (satInc (rawReg s (hPgErrcnt page) 0) 1)
    else setRaw (setRaw s (hPgErrcnt page) (satInc (rawReg s (hPgErrcnt page) 0) 1)) (hPgErr page) (2 ^ 31 + code)) page 0x0003 1 none
  refine ⟨r, h.trans ?_⟩
  split <;> rfl

@[simp] theorem pgErr_pending (s : State) (page code : Nat) : (pgErr s page code).pending = s.pending := by
  obtain ⟨_, h⟩ := pgErr_changes s page code; rw [h]
@[simp] theorem pgErr_now (s : State) (page code : Nat) : (pgErr s page code).now = s.now := by
  obtain ⟨_, h⟩ := pgErr_changes s page code; rw [h]
@[simp] theorem pgErr_free (s : State) (page code : Nat) : (pgErr s page code).free = s.free := by
  obtain ⟨_, h⟩ := pgErr_changes s page code; rw [h]
@[simp] theorem pgErr_out (s : State) (page code : Nat) : (pgErr s page code).out = s.out := by
  obtain ⟨_, h⟩ := pgErr_changes s page code; rw [h]
@[simp] theorem pgErr_staged (s : State) (page code : Nat) : (pgErr s page code).staged = s.staged := by
  obtain ⟨_, h⟩ := pgErr_changes s page code; rw [h]
@[simp] theorem pgErr_applying (s : State) (page code : Nat) : (pgErr s page code).applying = s.applying := by
  obtain ⟨_, h⟩ := pgErr_changes s page code; rw [h]
@[simp] theorem pgErr_mem (s : State) (page code : Nat) : (pgErr s page code).mem = s.mem := by
  obtain ⟨_, h⟩ := pgErr_changes s page code; rw [h]
@[simp] theorem pgErr_poison (s : State) (page code : Nat) : (pgErr s page code).poison = s.poison := by
  obtain ⟨_, h⟩ := pgErr_changes s page code; rw [h]
@[simp] theorem pgErr_cores (s : State) (page code : Nat) : (pgErr s page code).cores = s.cores := by
  obtain ⟨_, h⟩ := pgErr_changes s page code; rw [h]
@[simp] theorem pgErr_ms (s : State) (page code : Nat) : (pgErr s page code).ms = s.ms := by
  obtain ⟨_, h⟩ := pgErr_changes s page code; rw [h]
@[simp] theorem pgErr_hbm (s : State) (page code : Nat) : (pgErr s page code).hbm = s.hbm := by
  obtain ⟨_, h⟩ := pgErr_changes s page code; rw [h]
@[simp] theorem pgErr_xlt (s : State) (page code : Nat) : (pgErr s page code).xlt = s.xlt := by
  obtain ⟨_, h⟩ := pgErr_changes s page code; rw [h]
@[simp] theorem pgErr_obj (s : State) (page code : Nat) : (pgErr s page code).obj = s.obj := by
  obtain ⟨_, h⟩ := pgErr_changes s page code; rw [h]
@[simp] theorem pgErr_cmds (s : State) (page code : Nat) : (pgErr s page code).cmds = s.cmds := by
  obtain ⟨_, h⟩ := pgErr_changes s page code; rw [h]
@[simp] theorem pgErr_nextCmd (s : State) (page code : Nat) : (pgErr s page code).nextCmd = s.nextCmd := by
  obtain ⟨_, h⟩ := pgErr_changes s page code; rw [h]
@[simp] theorem pgErr_com (s : State) (page code : Nat) : (pgErr s page code).com = s.com := by
  obtain ⟨_, h⟩ := pgErr_changes s page code; rw [h]
@[simp] theorem pgErr_sch (s : State) (page code : Nat) : (pgErr s page code).sch = s.sch := by
  obtain ⟨_, h⟩ := pgErr_changes s page code; rw [h]
@[simp] theorem pgErr_srv (s : State) (page code : Nat) : (pgErr s page code).srv = s.srv := by
  obtain ⟨_, h⟩ := pgErr_changes s page code; rw [h]
@[simp] theorem pgErr_err (s : State) (page code : Nat) : (pgErr s page code).err = s.err := by
  obtain ⟨_, h⟩ := pgErr_changes s page code; rw [h]
@[simp] theorem pgErr_fab (s : State) (page code : Nat) : (pgErr s page code).fab = s.fab := by
  obtain ⟨_, h⟩ := pgErr_changes s page code; rw [h]
@[simp] theorem pgErr_ftm (s : State) (page code : Nat) : (pgErr s page code).ftm = s.ftm := by
  obtain ⟨_, h⟩ := pgErr_changes s page code; rw [h]
@[simp] theorem pgErr_bdl (s : State) (page code : Nat) : (pgErr s page code).bdl = s.bdl := by
  obtain ⟨_, h⟩ := pgErr_changes s page code; rw [h]
@[simp] theorem pgErr_boot (s : State) (page code : Nat) : (pgErr s page code).boot = s.boot := by
  obtain ⟨_, h⟩ := pgErr_changes s page code; rw [h]
@[simp] theorem pgErr_mon (s : State) (page code : Nat) : (pgErr s page code).mon = s.mon := by
  obtain ⟨_, h⟩ := pgErr_changes s page code; rw [h]
@[simp] theorem pgErr_awl (s : State) (page code : Nat) : (pgErr s page code).awl = s.awl := by
  obtain ⟨_, h⟩ := pgErr_changes s page code; rw [h]

/-- An error of the host port changes registers alone (R478). -/
theorem hptLog_changes (s : State) (tenant code : Nat) : ∃ x0, hptLog s tenant code = { s with regs := x0 } := by
  unfold hptLog
  dsimp only
  obtain ⟨r, h⟩ := pgErr_changes s pgHPT code
  rw [h]
  split <;> exact ⟨_, rfl⟩

@[simp] theorem hptLog_pending (s : State) (tenant code : Nat) : (hptLog s tenant code).pending = s.pending := by
  obtain ⟨_, h⟩ := hptLog_changes s tenant code; rw [h]
@[simp] theorem hptLog_now (s : State) (tenant code : Nat) : (hptLog s tenant code).now = s.now := by
  obtain ⟨_, h⟩ := hptLog_changes s tenant code; rw [h]
@[simp] theorem hptLog_free (s : State) (tenant code : Nat) : (hptLog s tenant code).free = s.free := by
  obtain ⟨_, h⟩ := hptLog_changes s tenant code; rw [h]
@[simp] theorem hptLog_out (s : State) (tenant code : Nat) : (hptLog s tenant code).out = s.out := by
  obtain ⟨_, h⟩ := hptLog_changes s tenant code; rw [h]
@[simp] theorem hptLog_staged (s : State) (tenant code : Nat) : (hptLog s tenant code).staged = s.staged := by
  obtain ⟨_, h⟩ := hptLog_changes s tenant code; rw [h]
@[simp] theorem hptLog_applying (s : State) (tenant code : Nat) : (hptLog s tenant code).applying = s.applying := by
  obtain ⟨_, h⟩ := hptLog_changes s tenant code; rw [h]
@[simp] theorem hptLog_mem (s : State) (tenant code : Nat) : (hptLog s tenant code).mem = s.mem := by
  obtain ⟨_, h⟩ := hptLog_changes s tenant code; rw [h]
@[simp] theorem hptLog_poison (s : State) (tenant code : Nat) : (hptLog s tenant code).poison = s.poison := by
  obtain ⟨_, h⟩ := hptLog_changes s tenant code; rw [h]
@[simp] theorem hptLog_cores (s : State) (tenant code : Nat) : (hptLog s tenant code).cores = s.cores := by
  obtain ⟨_, h⟩ := hptLog_changes s tenant code; rw [h]
@[simp] theorem hptLog_ms (s : State) (tenant code : Nat) : (hptLog s tenant code).ms = s.ms := by
  obtain ⟨_, h⟩ := hptLog_changes s tenant code; rw [h]
@[simp] theorem hptLog_hbm (s : State) (tenant code : Nat) : (hptLog s tenant code).hbm = s.hbm := by
  obtain ⟨_, h⟩ := hptLog_changes s tenant code; rw [h]
@[simp] theorem hptLog_xlt (s : State) (tenant code : Nat) : (hptLog s tenant code).xlt = s.xlt := by
  obtain ⟨_, h⟩ := hptLog_changes s tenant code; rw [h]
@[simp] theorem hptLog_obj (s : State) (tenant code : Nat) : (hptLog s tenant code).obj = s.obj := by
  obtain ⟨_, h⟩ := hptLog_changes s tenant code; rw [h]
@[simp] theorem hptLog_cmds (s : State) (tenant code : Nat) : (hptLog s tenant code).cmds = s.cmds := by
  obtain ⟨_, h⟩ := hptLog_changes s tenant code; rw [h]
@[simp] theorem hptLog_nextCmd (s : State) (tenant code : Nat) : (hptLog s tenant code).nextCmd = s.nextCmd := by
  obtain ⟨_, h⟩ := hptLog_changes s tenant code; rw [h]
@[simp] theorem hptLog_com (s : State) (tenant code : Nat) : (hptLog s tenant code).com = s.com := by
  obtain ⟨_, h⟩ := hptLog_changes s tenant code; rw [h]
@[simp] theorem hptLog_sch (s : State) (tenant code : Nat) : (hptLog s tenant code).sch = s.sch := by
  obtain ⟨_, h⟩ := hptLog_changes s tenant code; rw [h]
@[simp] theorem hptLog_srv (s : State) (tenant code : Nat) : (hptLog s tenant code).srv = s.srv := by
  obtain ⟨_, h⟩ := hptLog_changes s tenant code; rw [h]
@[simp] theorem hptLog_err (s : State) (tenant code : Nat) : (hptLog s tenant code).err = s.err := by
  obtain ⟨_, h⟩ := hptLog_changes s tenant code; rw [h]
@[simp] theorem hptLog_fab (s : State) (tenant code : Nat) : (hptLog s tenant code).fab = s.fab := by
  obtain ⟨_, h⟩ := hptLog_changes s tenant code; rw [h]
@[simp] theorem hptLog_ftm (s : State) (tenant code : Nat) : (hptLog s tenant code).ftm = s.ftm := by
  obtain ⟨_, h⟩ := hptLog_changes s tenant code; rw [h]
@[simp] theorem hptLog_bdl (s : State) (tenant code : Nat) : (hptLog s tenant code).bdl = s.bdl := by
  obtain ⟨_, h⟩ := hptLog_changes s tenant code; rw [h]
@[simp] theorem hptLog_boot (s : State) (tenant code : Nat) : (hptLog s tenant code).boot = s.boot := by
  obtain ⟨_, h⟩ := hptLog_changes s tenant code; rw [h]
@[simp] theorem hptLog_mon (s : State) (tenant code : Nat) : (hptLog s tenant code).mon = s.mon := by
  obtain ⟨_, h⟩ := hptLog_changes s tenant code; rw [h]
@[simp] theorem hptLog_awl (s : State) (tenant code : Nat) : (hptLog s tenant code).awl = s.awl := by
  obtain ⟨_, h⟩ := hptLog_changes s tenant code; rw [h]

/-- An entry written changes registers, the ring and what goes to the host alone (R607, R608). -/
theorem errWrite_changes (s : State) (e : ErrEntry) : ∃ x0 x1 x2 x3, errWrite s e = { s with out := x0, regs := x1, obj := x2, err := x3 } := by
  unfold errWrite
  dsimp only
  split
  · obtain ⟨r, h⟩ := pmcEvent_changes (incReg s Reg.errDropped 0) pgERR 0x0101 1 none
    exact ⟨_, r, _, _, h⟩
  · split
    · exact ⟨_, _, _, _, rfl⟩
    · split
      · obtain ⟨r, h⟩ := pmcEvent_changes (setReg { s with err := { s.err with
          ring := { e with seq := reg s Reg.errTail } :: s.err.ring.filter fun x => x.seq % 256 != reg s Reg.errTail % 256 } }
          Reg.errTail 0 (reg s Reg.errTail + 1)) pgERR 0x0100 1 none
        exact ⟨_, r, _, _, h⟩
      · have key (u : State) (a : Nat) (d : List Byte) (n : Nat) : ∃ o r x,
            pmcEvent (setReg (hostWrite u 0 a d .other) Reg.errTail 0 n) pgERR 0x0100 1 none =
              { u with out := o, regs := r, obj := x } := by
          obtain ⟨o, x, hw⟩ := hostWrite_changes u 0 a d .other
          obtain ⟨r, h⟩ := pmcEvent_changes (setReg (hostWrite u 0 a d .other) Reg.errTail 0 n) pgERR 0x0100 1 none
          rw [h, hw]
          exact ⟨_, _, _, rfl⟩
        obtain ⟨o, r, x, h⟩ := key _ _ _ _
        exact ⟨o, r, x, _, h⟩

@[simp] theorem errWrite_pending (s : State) (e : ErrEntry) : (errWrite s e).pending = s.pending := by
  obtain ⟨_, _, _, _, h⟩ := errWrite_changes s e; rw [h]
@[simp] theorem errWrite_now (s : State) (e : ErrEntry) : (errWrite s e).now = s.now := by
  obtain ⟨_, _, _, _, h⟩ := errWrite_changes s e; rw [h]
@[simp] theorem errWrite_free (s : State) (e : ErrEntry) : (errWrite s e).free = s.free := by
  obtain ⟨_, _, _, _, h⟩ := errWrite_changes s e; rw [h]
@[simp] theorem errWrite_staged (s : State) (e : ErrEntry) : (errWrite s e).staged = s.staged := by
  obtain ⟨_, _, _, _, h⟩ := errWrite_changes s e; rw [h]
@[simp] theorem errWrite_applying (s : State) (e : ErrEntry) : (errWrite s e).applying = s.applying := by
  obtain ⟨_, _, _, _, h⟩ := errWrite_changes s e; rw [h]
@[simp] theorem errWrite_mem (s : State) (e : ErrEntry) : (errWrite s e).mem = s.mem := by
  obtain ⟨_, _, _, _, h⟩ := errWrite_changes s e; rw [h]
@[simp] theorem errWrite_poison (s : State) (e : ErrEntry) : (errWrite s e).poison = s.poison := by
  obtain ⟨_, _, _, _, h⟩ := errWrite_changes s e; rw [h]
@[simp] theorem errWrite_cores (s : State) (e : ErrEntry) : (errWrite s e).cores = s.cores := by
  obtain ⟨_, _, _, _, h⟩ := errWrite_changes s e; rw [h]
@[simp] theorem errWrite_ms (s : State) (e : ErrEntry) : (errWrite s e).ms = s.ms := by
  obtain ⟨_, _, _, _, h⟩ := errWrite_changes s e; rw [h]
@[simp] theorem errWrite_hbm (s : State) (e : ErrEntry) : (errWrite s e).hbm = s.hbm := by
  obtain ⟨_, _, _, _, h⟩ := errWrite_changes s e; rw [h]
@[simp] theorem errWrite_xlt (s : State) (e : ErrEntry) : (errWrite s e).xlt = s.xlt := by
  obtain ⟨_, _, _, _, h⟩ := errWrite_changes s e; rw [h]
@[simp] theorem errWrite_cmds (s : State) (e : ErrEntry) : (errWrite s e).cmds = s.cmds := by
  obtain ⟨_, _, _, _, h⟩ := errWrite_changes s e; rw [h]
@[simp] theorem errWrite_nextCmd (s : State) (e : ErrEntry) : (errWrite s e).nextCmd = s.nextCmd := by
  obtain ⟨_, _, _, _, h⟩ := errWrite_changes s e; rw [h]
@[simp] theorem errWrite_com (s : State) (e : ErrEntry) : (errWrite s e).com = s.com := by
  obtain ⟨_, _, _, _, h⟩ := errWrite_changes s e; rw [h]
@[simp] theorem errWrite_sch (s : State) (e : ErrEntry) : (errWrite s e).sch = s.sch := by
  obtain ⟨_, _, _, _, h⟩ := errWrite_changes s e; rw [h]
@[simp] theorem errWrite_srv (s : State) (e : ErrEntry) : (errWrite s e).srv = s.srv := by
  obtain ⟨_, _, _, _, h⟩ := errWrite_changes s e; rw [h]
@[simp] theorem errWrite_fab (s : State) (e : ErrEntry) : (errWrite s e).fab = s.fab := by
  obtain ⟨_, _, _, _, h⟩ := errWrite_changes s e; rw [h]
@[simp] theorem errWrite_ftm (s : State) (e : ErrEntry) : (errWrite s e).ftm = s.ftm := by
  obtain ⟨_, _, _, _, h⟩ := errWrite_changes s e; rw [h]
@[simp] theorem errWrite_bdl (s : State) (e : ErrEntry) : (errWrite s e).bdl = s.bdl := by
  obtain ⟨_, _, _, _, h⟩ := errWrite_changes s e; rw [h]
@[simp] theorem errWrite_boot (s : State) (e : ErrEntry) : (errWrite s e).boot = s.boot := by
  obtain ⟨_, _, _, _, h⟩ := errWrite_changes s e; rw [h]
@[simp] theorem errWrite_mon (s : State) (e : ErrEntry) : (errWrite s e).mon = s.mon := by
  obtain ⟨_, _, _, _, h⟩ := errWrite_changes s e; rw [h]
@[simp] theorem errWrite_awl (s : State) (e : ErrEntry) : (errWrite s e).awl = s.awl := by
  obtain ⟨_, _, _, _, h⟩ := errWrite_changes s e; rw [h]

/-- A logged-only entry. -/
theorem logOnly_changes (s : State) (code page : Nat) : ∃ x0 x1 x2 x3, logOnly s code page = { s with out := x0, regs := x1, obj := x2, err := x3 } :=
  errWrite_changes s _

@[simp] theorem logOnly_pending (s : State) (code page : Nat) : (logOnly s code page).pending = s.pending := by
  obtain ⟨_, _, _, _, h⟩ := logOnly_changes s code page; rw [h]
@[simp] theorem logOnly_now (s : State) (code page : Nat) : (logOnly s code page).now = s.now := by
  obtain ⟨_, _, _, _, h⟩ := logOnly_changes s code page; rw [h]
@[simp] theorem logOnly_free (s : State) (code page : Nat) : (logOnly s code page).free = s.free := by
  obtain ⟨_, _, _, _, h⟩ := logOnly_changes s code page; rw [h]
@[simp] theorem logOnly_staged (s : State) (code page : Nat) : (logOnly s code page).staged = s.staged := by
  obtain ⟨_, _, _, _, h⟩ := logOnly_changes s code page; rw [h]
@[simp] theorem logOnly_applying (s : State) (code page : Nat) : (logOnly s code page).applying = s.applying := by
  obtain ⟨_, _, _, _, h⟩ := logOnly_changes s code page; rw [h]
@[simp] theorem logOnly_mem (s : State) (code page : Nat) : (logOnly s code page).mem = s.mem := by
  obtain ⟨_, _, _, _, h⟩ := logOnly_changes s code page; rw [h]
@[simp] theorem logOnly_poison (s : State) (code page : Nat) : (logOnly s code page).poison = s.poison := by
  obtain ⟨_, _, _, _, h⟩ := logOnly_changes s code page; rw [h]
@[simp] theorem logOnly_cores (s : State) (code page : Nat) : (logOnly s code page).cores = s.cores := by
  obtain ⟨_, _, _, _, h⟩ := logOnly_changes s code page; rw [h]
@[simp] theorem logOnly_ms (s : State) (code page : Nat) : (logOnly s code page).ms = s.ms := by
  obtain ⟨_, _, _, _, h⟩ := logOnly_changes s code page; rw [h]
@[simp] theorem logOnly_hbm (s : State) (code page : Nat) : (logOnly s code page).hbm = s.hbm := by
  obtain ⟨_, _, _, _, h⟩ := logOnly_changes s code page; rw [h]
@[simp] theorem logOnly_xlt (s : State) (code page : Nat) : (logOnly s code page).xlt = s.xlt := by
  obtain ⟨_, _, _, _, h⟩ := logOnly_changes s code page; rw [h]
@[simp] theorem logOnly_cmds (s : State) (code page : Nat) : (logOnly s code page).cmds = s.cmds := by
  obtain ⟨_, _, _, _, h⟩ := logOnly_changes s code page; rw [h]
@[simp] theorem logOnly_nextCmd (s : State) (code page : Nat) : (logOnly s code page).nextCmd = s.nextCmd := by
  obtain ⟨_, _, _, _, h⟩ := logOnly_changes s code page; rw [h]
@[simp] theorem logOnly_com (s : State) (code page : Nat) : (logOnly s code page).com = s.com := by
  obtain ⟨_, _, _, _, h⟩ := logOnly_changes s code page; rw [h]
@[simp] theorem logOnly_sch (s : State) (code page : Nat) : (logOnly s code page).sch = s.sch := by
  obtain ⟨_, _, _, _, h⟩ := logOnly_changes s code page; rw [h]
@[simp] theorem logOnly_srv (s : State) (code page : Nat) : (logOnly s code page).srv = s.srv := by
  obtain ⟨_, _, _, _, h⟩ := logOnly_changes s code page; rw [h]
@[simp] theorem logOnly_fab (s : State) (code page : Nat) : (logOnly s code page).fab = s.fab := by
  obtain ⟨_, _, _, _, h⟩ := logOnly_changes s code page; rw [h]
@[simp] theorem logOnly_ftm (s : State) (code page : Nat) : (logOnly s code page).ftm = s.ftm := by
  obtain ⟨_, _, _, _, h⟩ := logOnly_changes s code page; rw [h]
@[simp] theorem logOnly_bdl (s : State) (code page : Nat) : (logOnly s code page).bdl = s.bdl := by
  obtain ⟨_, _, _, _, h⟩ := logOnly_changes s code page; rw [h]
@[simp] theorem logOnly_boot (s : State) (code page : Nat) : (logOnly s code page).boot = s.boot := by
  obtain ⟨_, _, _, _, h⟩ := logOnly_changes s code page; rw [h]
@[simp] theorem logOnly_mon (s : State) (code page : Nat) : (logOnly s code page).mon = s.mon := by
  obtain ⟨_, _, _, _, h⟩ := logOnly_changes s code page; rw [h]
@[simp] theorem logOnly_awl (s : State) (code page : Nat) : (logOnly s code page).awl = s.awl := by
  obtain ⟨_, _, _, _, h⟩ := logOnly_changes s code page; rw [h]

/-- A logged-only entry about a peer. -/
theorem logPeer_changes (s : State) (code page node tag : Nat) : ∃ x0 x1 x2 x3, logPeer s code page node tag = { s with out := x0, regs := x1, obj := x2, err := x3 } :=
  errWrite_changes s _

@[simp] theorem logPeer_pending (s : State) (code page node tag : Nat) : (logPeer s code page node tag).pending = s.pending := by
  obtain ⟨_, _, _, _, h⟩ := logPeer_changes s code page node tag; rw [h]
@[simp] theorem logPeer_now (s : State) (code page node tag : Nat) : (logPeer s code page node tag).now = s.now := by
  obtain ⟨_, _, _, _, h⟩ := logPeer_changes s code page node tag; rw [h]
@[simp] theorem logPeer_free (s : State) (code page node tag : Nat) : (logPeer s code page node tag).free = s.free := by
  obtain ⟨_, _, _, _, h⟩ := logPeer_changes s code page node tag; rw [h]
@[simp] theorem logPeer_staged (s : State) (code page node tag : Nat) : (logPeer s code page node tag).staged = s.staged := by
  obtain ⟨_, _, _, _, h⟩ := logPeer_changes s code page node tag; rw [h]
@[simp] theorem logPeer_applying (s : State) (code page node tag : Nat) : (logPeer s code page node tag).applying = s.applying := by
  obtain ⟨_, _, _, _, h⟩ := logPeer_changes s code page node tag; rw [h]
@[simp] theorem logPeer_mem (s : State) (code page node tag : Nat) : (logPeer s code page node tag).mem = s.mem := by
  obtain ⟨_, _, _, _, h⟩ := logPeer_changes s code page node tag; rw [h]
@[simp] theorem logPeer_poison (s : State) (code page node tag : Nat) : (logPeer s code page node tag).poison = s.poison := by
  obtain ⟨_, _, _, _, h⟩ := logPeer_changes s code page node tag; rw [h]
@[simp] theorem logPeer_cores (s : State) (code page node tag : Nat) : (logPeer s code page node tag).cores = s.cores := by
  obtain ⟨_, _, _, _, h⟩ := logPeer_changes s code page node tag; rw [h]
@[simp] theorem logPeer_ms (s : State) (code page node tag : Nat) : (logPeer s code page node tag).ms = s.ms := by
  obtain ⟨_, _, _, _, h⟩ := logPeer_changes s code page node tag; rw [h]
@[simp] theorem logPeer_hbm (s : State) (code page node tag : Nat) : (logPeer s code page node tag).hbm = s.hbm := by
  obtain ⟨_, _, _, _, h⟩ := logPeer_changes s code page node tag; rw [h]
@[simp] theorem logPeer_xlt (s : State) (code page node tag : Nat) : (logPeer s code page node tag).xlt = s.xlt := by
  obtain ⟨_, _, _, _, h⟩ := logPeer_changes s code page node tag; rw [h]
@[simp] theorem logPeer_cmds (s : State) (code page node tag : Nat) : (logPeer s code page node tag).cmds = s.cmds := by
  obtain ⟨_, _, _, _, h⟩ := logPeer_changes s code page node tag; rw [h]
@[simp] theorem logPeer_nextCmd (s : State) (code page node tag : Nat) : (logPeer s code page node tag).nextCmd = s.nextCmd := by
  obtain ⟨_, _, _, _, h⟩ := logPeer_changes s code page node tag; rw [h]
@[simp] theorem logPeer_com (s : State) (code page node tag : Nat) : (logPeer s code page node tag).com = s.com := by
  obtain ⟨_, _, _, _, h⟩ := logPeer_changes s code page node tag; rw [h]
@[simp] theorem logPeer_sch (s : State) (code page node tag : Nat) : (logPeer s code page node tag).sch = s.sch := by
  obtain ⟨_, _, _, _, h⟩ := logPeer_changes s code page node tag; rw [h]
@[simp] theorem logPeer_srv (s : State) (code page node tag : Nat) : (logPeer s code page node tag).srv = s.srv := by
  obtain ⟨_, _, _, _, h⟩ := logPeer_changes s code page node tag; rw [h]
@[simp] theorem logPeer_fab (s : State) (code page node tag : Nat) : (logPeer s code page node tag).fab = s.fab := by
  obtain ⟨_, _, _, _, h⟩ := logPeer_changes s code page node tag; rw [h]
@[simp] theorem logPeer_ftm (s : State) (code page node tag : Nat) : (logPeer s code page node tag).ftm = s.ftm := by
  obtain ⟨_, _, _, _, h⟩ := logPeer_changes s code page node tag; rw [h]
@[simp] theorem logPeer_bdl (s : State) (code page node tag : Nat) : (logPeer s code page node tag).bdl = s.bdl := by
  obtain ⟨_, _, _, _, h⟩ := logPeer_changes s code page node tag; rw [h]
@[simp] theorem logPeer_boot (s : State) (code page node tag : Nat) : (logPeer s code page node tag).boot = s.boot := by
  obtain ⟨_, _, _, _, h⟩ := logPeer_changes s code page node tag; rw [h]
@[simp] theorem logPeer_mon (s : State) (code page node tag : Nat) : (logPeer s code page node tag).mon = s.mon := by
  obtain ⟨_, _, _, _, h⟩ := logPeer_changes s code page node tag; rw [h]
@[simp] theorem logPeer_awl (s : State) (code page node tag : Nat) : (logPeer s code page node tag).awl = s.awl := by
  obtain ⟨_, _, _, _, h⟩ := logPeer_changes s code page node tag; rw [h]

/-- The entry of a command that ended. -/
theorem logCmdNode_changes (s : State) (c : Cmd) (code page addr tag node : Nat) : ∃ x0 x1 x2 x3, logCmdNode s c code page addr tag node = { s with out := x0, regs := x1, obj := x2, err := x3 } :=
  errWrite_changes s _

@[simp] theorem logCmdNode_pending (s : State) (c : Cmd) (code page addr tag node : Nat) : (logCmdNode s c code page addr tag node).pending = s.pending := by
  obtain ⟨_, _, _, _, h⟩ := logCmdNode_changes s c code page addr tag node; rw [h]
@[simp] theorem logCmdNode_now (s : State) (c : Cmd) (code page addr tag node : Nat) : (logCmdNode s c code page addr tag node).now = s.now := by
  obtain ⟨_, _, _, _, h⟩ := logCmdNode_changes s c code page addr tag node; rw [h]
@[simp] theorem logCmdNode_free (s : State) (c : Cmd) (code page addr tag node : Nat) : (logCmdNode s c code page addr tag node).free = s.free := by
  obtain ⟨_, _, _, _, h⟩ := logCmdNode_changes s c code page addr tag node; rw [h]
@[simp] theorem logCmdNode_staged (s : State) (c : Cmd) (code page addr tag node : Nat) : (logCmdNode s c code page addr tag node).staged = s.staged := by
  obtain ⟨_, _, _, _, h⟩ := logCmdNode_changes s c code page addr tag node; rw [h]
@[simp] theorem logCmdNode_applying (s : State) (c : Cmd) (code page addr tag node : Nat) : (logCmdNode s c code page addr tag node).applying = s.applying := by
  obtain ⟨_, _, _, _, h⟩ := logCmdNode_changes s c code page addr tag node; rw [h]
@[simp] theorem logCmdNode_mem (s : State) (c : Cmd) (code page addr tag node : Nat) : (logCmdNode s c code page addr tag node).mem = s.mem := by
  obtain ⟨_, _, _, _, h⟩ := logCmdNode_changes s c code page addr tag node; rw [h]
@[simp] theorem logCmdNode_poison (s : State) (c : Cmd) (code page addr tag node : Nat) : (logCmdNode s c code page addr tag node).poison = s.poison := by
  obtain ⟨_, _, _, _, h⟩ := logCmdNode_changes s c code page addr tag node; rw [h]
@[simp] theorem logCmdNode_cores (s : State) (c : Cmd) (code page addr tag node : Nat) : (logCmdNode s c code page addr tag node).cores = s.cores := by
  obtain ⟨_, _, _, _, h⟩ := logCmdNode_changes s c code page addr tag node; rw [h]
@[simp] theorem logCmdNode_ms (s : State) (c : Cmd) (code page addr tag node : Nat) : (logCmdNode s c code page addr tag node).ms = s.ms := by
  obtain ⟨_, _, _, _, h⟩ := logCmdNode_changes s c code page addr tag node; rw [h]
@[simp] theorem logCmdNode_hbm (s : State) (c : Cmd) (code page addr tag node : Nat) : (logCmdNode s c code page addr tag node).hbm = s.hbm := by
  obtain ⟨_, _, _, _, h⟩ := logCmdNode_changes s c code page addr tag node; rw [h]
@[simp] theorem logCmdNode_xlt (s : State) (c : Cmd) (code page addr tag node : Nat) : (logCmdNode s c code page addr tag node).xlt = s.xlt := by
  obtain ⟨_, _, _, _, h⟩ := logCmdNode_changes s c code page addr tag node; rw [h]
@[simp] theorem logCmdNode_cmds (s : State) (c : Cmd) (code page addr tag node : Nat) : (logCmdNode s c code page addr tag node).cmds = s.cmds := by
  obtain ⟨_, _, _, _, h⟩ := logCmdNode_changes s c code page addr tag node; rw [h]
@[simp] theorem logCmdNode_nextCmd (s : State) (c : Cmd) (code page addr tag node : Nat) : (logCmdNode s c code page addr tag node).nextCmd = s.nextCmd := by
  obtain ⟨_, _, _, _, h⟩ := logCmdNode_changes s c code page addr tag node; rw [h]
@[simp] theorem logCmdNode_com (s : State) (c : Cmd) (code page addr tag node : Nat) : (logCmdNode s c code page addr tag node).com = s.com := by
  obtain ⟨_, _, _, _, h⟩ := logCmdNode_changes s c code page addr tag node; rw [h]
@[simp] theorem logCmdNode_sch (s : State) (c : Cmd) (code page addr tag node : Nat) : (logCmdNode s c code page addr tag node).sch = s.sch := by
  obtain ⟨_, _, _, _, h⟩ := logCmdNode_changes s c code page addr tag node; rw [h]
@[simp] theorem logCmdNode_srv (s : State) (c : Cmd) (code page addr tag node : Nat) : (logCmdNode s c code page addr tag node).srv = s.srv := by
  obtain ⟨_, _, _, _, h⟩ := logCmdNode_changes s c code page addr tag node; rw [h]
@[simp] theorem logCmdNode_fab (s : State) (c : Cmd) (code page addr tag node : Nat) : (logCmdNode s c code page addr tag node).fab = s.fab := by
  obtain ⟨_, _, _, _, h⟩ := logCmdNode_changes s c code page addr tag node; rw [h]
@[simp] theorem logCmdNode_ftm (s : State) (c : Cmd) (code page addr tag node : Nat) : (logCmdNode s c code page addr tag node).ftm = s.ftm := by
  obtain ⟨_, _, _, _, h⟩ := logCmdNode_changes s c code page addr tag node; rw [h]
@[simp] theorem logCmdNode_bdl (s : State) (c : Cmd) (code page addr tag node : Nat) : (logCmdNode s c code page addr tag node).bdl = s.bdl := by
  obtain ⟨_, _, _, _, h⟩ := logCmdNode_changes s c code page addr tag node; rw [h]
@[simp] theorem logCmdNode_boot (s : State) (c : Cmd) (code page addr tag node : Nat) : (logCmdNode s c code page addr tag node).boot = s.boot := by
  obtain ⟨_, _, _, _, h⟩ := logCmdNode_changes s c code page addr tag node; rw [h]
@[simp] theorem logCmdNode_mon (s : State) (c : Cmd) (code page addr tag node : Nat) : (logCmdNode s c code page addr tag node).mon = s.mon := by
  obtain ⟨_, _, _, _, h⟩ := logCmdNode_changes s c code page addr tag node; rw [h]
@[simp] theorem logCmdNode_awl (s : State) (c : Cmd) (code page addr tag node : Nat) : (logCmdNode s c code page addr tag node).awl = s.awl := by
  obtain ⟨_, _, _, _, h⟩ := logCmdNode_changes s c code page addr tag node; rw [h]

/-- The entry of a command that ended here. -/
theorem logCmdEnd_changes (s : State) (c : Cmd) (code page addr tag : Nat) : ∃ x0 x1 x2 x3, logCmdEnd s c code page addr tag = { s with out := x0, regs := x1, obj := x2, err := x3 } :=
  logCmdNode_changes s c code page addr tag (nodeId s)

@[simp] theorem logCmdEnd_pending (s : State) (c : Cmd) (code page addr tag : Nat) : (logCmdEnd s c code page addr tag).pending = s.pending := by
  obtain ⟨_, _, _, _, h⟩ := logCmdEnd_changes s c code page addr tag; rw [h]
@[simp] theorem logCmdEnd_now (s : State) (c : Cmd) (code page addr tag : Nat) : (logCmdEnd s c code page addr tag).now = s.now := by
  obtain ⟨_, _, _, _, h⟩ := logCmdEnd_changes s c code page addr tag; rw [h]
@[simp] theorem logCmdEnd_free (s : State) (c : Cmd) (code page addr tag : Nat) : (logCmdEnd s c code page addr tag).free = s.free := by
  obtain ⟨_, _, _, _, h⟩ := logCmdEnd_changes s c code page addr tag; rw [h]
@[simp] theorem logCmdEnd_staged (s : State) (c : Cmd) (code page addr tag : Nat) : (logCmdEnd s c code page addr tag).staged = s.staged := by
  obtain ⟨_, _, _, _, h⟩ := logCmdEnd_changes s c code page addr tag; rw [h]
@[simp] theorem logCmdEnd_applying (s : State) (c : Cmd) (code page addr tag : Nat) : (logCmdEnd s c code page addr tag).applying = s.applying := by
  obtain ⟨_, _, _, _, h⟩ := logCmdEnd_changes s c code page addr tag; rw [h]
@[simp] theorem logCmdEnd_mem (s : State) (c : Cmd) (code page addr tag : Nat) : (logCmdEnd s c code page addr tag).mem = s.mem := by
  obtain ⟨_, _, _, _, h⟩ := logCmdEnd_changes s c code page addr tag; rw [h]
@[simp] theorem logCmdEnd_poison (s : State) (c : Cmd) (code page addr tag : Nat) : (logCmdEnd s c code page addr tag).poison = s.poison := by
  obtain ⟨_, _, _, _, h⟩ := logCmdEnd_changes s c code page addr tag; rw [h]
@[simp] theorem logCmdEnd_cores (s : State) (c : Cmd) (code page addr tag : Nat) : (logCmdEnd s c code page addr tag).cores = s.cores := by
  obtain ⟨_, _, _, _, h⟩ := logCmdEnd_changes s c code page addr tag; rw [h]
@[simp] theorem logCmdEnd_ms (s : State) (c : Cmd) (code page addr tag : Nat) : (logCmdEnd s c code page addr tag).ms = s.ms := by
  obtain ⟨_, _, _, _, h⟩ := logCmdEnd_changes s c code page addr tag; rw [h]
@[simp] theorem logCmdEnd_hbm (s : State) (c : Cmd) (code page addr tag : Nat) : (logCmdEnd s c code page addr tag).hbm = s.hbm := by
  obtain ⟨_, _, _, _, h⟩ := logCmdEnd_changes s c code page addr tag; rw [h]
@[simp] theorem logCmdEnd_xlt (s : State) (c : Cmd) (code page addr tag : Nat) : (logCmdEnd s c code page addr tag).xlt = s.xlt := by
  obtain ⟨_, _, _, _, h⟩ := logCmdEnd_changes s c code page addr tag; rw [h]
@[simp] theorem logCmdEnd_cmds (s : State) (c : Cmd) (code page addr tag : Nat) : (logCmdEnd s c code page addr tag).cmds = s.cmds := by
  obtain ⟨_, _, _, _, h⟩ := logCmdEnd_changes s c code page addr tag; rw [h]
@[simp] theorem logCmdEnd_nextCmd (s : State) (c : Cmd) (code page addr tag : Nat) : (logCmdEnd s c code page addr tag).nextCmd = s.nextCmd := by
  obtain ⟨_, _, _, _, h⟩ := logCmdEnd_changes s c code page addr tag; rw [h]
@[simp] theorem logCmdEnd_com (s : State) (c : Cmd) (code page addr tag : Nat) : (logCmdEnd s c code page addr tag).com = s.com := by
  obtain ⟨_, _, _, _, h⟩ := logCmdEnd_changes s c code page addr tag; rw [h]
@[simp] theorem logCmdEnd_sch (s : State) (c : Cmd) (code page addr tag : Nat) : (logCmdEnd s c code page addr tag).sch = s.sch := by
  obtain ⟨_, _, _, _, h⟩ := logCmdEnd_changes s c code page addr tag; rw [h]
@[simp] theorem logCmdEnd_srv (s : State) (c : Cmd) (code page addr tag : Nat) : (logCmdEnd s c code page addr tag).srv = s.srv := by
  obtain ⟨_, _, _, _, h⟩ := logCmdEnd_changes s c code page addr tag; rw [h]
@[simp] theorem logCmdEnd_fab (s : State) (c : Cmd) (code page addr tag : Nat) : (logCmdEnd s c code page addr tag).fab = s.fab := by
  obtain ⟨_, _, _, _, h⟩ := logCmdEnd_changes s c code page addr tag; rw [h]
@[simp] theorem logCmdEnd_ftm (s : State) (c : Cmd) (code page addr tag : Nat) : (logCmdEnd s c code page addr tag).ftm = s.ftm := by
  obtain ⟨_, _, _, _, h⟩ := logCmdEnd_changes s c code page addr tag; rw [h]
@[simp] theorem logCmdEnd_bdl (s : State) (c : Cmd) (code page addr tag : Nat) : (logCmdEnd s c code page addr tag).bdl = s.bdl := by
  obtain ⟨_, _, _, _, h⟩ := logCmdEnd_changes s c code page addr tag; rw [h]
@[simp] theorem logCmdEnd_boot (s : State) (c : Cmd) (code page addr tag : Nat) : (logCmdEnd s c code page addr tag).boot = s.boot := by
  obtain ⟨_, _, _, _, h⟩ := logCmdEnd_changes s c code page addr tag; rw [h]
@[simp] theorem logCmdEnd_mon (s : State) (c : Cmd) (code page addr tag : Nat) : (logCmdEnd s c code page addr tag).mon = s.mon := by
  obtain ⟨_, _, _, _, h⟩ := logCmdEnd_changes s c code page addr tag; rw [h]
@[simp] theorem logCmdEnd_awl (s : State) (c : Cmd) (code page addr tag : Nat) : (logCmdEnd s c code page addr tag).awl = s.awl := by
  obtain ⟨_, _, _, _, h⟩ := logCmdEnd_changes s c code page addr tag; rw [h]

/-- An escalation (R611). -/
theorem escalate_changes (s : State) (d : Domain) (code : Nat) : ∃ x0 x1 x2 x3 x4, escalate s d code = { s with out := x0, regs := x1, obj := x2, err := x3, fab := x4 } := by
  have k : ∀ x : ErrEntry, ∃ o r b e, pmcEvent (errWrite s x) pgERR 0x0108 1 none =
      { s with out := o, regs := r, obj := b, err := e } := by
    intro x
    obtain ⟨o, r, b, e, h⟩ := errWrite_changes s x
    rw [h]
    obtain ⟨r', h'⟩ := pmcEvent_changes { s with out := o, regs := r, obj := b, err := e } pgERR 0x0108 1 none
    exact ⟨_, _, _, _, h'⟩
  unfold escalate
  dsimp only
  generalize he : pmcEvent (errWrite s _) pgERR 0x0108 1 none = t
  obtain ⟨o, r, b, e, h⟩ : ∃ o r b e, t = { s with out := o, regs := r, obj := b, err := e } := he ▸ k _
  clear he k
  subst h
  cases d with
  | port p =>
    dsimp only
    generalize hl : logOnly _ _ _ = u
    obtain ⟨o', r', b', e', h'⟩ := logOnly_changes
      { s with out := o, regs := r, obj := b, err := { e with active := none },
               fab := { s.fab with ports := mmod s.fab.ports p fun q => { q with link := .fault } } } Code.rcvPortDisabled (pgHNS p)
    exact ⟨_, _, _, _, _, hl ▸ h'⟩
  | core c => exact ⟨_, _, _, _, _, rfl⟩
  | channel a b => exact ⟨_, _, _, _, _, rfl⟩
  | hostPort => exact ⟨_, _, _, _, _, rfl⟩
  | cluster => exact ⟨_, _, _, _, _, rfl⟩
  | device => exact ⟨_, _, _, _, _, rfl⟩

@[simp] theorem escalate_pending (s : State) (d : Domain) (code : Nat) : (escalate s d code).pending = s.pending := by
  obtain ⟨_, _, _, _, _, h⟩ := escalate_changes s d code; rw [h]
@[simp] theorem escalate_now (s : State) (d : Domain) (code : Nat) : (escalate s d code).now = s.now := by
  obtain ⟨_, _, _, _, _, h⟩ := escalate_changes s d code; rw [h]
@[simp] theorem escalate_free (s : State) (d : Domain) (code : Nat) : (escalate s d code).free = s.free := by
  obtain ⟨_, _, _, _, _, h⟩ := escalate_changes s d code; rw [h]
@[simp] theorem escalate_staged (s : State) (d : Domain) (code : Nat) : (escalate s d code).staged = s.staged := by
  obtain ⟨_, _, _, _, _, h⟩ := escalate_changes s d code; rw [h]
@[simp] theorem escalate_applying (s : State) (d : Domain) (code : Nat) : (escalate s d code).applying = s.applying := by
  obtain ⟨_, _, _, _, _, h⟩ := escalate_changes s d code; rw [h]
@[simp] theorem escalate_mem (s : State) (d : Domain) (code : Nat) : (escalate s d code).mem = s.mem := by
  obtain ⟨_, _, _, _, _, h⟩ := escalate_changes s d code; rw [h]
@[simp] theorem escalate_poison (s : State) (d : Domain) (code : Nat) : (escalate s d code).poison = s.poison := by
  obtain ⟨_, _, _, _, _, h⟩ := escalate_changes s d code; rw [h]
@[simp] theorem escalate_cores (s : State) (d : Domain) (code : Nat) : (escalate s d code).cores = s.cores := by
  obtain ⟨_, _, _, _, _, h⟩ := escalate_changes s d code; rw [h]
@[simp] theorem escalate_ms (s : State) (d : Domain) (code : Nat) : (escalate s d code).ms = s.ms := by
  obtain ⟨_, _, _, _, _, h⟩ := escalate_changes s d code; rw [h]
@[simp] theorem escalate_hbm (s : State) (d : Domain) (code : Nat) : (escalate s d code).hbm = s.hbm := by
  obtain ⟨_, _, _, _, _, h⟩ := escalate_changes s d code; rw [h]
@[simp] theorem escalate_xlt (s : State) (d : Domain) (code : Nat) : (escalate s d code).xlt = s.xlt := by
  obtain ⟨_, _, _, _, _, h⟩ := escalate_changes s d code; rw [h]
@[simp] theorem escalate_cmds (s : State) (d : Domain) (code : Nat) : (escalate s d code).cmds = s.cmds := by
  obtain ⟨_, _, _, _, _, h⟩ := escalate_changes s d code; rw [h]
@[simp] theorem escalate_nextCmd (s : State) (d : Domain) (code : Nat) : (escalate s d code).nextCmd = s.nextCmd := by
  obtain ⟨_, _, _, _, _, h⟩ := escalate_changes s d code; rw [h]
@[simp] theorem escalate_com (s : State) (d : Domain) (code : Nat) : (escalate s d code).com = s.com := by
  obtain ⟨_, _, _, _, _, h⟩ := escalate_changes s d code; rw [h]
@[simp] theorem escalate_sch (s : State) (d : Domain) (code : Nat) : (escalate s d code).sch = s.sch := by
  obtain ⟨_, _, _, _, _, h⟩ := escalate_changes s d code; rw [h]
@[simp] theorem escalate_srv (s : State) (d : Domain) (code : Nat) : (escalate s d code).srv = s.srv := by
  obtain ⟨_, _, _, _, _, h⟩ := escalate_changes s d code; rw [h]
@[simp] theorem escalate_ftm (s : State) (d : Domain) (code : Nat) : (escalate s d code).ftm = s.ftm := by
  obtain ⟨_, _, _, _, _, h⟩ := escalate_changes s d code; rw [h]
@[simp] theorem escalate_bdl (s : State) (d : Domain) (code : Nat) : (escalate s d code).bdl = s.bdl := by
  obtain ⟨_, _, _, _, _, h⟩ := escalate_changes s d code; rw [h]
@[simp] theorem escalate_boot (s : State) (d : Domain) (code : Nat) : (escalate s d code).boot = s.boot := by
  obtain ⟨_, _, _, _, _, h⟩ := escalate_changes s d code; rw [h]
@[simp] theorem escalate_mon (s : State) (d : Domain) (code : Nat) : (escalate s d code).mon = s.mon := by
  obtain ⟨_, _, _, _, _, h⟩ := escalate_changes s d code; rw [h]
@[simp] theorem escalate_awl (s : State) (d : Domain) (code : Nat) : (escalate s d code).awl = s.awl := by
  obtain ⟨_, _, _, _, _, h⟩ := escalate_changes s d code; rw [h]

/-- A recovery queued, merged or escalated (R610, R611). -/
theorem queueRecovery_changes (s : State) (seq : Nat) (d : Domain) (code : Nat) : ∃ x0 x1 x2 x3 x4, queueRecovery s seq d code = { s with out := x0, regs := x1, obj := x2, err := x3, fab := x4 } := by
  have mark : ∀ (l : List Recovery) (s : State), ∃ e, l.foldl (fun s r => markMore s r.seq) s = { s with err := e } := by
    intro l
    induction l with
    | nil => exact fun s => ⟨s.err, rfl⟩
    | cons x t ih => exact fun s => (ih (markMore s x.seq)).imp fun e h => h
  unfold queueRecovery
  split
  · split
    · exact escalate_changes s _ code
    · split
      · split <;> exact ⟨_, _, _, _, _, rfl⟩
      · obtain ⟨e, h⟩ := mark _ s
        exact ⟨_, _, _, _, _, h⟩
  · split
    · split <;> exact ⟨_, _, _, _, _, rfl⟩
    · obtain ⟨e, h⟩ := mark _ s
      exact ⟨_, _, _, _, _, h⟩

@[simp] theorem queueRecovery_pending (s : State) (seq : Nat) (d : Domain) (code : Nat) : (queueRecovery s seq d code).pending = s.pending := by
  obtain ⟨_, _, _, _, _, h⟩ := queueRecovery_changes s seq d code; rw [h]
@[simp] theorem queueRecovery_now (s : State) (seq : Nat) (d : Domain) (code : Nat) : (queueRecovery s seq d code).now = s.now := by
  obtain ⟨_, _, _, _, _, h⟩ := queueRecovery_changes s seq d code; rw [h]
@[simp] theorem queueRecovery_free (s : State) (seq : Nat) (d : Domain) (code : Nat) : (queueRecovery s seq d code).free = s.free := by
  obtain ⟨_, _, _, _, _, h⟩ := queueRecovery_changes s seq d code; rw [h]
@[simp] theorem queueRecovery_staged (s : State) (seq : Nat) (d : Domain) (code : Nat) : (queueRecovery s seq d code).staged = s.staged := by
  obtain ⟨_, _, _, _, _, h⟩ := queueRecovery_changes s seq d code; rw [h]
@[simp] theorem queueRecovery_applying (s : State) (seq : Nat) (d : Domain) (code : Nat) : (queueRecovery s seq d code).applying = s.applying := by
  obtain ⟨_, _, _, _, _, h⟩ := queueRecovery_changes s seq d code; rw [h]
@[simp] theorem queueRecovery_mem (s : State) (seq : Nat) (d : Domain) (code : Nat) : (queueRecovery s seq d code).mem = s.mem := by
  obtain ⟨_, _, _, _, _, h⟩ := queueRecovery_changes s seq d code; rw [h]
@[simp] theorem queueRecovery_poison (s : State) (seq : Nat) (d : Domain) (code : Nat) : (queueRecovery s seq d code).poison = s.poison := by
  obtain ⟨_, _, _, _, _, h⟩ := queueRecovery_changes s seq d code; rw [h]
@[simp] theorem queueRecovery_cores (s : State) (seq : Nat) (d : Domain) (code : Nat) : (queueRecovery s seq d code).cores = s.cores := by
  obtain ⟨_, _, _, _, _, h⟩ := queueRecovery_changes s seq d code; rw [h]
@[simp] theorem queueRecovery_ms (s : State) (seq : Nat) (d : Domain) (code : Nat) : (queueRecovery s seq d code).ms = s.ms := by
  obtain ⟨_, _, _, _, _, h⟩ := queueRecovery_changes s seq d code; rw [h]
@[simp] theorem queueRecovery_hbm (s : State) (seq : Nat) (d : Domain) (code : Nat) : (queueRecovery s seq d code).hbm = s.hbm := by
  obtain ⟨_, _, _, _, _, h⟩ := queueRecovery_changes s seq d code; rw [h]
@[simp] theorem queueRecovery_xlt (s : State) (seq : Nat) (d : Domain) (code : Nat) : (queueRecovery s seq d code).xlt = s.xlt := by
  obtain ⟨_, _, _, _, _, h⟩ := queueRecovery_changes s seq d code; rw [h]
@[simp] theorem queueRecovery_cmds (s : State) (seq : Nat) (d : Domain) (code : Nat) : (queueRecovery s seq d code).cmds = s.cmds := by
  obtain ⟨_, _, _, _, _, h⟩ := queueRecovery_changes s seq d code; rw [h]
@[simp] theorem queueRecovery_nextCmd (s : State) (seq : Nat) (d : Domain) (code : Nat) : (queueRecovery s seq d code).nextCmd = s.nextCmd := by
  obtain ⟨_, _, _, _, _, h⟩ := queueRecovery_changes s seq d code; rw [h]
@[simp] theorem queueRecovery_com (s : State) (seq : Nat) (d : Domain) (code : Nat) : (queueRecovery s seq d code).com = s.com := by
  obtain ⟨_, _, _, _, _, h⟩ := queueRecovery_changes s seq d code; rw [h]
@[simp] theorem queueRecovery_sch (s : State) (seq : Nat) (d : Domain) (code : Nat) : (queueRecovery s seq d code).sch = s.sch := by
  obtain ⟨_, _, _, _, _, h⟩ := queueRecovery_changes s seq d code; rw [h]
@[simp] theorem queueRecovery_srv (s : State) (seq : Nat) (d : Domain) (code : Nat) : (queueRecovery s seq d code).srv = s.srv := by
  obtain ⟨_, _, _, _, _, h⟩ := queueRecovery_changes s seq d code; rw [h]
@[simp] theorem queueRecovery_ftm (s : State) (seq : Nat) (d : Domain) (code : Nat) : (queueRecovery s seq d code).ftm = s.ftm := by
  obtain ⟨_, _, _, _, _, h⟩ := queueRecovery_changes s seq d code; rw [h]
@[simp] theorem queueRecovery_bdl (s : State) (seq : Nat) (d : Domain) (code : Nat) : (queueRecovery s seq d code).bdl = s.bdl := by
  obtain ⟨_, _, _, _, _, h⟩ := queueRecovery_changes s seq d code; rw [h]
@[simp] theorem queueRecovery_boot (s : State) (seq : Nat) (d : Domain) (code : Nat) : (queueRecovery s seq d code).boot = s.boot := by
  obtain ⟨_, _, _, _, _, h⟩ := queueRecovery_changes s seq d code; rw [h]
@[simp] theorem queueRecovery_mon (s : State) (seq : Nat) (d : Domain) (code : Nat) : (queueRecovery s seq d code).mon = s.mon := by
  obtain ⟨_, _, _, _, _, h⟩ := queueRecovery_changes s seq d code; rw [h]
@[simp] theorem queueRecovery_awl (s : State) (seq : Nat) (d : Domain) (code : Nat) : (queueRecovery s seq d code).awl = s.awl := by
  obtain ⟨_, _, _, _, _, h⟩ := queueRecovery_changes s seq d code; rw [h]

/-- A UNIT error (R609). -/
theorem raiseUnit_changes (s : State) (code : Nat) (d : Domain) : ∃ x0 x1 x2 x3 x4, raiseUnit s code d = { s with out := x0, regs := x1, obj := x2, err := x3, fab := x4 } := by
  unfold raiseUnit
  dsimp only
  obtain ⟨o, r, b, e, h⟩ := errWrite_changes s (errBase s code 3 (pgId d.page))
  rw [h]
  exact queueRecovery_changes _ _ d code

@[simp] theorem raiseUnit_pending (s : State) (code : Nat) (d : Domain) : (raiseUnit s code d).pending = s.pending := by
  obtain ⟨_, _, _, _, _, h⟩ := raiseUnit_changes s code d; rw [h]
@[simp] theorem raiseUnit_now (s : State) (code : Nat) (d : Domain) : (raiseUnit s code d).now = s.now := by
  obtain ⟨_, _, _, _, _, h⟩ := raiseUnit_changes s code d; rw [h]
@[simp] theorem raiseUnit_free (s : State) (code : Nat) (d : Domain) : (raiseUnit s code d).free = s.free := by
  obtain ⟨_, _, _, _, _, h⟩ := raiseUnit_changes s code d; rw [h]
@[simp] theorem raiseUnit_staged (s : State) (code : Nat) (d : Domain) : (raiseUnit s code d).staged = s.staged := by
  obtain ⟨_, _, _, _, _, h⟩ := raiseUnit_changes s code d; rw [h]
@[simp] theorem raiseUnit_applying (s : State) (code : Nat) (d : Domain) : (raiseUnit s code d).applying = s.applying := by
  obtain ⟨_, _, _, _, _, h⟩ := raiseUnit_changes s code d; rw [h]
@[simp] theorem raiseUnit_mem (s : State) (code : Nat) (d : Domain) : (raiseUnit s code d).mem = s.mem := by
  obtain ⟨_, _, _, _, _, h⟩ := raiseUnit_changes s code d; rw [h]
@[simp] theorem raiseUnit_poison (s : State) (code : Nat) (d : Domain) : (raiseUnit s code d).poison = s.poison := by
  obtain ⟨_, _, _, _, _, h⟩ := raiseUnit_changes s code d; rw [h]
@[simp] theorem raiseUnit_cores (s : State) (code : Nat) (d : Domain) : (raiseUnit s code d).cores = s.cores := by
  obtain ⟨_, _, _, _, _, h⟩ := raiseUnit_changes s code d; rw [h]
@[simp] theorem raiseUnit_ms (s : State) (code : Nat) (d : Domain) : (raiseUnit s code d).ms = s.ms := by
  obtain ⟨_, _, _, _, _, h⟩ := raiseUnit_changes s code d; rw [h]
@[simp] theorem raiseUnit_hbm (s : State) (code : Nat) (d : Domain) : (raiseUnit s code d).hbm = s.hbm := by
  obtain ⟨_, _, _, _, _, h⟩ := raiseUnit_changes s code d; rw [h]
@[simp] theorem raiseUnit_xlt (s : State) (code : Nat) (d : Domain) : (raiseUnit s code d).xlt = s.xlt := by
  obtain ⟨_, _, _, _, _, h⟩ := raiseUnit_changes s code d; rw [h]
@[simp] theorem raiseUnit_cmds (s : State) (code : Nat) (d : Domain) : (raiseUnit s code d).cmds = s.cmds := by
  obtain ⟨_, _, _, _, _, h⟩ := raiseUnit_changes s code d; rw [h]
@[simp] theorem raiseUnit_nextCmd (s : State) (code : Nat) (d : Domain) : (raiseUnit s code d).nextCmd = s.nextCmd := by
  obtain ⟨_, _, _, _, _, h⟩ := raiseUnit_changes s code d; rw [h]
@[simp] theorem raiseUnit_com (s : State) (code : Nat) (d : Domain) : (raiseUnit s code d).com = s.com := by
  obtain ⟨_, _, _, _, _, h⟩ := raiseUnit_changes s code d; rw [h]
@[simp] theorem raiseUnit_sch (s : State) (code : Nat) (d : Domain) : (raiseUnit s code d).sch = s.sch := by
  obtain ⟨_, _, _, _, _, h⟩ := raiseUnit_changes s code d; rw [h]
@[simp] theorem raiseUnit_srv (s : State) (code : Nat) (d : Domain) : (raiseUnit s code d).srv = s.srv := by
  obtain ⟨_, _, _, _, _, h⟩ := raiseUnit_changes s code d; rw [h]
@[simp] theorem raiseUnit_ftm (s : State) (code : Nat) (d : Domain) : (raiseUnit s code d).ftm = s.ftm := by
  obtain ⟨_, _, _, _, _, h⟩ := raiseUnit_changes s code d; rw [h]
@[simp] theorem raiseUnit_bdl (s : State) (code : Nat) (d : Domain) : (raiseUnit s code d).bdl = s.bdl := by
  obtain ⟨_, _, _, _, _, h⟩ := raiseUnit_changes s code d; rw [h]
@[simp] theorem raiseUnit_boot (s : State) (code : Nat) (d : Domain) : (raiseUnit s code d).boot = s.boot := by
  obtain ⟨_, _, _, _, _, h⟩ := raiseUnit_changes s code d; rw [h]
@[simp] theorem raiseUnit_mon (s : State) (code : Nat) (d : Domain) : (raiseUnit s code d).mon = s.mon := by
  obtain ⟨_, _, _, _, _, h⟩ := raiseUnit_changes s code d; rw [h]
@[simp] theorem raiseUnit_awl (s : State) (code : Nat) (d : Domain) : (raiseUnit s code d).awl = s.awl := by
  obtain ⟨_, _, _, _, _, h⟩ := raiseUnit_changes s code d; rw [h]

/-- A FATAL error (R609). -/
theorem raiseFatal_changes (s : State) (code page addr : Nat) : ∃ x0 x1 x2 x3, raiseFatal s code page addr = { s with out := x0, regs := x1, obj := x2, err := x3 } := by
  unfold raiseFatal
  obtain ⟨o, r, b, e, h⟩ := errWrite_changes s { errBase s code 4 (pgId page) with addr }
  rw [h]
  exact ⟨_, _, _, _, rfl⟩

@[simp] theorem raiseFatal_pending (s : State) (code page addr : Nat) : (raiseFatal s code page addr).pending = s.pending := by
  obtain ⟨_, _, _, _, h⟩ := raiseFatal_changes s code page addr; rw [h]
@[simp] theorem raiseFatal_now (s : State) (code page addr : Nat) : (raiseFatal s code page addr).now = s.now := by
  obtain ⟨_, _, _, _, h⟩ := raiseFatal_changes s code page addr; rw [h]
@[simp] theorem raiseFatal_free (s : State) (code page addr : Nat) : (raiseFatal s code page addr).free = s.free := by
  obtain ⟨_, _, _, _, h⟩ := raiseFatal_changes s code page addr; rw [h]
@[simp] theorem raiseFatal_staged (s : State) (code page addr : Nat) : (raiseFatal s code page addr).staged = s.staged := by
  obtain ⟨_, _, _, _, h⟩ := raiseFatal_changes s code page addr; rw [h]
@[simp] theorem raiseFatal_applying (s : State) (code page addr : Nat) : (raiseFatal s code page addr).applying = s.applying := by
  obtain ⟨_, _, _, _, h⟩ := raiseFatal_changes s code page addr; rw [h]
@[simp] theorem raiseFatal_mem (s : State) (code page addr : Nat) : (raiseFatal s code page addr).mem = s.mem := by
  obtain ⟨_, _, _, _, h⟩ := raiseFatal_changes s code page addr; rw [h]
@[simp] theorem raiseFatal_poison (s : State) (code page addr : Nat) : (raiseFatal s code page addr).poison = s.poison := by
  obtain ⟨_, _, _, _, h⟩ := raiseFatal_changes s code page addr; rw [h]
@[simp] theorem raiseFatal_cores (s : State) (code page addr : Nat) : (raiseFatal s code page addr).cores = s.cores := by
  obtain ⟨_, _, _, _, h⟩ := raiseFatal_changes s code page addr; rw [h]
@[simp] theorem raiseFatal_ms (s : State) (code page addr : Nat) : (raiseFatal s code page addr).ms = s.ms := by
  obtain ⟨_, _, _, _, h⟩ := raiseFatal_changes s code page addr; rw [h]
@[simp] theorem raiseFatal_hbm (s : State) (code page addr : Nat) : (raiseFatal s code page addr).hbm = s.hbm := by
  obtain ⟨_, _, _, _, h⟩ := raiseFatal_changes s code page addr; rw [h]
@[simp] theorem raiseFatal_xlt (s : State) (code page addr : Nat) : (raiseFatal s code page addr).xlt = s.xlt := by
  obtain ⟨_, _, _, _, h⟩ := raiseFatal_changes s code page addr; rw [h]
@[simp] theorem raiseFatal_cmds (s : State) (code page addr : Nat) : (raiseFatal s code page addr).cmds = s.cmds := by
  obtain ⟨_, _, _, _, h⟩ := raiseFatal_changes s code page addr; rw [h]
@[simp] theorem raiseFatal_nextCmd (s : State) (code page addr : Nat) : (raiseFatal s code page addr).nextCmd = s.nextCmd := by
  obtain ⟨_, _, _, _, h⟩ := raiseFatal_changes s code page addr; rw [h]
@[simp] theorem raiseFatal_com (s : State) (code page addr : Nat) : (raiseFatal s code page addr).com = s.com := by
  obtain ⟨_, _, _, _, h⟩ := raiseFatal_changes s code page addr; rw [h]
@[simp] theorem raiseFatal_sch (s : State) (code page addr : Nat) : (raiseFatal s code page addr).sch = s.sch := by
  obtain ⟨_, _, _, _, h⟩ := raiseFatal_changes s code page addr; rw [h]
@[simp] theorem raiseFatal_srv (s : State) (code page addr : Nat) : (raiseFatal s code page addr).srv = s.srv := by
  obtain ⟨_, _, _, _, h⟩ := raiseFatal_changes s code page addr; rw [h]
@[simp] theorem raiseFatal_fab (s : State) (code page addr : Nat) : (raiseFatal s code page addr).fab = s.fab := by
  obtain ⟨_, _, _, _, h⟩ := raiseFatal_changes s code page addr; rw [h]
@[simp] theorem raiseFatal_ftm (s : State) (code page addr : Nat) : (raiseFatal s code page addr).ftm = s.ftm := by
  obtain ⟨_, _, _, _, h⟩ := raiseFatal_changes s code page addr; rw [h]
@[simp] theorem raiseFatal_bdl (s : State) (code page addr : Nat) : (raiseFatal s code page addr).bdl = s.bdl := by
  obtain ⟨_, _, _, _, h⟩ := raiseFatal_changes s code page addr; rw [h]
@[simp] theorem raiseFatal_boot (s : State) (code page addr : Nat) : (raiseFatal s code page addr).boot = s.boot := by
  obtain ⟨_, _, _, _, h⟩ := raiseFatal_changes s code page addr; rw [h]
@[simp] theorem raiseFatal_mon (s : State) (code page addr : Nat) : (raiseFatal s code page addr).mon = s.mon := by
  obtain ⟨_, _, _, _, h⟩ := raiseFatal_changes s code page addr; rw [h]
@[simp] theorem raiseFatal_awl (s : State) (code page addr : Nat) : (raiseFatal s code page addr).awl = s.awl := by
  obtain ⟨_, _, _, _, h⟩ := raiseFatal_changes s code page addr; rw [h]

/-- Bytes charged to a command and its tenant (R540). -/
theorem chargeHbm_changes (s : State) (cmd : Option Nat) (n : Nat) : ∃ x0 x1, chargeHbm s cmd n = { s with cmds := x0, srv := x1 } := by
  unfold chargeHbm
  split
  · exact ⟨_, _, rfl⟩
  · split <;> exact ⟨_, _, rfl⟩

@[simp] theorem chargeHbm_pending (s : State) (cmd : Option Nat) (n : Nat) : (chargeHbm s cmd n).pending = s.pending := by
  obtain ⟨_, _, h⟩ := chargeHbm_changes s cmd n; rw [h]
@[simp] theorem chargeHbm_now (s : State) (cmd : Option Nat) (n : Nat) : (chargeHbm s cmd n).now = s.now := by
  obtain ⟨_, _, h⟩ := chargeHbm_changes s cmd n; rw [h]
@[simp] theorem chargeHbm_free (s : State) (cmd : Option Nat) (n : Nat) : (chargeHbm s cmd n).free = s.free := by
  obtain ⟨_, _, h⟩ := chargeHbm_changes s cmd n; rw [h]
@[simp] theorem chargeHbm_out (s : State) (cmd : Option Nat) (n : Nat) : (chargeHbm s cmd n).out = s.out := by
  obtain ⟨_, _, h⟩ := chargeHbm_changes s cmd n; rw [h]
@[simp] theorem chargeHbm_regs (s : State) (cmd : Option Nat) (n : Nat) : (chargeHbm s cmd n).regs = s.regs := by
  obtain ⟨_, _, h⟩ := chargeHbm_changes s cmd n; rw [h]
@[simp] theorem chargeHbm_staged (s : State) (cmd : Option Nat) (n : Nat) : (chargeHbm s cmd n).staged = s.staged := by
  obtain ⟨_, _, h⟩ := chargeHbm_changes s cmd n; rw [h]
@[simp] theorem chargeHbm_applying (s : State) (cmd : Option Nat) (n : Nat) : (chargeHbm s cmd n).applying = s.applying := by
  obtain ⟨_, _, h⟩ := chargeHbm_changes s cmd n; rw [h]
@[simp] theorem chargeHbm_mem (s : State) (cmd : Option Nat) (n : Nat) : (chargeHbm s cmd n).mem = s.mem := by
  obtain ⟨_, _, h⟩ := chargeHbm_changes s cmd n; rw [h]
@[simp] theorem chargeHbm_poison (s : State) (cmd : Option Nat) (n : Nat) : (chargeHbm s cmd n).poison = s.poison := by
  obtain ⟨_, _, h⟩ := chargeHbm_changes s cmd n; rw [h]
@[simp] theorem chargeHbm_cores (s : State) (cmd : Option Nat) (n : Nat) : (chargeHbm s cmd n).cores = s.cores := by
  obtain ⟨_, _, h⟩ := chargeHbm_changes s cmd n; rw [h]
@[simp] theorem chargeHbm_ms (s : State) (cmd : Option Nat) (n : Nat) : (chargeHbm s cmd n).ms = s.ms := by
  obtain ⟨_, _, h⟩ := chargeHbm_changes s cmd n; rw [h]
@[simp] theorem chargeHbm_hbm (s : State) (cmd : Option Nat) (n : Nat) : (chargeHbm s cmd n).hbm = s.hbm := by
  obtain ⟨_, _, h⟩ := chargeHbm_changes s cmd n; rw [h]
@[simp] theorem chargeHbm_xlt (s : State) (cmd : Option Nat) (n : Nat) : (chargeHbm s cmd n).xlt = s.xlt := by
  obtain ⟨_, _, h⟩ := chargeHbm_changes s cmd n; rw [h]
@[simp] theorem chargeHbm_obj (s : State) (cmd : Option Nat) (n : Nat) : (chargeHbm s cmd n).obj = s.obj := by
  obtain ⟨_, _, h⟩ := chargeHbm_changes s cmd n; rw [h]
@[simp] theorem chargeHbm_nextCmd (s : State) (cmd : Option Nat) (n : Nat) : (chargeHbm s cmd n).nextCmd = s.nextCmd := by
  obtain ⟨_, _, h⟩ := chargeHbm_changes s cmd n; rw [h]
@[simp] theorem chargeHbm_com (s : State) (cmd : Option Nat) (n : Nat) : (chargeHbm s cmd n).com = s.com := by
  obtain ⟨_, _, h⟩ := chargeHbm_changes s cmd n; rw [h]
@[simp] theorem chargeHbm_sch (s : State) (cmd : Option Nat) (n : Nat) : (chargeHbm s cmd n).sch = s.sch := by
  obtain ⟨_, _, h⟩ := chargeHbm_changes s cmd n; rw [h]
@[simp] theorem chargeHbm_err (s : State) (cmd : Option Nat) (n : Nat) : (chargeHbm s cmd n).err = s.err := by
  obtain ⟨_, _, h⟩ := chargeHbm_changes s cmd n; rw [h]
@[simp] theorem chargeHbm_fab (s : State) (cmd : Option Nat) (n : Nat) : (chargeHbm s cmd n).fab = s.fab := by
  obtain ⟨_, _, h⟩ := chargeHbm_changes s cmd n; rw [h]
@[simp] theorem chargeHbm_ftm (s : State) (cmd : Option Nat) (n : Nat) : (chargeHbm s cmd n).ftm = s.ftm := by
  obtain ⟨_, _, h⟩ := chargeHbm_changes s cmd n; rw [h]
@[simp] theorem chargeHbm_bdl (s : State) (cmd : Option Nat) (n : Nat) : (chargeHbm s cmd n).bdl = s.bdl := by
  obtain ⟨_, _, h⟩ := chargeHbm_changes s cmd n; rw [h]
@[simp] theorem chargeHbm_boot (s : State) (cmd : Option Nat) (n : Nat) : (chargeHbm s cmd n).boot = s.boot := by
  obtain ⟨_, _, h⟩ := chargeHbm_changes s cmd n; rw [h]
@[simp] theorem chargeHbm_mon (s : State) (cmd : Option Nat) (n : Nat) : (chargeHbm s cmd n).mon = s.mon := by
  obtain ⟨_, _, h⟩ := chargeHbm_changes s cmd n; rw [h]
@[simp] theorem chargeHbm_awl (s : State) (cmd : Option Nat) (n : Nat) : (chargeHbm s cmd n).awl = s.awl := by
  obtain ⟨_, _, h⟩ := chargeHbm_changes s cmd n; rw [h]

/-- Bytes charged to a command and its tenant (R540). -/
theorem chargeFab_changes (s : State) (cmd : Option Nat) (n : Nat) : ∃ x0 x1, chargeFab s cmd n = { s with cmds := x0, srv := x1 } := by
  unfold chargeFab
  split
  · exact ⟨_, _, rfl⟩
  · split <;> exact ⟨_, _, rfl⟩

@[simp] theorem chargeFab_pending (s : State) (cmd : Option Nat) (n : Nat) : (chargeFab s cmd n).pending = s.pending := by
  obtain ⟨_, _, h⟩ := chargeFab_changes s cmd n; rw [h]
@[simp] theorem chargeFab_now (s : State) (cmd : Option Nat) (n : Nat) : (chargeFab s cmd n).now = s.now := by
  obtain ⟨_, _, h⟩ := chargeFab_changes s cmd n; rw [h]
@[simp] theorem chargeFab_free (s : State) (cmd : Option Nat) (n : Nat) : (chargeFab s cmd n).free = s.free := by
  obtain ⟨_, _, h⟩ := chargeFab_changes s cmd n; rw [h]
@[simp] theorem chargeFab_out (s : State) (cmd : Option Nat) (n : Nat) : (chargeFab s cmd n).out = s.out := by
  obtain ⟨_, _, h⟩ := chargeFab_changes s cmd n; rw [h]
@[simp] theorem chargeFab_regs (s : State) (cmd : Option Nat) (n : Nat) : (chargeFab s cmd n).regs = s.regs := by
  obtain ⟨_, _, h⟩ := chargeFab_changes s cmd n; rw [h]
@[simp] theorem chargeFab_staged (s : State) (cmd : Option Nat) (n : Nat) : (chargeFab s cmd n).staged = s.staged := by
  obtain ⟨_, _, h⟩ := chargeFab_changes s cmd n; rw [h]
@[simp] theorem chargeFab_applying (s : State) (cmd : Option Nat) (n : Nat) : (chargeFab s cmd n).applying = s.applying := by
  obtain ⟨_, _, h⟩ := chargeFab_changes s cmd n; rw [h]
@[simp] theorem chargeFab_mem (s : State) (cmd : Option Nat) (n : Nat) : (chargeFab s cmd n).mem = s.mem := by
  obtain ⟨_, _, h⟩ := chargeFab_changes s cmd n; rw [h]
@[simp] theorem chargeFab_poison (s : State) (cmd : Option Nat) (n : Nat) : (chargeFab s cmd n).poison = s.poison := by
  obtain ⟨_, _, h⟩ := chargeFab_changes s cmd n; rw [h]
@[simp] theorem chargeFab_cores (s : State) (cmd : Option Nat) (n : Nat) : (chargeFab s cmd n).cores = s.cores := by
  obtain ⟨_, _, h⟩ := chargeFab_changes s cmd n; rw [h]
@[simp] theorem chargeFab_ms (s : State) (cmd : Option Nat) (n : Nat) : (chargeFab s cmd n).ms = s.ms := by
  obtain ⟨_, _, h⟩ := chargeFab_changes s cmd n; rw [h]
@[simp] theorem chargeFab_hbm (s : State) (cmd : Option Nat) (n : Nat) : (chargeFab s cmd n).hbm = s.hbm := by
  obtain ⟨_, _, h⟩ := chargeFab_changes s cmd n; rw [h]
@[simp] theorem chargeFab_xlt (s : State) (cmd : Option Nat) (n : Nat) : (chargeFab s cmd n).xlt = s.xlt := by
  obtain ⟨_, _, h⟩ := chargeFab_changes s cmd n; rw [h]
@[simp] theorem chargeFab_obj (s : State) (cmd : Option Nat) (n : Nat) : (chargeFab s cmd n).obj = s.obj := by
  obtain ⟨_, _, h⟩ := chargeFab_changes s cmd n; rw [h]
@[simp] theorem chargeFab_nextCmd (s : State) (cmd : Option Nat) (n : Nat) : (chargeFab s cmd n).nextCmd = s.nextCmd := by
  obtain ⟨_, _, h⟩ := chargeFab_changes s cmd n; rw [h]
@[simp] theorem chargeFab_com (s : State) (cmd : Option Nat) (n : Nat) : (chargeFab s cmd n).com = s.com := by
  obtain ⟨_, _, h⟩ := chargeFab_changes s cmd n; rw [h]
@[simp] theorem chargeFab_sch (s : State) (cmd : Option Nat) (n : Nat) : (chargeFab s cmd n).sch = s.sch := by
  obtain ⟨_, _, h⟩ := chargeFab_changes s cmd n; rw [h]
@[simp] theorem chargeFab_err (s : State) (cmd : Option Nat) (n : Nat) : (chargeFab s cmd n).err = s.err := by
  obtain ⟨_, _, h⟩ := chargeFab_changes s cmd n; rw [h]
@[simp] theorem chargeFab_fab (s : State) (cmd : Option Nat) (n : Nat) : (chargeFab s cmd n).fab = s.fab := by
  obtain ⟨_, _, h⟩ := chargeFab_changes s cmd n; rw [h]
@[simp] theorem chargeFab_ftm (s : State) (cmd : Option Nat) (n : Nat) : (chargeFab s cmd n).ftm = s.ftm := by
  obtain ⟨_, _, h⟩ := chargeFab_changes s cmd n; rw [h]
@[simp] theorem chargeFab_bdl (s : State) (cmd : Option Nat) (n : Nat) : (chargeFab s cmd n).bdl = s.bdl := by
  obtain ⟨_, _, h⟩ := chargeFab_changes s cmd n; rw [h]
@[simp] theorem chargeFab_boot (s : State) (cmd : Option Nat) (n : Nat) : (chargeFab s cmd n).boot = s.boot := by
  obtain ⟨_, _, h⟩ := chargeFab_changes s cmd n; rw [h]
@[simp] theorem chargeFab_mon (s : State) (cmd : Option Nat) (n : Nat) : (chargeFab s cmd n).mon = s.mon := by
  obtain ⟨_, _, h⟩ := chargeFab_changes s cmd n; rw [h]
@[simp] theorem chargeFab_awl (s : State) (cmd : Option Nat) (n : Nat) : (chargeFab s cmd n).awl = s.awl := by
  obtain ⟨_, _, h⟩ := chargeFab_changes s cmd n; rw [h]

/-- Bytes charged to a command and its tenant (R540). -/
theorem chargeHost_changes (s : State) (cmd : Option Nat) (n : Nat) : ∃ x0 x1, chargeHost s cmd n = { s with cmds := x0, srv := x1 } := by
  unfold chargeHost
  split
  · exact ⟨_, _, rfl⟩
  · split <;> exact ⟨_, _, rfl⟩

@[simp] theorem chargeHost_pending (s : State) (cmd : Option Nat) (n : Nat) : (chargeHost s cmd n).pending = s.pending := by
  obtain ⟨_, _, h⟩ := chargeHost_changes s cmd n; rw [h]
@[simp] theorem chargeHost_now (s : State) (cmd : Option Nat) (n : Nat) : (chargeHost s cmd n).now = s.now := by
  obtain ⟨_, _, h⟩ := chargeHost_changes s cmd n; rw [h]
@[simp] theorem chargeHost_free (s : State) (cmd : Option Nat) (n : Nat) : (chargeHost s cmd n).free = s.free := by
  obtain ⟨_, _, h⟩ := chargeHost_changes s cmd n; rw [h]
@[simp] theorem chargeHost_out (s : State) (cmd : Option Nat) (n : Nat) : (chargeHost s cmd n).out = s.out := by
  obtain ⟨_, _, h⟩ := chargeHost_changes s cmd n; rw [h]
@[simp] theorem chargeHost_regs (s : State) (cmd : Option Nat) (n : Nat) : (chargeHost s cmd n).regs = s.regs := by
  obtain ⟨_, _, h⟩ := chargeHost_changes s cmd n; rw [h]
@[simp] theorem chargeHost_staged (s : State) (cmd : Option Nat) (n : Nat) : (chargeHost s cmd n).staged = s.staged := by
  obtain ⟨_, _, h⟩ := chargeHost_changes s cmd n; rw [h]
@[simp] theorem chargeHost_applying (s : State) (cmd : Option Nat) (n : Nat) : (chargeHost s cmd n).applying = s.applying := by
  obtain ⟨_, _, h⟩ := chargeHost_changes s cmd n; rw [h]
@[simp] theorem chargeHost_mem (s : State) (cmd : Option Nat) (n : Nat) : (chargeHost s cmd n).mem = s.mem := by
  obtain ⟨_, _, h⟩ := chargeHost_changes s cmd n; rw [h]
@[simp] theorem chargeHost_poison (s : State) (cmd : Option Nat) (n : Nat) : (chargeHost s cmd n).poison = s.poison := by
  obtain ⟨_, _, h⟩ := chargeHost_changes s cmd n; rw [h]
@[simp] theorem chargeHost_cores (s : State) (cmd : Option Nat) (n : Nat) : (chargeHost s cmd n).cores = s.cores := by
  obtain ⟨_, _, h⟩ := chargeHost_changes s cmd n; rw [h]
@[simp] theorem chargeHost_ms (s : State) (cmd : Option Nat) (n : Nat) : (chargeHost s cmd n).ms = s.ms := by
  obtain ⟨_, _, h⟩ := chargeHost_changes s cmd n; rw [h]
@[simp] theorem chargeHost_hbm (s : State) (cmd : Option Nat) (n : Nat) : (chargeHost s cmd n).hbm = s.hbm := by
  obtain ⟨_, _, h⟩ := chargeHost_changes s cmd n; rw [h]
@[simp] theorem chargeHost_xlt (s : State) (cmd : Option Nat) (n : Nat) : (chargeHost s cmd n).xlt = s.xlt := by
  obtain ⟨_, _, h⟩ := chargeHost_changes s cmd n; rw [h]
@[simp] theorem chargeHost_obj (s : State) (cmd : Option Nat) (n : Nat) : (chargeHost s cmd n).obj = s.obj := by
  obtain ⟨_, _, h⟩ := chargeHost_changes s cmd n; rw [h]
@[simp] theorem chargeHost_nextCmd (s : State) (cmd : Option Nat) (n : Nat) : (chargeHost s cmd n).nextCmd = s.nextCmd := by
  obtain ⟨_, _, h⟩ := chargeHost_changes s cmd n; rw [h]
@[simp] theorem chargeHost_com (s : State) (cmd : Option Nat) (n : Nat) : (chargeHost s cmd n).com = s.com := by
  obtain ⟨_, _, h⟩ := chargeHost_changes s cmd n; rw [h]
@[simp] theorem chargeHost_sch (s : State) (cmd : Option Nat) (n : Nat) : (chargeHost s cmd n).sch = s.sch := by
  obtain ⟨_, _, h⟩ := chargeHost_changes s cmd n; rw [h]
@[simp] theorem chargeHost_err (s : State) (cmd : Option Nat) (n : Nat) : (chargeHost s cmd n).err = s.err := by
  obtain ⟨_, _, h⟩ := chargeHost_changes s cmd n; rw [h]
@[simp] theorem chargeHost_fab (s : State) (cmd : Option Nat) (n : Nat) : (chargeHost s cmd n).fab = s.fab := by
  obtain ⟨_, _, h⟩ := chargeHost_changes s cmd n; rw [h]
@[simp] theorem chargeHost_ftm (s : State) (cmd : Option Nat) (n : Nat) : (chargeHost s cmd n).ftm = s.ftm := by
  obtain ⟨_, _, h⟩ := chargeHost_changes s cmd n; rw [h]
@[simp] theorem chargeHost_bdl (s : State) (cmd : Option Nat) (n : Nat) : (chargeHost s cmd n).bdl = s.bdl := by
  obtain ⟨_, _, h⟩ := chargeHost_changes s cmd n; rw [h]
@[simp] theorem chargeHost_boot (s : State) (cmd : Option Nat) (n : Nat) : (chargeHost s cmd n).boot = s.boot := by
  obtain ⟨_, _, h⟩ := chargeHost_changes s cmd n; rw [h]
@[simp] theorem chargeHost_mon (s : State) (cmd : Option Nat) (n : Nat) : (chargeHost s cmd n).mon = s.mon := by
  obtain ⟨_, _, h⟩ := chargeHost_changes s cmd n; rw [h]
@[simp] theorem chargeHost_awl (s : State) (cmd : Option Nat) (n : Nat) : (chargeHost s cmd n).awl = s.awl := by
  obtain ⟨_, _, h⟩ := chargeHost_changes s cmd n; rw [h]

/-- A block that waits for its pair (R392). -/
theorem waitSend_changes (s : State) (b : Blk) : ∃ x0, waitSend s b = { s with fab := x0 } := by
  unfold waitSend announceTo
  split <;> exact ⟨_, rfl⟩

@[simp] theorem waitSend_pending (s : State) (b : Blk) : (waitSend s b).pending = s.pending := by
  obtain ⟨_, h⟩ := waitSend_changes s b; rw [h]
@[simp] theorem waitSend_now (s : State) (b : Blk) : (waitSend s b).now = s.now := by
  obtain ⟨_, h⟩ := waitSend_changes s b; rw [h]
@[simp] theorem waitSend_free (s : State) (b : Blk) : (waitSend s b).free = s.free := by
  obtain ⟨_, h⟩ := waitSend_changes s b; rw [h]
@[simp] theorem waitSend_out (s : State) (b : Blk) : (waitSend s b).out = s.out := by
  obtain ⟨_, h⟩ := waitSend_changes s b; rw [h]
@[simp] theorem waitSend_regs (s : State) (b : Blk) : (waitSend s b).regs = s.regs := by
  obtain ⟨_, h⟩ := waitSend_changes s b; rw [h]
@[simp] theorem waitSend_staged (s : State) (b : Blk) : (waitSend s b).staged = s.staged := by
  obtain ⟨_, h⟩ := waitSend_changes s b; rw [h]
@[simp] theorem waitSend_applying (s : State) (b : Blk) : (waitSend s b).applying = s.applying := by
  obtain ⟨_, h⟩ := waitSend_changes s b; rw [h]
@[simp] theorem waitSend_mem (s : State) (b : Blk) : (waitSend s b).mem = s.mem := by
  obtain ⟨_, h⟩ := waitSend_changes s b; rw [h]
@[simp] theorem waitSend_poison (s : State) (b : Blk) : (waitSend s b).poison = s.poison := by
  obtain ⟨_, h⟩ := waitSend_changes s b; rw [h]
@[simp] theorem waitSend_cores (s : State) (b : Blk) : (waitSend s b).cores = s.cores := by
  obtain ⟨_, h⟩ := waitSend_changes s b; rw [h]
@[simp] theorem waitSend_ms (s : State) (b : Blk) : (waitSend s b).ms = s.ms := by
  obtain ⟨_, h⟩ := waitSend_changes s b; rw [h]
@[simp] theorem waitSend_hbm (s : State) (b : Blk) : (waitSend s b).hbm = s.hbm := by
  obtain ⟨_, h⟩ := waitSend_changes s b; rw [h]
@[simp] theorem waitSend_xlt (s : State) (b : Blk) : (waitSend s b).xlt = s.xlt := by
  obtain ⟨_, h⟩ := waitSend_changes s b; rw [h]
@[simp] theorem waitSend_obj (s : State) (b : Blk) : (waitSend s b).obj = s.obj := by
  obtain ⟨_, h⟩ := waitSend_changes s b; rw [h]
@[simp] theorem waitSend_cmds (s : State) (b : Blk) : (waitSend s b).cmds = s.cmds := by
  obtain ⟨_, h⟩ := waitSend_changes s b; rw [h]
@[simp] theorem waitSend_nextCmd (s : State) (b : Blk) : (waitSend s b).nextCmd = s.nextCmd := by
  obtain ⟨_, h⟩ := waitSend_changes s b; rw [h]
@[simp] theorem waitSend_com (s : State) (b : Blk) : (waitSend s b).com = s.com := by
  obtain ⟨_, h⟩ := waitSend_changes s b; rw [h]
@[simp] theorem waitSend_sch (s : State) (b : Blk) : (waitSend s b).sch = s.sch := by
  obtain ⟨_, h⟩ := waitSend_changes s b; rw [h]
@[simp] theorem waitSend_srv (s : State) (b : Blk) : (waitSend s b).srv = s.srv := by
  obtain ⟨_, h⟩ := waitSend_changes s b; rw [h]
@[simp] theorem waitSend_err (s : State) (b : Blk) : (waitSend s b).err = s.err := by
  obtain ⟨_, h⟩ := waitSend_changes s b; rw [h]
@[simp] theorem waitSend_ftm (s : State) (b : Blk) : (waitSend s b).ftm = s.ftm := by
  obtain ⟨_, h⟩ := waitSend_changes s b; rw [h]
@[simp] theorem waitSend_bdl (s : State) (b : Blk) : (waitSend s b).bdl = s.bdl := by
  obtain ⟨_, h⟩ := waitSend_changes s b; rw [h]
@[simp] theorem waitSend_boot (s : State) (b : Blk) : (waitSend s b).boot = s.boot := by
  obtain ⟨_, h⟩ := waitSend_changes s b; rw [h]
@[simp] theorem waitSend_mon (s : State) (b : Blk) : (waitSend s b).mon = s.mon := by
  obtain ⟨_, h⟩ := waitSend_changes s b; rw [h]
@[simp] theorem waitSend_awl (s : State) (b : Blk) : (waitSend s b).awl = s.awl := by
  obtain ⟨_, h⟩ := waitSend_changes s b; rw [h]

/-- A CTL message (R397). -/
theorem sendCtl_changes (s : State) (n tag : Nat) (m : Msg) : ∃ x0, sendCtl s n tag m = { s with fab := x0 } := by
  unfold sendCtl
  split
  · exact ⟨_, rfl⟩
  · split
    · exact waitSend_changes s _
    · exact ⟨_, rfl⟩

@[simp] theorem sendCtl_pending (s : State) (n tag : Nat) (m : Msg) : (sendCtl s n tag m).pending = s.pending := by
  obtain ⟨_, h⟩ := sendCtl_changes s n tag m; rw [h]
@[simp] theorem sendCtl_now (s : State) (n tag : Nat) (m : Msg) : (sendCtl s n tag m).now = s.now := by
  obtain ⟨_, h⟩ := sendCtl_changes s n tag m; rw [h]
@[simp] theorem sendCtl_free (s : State) (n tag : Nat) (m : Msg) : (sendCtl s n tag m).free = s.free := by
  obtain ⟨_, h⟩ := sendCtl_changes s n tag m; rw [h]
@[simp] theorem sendCtl_out (s : State) (n tag : Nat) (m : Msg) : (sendCtl s n tag m).out = s.out := by
  obtain ⟨_, h⟩ := sendCtl_changes s n tag m; rw [h]
@[simp] theorem sendCtl_regs (s : State) (n tag : Nat) (m : Msg) : (sendCtl s n tag m).regs = s.regs := by
  obtain ⟨_, h⟩ := sendCtl_changes s n tag m; rw [h]
@[simp] theorem sendCtl_staged (s : State) (n tag : Nat) (m : Msg) : (sendCtl s n tag m).staged = s.staged := by
  obtain ⟨_, h⟩ := sendCtl_changes s n tag m; rw [h]
@[simp] theorem sendCtl_applying (s : State) (n tag : Nat) (m : Msg) : (sendCtl s n tag m).applying = s.applying := by
  obtain ⟨_, h⟩ := sendCtl_changes s n tag m; rw [h]
@[simp] theorem sendCtl_mem (s : State) (n tag : Nat) (m : Msg) : (sendCtl s n tag m).mem = s.mem := by
  obtain ⟨_, h⟩ := sendCtl_changes s n tag m; rw [h]
@[simp] theorem sendCtl_poison (s : State) (n tag : Nat) (m : Msg) : (sendCtl s n tag m).poison = s.poison := by
  obtain ⟨_, h⟩ := sendCtl_changes s n tag m; rw [h]
@[simp] theorem sendCtl_cores (s : State) (n tag : Nat) (m : Msg) : (sendCtl s n tag m).cores = s.cores := by
  obtain ⟨_, h⟩ := sendCtl_changes s n tag m; rw [h]
@[simp] theorem sendCtl_ms (s : State) (n tag : Nat) (m : Msg) : (sendCtl s n tag m).ms = s.ms := by
  obtain ⟨_, h⟩ := sendCtl_changes s n tag m; rw [h]
@[simp] theorem sendCtl_hbm (s : State) (n tag : Nat) (m : Msg) : (sendCtl s n tag m).hbm = s.hbm := by
  obtain ⟨_, h⟩ := sendCtl_changes s n tag m; rw [h]
@[simp] theorem sendCtl_xlt (s : State) (n tag : Nat) (m : Msg) : (sendCtl s n tag m).xlt = s.xlt := by
  obtain ⟨_, h⟩ := sendCtl_changes s n tag m; rw [h]
@[simp] theorem sendCtl_obj (s : State) (n tag : Nat) (m : Msg) : (sendCtl s n tag m).obj = s.obj := by
  obtain ⟨_, h⟩ := sendCtl_changes s n tag m; rw [h]
@[simp] theorem sendCtl_cmds (s : State) (n tag : Nat) (m : Msg) : (sendCtl s n tag m).cmds = s.cmds := by
  obtain ⟨_, h⟩ := sendCtl_changes s n tag m; rw [h]
@[simp] theorem sendCtl_nextCmd (s : State) (n tag : Nat) (m : Msg) : (sendCtl s n tag m).nextCmd = s.nextCmd := by
  obtain ⟨_, h⟩ := sendCtl_changes s n tag m; rw [h]
@[simp] theorem sendCtl_com (s : State) (n tag : Nat) (m : Msg) : (sendCtl s n tag m).com = s.com := by
  obtain ⟨_, h⟩ := sendCtl_changes s n tag m; rw [h]
@[simp] theorem sendCtl_sch (s : State) (n tag : Nat) (m : Msg) : (sendCtl s n tag m).sch = s.sch := by
  obtain ⟨_, h⟩ := sendCtl_changes s n tag m; rw [h]
@[simp] theorem sendCtl_srv (s : State) (n tag : Nat) (m : Msg) : (sendCtl s n tag m).srv = s.srv := by
  obtain ⟨_, h⟩ := sendCtl_changes s n tag m; rw [h]
@[simp] theorem sendCtl_err (s : State) (n tag : Nat) (m : Msg) : (sendCtl s n tag m).err = s.err := by
  obtain ⟨_, h⟩ := sendCtl_changes s n tag m; rw [h]
@[simp] theorem sendCtl_ftm (s : State) (n tag : Nat) (m : Msg) : (sendCtl s n tag m).ftm = s.ftm := by
  obtain ⟨_, h⟩ := sendCtl_changes s n tag m; rw [h]
@[simp] theorem sendCtl_bdl (s : State) (n tag : Nat) (m : Msg) : (sendCtl s n tag m).bdl = s.bdl := by
  obtain ⟨_, h⟩ := sendCtl_changes s n tag m; rw [h]
@[simp] theorem sendCtl_boot (s : State) (n tag : Nat) (m : Msg) : (sendCtl s n tag m).boot = s.boot := by
  obtain ⟨_, h⟩ := sendCtl_changes s n tag m; rw [h]
@[simp] theorem sendCtl_mon (s : State) (n tag : Nat) (m : Msg) : (sendCtl s n tag m).mon = s.mon := by
  obtain ⟨_, h⟩ := sendCtl_changes s n tag m; rw [h]
@[simp] theorem sendCtl_awl (s : State) (n tag : Nat) (m : Msg) : (sendCtl s n tag m).awl = s.awl := by
  obtain ⟨_, h⟩ := sendCtl_changes s n tag m; rw [h]

/-- A block of the ordered queue (R402). -/
theorem sendOrdered_changes (s : State) (b : Blk) : ∃ x0, sendOrdered s b = { s with fab := x0 } := by
  unfold sendOrdered
  split
  · exact ⟨_, rfl⟩
  · split
    · exact waitSend_changes s b
    · exact ⟨_, rfl⟩

@[simp] theorem sendOrdered_pending (s : State) (b : Blk) : (sendOrdered s b).pending = s.pending := by
  obtain ⟨_, h⟩ := sendOrdered_changes s b; rw [h]
@[simp] theorem sendOrdered_now (s : State) (b : Blk) : (sendOrdered s b).now = s.now := by
  obtain ⟨_, h⟩ := sendOrdered_changes s b; rw [h]
@[simp] theorem sendOrdered_free (s : State) (b : Blk) : (sendOrdered s b).free = s.free := by
  obtain ⟨_, h⟩ := sendOrdered_changes s b; rw [h]
@[simp] theorem sendOrdered_out (s : State) (b : Blk) : (sendOrdered s b).out = s.out := by
  obtain ⟨_, h⟩ := sendOrdered_changes s b; rw [h]
@[simp] theorem sendOrdered_regs (s : State) (b : Blk) : (sendOrdered s b).regs = s.regs := by
  obtain ⟨_, h⟩ := sendOrdered_changes s b; rw [h]
@[simp] theorem sendOrdered_staged (s : State) (b : Blk) : (sendOrdered s b).staged = s.staged := by
  obtain ⟨_, h⟩ := sendOrdered_changes s b; rw [h]
@[simp] theorem sendOrdered_applying (s : State) (b : Blk) : (sendOrdered s b).applying = s.applying := by
  obtain ⟨_, h⟩ := sendOrdered_changes s b; rw [h]
@[simp] theorem sendOrdered_mem (s : State) (b : Blk) : (sendOrdered s b).mem = s.mem := by
  obtain ⟨_, h⟩ := sendOrdered_changes s b; rw [h]
@[simp] theorem sendOrdered_poison (s : State) (b : Blk) : (sendOrdered s b).poison = s.poison := by
  obtain ⟨_, h⟩ := sendOrdered_changes s b; rw [h]
@[simp] theorem sendOrdered_cores (s : State) (b : Blk) : (sendOrdered s b).cores = s.cores := by
  obtain ⟨_, h⟩ := sendOrdered_changes s b; rw [h]
@[simp] theorem sendOrdered_ms (s : State) (b : Blk) : (sendOrdered s b).ms = s.ms := by
  obtain ⟨_, h⟩ := sendOrdered_changes s b; rw [h]
@[simp] theorem sendOrdered_hbm (s : State) (b : Blk) : (sendOrdered s b).hbm = s.hbm := by
  obtain ⟨_, h⟩ := sendOrdered_changes s b; rw [h]
@[simp] theorem sendOrdered_xlt (s : State) (b : Blk) : (sendOrdered s b).xlt = s.xlt := by
  obtain ⟨_, h⟩ := sendOrdered_changes s b; rw [h]
@[simp] theorem sendOrdered_obj (s : State) (b : Blk) : (sendOrdered s b).obj = s.obj := by
  obtain ⟨_, h⟩ := sendOrdered_changes s b; rw [h]
@[simp] theorem sendOrdered_cmds (s : State) (b : Blk) : (sendOrdered s b).cmds = s.cmds := by
  obtain ⟨_, h⟩ := sendOrdered_changes s b; rw [h]
@[simp] theorem sendOrdered_nextCmd (s : State) (b : Blk) : (sendOrdered s b).nextCmd = s.nextCmd := by
  obtain ⟨_, h⟩ := sendOrdered_changes s b; rw [h]
@[simp] theorem sendOrdered_com (s : State) (b : Blk) : (sendOrdered s b).com = s.com := by
  obtain ⟨_, h⟩ := sendOrdered_changes s b; rw [h]
@[simp] theorem sendOrdered_sch (s : State) (b : Blk) : (sendOrdered s b).sch = s.sch := by
  obtain ⟨_, h⟩ := sendOrdered_changes s b; rw [h]
@[simp] theorem sendOrdered_srv (s : State) (b : Blk) : (sendOrdered s b).srv = s.srv := by
  obtain ⟨_, h⟩ := sendOrdered_changes s b; rw [h]
@[simp] theorem sendOrdered_err (s : State) (b : Blk) : (sendOrdered s b).err = s.err := by
  obtain ⟨_, h⟩ := sendOrdered_changes s b; rw [h]
@[simp] theorem sendOrdered_ftm (s : State) (b : Blk) : (sendOrdered s b).ftm = s.ftm := by
  obtain ⟨_, h⟩ := sendOrdered_changes s b; rw [h]
@[simp] theorem sendOrdered_bdl (s : State) (b : Blk) : (sendOrdered s b).bdl = s.bdl := by
  obtain ⟨_, h⟩ := sendOrdered_changes s b; rw [h]
@[simp] theorem sendOrdered_boot (s : State) (b : Blk) : (sendOrdered s b).boot = s.boot := by
  obtain ⟨_, h⟩ := sendOrdered_changes s b; rw [h]
@[simp] theorem sendOrdered_mon (s : State) (b : Blk) : (sendOrdered s b).mon = s.mon := by
  obtain ⟨_, h⟩ := sendOrdered_changes s b; rw [h]
@[simp] theorem sendOrdered_awl (s : State) (b : Blk) : (sendOrdered s b).awl = s.awl := by
  obtain ⟨_, h⟩ := sendOrdered_changes s b; rw [h]

/-- A READ (R402). -/
theorem sendRead_changes (s : State) (b : Blk) : ∃ x0, sendRead s b = { s with fab := x0 } := by
  unfold sendRead
  split
  · exact ⟨_, rfl⟩
  · split
    · exact waitSend_changes s b
    · exact ⟨_, rfl⟩

@[simp] theorem sendRead_pending (s : State) (b : Blk) : (sendRead s b).pending = s.pending := by
  obtain ⟨_, h⟩ := sendRead_changes s b; rw [h]
@[simp] theorem sendRead_now (s : State) (b : Blk) : (sendRead s b).now = s.now := by
  obtain ⟨_, h⟩ := sendRead_changes s b; rw [h]
@[simp] theorem sendRead_free (s : State) (b : Blk) : (sendRead s b).free = s.free := by
  obtain ⟨_, h⟩ := sendRead_changes s b; rw [h]
@[simp] theorem sendRead_out (s : State) (b : Blk) : (sendRead s b).out = s.out := by
  obtain ⟨_, h⟩ := sendRead_changes s b; rw [h]
@[simp] theorem sendRead_regs (s : State) (b : Blk) : (sendRead s b).regs = s.regs := by
  obtain ⟨_, h⟩ := sendRead_changes s b; rw [h]
@[simp] theorem sendRead_staged (s : State) (b : Blk) : (sendRead s b).staged = s.staged := by
  obtain ⟨_, h⟩ := sendRead_changes s b; rw [h]
@[simp] theorem sendRead_applying (s : State) (b : Blk) : (sendRead s b).applying = s.applying := by
  obtain ⟨_, h⟩ := sendRead_changes s b; rw [h]
@[simp] theorem sendRead_mem (s : State) (b : Blk) : (sendRead s b).mem = s.mem := by
  obtain ⟨_, h⟩ := sendRead_changes s b; rw [h]
@[simp] theorem sendRead_poison (s : State) (b : Blk) : (sendRead s b).poison = s.poison := by
  obtain ⟨_, h⟩ := sendRead_changes s b; rw [h]
@[simp] theorem sendRead_cores (s : State) (b : Blk) : (sendRead s b).cores = s.cores := by
  obtain ⟨_, h⟩ := sendRead_changes s b; rw [h]
@[simp] theorem sendRead_ms (s : State) (b : Blk) : (sendRead s b).ms = s.ms := by
  obtain ⟨_, h⟩ := sendRead_changes s b; rw [h]
@[simp] theorem sendRead_hbm (s : State) (b : Blk) : (sendRead s b).hbm = s.hbm := by
  obtain ⟨_, h⟩ := sendRead_changes s b; rw [h]
@[simp] theorem sendRead_xlt (s : State) (b : Blk) : (sendRead s b).xlt = s.xlt := by
  obtain ⟨_, h⟩ := sendRead_changes s b; rw [h]
@[simp] theorem sendRead_obj (s : State) (b : Blk) : (sendRead s b).obj = s.obj := by
  obtain ⟨_, h⟩ := sendRead_changes s b; rw [h]
@[simp] theorem sendRead_cmds (s : State) (b : Blk) : (sendRead s b).cmds = s.cmds := by
  obtain ⟨_, h⟩ := sendRead_changes s b; rw [h]
@[simp] theorem sendRead_nextCmd (s : State) (b : Blk) : (sendRead s b).nextCmd = s.nextCmd := by
  obtain ⟨_, h⟩ := sendRead_changes s b; rw [h]
@[simp] theorem sendRead_com (s : State) (b : Blk) : (sendRead s b).com = s.com := by
  obtain ⟨_, h⟩ := sendRead_changes s b; rw [h]
@[simp] theorem sendRead_sch (s : State) (b : Blk) : (sendRead s b).sch = s.sch := by
  obtain ⟨_, h⟩ := sendRead_changes s b; rw [h]
@[simp] theorem sendRead_srv (s : State) (b : Blk) : (sendRead s b).srv = s.srv := by
  obtain ⟨_, h⟩ := sendRead_changes s b; rw [h]
@[simp] theorem sendRead_err (s : State) (b : Blk) : (sendRead s b).err = s.err := by
  obtain ⟨_, h⟩ := sendRead_changes s b; rw [h]
@[simp] theorem sendRead_ftm (s : State) (b : Blk) : (sendRead s b).ftm = s.ftm := by
  obtain ⟨_, h⟩ := sendRead_changes s b; rw [h]
@[simp] theorem sendRead_bdl (s : State) (b : Blk) : (sendRead s b).bdl = s.bdl := by
  obtain ⟨_, h⟩ := sendRead_changes s b; rw [h]
@[simp] theorem sendRead_boot (s : State) (b : Blk) : (sendRead s b).boot = s.boot := by
  obtain ⟨_, h⟩ := sendRead_changes s b; rw [h]
@[simp] theorem sendRead_mon (s : State) (b : Blk) : (sendRead s b).mon = s.mon := by
  obtain ⟨_, h⟩ := sendRead_changes s b; rw [h]
@[simp] theorem sendRead_awl (s : State) (b : Blk) : (sendRead s b).awl = s.awl := by
  obtain ⟨_, h⟩ := sendRead_changes s b; rw [h]

end Sys2Proof.Machine
end

