-- ==== Sys2Proof/Laws/Regs.lean ====
section
/-! SUPPORT. What a register reads as after a write of a register and after an event. -/

namespace Sys2Proof.Machine

@[simp] theorem reg_setReg (s : State) (r : RegDef) (i v : Nat) : reg (setReg s r i v) r i = v % 2 ^ 64 := by
  simp [reg, setReg]

theorem reg_setReg_ne (s : State) {r q : RegDef} {i j : Nat} (v : Nat) (h : q.at_ j ≠ r.at_ i) :
    reg (setReg s r i v) q j = reg s q j := by
  simp [reg, setReg, mget_mset_ne _ _ h]

@[simp] theorem rawReg_setRaw (s : State) (a v d : Nat) : rawReg (setRaw s a v) a d = v % 2 ^ 64 := by
  simp [rawReg, setRaw]

theorem rawReg_setRaw_ne (s : State) {a b : Nat} (v d : Nat) (h : b ≠ a) : rawReg (setRaw s a v) b d = rawReg s b d := by
  simp [rawReg, setRaw, mget_mset_ne _ _ h]

theorem reg_of_regs {s t : State} {r : RegDef} {i : Nat} (h : mget t.regs (r.at_ i) = mget s.regs (r.at_ i)) : reg t r i = reg s r i := by
  simp [reg, h]

theorem rawReg_of_regs {s t : State} {a : Nat} (h : mget t.regs a = mget s.regs a) (d : Nat) : rawReg t a d = rawReg s a d := by
  simp [rawReg, h]

/-- Counting an event leaves every address outside the counters and their overflow bits alone. -/
theorem pmcBump_regs (s : State) (page code k n a : Nat) (hn : n ≤ 8) (h : a ≠ page + 0xF04) (g : a < page + 0xF40 ∨ page + 0xF80 ≤ a) :
    mget (pmcBump s page code k n).regs a = mget s.regs a := by
  induction n with
  | zero => rfl
  | succ n ih =>
    have ih := ih (by omega)
    simp only [pmcBump]
    split
    · split <;> simp only [setRaw] <;> rw [mget_mset_ne _ _ (by omega)]
      · rw [mget_mset_ne _ _ (by omega), ih]
      · exact ih
    · exact ih

/-- The same for an event that RUN and FILTER let count. -/
theorem pmcEvent_regs (s : State) (page code k : Nat) (ctx : Option Nat) (a : Nat) (h : a ≠ page + 0xF04)
    (g : a < page + 0xF40 ∨ page + 0xF80 ≤ a) : mget (pmcEvent s page code k ctx).regs a = mget s.regs a := by
  unfold pmcEvent
  dsimp only
  split
  · rfl
  · split
    · rfl
    · exact pmcBump_regs s page code k 8 a (by omega) h g

theorem reg_pmcEvent (s : State) (page code k : Nat) (ctx : Option Nat) (r : RegDef) (i : Nat) (h : r.at_ i ≠ page + 0xF04)
    (g : r.at_ i < page + 0xF40 ∨ page + 0xF80 ≤ r.at_ i) : reg (pmcEvent s page code k ctx) r i = reg s r i :=
  reg_of_regs (pmcEvent_regs s page code k ctx _ h g)

end Sys2Proof.Machine
end

