-- ==== Sys2Proof/Laws/Issue.lean ====
section
/-! SUPPORT. What the issue of a lane instruction does, once for all of them. -/

namespace Sys2Proof.Machine

/-! ### Cores and groups -/

@[simp] theorem coreOf_modCore (s : State) (c : Nat) (f : CoreSt → CoreSt) : coreOf (modCore s c f) c = f (coreOf s c) := by
  simp [coreOf, modCore]

theorem coreOf_modCore_ne (s : State) {c d : Nat} (f : CoreSt → CoreSt) (h : d ≠ c) : coreOf (modCore s c f) d = coreOf s d := by
  simp [coreOf, modCore, mgetD_mset_ne _ _ _ h]

@[simp] theorem coreOf_modGroup (s : State) (c slot : Nat) (f : Group → Group) :
    coreOf (modGroup s c slot f) c = { coreOf s c with groups := mmod (coreOf s c).groups slot f } := by
  simp [modGroup]

theorem coreOf_modGroup_ne (s : State) {c d : Nat} (slot : Nat) (f : Group → Group) (h : d ≠ c) :
    coreOf (modGroup s c slot f) d = coreOf s d := by
  simp [modGroup, coreOf_modCore_ne s _ h]

@[simp] theorem groupOf_modGroup (s : State) (c slot : Nat) (f : Group → Group) :
    groupOf (modGroup s c slot f) c slot = (groupOf s c slot).map f := by
  simp [groupOf]

theorem groupOf_modGroup_ne (s : State) (c : Nat) {slot j : Nat} (f : Group → Group) (h : j ≠ slot) :
    groupOf (modGroup s c slot f) c j = groupOf s c j := by
  simp [groupOf, mget_mmod_ne _ _ h]

@[simp] theorem coreCyc_modCore (s : State) (c d : Nat) (f : CoreSt → CoreSt) : coreCyc (modCore s c f) d = coreCyc s d := rfl

@[simp] theorem coreCyc_modGroup (s : State) (c slot d : Nat) (f : Group → Group) :
    coreCyc (modGroup s c slot f) d = coreCyc s d := rfl

/-! ### The outcome of an issue -/

theorem Issues.run {s : State} {gr : GroupRef} {g : Group} {i : Instr} (h : Issues s gr g i)
    (body : State → Group → LaneRes) :
    issue gr i body s = .next (match body s g with
      | .fault code lane => groupFaultAt s gr.core gr.slot g.cmd g.pc code lane
      | .stall s => s
      | .done s => setPc (noteIssue s gr i) gr (g.pc + wordsOf i)
      | .jump s' target counts =>
        if noProgress g target counts then groupFaultAt s gr.core gr.slot g.cmd g.pc Code.groupNoProgress 0
        else takeJump (noteIssue s' gr i) gr g target counts) := by
  unfold issue
  rw [if_pos h.chosen, h.resident]
  dsimp only
  congr 1
  unfold runInstr
  rcases h.fetched with e | ⟨j, w, e⟩ <;> simp only [e, h.legal] <;> rfl

theorem Issues.done {s : State} {gr : GroupRef} {g : Group} {i : Instr} (h : Issues s gr g i)
    {body : State → Group → LaneRes} {t : State} (e : body s g = .done t) :
    issue gr i body s = .next (setPc (noteIssue t gr i) gr (g.pc + wordsOf i)) := by
  rw [h.run, e]

theorem Issues.faults {s : State} {gr : GroupRef} {g : Group} {i : Instr} (h : Issues s gr g i)
    {body : State → Group → LaneRes} {code lane : Nat} (e : body s g = .fault code lane) :
    issue gr i body s = .next (groupFaultAt s gr.core gr.slot g.cmd g.pc code lane) := by
  rw [h.run, e]

/-- An issue changes its group as the effect says and marks it; nothing else of the group changes. -/
theorem groupOf_noteIssue {s : State} {gr : GroupRef} {i : Instr} {x : Group} (h : groupOf s gr.core gr.slot = some x) :
    groupOf (noteIssue s gr i) gr.core gr.slot =
      some { x with lastIssue := coreCyc s gr.core + 1, eligAt := none, sb := x.sb ++ owes s gr i } := by
  unfold noteIssue
  dsimp only
  rw [show ∀ (a : State) p c k x, groupOf (pmcEvent a p c k x) gr.core gr.slot = groupOf a gr.core gr.slot from
    fun a p c k x => by simp [groupOf, coreOf]]
  simp only [groupOf_modGroup]
  have h' : mget (coreOf s gr.core).groups gr.slot = some x := h
  simp only [groupOf, coreOf_modCore, h', Option.map_some, owes]
  all_goals (cases costOf i <;> rfl)

/-! ### What an issue leaves alone -/

theorem coreOnly_refl (s : State) (gr : GroupRef) : CoreOnly s s gr :=
  ⟨rfl, fun _ _ => rfl, ⟨_, _, _, _, rfl⟩, fun _ _ => rfl, fun _ _ => rfl⟩

theorem coreOnly_modGroup {s t : State} {gr : GroupRef} (h : CoreOnly s t gr) (f : Group → Group) :
    CoreOnly s (modGroup t gr.core gr.slot f) gr := by
  obtain ⟨h1, h2, ⟨a, b, c, d, h3⟩, h4, h5⟩ := h
  refine ⟨?_, fun e he => ?_, ⟨mmod a gr.slot f, b, c, d, ?_⟩, fun sl hs => ?_, h5⟩
  · rw [h1]; rfl
  · rw [coreOf_modGroup_ne _ _ _ he, h2 e he]
  · rw [coreOf_modGroup, h3]
  · rw [groupOf_modGroup_ne _ _ _ hs, h4 sl hs]

theorem coreOnly_modCore {s t : State} {gr : GroupRef} (h : CoreOnly s t gr) (issuedAt lastIssuer units : CoreSt → NMap Nat) :
    CoreOnly s (modCore t gr.core fun k =>
      { k with issuedAt := issuedAt k, lastIssuer := lastIssuer k, units := units k }) gr := by
  obtain ⟨h1, h2, ⟨a, b, c, d, h3⟩, h4, h5⟩ := h
  refine ⟨?_, fun e he => ?_, ⟨a, issuedAt (coreOf t gr.core), lastIssuer (coreOf t gr.core),
    units (coreOf t gr.core), ?_⟩, fun sl hs => ?_, h5⟩
  · rw [h1]; rfl
  · rw [coreOf_modCore_ne _ _ he, h2 e he]
  · rw [coreOf_modCore, h3]
  · rw [← h4 sl hs]; simp [groupOf]

theorem coreOnly_pmc {s t : State} {gr : GroupRef} (h : CoreOnly s t gr) (code k : Nat) (ctx : Option Nat) :
    CoreOnly s (pmcEvent t (pgCORE gr.core) code k ctx) gr := by
  obtain ⟨h1, h2, ⟨a, b, c, d, h3⟩, h4, h5⟩ := h
  refine ⟨?_, fun e he => ?_, ⟨a, b, c, d, ?_⟩, fun sl hs => ?_, fun x hx => ?_⟩
  · obtain ⟨r, hr⟩ := pmcEvent_changes t (pgCORE gr.core) code k ctx
    rw [hr, h1]
  · simpa [coreOf] using h2 e he
  · simpa [coreOf] using h3
  · simpa [groupOf, coreOf] using h4 sl hs
  · rw [pmcEvent_regs _ _ _ _ _ _ (by omega) (by omega), h5 x hx]

theorem coreOnly_noteIssue {s t : State} {gr : GroupRef} (h : CoreOnly s t gr) (i : Instr) :
    CoreOnly s (noteIssue t gr i) gr := by
  unfold noteIssue
  exact coreOnly_pmc (coreOnly_modGroup (coreOnly_modCore h _ _ _) _) _ _ _

theorem coreOnly_setPc {s t : State} {gr : GroupRef} (h : CoreOnly s t gr) (n : Nat) : CoreOnly s (setPc t gr n) gr :=
  coreOnly_modGroup h _

theorem coreOnly_takeJump {s t : State} {gr : GroupRef} (h : CoreOnly s t gr) (g : Group) (target : Nat) (counts : Bool) :
    CoreOnly s (takeJump t gr g target counts) gr := by
  unfold takeJump
  exact coreOnly_modGroup (coreOnly_setPc (coreOnly_pmc h _ _ _) _) _

/-! ### An effect on the group alone -/

/-- It issues, the group goes on as the effect says, and nothing outside the group changes. -/
theorem issued_onGroup {s : State} {gr : GroupRef} {g : Group} (i : Instr) (f : Group → Group) (n : Nat)
    (h : groupOf s gr.core gr.slot = some g) :
    IssuedAs s (setPc (noteIssue (modGroup s gr.core gr.slot f) gr i) gr n) gr i { f g with pc := n % 2 ^ 32 } ∧
      CoreOnly s (setPc (noteIssue (modGroup s gr.core gr.slot f) gr i) gr n) gr := by
  have hx : groupOf (modGroup s gr.core gr.slot f) gr.core gr.slot = some (f g) := by simp [h]
  refine ⟨?_, coreOnly_setPc (coreOnly_noteIssue (coreOnly_modGroup (coreOnly_refl s gr) f) i) n⟩
  unfold IssuedAs setPc
  rw [groupOf_modGroup, groupOf_noteIssue hx]
  rfl

theorem Issues.onGroup {s : State} {gr : GroupRef} {g : Group} {i : Instr} (h : Issues s gr g i) (f : Group → Group) :
    ∃ t, issue gr i (onGroup gr f) s = .next t ∧
      IssuedAs s t gr i { f g with pc := goesOn g i } ∧ CoreOnly s t gr :=
  ⟨_, h.done rfl, issued_onGroup i f _ h.resident⟩

/-- An effect that changes nothing but what the issue itself marks. -/
theorem issued_same {s t : State} {gr : GroupRef} {x : Group} (i : Instr) (n : Nat) (h : groupOf t gr.core gr.slot = some x)
    (c : CoreOnly s t gr) :
    IssuedAs s (setPc (noteIssue t gr i) gr n) gr i { x with pc := n % 2 ^ 32 } ∧
      CoreOnly s (setPc (noteIssue t gr i) gr n) gr := by
  refine ⟨?_, coreOnly_setPc (coreOnly_noteIssue c i) n⟩
  have e : coreCyc t gr.core = coreCyc s gr.core := by unfold coreCyc; rw [c.1]
  unfold IssuedAs setPc
  rw [groupOf_modGroup, groupOf_noteIssue h]
  simp [owes, e]

theorem Issues.goesOn {s : State} {gr : GroupRef} {g : Group} {i : Instr} (h : Issues s gr g i)
    {body : State → Group → LaneRes} {t : State} {x : Group} (e : body s g = .done t) (q : exec i s = issue gr i body s)
    (r : groupOf t gr.core gr.slot = some x) (c : CoreOnly s t gr) : GoesOn s gr g i x :=
  ⟨_, q.trans (h.done e), issued_same i _ r c⟩

/-- A group fault at the issue. -/
theorem Issues.fault {s : State} {gr : GroupRef} {g : Group} {i : Instr} (h : Issues s gr g i)
    {body : State → Group → LaneRes} {code lane : Nat} (e : body s g = .fault code lane)
    (x : exec i s = issue gr i body s) : Faults s gr g i code lane := x.trans (h.faults e)

/-- A taken jump (R29, R40, R42). -/
theorem Issues.jumps {s : State} {gr : GroupRef} {g : Group} {i : Instr} (h : Issues s gr g i)
    {body : State → Group → LaneRes} {t : State} {x : Group} {target : Nat} {counts : Bool}
    (e : body s g = .jump t target counts) (q : exec i s = issue gr i body s)
    (r : groupOf t gr.core gr.slot = some x) (c : CoreOnly s t gr) : Jumps s gr g i target counts x := by
  refine ⟨fun n => ⟨takeJump (noteIssue t gr i) gr g target counts, ?_, ?_, ?_⟩, fun n => ?_⟩
  · rw [q, h.run, e]; simp [n]
  · have hn := groupOf_noteIssue (i := i) r
    have hp : ∀ (a : State) p c k x, groupOf (pmcEvent a p c k x) gr.core gr.slot = groupOf a gr.core gr.slot :=
      fun a p c k x => by simp [groupOf, coreOf]
    have ht : coreCyc t gr.core = coreCyc s gr.core := by unfold coreCyc; rw [c.1]
    have hc : coreCyc (noteIssue t gr i) gr.core = coreCyc s gr.core := by rw [← ht]; simp [noteIssue, coreCyc]
    unfold IssuedAs takeJump setPc
    dsimp only
    rw [groupOf_modGroup, groupOf_modGroup, hp, hn]
    unfold jumped
    simp only [Option.map_some, hc, owes, ht]
  · exact coreOnly_takeJump (coreOnly_noteIssue c i) g target counts
  · rw [q, h.run, e]; simp [n]

end Sys2Proof.Machine
end

