-- ==== Sys2Proof/Laws/Memory.lean ====
section
/-! SUPPORT. Memory: what a byte reads as after a store, and that every operation keeps the canonical form. -/

namespace Sys2Proof.Machine

/-! ### The canonical form -/

/-- A list that is canonical above a bound is canonical above a lower one, and above none. -/
theorem cellsWf_lower {lo : Option Nat} {m : List Host.Cell} (h : cellsWf lo m = true) :
    cellsWf none m = true ∧ ∀ k, (∀ l, lo = some l → k ≤ l) → lo ≠ none → cellsWf (some k) m = true := by
  cases m with
  | nil => simp [cellsWf]
  | cons e t =>
    obtain ⟨a, b⟩ := e
    cases lo with
    | none => simp_all [cellsWf]
    | some l =>
      simp only [cellsWf, Bool.and_eq_true, decide_eq_true_eq] at h ⊢
      refine ⟨⟨⟨trivial, h.1.2⟩, h.2⟩, fun k hk _ => ⟨⟨?_, h.1.2⟩, h.2⟩⟩
      have := hk l rfl; have := h.1.1; omega

theorem cellsWf_mset {lo : Option Nat} {m : List Host.Cell} (h : cellsWf lo m = true) {a : Nat} {b : Byte}
    (hb : b ≠ memDefault) (ha : ∀ l, lo = some l → l < a) : cellsWf lo (mset m a b) = true := by
  induction m generalizing lo with
  | nil => cases lo <;> simp_all [mset, cellsWf]
  | cons e t ih =>
    obtain ⟨k, c⟩ := e
    simp only [cellsWf, Bool.and_eq_true, decide_eq_true_eq] at h
    simp only [mset]
    split
    · rename_i hk
      simp only [cellsWf, Bool.and_eq_true, decide_eq_true_eq]
      exact ⟨⟨by cases lo <;> simp_all, hb⟩, ⟨hk, h.1.2⟩, h.2⟩
    · split
      · subst_vars
        simp only [cellsWf, Bool.and_eq_true, decide_eq_true_eq]
        exact ⟨⟨h.1.1, hb⟩, h.2⟩
      · simp only [cellsWf, Bool.and_eq_true, decide_eq_true_eq]
        exact ⟨h.1, ih h.2 (by intro l hl; cases hl; omega)⟩

theorem cellsWf_mdel {lo : Option Nat} {m : List Host.Cell} (h : cellsWf lo m = true) (a : Nat) :
    cellsWf lo (mdel m a) = true := by
  induction m generalizing lo with
  | nil => rfl
  | cons e t ih =>
    obtain ⟨k, c⟩ := e
    simp only [cellsWf, Bool.and_eq_true, decide_eq_true_eq] at h
    simp only [mdel]
    split
    · apply ih
      cases lo with
      | none => exact (cellsWf_lower h.2).1
      | some l => exact (cellsWf_lower h.2).2 l (by have := h.1.1; intro _ e; cases e; simp_all; omega) (by simp)
    · simp only [cellsWf, Bool.and_eq_true, decide_eq_true_eq]
      exact ⟨h.1, ih h.2⟩

theorem cellsWf_filter {lo : Option Nat} {m : List Host.Cell} (h : cellsWf lo m = true) (p : Host.Cell → Bool) :
    cellsWf lo (m.filter p) = true := by
  induction m generalizing lo with
  | nil => rfl
  | cons e t ih =>
    obtain ⟨k, c⟩ := e
    simp only [cellsWf, Bool.and_eq_true, decide_eq_true_eq] at h
    simp only [List.filter_cons]
    split
    · simp only [cellsWf, Bool.and_eq_true, decide_eq_true_eq]
      exact ⟨h.1, ih h.2⟩
    · apply ih
      cases lo with
      | none => exact (cellsWf_lower h.2).1
      | some l => exact (cellsWf_lower h.2).2 l (by have := h.1.1; intro _ e; cases e; simp_all; omega) (by simp)

theorem wf_memPut {m : List Host.Cell} (h : Memory.wf m = true) (a : Nat) (b : Byte) : Memory.wf (memPut m a b) = true := by
  unfold Memory.wf memPut at *
  split
  · exact cellsWf_mdel h a
  · exact cellsWf_mset h ‹_› (by simp)

theorem wf_putBytes {m : List Host.Cell} (h : Memory.wf m = true) (a : Nat) (d : List Byte) :
    Memory.wf (putBytes m a d) = true := by
  induction d generalizing m a with
  | nil => exact h
  | cons b t ih => exact ih (wf_memPut h a b) (a + 1)

theorem wf_putMasked {m : List Host.Cell} (h : Memory.wf m = true) (a i : Nat) (mask : BitVec 128) (d : List Byte) :
    Memory.wf (putMasked m a i mask d) = true := by
  induction d generalizing m a i with
  | nil => exact h
  | cons b t ih =>
    simp only [putMasked]
    split
    · exact ih (wf_memPut h a b) _ _
    · exact ih h _ _

theorem wf_filter {m : List Host.Cell} (h : Memory.wf m = true) (p : Host.Cell → Bool) : Memory.wf (m.filter p) = true :=
  cellsWf_filter h p

theorem wf_copyCells {m : List Host.Cell} (h : Memory.wf m = true) (src dst n : Nat) :
    Memory.wf (copyCells m src dst n) = true := by
  suffices k : ∀ (l acc : List Host.Cell), Memory.wf acc = true →
      Memory.wf (l.foldl (fun acc c => memPut acc (c.1 - src + dst) c.2) acc) = true from
    k _ _ (wf_filter h _)
  intro l
  induction l with
  | nil => exact fun _ h => h
  | cons c t ih => exact fun acc h => ih _ (wf_memPut h _ _)

theorem wf_atomsOn {m : List Host.Cell} (h : Memory.wf m = true) (sector op : Nat) (l : List (Nat × DWord × DWord)) :
    Memory.wf (atomsOn m sector op l).2 = true := by
  induction l generalizing m with
  | nil => exact h
  | cons e t ih => exact ih (wf_putBytes h _ _)

theorem wf_reduceOn {m : List Host.Cell} (h : Memory.wf m = true) (a op : Nat) (d : List Byte) :
    Memory.wf (reduceOn m a op d) = true := by
  simp only [reduceOn]
  generalize List.range (d.length / aopSize op) = l
  induction l generalizing m with
  | nil => exact h
  | cons k t ih =>
    rw [List.foldl_cons]
    exact ih (wf_putBytes h _ _)

/-! ### What a byte reads as -/

/-- A byte of memory after a byte has been stored. -/
theorem memGet_memPut (m : List Host.Cell) (a : Nat) (b : Byte) (j : Nat) :
    memGet (memPut m a b) j = if j = a then b else memGet m j := by
  unfold memGet memPut mgetD
  split
  · by_cases e : j = a
    · subst e; simp [*]
    · simp [mget_mdel_ne m e, e]
  · by_cases e : j = a <;> simp [mget_mset, e]

/-- A byte of memory after bytes have been stored from an address on. -/
theorem memGet_putBytes {m : List Host.Cell} (h : Memory.wf m = true) (a : Nat) (d : List Byte) (j : Nat) :
    memGet (putBytes m a d) j = if a ≤ j ∧ j < a + d.length then d.getD (j - a) 0 else memGet m j := by
  induction d generalizing m a with
  | nil => rw [if_neg (by simp)]; rfl
  | cons b t ih =>
    simp only [putBytes]
    rw [ih (wf_memPut h a b) (a + 1), memGet_memPut]
    simp only [List.length_cons]
    by_cases e : j = a
    · subst e; simp
    · by_cases r : a ≤ j ∧ j < a + (t.length + 1)
      · obtain ⟨n, hn⟩ : ∃ n, j - a = n + 1 := ⟨j - a - 1, by omega⟩
        rw [if_pos (by omega), if_pos r, hn, show j - (a + 1) = n by omega]; simp
      · rw [if_neg (by omega), if_neg e, if_neg r]

end Sys2Proof.Machine
end

