-- ==== Sys2Proof/Tests/Slice0.lean ====
section
/-! SUPPORT. Tests: ill-formed commands that WellFormed refuses, words written out from the encoding tables, single steps whose
results the spec's own rules fix, and for the statements about the module a state that meets their hypotheses, clause by
clause. -/

namespace Sys2Proof.Tests

set_option Elab.async false

open Sys2Proof.Machine

/-! ### A small module: one core, one group, code at 0x10000000 -/

def tDesc : Descriptor :=
  { cmdId := 7#64, codeVa := 0x10000000, argVa := 0#64, saveptVa := 0, threads := 32, scratch := 65536, vregs := 16,
    setSize := 1, maxCores := 1, isMatrix := false, isGang := false, notBefore := 0, gangId := 0, gangMembers := 0,
    gangLeader := 0, gangWait := 0, sigValid := false, sigFence := 0, sigValue := 0, waits := [], ranges := [], rsv := false,
    saveCount := 0 }

def tCmd : Cmd :=
  { queue := 0, pos := 0, slots := 1, ctx := 0, tenant := 0, cls := 0, d := tDesc, phase := .running, untranslated := [],
    claims := [], extra := [], got := [], busyEnds := 0, replayable := true, objs := [], tag := some 0, part := none,
    cores := [0], nextGroup := 1, liveGroups := 1, turn := 0, begun := [0], kills := 0, startFt := 0, dispatchedAt := 0,
    resumedAt := 0, invalid := 0, overflow := 0, amax := 0, bytes := 0, energy := 0, touchedNodes := [], heldFor := none,
    dispatched := true, why := none, saved := [], saveBytes := 0, seq := none, released := false, asked := none,
    readySent := false, trapped := false }

def tDom : Dom := { Dom.fresh with mhz := 3600, cyc := 100000 }

/-- A full group at index 4: V0 counts the lanes up by 4 bytes, V1 is all ones, P1 holds the even lanes, P2 none. -/
def tGroup : Group :=
  { cmd := 0, index := 0, set := 0, rows := 8, nreg := 16, pc := 4, launch := 0xFFFFFFFF, am := 0xFFFFFFFF, exited := 0,
    v := [(0, (List.range 32).map fun l => BitVec.ofNat 32 (4 * l)), (1, List.replicate 32 0xFFFFFFFF#32)],
    s := [(1, 1024#64), (2, 0xFFFFFFFFFFFFFFFF#64), (3, 8#64)], p := [(1, 0x55555555#32)], stack := [], ser := none, fpc := 0,
    fpLimit := 100, lmode := 1, sb := [], penalty := none, wait := .none, halt := .run, tokens := [], lastIssue := 0,
    eligAt := none, ended := false }

def tRef : GroupRef := ⟨0, 0⟩

/-- The group resident in slot 0 of core 0, `w0` and `w1` the words at its index. -/
def tWords (g : Group) (w0 w1 : DWord) : State :=
  let s := State.reset
  let m := putBytes (putBytes [] (0x40000000 + 8 * g.pc) (leBytes 8 w0.toNat)) (0x40000000 + 8 * g.pc + 8) (leBytes 8 w1.toNat)
  let k := { CoreSt.fresh with groups := [(0, g)], allocs := [(0, ⟨[0]⟩)] }
  let x := { s.xlt with cache :=
    [{ ctx := 0, va := 0x10000000, size := 2097152, back := .inl (.inPlace 0x40000000), w := false, nx := false },
     { ctx := 0, va := 0, size := 2097152, back := .inl (.inPlace 0x200000), w := true, nx := true }] }
  { s with now := 100000, mem := m, cores := [(0, k)], xlt := x, bdl := { s.bdl with doms := [(0, tDom)] },
           cmds := [(0, tCmd)] }

/-- The same with the words of an instruction. -/
def tLane (g : Group) (i : Instr) : State :=
  match encodeLane i with
  | some (_, w0, w1) => tWords g w0 (w1.getD 0)
  | none => State.reset

/-- `Issues`, decided. -/
def issuesB (s : State) (g : Group) (i : Instr) : Bool :=
  groupOf s 0 0 == some g && canIssue s tRef i && legalInstr (declared g) i &&
  match nextOf s 0 0 g with
  | .outside => true
  | .instr _ _ => true
  | _ => false

theorem issues_of_issuesB {s : State} {g : Group} {i : Instr} (h : issuesB s g i = true) : Issues s tRef g i := by
  simp only [issuesB, Bool.and_eq_true, beq_iff_eq] at h
  obtain ⟨⟨⟨h1, h2⟩, h3⟩, h4⟩ := h
  refine ⟨h1, h2, ?_, h3⟩
  cases hn : nextOf s 0 0 g with
  | outside => exact .inl hn
  | instr j w => exact .inr ⟨j, w, hn⟩
  | walk va => rw [hn] at h4; cases h4
  | bad c => rw [hn] at h4; cases h4

/-! ### Every lane instruction issues somewhere -/

def fR (typ : BitVec 4) : FmtR :=
  { pred := 1, dst := 2, a := 0, b := 1, c := 0xFF, typ, sat := false, rnd := 0, ka := 0, kb := 0, kc := 0, rsv := 0, wide := none }
def fR1 (typ : BitVec 4) : FmtR := { fR typ with b := 0xFF }
def fR3 (typ : BitVec 4) : FmtR := { fR typ with c := 2 }
def fS (typ : BitVec 4) : FmtR := { fR typ with a := 1, b := 3, ka := 1, kb := 1 }
def fM (space : BitVec 2) : FmtM :=
  { pred := 1, data := 4, voff := 0, sbase := 1, nobase := false, wideoff := false, size := 2, space, hint := 0, sign := false,
    imm := 0, wide := none }
def fA (space : BitVec 2) : FmtA :=
  { w := false, pred := 1, dst := 4, voff := 0, sbase := 1, nobase := false, wideoff := false, src := 2, cmp := 0xFF,
    srck := false, cmpk := false, space, imm := 0 }
def fB (pred : BitVec 3) (k : BitVec 5) (target : Word) : FmtB := { w := false, pred, k, rsv := 0, target }
def fX (sbase sscale : BitVec 6) (wide : Option DWord) : FmtX :=
  { pred := 0, vdesc := 0xFF, sbase, sig := false, tok := 0, gather := false, sscale, noscale := false, rsv := 0, wide }

def vecExamples : List Instr :=
  let x := fR 3
  [.addI tRef x, .subI tRef x, .mulI tRef x, .madI tRef (fR3 3), .minI tRef x, .maxI tRef x, .and tRef x, .or tRef x,
   .xor tRef x, .andn tRef x, .shl tRef x, .shr tRef x, .sar tRef x, .ones tRef (fR1 3), .bitrev tRef (fR1 3),
   .lzc tRef (fR1 3), .pick tRef { fR 3 with c := 1 }, .movVs tRef { fR1 3 with a := 1, ka := 1 }, .xlaneAt tRef x,
   .xlaneUp tRef x, .xlaneDn tRef x, .xlaneFlip tRef x]

def floatExamples : List Instr :=
  let x := fR 0
  [.addF tRef x, .subF tRef x, .mulF tRef x, .madF tRef (fR3 0), .minF tRef x, .maxF tRef x, .minnumF tRef x, .maxnumF tRef x,
   .recip tRef (fR1 0), .rsqrt tRef (fR1 0), .exp2 tRef (fR1 0), .log2 tRef (fR1 0), .sin tRef (fR1 0), .cos tRef (fR1 0),
   .cvt tRef 3 (fR1 0), .cmpEq tRef (fR 3), .cmpNe tRef (fR 3), .cmpLt tRef (fR 3), .cmpLe tRef (fR 3), .cmpGt tRef (fR 3),
   .cmpGe tRef (fR 3), .pcombAnd tRef (fR 3), .pcombOr tRef (fR 3), .pcombXor tRef (fR 3), .pcombAndn tRef (fR 3),
   .pcombNot tRef (fR1 3)]

def scalarExamples : List Instr :=
  let x := fS 5
  [.addS tRef x, .subS tRef x, .mulS tRef x, .shlS tRef x, .shrS tRef x, .sarS tRef x, .andS tRef x, .orS tRef x, .xorS tRef x,
   .movSv tRef { fR 3 with b := 3, kb := 1 }, .getmode tRef { fR1 3 with a := 0xFF }, .pmask tRef (fR1 3), .gredAdd tRef (fR1 3),
   .gredMin tRef (fR1 3), .gredMax tRef (fR1 3), .setmode tRef { fR1 3 with a := 3, ka := 2, dst := 0xFF },
   .cvtBlkEnc tRef { fR 2 with pred := 0, b := 3, kb := 1 }, .cvtBlkDec tRef { fR 2 with pred := 0, b := 3, kb := 1 }]

def memExamples (space : BitVec 2) : List Instr :=
  let m := fM space
  let a := fA space
  [.ld tRef m, .st tRef m, .prefetch tRef { m with data := 0xFF }, .ldsc tRef { m with voff := 0xFF }, .atomAddI32 tRef a,
   .atomAddI64 tRef a, .atomAddF32 tRef a, .atomAddF16x2 tRef a, .atomMinI32 tRef a, .atomMaxI32 tRef a, .atomMinF32 tRef a,
   .atomMaxF32 tRef a, .atomSwap32 tRef a, .atomSwap64 tRef a, .atomCas64 tRef { a with cmp := 6 }]

def controlExamples : List Instr :=
  [.bra tRef (fB 0 0 9), .braAny tRef (fB 1 0 9), .braAll tRef (fB 1 0 9), .pushm tRef (fB 1 0 9), .elsem tRef (fB 0 0 9),
   .popm tRef (fB 0 0 0), .andm tRef (fB 1 1 0), .exit tRef (fB 1 0 0), .serBegin tRef (fB 0 0 0), .serEnd tRef (fB 0 0 0),
   .call tRef (fB 0 0 9), .ret tRef (fB 0 0 0), .barArrive tRef (fB 0 0 1), .barWait tRef (fB 0 0 1), .barSync tRef (fB 0 0 1),
   .savept tRef (fB 0 0 1), .fence tRef { w := false, pred := 0, scope := 0, rsv := 0 }]

def mxExamples : List Instr :=
  [.mxLdw tRef (fX 1 3 (some 0x20000000)), .mxLdwReorient tRef (fX 0x3F 0x3F (some 0)), .mxSwap tRef (fX 0x3F 0x3F none),
   .mxStream tRef (fX 1 3 (some 0)), .mxDrain tRef (fX 1 3 (some 0)), .mxWaitQ tRef (fX 0x3F 0x3F none),
   .mxWaitG tRef (fX 0x3F 0x3F none)]

/-- The examples issue in the small module. -/
def allIssue (g : Group) (l : List Instr) : Bool := l.all fun i => issuesB (tLane g i) g i

theorem witness_vector_instructions : allIssue tGroup vecExamples = true := by decide +kernel
theorem witness_float_instructions : allIssue tGroup floatExamples = true := by decide +kernel
theorem witness_scalar_instructions : allIssue tGroup scalarExamples = true := by decide +kernel
theorem witness_memory_instructions :
    allIssue tGroup (memExamples 0) = true ∧ allIssue tGroup (memExamples 1) = true := by decide +kernel
theorem witness_control_instructions : allIssue tGroup controlExamples = true := by decide +kernel
theorem witness_mx_instructions : allIssue tGroup mxExamples = true := by decide +kernel

/-- What the tables of examples say, as the statements' own hypothesis. -/
theorem issues_of_allIssue {g : Group} {l : List Instr} (h : allIssue g l = true) :
    ∀ i ∈ l, Issues (tLane g i) tRef g i := fun i hi =>
  issues_of_issuesB (List.all_eq_true.mp h i hi)

/-- `i` issues from `g`, and `p` holds of the state: the hypotheses of one clause. -/
def clause (g : Group) (i : Instr) (p : State → Bool) : Bool := issuesB (tLane g i) g i && p (tLane g i)

/-- A MARKED save of the command, which has two save points, is pending. -/
def tMarked (s : State) : State :=
  modCmd { s with sch := { s.sch with ctxCfg := [(0, 16)] } } 0 fun c =>
    { c with phase := .saving 0, d := { c.d with saveptVa := 0x1000, saveCount := 2 } }

def tEntry : StackEntry := ⟨0xFFFFFFFF, 0xAAAAAAAA, 9⟩
/-- One mask pushed: the even lanes are active. -/
def gPushed : Group := { tGroup with am := 0x55555555, stack := [tEntry] }
/-- In a SER region at lane 5 of the lane set, at its own depth. -/
def gSer : Group := { tGroup with am := 0x20, ser := some ⟨0xFFFFFFFF, 5, 3, 0⟩ }
/-- A group whose forward-progress count stands at its limit. -/
def gStuck : Group := { tGroup with fpc := 99 }

/-- Compares, scalars and modes: a mask with lanes and one without; a destination of P0; a reserved RND (R24, R79). -/
theorem witness_masks_of_register_instructions :
    (clause tGroup (.cmpEq tRef { fR 3 with dst := 0 }) fun _ => true)
      ∧ (clause tGroup (.addS tRef (fS 5)) fun _ => tGroup.eff 1 != 0)
      ∧ (clause tGroup (.addS tRef { fS 5 with pred := 2 }) fun _ => tGroup.eff 2 == 0)
      ∧ (clause tGroup (.setmode tRef { fR1 3 with a := 0, ka := 2, dst := 0xFF }) fun _ => true)
      ∧ (clause tGroup (.setmode tRef { fR1 3 with a := 6, ka := 2, dst := 0xFF }) fun _ => true)
      ∧ (clause tGroup (.setmode tRef { fR1 3 with pred := 2, a := 5, ka := 2, dst := 0xFF }) fun _ => true)
      ∧ (clause tGroup (.cvtBlkEnc tRef { fR 2 with pred := 0, b := 3, kb := 1 }) fun _ => tGroup.eff 0 == 0xFFFFFFFF)
      ∧ (clause tGroup (.cvtBlkDec tRef { fR 2 with b := 3, kb := 1 }) fun _ => tGroup.eff 1 != 0xFFFFFFFF) := by
  decide +kernel

/-- Jumps: taken forward, taken backward at the limit, not taken; calls. -/
theorem witness_jumps :
    (clause tGroup (.bra tRef (fB 0 0 9)) fun _ => !noProgress tGroup 9 true)
      ∧ (clause gStuck (.bra tRef (fB 0 0 4)) fun _ => noProgress gStuck 4 true)
      ∧ (clause tGroup (.braAny tRef (fB 2 0 9)) fun _ => tGroup.am &&& tGroup.preg 2 == 0)
      ∧ (clause tGroup (.braAll tRef (fB 1 0 9)) fun _ => tGroup.am &&& ~~~(tGroup.preg 1) != 0)
      ∧ (clause tGroup (.braAll tRef (fB 0 0 9)) fun _ => true)
      ∧ (clause tGroup (.call tRef (fB 0 0 0)) fun _ => !noProgress tGroup 0 false)
      ∧ (clause tGroup (.ret tRef (fB 0 0 0)) fun _ => true) := by decide +kernel

/-- The mask stack at depths 0, 1, 31 and 32, entries with and without pending lanes, ANDM beyond the depth and beyond a SER
region. -/
theorem witness_mask_stack :
    (let g := { tGroup with stack := List.replicate 32 tEntry }
     clause g (.pushm tRef (fB 1 0 9)) fun _ => decide (32 ≤ g.stack.length))
      ∧ (let g := { tGroup with stack := List.replicate 31 tEntry }
         clause g (.pushm tRef (fB 1 0 9)) fun _ => g.am &&& g.preg 1 != 0)
      ∧ (clause tGroup (.pushm tRef (fB 2 0 9)) fun _ => tGroup.am &&& tGroup.preg 2 == 0)
      ∧ (clause tGroup (.elsem tRef (fB 0 0 9)) fun _ => tGroup.stack.isEmpty)
      ∧ (clause gPushed (.elsem tRef (fB 0 0 9)) fun _ => tEntry.pending != 0)
      ∧ (let g := { gPushed with stack := [{ tEntry with pending := 0 }] }
         clause g (.elsem tRef (fB 0 0 9)) fun _ => true)
      ∧ (clause tGroup (.popm tRef (fB 0 0 0)) fun _ => tGroup.stack.isEmpty)
      ∧ (clause gPushed (.popm tRef (fB 0 0 0)) fun _ => true)
      ∧ (clause gPushed (.andm tRef (fB 1 2 0)) fun _ => andmBad gPushed 2)
      ∧ (clause gPushed (.andm tRef (fB 1 1 0)) fun _ => !andmBad gPushed 1 && gPushed.am &&& gPushed.preg 1 != 0)
      ∧ (clause gPushed (.andm tRef (fB 2 1 0)) fun _ => !andmBad gPushed 1 && gPushed.am &&& gPushed.preg 2 == 0) := by
  decide +kernel

/-- EXIT: within a SER region; some lanes left; the active ones all gone with others pending; all gone. -/
theorem witness_exit :
    (clause gSer (.exit tRef (fB 0 0 0)) fun _ => gSer.ser.isSome)
      ∧ (clause tGroup (.exit tRef (fB 1 0 0)) fun _ => tGroup.am &&& ~~~(tGroup.am &&& tGroup.preg 1) != 0)
      ∧ (clause gPushed (.exit tRef (fB 0 0 0)) fun _ => gPushed.launch &&& ~~~gPushed.am != 0)
      ∧ (clause tGroup (.exit tRef (fB 0 0 0)) fun _ => tGroup.launch &&& ~~~tGroup.am == 0) := by decide +kernel

/-- SER regions: nested; begun; an end outside, at another depth, with a lane left, with none left. -/
theorem witness_ser :
    (clause gSer (.serBegin tRef (fB 0 0 0)) fun _ => true) ∧ (clause tGroup (.serBegin tRef (fB 0 0 0)) fun _ => true)
      ∧ (clause tGroup (.serEnd tRef (fB 0 0 0)) fun _ => tGroup.ser.isNone)
      ∧ (let g := { gSer with stack := [tEntry] }
         clause g (.serEnd tRef (fB 0 0 0)) fun _ => g.stack.length != 0)
      ∧ (clause gSer (.serEnd tRef (fB 0 0 0)) fun _ => lowestFrom 0xFFFFFFFF 6 != 0)
      ∧ (let g := { gSer with am := 0x80000000, ser := some ⟨0xFFFFFFFF, 31, 3, 0⟩ }
         clause g (.serEnd tRef (fB 0 0 0)) fun _ => lowestFrom 0xFFFFFFFF 32 == 0) := by decide +kernel

/-- Barriers with a mask pushed, before and after the group's arrival; save points without a table, beyond one, in one. -/
theorem witness_barriers :
    (clause gPushed (.barArrive tRef (fB 0 0 1)) fun _ => barBad gPushed)
      ∧ (clause tGroup (.barSync tRef (fB 0 0 15)) fun s => !barBad tGroup && !(barOf s 0 tGroup 15).arrived.contains 0)
      ∧ (let i := Instr.barWait tRef (fB 0 0 1)
         let s := modCore (tLane tGroup i) 0 fun k => { k with bars := [((setKey tGroup, 1), ⟨[0], 3⟩)] }
         issuesB s tGroup i && (barOf s 0 tGroup 1).arrived.contains 0)
      ∧ (clause tGroup (.savept tRef (fB 0 0 0xFFFF)) fun s => ((cmdOf s 0).map fun c => c.d.saveptVa) == some 0)
      ∧ (let i := Instr.savept tRef (fB 0 0 2)
         let s := modCmd (tLane tGroup i) 0 fun c => { c with d := { c.d with saveptVa := 0x1000, saveCount := 2 } }
         issuesB s tGroup i && (cmdOf s 0).any fun c => c.d.saveptVa != 0 && decide (c.d.saveCount ≤ 2))
      ∧ (let i := Instr.savept tRef (fB 0 0 1)
         let s := modCmd (tLane tGroup i) 0 fun c => { c with d := { c.d with saveptVa := 0x1000, saveCount := 2 } }
         issuesB s tGroup i && (cmdOf s 0).any fun c => c.d.saveptVa != 0 && decide (1 < c.d.saveCount) && !markPending s c)
      ∧ (let i := Instr.savept tRef (fB 0 0 1)
         let s := tMarked (tLane tGroup i)
         issuesB s tGroup i && !arrayOwed s 0 0 && (cmdOf s 0).any fun c => decide (1 < c.d.saveCount) && markPending s c)
      ∧ (let i := Instr.savept tRef (fB 0 0 1)
         let q : ArrCmd := { id := 0, kind := .swap, cmd := 0, slot := 0, f := fX 0x3F 0x3F none, base := 0, scale := 0, gather := [],
                             need := 0, sig := 0, at_ := 0, old := [] }
         let s := modCore (tMarked (tLane tGroup i)) 0 fun k => { k with arr := { k.arr with queue := [q] } }
         issuesB s tGroup i && arrayOwed s 0 0 && (cmdOf s 0).any fun c => decide (1 < c.d.saveCount) && markPending s c) := by
  decide +kernel

/-- Fences of each scope, MX.WAIT.G with its commands complete and not, of a divergent group; an undefined word. -/
theorem witness_fences_and_undefined_words :
    (clause tGroup (.fence tRef { w := false, pred := 0, scope := 2, rsv := 0 }) fun s => (coreOf s 0).mbuf.isEmpty)
      ∧ (clause tGroup (.mxWaitG tRef (fX 0x3F 0x3F none)) fun _ => !mxDivergent tGroup (fX 0x3F 0x3F none))
      ∧ (let g := { tGroup with tokens := [(0, ⟨2, 1, [1]⟩)] }
         clause g (.mxWaitG tRef (fX 0x3F 0x3F none)) fun _ => !mxDivergent g (fX 0x3F 0x3F none))
      ∧ (clause gPushed (.mxWaitG tRef (fX 0x3F 0x3F none)) fun _ => mxDivergent gPushed (fX 0x3F 0x3F none))
      ∧ (let s := tWords tGroup 0x7F01000000000000#64 0
         groupOf s 0 0 == some tGroup && canIssue s tRef (.illegalInstruction tRef 0x7F01000000000000#64)
           && match nextOf s 0 0 tGroup with | .instr _ _ => true | _ => false) := by decide +kernel

/-- Scratchpad: every lane aligned and inside; a misaligned lane; the last word inside and the first outside. -/
theorem witness_scratchpad_accesses :
    (let f := fM 1
     let as := laneAddrs (tGroup.eff f.pred) (addrM tGroup f)
     (clause tGroup (.ld tRef f) fun s => !as.isEmpty && (misalignedLane 4 as).isNone
        && as.all fun a => decide (a.2 + 4 ≤ allocBytes (coreOf s 0) 0))
       ∧ (clause tGroup (.st tRef f) fun _ => (as.filterMap fun a => goSlot a.2 4).isEmpty))
      ∧ (let f := { fM 1 with size := 4, data := 4 }
         clause tGroup (.st tRef f) fun _ =>
           (misalignedLane 16 (laneAddrs (tGroup.eff f.pred) (addrM tGroup f))).isSome)
      ∧ (let g := { tGroup with s := [(1, 65536 - 120)], am := 0x80000000 }
         let f := { fM 1 with pred := 0, imm := 0 }
         clause g (.ld tRef f) fun s => (laneAddrs (g.eff f.pred) (addrM g f)).any fun a =>
           decide (allocBytes (coreOf s 0) 0 < a.2 + 4))
      ∧ (let f := { fM 1 with voff := 0xFF, data := 4 }
         let va := (tGroup.base f.sbase f.nobase + offsetM f) % 2 ^ 64
         clause tGroup (.ldsc tRef f) fun s => tGroup.eff f.pred != 0 && va % 4 == 0
           && decide (va + 4 ≤ allocBytes (coreOf s 0) 0))
      ∧ (let as := laneAddrs (tGroup.eff 1) (addrA tGroup (fA 1) 4)
         clause tGroup (.atomAddI32 tRef (fA 1)) fun s => !as.isEmpty && (misalignedLane 4 as).isNone
           && as.all fun a => decide (a.2 + 4 ≤ allocBytes (coreOf s 0) 0))
      ∧ (let g := { tGroup with s := [(1, 2)] }
         clause g (.atomAddI32 tRef (fA 1)) fun _ =>
           (misalignedLane 4 (laneAddrs (g.eff 1) (addrA g (fA 1) 4))).isSome) := by decide +kernel

/-- The command is not replayable: its stores need no declaration (R306). -/
def notReplayable (s : State) : State := { s with cmds := [(0, { tCmd with replayable := false })] }

/-- Global memory: translated loads and stores, declared and not; an address of 2⁵⁷; an empty mask. -/
theorem witness_global_accesses :
    (let f := fM 0
     let as := laneAddrs (tGroup.eff f.pred) (addrM tGroup f)
     (clause tGroup (.ld tRef f) fun s => match place s (ctxOf s 0) 0 .read 4 as with
        | .ok l => (goneTarget s l).isNone && (copyingPair s 0 (pairsOf l)).isNone
            && !channelSent s tGroup 4 l && decide (coreReqs s 0 + (missLines (l.map (loadAcc s 0 tGroup 4 false))).length ≤ 256)
        | _ => false)
       ∧ (clause tGroup (.st tRef f) fun s => match place s (ctxOf s 0) 0 .write 4 as with
        | .ok l => undeclared s 0 l && (goneTarget s l).isNone
        | _ => false)
       ∧ (let s := notReplayable (tLane tGroup (.st tRef f))
          issuesB s tGroup (.st tRef f) && match place s (ctxOf s 0) 0 .write 4 as with
        | .ok l => !undeclared s 0 l && (goneTarget s l).isNone && (pairsOf l).isEmpty && l1On (coreOf s 0)
            && decide ((coreOf s 0).mbuf.length + newEntries (coreOf s 0) 0 (l.map fun e => e.2.2.line).eraseDups ≤ 64)
        | _ => false))
      ∧ (let g := { tGroup with s := [(1, 0x0200000000000000)] }
         clause g (.ld tRef (fM 0)) fun _ => (laneAddrs (g.eff 1) (addrM g (fM 0))).any fun a => decide (2 ^ 57 ≤ a.2))
      ∧ (clause tGroup (.st tRef { fM 0 with pred := 2 }) fun _ => tGroup.eff 2 == 0)
      ∧ (clause tGroup (.atomAddI32 tRef { fA 0 with pred := 2 }) fun _ => tGroup.eff 2 == 0) := by decide +kernel

/-- MX instructions: into a queue with room and into a full one; divergent; misaligned; outside the allocation. -/
theorem witness_matrix_commands :
    (let f := fX 1 3 (some 0x20000000)
     clause tGroup (.mxLdw tRef f) fun s => !mxDivergent tGroup f && (mxMisaligned .ldw f 1024 8 []).isNone
       && !mxOutside (coreOf s 0).arr (allocBytes (coreOf s 0) 0) .ldw f (scalarOff tGroup f.sbase) (scalarOff tGroup f.sscale) []
       && decide ((coreOf s 0).arr.queue.length < 16))
      ∧ (clause gPushed (.mxLdw tRef (fX 1 3 (some 0x20000000))) fun _ => mxDivergent gPushed (fX 1 3 (some 0x20000000)))
      ∧ (let f := fX 3 1 (some 0x20000000)
         clause tGroup (.mxLdw tRef f) fun _ => (mxMisaligned .ldw f (scalarOff tGroup f.sbase) 1024 []).isSome)
      ∧ (let g := { tGroup with s := [(1, 65536)] }
         let f := fX 1 3 (some 0x20000000)
         clause g (.mxLdw tRef f) fun s =>
           mxOutside (coreOf s 0).arr (allocBytes (coreOf s 0) 0) .ldw f (scalarOff g f.sbase) (scalarOff g f.sscale) [])
      ∧ (let i := Instr.mxSwap tRef (fX 0x3F 0x3F none)
         let q : ArrCmd := { id := 0, kind := .swap, cmd := 0, slot := 0, f := fX 0x3F 0x3F none, base := 0, scale := 0, gather := [],
                             need := 0, sig := 0, at_ := 0, old := [] }
         let s := modCore (tLane tGroup i) 0 fun k => { k with arr := { k.arr with queue := List.replicate 16 q } }
         issuesB s tGroup i && decide (16 ≤ (coreOf s 0).arr.queue.length)) := by decide +kernel

/-! ### A module that has booted -/

/-- Firmware serves, every unit is enabled and runs, the host port is up with the queue pairs of tenants 0 and 1, a long time
has passed. -/
def tMod : State :=
  let s := State.reset
  { s with
    now := 10 ^ 15, regs := [(Reg.hptPstat.base, 0x80000000#64)], cores := [(0, { CoreSt.fresh with groups := [(0, tGroup)] })],
    cmds := [(0, tCmd)], bdl := { s.bdl with doms := (List.range 16).map fun d => (d, tDom) },
    obj := { s.obj with qps := [(0, ⟨1, none, false⟩), (1, ⟨2, none, false⟩)] },
    boot := { s.boot with ready := true, serving := true, coreMask := 2 ^ 192 - 1, stackMask := 0xFFFF, portMask := 0xFFFF,
                          features := 1, stage := 6, identity := true },
    ftm := { s.ftm with running := true, q := 10 ^ 30 },
    mon := { s.mon with vaux := true, carPwrgd := true, pwrok := true } }

def onCore (f : CoreSt → CoreSt) : State := modCore tMod 0 f
def onGroup (f : Group → Group) : State := onCore fun k => { k with groups := [(0, f tGroup)] }
def onArr (f : ArrayState → ArrayState) : State := onCore fun k => { k with arr := f k.arr }
def onMs (f : MemSys → MemSys) : State := { tMod with ms := f tMod.ms }
def onCmd (f : Cmd → Cmd) : State := modCmd tMod 0 f
def withReg (s : State) (r : RegDef) (v : Nat) : State := setReg s r 0 v

def tLoad : LoadRec :=
  { core := 0, slot := 0, grp := 0, cmd := 0, hint := 0, dst := 2, sreg := false, size := 4, sign := false, accs := [], waits := [], hit := [], ready := 100000 }
def tAtom : AtomRec :=
  { core := 0, slot := 0, grp := 0, cmd := 0, lane := 3, op := 0, tgt := .hbm 0, opnd := 1, cmp := 0, dst := some 2, st := .done 5 }

/-- What ends a group's wait, due and one cycle early. -/
theorem witness_group_events :
    ((onGroup fun g => { g with penalty := some 100000 }).cores.any fun e => e.2.groups.any fun g =>
        g.2.penalty.any fun p => decide (p ≤ coreCyc tMod 0))
      ∧ coreCyc tMod 0 < 100001
      ∧ [(Res.v 2, Busy.until 100000)].any (sbDue (coreCyc tMod 0))
      ∧ loadReady (onMs fun m => { m with loads := [(4, tLoad)] }) tRef 4
      ∧ (mget (onMs fun m => { m with atoms := [(4, tAtom)] }).ms.atoms 4).any (fun a => a.st == .done 5)
      ∧ fenceMet (onGroup fun g => { g with wait := .fence 2 }) 0 tGroup 2
      ∧ fenceMet (onMs fun m => { m with atoms := [(4, { tAtom with st := .toReducer })] }) 0 tGroup 2 = false := by
  decide +kernel

/-- A slot to be freed, a launch that fits and one whose groups have all begun. -/
theorem witness_launch_and_leave :
    slotFreeReady (onGroup fun g => { g with ended := true }) tRef
      ∧ (let s := modCore (onCmd fun c => { c with nextGroup := 1, d := { c.d with threads := 64 } }) 0 fun k =>
           { k with allocs := [(0, ⟨[0]⟩)] }
         launchReady s 0 0 && (cmdOf s 0).any fun c => (setFits s 0 0 c).isSome)
      ∧ launchReady tMod 0 0 = false := by decide +kernel

def tMerge : MergeEntry :=
  { cmd := 0, line := .hbm 0, mask := 0xF, data := List.replicate 128 0, opened := 99744, groups := [0], hint := 0, sent := true }

/-- Scratchpad, banks, merging buffers and egress: due, and at the last cycle before. -/
theorem witness_scratchpad_and_buffers :
    scratchReady (onCmd fun c => { c with nextGroup := 0 }) 0 0
      ∧ (let s := onCore fun k => { k with groups := [], allocs := [(0, ⟨[0]⟩)] }
         scratchFreeable s 0 0) ∧ scratchFreeable (onCore fun k => { k with allocs := [(0, ⟨[0]⟩)] }) 0 0 = false
      ∧ promotable (onCore fun k => { k with bankWaits := [⟨3, 99984, none⟩] }) 0 3
      ∧ promotable (onCore fun k => { k with bankWaits := [⟨3, 99985, none⟩] }) 0 3 = false
      ∧ tMerge.opened + 256 ≤ coreCyc tMod 0 ∧ coreCyc tMod 0 < tMerge.opened + 257
      ∧ (let s := onCore fun k => { k with mbuf := [(5, tMerge)] }
         entryTaken s 0 tMerge && egressReady s 0 (.store 5))
      ∧ egressReady (onMs fun m => { m with atoms := [(4, { tAtom with st := .toEgress, tgt := .host 0 })] }) 0 (.atom 4) := by
  decide +kernel

def tArr (id : Nat) (kind : ArrKind) (wide : Option DWord) : ArrCmd :=
  { id, kind, cmd := 0, slot := 0, f := fX 1 3 wide, base := 0, scale := 0, gather := [], need := 0, sig := 0, at_ := 0, old := [] }
/-- FMT 2, and FMT 0, which is a double load. -/
def wLdw : DWord := 0x0800000020000000#64
def wDouble : DWord := 0x0000000020000000#64

/-- The load path: a single, a double and a re-orient that does not fit; completion at 108 and at 4 cycles and one cycle
before; SWAP's marker and its end. -/
theorem witness_weight_sets :
    (let q := tArr 0 .ldw (some wLdw)
     let s := onArr fun a => { a with queue := [q] }
     nextLdw (coreOf s 0).arr == some q && arrGoes s 0 q && ldwMayStart (coreOf s 0).arr 100000 q && !isDouble q)
      ∧ (let q := tArr 0 .ldw (some wDouble)
         let s := onArr fun a => { a with queue := [q] }
         nextLdw (coreOf s 0).arr == some q && ldwMayStart (coreOf s 0).arr 100000 q && isDouble q)
      ∧ (let q := tArr 0 .reorient (some 0)
         let s := onArr fun a => { a with queue := [q] }
         nextLdw (coreOf s 0).arr == some q && ldwMayStart (coreOf s 0).arr 100000 q && !reorientOk (coreOf s 0).arr q.f)
      ∧ (let q := tArr 0 .ldw (some wLdw)
         ldwDue (onArr fun a => { a with queue := [q], load := some ⟨0, 99892⟩ }) 0 == some q
           && ldwDue (onArr fun a => { a with queue := [q], load := some ⟨0, 99893⟩ }) 0 == none)
      ∧ (let q := tArr 0 .swap none
         let s := onArr fun a => { a with queue := [q] }
         nextFeed (coreOf s 0).arr == some q && arrGoes s 0 q && swapMayEnter s 0 q
           && swapDue (onArr fun a => { a with queue := [q], swaps := [(0, 99810)] }) 0 == some q
           && swapDue (onArr fun a => { a with queue := [q], swaps := [(0, 99811)] }) 0 == none) := by decide +kernel

def tRun (start done : Nat) : StreamRun := { id := 0, start, ramp := false, act := .cleared, shd := .cleared, done, limit := none }

/-- STREAM: it may start; with sets that are half of a double load it may not; a row due at 203 cycles and one cycle before; its
end; the array idle and ramping; MX.WAIT.Q. -/
theorem witness_streams :
    (let q := tArr 0 .stream (some 0)
     let s := onArr fun a => { a with queue := [q] }
     nextFeed (coreOf s 0).arr == some q && arrGoes s 0 q && streamMayStart s 0 q && streamSetsOk (coreOf s 0).arr)
      ∧ streamSetsOk { ArrayState.fresh with active := { WeightSet.cleared with state := .loaded, fmt := 0 } } = false
      ∧ (let q := tArr 0 .stream (some 0)
         (streamRowDue (onArr fun a => { a with queue := [q], streams := [tRun 99797 0] }) 0).isSome
           && (streamRowDue (onArr fun a => { a with queue := [q], streams := [tRun 99798 0] }) 0).isNone
           && streamDue (onArr fun a => { a with queue := [q], streams := [tRun 99796 (streamRows (tRun 0 0) q.f)] }) 0 == some q
           && (streamDue (onArr fun a => { a with queue := [q], streams := [tRun 99797 (streamRows (tRun 0 0) q.f)] }) 0).isNone)
      ∧ (let a := (coreOf (onArr fun a => { a with idle := false, lastRow := 98975, ramp := some 99936 }) 0).arr
         !a.idle && decide (a.lastRow + 1025 ≤ coreCyc tMod 0) && a.ramp.any fun r => decide (r + 64 ≤ coreCyc tMod 0))
      ∧ (let q := tArr 0 .waitq none
         let s := onArr fun a => { a with queue := [q] }
         waitQDue s 0 == some q && arrGoes s 0 q
           && (waitQDue (modGroup (onArr fun a => { a with queue := [{ q with need := 1 }] }) 0 0 fun g =>
                { g with tokens := [(q.f.tok.toNat, ⟨1, 0, [0]⟩)] }) 0).isNone) := by decide +kernel

def tDrain (next : Nat) : DrainRun :=
  { id := 0, disp := 0, start := some 99976, par := List.replicate 16 0, bias := [], table := [], next, rows := 0, held := [], amax := 0, nans := 0, sats := 0,
    ovfs := 0, qinv := 0 }

/-- DRAIN: dispatched; a row due, with parameters that fault and without; complete. -/
theorem witness_drains :
    (let q := tArr 0 .drain (some 0)
     let s := onArr fun a => { a with queue := [q] }
     nextDrain (coreOf s 0).arr == some q && arrGoes s 0 q)
      ∧ (let q := tArr 0 .drain (some 0)
         (drainRowDue (onArr fun a => { a with queue := [q], drain := some (tDrain 0) }) 0).any (fun e =>
             (rowFault e.1.par .unwritten (mxFmt q.f)).isNone)
           && (drainRowDue (onArr fun a => { a with queue := [q], drain := some { tDrain 0 with start := some 99977 } }) 0).isNone)
      ∧ rowFault [2, 0, 0, 0, 0x3F800000, 0, 0, 0] .unwritten 0 = some 5
      ∧ (let q := tArr 0 .drain (some 0)
         (drainDue (onArr fun a => { a with queue := [q], drain := some (tDrain (mxNrows q.f + 1)) }) 0).isSome) := by decide +kernel

def tReq : LineReq :=
  { core := 0, grp := 0, cmd := 0, load := some 4, mover := none, line := .hbm 0, sects := 1, hint := 0, bypass := false,
    noInstall := false, st := .ready, data := [], patch := [] }
def onL1 (f : CacheCtl → CacheCtl) : State := onCore fun k => { k with l1ctl := f k.l1ctl }

/-- Caches: a fill, a lookup, an entry of a slice's merging buffer, the ends of a drain and of an invalidate, enables that take
effect and stale ones. -/
theorem witness_caches :
    fillReady (onMs fun m => { m with reqs := [(9, tReq)] }) 0 9 []
      ∧ lookupReady (onMs fun m => { m with reqs := [(9, { tReq with st := .toL2 })] }) 9
      ∧ (l2Due (onMs fun m => { m with l2 := [(0, { L2Slice.fresh with mbuf := [⟨0, 1, none, 0, []⟩] })] }) 0 0).isSome
      ∧ (l2Due tMod 0 0).isNone
      ∧ drained (onL1 fun c => { c with draining := some 1 }) (.l1 0)
      ∧ invOver (onL1 fun c => { c with invBusy := some 99488 }) (.l1 0)
      ∧ invOver (onL1 fun c => { c with invBusy := some 99489 }) (.l1 0) = false
      ∧ (let c := ctlOf (onL1 fun c => { c with enabled := false, invDone := true }) (.l1 0)
         !c.enabled && c.draining.isNone && c.invBusy.isNone && c.invDone)
      ∧ (ctlOf (onL1 fun c => { c with enabled := false }) (.l1 0)).invDone = false := by decide +kernel

def tMv : MoverCmd :=
  { cmd := 0, group := 0, slot := 0, desc := List.replicate 128 0, cursor := 0, disp := 0, phase := .sent, waiting := [], trs := [],
    sig := 0, pc := 0, old := [], todo := [], out := [] }

/-- Movers and walks. -/
theorem witness_movers_and_walks :
    moverReady (onCore fun k => { k with launched := [tMv] }) 0
      ∧ tileReady (onCore fun k => { k with movers := [(1, tMv)] }) 0 1
      ∧ walkLive { tMod with xlt := { tMod.xlt with walks :=
          [(3, { ctx := 0, va := 0, acc := .read, host := true, level := 0, table := 0, start := 0, stale := false, waiters := [] })] } } 3 := by
  decide +kernel

def onChan (f : Chan → Chan) : State := { tMod with hbm := { tMod.hbm with chans := [(chanKey 2 5, f .fresh)] } }

/-- Channels: a read, a reducer's operation, an empty queue, a reduction's result. -/
theorem witness_channels :
    (chanHead (onChan fun c => { c with queue := [.read 9 []] }) 2 5).any (fun o => !isReducerOp tMod o)
      ∧ (chanHead (onChan fun c => { c with queue := [.atoms 0 [4] []] }) 2 5).any (isReducerOp tMod)
      ∧ (chanHead tMod 2 5).isNone
      ∧ (mget (onMs fun m => { m with results := [(7, { sectors := [0], atoms := [], peer := none, olds := [] })] }).ms.results 7).isSome := by
  decide +kernel

/-- Maintenance of the stacks; the floors of the bands. -/
theorem witness_stack_maintenance :
    ctlAligned 0 0x0FFFFFF8 ∧ ctlAligned 6 0x0FFFFFF8 = false ∧ tempDue tMod 15 ∧ patrolReady tMod 0
      ∧ resetting (onChan fun c => { c with down := some ⟨0, none, true⟩ }) 2 5
      ∧ (switching (onChan fun c => { c with down := some ⟨0, some 63, false⟩ }) 2 5).isSome
      ∧ spareReady (onChan fun c => { c with laneErrs := [(63, List.replicate 64 tMod.now)] }) 2 5 63
      ∧ spareReady (onChan fun c => { c with laneErrs := [(63, List.replicate 63 tMod.now)] }) 2 5 63 = false
      ∧ nextBand 0 3 < 3 := by decide +kernel

/-! ### Commands on their way -/

def tQueue : Queue :=
  { ctx := 3, cls := 1, log2Slots := 8, log2Cq := 8, ring := 0x8000000000000000#64, cq := 0x8000000000100000#64, tail := 2, taken := 0,
    reads := [], partial_ := [], buffered := [], cqHead := 0, recsHeld := 0, recs := 0, order := [0], stopped := false, destroying := false, model := none,
    holds := [] }
def tCtx : Context :=
  { tenant := 1, hostRoot := 0, deviceRoot := 0, phase := .live, banned := false, partials := 0, req := none, leaves := [], maps := [] }
def tTenant : Tenant := { key := 0, quota := 2 ^ 40, used := 0, mirror := 0, grace := 0, dying := none }
/-- With a tenant, its context, its queue 0, and an aperture. -/
def tHost : State :=
  let s := { tMod with obj := { tMod.obj with tenants := [(1, tTenant)], contexts := [(3, tCtx)], queues := [(0, tQueue)] } }
  withReg s Reg.xltApsize (2 ^ 30)
def onQueue (f : Queue → Queue) : State := { tHost with obj := { tHost.obj with queues := [(0, f tQueue)] } }
def atHost (f : Cmd → Cmd) : State := { tHost with cmds := [(0, f tCmd)] }

/-- The intake: a read, a doorbell at the ends of its region and its forms, a descriptor to take, pretranslation over,
NOT_BEFORE at its instant and a nanosecond early. -/
theorem witness_intake :
    (readBytes (onQueue fun q => { q with reads := [1] }) { tQueue with reads := [1] } (List.replicate 128 0)).isSome
      ∧ (readBytes tHost tQueue (List.replicate 128 0)).isNone
      ∧ (readBytes tHost { tQueue with reads := [2] } (List.replicate 128 0)).isNone ∧ doorbellReady tHost 1 0x400000 ∧ doorbellReady tHost 1 0x7FFFF8
      ∧ doorbellReady tHost 1 0x800000 = false ∧ doorbellOk 0x400000 64 ∧ doorbellOk 0x400008 64 = false
      ∧ ownsQueue tHost 1 0 ∧ ownsQueue tHost 2 0 = false
      ∧ takeReady (onQueue fun q => { q with buffered := [.command tDesc] }) 0
      ∧ pretransReady (atHost fun c => { c with phase := .translating }) 0
      ∧ notBeforeDue (atHost fun c => { c with phase := .waiting, d := { c.d with notBefore := ftNs tMod } }) 0
      ∧ notBeforeDue (atHost fun c => { c with phase := .waiting, d := { c.d with notBefore := ftNs tMod + 1 } }) 0 = false
      ∧ dispatcherRuns tHost := by decide +kernel

def tRec (seq : Option Nat) (posted : Nat) : FaultRec :=
  { ctx := 3, page := 0x1000, acc := .read, cause := 0, src := 0, cmdId := 7, tenant := 1, seq, posted, waiters := [] }
def tWalk (start : Nat) : Walk :=
  { ctx := 3, va := 0x1000, acc := .read, host := true, level := 0, table := 0, start, stale := false, waiters := [] }
def onXlt (f : Xlt → Xlt) : State := { tHost with xlt := f tHost.xlt }

/-- Translation: a walk 50 µs old and one cycle younger; a record to post; service late; an invalidation entry and its end. -/
theorem witness_translation :
    walkLate (onXlt fun x => { x with walks := [(1, tWalk (10 ^ 15 - 180000))] }) 1
      ∧ walkLate (onXlt fun x => { x with walks := [(1, tWalk (10 ^ 15 - 179999))] }) 1 = false
      ∧ postReady (withReg (onXlt fun x => { x with recs := [(1, tRec none 0)] }) Reg.xltFringCtl 6)
      ∧ svcLate (onXlt fun x => { x with recs := [(1, tRec (some 9) 0)] }) 9
      ∧ invReady (withReg (onXlt fun x => { x with invLimit := 1 }) Reg.xltIringCtl 6)
      ∧ invReady (withReg (onXlt fun x => { x with invLimit := 1 }) Reg.xltIringCtl 17) = false
      ∧ invDoneReady (onXlt fun x => { x with invPending := [⟨[], [], [], [], []⟩] }) := by decide +kernel

def onCom (f : Commit → Commit) : State := { tHost with com := f tHost.com }
def tRecord (commit : Bool) (d : DestSt) : CommitRec :=
  { commit, cmd := 0, cmdId := 7, fence := none, dests := [(5, d)], opened := 0, signaled := true }
def withPeer (s : State) (f : Peer → Peer) : State := { s with fab := { s.fab with peers := [(5, f .fresh)] } }
def tGang (phase : GangPhase) : Gang :=
  { count := 2, leader := 0, wait := 5, phase, members := [0], arrived := [], claims := [], held := [], asked := false, ready := [],
    since := 10 ^ 15 - 18000000, replays := true, chans := [] }

/-- Commit: pairs, copies, tokens at 10 µs and before, records a minute after the peer was lost, held pairs a second after their loss and a cycle before, gangs at the end of
their wait and a cycle before, commands that have ended. -/
theorem witness_commit :
    pairAcquireReady (atHost fun c => { c with phase := .waiting }) 0
      ∧ copyReady (onCom fun c => { c with pairs := [(8, { Pair.fresh 0 65536 with copying := some 0 })] }) 8
      ∧ commitAckReady (onCom fun c => { c with recs := [(2, tRecord true .queued)] }) 2 5
      ∧ commitAckLate (onCom fun c => { c with recs := [(2, tRecord true (.sent (10 ^ 15 - 36000)))] }) 2 5
      ∧ commitAckLate (onCom fun c => { c with recs := [(2, tRecord true (.sent (10 ^ 15 - 35999)))] }) 2 5 = false
      ∧ recordExpired (withPeer (onCom fun c => { c with recs := [(2, tRecord true .lost)] }) fun p => { p with lostAt := some 0 }) 2 5
      ∧ heldExpired (withPeer (onCom fun c => { c with pairs := [(8, { Pair.fresh 0 65536 with state := .held, node := 5 })] })
          fun p => { p with heldSince := some (10 ^ 15 - 3600000000) }) 5
      ∧ heldExpired (withPeer (onCom fun c => { c with pairs := [(8, { Pair.fresh 0 65536 with state := .held, node := 5 })] })
          fun p => { p with heldSince := some (10 ^ 15 - 3599999999) }) 5 = false
      ∧ discardAckReady (onCom fun c => { c with recs := [(2, tRecord false .queued)] }) 2 5
      ∧ memberReady (atHost fun c => { c with phase := .waiting, d := { c.d with isGang := true } }) 0
      ∧ gangWaitOver (onCom fun c => { c with gangs := [(4, tGang .gathering)] }) 4
      ∧ gangWaitOver (onCom fun c => { c with gangs := [(4, { tGang .gathering with since := 10 ^ 15 - 17999999 })] }) 4 = false
      ∧ gangLive (onCom fun c => { c with gangs := [(4, tGang .started)] }) 4
      ∧ [(4, 0)].any (fun e : Nat × Nat => e.1 == 4 && since tHost e.2 (sec 60))
      ∧ endedNormally (modCore (atHost fun c => { c with liveGroups := 0 }) 0 fun k => { k with groups := [] }) 0
      ∧ endedTrapped (modCore (atHost fun c => { c with liveGroups := 0, trapped := true }) 0 fun k => { k with groups := [] }) 0 := by
  decide +kernel

/-- One core, held by a background command that fills its scratchpad, and a command of class 0 that waits. -/
def tContended : State :=
  let s := atHost fun c => { c with cls := 3 }
  let w := { tCmd with phase := .ready, liveGroups := 0, cores := [], tag := none, dispatched := false }
  let s := { s with cmds := s.cmds ++ [(1, w)], boot := { s.boot with coreMask := 1 } }
  modCore { s with obj := { s.obj with queues := [(0, { tQueue with order := [1] })] } } 0 fun k => { k with allocs := [(0, ⟨List.range 64⟩)] }
def tSaved : SavedCore :=
  { core := 0, groups := [], scratch := [], rows := [], active := .cleared, shadow := .cleared, queue := [], movers := [], launched := [],
    bars := [], allocN := 1, trap := false, colinv := [] }
/-- A save of the context's mode in progress since `t`, with a save-point table. -/
def tMarking (mode : Word) (t : Nat) : State :=
  let s := atHost fun c => { c with phase := .saving t, ctx := 3, d := { c.d with saveptVa := 0x1000, saveCount := 1 } }
  { s with sch := { s.sch with ctxCfg := [(3, mode)] } }

/-- Time slices, saves and restores. -/
theorem witness_preemption :
    preemptReady tContended 0 1
      ∧ sliceOver (atHost fun c => { c with cls := 1 }) 0
      ∧ markLate (tMarking 0x20 (10 ^ 15 - 180000)) 0 2 (usec 50) ∧ markLate (tMarking 0x20 (10 ^ 15 - 179999)) 0 2 (usec 50) = false
      ∧ markLate (tMarking 0x10 0) 0 1 (msec (reg tHost Reg.schMarkmax))
      ∧ restoreReady (modCore (atHost fun c => { c with phase := .saved, why := some .preempted, saved := [tSaved], liveGroups := 0 }) 0
          fun k => { k with groups := [] }) 0 [7]
      ∧ (let s := modCore (atHost fun c => { c with phase := .saving 0 }) 0 fun k => { k with groups := [] }
         (cmdOf s 0).any (saveStill s 0))
      ∧ (let s := onMs fun m => { m with loads := [(4, tLoad)] }
         (cmdOf s 0).any fun c => !saveStill s 0 c) := by decide +kernel

def tAdmission : Admission :=
  { cmdId := 7, prio := 3, seq := 0, deadline := 0, kvList := 0, kvPages := 1, prompt := 1, maxLen := 2, rsv := false }
/-- Queue 0 is the queue of model 2, which has one table entry and pages of 16 tokens; the next entry is of this operation. -/
def tModel (op : Nat) (e : Admission) : State :=
  let s := onQueue fun q => { q with model := some 2, buffered := [.admission op e] }
  setRaw s (seqKey 2 Reg.seqMcount) 1

/-- The accounting snapshot of the instant is taken. -/
def snapTaken (s : State) : State := { s with srv := { s.srv with snapFt := snapInstant s } }

/-- The sequence engine: calibration, a step due, behind the snapshot of its instant, and ended, each operation, a good and a bad ADMIT, at the bounds of its fields. -/
theorem witness_sequences :
    calibReady tHost 100 100 [] ∧ (stepDue (snapTaken tHost)).isSome ∧ (stepDue tHost).isNone
      ∧ (stepDue { snapTaken tHost with ftm := { tHost.ftm with running := false } }).isNone
      ∧ (nextAdmission (tModel 1 tAdmission) 0).isSome ∧ admitOk (tModel 1 tAdmission) 2 tAdmission
      ∧ admitOk (tModel 1 tAdmission) 2 { tAdmission with prio := 4 } = false
      ∧ admitOk (tModel 1 tAdmission) 2 { tAdmission with prompt := 2 } = false
      ∧ admitOk (tModel 1 tAdmission) 2 { tAdmission with maxLen := 17 } = false
      ∧ admitOk (tModel 1 tAdmission) 2 { tAdmission with maxLen := 16 }
      ∧ admitOk (tModel 1 tAdmission) 2 { tAdmission with seq := 1 } = false
      ∧ (nextAdmission (tModel 4 tAdmission) 0).any (fun x => x.2.1 == 4)
      ∧ seqIndex (tModel 1 tAdmission) 2 tAdmission = some 0
      ∧ (mget { tHost.srv with steps := [(2, ⟨[], 0, 0⟩)] }.steps 2).any (fun x => x.cmds.isEmpty) := by decide +kernel

/-! ### The fabric and its time -/

def tTopo : TopoTable :=
  { version := 1, count := 2, self := 0, timeRoot := 5, planes := [], rsv := false,
    entries := [⟨0, 0, 0, 0, false⟩, ⟨5, 3, 4, 0, false⟩], hash := 0 }
def tPort : Port := { Port.fresh with link := .run, lanes := 0xFF }
def tPeer : Peer := { Peer.fresh with state := .up, epoch := 6, session := 2, active := true }
/-- Node 0, whose peer 5 is reached by port 3, or by port 4. -/
def tFab (f : Peer → Peer) : State :=
  { tHost with fab := { tHost.fab with topo := some tTopo, topoSt := .loaded, ports := [(3, tPort), (4, tPort)],
                                       peers := [(5, f tPeer)] } }
def tHdr : BlockHdr :=
  { port := 3, cls := 2, shadow := false, src := 5, dst := 0, session := 2, epoch := 6, psn := 0, ack := 0, addr := 0x1E0, len := 32, tag := 0,
    req := 0, arg := 0, credit := 0 }

/-- Blocks: from a known peer in its pair, of another session, of another epoch; data at the end of a granule and past it; an
unknown type; a table of one entry at its bounds. -/
theorem witness_blocks :
    fromKnown (tFab id) tHdr ∧ fromKnown (tFab id) { tHdr with src := 6 } = false ∧ connected (tFab id) 5
      ∧ tHdr.epoch = (peerOf (tFab id) 5).epoch ∧ tHdr.session = (peerOf (tFab id) 5).session
      ∧ 1 ≠ (peerOf (tFab id) 5).session ∧ 7 ≠ (peerOf (tFab id) 5).epoch ∧ pathPort (tFab id) 5 = 3
      ∧ rejoining (tFab fun p => { p with state := .reset, wasActive := true }) 5
      ∧ granuleOk tHdr 32 ∧ granuleOk { tHdr with len := 64 } 64 = false ∧ granuleOk { tHdr with addr := 0x100, len := 256 } 256
      ∧ portRuns (tFab id) 3 ∧ knownType 0x2F ∧ knownType 0x30 = false ∧ knownType 0 = false
      ∧ (tFab id).ftm.running := by decide +kernel

def tBlk : Blk :=
  { dst := 5, cls := 0, shadow := false, addr := 0, tag := 0, req := 0, psn := 0, msg := .heartbeat, cmd := none, groups := [] }
def tBusy (since : Nat) : StreamSt := { StreamSt.fresh with sent := [tBlk], cursor := 1, lastAdv := since }
def tRemote : RemoteMapReq :=
  { req := ⟨1, 0, 0, false⟩, ctx := 3, node := 5, kind := 0, w := false, nx := false, va := 0, remote := 0, length := 0, offset := 0,
    since := 0, late := false }

/-- Timers of peers and ports: due, and one cycle before. -/
theorem witness_peers_and_ports :
    (peerOf (tFab fun p => { p with state := .unverified, heard := some 1 }) 5).heard.isSome
      ∧ ackLate (tFab fun p => { p with data := { p.data with ackDue := some (10 ^ 15 - 1800) } }) 5
      ∧ ackLate (tFab fun p => { p with data := { p.data with ackDue := some (10 ^ 15 - 1799) } }) 5 = false
      ∧ heartbeatDue (tFab fun p => { p with lastSent := 10 ^ 15 - 3600 }) 5
      ∧ heartbeatDue (tFab fun p => { p with lastSent := 10 ^ 15 - 3599 }) 5 = false
      ∧ resendDue (tFab fun p => { p with data := tBusy (10 ^ 15 - 10800) }) 5 false
      ∧ resendDue (tFab fun p => { p with ctl := tBusy (10 ^ 15 - 10799) }) 5 true = false
      ∧ silent (tFab fun p => { p with lastHeard := 10 ^ 15 - 180000 }) 5 50
      ∧ silent (tFab fun p => { p with lastHeard := 10 ^ 15 - 36000 }) 5 10
      ∧ silent (tFab fun p => { p with lastHeard := 10 ^ 15 - 35999 }) 5 10 = false
      ∧ deadlineMissed (tFab fun p => { p with outReqs := [(1, ⟨.line 0, 0, some (10 ^ 15), none⟩)] }) 5 1
      ∧ pairIdle (tFab id) 5
      ∧ rerouteDrained (tFab fun p => { p with reroute := some ⟨true, 10 ^ 15, true⟩ }) 5
      ∧ primaryBack (tFab fun p => { p with onAlt := true }) 5
      ∧ rejoinLate (atHost fun c => { c with heldFor := some (5, 0, 0) }) 0
      ∧ mapRemoteLate { tHost with obj := { tHost.obj with mapReqs := [tRemote] } } 5
      ∧ isTraining (modPort (tFab id) 3 fun p => { p with link := .training 0 }) 3
      ∧ portResetDue { tFab id with err := { tHost.err with active := some ⟨0, .port 3, 1, none⟩ } } 3
      ∧ (planFrame (modPort (tFab id) 3 fun p => { p with link_ := [tBlk] }) 3).isSome
      ∧ planFrame (tFab id) 3 = none ∧ (portOf (tFab id) 3).link = .run ∧ (portOf (tFab id) 2).link ≠ .run
      ∧ (tFab id).fab.topoSt ≠ .loading := by decide +kernel

def tTime (f : Ftm → Ftm) : State := { tFab id with ftm := f (tFab id).ftm }
/-- This node is the root of its domain. -/
def tRoot (f : Ftm → Ftm) : State :=
  { tTime f with fab := { (tFab id).fab with topo := some { tTopo with timeRoot := 0 } } }
def tSlot : CalSlot := ⟨0, 5, true, false, 0⟩

/-- Time of a module that is not the root, of the root, the calendar and its slots, the snapshot, a read of FTM_NOW. -/
theorem witness_time :
    timeRequestDue (tTime id) ∧ sourceLate (tTime id) ∧ isRoot (tTime id) = false
      ∧ holdoverOver (tTime fun f => { f with state := .holdover })
      ∧ (let s := tRoot fun f => { f with gm := true }
         s.ftm.running && isRoot s && s.ftm.gm && hostUp s)
      ∧ gmWaitOver (tRoot id)
      ∧ (let s := tRoot fun f => { f with gm := true, state := .locked }
         isRoot s && s.ftm.state == .locked && s.ftm.gm)
      ∧ calSwitchDue (tTime fun f => { f with cal := { f.cal with st := .pending } })
      ∧ snapDue tHost ∧ ftBefore tHost 2 (snapInstant tHost) = false ∧ snapDue (snapTaken tHost) = false
      ∧ (overdue (tTime fun f => { f with outs := [⟨1, 5, 0, 10 ^ 15 - 14400⟩] })).isSome
      ∧ overdue (tTime fun f => { f with outs := [⟨1, 5, 0, 10 ^ 15 - 14399⟩] }) = none
      ∧ (let s := modPort (tTime fun f => { f with state := .locked }) 3 fun p => { p with calendar := [tSlot], calFrame := 100000 }
         (slotDue s 3).any fun o => !ftBefore s 1 o.start)
      ∧ (let s := modPort (tTime fun f => { f with state := .locked, empties := [(ftNs tHost, 8)] }) 3 fun p =>
           { p with calendar := [tSlot], calFrame := 100000 }
         calSwitchDue s && (slotDue s 3).any fun o => ftBefore s 1 o.start == (o.start == ftNs tHost))
      ∧ slotDue tHost 3 = none ∧ qpUp tHost 1 ∧ qpUp tHost 2 = false ∧ qpHeld tHost 1 = false ∧ windowOpen tHost = false := by decide +kernel

/-! ### The host -/

def tReqst (tenant : Nat) : Request := ⟨tenant, 0, 0, false⟩
def onObj (f : Objects → Objects) : State := { tHost with obj := f tHost.obj }
def onBoot (f : Boot → Boot) : State := { tHost with boot := f tHost.boot }
def tObj (state : ObjState) (refs : Nat) : MemObj :=
  { gen := 1, state, kind := 0, owner := 1, refs, size := 65536, base0 := 0, base1 := 0, cot := 0, shares := [(2, false)] }
def tFence (value poison : Nat) : Fence :=
  { value, poison, ctx := 3, mirror := false, live := true, tenant := 1, gen := 0, shares := [], freeing := false }
def tPark (call : FwCall) (since : Nat) : Parked := { id := 3, since, tenant := 0, call }

/-- A write to the scheduler's page waits for firmware. -/
def tWaits (since : Nat) : State :=
  let s := onBoot fun b => { b with serving := false }
  { s with obj := { s.obj with parked := [tPark (.write (pgSCH + 0x4C) 4 0) since] } }

/-- Register writes: queue pairs up and down, the boot window open and closed, firmware serving and not, an access 50 ms old and
one cycle younger. -/
theorem witness_register_writes :
    qpUp tHost 0 ∧ qpUp tHost 1 ∧ windowOpen tHost = false ∧ windowOpen (onBoot fun b => { b with stage := 4 })
      ∧ tHost.boot.serving ∧ (onBoot fun b => { b with serving := false }).boot.serving = false
      ∧ (overdueAccess (tWaits (10 ^ 15 - 180000000)) 3).isSome
      ∧ overdueAccess (tWaits (10 ^ 15 - 179999999)) 3 = none ∧ qpHeld (tWaits 0) 0 ∧ qpHeld tHost 0 = false
      ∧ haltDue (setRaw tHost (hPgCtl pgSCH) 5) pgSCH ∧ haltDue tHost pgSCH = false
      ∧ waitsForFw tHost pgSCH = false ∧ pagePresent tHost (pgCORE 191) ∧ pagePresent tHost 0x380000 = false
      ∧ formOk 0x10018 4 ∧ formOk 0x10018 2 = false ∧ formOk 0x1001A 4 = false := by decide +kernel

/-- The host port: a connection, its grace, an acknowledgment, retraining. -/
theorem witness_host_port :
    hostUp tHost ∧ hostUp (withReg tHost Reg.hptPstat 0) = false ∧ (connectedQp tHost 1).any (fun q => !q.gone)
      ∧ graceOver (onObj fun o => { o with qps := [(1, ⟨1, some (10 ^ 15 - 3600000000), false⟩)] }) 1
      ∧ graceOver (onObj fun o => { o with qps := [(1, ⟨1, some (10 ^ 15 - 3599999999), false⟩)] }) 1 = false
      ∧ (mget (onObj fun o => { o with pend := [(6, (1, .other))] }).obj.pend 6).isSome
      ∧ retrainDue (withReg (onObj fun o => { o with retrainAt := some 0 }) Reg.hptPstat 0) := by decide +kernel

/-- Requests served and waiting; what is released. -/
theorem witness_requests_and_releases :
    reqReady tHost (tReqst 1) ∧ reqReady (onBoot fun b => { b with serving := false }) (tReqst 1) = false
      ∧ teardownReady (onObj fun o => { o with contexts := [(3, { tCtx with phase := .tearing })] }) 3
      ∧ queueFreeReady { (onQueue fun q => { q with destroying := true }) with cmds := [] } 0
      ∧ fenceFreeReady (onObj fun o => { o with fences := [(9, { tFence 0 0 with freeing := true })] }) 9
      ∧ unmapReady (onObj fun o => { o with contexts := [(3, { tCtx with maps := [⟨0x1000, 4096, 0, 0, none, false, false, true⟩] })] })
          3 0x1000
      ∧ reclaimReady (onObj fun o => { o with objs := [(5, tObj .reclaiming 0)] }) 5 := by decide +kernel

/-- Fences: values around VALUE and 2⁶³, poison, a request that is served. -/
theorem witness_fences :
    (tFence 5 0).live ∧ (tFence 5 0).poison = 0 ∧ (tFence 5 0).value < 6 ∧ 2 ^ 63 - 1 < 2 ^ 63 ∧ 5 ≤ (tFence 5 0).value
      ∧ (tFence 5 1).poison ≠ 0 ∧ reqReady tHost (tReqst 1) ∧ (tReqst 1).rsv = false ∧ (tFence 5 0).freeing = false
      ∧ fenceUsable (tFence 5 0) 1 := by decide +kernel

/-- Reference counts and the object region: an owner and a stranger, REFS at its bounds, ranges inside and past the object, frame
pairs that are not IDLE, poisoned sectors. -/
theorem witness_objects :
    (let s := onObj fun o => { o with objs := [(5, tObj .live 1)] }
     hostReady s 1 && mayAct 1 (tObj .live 1).owner && !mayAct 2 (tObj .live 1).owner
       && objRange s 5 65535 1 == some (tObj .live 1) && objRange s 5 65536 1 == none
       && mayRead (tObj .live 1) 2 && !mayWrite (tObj .live 1) 2 && mayWrite (tObj .live 1) 1
       && !rangePoisoned s (tObj .live 1) 0 64 && rangePoisoned { s with poison := [32] } (tObj .live 1) 0 64
       && rangeIdle s (tObj .live 1) 0 64)
      ∧ (let o := { tObj .live 1 with kind := 1, cot := 8 }
         let s := { (onObj fun b => { b with objs := [(5, o)] }) with
                    com := { tHost.com with pairs := [(8, { Pair.fresh 0 65536 with state := .owned })] } }
         !rangeIdle s o 0 64)
      ∧ (tObj .live 0xFFFFFFFE).refs < 0xFFFFFFFF ∧ 1 < (tObj .live 2).refs ∧ (tObj .live 0).refs = 0
      ∧ (tObj .reclaiming 0).state ≠ .live := by decide +kernel

/-! ### Power, boot, firmware, errors, recovery, monitor -/

def tSense (w c : Nat) : BridleSense :=
  { avg10us := w, avg1ms := w, current := List.replicate 16 c, temp := List.replicate 16 60, load := List.replicate 16 0, other := 0 }
def onBdl (f : Bridle → Bridle) : State := { tHost with bdl := f tHost.bdl }
def onDom (f : Dom → Dom) : State := onBdl fun b => { b with doms := [(4, f tDom)] }

/-- Bridle: readings at their limits, temperatures, pre-ramps, idleness, duty. -/
theorem witness_bridle :
    senseOk tHost (tSense 3300 1600) ∧ senseOk tHost (tSense 3301 0) = false ∧ since tHost tHost.bdl.lastEval (usec 10)
      ∧ (List.range 16).any (overCurrent (tSense 0 1501)) ∧ (List.range 16).any (overCurrent (tSense 0 1500)) = false
      ∧ coreUp tHost 191 ∧ (domOf tHost 0).crit = false
      ∧ memStepDue { tHost with hbm := { tHost.hbm with band := [(0, 3)] } }
      ∧ (let t := ftNs tHost + 20000
         let c := { tCmd with phase := .waiting, d := { tDesc with notBefore := t } }
         let s := { tHost with cmds := [(0, c)] }
         preReady s t (domainsOf (coreFor s c)))
      ∧ holdOver (onBdl fun b => { b with holds := [(ftNs tHost - 100000, 1)] })
      ∧ holdOver (onBdl fun b => { b with holds := [(ftNs tHost - 99999, 1)] }) = false
      ∧ idleDue tHost 15 ∧ dutyDue (onDom fun d => { d with stopped := true, dutyAt := 10 ^ 15 - 3600, duty := 7 }) 4
      ∧ dutyDue (onDom fun d => { d with stopped := false, dutyAt := 10 ^ 15 - 3599, duty := 1 }) 4 = false := by decide +kernel

def onMon (f : Monitor → Monitor) : State := { tHost with mon := f tHost.mon }

/-- Boot: off, within the hold-off, its rails, the ROM, the window, the start of firmware. -/
theorem witness_boot :
    State.reset.mon.carPwrgd = false
      ∧ (let s := onMon fun m => { m with riseWaits := true, fellAt := some (10 ^ 15 - 360000000) }
         s.mon.riseWaits && holdoffOver s)
      ∧ holdoffOver (onMon fun m => { m with fellAt := some (10 ^ 15 - 359999999) }) = false
      ∧ railLate (onMon fun m => { m with railsAt := some (10 ^ 15 - 36000000) }) 0
      ∧ railLate (onMon fun m => { m with railsAt := some (10 ^ 15 - 35999999) }) 0 = false
      ∧ (onMon fun m => { m with railsAt := some 0 }).mon.railsAt.isSome
      ∧ (let s := onBoot fun b => { b with stage := 4 }
         windowOpen s && qpUp s 0)
      ∧ (onBoot fun b => { b with stage := 5 }).boot.stage = 5 := by decide +kernel

def onFwu (f : Fwu → Fwu) : State := onBoot fun b => { b with fwu := f b.fwu }

/-- Updates and attestation, in each state. -/
theorem witness_updates :
    (onBoot fun b => { b with att := .signing }).boot.identity
      ∧ (onFwu fun f => { f with st := .fetching }).boot.serving
      ∧ handoffDue (onFwu fun f => { f with st := .armed, handAt := ftNs tHost - 1 })
      ∧ handoffDue (onFwu fun f => { f with st := .armed, handAt := snapInstant tHost }) = false
      ∧ handoffDue (onFwu fun f => { f with st := .armed, handAt := ftNs tHost + 1 }) = false
      ∧ (let s := onFwu fun f => { f with handing := true, handNow := 10 ^ 15 - 5399999 }
         alive s && !handoffLate s)
      ∧ (let s := onFwu fun f => { f with handing := true, handNow := 10 ^ 15 - 5400000 }
         alive s && handoffLate s)
      ∧ (let s := onFwu fun f => { f with st := .probation, handNow := 10 ^ 15 - 1799999999 }
         onProbation s && !probationOver s)
      ∧ (let s := onFwu fun f => { f with st := .probation, handNow := 10 ^ 15 - 1800000000 }
         onProbation s && probationOver s) := by decide +kernel

def onErr (f : Errors → Errors) : State := { tHost with err := f tHost.err }

/-- Recovery: checks, resets, dumps, the queue of recoveries, a warm reset, a replay. -/
theorem witness_recovery :
    (alive tHost && tHost.err.warmReq.isNone && since tHost tHost.err.lastCheck (msec 1))
      ∧ coreResetDue (onErr fun e => { e with active := some ⟨0, .core 7, 2, none⟩ }) 7 2
      ∧ (mget (onErr fun e => { e with coreDown := [(7, 0)] }).err.coreDown 7).isSome
      ∧ tHost.err.clusterDown.isNone ∧ (onErr fun e => { e with clusterDown := some 0 }).err.clusterDown.isSome
      ∧ dumpLate (onErr fun e => { e with dumping := some (.core 7, 2, 10 ^ 15 - 144000000) })
      ∧ dumpLate (onErr fun e => { e with dumping := some (.core 7, 2, 10 ^ 15 - 143999999) }) = false
      ∧ (let s := withReg (onErr fun e => { e with copyDue := [1] }) Reg.jckDestlen 4096
         copyReady_ s && s.err.dumping.isNone)
      ∧ (onErr fun e => { e with warmPhase := some 1 }).err.warmPhase.isSome
      ∧ (nextRecovery (onErr fun e => { e with queue := [⟨0, .hostPort, 2, none⟩] })).isSome ∧ nextRecovery tHost = none
      ∧ (recoveryLate (onErr fun e => { e with active := some ⟨0, .port 3, 2, some (10 ^ 15 - 7200000)⟩ })).isSome
      ∧ recoveryLate (onErr fun e => { e with active := some ⟨0, .port 3, 2, some (10 ^ 15 - 7199999)⟩ }) = none
      ∧ (onErr fun e => { e with warmReq := some (3, 2) }).err.warmReq = some (3, 2)
      ∧ (let s := onErr fun e => { e with suspects := [0] }
         oldestSuspect s == some 0 && replayDue s)
      ∧ replayDue (onErr fun e => { e with replaying := some 0 }) = false := by decide +kernel

/-- The error ring: empty, with 17 free slots, with 16, full. -/
theorem witness_error_ring :
    errFree tHost = 256 ∧ errFree (withReg tHost Reg.errTail 239) = 17 ∧ errFree (withReg tHost Reg.errTail 240) = 16
      ∧ errFree (withReg tHost Reg.errTail 256) = 0 ∧ rawReg tHost (hPgErr pgSCH) 0 < 2 ^ 31 := by decide +kernel

/-- Protection at its limits. -/
theorem witness_protection :
    watched tHost ∧ marginal 55000 ∧ marginal 55999 ∧ marginal 56000 = false ∧ marginal 62000 = false ∧ marginal 62001
      ∧ marginal 63000 ∧ tHost.mon.brownout = false ∧ tripsAt 118 0 0 0 ∧ tripsAt 117 114 124 64 = false ∧ tripsAt 0 115 0 0
      ∧ tripsAt 0 0 125 0 ∧ tripsAt 0 0 0 65 ∧ tHost.mon.thermTrip = false
      ∧ (shutdown tHost fun m => { m with brownout := true }).mon.pwrok = false := by decide +kernel

/-- The monitor on and off VAUX; the TAP; the trigger armed, with a sample that matches and one that does not. -/
theorem witness_monitor_and_awl :
    tHost.mon.vaux ∧ State.reset.mon.vaux = false ∧ (onMon fun m => { m with alert := true }).mon.alert ∧ tapOf 0 = .bypass
      ∧ tapOf 6 = .bypass
      ∧ (let s := { tHost with awl := { tHost.awl with st := .driving } }
         let s := withReg (withReg (withReg s Reg.awlCtl 5) Reg.awlTmask 0xFF) Reg.awlSel (pgId pgSCH)
         triggerOn s && matchesTrig s 0x100 && !matchesTrig s 1) := by decide +kernel

/-! ### Words written out from the encoding tables (R64, R67, R68, R83, R93, R94, R100–R102, R109, R116, R117, R665) -/

/-- Format R: W, OP, PRED, DST, SRCA, SRCB, SRCC, SUB, TYPE, SAT, RND, KA, KB, KC, reserved. -/
def wordR (w : BitVec 1) (op : BitVec 7) (pred : BitVec 3) (dst a b c : BitVec 8) (sub : BitVec 5) (typ : BitVec 4)
    (sat : BitVec 1) (rnd : BitVec 3) (ka kb kc : BitVec 2) : DWord :=
  w ++ op ++ pred ++ dst ++ a ++ b ++ c ++ sub ++ typ ++ sat ++ rnd ++ ka ++ kb ++ kc ++ 0#2

def dec (w0 : DWord) (w1 : DWord := 0) : Instr := decodeLaneWord 7 65 w0 w1
def at7 : GroupRef := ⟨7, 65⟩

/-- MAD.I V6 ← V1, S5, the wide immediate, of TYPE I16X2, saturating, under P3; SHL; LZC. -/
theorem test_decode_integer :
    dec (wordR 1 0x01 3 6 1 5 0x7F 3 6 1 0 0 1 3) 0xABCD = .madI at7
        { pred := 3, dst := 6, a := 1, b := 5, c := 0x7F, typ := 6, sat := true, rnd := 0, ka := 0, kb := 1, kc := 3, rsv := 0,
          wide := some 0xABCD }
      ∧ dec (wordR 0 0x03 0 6 1 5 0xFF 0 3 0 0 0 0 0) = .shl at7
        { pred := 0, dst := 6, a := 1, b := 5, c := 0xFF, typ := 3, sat := false, rnd := 0, ka := 0, kb := 0, kc := 0, rsv := 0,
          wide := none }
      ∧ dec (wordR 0 0x04 0 6 1 0xFF 0xFF 2 3 0 0 0 0 0) = .lzc at7
        { pred := 0, dst := 6, a := 1, b := 0xFF, c := 0xFF, typ := 3, sat := false, rnd := 0, ka := 0, kb := 0, kc := 0, rsv := 0,
          wide := none } := by decide +kernel

/-- MINNUM.F, SIN, CVT from I8 to F32 toward −∞, CVT.BLK.DEC. -/
theorem test_decode_float :
    dec (wordR 0 0x10 0 6 1 5 0xFF 6 0 0 0 0 0 0) = .minnumF at7 { fR 0 with pred := 0, dst := 6, a := 1, b := 5 }
      ∧ dec (wordR 0 0x20 0 6 1 0xFF 0xFF 4 0 0 0 0 0 0) = .sin at7 { fR 0 with pred := 0, dst := 6, a := 1, b := 0xFF }
      ∧ dec (wordR 0 0x30 0 6 1 0xFF 0xFF 6 0 0 4 0 0 0) = .cvt at7 6 { fR 0 with pred := 0, dst := 6, a := 1, b := 0xFF, rnd := 4 }
      ∧ dec (wordR 0 0x31 0 6 1 5 0xFF 1 5 0 0 0 1 0) = .cvtBlkDec at7 { fR 5 with pred := 0, dst := 6, a := 1, b := 5, kb := 1 } := by
  decide +kernel

/-- CMP.LT, PICK by P4, PCOMB.XOR, XLANE.UP, PMASK, GRED.MIN, ADD.S, MOV.SV, GETMODE. -/
theorem test_decode_masks_and_scalars :
    dec (wordR 0 0x24 0 6 1 5 0xFF 2 3 0 0 0 0 0) = .cmpLt at7 { fR 3 with pred := 0, dst := 6, a := 1, b := 5 }
      ∧ dec (wordR 0 0x25 0 6 1 5 4 0 3 0 0 0 0 0) = .pick at7 { fR 3 with pred := 0, dst := 6, a := 1, b := 5, c := 4 }
      ∧ dec (wordR 0 0x26 0 6 1 5 0xFF 2 3 0 0 0 0 0) = .pcombXor at7 { fR 3 with pred := 0, dst := 6, a := 1, b := 5 }
      ∧ dec (wordR 0 0x28 0 6 1 5 0xFF 1 3 0 0 0 2 0) = .xlaneUp at7 { fR 3 with pred := 0, dst := 6, a := 1, b := 5, kb := 2 }
      ∧ dec (wordR 0 0x29 0 6 1 0xFF 0xFF 0 3 0 0 0 0 0) = .pmask at7 { fR 3 with pred := 0, dst := 6, a := 1, b := 0xFF }
      ∧ dec (wordR 0 0x2A 0 6 1 0xFF 0xFF 1 3 0 0 0 0 0) = .gredMin at7 { fR 3 with pred := 0, dst := 6, a := 1, b := 0xFF }
      ∧ dec (wordR 0 0x2C 0 6 1 5 0xFF 0 5 0 0 1 1 0) = .addS at7 { fR 5 with pred := 0, dst := 6, a := 1, b := 5, ka := 1, kb := 1 }
      ∧ dec (wordR 0 0x2D 0 6 1 5 0xFF 1 3 0 0 0 1 0) = .movSv at7 { fR 3 with pred := 0, dst := 6, a := 1, b := 5, kb := 1 }
      ∧ dec (wordR 0 0x68 0 6 0xFF 0xFF 0xFF 1 3 0 0 0 0 0) = .getmode at7 { fR 3 with pred := 0, dst := 6, a := 0xFF, b := 0xFF } := by
  decide +kernel

/-- ST of 16 bytes of V4 to scratchpad, no base, IMM −16; ATOM.CAS.64; FENCE of scope FABRIC. -/
theorem test_decode_memory :
    dec (0#1 ++ 0x41#7 ++ 1#3 ++ 4#8 ++ 7#8 ++ 0x3F#6 ++ 1#1 ++ 0#1 ++ 4#3 ++ 1#2 ++ 0#2 ++ 0#1 ++ (-16 : BitVec 21)) = .st at7
        { pred := 1, data := 4, voff := 7, sbase := 0x3F, nobase := true, wideoff := false, size := 4, space := 1, hint := 0,
          sign := false, imm := -16, wide := none }
      ∧ dec (0#1 ++ 0x42#7 ++ 0#3 ++ 4#8 ++ 8#8 ++ 2#6 ++ 0#1 ++ 1#1 ++ 0xA#4 ++ 6#8 ++ 0x81#8 ++ 0#1 ++ 1#1 ++ 0#2 ++ 0x1F#5) =
        .atomCas64 at7
          { w := false, pred := 0, dst := 4, voff := 8, sbase := 2, nobase := false, wideoff := true, src := 6, cmp := 0x81,
            srck := false, cmpk := true, space := 0, imm := 0x1F }
      ∧ dec (0#1 ++ 0x43#7 ++ 0#3 ++ 2#2 ++ 0#51) = .fence at7 { w := false, pred := 0, scope := 2, rsv := 0 } := by
  decide +kernel

/-- BRA.ANY on P3, ANDM of depth 2, BAR.SYNC 15; MX.DRAIN of 4 rows from row 8 to INT8; SUB 0x10 is undefined. -/
theorem test_decode_control_and_matrix :
    dec (0#1 ++ 0x60#7 ++ 3#3 ++ 1#5 ++ 0#5 ++ 0#11 ++ 0x1234#32) = .braAny at7 (fB 3 0 0x1234)
      ∧ dec (0#1 ++ 0x60#7 ++ 1#3 ++ 6#5 ++ 2#5 ++ 0#11 ++ 0#32) = .andm at7 (fB 1 2 0)
      ∧ dec (0#1 ++ 0x60#7 ++ 0#3 ++ 0xE#5 ++ 0#5 ++ 0#11 ++ 15#32) = .barSync at7 (fB 0 0 15)
      ∧ dec (1#1 ++ 0x70#7 ++ 0#3 ++ 3#5 ++ 0xFF#8 ++ 1#6 ++ 1#1 ++ 9#4 ++ 0#1 ++ 3#6 ++ 0#1 ++ 0#21)
          (8#12 ++ 3#11 ++ 6#4 ++ 1#5 ++ 96#20 ++ 0#12) = .mxDrain at7
        { fX 1 3 (some (8#12 ++ 3#11 ++ 6#4 ++ 1#5 ++ 96#20 ++ 0#12)) with sig := true, tok := 9 }
      ∧ (let f := fX 1 3 (some (8#12 ++ 3#11 ++ 6#4 ++ 1#5 ++ 96#20 ++ 0#12))
         mxAccRow f = 8 ∧ mxNrows f = 3 ∧ mxFmt f = 6 ∧ drainAccid f = 1 ∧ drainStride f = 96)
      ∧ dec (0#1 ++ 0x60#7 ++ 0#3 ++ 0x10#5 ++ 0#48) = .illegalInstruction at7 (0#1 ++ 0x60#7 ++ 0#3 ++ 0x10#5 ++ 0#48) := by
  decide +kernel

/-! ### The spec's worked examples -/

/-- The encodings after R190: 2.625, −2.625, 460, 464, 1.5 · 2⁻⁹, −2⁻¹¹, 61,440, 0.09375, 2.5, −5, 7, −2.5, 127.5. -/
theorem test_encodings_of_04 :
    encodeElem 2 (.fin false 21 (-3)) = (0x43, .rounded) ∧ encodeElem 2 (.fin true 21 (-3)) = (0xC3, .rounded)
      ∧ encodeElem 2 (.fin false 460 0) = (0x7E, .rounded) ∧ encodeElem 2 (.fin false 464 0) = (0x7E, .saturated)
      ∧ encodeElem 2 (.fin false 3 (-10)) = (0x02, .rounded) ∧ encodeElem 2 (.fin true 1 (-11)) = (0x80, .rounded)
      ∧ encodeElem 3 (.fin false 61440 0) = (0x7C, .overflowed) ∧ encodeElem 4 (.fin false 3 (-5)) = (0x02, .rounded)
      ∧ encodeElem 5 (.fin false 5 (-1)) = (0x5, .rounded) ∧ encodeElem 5 (.fin true 5 0) = (0xF, .rounded)
      ∧ encodeElem 5 (.fin false 7 0) = (0x7, .saturated) ∧ encodeElem 6 (.fin true 5 (-1)) = (0xFD, .rounded)
      ∧ encodeElem 6 (.fin false 255 (-1)) = (0x7F, .saturated) := by decide +kernel

/-- The integer path's example after R210: M = 0x6000_0000, sh = 35. -/
theorem test_integer_path_of_05 :
    qShift (1000 * 0x60000000) 35 = (47, true) ∧ qShift (-1000 * 0x60000000) 35 = (-47, true)
      ∧ qShift (32 * 0x60000000) 35 = (2, true) ∧ qShift (-32 * 0x60000000) 35 = (-2, true)
      ∧ qShift (64 * 0x60000000) 35 = (3, false) := by decide +kernel

/-- The block example after R217: the largest magnitude 1,000 gives E8 0x81; 1,000, 37 and 0 are encoded under it. -/
theorem test_block_of_05 :
    blockE8 2 [.fin false 1000 0, .fin false 37 0] = 0x81
      ∧ (encodeBlock 2 0x81 [.fin false 1000 0, .fin false 37 0, .zero false]).map Prod.fst = [0x78, 0x51, 0] := by
  decide +kernel

/-- The interleave's example after R352. -/
theorem test_interleave_of_09 :
    interleave 16 0x1234567800 = (12, 17, 0x91A2B00) ∧ interleave 12 0x1234567800 = (6, 30, 0xC22E400) := by decide +kernel

/-- A next state of which `p` holds. -/
def nextHas (o : Host.Outcome State Fault Refusal) (p : State → Bool) : Bool :=
  match o with
  | .next t => p t
  | _ => false

def after (g : Group) (i : Instr) : Option Group :=
  match exec i (tLane g i) with
  | .next t => groupOf t 0 0
  | _ => none

/-- The nested branches' example after R35, at cycles 2, 4 and 5: PUSHM P2, POPM, ELSEM. -/
def gFares : Group :=
  { tGroup with am := 0x0000FFFF, p := [(1, 0x0000FFFF#32), (2, 0x0F0F00FF#32)], stack := [⟨0xFFFFFFFF, 0xFFFF0000, 0x25⟩] }
theorem test_nested_branches_of_01 :
    ((after gFares (.pushm tRef (fB 2 0 0x24))).any fun g =>
        g.am == 0xFF && g.stack == [⟨0xFFFF, 0xFF00, 0x24⟩, ⟨0xFFFFFFFF, 0xFFFF0000, 0x25⟩])
      ∧ ((after { gFares with am := 0xFF, stack := ⟨0xFFFF, 0xFF00, 0x24⟩ :: gFares.stack } (.popm tRef (fB 0 0 0))).any fun g =>
        g.am == 0xFFFF && g.stack == gFares.stack)
      ∧ ((after gFares (.elsem tRef (fB 0 0 0x27))).any fun g =>
        g.am == 0xFFFF0000 && g.stack == [⟨0xFFFFFFFF, 0, 0x27⟩]) := by decide +kernel

/-! ### Further clauses of the statements, at the values where they part -/

/-- An L2 entry to be lost; a mover whose tile is sent; sectors for the patrol; a re-orient due at 4 cycles; rows of a running
STREAM; a STREAM against sets that fit, EMPTY and not; a DRAIN whose first row is due and whose parameters fault. -/
theorem witness_arrays_and_slices :
    (l2Entry (onMs fun m => { m with l2 := [(0, { L2Slice.fresh with mbuf := [⟨0, 1, none, 0, []⟩] })] }) 0 0).isSome
      ∧ (l2Entry tMod 0 0).isNone
      ∧ (let s := onCore fun k => { k with movers := [(1, tMv)] }
         tileReady s 0 1 && (mget (coreOf s 0).movers 1).any fun x => x.phase == .sent)
      ∧ mgetD { tMod.hbm with patrol := [(0, 5)] }.patrol 0 0 ≠ 0 ∧ mgetD tMod.hbm.patrol 0 0 = 0
      ∧ (let q := tArr 0 .reorient (some 0)
         ldwDue (onArr fun a => { a with queue := [q], load := some ⟨0, 99996⟩ }) 0 == some q
           && ldwDue (onArr fun a => { a with queue := [q], load := some ⟨0, 99997⟩ }) 0 == none)
      ∧ (let q := tArr 0 .stream (some 0)
         isGhost (coreOf (onArr fun a => { a with queue := [q], streams := [tRun 99797 0] }) 0).arr q.id == false
           && streamAccum q.f == false && decide (0 < mxNrows q.f + 1))
      ∧ (let q := tArr 0 .stream (some 0)
         let s := onArr fun a => { a with queue := [q], active := { WeightSet.cleared with state := .loaded, fmt := 2 } }
         nextFeed (coreOf s 0).arr == some q && arrGoes s 0 q && streamMayStart s 0 q && streamSetsOk (coreOf s 0).arr
           && (coreOf s 0).arr.active.state != .empty)
      ∧ ArrayState.fresh.active.state = .empty
      ∧ (let q := tArr 0 .drain (some 0)
         let d := { tDrain 0 with par := [2, 0, 0, 0, 0x3F800000, 0, 0, 0] }
         (drainFault (onArr fun a => { a with queue := [q], drain := some d }) 0 d q 99976).isSome
           && (drainFault (onArr fun a => { a with queue := [q], drain := some (tDrain 0) }) 0 (tDrain 0) q 99976).isNone) := by
  decide +kernel

/-- A block in its turn; a time response that answers nothing; masked writes and atomics that fit and that do not, at their
bounds; an announcement due again at 3 µs and one cycle before. -/
theorem witness_blocks_in_their_turn :
    tHdr.psn = (peerOf (tFab id) 5).ctl.expect ∧ tHdr.psn = (peerOf (tFab id) 5).data.expect
      ∧ (peerOf (tFab id) 5).rejoinWait = false ∧ 1 ≠ (peerOf (tFab id) 5).ctl.expect
      ∧ ((tFab id).ftm.outs.find? fun o => o.seq == 1 && o.node == 5).isNone
      ∧ ledBy (tFab id) 4 5 = none
      ∧ { tHdr with addr := 0x180, len := 144 }.addr % 128 = 0 ∧ tHdr.len ≠ 144 ∧ tHdr.addr % 128 ≠ 0
      ∧ { tHdr with arg := 3 }.arg % 16 ≤ 3 ∧ 3 < { tHdr with arg := 4 }.arg % 16
      ∧ tHdr.addr % 32 = 0 ∧ (24 + aopSize 1 ≤ 32 ∧ 24 % aopSize 1 = 0) ∧ 28 + aopSize 1 = 36
      ∧ portRuns (tFab id) 5 = false
      ∧ announceDue (tFab fun p => { p with state := .unverified, told := true, lastSent := 10 ^ 15 - 10800 }) 5
      ∧ announceDue (tFab fun p => { p with state := .unverified, told := true, lastSent := 10 ^ 15 - 10799 }) 5 = false := by
  decide +kernel

/-- A calendar to be loaded, and one that comes after its install was refused; a connection that is accepted and two that are
not; firmware that serves the scheduler's page, and firmware halted; a queue pair whose requests are served, with ranges at the
ends of the reference-count region. -/
theorem witness_host_clauses :
    (tTime fun f => { f with cal := { f.cal with st := .loading } }).ftm.cal.st = .loading
      ∧ imageAwaited (tTime fun f => { f with cal := { f.cal with st := .refused 5, mask := 0 } })
      ∧ imageAwaited (tTime fun f => { f with cal := { f.cal with st := .refused 6, mask := 0 } })
      ∧ imageAwaited (tTime id) = false ∧ (tTime id).ftm.cal.st ≠ .loading
      ∧ reqAccepted { tHost with obj := { tHost.obj with qps := [] } } 1 9 0
      ∧ reqAccepted tHost 1 9 0 = false ∧ reqAccepted { tHost with obj := { tHost.obj with qps := [] } } 2 9 0 = false
      ∧ reqAccepted { tHost with obj := { tHost.obj with qps := [] } } 1 9 1 = false
      ∧ fwServes tHost pgSCH ∧ fwServes (onBoot fun b => { b with serving := false }) pgSCH = false
      ∧ hostReady tHost 1 ∧ 4194303 + 1 ≤ 4194304 ∧ 4194304 < 4194303 + 2 := by decide +kernel

/-! ### Single steps -/

def laneOf (g : Group) (i : Instr) (l : Nat) : Option Nat := (after g i).map fun g => (g.vreg 2 l).toNat

/-- V1 is all ones: lane 2 of V0 + V1 wraps, and saturates at the top of U32; the odd lanes are not in P1. -/
theorem test_add_wraps_and_saturates :
    laneOf tGroup (.addI tRef (fR 3)) 2 = some 7 ∧ laneOf tGroup (.addI tRef { fR 3 with sat := true }) 2 = some 0xFFFFFFFF
      ∧ laneOf tGroup (.addI tRef (fR 3)) 3 = some 0 := by decide +kernel

/-- The lesser of 8 and −1, and of 8 and 2³² − 1; a shift by the width; leading zeros of 0. -/
theorem test_signed_and_unsigned :
    laneOf tGroup (.minI tRef (fR 2)) 2 = some 0xFFFFFFFF ∧ laneOf tGroup (.minI tRef (fR 3)) 2 = some 8
      ∧ laneOf tGroup (.shl tRef { fR 3 with b := 32, kb := 2 }) 2 = some 0
      ∧ laneOf tGroup (.lzc tRef (fR1 3)) 0 = some 32 := by decide +kernel

/-- XLANE.UP by 1 moves the lane below, and lane 0 keeps its own. -/
theorem test_lane_exchange :
    laneOf tGroup (.xlaneUp tRef { fR 3 with b := 1, kb := 2 }) 2 = some 4
      ∧ laneOf tGroup (.xlaneUp tRef { fR 3 with b := 1, kb := 2 }) 0 = some 0 := by decide +kernel

/-- 1 + 2⁻²⁴ lies halfway and goes to the even neighbor, 1, with NX. -/
theorem test_add_float_ties_to_even :
    let g := { tGroup with v := [(0, List.replicate 32 0x3F800000#32), (1, List.replicate 32 0x33800000#32)] }
    laneOf g (.addF tRef (fR 0)) 0 = some 0x3F800000 ∧ (after g (.addF tRef (fR 0))).any (fun x => x.lmode != g.lmode) := by
  decide +kernel

/-- PMASK of P1 into S2; a scalar sum of −1 and 8; CALL's return index; a step on the front of the queue. -/
theorem test_scalars_and_call :
    (after tGroup (.pmask tRef { fR1 3 with pred := 0, a := 1 })).any (fun g => g.sreg 2 == 0x55555555#64)
      ∧ (after tGroup (.addS tRef { fS 5 with a := 2 })).any (fun g => g.sreg 2 == 7#64)
      ∧ (after tGroup (.call tRef (fB 0 0 9))).any (fun g => g.sreg 63 == 5#64 && g.pc == 9) := by decide +kernel

/-- A store to scratchpad leaves its bytes there, little-endian. -/
theorem test_scratchpad_store :
    nextHas (exec (.st tRef { fM 1 with data := 1 }) (tLane tGroup (.st tRef { fM 1 with data := 1 }))) (fun t =>
      scrBytes (coreOf t 0) 0 1032 4 == [0xFF, 0xFF, 0xFF, 0xFF] && scrBytes (coreOf t 0) 0 1036 4 == [0, 0, 0, 0]) := by decide +kernel

/-- The signal of a fence at VALUE is ignored; one of 2⁶³ poisons it. -/
theorem test_fence_signal :
    (mget (fenceSignal (onObj fun o => { o with fences := [(9, tFence 5 0)] }) 9 5).obj.fences 9).any (fun f => f == tFence 5 0)
      ∧ (mget (fenceSignal (onObj fun o => { o with fences := [(9, tFence 5 0)] }) 9 (2 ^ 63)).obj.fences 9).any
        (fun f => f == tFence 5 Code.fenceRange) := by decide +kernel

/-! ### Ill-formed commands, one for each check of WellFormed -/

theorem test_wf_core : wellFormed (.ldwStart 192) = false ∧ wellFormed (.ldwStart 191) := by decide +kernel
theorem test_wf_group :
    wellFormed (.branchPenaltyEnd ⟨0, 256⟩) = false ∧ wellFormed (.branchPenaltyEnd ⟨192, 0⟩) = false
      ∧ wellFormed (.branchPenaltyEnd ⟨191, 255⟩) := by decide +kernel
theorem test_wf_port : wellFormed (.frameSend 16) = false ∧ wellFormed (.frameSend 15) := by decide +kernel
theorem test_wf_stack : wellFormed (.l2MbufTimeout 16 0 .none) = false ∧ wellFormed (.l2MbufTimeout 15 0 .none) := by decide +kernel
theorem test_wf_channel :
    wellFormed (.spareSwitchDone 0 32) = false ∧ wellFormed (.spareSwitchStart 0 0 64) = false
      ∧ wellFormed (.spareSwitchStart 15 31 63) := by decide +kernel
theorem test_wf_domain : wellFormed (.dutyPeriod 16) = false ∧ wellFormed (.dutyPeriod 15) := by decide +kernel
theorem test_wf_id :
    wellFormed (.cmDreq 65536) = false ∧ wellFormed (.gangEnd { tHdr with src := 65536 } 0 0) = false ∧ wellFormed (.cmDreq 65535) := by decide +kernel
theorem test_wf_handle :
    wellFormed (.reclaimDone (2 ^ 48)) = false ∧ wellFormed (.reclaimDone (2 ^ 22)) = false
      ∧ wellFormed (.reclaimDone (2 ^ 32 + 5)) := by decide +kernel
theorem test_wf_page :
    wellFormed (.haltReached 0x10008) = false ∧ wellFormed (.haltReached 0x380000) = false ∧ wellFormed (.haltReached 0x10000) := by
  decide +kernel
theorem test_wf_cache :
    wellFormed (.cacheDrainEnd (.l1 192)) = false ∧ wellFormed (.cacheDrainEnd (.l2 16)) = false
      ∧ wellFormed (.cacheDrainEnd (.l2 15)) := by decide +kernel
theorem test_wf_header :
    wellFormed (.ack { tHdr with cls := 3 }) = false ∧ wellFormed (.ack { tHdr with session := 16 }) = false
      ∧ wellFormed (.ack { tHdr with epoch := 4096 }) = false ∧ wellFormed (.ack { tHdr with len := 257 }) = false
      ∧ wellFormed (.ack { tHdr with addr := 2 ^ 48 }) = false ∧ wellFormed (.ack { tHdr with psn := 2 ^ 32 }) = false
      ∧ wellFormed (.ack { tHdr with port := 16 }) = false ∧ wellFormed (.ack { tHdr with tag := 65536 }) = false
      ∧ wellFormed (.ack tHdr) := by decide +kernel
theorem test_wf_claim :
    wellFormed (.claim tHdr ⟨2 ^ 32, false, 0, 0⟩) = false ∧ wellFormed (.claim tHdr ⟨0, false, 65536, 0⟩) = false
      ∧ wellFormed (.claim tHdr ⟨0, false, 5, 1⟩) := by decide +kernel
theorem test_wf_outcome :
    wellFormed (.channelAccess 0 0 ⟨6, 0, .clean⟩) = false ∧ wellFormed (.channelAccess 0 0 ⟨5, 64, .clean⟩) = false
      ∧ wellFormed (.channelAccess 0 0 ⟨5, 63, .clean⟩) := by decide +kernel
theorem test_wf_sense :
    wellFormed (.bridleEvaluation { tSense 0 0 with temp := [] }) = false ∧ wellFormed (.bridleEvaluation (tSense 0 0)) := by
  decide +kernel
theorem test_wf_lengths :
    wellFormed (.registerWrite 0 0 2 0) = false ∧ wellFormed (.registerWrite 0 0 8 0)
      ∧ wellFormed (.atomic tHdr (List.replicate 11 ⟨0, 0, 0, 0⟩)) = false ∧ wellFormed (.atomic tHdr [])
      ∧ wellFormed (.scratchAccessPromote 0 32) = false ∧ wellFormed (.dispatch 16) = false
      ∧ wellFormed (.jtagInstruction 32) = false ∧ wellFormed (.refcountWrite 0 (2 ^ 22)) = false := by decide +kernel
theorem test_wf_numbers :
    wellFormed (.requestBadOp (tReqst 65536) 99) = false ∧ wellFormed (.requestBadOp (tReqst 0) 65536) = false
      ∧ wellFormed (.destroyFence (tReqst 1) (2 ^ 32)) = false ∧ wellFormed (.thermalTrip 192 0 0 0) = false
      ∧ wellFormed (.coreReset 0 65536) = false ∧ wellFormed (.warmRestart (2 ^ 192)) = false
      ∧ wellFormed (.destroyFence (tReqst 1) 5) := by decide +kernel
/-- A reserved field, a reserved RND, a kind that no source may have, a reserved TYPE, SAT where it means nothing; CVT between equal
types; W in a format without a second word; TARGET of POPM; ORIENT 2; rows past the accumulator memory. -/
theorem test_wf_lane_encodings :
    wellFormed (.addI tRef { fR 3 with rsv := 1 }) = false ∧ wellFormed (.addF tRef { fR 0 with rnd := 6 }) = false
      ∧ wellFormed (.gredAdd tRef { fR1 3 with ka := 1 }) = false ∧ wellFormed (.addI tRef (fR 4)) = false
      ∧ wellFormed (.minI tRef { fR 3 with sat := true }) = false ∧ wellFormed (.cvt tRef 0 (fR1 0)) = false
      ∧ wellFormed (.fence tRef { w := true, pred := 0, scope := 0, rsv := 0 }) = false
      ∧ wellFormed (.popm tRef (fB 0 0 1)) = false ∧ wellFormed (.mxLdw tRef (fX 1 3 (some 0x8000000020000000))) = false
      ∧ wellFormed (.mxStream tRef (fX 1 3 (some 0xAAA0000000000000))) = false
      ∧ wellFormed (.ld tRef { fM 0 with size := 5 }) = false ∧ wellFormed (.addI tRef (fR 3)) := by decide +kernel

/-! ### The step and the queue -/

theorem test_step_takes_the_front :
    nextHas (step { tMod with pending := [.trstN true, .status] }) (fun t => t.awl.trstLow && t.pending == [.status])
      ∧ nextHas (step State.reset) (fun t => t.now == 1 && t.pending == []) := by decide +kernel

/-- An empty queue, a module without power, memory with bytes in it, clocks that run, stand and are gated. -/
theorem witness_step_and_clocks :
    tMod.pending = [] ∧ State.reset.mon.pwrok = false ∧ Memory.wf (tLane tGroup (.and tRef (fR 3))).mem
      ∧ (tLane tGroup (.and tRef (fR 3))).mem ≠ [] ∧ tMod.ftm.running ∧ (-1000000000000 : Int) < tMod.ftm.rate
      ∧ tDom.stopped = false ∧ tDom.fast = false ∧ tDom.mhz = 3600 ∧ tDom.frac < 7200
      ∧ ({ tDom with stopped := true } : Dom).stopped ∧ ({ tDom with mhz := 0 } : Dom).mhz = 0 := by decide +kernel

theorem test_reset_memory : Memory.wf State.reset.mem := by decide

end Sys2Proof.Tests
end

