-- ==== Sys2Proof/Proofs/ThreadGroups.lean ====
section
/-! The mask stack, EXIT and SER regions (R30–R38): what each body of Control does in each of its cases, and from these the
statements about them. -/

namespace Sys2Proof.Machine

/-! ### Registers of the core's page -/

@[simp] theorem groupOf_setReg (s : State) (r : RegDef) (i v c slot : Nat) :
    groupOf (setReg s r i v) c slot = groupOf s c slot := rfl

@[simp] theorem groupOf_pmcEvent (s : State) (page code k : Nat) (ctx : Option Nat) (c slot : Nat) :
    groupOf (pmcEvent s page code k ctx) c slot = groupOf s c slot := by
  simp [groupOf, coreOf]

/-- A register of the issuing core's CORE page is among what an issue may change. -/
theorem coreOnly_setReg {s t : State} {gr : GroupRef} (h : CoreOnly s t gr) {r : RegDef} {i : Nat} (v : Nat)
    (lo : pgCORE gr.core ≤ r.at_ i) (hi : r.at_ i < pgCORE gr.core + 0x1000) : CoreOnly s (setReg t r i v) gr := by
  obtain ⟨fields, others, units, groups, regs⟩ := h
  refine ⟨?_, others, units, groups, fun a ha => ?_⟩
  · rw [fields]; rfl
  · have hne : a ≠ r.at_ i := by omega
    exact (mget_mset_ne _ _ hne).trans (regs a ha)

theorem coreMstkHwm_at (c : Nat) : Reg.coreMstkHwm.at_ c = pgCORE c + 0x44 := by
  simp only [RegDef.at_, Reg.coreMstkHwm, pgCORE]; omega

@[simp] theorem groupOf_noteDepth (s : State) (core depth c slot : Nat) :
    groupOf (noteDepth s core depth) c slot = groupOf s c slot := by
  unfold noteDepth; split <;> rfl

theorem coreOnly_noteDepth {s t : State} {gr : GroupRef} (h : CoreOnly s t gr) (depth : Nat) :
    CoreOnly s (noteDepth t gr.core depth) gr := by
  have hat := coreMstkHwm_at gr.core
  unfold noteDepth
  split
  · exact coreOnly_setReg h depth (by omega) (by omega)
  · exact h

/-! ### The jump of an empty active mask (R30, R31, R33, R34) -/

theorem emptyJump_none (gr : GroupRef) (s : State) (x : Group) :
    emptyJump gr s x none = .done (modGroup s gr.core gr.slot fun _ => x) := rfl

theorem emptyJump_lanes (gr : GroupRef) (s : State) {x : Group} (target : Option Nat) (h : x.am ≠ 0) :
    emptyJump gr s x target = .done (modGroup s gr.core gr.slot fun _ => x) := by
  cases target with
  | none => rfl
  | some t => exact if_neg h

theorem emptyJump_empty (gr : GroupRef) (s : State) {x : Group} (target : Nat) (h : x.am = 0) :
    emptyJump gr s x (some target) = .jump (modGroup s gr.core gr.slot fun _ => x) target true :=
  if_pos h

section
variable {s u : State} {gr : GroupRef} {g x : Group} {i : Instr} {body : State → Group → LaneRes}

theorem groupOf_replaced (r : groupOf u gr.core gr.slot = some g) :
    groupOf (modGroup u gr.core gr.slot fun _ => x) gr.core gr.slot = some x := by
  rw [groupOf_modGroup, r]; rfl

/-- A body that ends in `emptyJump` with lanes left lets the group go on. -/
theorem Issues.goesOn_of_lanes (h : Issues s gr g i) {target : Option Nat} (e : body s g = emptyJump gr u x target)
    (q : exec i s = issue gr i body s) (r : groupOf u gr.core gr.slot = some g) (c : CoreOnly s u gr) (lanes : x.am ≠ 0) :
    GoesOn s gr g i x :=
  h.goesOn (e.trans (emptyJump_lanes gr u target lanes)) q (groupOf_replaced r) (coreOnly_modGroup c _)

/-- A body that ends in `emptyJump` with no lane left makes the group jump, and the jump counts (R40). -/
theorem Issues.jumps_of_empty (h : Issues s gr g i) {target : Nat} (e : body s g = emptyJump gr u x (some target))
    (q : exec i s = issue gr i body s) (r : groupOf u gr.core gr.slot = some g) (c : CoreOnly s u gr) (empty : x.am = 0) :
    Jumps s gr g i target true x :=
  h.jumps (e.trans (emptyJump_empty gr u target empty)) q (groupOf_replaced r) (coreOnly_modGroup c _)

end

/-! ### PUSHM, ELSEM, POPM and ANDM -/

/-- What PUSHM makes of its group (R30). -/
def pushed (f : FmtB) (g : Group) : Group :=
  { g with stack := ⟨g.am, g.am &&& ~~~(g.preg f.pred.toNat), f.target.toNat⟩ :: g.stack,
           am := g.am &&& g.preg f.pred.toNat }

/-- The counts that a PUSHM leaves in the registers of its core (R59). -/
def pushCounted (s : State) (gr : GroupRef) (g : Group) : State :=
  noteDepth (pmcEvent s (pgCORE gr.core) 0x0104 1 (some (ctxOf s g.cmd))) gr.core (g.stack.length + 1)

@[simp] theorem groupOf_pushCounted (s : State) (gr : GroupRef) (g : Group) (c slot : Nat) :
    groupOf (pushCounted s gr g) c slot = groupOf s c slot := by
  simp [pushCounted]

theorem coreOnly_pushCounted (s : State) (gr : GroupRef) (g : Group) : CoreOnly s (pushCounted s gr g) gr :=
  coreOnly_noteDepth (coreOnly_pmc (coreOnly_refl s gr) _ _ _) _

section
variable (s : State) (gr : GroupRef) (f : FmtB) {g : Group}

theorem doPushm_of_full (h : 32 ≤ g.stack.length) : doPushm gr f s g = .fault Code.groupMaskStackOverflow 0 :=
  if_pos h

theorem doPushm_of_room (h : g.stack.length < 32) :
    doPushm gr f s g = emptyJump gr (pushCounted s gr g) (pushed f g) (some f.target.toNat) :=
  if_neg (Nat.not_le.mpr h)

theorem doElsem_nil (h : g.stack = []) : doElsem gr f s g = .fault Code.groupIllegalInstr 0 := by
  simp [doElsem, h]

theorem doElsem_cons {e : StackEntry} {rest : List StackEntry} (h : g.stack = e :: rest) :
    doElsem gr f s g =
      emptyJump gr s { g with stack := ⟨e.saved, 0, f.target.toNat⟩ :: rest, am := e.pending } (some f.target.toNat) := by
  simp [doElsem, h]

theorem doPopm_nil (h : g.stack = []) : doPopm gr s g = .fault Code.groupIllegalInstr 0 := by
  simp [doPopm, h]

theorem doPopm_cons {e : StackEntry} {rest : List StackEntry} (h : g.stack = e :: rest) :
    doPopm gr s g = .done (modGroup s gr.core gr.slot fun _ => { g with stack := rest, am := e.saved }) := by
  simp [doPopm, h, emptyJump_none]

theorem doAndm_of_bad (h : andmBad g f.k.toNat = true) : doAndm gr f s g = .fault Code.groupIllegalInstr 0 :=
  if_pos h

theorem doAndm_of_ok (h : andmBad g f.k.toNat = false) :
    doAndm gr f s g =
      emptyJump gr s { g with am := g.am &&& g.preg f.pred.toNat, stack := clearTop (g.preg f.pred.toNat) f.k.toNat g.stack }
        (g.stack.head?.map StackEntry.target) := by
  simp [doAndm, h]

/-- Outside a SER region ANDM is illegal at depth 0 and with k above the depth, and nowhere else (R35). -/
theorem andmBad_outside_ser {k : Nat} (h : g.ser = none) :
    andmBad g k = true ↔ g.stack = [] ∨ g.stack.length < k := by
  simp [andmBad, h]

end

section
variable {s : State} {gr : GroupRef} {f : FmtB} {g : Group}

theorem pushm_cases (h : Issues s gr g (.pushm gr f)) :
    (32 ≤ g.stack.length → Faults s gr g (.pushm gr f) Code.groupMaskStackOverflow 0) ∧
    (g.stack.length < 32 → (pushed f g).am ≠ 0 → GoesOn s gr g (.pushm gr f) (pushed f g)) ∧
    (g.stack.length < 32 → (pushed f g).am = 0 → Jumps s gr g (.pushm gr f) f.target.toNat true (pushed f g)) := by
  have resident : groupOf (pushCounted s gr g) gr.core gr.slot = some g := by simpa using h.resident
  refine ⟨fun full => ?_, fun room lanes => ?_, fun room empty => ?_⟩
  · exact h.fault (doPushm_of_full s gr f full) rfl
  · exact h.goesOn_of_lanes (doPushm_of_room s gr f room) rfl resident (coreOnly_pushCounted s gr g) lanes
  · exact h.jumps_of_empty (doPushm_of_room s gr f room) rfl resident (coreOnly_pushCounted s gr g) empty

theorem elsem_cases (h : Issues s gr g (.elsem gr f)) :
    (g.stack = [] → Faults s gr g (.elsem gr f) Code.groupIllegalInstr 0) ∧
    (∀ e rest, g.stack = e :: rest →
      let x := { g with stack := ⟨e.saved, 0, f.target.toNat⟩ :: rest, am := e.pending }
      (e.pending ≠ 0 → GoesOn s gr g (.elsem gr f) x) ∧
      (e.pending = 0 → Jumps s gr g (.elsem gr f) f.target.toNat true x)) := by
  refine ⟨fun nil => h.fault (doElsem_nil s gr f nil) rfl, fun e rest top => ⟨fun lanes => ?_, fun empty => ?_⟩⟩
  · exact h.goesOn_of_lanes (doElsem_cons s gr f top) rfl h.resident (coreOnly_refl s gr) lanes
  · exact h.jumps_of_empty (doElsem_cons s gr f top) rfl h.resident (coreOnly_refl s gr) empty

theorem popm_cases (h : Issues s gr g (.popm gr f)) :
    (g.stack = [] → Faults s gr g (.popm gr f) Code.groupIllegalInstr 0) ∧
    (∀ e rest, g.stack = e :: rest → GoesOn s gr g (.popm gr f) { g with stack := rest, am := e.saved }) := by
  refine ⟨fun nil => ?_, fun e rest top => ?_⟩
  · exact h.fault (body := doPopm gr) (doPopm_nil s gr nil) rfl
  · exact h.goesOn (body := doPopm gr) (doPopm_cons s gr top) rfl (groupOf_replaced h.resident)
      (coreOnly_modGroup (coreOnly_refl s gr) _)

theorem andm_cases (h : Issues s gr g (.andm gr f)) :
    let p := g.preg f.pred.toNat
    let x := { g with am := g.am &&& p, stack := clearTop p f.k.toNat g.stack }
    (andmBad g f.k.toNat = true → Faults s gr g (.andm gr f) Code.groupIllegalInstr 0) ∧
    (andmBad g f.k.toNat = false → g.am &&& p ≠ 0 → GoesOn s gr g (.andm gr f) x) ∧
    (∀ e rest, andmBad g f.k.toNat = false → g.am &&& p = 0 → g.stack = e :: rest →
      Jumps s gr g (.andm gr f) e.target true x) := by
  refine ⟨fun bad => ?_, fun ok lanes => ?_, fun e rest ok empty top => ?_⟩
  · exact h.fault (doAndm_of_bad s gr f bad) rfl
  · exact h.goesOn_of_lanes (doAndm_of_ok s gr f ok) rfl h.resident (coreOnly_refl s gr) lanes
  · have target : g.stack.head?.map StackEntry.target = some e.target := by rw [top]; rfl
    have body := doAndm_of_ok s gr f ok
    rw [target] at body
    exact h.jumps_of_empty body rfl h.resident (coreOnly_refl s gr) empty

end

/-- Settles O19: case by case, each body ends in `emptyJump` or in its fault. -/
theorem maskStackFollowsItsRules : Obligations.MaskStackFollowsItsRules :=
  ⟨fun _ _ _ _ h => pushm_cases h,
   fun _ _ _ _ => ⟨elsem_cases, popm_cases, andm_cases, andmBad_outside_ser⟩⟩

/-! ### The barriers of a group that has ended (R105) -/

/-- A map over the values of a map of the state. -/
theorem mget_mapValues {β : Type} (m : NMap β) (f : β → β) (k : Nat) :
    mget (m.map fun e => (e.1, f e.2)) k = (mget m k).map f := by
  induction m with
  | nil => rfl
  | cons e t ih =>
    simp only [List.map_cons, mget]
    split
    · rfl
    · exact ih

@[simp] theorem groupOf_setBar (s : State) (core : Nat) (g : Group) (b : Nat) (x : Barrier) (slot : Nat) :
    groupOf (setBar s core g b x) core slot = groupOf s core slot := by
  simp [groupOf, setBar]

/-- What the end of a phase of barrier `b` does to a group: one of the set that waits for the phase goes on. -/
def woken (g : Group) (b phase : Nat) (y : Group) : Group :=
  if y.cmd = g.cmd ∧ y.set = g.set ∧ y.wait = .barrier b phase then { y with wait := .none } else y

theorem woken_frame (g : Group) (b phase : Nat) (y : Group) : ∃ wait, woken g b phase y = { y with wait } := by
  unfold woken
  split
  · exact ⟨.none, rfl⟩
  · exact ⟨y.wait, rfl⟩

/-- A phase that is over empties the barrier, begins the next phase and wakes its waiters. -/
theorem settleBar_of_over {s : State} {core : Nat} {g : Group} {b : Nat}
    (h : phaseOver s core g (barOf s core g b) ∧ (barOf s core g b).arrived ≠ []) :
    settleBar s core g b =
      modCore (setBar s core g b { arrived := [], phase := (barOf s core g b).phase + 1 }) core fun k =>
        { k with groups := k.groups.map fun e => (e.1, woken g b (barOf s core g b).phase e.2) } :=
  if_pos h

theorem settleBar_of_not_over {s : State} {core : Nat} {g : Group} {b : Nat}
    (h : ¬(phaseOver s core g (barOf s core g b) ∧ (barOf s core g b).arrived ≠ [])) : settleBar s core g b = s :=
  if_neg h

/-- A barrier that is looked at changes of a group at most what it waits for. -/
theorem groupOf_settleBar {s : State} {core slot : Nat} {x : Group} (g : Group) (b : Nat)
    (h : groupOf s core slot = some x) : ∃ wait, groupOf (settleBar s core g b) core slot = some { x with wait } := by
  by_cases ended : phaseOver s core g (barOf s core g b) ∧ (barOf s core g b).arrived ≠ []
  · obtain ⟨wait, hw⟩ := woken_frame g b (barOf s core g b).phase x
    have kept := (groupOf_setBar s core g b { arrived := [], phase := (barOf s core g b).phase + 1 } slot).trans h
    refine ⟨wait, ?_⟩
    unfold groupOf at kept ⊢
    rw [settleBar_of_over ended, coreOf_modCore, mget_mapValues, kept, Option.map_some, hw]
  · exact ⟨x.wait, by rw [settleBar_of_not_over ended, h]⟩

theorem groupOf_settleBars {s : State} {core slot : Nat} {x : Group} (g : Group) (n : Nat)
    (h : groupOf s core slot = some x) : ∃ wait, groupOf (settleBars s core g n) core slot = some { x with wait } := by
  induction n with
  | zero => exact ⟨x.wait, h⟩
  | succ n ih =>
    obtain ⟨w, hw⟩ := ih
    obtain ⟨w', hw'⟩ := groupOf_settleBar g n hw
    exact ⟨w', hw'⟩

@[simp] theorem groupOf_coreProgress (s : State) (core slot : Nat) :
    groupOf (coreProgress s core) core slot = groupOf s core slot := by
  simp [groupOf, coreProgress]

/-! ### EXIT -/

/-- The lanes that EXIT ends are gone from its group (R34). -/
def exitedBy (f : FmtB) (g : Group) : Group :=
  { g with am := g.am &&& ~~~(g.eff f.pred), exited := g.exited ||| g.eff f.pred,
           stack := clearTop (~~~(g.eff f.pred)) 32 g.stack }

/-- What EXIT leaves when its last lane has finished: the group has ended, and its set's barriers no longer count it. -/
def exitEnds (s : State) (gr : GroupRef) (x : Group) : State :=
  coreProgress (settleBars (modGroup s gr.core gr.slot fun _ => x) gr.core x 16) gr.core

theorem groupOf_exitEnds {s : State} {gr : GroupRef} {g : Group} (x : Group) (h : groupOf s gr.core gr.slot = some g) :
    ∃ wait, groupOf (exitEnds s gr x) gr.core gr.slot = some { x with wait } := by
  obtain ⟨wait, hw⟩ := groupOf_settleBars x 16 (groupOf_replaced (x := x) h)
  exact ⟨wait, (groupOf_coreProgress _ _ _).trans hw⟩

theorem clearTop_head_target (p : Word) (k : Nat) (l : List StackEntry) :
    (clearTop p k l).head?.map StackEntry.target = l.head?.map StackEntry.target := by
  cases k <;> cases l <;> rfl

section
variable (s : State) (gr : GroupRef) (f : FmtB) {g : Group}

theorem doExit_in_ser (h : g.ser ≠ none) : doExit gr f s g = .fault Code.groupIllegalInstr 0 :=
  if_pos (Option.isSome_iff_ne_none.mpr h)

theorem doExit_of_lanes (out : g.ser = none) (left : g.launch &&& ~~~(exitedBy f g).exited ≠ 0) :
    doExit gr f s g = emptyJump gr s (exitedBy f g) (g.stack.head?.map StackEntry.target) := by
  have target := clearTop_head_target (~~~(g.eff f.pred)) 32 g.stack
  rw [← target]
  unfold doExit
  rw [if_neg (by simp [out])]
  exact if_neg left

theorem doExit_of_last (out : g.ser = none) (last : g.launch &&& ~~~(exitedBy f g).exited = 0) :
    doExit gr f s g = .done (exitEnds s gr { exitedBy f g with ended := true, stack := [] }) := by
  unfold doExit
  rw [if_neg (by simp [out])]
  exact if_pos last

end

/-- The group after an issue, where the effect has left it as `x`. -/
theorem groupOf_setPc_noteIssue {t : State} {gr : GroupRef} {x : Group} (h : groupOf t gr.core gr.slot = some x) (i : Instr)
    (n : Nat) :
    groupOf (setPc (noteIssue t gr i) gr n) gr.core gr.slot =
      some { x with pc := n % 2 ^ 32, lastIssue := coreCyc t gr.core + 1, eligAt := none, sb := x.sb ++ owes t gr i } := by
  rw [setPc, groupOf_modGroup, groupOf_noteIssue h]
  rfl

theorem exit_cases {s : State} {gr : GroupRef} {f : FmtB} {g : Group} (h : Issues s gr g (.exit gr f)) :
    let x := exitedBy f g
    (g.ser ≠ none → Faults s gr g (.exit gr f) Code.groupIllegalInstr 0) ∧
    (g.ser = none → g.launch &&& ~~~x.exited ≠ 0 → x.am ≠ 0 → GoesOn s gr g (.exit gr f) x) ∧
    (∀ e rest, g.ser = none → g.launch &&& ~~~x.exited ≠ 0 → x.am = 0 → g.stack = e :: rest →
      Jumps s gr g (.exit gr f) e.target true x) ∧
    (g.ser = none → g.launch &&& ~~~x.exited = 0 → Gives (.exit gr f) s fun t =>
      ∃ y, groupOf t gr.core gr.slot = some y ∧ y.ended = true ∧ y.stack = [] ∧ y.exited = x.exited ∧ y.am = x.am) := by
  refine ⟨fun inSer => ?_, fun out left lanes => ?_, fun e rest out left empty top => ?_, fun out last => ?_⟩
  · exact h.fault (doExit_in_ser s gr f inSer) rfl
  · exact h.goesOn_of_lanes (doExit_of_lanes s gr f out left) rfl h.resident (coreOnly_refl s gr) lanes
  · have target : g.stack.head?.map StackEntry.target = some e.target := by rw [top]; rfl
    have body := doExit_of_lanes s gr f out left
    rw [target] at body
    exact h.jumps_of_empty body rfl h.resident (coreOnly_refl s gr) empty
  · obtain ⟨wait, hw⟩ := groupOf_exitEnds { exitedBy f g with ended := true, stack := [] } h.resident
    exact ⟨_, h.done (body := doExit gr f) (doExit_of_last s gr f out last), _, groupOf_setPc_noteIssue hw _ _,
      rfl, rfl, rfl, rfl⟩

/-- Settles O20: EXIT ends in its fault, in `emptyJump` or in `exitEnds`, of which only the last looks at barriers. -/
theorem exitRetiresItsLanes : Obligations.ExitRetiresItsLanes := fun _ _ _ _ h => exit_cases h

/-! ### SER regions -/

/-- The count of an iteration of a SER region (R38). -/
def serCounted (s : State) (gr : GroupRef) (g : Group) : State :=
  pmcEvent s (pgCORE gr.core) 0x0105 1 (some (ctxOf s g.cmd))

theorem coreOnly_serCounted (s : State) (gr : GroupRef) (g : Group) : CoreOnly s (serCounted s gr g) gr :=
  coreOnly_pmc (coreOnly_refl s gr) _ _ _

/-- The region that SER.BEGIN records (R36). -/
def serRegion (g : Group) : SerRegion :=
  ⟨g.am, laneIndex (lowestFrom g.am 0), (g.pc + 1) % 2 ^ 32, g.stack.length⟩

/-- The group in its region with one lane active, or behind it with the whole lane set. -/
def inRegion (r : Option SerRegion) (am : Word) (g : Group) : Group := { g with ser := r, am }

section
variable (s : State) (gr : GroupRef) {g : Group}

theorem doSerBegin_nested (h : g.ser ≠ none) : doSerBegin gr s g = .fault Code.groupIllegalInstr 0 :=
  if_pos (Option.isSome_iff_ne_none.mpr h)

theorem doSerBegin_outside (h : g.ser = none) :
    doSerBegin gr s g =
      .done (modGroup (serCounted s gr g) gr.core gr.slot (inRegion (some (serRegion g)) (lowestFrom g.am 0))) :=
  if_neg (by simp [h])

theorem doSerEnd_outside (h : g.ser = none) : doSerEnd gr s g = .fault Code.groupIllegalInstr 0 := by
  simp [doSerEnd, h]

variable {r : SerRegion} (h : g.ser = some r)
include h

theorem doSerEnd_other_depth (d : g.stack.length ≠ r.depth) : doSerEnd gr s g = .fault Code.groupIllegalInstr 0 := by
  simp [doSerEnd, h, d]

theorem doSerEnd_last (d : g.stack.length = r.depth) (last : lowestFrom r.lanes (r.cur + 1) = 0) :
    doSerEnd gr s g = .done (modGroup s gr.core gr.slot (inRegion none r.lanes)) := by
  simp only [doSerEnd, h, d, last, ne_eq, not_true_eq_false, if_true, if_false]
  rfl

theorem doSerEnd_next (d : g.stack.length = r.depth) (next : lowestFrom r.lanes (r.cur + 1) ≠ 0) :
    doSerEnd gr s g =
      .jump (modGroup (serCounted s gr g) gr.core gr.slot
        (inRegion (some { r with cur := laneIndex (lowestFrom r.lanes (r.cur + 1)) }) (lowestFrom r.lanes (r.cur + 1))))
        r.start false := by
  simp only [doSerEnd, h, d, next, ne_eq, not_true_eq_false, if_false]
  rfl

end

section
variable {s : State} {gr : GroupRef} {f : FmtB} {g : Group}

theorem groupOf_serCounted_mod (h : groupOf s gr.core gr.slot = some g) (k : Group → Group) :
    groupOf (modGroup (serCounted s gr g) gr.core gr.slot k) gr.core gr.slot = some (k g) := by
  simp [serCounted, h]

theorem serBegin_cases (h : Issues s gr g (.serBegin gr f)) :
    (g.ser ≠ none → Faults s gr g (.serBegin gr f) Code.groupIllegalInstr 0) ∧
    (g.ser = none → GoesOn s gr g (.serBegin gr f) (inRegion (some (serRegion g)) (lowestFrom g.am 0) g)) := by
  refine ⟨fun nested => ?_, fun outside => ?_⟩
  · exact h.fault (body := doSerBegin gr) (doSerBegin_nested s gr nested) rfl
  · exact h.goesOn (body := doSerBegin gr) (doSerBegin_outside s gr outside) rfl (groupOf_serCounted_mod h.resident _)
      (coreOnly_modGroup (coreOnly_serCounted s gr g) _)

theorem serEnd_cases (h : Issues s gr g (.serEnd gr f)) :
    (g.ser = none → Faults s gr g (.serEnd gr f) Code.groupIllegalInstr 0) ∧
    (∀ r, g.ser = some r → g.stack.length ≠ r.depth → Faults s gr g (.serEnd gr f) Code.groupIllegalInstr 0) ∧
    (∀ r, g.ser = some r → g.stack.length = r.depth →
      let next := lowestFrom r.lanes (r.cur + 1)
      (next = 0 → GoesOn s gr g (.serEnd gr f) (inRegion none r.lanes g)) ∧
      (next ≠ 0 → Jumps s gr g (.serEnd gr f) r.start false
        (inRegion (some { r with cur := laneIndex next }) next g))) := by
  refine ⟨fun outside => ?_, fun r hr d => ?_, fun r hr d => ⟨fun last => ?_, fun next => ?_⟩⟩
  · exact h.fault (body := doSerEnd gr) (doSerEnd_outside s gr outside) rfl
  · exact h.fault (body := doSerEnd gr) (doSerEnd_other_depth s gr hr d) rfl
  · exact h.goesOn (body := doSerEnd gr) (doSerEnd_last s gr hr d last) rfl (by simp [h.resident])
      (coreOnly_modGroup (coreOnly_refl s gr) _)
  · exact h.jumps (body := doSerEnd gr) (doSerEnd_next s gr hr d next) rfl (groupOf_serCounted_mod h.resident _)
      (coreOnly_modGroup (coreOnly_serCounted s gr g) _)

end

/-- Settles O21: SER.BEGIN and SER.END change their group by `inRegion` or fault. -/
theorem serRegionsRunLaneByLane : Obligations.SerRegionsRunLaneByLane :=
  fun _ _ _ _ => ⟨serBegin_cases, serEnd_cases⟩

end Sys2Proof.Machine
end

