-- ==== Sys2Proof/Proofs/LaneInstructions.lean ====
section
/-! Lane exchanges, calls and returns (R75, R103): what a vector write leaves in each lane of each register, and from it what
an instruction that writes Vd does at its issue. -/

namespace Sys2Proof.Machine

/-! ### Vector registers (R27, R68, R69) -/

/-- A register written in the lanes of a mask holds the new values there and what it held elsewhere. -/
theorem vreg_putV (g : Group) (d : BitVec 8) (m : Word) (vals : List Word) (r : BitVec 8) {l : Nat} (hl : l < 32) :
    (g.putV d m vals).vreg r l = if r = d ∧ r ≠ 0xFF#8 ∧ m.getLsbD l then vals.getD l 0 else g.vreg r l := by
  by_cases discard : d = 0xFF#8
  · have kept : ¬(r = d ∧ r ≠ 0xFF#8 ∧ m.getLsbD l) := fun ⟨same, real, _⟩ => real (same.trans discard)
    rw [if_neg kept, Group.putV, if_pos discard]
  · by_cases same : r = d
    · subst same
      simp [Group.putV, Group.vreg, discard, hl]
    · have other : r.toNat ≠ d.toNat := fun e => same (BitVec.eq_of_toNat_eq e)
      simp [Group.putV, Group.vreg, discard, same, mgetD_mset_ne _ _ _ other]

/-- A vector write changes nothing of its group but the vector registers. -/
theorem putV_frame (g : Group) (d : BitVec 8) (m : Word) (vals : List Word) : ∃ v, g.putV d m vals = { g with v } := by
  unfold Group.putV
  split
  · exact ⟨g.v, rfl⟩
  · exact ⟨_, rfl⟩

/-! ### The issue of an instruction that writes Vd -/

/-- The instruction issues, and of its group Vd alone changes, to `val` in the lanes of the effective mask. -/
def WritesLanes (s : State) (gr : GroupRef) (f : FmtR) (g : Group) (i : Instr) (val : Nat → Word) : Prop :=
  Gives i s fun t => ∃ v,
    IssuedAs s t gr i { g with v, pc := goesOn g i } ∧ CoreOnly s t gr ∧
    ∀ (r : BitVec 8) (l : Nat), l < 32 →
      ({ g with v } : Group).vreg r l =
        if r = f.dst ∧ r ≠ 0xFF#8 ∧ (g.eff f.pred).getLsbD l then val l else g.vreg r l

theorem Issues.writesLanes {s : State} {gr : GroupRef} {f : FmtR} {g : Group} {i : Instr} (h : Issues s gr g i)
    (val : Group → Nat → Nat) (q : exec i s = issue gr i (laneV gr f val) s) :
    WritesLanes s gr f g i fun l => BitVec.ofNat 32 (val g l) := by
  obtain ⟨t, runs, issued, core⟩ :=
    h.onGroup fun x => x.putV f.dst (x.eff f.pred) ((List.range 32).map fun l => BitVec.ofNat 32 (val x l))
  obtain ⟨v, hv⟩ := putV_frame g f.dst (g.eff f.pred) ((List.range 32).map fun l => BitVec.ofNat 32 (val g l))
  refine ⟨t, q.trans runs, v, ?_, core, fun r l hl => ?_⟩
  · rwa [hv] at issued
  · rw [← hv, vreg_putV g f.dst _ _ r hl]
    simp [hl]

/-! ### Lane exchanges (R75) -/

/-- The lane that an exchange reads: the source lane, or the lane itself where that is outside 0–31. -/
theorem srcLane_getD (k : Int) (l : Nat) : (srcLane k).getD l = if 0 ≤ k ∧ k < 32 then k.toNat else l := by
  unfold srcLane
  split <;> rfl

/-- Every form of XLANE issues by `laneX`, with its own source lane. -/
theorem exec_of_mem_exchangeRows {gr : GroupRef} {f : FmtR} {i : Instr} {src : Nat → Word → Int}
    (row : (i, src) ∈ exchangeRows gr f) (s : State) :
    exec i s = issue gr i (laneX gr f fun l k => srcLane (src l k)) s := by
  simp only [exchangeRows, List.mem_cons, List.not_mem_nil, or_false, Prod.mk.injEq] at row
  obtain ⟨rfl, rfl⟩ | ⟨rfl, rfl⟩ | ⟨rfl, rfl⟩ | ⟨rfl, rfl⟩ := row <;> rfl

theorem exchange_writesLanes {s : State} {gr : GroupRef} {f : FmtR} {g : Group} {i : Instr} {src : Nat → Word → Int}
    (row : (i, src) ∈ exchangeRows gr f) (h : Issues s gr g i) :
    WritesLanes s gr f g i fun l =>
      let k := src l (BitVec.ofNat 32 (g.srcB f 2 l))
      BitVec.ofNat 32 (g.srcA f f.typ.toNat (if 0 ≤ k ∧ k < 32 then k.toNat else l)) := by
  simp only [← srcLane_getD]
  exact h.writesLanes _ (exec_of_mem_exchangeRows row s)

/-- Settles O12: an exchange is a vector write whose value is source A at the lane that `srcLane_getD` gives. -/
theorem laneExchangesReadTheSourceLane : Obligations.LaneExchangesReadTheSourceLane :=
  fun _ _ _ _ _ _ row h => exchange_writesLanes row h

/-! ### Calls and returns (R103) -/

section
variable {s : State} {gr : GroupRef} {f : FmtB} {g : Group}

theorem call_jumps (h : Issues s gr g (.call gr f)) :
    Jumps s gr g (.call gr f) f.target.toNat false (g.putS 63 (BitVec.ofNat 64 (nextIdx g))) := by
  have resident : groupOf (modGroup s gr.core gr.slot fun y => y.putS 63 (BitVec.ofNat 64 (nextIdx g))) gr.core gr.slot =
      some (g.putS 63 (BitVec.ofNat 64 (nextIdx g))) := by simp [h.resident]
  exact h.jumps rfl rfl resident (coreOnly_modGroup (coreOnly_refl s gr) _)

theorem ret_jumps (h : Issues s gr g (.ret gr f)) :
    Jumps s gr g (.ret gr f) ((g.sreg 63).toNat % 2 ^ 32) false g :=
  h.jumps rfl rfl h.resident (coreOnly_refl s gr)

end

/-- Settles O18: CALL and RET end in a jump that is not counted, CALL after its write of S63. -/
theorem callsAndReturnsUseS63 : Obligations.CallsAndReturnsUseS63 :=
  fun _ _ _ _ => ⟨call_jumps, ret_jumps⟩

end Sys2Proof.Machine
end

