-- ==== Sys2Proof/Proofs/CanonicalOps.lean ====
section
/-! Every step keeps memory canonical (O7). A lemma for each function of the model whose result holds a state, in the order of
their definitions: memory is canonical after it where it was before. Only a few functions write memory, by the operations
of Laws/Memory; a proof follows the branches of its definition and cites the lemma of what each branch calls. Here those
of the shared operations: registers, errors, commands, host objects. -/

namespace Sys2Proof.Machine

theorem MemoryCanonical.of_mem {s t : State} (h : MemoryCanonical s) (e : t.mem = s.mem) : MemoryCanonical t := by
  unfold MemoryCanonical
  rw [e]
  exact h

theorem MemoryCanonical.ite {c : Prop} [Decidable c] {s t : State} (hs : MemoryCanonical s) (ht : MemoryCanonical t) :
    MemoryCanonical (if c then s else t) := by
  split
  · exact hs
  · exact ht

theorem MemoryCanonical.foldl {α : Type} {f : State → α → State} {l : List α}
    (hf : ∀ s a, MemoryCanonical s → MemoryCanonical (f s a)) {s : State} (h : MemoryCanonical s) :
    MemoryCanonical (l.foldl f s) := by
  induction l generalizing s with
  | nil => exact h
  | cons a l ih => exact ih (hf s a h)

theorem MemoryCanonical.ite_snd {α : Type} {c : Prop} [Decidable c] {p q : α × State} (hp : MemoryCanonical p.2)
    (hq : MemoryCanonical q.2) : MemoryCanonical (if c then p else q).2 := by
  split
  · exact hp
  · exact hq

theorem MemoryCanonical.ite_fst {α : Type} {c : Prop} [Decidable c] {p q : State × α} (hp : MemoryCanonical p.1)
    (hq : MemoryCanonical q.1) : MemoryCanonical (if c then p else q).1 := by
  split
  · exact hp
  · exact hq

/-- Memory is canonical in the state that an effect leaves. -/
def LaneRes.Canonical : LaneRes → Prop
  | .fault _ _ => True
  | .stall s => MemoryCanonical s
  | .done s => MemoryCanonical s
  | .jump s _ _ => MemoryCanonical s

theorem LaneRes.Canonical.ite {c : Prop} [Decidable c] {r q : LaneRes} (hr : r.Canonical) (hq : q.Canonical) :
    (if c then r else q).Canonical := by
  split
  · exact hr
  · exact hq

theorem MemoryCanonical.of_done {r : LaneRes} {s : State} (e : r = .done s) (h : r.Canonical) : MemoryCanonical s := by
  rw [e] at h
  exact h

/-- Memory is canonical in the state that a command answers. -/
def OutcomeCanonical : Host.Outcome State Fault Refusal → Prop
  | .next s => MemoryCanonical s
  | _ => True

theorem OutcomeCanonical.ite {c : Prop} [Decidable c] {r q : Host.Outcome State Fault Refusal} (hr : OutcomeCanonical r)
    (hq : OutcomeCanonical q) : OutcomeCanonical (if c then r else q) := by
  split
  · exact hr
  · exact hq

theorem canonical_setReg {s : State} {r : RegDef} {i v : Nat} (h : MemoryCanonical s) :
    MemoryCanonical (setReg s r i v) := .of_mem h (setReg_mem _ _ _ _)

theorem canonical_incReg {s : State} {r : RegDef} {i : Nat} {n : Nat} (h : MemoryCanonical s) :
    MemoryCanonical (incReg s r i n) := .of_mem h (incReg_mem _ _ _ _)

theorem canonical_setRaw {s : State} {a v : Nat} (h : MemoryCanonical s) : MemoryCanonical (setRaw s a v) :=
  .of_mem h (setRaw_mem _ _ _)

theorem canonical_pmcBump {s : State} {page code k x : Nat} (h : MemoryCanonical s) :
    MemoryCanonical (pmcBump s page code k x) := .of_mem h (pmcBump_mem _ _ _ _ _)

theorem canonical_pmcEvent {s : State} {page code k : Nat} {ctx : Option Nat} (h : MemoryCanonical s) :
    MemoryCanonical (pmcEvent s page code k ctx) := .of_mem h (pmcEvent_mem _ _ _ _ _)

theorem canonical_pgErr {s : State} {page code : Nat} (h : MemoryCanonical s) : MemoryCanonical (pgErr s page code) :=
  .of_mem h (pgErr_mem _ _ _)

theorem canonical_hptLog {s : State} {tenant code : Nat} (h : MemoryCanonical s) :
    MemoryCanonical (hptLog s tenant code) := .of_mem h (hptLog_mem _ _ _)

theorem canonical_emit {s : State} {o : Out} (h : MemoryCanonical s) : MemoryCanonical (emit s o) :=
  .of_mem h (emit_mem _ _)

theorem canonical_toHostPort {s : State} {o : Out} (h : MemoryCanonical s) : MemoryCanonical (toHostPort s o) :=
  .ite (canonical_emit h) (.of_mem h rfl)

theorem canonical_flushHost {s : State} (h : MemoryCanonical s) : MemoryCanonical (flushHost s) :=
  .foldl (fun _ _ h => canonical_emit h) (.of_mem h rfl)

theorem canonical_hostWrite {s : State} {tenant addr : Nat} {data : List Byte} {why : HostPend}
    (h : MemoryCanonical s) :
    MemoryCanonical (hostWrite s tenant addr data why) := .of_mem h (hostWrite_mem _ _ _ _ _)

theorem canonical_hostRead {s : State} {tenant addr n : Nat} (h : MemoryCanonical s) :
    MemoryCanonical (hostRead s tenant addr n) := .ite (canonical_emit h) h

theorem canonical_dueWarm {s : State} {trigger code : Nat} (h : MemoryCanonical s) :
    MemoryCanonical (dueWarm s trigger code) := .of_mem h (dueWarm_mem _ _ _)

theorem canonical_errWrite {s : State} {e : ErrEntry} (h : MemoryCanonical s) : MemoryCanonical (errWrite s e) :=
  .of_mem h (errWrite_mem _ _)

theorem canonical_modErr {s : State} {f : Errors → Errors} (h : MemoryCanonical s) : MemoryCanonical (modErr s f) :=
  .of_mem h (modErr_mem _ _)

theorem canonical_unitProgress {s : State} {u : Nat} (h : MemoryCanonical s) : MemoryCanonical (unitProgress s u) :=
  .of_mem h (unitProgress_mem _ _)

theorem canonical_logOnly {s : State} {code page : Nat} (h : MemoryCanonical s) :
    MemoryCanonical (logOnly s code page) := .of_mem h (logOnly_mem _ _ _)

theorem canonical_logPeer {s : State} {code page node tag : Nat} (h : MemoryCanonical s) :
    MemoryCanonical (logPeer s code page node tag) := .of_mem h (logPeer_mem _ _ _ _ _)

theorem canonical_markMore {s : State} {seq : Nat} (h : MemoryCanonical s) : MemoryCanonical (markMore s seq) :=
  .of_mem h (markMore_mem _ _)

theorem canonical_escalate {s : State} {d : Domain} {code : Nat} (h : MemoryCanonical s) :
    MemoryCanonical (escalate s d code) := .of_mem h (escalate_mem _ _ _)

theorem canonical_queueRecovery {s : State} {seq : Nat} {d : Domain} {code : Nat} (h : MemoryCanonical s) :
    MemoryCanonical (queueRecovery s seq d code) := .of_mem h (queueRecovery_mem _ _ _ _)

theorem canonical_raiseUnit {s : State} {code : Nat} {d : Domain} (h : MemoryCanonical s) :
    MemoryCanonical (raiseUnit s code d) := .of_mem h (raiseUnit_mem _ _ _)

theorem canonical_raiseFatal {s : State} {code page addr : Nat} (h : MemoryCanonical s) :
    MemoryCanonical (raiseFatal s code page addr) := .of_mem h (raiseFatal_mem _ _ _ _)

theorem canonical_chooseOf {s : State} {same : Bool} (h : MemoryCanonical s) : MemoryCanonical (chooseOf s same).2 :=
  .ite_snd h (.of_mem h rfl)

theorem canonical_freeNat {s : State} {n : Nat} (h : MemoryCanonical s) : MemoryCanonical (freeNat s n).2 :=
  .of_mem h rfl

theorem canonical_rewriteTable {s : State} (h : MemoryCanonical s) : MemoryCanonical (rewriteTable s) := .of_mem h rfl

theorem canonical_raiseLink {s : State} {d : Domain} (h : MemoryCanonical s) : MemoryCanonical (raiseLink s d) :=
  canonical_raiseUnit (canonical_freeNat h)

theorem canonical_wrBytes {s : State} {a : Nat} {d : List Byte} (h : MemoryCanonical s) :
    MemoryCanonical (wrBytes s a d) := wf_putBytes h a d

theorem canonical_safePoint {s : State} {page addr : Nat} (h : MemoryCanonical s) :
    MemoryCanonical (safePoint s page addr) := by
  unfold safePoint
  split
  · exact h
  · split
    · exact h
    · exact .ite (canonical_setRaw (.of_mem h rfl)) (.of_mem h rfl)

theorem canonical_regSafePoint {s : State} {page : Nat} {r : RegDef} {i : Nat} (h : MemoryCanonical s) :
    MemoryCanonical (regSafePoint s page r i) := canonical_safePoint h

theorem canonical_pageSafePoint {s : State} {page : Nat} (h : MemoryCanonical s) :
    MemoryCanonical (pageSafePoint s page) := .foldl (fun _ _ h => canonical_safePoint h) h

theorem canonical_modCore {s : State} {c : Nat} {f : CoreSt → CoreSt} (h : MemoryCanonical s) :
    MemoryCanonical (modCore s c f) := .of_mem h (modCore_mem _ _ _)

theorem canonical_modGroup {s : State} {c slot : Nat} {f : Group → Group} (h : MemoryCanonical s) :
    MemoryCanonical (modGroup s c slot f) := .of_mem h (modGroup_mem _ _ _ _)

theorem canonical_modCmd {s : State} {i : Nat} {f : Cmd → Cmd} (h : MemoryCanonical s) :
    MemoryCanonical (modCmd s i f) := .of_mem h (modCmd_mem _ _ _)

theorem canonical_modTenant {s : State} {i : Nat} {f : Tenant → Tenant} (h : MemoryCanonical s) :
    MemoryCanonical (modTenant s i f) := .of_mem h (modTenant_mem _ _ _)

theorem canonical_modCtx {s : State} {i : Nat} {f : Context → Context} (h : MemoryCanonical s) :
    MemoryCanonical (modCtx s i f) := .of_mem h (modCtx_mem _ _ _)

theorem canonical_modQueue {s : State} {i : Nat} {f : Queue → Queue} (h : MemoryCanonical s) :
    MemoryCanonical (modQueue s i f) := .of_mem h (modQueue_mem _ _ _)

theorem canonical_modFence {s : State} {i : Nat} {f : Fence → Fence} (h : MemoryCanonical s) :
    MemoryCanonical (modFence s i f) := .of_mem h (modFence_mem _ _ _)

theorem canonical_modObj {s : State} {i : Nat} {f : MemObj → MemObj} (h : MemoryCanonical s) :
    MemoryCanonical (modObj s i f) := .of_mem h (modObj_mem _ _ _)

theorem canonical_modSlice {s : State} {i : Nat} {f : L2Slice → L2Slice} (h : MemoryCanonical s) :
    MemoryCanonical (modSlice s i f) := .of_mem h (modSlice_mem _ _ _)

theorem canonical_modChan {s : State} {stack ch : Nat} {f : Chan → Chan} (h : MemoryCanonical s) :
    MemoryCanonical (modChan s stack ch f) := .of_mem h (modChan_mem _ _ _ _)

theorem canonical_modPeer {s : State} {n : Nat} {f : Peer → Peer} (h : MemoryCanonical s) :
    MemoryCanonical (modPeer s n f) := .of_mem h (modPeer_mem _ _ _)

theorem canonical_modPort {s : State} {p : Nat} {f : Port → Port} (h : MemoryCanonical s) :
    MemoryCanonical (modPort s p f) := .of_mem h (modPort_mem _ _ _)

theorem canonical_modAcct {s : State} {t : Nat} {f : Acct → Acct} (h : MemoryCanonical s) :
    MemoryCanonical (modAcct s t f) := .of_mem h (modAcct_mem _ _ _)

theorem canonical_chargeHbm {s : State} {cmd : Option Nat} {n : Nat} (h : MemoryCanonical s) :
    MemoryCanonical (chargeHbm s cmd n) := .of_mem h (chargeHbm_mem _ _ _)

theorem canonical_chargeFab {s : State} {cmd : Option Nat} {n : Nat} (h : MemoryCanonical s) :
    MemoryCanonical (chargeFab s cmd n) := .of_mem h (chargeFab_mem _ _ _)

theorem canonical_chargeHost {s : State} {cmd : Option Nat} {n : Nat} (h : MemoryCanonical s) :
    MemoryCanonical (chargeHost s cmd n) := .of_mem h (chargeHost_mem _ _ _)

theorem canonical_markActive {s : State} {n : Nat} (h : MemoryCanonical s) : MemoryCanonical (markActive s n) :=
  canonical_modPeer h

theorem canonical_sendAnnounce {s : State} {n : Nat} (h : MemoryCanonical s) : MemoryCanonical (sendAnnounce s n) :=
  canonical_modPort (canonical_modPeer h)

theorem canonical_announceTo {s : State} {n : Nat} (h : MemoryCanonical s) : MemoryCanonical (announceTo s n) :=
  .ite h (canonical_sendAnnounce h)

theorem canonical_waitSend {s : State} {b : Blk} (h : MemoryCanonical s) : MemoryCanonical (waitSend s b) :=
  .of_mem h (waitSend_mem _ _)

theorem canonical_sendCtl {s : State} {n tag : Nat} {m : Msg} (h : MemoryCanonical s) :
    MemoryCanonical (sendCtl s n tag m) := .of_mem h (sendCtl_mem _ _ _ _)

theorem canonical_sendCtlAlways {s : State} {n tag : Nat} {m : Msg} (h : MemoryCanonical s) :
    MemoryCanonical (sendCtlAlways s n tag m) := canonical_modPort h

theorem canonical_sendLink {s : State} {n psn : Nat} {m : Msg} (h : MemoryCanonical s) :
    MemoryCanonical (sendLink s n psn m) := canonical_modPort h

theorem canonical_chargeBlk {s : State} {b : Blk} (h : MemoryCanonical s) : MemoryCanonical (chargeBlk s b) :=
  canonical_chargeFab h

theorem canonical_sendOrdered {s : State} {b : Blk} (h : MemoryCanonical s) : MemoryCanonical (sendOrdered s b) :=
  .of_mem h (sendOrdered_mem _ _)

theorem canonical_sendRead {s : State} {b : Blk} (h : MemoryCanonical s) : MemoryCanonical (sendRead s b) :=
  .of_mem h (sendRead_mem _ _)

theorem canonical_releaseWaiting {s : State} {n : Nat} (h : MemoryCanonical s) :
    MemoryCanonical (releaseWaiting s n) := by
  unfold releaseWaiting
  extract_lets _ t
  have ht : MemoryCanonical t := canonical_modPeer h
  refine .foldl (fun _ _ h => ?_) ht
  split
  · exact canonical_sendRead h
  · exact canonical_sendOrdered h
  · exact canonical_sendOrdered h
  · exact canonical_sendOrdered h
  · exact canonical_sendOrdered h
  · exact canonical_sendCtl h

theorem canonical_sendResp {s : State} {b : Blk} (h : MemoryCanonical s) : MemoryCanonical (sendResp s b) :=
  canonical_modPort h

theorem canonical_drainRow {s : State} {core : Nat} {d : DrainRun} {q : ArrCmd} (h : MemoryCanonical s) :
    MemoryCanonical (drainRow s core d q) := canonical_pmcEvent (canonical_pmcEvent (canonical_modCore h))

theorem canonical_foldDrain {s : State} {core cmd : Nat} {d : DrainRun} (h : MemoryCanonical s) :
    MemoryCanonical (foldDrain s core cmd d) := by
  unfold foldDrain
  extract_lets _ t u v
  have ht : MemoryCanonical t := canonical_modCmd h
  have hu : MemoryCanonical u := canonical_incReg (canonical_incReg ht)
  have hv : MemoryCanonical v := canonical_incReg (canonical_incReg (canonical_incReg hu))
  exact .ite (canonical_setReg hv) hv

theorem canonical_drainOut {core n : Nat} {s : State} (h : MemoryCanonical s) :
    MemoryCanonical (drainOut core n s) := by
  induction n generalizing s with
  | zero => exact h
  | succ n ih =>
    unfold drainOut
    split
    · exact .ite (ih (canonical_drainRow h)) h
    · exact h

theorem canonical_stopDrain {s : State} {core cmd : Nat} (h : MemoryCanonical s) :
    MemoryCanonical (stopDrain s core cmd) := by
  unfold stopDrain
  split
  · refine .ite ?_ h
    extract_lets t
    have ht : MemoryCanonical t := canonical_drainOut h
    split
    · exact canonical_modCore (canonical_foldDrain ht)
    · exact ht
  · exact h

theorem canonical_mirrorFence {s : State} {i : Nat} (h : MemoryCanonical s) : MemoryCanonical (mirrorFence s i) := by
  unfold mirrorFence
  split
  · exact h
  · split
    · exact h
    · exact .ite (.ite (canonical_hostWrite h) (canonical_errWrite h)) h

theorem canonical_fencePoison {s : State} {i code : Nat} (h : MemoryCanonical s) :
    MemoryCanonical (fencePoison s i code) := by
  unfold fencePoison
  split
  · exact h
  · exact .ite (canonical_mirrorFence (canonical_modFence h)) h

theorem canonical_fenceSignal {s : State} {i v : Nat} (h : MemoryCanonical s) :
    MemoryCanonical (fenceSignal s i v) := by
  unfold fenceSignal
  split
  · exact h
  · exact .ite h (.ite (canonical_fencePoison h) (.ite (canonical_errWrite h) (canonical_mirrorFence
      (canonical_modFence h))))

theorem canonical_refInc {s : State} {hdr : Nat} (h : MemoryCanonical s) : MemoryCanonical (refInc s hdr) :=
  canonical_modObj h

theorem canonical_refDec {s : State} {hdr : Nat} (h : MemoryCanonical s) : MemoryCanonical (refDec s hdr) :=
  canonical_modObj h

theorem canonical_setPair {s : State} {idx : Nat} {p : Pair} (h : MemoryCanonical s) :
    MemoryCanonical (setPair s idx p) := .of_mem h (setPair_mem _ _ _)

theorem canonical_modPair {s : State} {idx : Nat} {f : Pair → Pair} (h : MemoryCanonical s) :
    MemoryCanonical (modPair s idx f) := .of_mem h (modPair_mem _ _ _)

theorem canonical_handOver {s : State} {idx : Nat} (h : MemoryCanonical s) : MemoryCanonical (handOver s idx) := by
  unfold handOver
  split
  · exact h
  · split
    · exact .ite h (canonical_sendCtl (canonical_setPair h))
    · exact h

theorem canonical_forOwned {s : State} {node tag : Nat} {f : Pair → Pair} (h : MemoryCanonical s) :
    MemoryCanonical (forOwned s node tag f) := .foldl (fun _ _ h => canonical_handOver (canonical_modPair h)) h

theorem canonical_discardTag {s : State} {node tag : Nat} (h : MemoryCanonical s) :
    MemoryCanonical (discardTag s node tag) := canonical_forOwned h

theorem canonical_flipTag {s : State} {node tag : Nat} (h : MemoryCanonical s) :
    MemoryCanonical (flipTag s node tag) := canonical_forOwned h

theorem canonical_dropWaiter {s : State} {node tag : Nat} (h : MemoryCanonical s) :
    MemoryCanonical (dropWaiter s node tag) := .foldl (fun _ _ h => canonical_handOver (canonical_modPair h)) h

theorem canonical_tagsFree {s : State} {tag : Nat} (h : MemoryCanonical s) : MemoryCanonical (tagsFree s tag) :=
  .of_mem h rfl

theorem canonical_takeTag {s t : State} {tag : Nat} (h : MemoryCanonical s) (e : takeTag s = some (tag, t)) :
    MemoryCanonical t := by
  unfold takeTag at e
  split at e
  · cases e
  · cases e
    exact .of_mem h rfl

theorem canonical_discardAll {s : State} {cmd : Nat} {id : DWord} {tag : Nat} {nodes : List Nat}
    (h : MemoryCanonical s) :
    MemoryCanonical (discardAll s cmd id tag nodes) := by
  unfold discardAll
  extract_lets t u v
  have ht : MemoryCanonical t := canonical_discardTag h
  have hu : MemoryCanonical u := canonical_dropWaiter ht
  have hv : MemoryCanonical v := .foldl (fun _ _ h => canonical_sendCtl h) hu
  exact .ite (canonical_tagsFree hu) (.of_mem hv rfl)

theorem canonical_keepEntry {s : State} {e : MergeEntry} (h : MemoryCanonical s) :
    MemoryCanonical (keepEntry s e).2 := by
  unfold keepEntry
  split
  · exact h
  · exact h
  · exact canonical_chooseOf h

theorem canonical_endEntries {s : State} {c cmd : Nat} {l : List (Nat × MergeEntry)} (h : MemoryCanonical s) :
    MemoryCanonical (endEntries s c cmd l) := by
  induction l generalizing s with
  | nil => exact h
  | cons e l ih =>
    exact .ite (ih (.ite (canonical_keepEntry h) (canonical_modCore (canonical_keepEntry h)))) (ih h)

theorem canonical_stopAtom {s : State} {i : Nat} {a : AtomRec} (h : MemoryCanonical s) :
    MemoryCanonical (stopAtom s i a) := by
  unfold stopAtom
  extract_lets _ _ t
  have ht : MemoryCanonical t.2 := canonical_chooseOf h
  split
  · exact .of_mem h rfl
  · exact .of_mem h rfl
  · exact .ite (.of_mem ht rfl) (.of_mem ht rfl)
  · exact .of_mem h rfl
  · exact .of_mem h rfl

theorem canonical_stopOnCores {s : State} {cmd : Nat} {cores : List Nat} (h : MemoryCanonical s) :
    MemoryCanonical (stopOnCores s cmd cores) := by
  unfold stopOnCores
  extract_lets _ t _ u
  have ht : MemoryCanonical t := .foldl (fun _ _ h => canonical_modCore (canonical_endEntries
    (canonical_stopDrain h))) h
  have hu : MemoryCanonical u := .of_mem ht rfl
  exact .foldl (fun _ _ h => canonical_stopAtom h) hu

theorem canonical_putRecord {s : State} {qi : Nat} {q : Queue} {tenant n : Nat} {d : List Byte} {why : HostPend}
    (h : MemoryCanonical s) :
    MemoryCanonical (putRecord s qi q tenant n d why).2 := by
  unfold putRecord
  extract_lets _ _ t
  have ht : MemoryCanonical t := canonical_modQueue h
  refine .ite_snd (.ite_snd (canonical_hostWrite ht) ht) ?_
  split
  · exact canonical_wrBytes ht
  · exact ht

theorem canonical_fenceEnd {s : State} {c : Cmd} {status : Nat} (h : MemoryCanonical s) :
    MemoryCanonical (fenceEnd s c status) := .ite (.ite (canonical_fenceSignal h) (canonical_fencePoison h)) h

theorem canonical_logUnresolved {s : State} {core : Nat} (h : MemoryCanonical s) :
    MemoryCanonical (logUnresolved s core) := by
  unfold logUnresolved
  extract_lets t _ u
  have ht : MemoryCanonical t := canonical_incReg (canonical_logOnly h)
  have hu : MemoryCanonical u := canonical_modErr ht
  exact .ite hu (canonical_queueRecovery (canonical_modErr hu))

theorem canonical_dropSuspect {s : State} {i : Nat} (h : MemoryCanonical s) : MemoryCanonical (dropSuspect s i) := by
  unfold dropSuspect
  refine .ite ?_ h
  extract_lets _ _ t
  have ht : MemoryCanonical t := canonical_modErr h
  split
  · exact canonical_logUnresolved (canonical_modErr ht)
  · exact ht

theorem canonical_forget {s : State} {i : Nat} (h : MemoryCanonical s) : MemoryCanonical (forget s i) := by
  unfold forget
  split
  · exact h
  · extract_lets t _ u
    have ht : MemoryCanonical t := .foldl (fun _ _ h => canonical_refDec h) (canonical_dropSuspect h)
    have hu : MemoryCanonical u := .of_mem ht rfl
    exact canonical_modQueue hu

theorem canonical_noteStep {s : State} {i : Nat} {c : Cmd} {status : Nat} (h : MemoryCanonical s) :
    MemoryCanonical (noteStep s i c status) := by
  unfold noteStep
  split
  · exact h
  · exact .of_mem h rfl

theorem canonical_finish {s : State} {i status : Nat} (h : MemoryCanonical s) :
    MemoryCanonical (finish s i status) := by
  unfold finish
  split
  · exact h
  · extract_lets t
    have ht : MemoryCanonical t := canonical_noteStep h
    refine .ite (canonical_forget (canonical_fenceEnd ht)) ?_
    split
    · exact canonical_forget (canonical_fenceEnd ht)
    · extract_lets _ u
      have hu : MemoryCanonical u.2 := canonical_putRecord ht
      exact .ite (canonical_modCmd hu) (canonical_forget (canonical_fenceEnd hu))

theorem canonical_logCmdNode {s : State} {c : Cmd} {code page addr tag node : Nat} (h : MemoryCanonical s) :
    MemoryCanonical (logCmdNode s c code page addr tag node) := .of_mem h (logCmdNode_mem _ _ _ _ _ _ _)

theorem canonical_logCmdEnd {s : State} {c : Cmd} {code page addr tag : Nat} (h : MemoryCanonical s) :
    MemoryCanonical (logCmdEnd s c code page addr tag) := .of_mem h (logCmdEnd_mem _ _ _ _ _ _)

theorem canonical_endQuiet {s : State} {i status : Nat} (h : MemoryCanonical s) :
    MemoryCanonical (endQuiet s i status) := by
  unfold endQuiet
  split
  · exact h
  · extract_lets t
    have ht : MemoryCanonical t := by
      unfold t
      split
      · exact canonical_discardAll h
      · exact h
    exact canonical_finish (canonical_modQueue ht)

theorem canonical_endUndispatched {s : State} {i status : Nat} (h : MemoryCanonical s) :
    MemoryCanonical (endUndispatched s i status) := by
  unfold endUndispatched
  split
  · exact h
  · exact canonical_endQuiet (canonical_logCmdEnd h)

theorem canonical_settle {n : Nat} {s : State} (h : MemoryCanonical s) : MemoryCanonical (settle n s) := by
  induction n generalizing s with
  | zero => exact h
  | succ n ih =>
    unfold settle
    split
    · exact ih (canonical_endUndispatched h)
    · exact h

theorem canonical_settled {s : State} (h : MemoryCanonical s) : MemoryCanonical (settled s) := canonical_settle h

theorem canonical_dropRun {s : State} {i : Nat} (h : MemoryCanonical s) : MemoryCanonical (dropRun s i) := by
  unfold dropRun
  split
  · exact h
  · extract_lets t u _ v
    have ht : MemoryCanonical t := canonical_stopOnCores h
    have hu : MemoryCanonical u := by
      unfold u
      split
      · exact canonical_discardAll ht
      · exact ht
    have hv : MemoryCanonical v := .of_mem hu rfl
    exact canonical_modCmd hv

theorem canonical_requeue {s : State} {i : Nat} (h : MemoryCanonical s) : MemoryCanonical (requeue s i) := by
  unfold requeue
  extract_lets t
  have ht : MemoryCanonical t := canonical_modCmd h
  split
  · exact ht
  · exact .ite ht (canonical_modQueue ht)

theorem canonical_killRun {s : State} {i : Nat} (h : MemoryCanonical s) : MemoryCanonical (killRun s i) :=
  canonical_requeue (canonical_modCmd (canonical_dropRun h))

theorem canonical_dropClaims {s : State} {i : Nat} {c : Cmd} (h : MemoryCanonical s) :
    MemoryCanonical (dropClaims s i c) := by
  unfold dropClaims
  extract_lets t
  have ht : MemoryCanonical t := by
    unfold t
    split
    · exact canonical_discardAll h
    · exact h
  exact canonical_modCmd ht

theorem canonical_endMember {s : State} {i code : Nat} {again : Bool} (h : MemoryCanonical s) :
    MemoryCanonical (endMember s i code again) := by
  unfold endMember
  split
  · exact h
  · extract_lets
    exact .ite (.ite (canonical_killRun h) (canonical_finish (canonical_logCmdEnd (canonical_dropRun h)))) (.ite
      (.ite (canonical_dropClaims h) (canonical_endUndispatched h)) h)

theorem canonical_endGangLocal {s : State} {gang code : Nat} {again : Bool} (h : MemoryCanonical s) :
    MemoryCanonical (endGangLocal s gang code again) := by
  unfold endGangLocal
  split
  · exact h
  · exact .of_mem (.foldl (fun _ _ h => canonical_endMember h) h) rfl

theorem canonical_tellGangEnd {s : State} {gang code : Nat} (h : MemoryCanonical s) :
    MemoryCanonical (tellGangEnd s gang code) := by
  unfold tellGangEnd
  split
  · exact h
  · exact .foldl (fun _ _ h => canonical_sendCtl h) h

theorem canonical_endGang {s : State} {c : Cmd} {code : Nat} {again : Bool} (h : MemoryCanonical s) :
    MemoryCanonical (endGang s c code again) :=
  .ite (canonical_tellGangEnd h) (canonical_endGangLocal (canonical_tellGangEnd h))

theorem canonical_failCmdAt {s : State} {i code page addr node : Nat} (h : MemoryCanonical s) :
    MemoryCanonical (failCmdAt s i code page addr node) := by
  unfold failCmdAt
  split
  · exact h
  · refine .ite ?_ (.ite (canonical_settled (canonical_endQuiet (canonical_logCmdNode h))) h)
    extract_lets t u
    have ht : MemoryCanonical t := canonical_logCmdNode h
    have hu : MemoryCanonical u := canonical_finish (canonical_dropRun ht)
    exact .ite (canonical_settled (canonical_endGang ht)) (canonical_settled (.ite (canonical_endGang hu) hu))

theorem canonical_failCmd {s : State} {i code page addr : Nat} (h : MemoryCanonical s) :
    MemoryCanonical (failCmd s i code page addr) := canonical_failCmdAt h

theorem canonical_killOrEnd {s : State} {i code page node : Nat} (h : MemoryCanonical s) :
    MemoryCanonical (killOrEnd s i code page node) := by
  unfold killOrEnd
  split
  · exact h
  · exact .ite (.ite (canonical_settled (canonical_endGang h)) (.ite (canonical_killRun h) (canonical_settled
      (canonical_finish (canonical_dropRun (canonical_logCmdNode h)))))) h

theorem canonical_busyEnd {s : State} {i : Nat} {cl : Claim} (h : MemoryCanonical s) :
    MemoryCanonical (busyEnd s i cl) := by
  unfold busyEnd
  split
  · exact h
  · exact .ite h (.ite (canonical_modCmd (canonical_killRun h)) (canonical_failCmdAt h))

theorem canonical_qpFail {s : State} {t : Nat} (h : MemoryCanonical s) : MemoryCanonical (qpFail s t) := .of_mem h rfl

theorem canonical_nakInvalid {s : State} {t : Nat} (h : MemoryCanonical s) : MemoryCanonical (nakInvalid s t) :=
  canonical_pmcEvent (canonical_qpFail (canonical_emit (canonical_incReg h)))

theorem canonical_nakAccess {s : State} {t : Nat} (h : MemoryCanonical s) : MemoryCanonical (nakAccess s t) :=
  canonical_pmcEvent (canonical_qpFail (canonical_emit (canonical_incReg (canonical_hptLog h))))

theorem canonical_park {s : State} {t : Nat} {c : FwCall} (h : MemoryCanonical s) : MemoryCanonical (park s t c) :=
  .ite (.of_mem h rfl) h

theorem canonical_respond {s : State} {r : Request} {status reason result : Nat} (h : MemoryCanonical s) :
    MemoryCanonical (respond s r status reason result) :=
  .ite (canonical_hostWrite (canonical_pmcEvent h)) (canonical_hptLog (canonical_pmcEvent h))

theorem canonical_refuse {s : State} {r : Request} {reason : Nat} (h : MemoryCanonical s) :
    MemoryCanonical (refuse s r reason) := canonical_respond h

theorem canonical_accept {s : State} {r : Request} {result : Nat} (h : MemoryCanonical s) :
    MemoryCanonical (accept s r result) := canonical_respond h

theorem canonical_startTeardown {s : State} {x : Nat} {req : Option Request} (h : MemoryCanonical s) :
    MemoryCanonical (startTeardown s x req) := by
  unfold startTeardown
  extract_lets t _ _ u v y
  have ht : MemoryCanonical t := canonical_modCtx h
  have hu : MemoryCanonical u := .of_mem ht rfl
  have hv : MemoryCanonical v := .foldl (fun _ _ h => canonical_endQuiet h) hu
  have hy : MemoryCanonical y := by
    unfold y
    refine .foldl (fun _ _ h => ?_) hv
    split
    · exact h
    · extract_lets w x
      have hw : MemoryCanonical w := .ite h (canonical_modCtx (canonical_logCmdEnd h))
      have hx : MemoryCanonical x := canonical_finish (canonical_dropRun hw)
      exact .ite (canonical_tellGangEnd hw) (.ite (canonical_endGang hx) hx)
  exact canonical_settled hy

theorem canonical_doCreateTenant {s : State} {r : Request} {t : Nat} {key : DWord} {quota mirror grace : Nat}
    (h : MemoryCanonical s) :
    MemoryCanonical (doCreateTenant s r t key quota mirror grace) :=
  .ite (canonical_refuse h) (.ite (canonical_refuse h) (.ite (canonical_refuse h) (.ite (canonical_refuse h)
    (canonical_accept (.of_mem h rfl)))))

theorem canonical_endTenant {s : State} {t : Nat} (h : MemoryCanonical s) : MemoryCanonical (endTenant s t) := by
  unfold endTenant
  split
  · exact h
  · split
    · exact h
    · exact .ite h (canonical_accept (.of_mem h rfl))

theorem canonical_doDestroyTenant {s : State} {r : Request} {t : Nat} (h : MemoryCanonical s) :
    MemoryCanonical (doDestroyTenant s r t) := by
  unfold doDestroyTenant
  refine .ite (canonical_refuse h) (.ite (canonical_refuse h) ?_)
  split
  · exact canonical_refuse h
  · refine .ite (canonical_refuse h) ?_
    extract_lets t u v
    have ht : MemoryCanonical t := canonical_modTenant h
    have hu : MemoryCanonical u := .foldl (fun _ _ h => canonical_modObj h) ht
    have hv : MemoryCanonical v := .foldl (fun _ _ h => canonical_startTeardown h) hu
    exact canonical_endTenant hv

theorem canonical_doCreateContext {s : State} {r : Request} {hostRoot : Nat} (h : MemoryCanonical s) :
    MemoryCanonical (doCreateContext s r hostRoot) := by
  unfold doCreateContext
  refine .ite (canonical_refuse h) ?_
  split
  · exact canonical_refuse h
  · exact canonical_accept (.of_mem h rfl)

theorem canonical_doTeardownContext {s : State} {r : Request} {x : Nat} (h : MemoryCanonical s) :
    MemoryCanonical (doTeardownContext s r x) := by
  unfold doTeardownContext
  refine .ite (canonical_refuse h) ?_
  split
  · exact canonical_refuse h
  · exact .ite (canonical_refuse h) (.ite (canonical_refuse h) (canonical_startTeardown h))

theorem canonical_freeFence {s : State} {i : Nat} (h : MemoryCanonical s) : MemoryCanonical (freeFence s i) :=
  canonical_modFence h

theorem canonical_doMapRelease {s : State} {n ctx : Nat} {handle : DWord} (h : MemoryCanonical s) :
    MemoryCanonical (doMapRelease s n ctx handle) := .ite (canonical_refDec (.of_mem h rfl)) h

theorem canonical_sendRelease {s : State} {node ctx : Nat} {handle : DWord} (h : MemoryCanonical s) :
    MemoryCanonical (sendRelease s node ctx handle) := by
  unfold sendRelease
  refine .ite (canonical_doMapRelease h) ?_
  split
  · exact canonical_modPeer h
  · exact canonical_modPeer h
  · exact canonical_sendCtl h

theorem canonical_dropTrans {s : State} {x va len : Nat} (h : MemoryCanonical s) :
    MemoryCanonical (dropTrans s x va len) := .of_mem h rfl

theorem canonical_removeMapping {s : State} {x : Nat} {m : Mapping} (h : MemoryCanonical s) :
    MemoryCanonical (removeMapping s x m) := by
  unfold removeMapping
  extract_lets t u
  have ht : MemoryCanonical t := canonical_modCtx h
  have hu : MemoryCanonical u := canonical_dropTrans ht
  split
  · exact canonical_refDec hu
  · exact canonical_sendRelease hu

theorem canonical_doTeardownFinish {s : State} {x : Nat} (h : MemoryCanonical s) :
    MemoryCanonical (doTeardownFinish s x) := by
  unfold doTeardownFinish
  split
  · exact h
  · extract_lets t u _ v w _ z _ _ t1 t2 t3
    have ht : MemoryCanonical t := .foldl (fun _ _ h => canonical_modFence (canonical_fencePoison h)) h
    have hu : MemoryCanonical u := canonical_settled ht
    have hv : MemoryCanonical v := .of_mem hu rfl
    have hw : MemoryCanonical w := .foldl (fun _ _ h => canonical_removeMapping h) hv
    have hz : MemoryCanonical z := by
      unfold z
      refine .foldl (fun _ _ h => ?_) hw
      extract_lets x _ y
      have hx : MemoryCanonical x := .foldl (fun _ _ h => canonical_refDec h) h
      have hy : MemoryCanonical y := by
        unfold y
        split
        · exact hx
        · exact .of_mem hx rfl
      exact .of_mem hy rfl
    have ht1 : MemoryCanonical t1 := .of_mem hz rfl
    have ht2 : MemoryCanonical t2 := .ite (canonical_setReg ht1) ht1
    have ht3 : MemoryCanonical t3 := by
      unfold t3
      split
      · exact canonical_accept ht2
      · exact ht2
    exact canonical_endTenant ht3

theorem canonical_doCreateQueue {s : State} {r : Request} {x cls ls lc : Nat} {ring cq : DWord}
    (h : MemoryCanonical s) :
    MemoryCanonical (doCreateQueue s r x cls ls lc ring cq) := by
  unfold doCreateQueue
  refine .ite (canonical_refuse h) ?_
  split
  · exact canonical_refuse h
  · refine .ite (canonical_refuse h) (.ite (canonical_refuse h) (.ite (canonical_refuse h) ?_))
    split
    · exact canonical_accept (.of_mem (.foldl (fun _ _ h => canonical_refInc h) h) rfl)
    · exact canonical_refuse h
    · exact canonical_refuse h

theorem canonical_doDestroyQueue {s : State} {r : Request} {i : Nat} (h : MemoryCanonical s) :
    MemoryCanonical (doDestroyQueue s r i) := by
  unfold doDestroyQueue
  refine .ite (canonical_refuse h) ?_
  split
  · exact canonical_refuse h
  · extract_lets _ t u
    have ht : MemoryCanonical t := canonical_modQueue h
    have hu : MemoryCanonical u := .foldl (fun _ _ h => canonical_endUndispatched h) ht
    exact .ite (canonical_refuse h) (.ite (canonical_refuse h) (canonical_accept (canonical_settled hu)))

theorem canonical_doQueueFree {s : State} {i : Nat} (h : MemoryCanonical s) : MemoryCanonical (doQueueFree s i) := by
  unfold doQueueFree
  split
  · exact h
  · exact .of_mem (.foldl (fun _ _ h => canonical_refDec h) h) rfl

theorem canonical_doCreateFence {s : State} {r : Request} {x mirror initial : Nat} (h : MemoryCanonical s) :
    MemoryCanonical (doCreateFence s r x mirror initial) := by
  unfold doCreateFence
  refine .ite (canonical_refuse h) ?_
  split
  · exact canonical_refuse h
  · refine .ite (canonical_refuse h) (.ite (canonical_refuse h) (.ite (canonical_refuse h) ?_))
    split
    · exact canonical_refuse h
    · exact canonical_accept (canonical_mirrorFence (.of_mem h rfl))

theorem canonical_doDestroyFence {s : State} {r : Request} {i : Nat} (h : MemoryCanonical s) :
    MemoryCanonical (doDestroyFence s r i) := by
  unfold doDestroyFence
  refine .ite (canonical_refuse h) ?_
  split
  · exact canonical_refuse h
  · exact .ite (canonical_refuse h) (canonical_accept (canonical_settled (canonical_modFence
      (canonical_fencePoison h))))

theorem canonical_doSignalFence {s : State} {r : Request} {i v : Nat} (h : MemoryCanonical s) :
    MemoryCanonical (doSignalFence s r i v) := by
  unfold doSignalFence
  refine .ite (canonical_refuse h) ?_
  split
  · exact canonical_refuse h
  · exact .ite (canonical_refuse h) (canonical_accept (canonical_settled (canonical_fenceSignal h)))

theorem canonical_doPoisonFence {s : State} {r : Request} {i code : Nat} (h : MemoryCanonical s) :
    MemoryCanonical (doPoisonFence s r i code) := by
  unfold doPoisonFence
  refine .ite (canonical_refuse h) ?_
  split
  · exact canonical_refuse h
  · exact .ite (canonical_refuse h) (canonical_accept (canonical_settled (canonical_fencePoison h)))

theorem canonical_doShareFence {s : State} {r : Request} {i t : Nat} (h : MemoryCanonical s) :
    MemoryCanonical (doShareFence s r i t) := by
  unfold doShareFence
  refine .ite (canonical_refuse h) ?_
  split
  · exact canonical_refuse h
  · exact .ite (canonical_refuse h) (canonical_accept (canonical_modFence h))

theorem canonical_doCreateObject {s : State} {r : Request} {kind size : Nat} (h : MemoryCanonical s) :
    MemoryCanonical (doCreateObject s r kind size) := by
  unfold doCreateObject
  refine .ite (canonical_refuse h) (.ite (canonical_refuse h) ?_)
  extract_lets
  split
  · exact .ite (canonical_refuse h) (canonical_accept (canonical_modTenant (.of_mem h rfl)))
  · exact canonical_refuse h

theorem canonical_doMapObject {s : State} {r : Request} {hdr : DWord} {x w nx va off len : Nat}
    (h : MemoryCanonical s) :
    MemoryCanonical (doMapObject s r hdr x w nx va off len) := by
  unfold doMapObject
  refine .ite (canonical_refuse h) ?_
  split
  · exact canonical_refuse h
  · exact canonical_refuse h
  · refine .ite (canonical_refuse h) (.ite (canonical_refuse h) (.ite (canonical_refuse h) ?_))
    extract_lets _ _ _ t
    have ht : MemoryCanonical t := canonical_refInc h
    exact .ite (canonical_refuse h) (.ite (canonical_refuse h) (canonical_accept (canonical_modCtx ht)))

theorem canonical_doUnmap {s : State} {r : Request} {x va len : Nat} (h : MemoryCanonical s) :
    MemoryCanonical (doUnmap s r x va len) := by
  unfold doUnmap
  refine .ite (canonical_refuse h) ?_
  split
  · exact canonical_refuse h
  · exact .ite (canonical_refuse h) (.ite (canonical_refuse h) (.ite (canonical_refuse h) (canonical_accept
      (canonical_modCtx h))))

theorem canonical_doUnmapEffect {s : State} {x va : Nat} (h : MemoryCanonical s) :
    MemoryCanonical (doUnmapEffect s x va) := by
  unfold doUnmapEffect
  split
  · exact h
  · exact .foldl (fun _ _ h => canonical_removeMapping h) h

theorem canonical_doShareObject {s : State} {r : Request} {hdr : DWord} {t : Nat} (h : MemoryCanonical s) :
    MemoryCanonical (doShareObject s r hdr t) := by
  unfold doShareObject
  refine .ite (canonical_refuse h) ?_
  split
  · exact canonical_refuse h
  · exact .ite (canonical_refuse h) (canonical_accept (canonical_modObj h))

theorem canonical_mapGrant {s : State} {n tenant ctx : Nat} {handle : DWord} {off len kind : Nat} {w : Bool}
    (h : MemoryCanonical s) :
    MemoryCanonical (mapGrant s n tenant ctx handle off len kind w).2 := by
  unfold mapGrant
  split
  · exact h
  · exact .ite_snd h (.ite_snd h (.ite_snd h (.of_mem h rfl)))

theorem canonical_doMapAnswer {s : State} {n : Nat} {g : MapGrant} (h : MemoryCanonical s) :
    MemoryCanonical (doMapAnswer s n g) := by
  unfold doMapAnswer
  split
  · exact h
  · extract_lets _ t _ u
    have ht : MemoryCanonical t := .of_mem h rfl
    have hu : MemoryCanonical u := .ite (canonical_sendRelease ht) ht
    exact .ite (.ite hu (canonical_refuse hu)) (.ite (canonical_refuse ht) (canonical_accept (canonical_modCtx ht)))

theorem canonical_doMapRemote {s : State} {r : Request} {x node kind w nx va : Nat} {remote : DWord} {len off : Nat}
    (h : MemoryCanonical s) :
    MemoryCanonical (doMapRemote s r x node kind w nx va remote len off) := by
  unfold doMapRemote
  refine .ite (canonical_refuse h) ?_
  split
  · exact canonical_refuse h
  · extract_lets _ _ _ t u
    have ht : MemoryCanonical t := .of_mem h rfl
    have hu : MemoryCanonical u.2 := canonical_mapGrant ht
    exact .ite (canonical_refuse h) (.ite (canonical_refuse h) (.ite (canonical_refuse h) (.ite
      (canonical_doMapAnswer hu) (.ite (canonical_sendCtl ht) (canonical_refuse h)))))

theorem canonical_doMapRemoteTimeout {s : State} {node : Nat} (h : MemoryCanonical s) :
    MemoryCanonical (doMapRemoteTimeout s node) := by
  unfold doMapRemoteTimeout
  split
  · exact h
  · exact canonical_refuse (.of_mem h rfl)

theorem canonical_parkBehind {s : State} {t : Nat} {c : FwCall} (h : MemoryCanonical s) :
    MemoryCanonical (parkBehind s t c) := .ite (canonical_park h) h

theorem canonical_doRefcountRead {s : State} {t i n : Nat} (h : MemoryCanonical s) :
    MemoryCanonical (doRefcountRead s t i n) := .ite (canonical_emit h) (canonical_nakAccess h)

theorem canonical_doRefcountFetchAdd {s : State} {t i : Nat} {add : DWord} (h : MemoryCanonical s) :
    MemoryCanonical (doRefcountFetchAdd s t i add) := by
  unfold doRefcountFetchAdd
  extract_lets _ _ _ _ t
  have ht : MemoryCanonical t := canonical_emit h
  exact .ite (canonical_refInc ht) (.ite (canonical_refDec ht) (canonical_errWrite ht))

theorem canonical_doRefcountCas {s : State} {t i : Nat} (h : MemoryCanonical s) :
    MemoryCanonical (doRefcountCas s t i) := canonical_errWrite (canonical_emit h)

theorem canonical_zeroRegion {s : State} {a n : Nat} (h : MemoryCanonical s) : MemoryCanonical (zeroRegion s a n) :=
  wf_filter h _

theorem canonical_doReclaimDone {s : State} {hdr : Nat} (h : MemoryCanonical s) :
    MemoryCanonical (doReclaimDone s hdr) := by
  unfold doReclaimDone
  split
  · exact h
  · extract_lets _ t u _ _ v w
    have ht : MemoryCanonical t := canonical_zeroRegion h
    have hu : MemoryCanonical u := .ite (canonical_zeroRegion ht) ht
    have hv : MemoryCanonical v := .ite (.of_mem hu rfl) hu
    have hw : MemoryCanonical w := canonical_modTenant hv
    exact canonical_modObj hw

theorem canonical_putObj {s : State} {o : MemObj} {off : Nat} {d : List Byte} (h : MemoryCanonical s) :
    MemoryCanonical (putObj s o off d) := by
  induction d generalizing s off with
  | nil => exact h
  | cons b d ih => exact ih (canonical_wrBytes h)

theorem canonical_hbsLatch {s : State} {st ch kind code addr : Nat} {scrub : Bool} (h : MemoryCanonical s) :
    MemoryCanonical (hbsLatch s st ch kind code addr scrub) := .ite h (canonical_setReg (canonical_setReg h))

theorem canonical_notePoisoned {s : State} {a : Nat} (h : MemoryCanonical s) : MemoryCanonical (notePoisoned s a) :=
  canonical_hbsLatch (canonical_pgErr h)

theorem canonical_noteRange {s : State} {o : MemObj} {off len : Nat} (h : MemoryCanonical s) :
    MemoryCanonical (noteRange s o off len) := by
  unfold noteRange
  split
  · exact canonical_notePoisoned h
  · exact h

theorem canonical_chargeTenant {s : State} {t n : Nat} (h : MemoryCanonical s) :
    MemoryCanonical (chargeTenant s t n) := canonical_modAcct h

theorem canonical_doObjectRead {s : State} {t hdr off len : Nat} (h : MemoryCanonical s) :
    MemoryCanonical (doObjectRead s t hdr off len) := by
  unfold doObjectRead
  refine .ite (canonical_nakInvalid h) ?_
  split
  · exact canonical_nakAccess h
  · exact .ite (canonical_nakAccess h) (.ite (canonical_nakAccess (canonical_noteRange h)) (canonical_chargeTenant
      (canonical_emit h)))

theorem canonical_clearPoison {s : State} {o : MemObj} {off n : Nat} (h : MemoryCanonical s) :
    MemoryCanonical (clearPoison s o off n) := .of_mem h rfl

theorem canonical_doObjectWrite {s : State} {t hdr off : Nat} {d : List Byte} (h : MemoryCanonical s) :
    MemoryCanonical (doObjectWrite s t hdr off d) := by
  unfold doObjectWrite
  refine .ite (canonical_nakInvalid h) ?_
  split
  · exact canonical_nakAccess h
  · refine .ite (canonical_nakAccess h) (.ite (canonical_emit (canonical_incReg h)) ?_)
    extract_lets t u
    have ht : MemoryCanonical t := canonical_clearPoison (canonical_putObj h)
    have hu : MemoryCanonical u := canonical_noteRange ht
    exact canonical_chargeTenant (canonical_emit hu)

theorem canonical_doObjectAtomic {s : State} {t hdr off : Nat} {cas : Bool} {opnd cmp : DWord}
    (h : MemoryCanonical s) :
    MemoryCanonical (doObjectAtomic s t hdr off cas opnd cmp) := by
  unfold doObjectAtomic
  refine .ite (canonical_nakInvalid h) ?_
  split
  · exact canonical_nakAccess h
  · exact .ite (canonical_nakAccess h) (.ite (canonical_nakAccess (canonical_noteRange h)) (.ite (canonical_emit
      (canonical_incReg h)) (canonical_chargeTenant (canonical_emit (canonical_putObj (canonical_pmcEvent h))))))

end Sys2Proof.Machine
end

