-- ==== Sys2Proof/Proofs/CanonicalCommit.lean ====
section
/-! Memory stays canonical (O7): the functions of pairs, commits, gangs and translation. -/

namespace Sys2Proof.Machine

theorem canonical_ensureTag {s t : State} {i tag : Nat} {c : Cmd} (h : MemoryCanonical s)
    (e : ensureTag s i c = some (tag, t)) : MemoryCanonical t := by
  unfold ensureTag at e
  split at e
  · cases e
    exact h
  · split at e
    · rename_i taken
      cases e
      exact canonical_modCmd (canonical_takeTag h taken)
    · cases e

theorem canonical_gotClaim {s : State} {i : Nat} {k : Claim} (h : MemoryCanonical s) :
    MemoryCanonical (gotClaim s i k) := canonical_modCmd h

theorem canonical_acquireNext {s : State} {i : Nat} {c : Cmd} (h : MemoryCanonical s) :
    MemoryCanonical (acquireNext s i c) := by
  unfold acquireNext
  split
  · exact h
  · rename_i tagged
    have ht := canonical_ensureTag h tagged
    split
    · exact canonical_modCmd ht
    · refine .ite ?_ (.ite ht (canonical_modCmd (canonical_sendCtl ht)))
      split
      · exact canonical_modCmd ht
      · exact .ite (canonical_gotClaim (canonical_setPair ht)) (canonical_modCmd (canonical_setPair ht))

theorem canonical_modGang {s : State} {i : Nat} {f : Gang → Gang} (h : MemoryCanonical s) :
    MemoryCanonical (modGang s i f) := .of_mem h rfl

theorem canonical_zeroChannels {s : State} {chans : List (Nat × Nat)} (h : MemoryCanonical s) :
    MemoryCanonical (zeroChannels s chans) := .foldl (fun _ _ h => canonical_zeroRegion h) h

theorem canonical_startMembers {s : State} {gang : Nat} {replays : Bool} {chans : List (Nat × Nat)}
    (h : MemoryCanonical s) :
    MemoryCanonical (startMembers s gang replays chans) := by
  unfold startMembers
  split
  · exact h
  · exact canonical_modGang (.foldl (fun _ _ h => canonical_modCmd h) (.of_mem h rfl))

theorem canonical_gangTryStart {s : State} {gang : Nat} (h : MemoryCanonical s) :
    MemoryCanonical (gangTryStart s gang) := by
  unfold gangTryStart
  split
  · exact h
  · exact .ite (.foldl (fun _ _ h => canonical_sendCtl h) (canonical_startMembers (canonical_zeroChannels h))) h

theorem canonical_gangGot {s : State} {gang : Nat} {k : GangClaim} (h : MemoryCanonical s) :
    MemoryCanonical (gangGot s gang k) := canonical_gangTryStart (canonical_modGang h)

theorem canonical_gangAcquire {s : State} {gang : Nat} (h : MemoryCanonical s) :
    MemoryCanonical (gangAcquire s gang) := by
  unfold gangAcquire
  split
  · exact h
  · split
    · exact canonical_gangTryStart h
    · extract_lets _ t
      have ht : MemoryCanonical t := canonical_sendCtl h
      refine .ite ?_ (.ite h (canonical_modGang ht))
      split
      · exact h
      · exact .ite (canonical_gangGot (canonical_setPair h)) (canonical_setPair h)

theorem canonical_doPairAcquire {s : State} {i : Nat} (h : MemoryCanonical s) :
    MemoryCanonical (doPairAcquire s i) := by
  unfold doPairAcquire
  split
  · exact h
  · exact .ite (canonical_gangAcquire h) (canonical_acquireNext h)

theorem canonical_gangRemember {s : State} {gang : Nat} (h : MemoryCanonical s) :
    MemoryCanonical (gangRemember s gang) := .of_mem h rfl

theorem canonical_failMembers {s : State} {gang code : Nat} (h : MemoryCanonical s) :
    MemoryCanonical (failMembers s gang code) := by
  unfold failMembers
  split
  · exact h
  · exact canonical_settled (.of_mem (.foldl (fun _ _ h => canonical_endUndispatched h) h) rfl)

theorem canonical_gangAbandon {s : State} {gang code : Nat} (h : MemoryCanonical s) :
    MemoryCanonical (gangAbandon s gang code) := by
  unfold gangAbandon
  split
  · exact h
  · extract_lets t _ _ _ u _ v
    have ht : MemoryCanonical t := .foldl (fun _ _ h => canonical_dropWaiter (canonical_discardTag h)) h
    have hu : MemoryCanonical u := .foldl (fun _ _ h => canonical_sendCtl h) ht
    have hv : MemoryCanonical v := .foldl (fun _ _ h => canonical_sendCtl h) hu
    exact canonical_failMembers (canonical_gangRemember hv)

theorem canonical_gangArrive {s : State} {gang node tag count leader wait : Nat} {claims : List Claim}
    {replays : Bool} {chans : List (Nat × Nat)} {local_ : Option Nat} (h : MemoryCanonical s) :
    MemoryCanonical (gangArrive s gang node tag count leader wait claims replays chans local_) := by
  unfold gangArrive
  refine .ite ?_ ?_
  · split
    · exact canonical_settled (canonical_endUndispatched h)
    · exact canonical_sendCtl h
  · extract_lets _ _ _ _ _ _ _ t
    have ht : MemoryCanonical t := .of_mem h rfl
    exact .ite (canonical_gangAbandon ht) (.ite (canonical_gangTryStart (canonical_modGang ht)) ht)

theorem canonical_doGangMemberReady {s : State} {i : Nat} (h : MemoryCanonical s) :
    MemoryCanonical (doGangMemberReady s i) := by
  unfold doGangMemberReady
  split
  · exact h
  · split
    · exact h
    · rename_i tagged
      have ht := canonical_ensureTag h tagged
      exact .ite (canonical_gangArrive (canonical_modCmd ht)) (canonical_sendCtl (.of_mem ht rfl))

theorem canonical_touchPair {s : State} {idx : Nat} (h : MemoryCanonical s) : MemoryCanonical (touchPair s idx) :=
  canonical_modPair h

theorem canonical_closeRecord {s : State} {tag : Nat} (h : MemoryCanonical s) :
    MemoryCanonical (closeRecord s tag) := by
  unfold closeRecord
  split
  · exact h
  · exact .ite (canonical_tagsFree (.of_mem h rfl)) h

theorem canonical_commitTry {s : State} {tag : Nat} (h : MemoryCanonical s) : MemoryCanonical (commitTry s tag) := by
  unfold commitTry
  split
  · exact h
  · extract_lets _ _ t
    have ht : MemoryCanonical t := .of_mem h rfl
    exact .ite (canonical_closeRecord h) (.ite (canonical_settled (canonical_finish (canonical_closeRecord ht))) h)

theorem canonical_commitAll {s : State} (h : MemoryCanonical s) : MemoryCanonical (commitAll s) :=
  .foldl (fun _ _ h => canonical_commitTry h) h

theorem canonical_commitNow_modPeersActive {s : State} {ns : List Nat} (h : MemoryCanonical s) :
    MemoryCanonical (commitNow.modPeersActive s ns) := .foldl (fun _ _ h => canonical_modPeer h) h

theorem canonical_commitNow {s : State} {i : Nat} {c : Cmd} (h : MemoryCanonical s) :
    MemoryCanonical (commitNow s i c) := by
  unfold commitNow
  extract_lets _ _ _ _ _ t u v w x
  have ht : MemoryCanonical t := .of_mem h rfl
  have hu : MemoryCanonical u := canonical_modCmd ht
  have hv : MemoryCanonical v := canonical_flipTag hu
  have hw : MemoryCanonical w := .foldl (fun _ _ h => canonical_sendCtl h) hv
  have hx : MemoryCanonical x := canonical_commitNow_modPeersActive hw
  exact canonical_commitTry (canonical_unitProgress hx)

theorem canonical_gangReadyAt {s : State} {gang node tag : Nat} (h : MemoryCanonical s) :
    MemoryCanonical (gangReadyAt s gang node tag) := by
  unfold gangReadyAt
  split
  · exact h
  · extract_lets _ t u _ v
    have ht : MemoryCanonical t := canonical_modGang h
    have hu : MemoryCanonical u := canonical_modGang ht
    have hv : MemoryCanonical v := .of_mem hu rfl
    exact .ite (.foldl (fun _ _ h => canonical_sendCtl h) hv) ht

theorem canonical_gangCommitLocal {s : State} {gang : Nat} (h : MemoryCanonical s) :
    MemoryCanonical (gangCommitLocal s gang) := by
  unfold gangCommitLocal
  split
  · exact h
  · refine .foldl (fun _ _ h => ?_) h
    split
    · exact .ite (canonical_commitNow h) h
    · exact h

theorem canonical_doCommitPoint {s : State} {i : Nat} (h : MemoryCanonical s) :
    MemoryCanonical (doCommitPoint s i) := by
  unfold doCommitPoint
  split
  · exact h
  · refine .ite (canonical_commitNow h) (.ite h ?_)
    extract_lets t u
    have ht : MemoryCanonical t := canonical_modCmd h
    have hu : MemoryCanonical u := canonical_gangReadyAt ht
    exact .ite (.ite (canonical_gangCommitLocal hu) hu) (canonical_sendCtl ht)

theorem canonical_setDest {s : State} {tag node : Nat} {d : DestSt} (h : MemoryCanonical s) :
    MemoryCanonical (setDest s tag node d) := .of_mem h rfl

theorem canonical_doCommitAck {s : State} {tag node : Nat} (h : MemoryCanonical s) :
    MemoryCanonical (doCommitAck s tag node) := by
  unfold doCommitAck
  split
  · exact canonical_closeRecord (canonical_logPeer (canonical_setDest h))
  · exact canonical_commitTry (canonical_setDest h)

theorem canonical_commitLose {s : State} {tag : Nat} (h : MemoryCanonical s) :
    MemoryCanonical (commitLose s tag) := by
  unfold commitLose
  split
  · exact h
  · refine .ite h ?_
    extract_lets _ t u
    have ht : MemoryCanonical t := .of_mem h rfl
    have hu : MemoryCanonical u := by
      unfold u
      split
      · exact canonical_logCmdEnd ht
      · exact ht
    exact canonical_settled (canonical_finish hu)

theorem canonical_doRecordExpire {s : State} {tag node : Nat} (h : MemoryCanonical s) :
    MemoryCanonical (doRecordExpire s tag node) :=
  canonical_tagsFree (.of_mem (.ite (canonical_logPeer (canonical_commitLose h)) h) rfl)

theorem canonical_holdPairs {s : State} {node : Nat} (h : MemoryCanonical s) : MemoryCanonical (holdPairs s node) :=
  canonical_modPeer (.of_mem h rfl)

theorem canonical_discardHeld {s : State} {node : Nat} (h : MemoryCanonical s) :
    MemoryCanonical (discardHeld s node) := canonical_modPeer (.foldl (fun _ _ h => canonical_discardTag h) h)

theorem canonical_claimArrive {s : State} {asker : Nat} {c : ClaimReq} (h : MemoryCanonical s) :
    MemoryCanonical (claimArrive s asker c) := by
  unfold claimArrive
  split
  · exact h
  · exact .ite (canonical_sendCtl (canonical_setPair h)) (canonical_setPair h)

theorem canonical_commitArrive {s : State} {node tag : Nat} (h : MemoryCanonical s) :
    MemoryCanonical (commitArrive s node tag) := canonical_sendCtl (canonical_flipTag h)

theorem canonical_discardArrive {s : State} {node tag : Nat} (h : MemoryCanonical s) :
    MemoryCanonical (discardArrive s node tag) := canonical_sendCtl (canonical_dropWaiter (canonical_discardTag h))

theorem canonical_discardForArrive {s : State} {owner tag : Nat} (h : MemoryCanonical s) :
    MemoryCanonical (discardForArrive s owner tag) := canonical_dropWaiter (canonical_discardTag h)

theorem canonical_doGangEnd {s : State} {gang code : Nat} (h : MemoryCanonical s) :
    MemoryCanonical (doGangEnd s gang code) := by
  unfold doGangEnd
  split
  · exact h
  · extract_lets t
    have ht : MemoryCanonical t := .ite (canonical_tellGangEnd h) h
    exact .ite (canonical_settled (canonical_endGangLocal ht)) (canonical_failMembers ht)

theorem canonical_wakeGroup {s : State} {core slot cmd page : Nat} (h : MemoryCanonical s) :
    MemoryCanonical (wakeGroup s core slot cmd page) := canonical_modGroup h

theorem canonical_unparkGroup {s : State} {core slot cmd rec : Nat} (h : MemoryCanonical s) :
    MemoryCanonical (unparkGroup s core slot cmd rec) := canonical_modGroup h

theorem canonical_fillRange {s : State} {i : Nat} {t : Trans} (h : MemoryCanonical s) :
    MemoryCanonical (fillRange s i t) := canonical_modCmd (.of_mem h rfl)

theorem canonical_wakeWaiter {s : State} {t : Trans} {page : Nat} {x : XWaiter} (h : MemoryCanonical s) :
    MemoryCanonical (wakeWaiter s t page x) := by
  unfold wakeWaiter
  split
  · exact canonical_wakeGroup h
  · exact canonical_modCore h
  · exact canonical_fillRange h

theorem canonical_failWaiter {s : State} {code va : Nat} {x : XWaiter} (h : MemoryCanonical s) :
    MemoryCanonical (failWaiter s code va x) := by
  unfold failWaiter
  split
  · split
    · exact .ite (canonical_failCmd h) h
    · exact canonical_failCmd h
  · exact canonical_failCmd h
  · exact canonical_failCmd h

theorem canonical_dropWalk {s : State} {w : Nat} (h : MemoryCanonical s) : MemoryCanonical (dropWalk s w) :=
  .of_mem h rfl

theorem canonical_cacheTrans {s : State} {t : Trans} (h : MemoryCanonical s) : MemoryCanonical (cacheTrans s t) :=
  .of_mem h rfl

theorem canonical_countFault {s : State} {cmd page rec : Nat} (h : MemoryCanonical s) :
    MemoryCanonical (countFault s cmd page rec).2 := .of_mem h rfl

theorem canonical_parkWaiter {s : State} {rec page cause : Nat} {w : XWaiter} (h : MemoryCanonical s) :
    MemoryCanonical (parkWaiter s rec page cause w) := by
  unfold parkWaiter
  extract_lets t u
  have ht : MemoryCanonical t.2 := canonical_countFault h
  have hu : MemoryCanonical u := ht
  refine .ite (canonical_failWaiter hu) ?_
  split
  · exact canonical_modGroup hu
  · exact canonical_modCmd hu
  · exact hu

theorem canonical_hostFault {s : State} {ctx page : Nat} {a : Access} {cause : Nat} {ws : List XWaiter}
    (h : MemoryCanonical s) :
    MemoryCanonical (hostFault s ctx page a cause ws) :=
  .ite (.foldl (fun _ _ h => canonical_failWaiter h) (.ite (canonical_logOnly h) h)) (.foldl
    (fun _ _ h => canonical_parkWaiter h) (.of_mem h rfl))

theorem canonical_readEntry {s : State} {k : Nat} {w : Walk} (h : MemoryCanonical s) :
    MemoryCanonical (readEntry s k w) := by
  unfold readEntry
  extract_lets
  exact .ite h (.ite (canonical_hostRead h) (.foldl (fun _ _ h => canonical_failWaiter h) (canonical_dropWalk h)))

theorem canonical_beginWalk {s : State} {ctx va : Nat} {a : Access} {w : XWaiter} {root : Bool}
    (h : MemoryCanonical s) :
    MemoryCanonical (beginWalk s ctx va a w root) := by
  unfold beginWalk
  extract_lets _ _ _ _ _ _ _ _ t u v
  have ht : MemoryCanonical t := .of_mem h rfl
  have hu : MemoryCanonical u := canonical_pmcEvent (canonical_pmcEvent ht)
  have hv : MemoryCanonical v := canonical_pmcEvent hu
  split
  · exact .of_mem h rfl
  · exact canonical_readEntry (.ite (canonical_pmcEvent hv) hv)

theorem canonical_startWalk {s : State} {ctx va : Nat} {a : Access} {w : XWaiter} (h : MemoryCanonical s) :
    MemoryCanonical (startWalk s ctx va a w) := canonical_beginWalk h

theorem canonical_startWalks {ctx : Nat} {a : Access} {w : XWaiter} {l : List Nat} {s : State}
    (h : MemoryCanonical s) :
    MemoryCanonical (startWalks ctx a w l s).2 := by
  induction l generalizing s with
  | nil => exact h
  | cons p l ih => exact .ite_snd (ih (canonical_startWalk h)) (ih h)

theorem canonical_pumpWalks {s : State} (h : MemoryCanonical s) : MemoryCanonical (pumpWalks s) := by
  unfold pumpWalks
  refine .foldl (fun _ _ h => ?_) h
  split
  · exact h
  · exact .ite (.foldl (fun _ _ h => .ite (canonical_startWalk h) h) h) h

theorem canonical_descend {s : State} {k : Nat} {w : Walk} {table : Nat} (h : MemoryCanonical s) :
    MemoryCanonical (descend s k w table) := canonical_readEntry (.of_mem h rfl)

theorem canonical_deviceStep {s : State} {k : Nat} {w : Walk} (h : MemoryCanonical s) :
    MemoryCanonical (deviceStep s k w) := by
  unfold deviceStep
  extract_lets _ _ _ t
  have ht : MemoryCanonical t := canonical_cacheTrans (canonical_dropWalk h)
  exact .ite (.foldl (fun _ _ h => canonical_failWaiter h) (canonical_dropWalk h)) (.ite (.ite (.foldl
    (fun _ _ h => canonical_wakeWaiter h) ht) (.foldl (fun _ _ h => canonical_failWaiter h) ht))
    (canonical_descend h))

theorem canonical_hostStep {s : State} {k : Nat} {w : Walk} {e : Nat} (h : MemoryCanonical s) :
    MemoryCanonical (hostStep s k w e) := by
  unfold hostStep
  extract_lets
  exact .ite (canonical_readEntry (.of_mem h rfl)) (.ite (canonical_hostFault (canonical_dropWalk h)) (.ite (.ite
    (.foldl (fun _ _ h => canonical_wakeWaiter h) (canonical_cacheTrans (canonical_dropWalk h)))
    (canonical_hostFault (canonical_dropWalk h))) (canonical_descend h)))

theorem canonical_doWalkEntry {s : State} {k : Nat} {e : DWord} (h : MemoryCanonical s) :
    MemoryCanonical (doWalkEntry s k e) := by
  unfold doWalkEntry
  split
  · exact h
  · exact canonical_pumpWalks (.ite (canonical_hostStep h) (canonical_deviceStep h))

theorem canonical_doWalkTimeout {s : State} {k : Nat} (h : MemoryCanonical s) :
    MemoryCanonical (doWalkTimeout s k) := by
  unfold doWalkTimeout
  split
  · exact h
  · exact canonical_pumpWalks (.foldl (fun _ _ h => canonical_failWaiter h) (canonical_dropWalk h))

theorem canonical_doFaultPost {s : State} (h : MemoryCanonical s) : MemoryCanonical (doFaultPost s) := by
  unfold doFaultPost
  split
  · exact h
  · exact canonical_pmcEvent (canonical_setReg (canonical_modAcct (.of_mem (canonical_hostWrite h) rfl)))

theorem canonical_mgmtWrite {s : State} {t : Nat} {c : FwCall} {f : State → State} (h : MemoryCanonical s)
    (hf : ∀ s, MemoryCanonical s → MemoryCanonical (f s)) :
    MemoryCanonical (mgmtWrite s t c f) :=
  .ite h (.ite (canonical_park h) (.ite (canonical_hptLog (canonical_emit h)) (.ite (canonical_nakAccess h)
    (canonical_pmcEvent (hf _ (canonical_emit h))))))

theorem canonical_dropRec {s : State} {k : Nat} (h : MemoryCanonical s) : MemoryCanonical (dropRec s k) :=
  .of_mem h rfl

theorem canonical_unparkSaved {s : State} {k : Nat} {w : XWaiter} (h : MemoryCanonical s) :
    MemoryCanonical (unparkSaved s k w) := canonical_modCmd h

theorem canonical_retryWaiter {s : State} {k : Nat} {r : FaultRec} {w : XWaiter} (h : MemoryCanonical s) :
    MemoryCanonical (retryWaiter s k r w) := by
  unfold retryWaiter
  extract_lets t _ u
  have ht : MemoryCanonical t := canonical_unparkSaved h
  have hu : MemoryCanonical u := by
    unfold u
    split
    · exact canonical_modGroup ht
    · exact ht
  refine .ite (canonical_beginWalk hu) ?_
  split
  · exact canonical_unparkGroup ht
  · exact canonical_modCore ht
  · exact ht

theorem canonical_retryRec {s : State} {k : Nat} {r : FaultRec} (h : MemoryCanonical s) :
    MemoryCanonical (retryRec s k r) := .foldl (fun _ _ h => canonical_retryWaiter h) (canonical_dropRec h)

theorem canonical_failRec {s : State} {k : Nat} {r : FaultRec} (h : MemoryCanonical s) :
    MemoryCanonical (failRec s k r) := .foldl (fun _ _ h => canonical_failWaiter h) (canonical_dropRec h)

theorem canonical_doFresp {s : State} {v : DWord} (h : MemoryCanonical s) : MemoryCanonical (doFresp s v) := by
  unfold doFresp
  split
  · exact h
  · exact .ite (canonical_retryRec h) (canonical_failRec h)

theorem canonical_doSvcTimeout {s : State} {n : Nat} (h : MemoryCanonical s) :
    MemoryCanonical (doSvcTimeout s n) := by
  unfold doSvcTimeout
  split
  · exact canonical_failRec h
  · exact h

theorem canonical_readInv {s : State} (h : MemoryCanonical s) : MemoryCanonical (readInv s) :=
  .ite (canonical_hostRead h) h

theorem canonical_ringInv {s : State} {n : Nat} (h : MemoryCanonical s) : MemoryCanonical (ringInv s n) :=
  .ite (.ite (canonical_readInv (.of_mem h rfl)) (.of_mem h rfl)) h

theorem canonical_invRanges {s : State} {e : InvEntry} (h : MemoryCanonical s) : MemoryCanonical (invRanges s e) := by
  unfold invRanges
  refine .foldl (fun _ _ h => ?_) h
  split
  · exact h
  · exact .ite h (.ite (canonical_modCmd (.of_mem h rfl)) (.of_mem h rfl))

theorem canonical_doInvalidation {s : State} {e : InvEntry} (h : MemoryCanonical s) :
    MemoryCanonical (doInvalidation s e) := by
  unfold doInvalidation
  extract_lets _ t u
  have ht : MemoryCanonical t := .ite (canonical_logOnly h) h
  have hu : MemoryCanonical u := canonical_pumpWalks (canonical_invRanges ht)
  exact canonical_readInv (.of_mem hu rfl)

theorem canonical_noteSent {s : State} {core ent from_ : Nat} (h : MemoryCanonical s) :
    MemoryCanonical (noteSent s core ent from_) := .of_mem h rfl

theorem canonical_doInvDone {s : State} (h : MemoryCanonical s) : MemoryCanonical (doInvDone s) := by
  unfold doInvDone
  extract_lets _ _ t u
  have ht : MemoryCanonical t := canonical_setReg (.of_mem h rfl)
  have hu : MemoryCanonical u := canonical_pmcEvent ht
  exact .ite hu (canonical_hostWrite hu)

theorem canonical_doFmtWrite {s : State} {v : Nat} (h : MemoryCanonical s) : MemoryCanonical (doFmtWrite s v) :=
  .ite (canonical_logOnly (canonical_pgErr (canonical_setRaw h))) (.ite (canonical_logOnly (canonical_pgErr h))
    (.ite (canonical_setReg h) (canonical_setReg h)))

end Sys2Proof.Machine
end

