-- ==== Sys2Proof/Proofs/CanonicalCores.lean ====
section
/-! Memory stays canonical (O7): the functions of a core: issue, accesses of lanes, the array and its drain. -/

namespace Sys2Proof.Machine

theorem canonical_coreProgress {s : State} {c : Nat} (h : MemoryCanonical s) : MemoryCanonical (coreProgress s c) :=
  canonical_modCore h

theorem canonical_latchFault {s : State} {core slot code lane pcVa : Nat} {cmdId : DWord} (h : MemoryCanonical s) :
    MemoryCanonical (latchFault s core slot code lane pcVa cmdId) :=
  .ite (canonical_setReg h) (canonical_setReg (canonical_setReg (canonical_setReg h)))

theorem canonical_noteStopped {s : State} {cmd : Nat} {c : Cmd} (h : MemoryCanonical s) :
    MemoryCanonical (noteStopped s cmd c) := canonical_modErr h

theorem canonical_tookTurn {s : State} {core slot : Nat} (h : MemoryCanonical s) :
    MemoryCanonical (tookTurn s core slot) := canonical_modCore h

theorem canonical_faultCmdAt {s : State} {core slot cmd pc code lane : Nat} (h : MemoryCanonical s) :
    MemoryCanonical (faultCmdAt s core slot cmd pc code lane) := by
  unfold faultCmdAt
  split
  · exact h
  · exact canonical_failCmd (canonical_latchFault (canonical_noteStopped h))

theorem canonical_groupFaultAt {s : State} {core slot cmd pc code lane : Nat} (h : MemoryCanonical s) :
    MemoryCanonical (groupFaultAt s core slot cmd pc code lane) := canonical_faultCmdAt (canonical_tookTurn h)

theorem canonical_sramError {s : State} {core page code : Nat} (h : MemoryCanonical s) :
    MemoryCanonical (sramError s core page code) := by
  unfold sramError
  extract_lets t _ _ u
  have ht : MemoryCanonical t := canonical_pgErr h
  have hu : MemoryCanonical u := .of_mem ht rfl
  exact .ite hu (canonical_queueRecovery (.of_mem hu rfl))

theorem canonical_noteIssue {s : State} {gr : GroupRef} {i : Instr} (h : MemoryCanonical s) :
    MemoryCanonical (noteIssue s gr i) := canonical_pmcEvent (canonical_modGroup (canonical_modCore h))

theorem canonical_setPc {s : State} {gr : GroupRef} {pc : Nat} (h : MemoryCanonical s) :
    MemoryCanonical (setPc s gr pc) := canonical_modGroup h

theorem canonical_takeJump {s : State} {gr : GroupRef} {g : Group} {target : Nat} {counts : Bool}
    (h : MemoryCanonical s) :
    MemoryCanonical (takeJump s gr g target counts) := canonical_modGroup (canonical_setPc (canonical_pmcEvent h))

theorem canonical_clearFpc {s : State} {core slot : Nat} (h : MemoryCanonical s) :
    MemoryCanonical (clearFpc s core slot) := canonical_modGroup h

theorem canonical_waitWalk {s : State} {gr : GroupRef} {g : Group} {va : Nat} {a : Access} (h : MemoryCanonical s) :
    MemoryCanonical (waitWalk s gr g va a) := .ite (canonical_startWalk (canonical_modGroup h)) h

theorem canonical_runInstr {gr : GroupRef} {i : Instr} {body : State → Group → LaneRes} {s : State} {g : Group}
    (h : MemoryCanonical s) (hf : ∀ s g, MemoryCanonical s → (body s g).Canonical) :
    MemoryCanonical (runInstr gr i body s g) := by
  have hb := hf s g h
  unfold runInstr
  split
  · exact .ite (canonical_groupFaultAt h) (canonical_failCmd h)
  · exact canonical_waitWalk h
  · refine .ite (canonical_groupFaultAt h) ?_
    split <;> rename_i e <;> rw [e] at hb
    · exact canonical_groupFaultAt h
    · exact hb
    · exact canonical_setPc (canonical_noteIssue hb)
    · exact .ite (canonical_groupFaultAt h) (canonical_takeJump (canonical_noteIssue hb))

theorem canonical_revived {s : State} {core : Nat} (h : MemoryCanonical s) : MemoryCanonical (revived s core) := by
  unfold revived
  refine .foldl (fun _ _ h => ?_) h
  exact .of_mem h rfl

theorem canonical_laterFault {gr : GroupRef} {i : Instr} {body : State → Group → LaneRes} {s : State}
    (h : MemoryCanonical s) :
    MemoryCanonical (laterFault gr i body s) := by
  unfold laterFault
  extract_lets
  split
  · exact .ite (canonical_tookTurn (canonical_setReg h)) h
  · exact h

theorem canonical_onGroup {gr : GroupRef} {f : Group → Group} {s : State} {x : Group} (h : MemoryCanonical s) :
    (onGroup gr f s x).Canonical := canonical_modGroup h

theorem canonical_pickBytes {k : CoreSt} {old : NMap Byte} {cmd fuel off n : Nat} {s : State}
    (h : MemoryCanonical s) :
    MemoryCanonical (pickBytes k old cmd fuel off n s).2 := by
  induction fuel generalizing off n s with
  | zero => exact h
  | succ fuel ih => exact .ite_snd h (ih (canonical_chooseOf h))

theorem canonical_takeLanePath {s : State} {core n : Nat} (h : MemoryCanonical s) :
    MemoryCanonical (takeLanePath s core n).2 := canonical_modCore (.ite (canonical_pmcEvent h) h)

theorem canonical_takePorts {s : State} {core n ctx : Nat} (h : MemoryCanonical s) :
    MemoryCanonical (takePorts s core n ctx).2 := canonical_modCore (canonical_pmcEvent h)

theorem canonical_awaitBanks {s : State} {core : Nat} {load : Option Nat} {offs : List Nat} (h : MemoryCanonical s) :
    MemoryCanonical (awaitBanks s core load offs) := .ite (canonical_modCore h) h

theorem canonical_scrUncorr {s : State} {core cmd off : Nat} (h : MemoryCanonical s) :
    MemoryCanonical (scrUncorr s core cmd off) :=
  canonical_failCmd (canonical_sramError (.ite h (canonical_setReg (canonical_setReg h))))

theorem canonical_scrCorr {s : State} {core : Nat} (h : MemoryCanonical s) : MemoryCanonical (scrCorr s core) :=
  .ite h (canonical_setReg h)

theorem canonical_tokenDone {s : State} {core slot t n : Nat} (h : MemoryCanonical s) :
    MemoryCanonical (tokenDone s core slot t n) := canonical_modGroup h

theorem canonical_launchSlot {s : State} {gr : GroupRef} {cmd n : Nat} (h : MemoryCanonical s) :
    MemoryCanonical (launchSlot s gr cmd n) := canonical_coreProgress (canonical_modGroup (canonical_modCore h))

theorem canonical_doScratchAllocate {s : State} {core cmd : Nat} (h : MemoryCanonical s) :
    MemoryCanonical (doScratchAllocate s core cmd) := by
  unfold doScratchAllocate
  split
  · exact h
  · exact canonical_modCore h

theorem canonical_doPromote {s : State} {core bank : Nat} (h : MemoryCanonical s) :
    MemoryCanonical (doPromote s core bank) := canonical_pmcEvent (canonical_modCore h)

theorem canonical_wakeCredit {s : State} {core : Nat} (h : MemoryCanonical s) : MemoryCanonical (wakeCredit s core) :=
  canonical_modCore h

theorem canonical_pushChan {s : State} {pa : Nat} {op : ChanOp} (h : MemoryCanonical s) :
    MemoryCanonical (pushChan s pa op) := canonical_modChan h

theorem canonical_setL2Set {s : State} {st pa : Nat} {f : List L2Tag → List L2Tag} (h : MemoryCanonical s) :
    MemoryCanonical (setL2Set s st pa f) := canonical_modSlice h

theorem canonical_noteKeep {s : State} {st pa hint : Nat} (h : MemoryCanonical s) :
    MemoryCanonical (noteKeep s st pa hint) :=
  .ite h (.ite (canonical_regSafePoint (canonical_modSlice h)) (canonical_modSlice h))

theorem canonical_sendL2Entry {s : State} {st : Nat} {e : L2Merge} (h : MemoryCanonical s) :
    MemoryCanonical (sendL2Entry s st e) := canonical_pushChan (canonical_modSlice h)

theorem canonical_unpoison {s : State} {line : Nat} {mask : BitVec 128} (h : MemoryCanonical s) :
    MemoryCanonical (unpoison s line mask) := .of_mem h rfl

theorem canonical_l2Buffer {s : State} {st line : Nat} {mask : BitVec 128} {cmd : Option Nat} {old : List Byte}
    (h : MemoryCanonical s) :
    MemoryCanonical (l2Buffer s st line mask cmd old) := by
  unfold l2Buffer
  extract_lets _ t
  have ht : MemoryCanonical t := by
    unfold t
    split
    · exact .ite (canonical_sendL2Entry h) h
    · exact h
  split
  · exact .ite (canonical_sendL2Entry (canonical_modSlice h)) (canonical_modSlice h)
  · exact .ite (canonical_pushChan ht) (canonical_modSlice ht)

theorem canonical_acceptAtL2 {s : State} {line : Nat} {mask : BitVec 128} {data : List Byte} {cmd : Option Nat}
    {hint : Nat}
    (h : MemoryCanonical s) : MemoryCanonical (acceptAtL2 s line mask data cmd hint) := by
  unfold acceptAtL2
  extract_lets _ _ t _ u
  have ht : MemoryCanonical t := wf_putMasked h line 0 mask data
  have hu : MemoryCanonical u := by
    unfold u
    split
    · exact canonical_noteKeep (canonical_setL2Set ht)
    · exact ht
  exact .ite (canonical_l2Buffer hu) (canonical_pushChan ht)

theorem canonical_patchReqs {s : State} {core : Nat} {e : MergeEntry} (h : MemoryCanonical s) :
    MemoryCanonical (patchReqs s core e) := .ite (.of_mem h rfl) h

theorem canonical_touchNode {s : State} {cmd n : Nat} (h : MemoryCanonical s) : MemoryCanonical (touchNode s cmd n) :=
  canonical_modCmd h

theorem canonical_sendWrite {s : State} {n : Nat} {sh : Bool} {a : Nat} {m : Msg} {cls cmd : Nat} {groups : List Nat}
    (h : MemoryCanonical s) :
    MemoryCanonical (sendWrite s n sh a m cls cmd groups) := canonical_sendOrdered (.ite (canonical_touchNode h) h)

theorem canonical_sendHost {s : State} {a : Nat} {mask : BitVec 128} {data : List Byte} {cmd : Nat}
    {groups : List Nat} (h : MemoryCanonical s) :
    MemoryCanonical (sendHost s a mask data cmd groups) :=
  .foldl (fun _ _ h => canonical_chargeHost (canonical_hostWrite h)) h

theorem canonical_takeEntry {s : State} {core id : Nat} {e : MergeEntry} (h : MemoryCanonical s) :
    MemoryCanonical (takeEntry s core id e) := by
  unfold takeEntry
  extract_lets t u
  have ht : MemoryCanonical t := canonical_patchReqs h
  have hu : MemoryCanonical u := canonical_wakeCredit (canonical_modCore ht)
  split
  · exact canonical_acceptAtL2 hu
  · split
    · exact canonical_acceptAtL2 hu
    · exact hu
  · split
    · exact canonical_failCmd hu
    · exact canonical_sendWrite hu
  · exact canonical_noteSent (canonical_sendHost hu)
  · exact hu

theorem canonical_sendEntry {s : State} {core id : Nat} (h : MemoryCanonical s) :
    MemoryCanonical (sendEntry s core id) := by
  unfold sendEntry
  split
  · exact h
  · exact .ite (canonical_takeEntry h) (canonical_modCore h)

theorem canonical_sendEntries {s : State} {core : Nat} {p : MergeEntry → Bool} (h : MemoryCanonical s) :
    MemoryCanonical (sendEntries s core p) := .foldl (fun _ _ h => canonical_sendEntry h) h

theorem canonical_drainIfDone {s : State} {cmd : Nat} (h : MemoryCanonical s) :
    MemoryCanonical (drainIfDone s cmd) := by
  unfold drainIfDone
  split
  · exact h
  · exact .ite (.foldl (fun _ _ h => canonical_sendEntries h) h) h

theorem canonical_addReq {s : State} {r : LineReq} (h : MemoryCanonical s) : MemoryCanonical (addReq s r) :=
  .of_mem h rfl

theorem canonical_setReq {s : State} {id : Nat} {r : LineReq} (h : MemoryCanonical s) :
    MemoryCanonical (setReq s id r) := .of_mem h rfl

theorem canonical_newOutReq {s : State} {n cmd : Nat} {what : ReqWhat} (h : MemoryCanonical s) :
    MemoryCanonical (newOutReq s n cmd what).2 := canonical_modPeer (.of_mem h rfl)

theorem canonical_sendReq {s : State} {r : LineReq} (h : MemoryCanonical s) : MemoryCanonical (sendReq s r) := by
  unfold sendReq
  extract_lets
  split
  · exact canonical_sendRead (canonical_newOutReq (canonical_addReq h))
  · exact canonical_hostRead (canonical_addReq h)
  · exact canonical_addReq h

theorem canonical_sendMoverReads {core m n : Nat} {s : State} (h : MemoryCanonical s) :
    MemoryCanonical (sendMoverReads core m n s) := by
  induction n generalizing s with
  | zero => exact h
  | succ n ih =>
    unfold sendMoverReads
    split
    · exact h
    · split
      · exact h
      · exact .ite (ih (canonical_sendReq (canonical_modCore h))) h

theorem canonical_returnCredit {s : State} {core : Nat} (h : MemoryCanonical s) :
    MemoryCanonical (returnCredit s core) := canonical_wakeCredit (.foldl (fun _ _ h => canonical_sendMoverReads h) h)

theorem canonical_readyReq {s : State} {id : Nat} {r : LineReq} {data : List Byte} (h : MemoryCanonical s) :
    MemoryCanonical (readyReq s id r data) := .ite (canonical_returnCredit (canonical_setReq h)) (canonical_setReq h)

theorem canonical_pushAtoms {s : State} {pa : Nat} {ids : List Nat} (h : MemoryCanonical s) :
    MemoryCanonical (pushAtoms s pa ids) := by
  unfold pushAtoms
  dsimp only
  split
  · exact h
  · exact canonical_pushChan (wf_atomsOn h _ _ _)

theorem canonical_pushReduce {s : State} {pa op : Nat} {d : List Byte} {n psn : Nat} (h : MemoryCanonical s) :
    MemoryCanonical (pushReduce s pa op d n psn) := canonical_pushChan (wf_reduceOn h pa op d)

theorem canonical_pushPeerAtoms {s : State} {pa op : Nat} {es : List AtomEntry} {n req psn : Nat}
    (h : MemoryCanonical s) :
    MemoryCanonical (pushPeerAtoms s pa op es n req psn) := canonical_pushChan (wf_atomsOn h pa op _)

theorem canonical_parkGroup {s : State} {gr : GroupRef} {w : GWait} (h : MemoryCanonical s) :
    MemoryCanonical (parkGroup s gr w) := canonical_modGroup h

theorem canonical_walkPages {s : State} {gr : GroupRef} {g : Group} {acc : Access} {vas : List Nat}
    (h : MemoryCanonical s) :
    MemoryCanonical (walkPages s gr g acc vas) :=
  .ite h (canonical_modGroup (canonical_startWalks (canonical_parkGroup h)))

theorem canonical_globalAccess {gr : GroupRef} {s : State} {g : Group} {acc : Access} {size : Nat}
    {as : List (Nat × Nat)} {extra : Option Nat} {k : List (Nat × Trans × Tgt) → LaneRes} (h : MemoryCanonical s)
    (hf : ∀ a0, (k a0).Canonical) :
    (globalAccess gr s g acc size as extra k).Canonical := by
  unfold globalAccess
  split
  · exact trivial
  · refine .ite trivial ?_
    split
    · exact trivial
    · split
      · exact canonical_failCmd h
      · exact canonical_walkPages h
      · refine .ite trivial ?_
        split
        · exact canonical_failCmd h
        · exact hf _

theorem canonical_scratchAccess {s : State} {core cmd size : Nat} {as : List (Nat × Nat)} {k : LaneRes}
    (hk : k.Canonical) :
    (scratchAccess s core cmd size as k).Canonical := by
  unfold scratchAccess
  split
  · exact trivial
  · exact .ite trivial hk

theorem canonical_addLoad {s : State} {r : LoadRec} (h : MemoryCanonical s) : MemoryCanonical (addLoad s r) :=
  .of_mem h rfl

theorem canonical_scratchLoad {s : State} {gr : GroupRef} {g : Group} {dst : Nat} {sreg sign : Bool} {size : Nat}
    {as : List (Nat × Nat)} (h : MemoryCanonical s) : MemoryCanonical (scratchLoad s gr g dst sreg sign size as) := by
  unfold scratchLoad
  exact canonical_awaitBanks (canonical_addLoad (canonical_takeLanePath h))

theorem canonical_readToChange {s : State} {gr : GroupRef} {g : Group} {t size : Nat} {as : List (Nat × Nat)}
    (h : MemoryCanonical s) :
    MemoryCanonical (readToChange s gr g t size as) := canonical_addLoad h

theorem canonical_requestLines {s : State} {core : Nat} {g : Group} {load : Option Nat} {hint : Nat} {bypass : Bool}
    {l : List (Nat × Trans × Tgt)} {accs : List LaneAcc} (h : MemoryCanonical s) :
    MemoryCanonical (requestLines s core g load hint bypass l accs) := .foldl (fun _ _ h => canonical_sendReq h) h

theorem canonical_countL1 {s : State} {core ctx : Nat} {accs : List LaneAcc} (h : MemoryCanonical s) :
    MemoryCanonical (countL1 s core ctx accs) :=
  .ite (.ite h (canonical_pmcEvent h)) (canonical_pmcEvent (.ite h (canonical_pmcEvent h)))

theorem canonical_globalLoad {s : State} {gr : GroupRef} {g : Group} {dst : Nat} {sreg sign : Bool} {size hint : Nat}
    {bypass : Bool} {ports : Nat} {l : List (Nat × Trans × Tgt)} (h : MemoryCanonical s) :
    (globalLoad s gr g dst sreg sign size hint bypass ports l).Canonical := by
  unfold globalLoad
  split
  · exact canonical_parkGroup h
  · extract_lets _ _ t u _ v _ _ w
    have ht : MemoryCanonical t.2 := canonical_takePorts h
    have hu : MemoryCanonical u := canonical_countL1 ht
    have hv : MemoryCanonical v := canonical_modCore hu
    have hw : MemoryCanonical w := canonical_addLoad hv
    exact .ite (canonical_parkGroup h) (.ite (canonical_parkGroup h) (canonical_requestLines hw))

theorem canonical_doLd {gr : GroupRef} {f : FmtM} {s : State} {g : Group} (h : MemoryCanonical s) :
    (doLd gr f s g).Canonical := by
  unfold doLd
  refine .ite h (.ite (canonical_scratchAccess (canonical_modGroup (canonical_scratchLoad h)))
    (canonical_globalAccess h fun l => ?_))
  split
  · exact canonical_modGroup (.of_done ‹_› (canonical_globalLoad h))
  · exact canonical_globalLoad h

theorem canonical_doLdsc {gr : GroupRef} {f : FmtM} {s : State} {g : Group} (h : MemoryCanonical s) :
    (doLdsc gr f s g).Canonical := by
  unfold doLdsc
  refine .ite h (.ite (canonical_scratchAccess (canonical_modGroup (canonical_scratchLoad h)))
    (canonical_globalAccess h fun l => ?_))
  split
  · exact canonical_modGroup (.of_done ‹_› (canonical_globalLoad h))
  · exact canonical_globalLoad h

theorem canonical_doPrefetch {gr : GroupRef} {f : FmtM} {s : State} {g : Group} (h : MemoryCanonical s) :
    (doPrefetch gr f s g).Canonical := by
  unfold doPrefetch
  extract_lets _ _ _ _ t u
  have ht : MemoryCanonical t := canonical_takePorts h
  have hu : MemoryCanonical u := canonical_countL1 ht
  refine .ite h (.ite (canonical_scratchAccess h) ?_)
  split
  · exact trivial
  · refine .ite trivial ?_
    split
    · exact canonical_parkGroup h
    · exact .ite (canonical_parkGroup h) (canonical_requestLines hu)

theorem canonical_refetch {s : State} {core id : Nat} {r : LoadRec} {u : Upset} (h : MemoryCanonical s) :
    MemoryCanonical (refetch s core id r u) := by
  unfold refetch
  extract_lets _ t u _ _ _ _ v
  have ht : MemoryCanonical t := canonical_modCore h
  have hu : MemoryCanonical u := .foldl (fun _ _ h => canonical_errWrite (.ite h (canonical_setReg h))) ht
  have hv : MemoryCanonical v := .of_mem hu rfl
  exact .foldl (fun _ _ h => canonical_sendReq h) hv

theorem canonical_finishLoad {s : State} {gr : GroupRef} {id : Nat} {r : LoadRec} (h : MemoryCanonical s) :
    MemoryCanonical (finishLoad s gr id r) := .of_mem h rfl

theorem canonical_doLoadReturn {s : State} {gr : GroupRef} {id : Nat} {u : Upset} (h : MemoryCanonical s) :
    MemoryCanonical (doLoadReturn s gr id u) := by
  unfold doLoadReturn
  split
  · exact h
  · split
    · exact canonical_scrUncorr h
    · exact canonical_finishLoad (canonical_scrCorr h)
    · exact .ite (canonical_finishLoad h) (canonical_refetch h)
    · exact .ite (canonical_finishLoad h) (canonical_refetch h)
    · exact canonical_finishLoad h

theorem canonical_deliver {s : State} {id : Nat} {r : LineReq} {data : List Byte} (h : MemoryCanonical s) :
    MemoryCanonical (deliver s id r data) := by
  unfold deliver
  refine .ite (canonical_readyReq h) ?_
  extract_lets _ _ t _ _ u
  have ht : MemoryCanonical t := by
    unfold t
    split
    · exact h
    · exact .of_mem h rfl
  have hu : MemoryCanonical u := .ite (canonical_modCore ht) ht
  exact canonical_returnCredit (.of_mem hu rfl)

theorem canonical_doFill {s : State} {id : Nat} {data : List Byte} (h : MemoryCanonical s) :
    MemoryCanonical (doFill s id data) := by
  unfold doFill
  split
  · exact h
  · exact .ite (canonical_deliver (canonical_chargeHost h)) (canonical_deliver h)

theorem canonical_l2Upset {s : State} {st pa : Nat} {u : Upset} (h : MemoryCanonical s) :
    MemoryCanonical (l2Upset s st pa u) := by
  unfold l2Upset
  extract_lets _ t _ u
  have ht : MemoryCanonical t := canonical_setL2Set h
  have hu : MemoryCanonical u := .ite (.ite ht (canonical_setReg ht)) (.ite ht (canonical_setReg ht))
  exact .ite (canonical_errWrite hu) h

theorem canonical_servedLast {s : State} {st pa id : Nat} {t : L2Tag} (h : MemoryCanonical s) :
    MemoryCanonical (servedLast s st pa id t) := by
  unfold servedLast
  split
  · exact h
  · exact canonical_setL2Set h

theorem canonical_toChannel {s : State} {id : Nat} {r : LineReq} {pa : Nat} (h : MemoryCanonical s) :
    MemoryCanonical (toChannel s id r pa) := canonical_pushChan (canonical_setReq h)

theorem canonical_doLookup {s : State} {id : Nat} {u : Upset} (h : MemoryCanonical s) :
    MemoryCanonical (doLookup s id u) := by
  unfold doLookup
  split
  · exact h
  · split
    · exact canonical_failCmd h
    · extract_lets _ t u _ v
      have ht : MemoryCanonical t := canonical_l2Upset h
      have hu : MemoryCanonical u := canonical_pmcEvent ht
      have hv : MemoryCanonical v := canonical_pmcEvent hu
      split
      · refine .ite ?_ (canonical_toChannel hu)
        extract_lets w
        have hw : MemoryCanonical w := .ite (canonical_servedLast hv) (canonical_noteKeep (canonical_setL2Set hv))
        exact canonical_readyReq hw
      · exact canonical_toChannel hu

theorem canonical_loseL2Entry {s : State} {slice : Nat} {e : L2Merge} (h : MemoryCanonical s) :
    MemoryCanonical (loseL2Entry s slice e) := by
  unfold loseL2Entry
  extract_lets t u _ v
  have hu : MemoryCanonical u := wf_putMasked (canonical_modSlice h) e.line 0 e.mask e.old
  have hv : MemoryCanonical v := canonical_errWrite (canonical_pgErr hu)
  split
  · exact canonical_failCmd hv
  · exact hv

theorem canonical_scratchStore {s : State} {gr : GroupRef} {g : Group} {f : FmtM} {as : List (Nat × Nat)}
    (h : MemoryCanonical s) :
    (scratchStore s gr g f as).Canonical := by
  unfold scratchStore
  extract_lets _ _ _ _ _ t u v w x y
  have ht : MemoryCanonical t.2 := canonical_takeLanePath h
  have hu : MemoryCanonical u := .ite (canonical_readToChange ht) ht
  have hv : MemoryCanonical v := canonical_awaitBanks hu
  have hw : MemoryCanonical w := canonical_modCore hv
  have hx : MemoryCanonical x := .foldl (fun _ _ h => canonical_launchSlot h) hw
  have hy : MemoryCanonical y := canonical_modCore hx
  refine .ite trivial ?_
  split
  · exact canonical_parkGroup h
  · exact canonical_coreProgress (canonical_clearFpc hy)

theorem canonical_ownPair {s : State} {cmd i : Nat} (h : MemoryCanonical s) : MemoryCanonical (ownPair s cmd i) :=
  canonical_touchPair (canonical_modPair h)

theorem canonical_makeRoom {core cmd : Nat} {lines : List Tgt} {n : Nat} {s : State} (h : MemoryCanonical s) :
    MemoryCanonical (makeRoom core cmd lines n s) := by
  induction n generalizing s with
  | zero => exact h
  | succ n ih =>
    unfold makeRoom
    refine .ite h ?_
    split
    · exact ih (canonical_sendEntry h)
    · exact h

theorem canonical_bufferStore {s : State} {core : Nat} {g : Group} {hint : Nat} {t : Tgt} {b : List Byte}
    (h : MemoryCanonical s) :
    MemoryCanonical (bufferStore s core g hint t b) := canonical_modCore h

theorem canonical_acceptStore {s : State} {gr : GroupRef} {g : Group} {hint ports : Nat}
    {l : List (Nat × Trans × Tgt)} {bytes : Nat → List Byte} (h : MemoryCanonical s) :
    MemoryCanonical (acceptStore s gr g hint ports l bytes) := by
  unfold acceptStore
  extract_lets t u v
  have ht : MemoryCanonical t := canonical_takePorts h
  have hu : MemoryCanonical u := .foldl (fun _ _ h => canonical_bufferStore h) ht
  have hv : MemoryCanonical v := canonical_coreProgress (canonical_clearFpc hu)
  exact .ite (canonical_sendEntries hv) (canonical_sendEntries hv)

/-- Memory is canonical in the state that a store finds or stalls in. -/
def Gate.Canonical : Gate → Prop
  | .halt s => MemoryCanonical s
  | .go s => MemoryCanonical s

theorem canonical_writeGate {s : State} {gr : GroupRef} {cmd : Nat} {ps : List Nat} (h : MemoryCanonical s) :
    (writeGate s gr cmd ps).Canonical := by
  have owned : MemoryCanonical (ps.foldl (fun s i => ownPair s cmd i) s) := .foldl
    (fun _ _ h => canonical_ownPair h) h
  unfold writeGate
  split
  · exact canonical_busyEnd h
  · dsimp only
    split
    · exact canonical_parkGroup owned
    · exact owned

theorem canonical_globalStore {s : State} {gr : GroupRef} {g : Group} {hint ports : Nat}
    {l : List (Nat × Trans × Tgt)}
    {bytes : Nat → List Byte} (h : MemoryCanonical s) : (globalStore s gr g hint ports l bytes).Canonical := by
  have gate := canonical_writeGate (gr := gr) (cmd := g.cmd) (ps := pairsOf l) h
  unfold globalStore
  split <;> rename_i e <;> rw [e] at gate
  · exact gate
  · have stalled {t : State} (ht : MemoryCanonical t) {page k : Nat} {ctx : Option Nat} :
        MemoryCanonical (pmcEvent (parkGroup t gr .credit) page 0x0104 k ctx) := canonical_pmcEvent
          (canonical_parkGroup ht)
    have roomy : MemoryCanonical (makeRoom gr.core g.cmd
      (l.map fun e => e.2.2.line).eraseDups 64 _) := canonical_makeRoom gate
    exact .ite (canonical_parkGroup gate) (.ite (.ite (canonical_acceptStore gate) (stalled gate))
      (.ite roomy (.ite (canonical_acceptStore roomy) (stalled roomy))))

theorem canonical_doSt {gr : GroupRef} {f : FmtM} {s : State} {g : Group} (h : MemoryCanonical s) :
    (doSt gr f s g).Canonical := by
  unfold doSt
  extract_lets
  exact .ite h (.ite (canonical_scratchAccess (canonical_scratchStore h)) (canonical_globalAccess h
    (fun _ => canonical_globalStore h)))

theorem canonical_scratchAtom {s : State} {gr : GroupRef} {g : Group} {op : Nat} {f : FmtA} {as : List (Nat × Nat)}
    (h : MemoryCanonical s) : (scratchAtom s gr g op f as).Canonical := by
  unfold scratchAtom
  extract_lets t u _ _ v w
  have ht : MemoryCanonical t.2 := canonical_takeLanePath h
  have hu : MemoryCanonical u.2 := by
    dsimp only [u]
    exact canonical_awaitBanks (canonical_readToChange ht)
  have hv : MemoryCanonical v := canonical_modCore hu
  have hw : MemoryCanonical w := canonical_modGroup hv
  exact MemoryCanonical.ite (canonical_coreProgress (canonical_clearFpc hw)) hw

theorem canonical_addAtom {s : State} {a : AtomRec} (h : MemoryCanonical s) : MemoryCanonical (addAtom s a) :=
  .of_mem h rfl

theorem canonical_setAtoms {s : State} {ids : List Nat} {st : AtomSt} (h : MemoryCanonical s) :
    MemoryCanonical (setAtoms s ids st) := .of_mem h rfl

theorem canonical_sendAtomBlock {s : State} {n : Nat} {sh : Bool} {sector : Nat} {ids : List Nat}
    (h : MemoryCanonical s) :
    MemoryCanonical (sendAtomBlock s n sh sector ids) := by
  unfold sendAtomBlock
  dsimp only
  split
  · exact h
  · have asked {cmd : Nat} : MemoryCanonical (newOutReq (setAtoms s ids .atPeer) n cmd (.atoms ids)).2 :=
      canonical_newOutReq (canonical_setAtoms h)
    exact canonical_sendOrdered (.ite (canonical_touchNode asked) asked)

theorem canonical_sendAtoms {s : State} {ids : List Nat} (h : MemoryCanonical s) :
    MemoryCanonical (sendAtoms s ids) := by
  unfold sendAtoms
  split
  · exact h
  · split
    · exact canonical_pushAtoms (canonical_setAtoms h)
    · split
      · exact canonical_pushAtoms (canonical_setAtoms h)
      · exact h
    · split
      · exact canonical_failCmd h
      · exact .ite (.foldl (fun _ _ h => canonical_sendAtomBlock h) h) (canonical_setAtoms h)
    · refine .ite ?_ (canonical_setAtoms h)
      refine .foldl (fun _ _ h => ?_) (canonical_setAtoms h)
      split
      · exact h
      · exact canonical_chargeHost (canonical_emit (.of_mem h rfl))
    · exact h

theorem canonical_l1ForAtoms {s : State} {core : Nat} {l : List (Nat × Trans × Tgt)} (h : MemoryCanonical s) :
    MemoryCanonical (l1ForAtoms s core l) := .of_mem h rfl

theorem canonical_globalAtom {s : State} {gr : GroupRef} {g : Group} {op : Nat} {f : FmtA} {ports : Nat}
    {l : List (Nat × Trans × Tgt)} (h : MemoryCanonical s) : (globalAtom s gr g op f ports l).Canonical := by
  have gate := canonical_writeGate (gr := gr) (cmd := g.cmd) (ps := pairsOf l) h
  unfold globalAtom
  split <;> rename_i e <;> rw [e] at gate
  · exact gate
  · exact MemoryCanonical.foldl (fun _ _ h => canonical_sendAtoms h)
      (canonical_modGroup (.foldl (fun _ _ h => canonical_addAtom h) (canonical_l1ForAtoms
        (canonical_takePorts gate))))

theorem canonical_doAtom {gr : GroupRef} {op : Nat} {f : FmtA} {s : State} {g : Group} (h : MemoryCanonical s) :
    (doAtom gr op f s g).Canonical := by
  unfold doAtom
  extract_lets
  exact .ite h (.ite (canonical_scratchAccess (canonical_scratchAtom h)) (canonical_globalAccess h
    (fun _ => canonical_globalAtom h)))

theorem canonical_atomWrote {s : State} {id : Nat} {wrote : Bool} (h : MemoryCanonical s) :
    MemoryCanonical (atomWrote s id wrote) := by
  unfold atomWrote
  split
  · exact h
  · exact .ite (canonical_coreProgress (canonical_clearFpc h)) h

theorem canonical_atomDone {s : State} {id : Nat} {old : DWord} {wrote : Bool} (h : MemoryCanonical s) :
    MemoryCanonical (atomDone s id old wrote) := by
  unfold atomDone
  split
  · exact h
  · exact .of_mem (canonical_atomWrote h) rfl

theorem canonical_doAtomReturn {s : State} {gr : GroupRef} {id : Nat} (h : MemoryCanonical s) :
    MemoryCanonical (doAtomReturn s gr id) := by
  unfold doAtomReturn
  split
  · exact h
  · exact .of_mem h rfl

theorem canonical_doFence {gr : GroupRef} {f : FmtF} {s : State} {g : Group} (h : MemoryCanonical s) :
    (doFence gr f s g).Canonical := canonical_parkGroup (.ite h (canonical_sendEntries h))

theorem canonical_doSlotFree {s : State} {gr : GroupRef} (h : MemoryCanonical s) :
    MemoryCanonical (doSlotFree s gr) := by
  unfold doSlotFree
  split
  · exact h
  · extract_lets _ _ _ _ _ t u v
    have ht : MemoryCanonical t := .of_mem h rfl
    have hu : MemoryCanonical u := canonical_modCore ht
    have hv : MemoryCanonical v := canonical_pmcEvent hu
    exact canonical_drainIfDone (canonical_modCmd hv)

theorem canonical_loseEntry {s : State} {core id : Nat} (h : MemoryCanonical s) :
    MemoryCanonical (loseEntry s core id) := by
  unfold loseEntry
  split
  · exact h
  · exact canonical_failCmd (canonical_sramError (canonical_wakeCredit (canonical_modCore h)))

theorem canonical_enterQueue {s : State} {gr : GroupRef} {g : Group} {kind : ArrKind} {f : FmtX} {base scale : Nat}
    {offs : List Word} (h : MemoryCanonical s) :
    MemoryCanonical (enterQueue s gr g kind f base scale offs) := canonical_modCore h

theorem canonical_queueMx {kind : ArrKind} {gr : GroupRef} {f : FmtX} {s : State} {g : Group}
    (h : MemoryCanonical s) :
    (queueMx kind gr f s g).Canonical := by
  unfold queueMx
  extract_lets _ _ _ _ t u
  have ht : MemoryCanonical t := canonical_enterQueue h
  have hu : MemoryCanonical u := canonical_modGroup ht
  refine .ite trivial ?_
  split
  · exact trivial
  · exact .ite trivial (.ite (canonical_parkGroup h) (.ite (canonical_enterQueue h) (canonical_coreProgress hu)))

theorem canonical_doWaitG {gr : GroupRef} {f : FmtX} {s : State} {g : Group} (h : MemoryCanonical s) :
    (doWaitG gr f s g).Canonical := .ite trivial (.ite h (canonical_parkGroup h))

theorem canonical_wakeQueue {s : State} {core : Nat} (h : MemoryCanonical s) : MemoryCanonical (wakeQueue s core) :=
  canonical_modCore h

theorem canonical_arrDone {s : State} {core : Nat} {q : ArrCmd} (h : MemoryCanonical s) :
    MemoryCanonical (arrDone s core q) := by
  unfold arrDone
  extract_lets t u
  have ht : MemoryCanonical t := canonical_modCore h
  have hu : MemoryCanonical u := .ite (canonical_tokenDone ht) ht
  exact canonical_drainIfDone (canonical_wakeQueue (canonical_coreProgress hu))

theorem canonical_operandBytes {s : State} {core : Nat} {q : ArrCmd} {off n : Nat} (h : MemoryCanonical s) :
    MemoryCanonical (operandBytes s core q off n).2 := canonical_pickBytes h

theorem canonical_streamOperands {s : State} {core : Nat} {q : ArrCmd} {act : WeightSet} {low : Bool} {r : Nat}
    (h : MemoryCanonical s) :
    MemoryCanonical (streamOperands s core q act low r).2 :=
  .ite_snd (canonical_operandBytes h) (canonical_operandBytes (canonical_operandBytes h))

theorem canonical_latchCfault {s : State} {core code : Nat} (h : MemoryCanonical s) :
    MemoryCanonical (latchCfault s core code) := .ite h (canonical_setReg h)

theorem canonical_arrFault {s : State} {core cmd : Nat} (h : MemoryCanonical s) :
    MemoryCanonical (arrFault s core cmd) := canonical_failCmd (canonical_latchCfault h)

theorem canonical_arrEcc {s : State} {core cmd : Nat} (h : MemoryCanonical s) : MemoryCanonical (arrEcc s core cmd) :=
  canonical_failCmd (canonical_sramError (canonical_latchCfault h))

theorem canonical_scrUpset {s : State} {core cmd off : Nat} {u : Upset} {k : State → State} (h : MemoryCanonical s)
    (hf : ∀ s, MemoryCanonical s → MemoryCanonical (k s)) :
    MemoryCanonical (scrUpset s core cmd off u k) := by
  unfold scrUpset
  split
  · exact canonical_scrUncorr h
  · exact hf _ (canonical_scrCorr h)
  · exact hf _ h

theorem canonical_doLdwStart {s : State} {core : Nat} {q : ArrCmd} (h : MemoryCanonical s) :
    MemoryCanonical (doLdwStart s core q) := .ite (canonical_arrFault h) (canonical_modCore h)

theorem canonical_weightRow {s : State} {core : Nat} {q : ArrCmd} {i : Nat} (h : MemoryCanonical s) :
    MemoryCanonical (weightRow s core q i).2 := by
  unfold weightRow
  extract_lets _ _ t _ _ u
  have ht : MemoryCanonical t.2 := canonical_operandBytes h
  have hu : MemoryCanonical u.2 := .ite_snd ht (.ite_snd (canonical_operandBytes ht) (canonical_operandBytes ht))
  exact hu

theorem canonical_weightRows {core : Nat} {q : ArrCmd} {n i : Nat} {s : State} (h : MemoryCanonical s) :
    MemoryCanonical (weightRows core q n i s).2 := by
  induction n generalizing i s with
  | zero => exact h
  | succ n ih => exact ih (canonical_weightRow h)

theorem canonical_doLdwComplete {s : State} {core : Nat} {q : ArrCmd} (h : MemoryCanonical s) :
    MemoryCanonical (doLdwComplete s core q) := by
  unfold doLdwComplete
  extract_lets t u v _ _ w
  have ht : MemoryCanonical t := canonical_pmcEvent h
  have hu : MemoryCanonical u := canonical_modCore ht
  have hv : MemoryCanonical v.2 := canonical_weightRows ht
  have hw : MemoryCanonical w := canonical_modCore hv
  exact .ite (canonical_arrDone hu) (canonical_arrDone hw)

theorem canonical_doSwapEnter {s : State} {core : Nat} {q : ArrCmd} (h : MemoryCanonical s) :
    MemoryCanonical (doSwapEnter s core q) := canonical_modCore (canonical_pmcEvent h)

theorem canonical_doSwapComplete {s : State} {core : Nat} {q : ArrCmd} (h : MemoryCanonical s) :
    MemoryCanonical (doSwapComplete s core q) := canonical_arrDone (canonical_modCore h)

theorem canonical_doStreamStart {s : State} {core : Nat} {q : ArrCmd} (h : MemoryCanonical s) :
    MemoryCanonical (doStreamStart s core q) :=
  .ite (canonical_arrFault h) (canonical_coreProgress (canonical_modCore h))

theorem canonical_dropGhost {s : State} {core id : Nat} (h : MemoryCanonical s) :
    MemoryCanonical (dropGhost s core id) := canonical_modCore h

theorem canonical_latchXstat {s : State} {core cmd : Nat} {orient : Bool} {pass out row : Nat}
    (h : MemoryCanonical s) :
    MemoryCanonical (latchXstat s core cmd orient pass out row) := .ite h (canonical_setReg (canonical_setReg h))

theorem canonical_noteColinv {s : State} {core : Nat} {outs : List Nat} (h : MemoryCanonical s) :
    MemoryCanonical (noteColinv s core outs) := .foldl (fun _ _ h => canonical_setReg h) h

theorem canonical_noteResults {s : State} {core : Nat} {q : ArrCmd} {orient : Bool} {pass row : Nat}
    {rs : List (Nat × EdgeRes)} (h : MemoryCanonical s) : MemoryCanonical
      (noteResults s core q orient pass row rs) := by
  unfold noteResults
  extract_lets invs _ _ t
  have ht : MemoryCanonical t := .ite h (canonical_modCmd h)
  clear_value invs
  split
  · exact ht
  · exact canonical_noteColinv (canonical_latchXstat ht)

theorem canonical_noteWaves {s : State} {core : Nat} {r : StreamRun} {q : ArrCmd} (h : MemoryCanonical s) :
    MemoryCanonical (noteWaves s core r q) := by
  unfold noteWaves
  extract_lets _ _ t
  have ht : MemoryCanonical t := .ite (canonical_pmcEvent h) h
  exact .ite h (.ite (canonical_pmcEvent ht) ht)

theorem canonical_doRowWrite {s : State} {core : Nat} {r : StreamRun} {q : ArrCmd} (h : MemoryCanonical s) :
    MemoryCanonical (doRowWrite s core r q) := by
  unfold doRowWrite
  extract_lets _ _ _ _ _ _ _ _ _ _ t _ _ _ _ _ u v _ w
  have ht : MemoryCanonical t.2 := .ite_snd h (canonical_streamOperands h)
  have hu : MemoryCanonical u := canonical_pmcEvent ht
  have hv : MemoryCanonical v := canonical_modCore (canonical_noteWaves hu)
  have hw : MemoryCanonical w := canonical_coreProgress (canonical_noteResults hv)
  exact .ite (.ite (canonical_dropGhost h) (canonical_arrFault h)) (.ite (canonical_dropGhost hw) hw)

theorem canonical_startDrain {s : State} {core : Nat} (h : MemoryCanonical s) :
    MemoryCanonical (startDrain s core) := by
  unfold startDrain
  extract_lets
  split
  · split
    · exact .ite h (canonical_modCore h)
    · exact h
  · exact h

theorem canonical_doStreamComplete {s : State} {core : Nat} {q : ArrCmd} (h : MemoryCanonical s) :
    MemoryCanonical (doStreamComplete s core q) := canonical_startDrain (canonical_arrDone (canonical_modCore h))

theorem canonical_prepareArray {s : State} {core cmd : Nat} (h : MemoryCanonical s) :
    MemoryCanonical (prepareArray s core cmd) :=
  canonical_modCore (.foldl (fun _ _ h => canonical_setReg h) (canonical_regSafePoint h))

theorem canonical_paramFault {s : State} {core : Nat} {q : ArrCmd} {reason row : Nat} (h : MemoryCanonical s) :
    MemoryCanonical (paramFault s core q reason row) :=
  canonical_failCmd (canonical_pmcEvent (.ite h (canonical_setReg (canonical_setReg h))))

theorem canonical_doDrainDispatch {s : State} {core : Nat} {q : ArrCmd} (h : MemoryCanonical s) :
    MemoryCanonical (doDrainDispatch s core q) := by
  unfold doDrainDispatch
  extract_lets t _ u v _ _ w
  have ht : MemoryCanonical t.2 := canonical_operandBytes h
  have hu : MemoryCanonical u.2 := .ite_snd (canonical_operandBytes ht) ht
  have hv : MemoryCanonical v.2 := .ite_snd (canonical_operandBytes hu) hu
  have hw : MemoryCanonical w := hv
  split
  · exact canonical_paramFault hw
  · exact canonical_startDrain (canonical_modCore hw)

theorem canonical_doDrainRow {s : State} {core : Nat} {d : DrainRun} {q : ArrCmd} (h : MemoryCanonical s) :
    MemoryCanonical (doDrainRow s core d q) := by
  unfold doDrainRow
  split
  · exact canonical_paramFault h
  · exact canonical_drainRow h

theorem canonical_doDrainComplete {s : State} {core : Nat} {d : DrainRun} {q : ArrCmd} (h : MemoryCanonical s) :
    MemoryCanonical (doDrainComplete s core d q) :=
  canonical_arrDone (canonical_modCore (canonical_foldDrain (canonical_pmcEvent h)))

end Sys2Proof.Machine
end

