-- ==== Sys2Proof/Proofs/CanonicalMemory.lean ====
section
/-! Memory stays canonical (O7): the functions of what peers write, of caches, channels and movers. -/

namespace Sys2Proof.Machine

theorem canonical_respondOnly {s : State} {n req addr : Nat} {m : Msg} (h : MemoryCanonical s) :
    MemoryCanonical (respondOnly s n req addr m) := .ite h (canonical_sendResp h)

theorem canonical_creditBack {s : State} {n : Nat} (h : MemoryCanonical s) : MemoryCanonical (creditBack s n) :=
  canonical_modPeer h

theorem canonical_respond_ {s : State} {n req addr : Nat} {m : Msg} (h : MemoryCanonical s) :
    MemoryCanonical (respond_ s n req addr m) := by
  unfold respond_
  split
  · exact canonical_respondOnly (canonical_creditBack h)
  · exact canonical_respondOnly h

theorem canonical_sendRefused {s : State} {n req code psn : Nat} (h : MemoryCanonical s) :
    MemoryCanonical (sendRefused s n req code psn) := canonical_respond_ h

theorem canonical_countIngress {s : State} {n : Nat} (h : MemoryCanonical s) : MemoryCanonical (countIngress s n) :=
  .of_mem h rfl

theorem canonical_oweAck {s : State} {n : Nat} (h : MemoryCanonical s) : MemoryCanonical (oweAck s n) :=
  canonical_modPeer h

theorem canonical_resolveWrite {s : State} {hdr : BlockHdr} {n : Nat} (h : MemoryCanonical s) :
    MemoryCanonical (resolveWrite s hdr n).2 := by
  unfold resolveWrite
  refine .ite_snd ?_ h
  extract_lets
  refine .ite_snd h ?_
  split
  · exact h
  · extract_lets _ t u
    have ht : MemoryCanonical t := .ite (canonical_setPair h) h
    have hu : MemoryCanonical u := canonical_touchPair ht
    refine .ite_snd ?_ h
    split
    · exact .ite_snd hu hu
    · exact hu

theorem canonical_writeLines {s : State} {a : Nat} {data : List Byte} (h : MemoryCanonical s) :
    MemoryCanonical (writeLines s a data) :=
  .ite (canonical_acceptAtL2 h) (canonical_acceptAtL2 (canonical_acceptAtL2 h))

theorem canonical_popHead {s : State} {n : Nat} (h : MemoryCanonical s) : MemoryCanonical (popHead s n) := by
  unfold popHead
  extract_lets _ t
  have ht : MemoryCanonical t := canonical_oweAck (canonical_modPeer h)
  exact .ite (canonical_creditBack ht) ht

theorem canonical_refuseHead {s : State} {n : Nat} {hdr : BlockHdr} {code : Nat} (h : MemoryCanonical s) :
    MemoryCanonical (refuseHead s n hdr code) := canonical_popHead (canonical_sendRefused h)

theorem canonical_performHead {s : State} {n : Nat} {b : InBlk} (h : MemoryCanonical s) :
    MemoryCanonical (performHead s n b).1 := by
  unfold performHead
  refine .ite_fst h (.ite_fst ?_ ?_)
  · dsimp only
    split
    · exact canonical_commitArrive (canonical_modPeer h)
    · exact canonical_discardArrive (canonical_modPeer h)
  · have resolved := canonical_resolveWrite (hdr := b.hdr) (n := b.msg.len) h
    split <;> rename_i e <;> rw [e] at resolved
    · exact canonical_refuseHead resolved
    · exact resolved
    · refine .ite_fst resolved ?_
      split
      · exact canonical_popHead (canonical_writeLines (canonical_countIngress resolved))
      · split
        · exact canonical_refuseHead (canonical_notePoisoned resolved)
        · exact canonical_popHead (canonical_acceptAtL2 (canonical_countIngress resolved))
      · exact canonical_pushReduce (canonical_modPeer (canonical_countIngress resolved))
      · exact canonical_pushPeerAtoms (canonical_modPeer (canonical_countIngress resolved))
      · exact canonical_popHead resolved

theorem canonical_pump {n k : Nat} {s : State} (h : MemoryCanonical s) : MemoryCanonical (pump n k s) := by
  induction k generalizing s with
  | zero => exact h
  | succ k ih =>
    unfold pump
    split
    · exact h
    · exact .ite (ih (canonical_performHead h)) (canonical_performHead h)

theorem canonical_pumpPeer {s : State} {n : Nat} (h : MemoryCanonical s) : MemoryCanonical (pumpPeer s n) :=
  canonical_pump h

theorem canonical_pumpAll {s : State} (h : MemoryCanonical s) : MemoryCanonical (pumpAll s) :=
  .foldl (fun _ _ h => .ite h (canonical_pumpPeer h)) h

theorem canonical_finishHead {s : State} {n psn : Nat} (h : MemoryCanonical s) :
    MemoryCanonical (finishHead s n psn) := by
  unfold finishHead
  split
  · exact .ite (canonical_pumpPeer (canonical_popHead h)) h
  · exact h

theorem canonical_refuseStarted {s : State} {n req code psn : Nat} (h : MemoryCanonical s) :
    MemoryCanonical (refuseStarted s n req code psn) := canonical_finishHead (canonical_sendRefused h)

theorem canonical_serveRead {s : State} {hdr : BlockHdr} (h : MemoryCanonical s) :
    MemoryCanonical (serveRead s hdr) := by
  unfold serveRead
  split
  · exact canonical_sendRefused (canonical_creditBack h)
  · exact h
  · refine .ite (.of_mem h rfl) ?_
    extract_lets t
    have ht : MemoryCanonical t := canonical_pmcEvent h
    exact .ite (canonical_respond_ (canonical_pmcEvent ht)) (canonical_pushChan ht)

theorem canonical_peerRead {s : State} {hdr : BlockHdr} (h : MemoryCanonical s) : MemoryCanonical (peerRead s hdr) :=
  canonical_serveRead (canonical_countIngress h)

theorem canonical_pumpReads {s : State} (h : MemoryCanonical s) : MemoryCanonical (pumpReads s) :=
  .ite h (.foldl (fun _ _ h => canonical_serveRead h) (.of_mem h rfl))

theorem canonical_modCtl {s : State} {u : CacheUnit} {f : CacheCtl → CacheCtl} (h : MemoryCanonical s) :
    MemoryCanonical (modCtl s u f) := by
  unfold modCtl
  split
  · exact canonical_modCore h
  · exact canonical_modSlice h

theorem canonical_drainCache {s : State} {u : CacheUnit} (h : MemoryCanonical s) :
    MemoryCanonical (drainCache s u) := by
  unfold drainCache
  extract_lets _ t
  have ht : MemoryCanonical t := canonical_modCtl h
  refine .ite h ?_
  split
  · exact canonical_sendEntries ht
  · exact .foldl (fun _ _ h => canonical_sendL2Entry h) ht

theorem canonical_endDrain {s : State} {u : CacheUnit} (h : MemoryCanonical s) : MemoryCanonical (endDrain s u) := by
  unfold endDrain
  extract_lets t
  have ht : MemoryCanonical t := canonical_modCtl h
  split
  · exact canonical_modCore ht
  · exact canonical_pumpAll ht

theorem canonical_emptyL1 {s : State} {c : Nat} (h : MemoryCanonical s) : MemoryCanonical (emptyL1 s c) :=
  .of_mem h rfl

theorem canonical_emptyL2 {s : State} {i : Nat} (h : MemoryCanonical s) : MemoryCanonical (emptyL2 s i) :=
  canonical_modSlice h

theorem canonical_startInv {s : State} {u : CacheUnit} (h : MemoryCanonical s) : MemoryCanonical (startInv s u) := by
  unfold startInv
  refine .ite h ?_
  extract_lets _ t
  have ht : MemoryCanonical t := canonical_modCtl h
  split
  · exact canonical_emptyL1 ht
  · exact canonical_emptyL2 ht

theorem canonical_endInv {s : State} {u : CacheUnit} (h : MemoryCanonical s) : MemoryCanonical (endInv s u) :=
  canonical_modCtl h

theorem canonical_enableCache {s : State} {u : CacheUnit} (h : MemoryCanonical s) :
    MemoryCanonical (enableCache s u) := .ite (canonical_modCtl h) (canonical_logOnly (canonical_pgErr h))

theorem canonical_ctlWrite {s : State} {u : CacheUnit} {v : Nat} (h : MemoryCanonical s) :
    MemoryCanonical (ctlWrite s u v) := by
  unfold ctlWrite
  extract_lets t
  have ht : MemoryCanonical t := .ite (canonical_drainCache h) (canonical_enableCache h)
  exact .ite (canonical_startInv ht) ht

theorem canonical_clearKept {s : State} {i : Nat} (h : MemoryCanonical s) : MemoryCanonical (clearKept s i) :=
  canonical_modSlice h

theorem canonical_poisonSector {s : State} {a : Nat} (h : MemoryCanonical s) : MemoryCanonical (poisonSector s a) :=
  .ite h (.of_mem h rfl)

theorem canonical_uncorrSector {s : State} {st ch a : Nat} {scrub : Bool} (h : MemoryCanonical s) :
    MemoryCanonical (uncorrSector s st ch a scrub) := by
  unfold uncorrSector
  extract_lets t u v
  have ht : MemoryCanonical t := canonical_poisonSector h
  have hu : MemoryCanonical u := canonical_incReg (canonical_incReg ht)
  have hv : MemoryCanonical v := canonical_hbsLatch (canonical_pgErr hu)
  exact .ite (canonical_raiseFatal hv) hv

theorem canonical_failOp {s : State} {st code : Nat} {o : ChanOp} (h : MemoryCanonical s) :
    MemoryCanonical (failOp s st code o) := by
  unfold failOp
  extract_lets _ t
  have ht : MemoryCanonical t := .foldl (fun _ _ h => canonical_failCmd h) h
  split
  · exact canonical_sendRefused (canonical_creditBack ht)
  · exact canonical_refuseStarted ht
  · exact canonical_refuseStarted ht
  · exact .of_mem ht rfl
  · exact ht

theorem canonical_chargeOp {s : State} {o : ChanOp} (h : MemoryCanonical s) : MemoryCanonical (chargeOp s o) :=
  canonical_chargeHbm h

theorem canonical_addResult {s : State} {r : RedResult} (h : MemoryCanonical s) : MemoryCanonical (addResult s r) :=
  .of_mem h rfl

theorem canonical_l2Fill {s : State} {pa hint : Nat} {sects : BitVec 4} (h : MemoryCanonical s) :
    MemoryCanonical (l2Fill s pa hint sects) := .ite (canonical_noteKeep (canonical_setL2Set h)) h

theorem canonical_performOp {s : State} {st : Nat} {o : ChanOp} (h : MemoryCanonical s) :
    MemoryCanonical (performOp s st o) := by
  unfold performOp
  split
  · split
    · exact h
    · split
      · exact h
      · exact canonical_readyReq (canonical_l2Fill h)
  · exact canonical_respond_ h
  · extract_lets _ t
    have ht : MemoryCanonical t := canonical_unpoison h
    exact .ite ht (canonical_pumpReads (canonical_pmcEvent (canonical_pmcEvent ht)))
  · exact canonical_addResult (.foldl (fun _ _ h => canonical_atomWrote h) (canonical_pmcEvent h))
  · exact canonical_addResult (canonical_pmcEvent h)
  · exact canonical_addResult (canonical_pmcEvent h)

theorem canonical_noteLane {s : State} {st ch lane n : Nat} (h : MemoryCanonical s) :
    MemoryCanonical (noteLane s st ch lane n) := .ite h (canonical_modChan h)

theorem canonical_startChanReset {s : State} {st ch : Nat} (h : MemoryCanonical s) :
    MemoryCanonical (startChanReset s st ch) := canonical_modChan h

theorem canonical_recordEcc {s : State} {st a : Nat} {o : ChanOp} (h : MemoryCanonical s) :
    MemoryCanonical (recordEcc s st a o) := .ite h (canonical_errWrite h)

theorem canonical_exhausted {s : State} {st ch : Nat} {o : ChanOp} (h : MemoryCanonical s) :
    MemoryCanonical (exhausted s st ch o) := by
  unfold exhausted
  extract_lets _ _ t u v
  have ht : MemoryCanonical t := .foldl (fun _ _ h => canonical_poisonSector h) h
  have hu : MemoryCanonical u := .ite (canonical_incReg ht) h
  have hv : MemoryCanonical v := canonical_hbsLatch (canonical_pgErr hu)
  exact canonical_raiseUnit (canonical_startChanReset (canonical_failOp hv))

theorem canonical_runOp {s : State} {st ch : Nat} {o : ChanOp} {hdr : HbmOutcome} (h : MemoryCanonical s) :
    MemoryCanonical (runOp s st ch o hdr) := by
  unfold runOp
  extract_lets t u v
  have ht : MemoryCanonical t := canonical_noteLane h
  have hu : MemoryCanonical u := canonical_incReg ht
  have hv : MemoryCanonical v := canonical_chargeOp hu
  refine .ite (canonical_exhausted hv) ?_
  split
  · exact canonical_failOp (canonical_notePoisoned hv)
  · refine .ite (canonical_performOp hv) ?_
    split
    · exact canonical_performOp hv
    · exact canonical_performOp (canonical_incReg hv)
    · exact canonical_failOp (canonical_uncorrSector (canonical_recordEcc hv))

theorem canonical_doChan {s : State} {st ch : Nat} {o : ChanOp} {hdr : HbmOutcome} (h : MemoryCanonical s) :
    MemoryCanonical (doChan s st ch o hdr) := canonical_pumpReads (canonical_runOp (canonical_modChan h))

theorem canonical_doResult {s : State} {id : Nat} {r : RedResult} (h : MemoryCanonical s) :
    MemoryCanonical (doResult s id r) := by
  unfold doResult
  extract_lets _ t u v
  have ht : MemoryCanonical t := .of_mem h rfl
  have hu : MemoryCanonical u := .foldl (fun _ _ h => canonical_atomDone h) ht
  have hv : MemoryCanonical v := by
    unfold v
    split
    · exact hu
    · exact canonical_finishHead (.ite hu (canonical_respond_ hu))
  exact canonical_pumpReads hv

theorem canonical_doFrameCopyDone {s : State} {idx : Nat} (h : MemoryCanonical s) :
    MemoryCanonical (doFrameCopyDone s idx) := by
  unfold doFrameCopyDone
  split
  · exact h
  · refine .of_mem (.foldl (fun _ _ h => canonical_pmcEvent (canonical_pmcEvent h))
      (canonical_chargeHbm (canonical_setPair ?_))) rfl
    exact wf_copyCells h _ _ _

theorem canonical_failCopier {s : State} {idx code pa : Nat} (h : MemoryCanonical s) :
    MemoryCanonical (failCopier s idx code pa) := by
  unfold failCopier
  split
  · exact h
  · split
    · exact canonical_failCmd h
    · split
      · exact .ite (canonical_refuseHead h) h
      · exact h

theorem canonical_copySector {s : State} {idx : Nat} {e : Nat × HbmOutcome} (h : MemoryCanonical s) :
    MemoryCanonical (copySector s idx e) := by
  unfold copySector
  split
  · exact h
  · extract_lets _ _ _ _ _ t u _ v w
    have ht : MemoryCanonical t := canonical_noteLane h
    have hu : MemoryCanonical u := canonical_incReg ht
    have hv : MemoryCanonical v := canonical_incReg (canonical_poisonSector hu)
    have hw : MemoryCanonical w := canonical_hbsLatch (canonical_pgErr hv)
    refine .ite (canonical_raiseUnit (canonical_startChanReset (canonical_failCopier hw))) ?_
    split
    · exact hu
    · exact canonical_incReg hu
    · exact canonical_failCopier (canonical_poisonSector (canonical_uncorrSector hu))

theorem canonical_doCopy {s : State} {pair : Nat} {outs : List (Nat × HbmOutcome)} (h : MemoryCanonical s) :
    MemoryCanonical (doCopy s pair outs) :=
  canonical_pumpAll (.foldl (fun _ _ h => canonical_copySector h) (canonical_doFrameCopyDone h))

theorem canonical_trainLane {s : State} {st ch lane : Nat} (h : MemoryCanonical s) :
    MemoryCanonical ((trainLane s st ch lane).getD s) := by
  unfold trainLane
  dsimp only
  split
  · exact h
  · exact .of_mem h rfl

theorem canonical_doSpareDone {s : State} {st ch lane : Nat} (h : MemoryCanonical s) :
    MemoryCanonical (doSpareDone s st ch lane) := canonical_errWrite (canonical_modChan h)

theorem canonical_endRecovery {s : State} {d : Domain} (h : MemoryCanonical s) : MemoryCanonical (endRecovery s d) :=
  .of_mem h rfl

theorem canonical_doChanResetDone {s : State} {st ch : Nat} {ok : Bool} {lane : Option Nat} (h : MemoryCanonical s) :
    MemoryCanonical (doChanResetDone s st ch ok lane) := by
  unfold doChanResetDone
  extract_lets found t u v
  have ht : MemoryCanonical t := by
    unfold t
    clear_value found
    split
    · exact canonical_trainLane h
    · exact h
  have hv : MemoryCanonical v := canonical_endRecovery (canonical_modChan ht)
  exact .ite hv (canonical_escalate hv)

theorem canonical_doTemp {s : State} {st t : Nat} (h : MemoryCanonical s) : MemoryCanonical (doTemp s st t) :=
  .ite (canonical_logOnly (.of_mem h rfl)) (.of_mem h rfl)

theorem canonical_patrolStep {s : State} {st : Nat} {e : EccState} (h : MemoryCanonical s) :
    MemoryCanonical (patrolStep s st e) := by
  unfold patrolStep
  extract_lets _ _ _ t
  have ht : MemoryCanonical t := .of_mem h rfl
  split
  · exact ht
  · exact canonical_incReg ht
  · exact .ite ht (canonical_uncorrSector ht)

theorem canonical_doPatrol {s : State} {st : Nat} {e : EccState} (h : MemoryCanonical s) :
    MemoryCanonical (doPatrol s st e) :=
  .ite (.ite (canonical_regSafePoint h) (canonical_patrolStep (.of_mem (canonical_regSafePoint h) rfl)))
    (canonical_patrolStep h)

theorem canonical_putPairAt {s : State} {i : Nat} {f : Pair → Pair} (h : MemoryCanonical s) :
    MemoryCanonical (putPairAt s i f) := canonical_setPair h

theorem canonical_putObjAt {s : State} {i v : Nat} (h : MemoryCanonical s) : MemoryCanonical (putObjAt s i v) :=
  .ite h (.of_mem h rfl)

theorem canonical_putFenceAt {s : State} {i v : Nat} (h : MemoryCanonical s) : MemoryCanonical (putFenceAt s i v) :=
  .of_mem h rfl

theorem canonical_putSeqAt {s : State} {i v : Nat} (h : MemoryCanonical s) : MemoryCanonical (putSeqAt s i v) :=
  .of_mem h rfl

theorem canonical_putErrAt {s : State} {slot v : Nat} (h : MemoryCanonical s) : MemoryCanonical (putErrAt s slot v) :=
  .of_mem h rfl

theorem canonical_putCtl64 {s : State} {r : Ctl64} {v : Nat} (h : MemoryCanonical s) :
    MemoryCanonical (putCtl64 s r v) := by
  unfold putCtl64
  split
  · exact canonical_putSeqAt h
  · exact canonical_putErrAt h

theorem canonical_ctlPut {s : State} {a v : Nat} (h : MemoryCanonical s) : MemoryCanonical (ctlPut s a v) := by
  unfold ctlPut
  refine .ite (canonical_handOver (canonical_putPairAt h)) ?_
  refine .ite (canonical_putObjAt (canonical_putObjAt h)) ?_
  refine .ite (canonical_settled (canonical_putFenceAt h)) ?_
  split
  · exact canonical_putCtl64 h
  · exact canonical_wrBytes h

theorem canonical_lockLine {s : State} {addr old : Nat} (h : MemoryCanonical s) :
    MemoryCanonical (lockLine s addr old) := canonical_modSlice h

theorem canonical_doL2Atomic {s : State} {op addr : Nat} {opnd cmp : BitVec 128} {e : EccState}
    (h : MemoryCanonical s) :
    MemoryCanonical (doL2Atomic s op addr opnd cmp e) := by
  unfold doL2Atomic
  split
  · exact canonical_uncorrSector h
  · extract_lets _ _ t _ _ _ u
    have ht : MemoryCanonical t := canonical_lockLine h
    have hu : MemoryCanonical u := canonical_lockLine h
    exact .ite (.ite ht (canonical_ctlPut ht)) (.ite hu (canonical_ctlPut hu))

theorem canonical_modMover {s : State} {core m : Nat} {f : MoverCmd → MoverCmd} (h : MemoryCanonical s) :
    MemoryCanonical (modMover s core m f) := canonical_modCore h

theorem canonical_startTile {s : State} {core m : Nat} {x : MoverCmd} (h : MemoryCanonical s) :
    MemoryCanonical (startTile s core m x) := by
  unfold startTile
  extract_lets
  split
  · exact canonical_failCmd h
  · exact canonical_modMover (canonical_startWalks (canonical_modMover h))
  · extract_lets _ _ t _ u v w
    have ht : MemoryCanonical t := .foldl (fun _ _ h => canonical_ownPair h) h
    have hu : MemoryCanonical u := canonical_modMover ht
    have hv : MemoryCanonical v := .ite (canonical_pmcEvent hu) hu
    have hw : MemoryCanonical w := .ite hv (canonical_awaitBanks hv)
    refine .ite (canonical_faultCmdAt h) ?_
    split
    · exact canonical_failCmd h
    · split
      · exact canonical_busyEnd h
      · exact canonical_sendMoverReads hw

theorem canonical_pumpMovers {s : State} (h : MemoryCanonical s) : MemoryCanonical (pumpMovers s) :=
  .foldl (fun _ _ h => .foldl (fun _ _ h => .ite (canonical_startTile h) h) h) h

theorem canonical_doMoverDispatch {s : State} {core : Nat} (h : MemoryCanonical s) :
    MemoryCanonical (doMoverDispatch s core) := by
  unfold doMoverDispatch
  split
  · exact canonical_modCore h
  · exact h

theorem canonical_readUnit {core : Nat} {x : MoverCmd} {run a n : Nat} {u : UnitReads} (h : MemoryCanonical u.s) :
    MemoryCanonical (readUnit core x run a n u).2.s := by
  unfold readUnit
  split
  · exact h
  · exact canonical_pickBytes h

theorem canonical_elemBytes {core : Nat} {x : MoverCmd} {d : MvDesc} {rs : NMap LineReq} {e : MvElem} {u : UnitReads}
    (h : MemoryCanonical u.s) : MemoryCanonical (elemBytes core x d rs e u).2.s := by
  unfold elemBytes
  split
  · exact h
  · split
    · split
      · split <;> exact h
      · exact h
    · exact canonical_readUnit h

theorem canonical_readElems {core : Nat} {x : MoverCmd} {d : MvDesc} {rs : NMap LineReq} {l : List MvElem}
    {u : UnitReads}
    (h : MemoryCanonical u.s) : MemoryCanonical (readElems core x d rs l u).2.s := by
  induction l generalizing u with
  | nil => exact h
  | cons e l ih => exact ih (canonical_elemBytes h)

theorem canonical_tileData {s : State} {core m : Nat} {x : MoverCmd} (h : MemoryCanonical s) :
    MemoryCanonical (tileData s core m x).2 := canonical_readElems (u := ⟨[], s⟩) h

theorem canonical_putLine {s : State} {core m : Nat} {x : MoverCmd} {e : Tgt × BitVec 128 × List Byte}
    (h : MemoryCanonical s) :
    MemoryCanonical (putLine s core m x e) := by
  unfold putLine
  extract_lets
  split
  · exact canonical_acceptAtL2 h
  · split
    · exact canonical_acceptAtL2 h
    · exact h
  · split
    · exact canonical_failCmd h
    · exact canonical_sendWrite h
  · exact canonical_sendHost h
  · exact h

/-- Memory is canonical in the state that a tile's read leaves, whether it goes on or ends its command. -/
def ReadCanonical : Except State State → Prop
  | .error s => MemoryCanonical s
  | .ok s => MemoryCanonical s

theorem canonical_tileRead {s : State} {core : Nat} {x : MoverCmd} {u : Upset} (h : MemoryCanonical s) :
    ReadCanonical (tileRead s core x u) := by
  unfold tileRead
  split
  · exact h
  · split
    · exact canonical_scrUncorr h
    · exact .ite (canonical_scrCorr h) h

theorem canonical_dropReqs {s : State} {core m : Nat} (h : MemoryCanonical s) : MemoryCanonical (dropReqs s core m) :=
  .of_mem h rfl

theorem canonical_beginUnits {s : State} {core m : Nat} {x : MoverCmd} (h : MemoryCanonical s) :
    MemoryCanonical (beginUnits s core m x) := canonical_modMover (canonical_dropReqs (canonical_tileData h))

theorem canonical_sendUnits {core m n : Nat} {s : State} (h : MemoryCanonical s) :
    MemoryCanonical (sendUnits core m n s) := by
  induction n generalizing s with
  | zero => exact h
  | succ n ih =>
    unfold sendUnits
    split
    · exact h
    · split
      · exact canonical_modMover h
      · exact .ite (ih (canonical_putLine (canonical_modMover h))) h

theorem canonical_doTileEgress {s : State} {core m : Nat} {x : MoverCmd} {u : Upset} (h : MemoryCanonical s) :
    MemoryCanonical (doTileEgress s core m x u) := by
  have read := canonical_tileRead (core := core) (x := x) (u := u) h
  unfold doTileEgress
  refine .ite (canonical_sendUnits h) ?_
  split <;> rename_i e <;> rw [e] at read
  · exact read
  · exact canonical_sendUnits (canonical_beginUnits read)

theorem canonical_doEgress {s : State} {core : Nat} {u : Upset} {x : EgressUnit} (h : MemoryCanonical s) :
    MemoryCanonical (doEgress s core u x) := by
  unfold doEgress
  split
  · exact .ite (canonical_loseEntry h) (canonical_sendEntry h)
  · exact canonical_sendAtoms h
  · split
    · exact canonical_doTileEgress h
    · exact h

theorem canonical_endMover {s : State} {core m : Nat} {x : MoverCmd} (h : MemoryCanonical s) :
    MemoryCanonical (endMover s core m x) := by
  unfold endMover
  extract_lets _ _ t u
  have ht : MemoryCanonical t := canonical_modCore h
  have hu : MemoryCanonical u := by
    unfold u
    split
    · exact .ite (canonical_tokenDone ht) ht
    · exact ht
  exact canonical_drainIfDone hu

theorem canonical_writeTile {s : State} {core m : Nat} {x : MoverCmd} (h : MemoryCanonical s) :
    MemoryCanonical (writeTile s core m x) := by
  unfold writeTile
  extract_lets t u
  have ht : MemoryCanonical t.2 := canonical_tileData h
  have hu : MemoryCanonical u := canonical_awaitBanks ht
  exact .ite (.foldl (fun _ _ h => canonical_putLine h) ht) (canonical_modCore hu)

theorem canonical_nextTile {s : State} {core m : Nat} {x : MoverCmd} (h : MemoryCanonical s) :
    MemoryCanonical (nextTile s core m x) := by
  unfold nextTile
  extract_lets t _ u
  have ht : MemoryCanonical t := canonical_coreProgress (canonical_pmcEvent (canonical_dropReqs h))
  have hu : MemoryCanonical u := canonical_modMover ht
  refine .ite (canonical_endMover ht) ?_
  split
  · exact .ite (canonical_startTile hu) hu
  · exact hu

theorem canonical_doTile {s : State} {core m : Nat} {u : Upset} (h : MemoryCanonical s) :
    MemoryCanonical (doTile s core m u) := by
  unfold doTile
  split
  · exact h
  · next x _ =>
    have read := canonical_tileRead (core := core) (x := x) (u := u) h
    refine .ite (canonical_nextTile h) ?_
    split <;> rename_i e <;> rw [e] at read
    · exact read
    · exact canonical_nextTile (canonical_writeTile read)

end Sys2Proof.Machine
end

