-- ==== Sys2Proof/Proofs/CanonicalFabric.lean ====
section
/-! Memory stays canonical (O7): the functions of the fabric and of fabric time. -/

namespace Sys2Proof.Machine

theorem canonical_firstSent_setDest' {s : State} {b : Blk} (h : MemoryCanonical s) :
    MemoryCanonical (firstSent.setDest' s b) := by
  unfold firstSent.setDest'
  split
  · exact canonical_setDest h
  · exact h

theorem canonical_firstSent {s : State} {b : Blk} (h : MemoryCanonical s) : MemoryCanonical (firstSent s b) := by
  unfold firstSent
  split
  · exact canonical_firstSent_setDest' h
  · exact canonical_firstSent_setDest' h
  · exact canonical_modPeer (canonical_chargeBlk (canonical_regSafePoint h))
  · exact canonical_modPeer (canonical_chargeBlk (canonical_regSafePoint h))
  · exact canonical_modPeer (canonical_chargeBlk h)
  · exact canonical_modPeer (canonical_chargeBlk h)
  · exact canonical_modPeer (canonical_chargeBlk h)
  · exact canonical_chargeBlk h

theorem canonical_acksCarried {s : State} {n cls : Nat} {bs : List Blk} (h : MemoryCanonical s) :
    MemoryCanonical (acksCarried s n cls bs) := canonical_modPeer h

theorem canonical_takeFrame {s : State} {port : Nat} {f : Frame} (h : MemoryCanonical s) :
    MemoryCanonical (takeFrame s port f).2 := by
  unfold takeFrame
  extract_lets _ _ _ t _ u v _ w _ x y z t1 t2
  have ht : MemoryCanonical t := canonical_modPeer h
  have hu : MemoryCanonical u := canonical_modPort h
  have hv : MemoryCanonical v := canonical_modPeer hu
  have hw : MemoryCanonical w := canonical_modPort h
  have hx : MemoryCanonical x := canonical_modPeer hw
  have hy : MemoryCanonical y := canonical_modPort h
  have hz : MemoryCanonical z := canonical_modPeer hy
  have ht1 : MemoryCanonical t1 := canonical_modPort h
  have ht2 : MemoryCanonical t2 := canonical_modPeer ht1
  split
  · exact canonical_modPort h
  · exact canonical_modPeer h
  · exact canonical_modPeer h
  · exact ht
  · exact .foldl (fun _ _ h => canonical_firstSent h) hv
  · exact .foldl (fun _ _ h => canonical_firstSent h) hx
  · exact .foldl (fun _ _ h => canonical_firstSent h) hz
  · exact .foldl (fun _ _ h => canonical_firstSent h) ht2

theorem canonical_notePort {s : State} {port : Nat} {f : Frame} {bs : List Blk} (h : MemoryCanonical s) :
    MemoryCanonical (notePort s port f bs) := canonical_modPort (.ite (canonical_pmcEvent h) h)

theorem canonical_wakeAll {s : State} (h : MemoryCanonical s) : MemoryCanonical (wakeAll s) :=
  .foldl (fun _ _ h => canonical_wakeCredit h) h

theorem canonical_sendFrame {s : State} {port : Nat} {f : Frame} (h : MemoryCanonical s) :
    MemoryCanonical (sendFrame s port f) := by
  unfold sendFrame
  extract_lets t u _ _ v w x y
  have ht : MemoryCanonical t.2 := canonical_takeFrame h
  have hu : MemoryCanonical u := canonical_regSafePoint ht
  have hv : MemoryCanonical v := canonical_emit hu
  have hw : MemoryCanonical w := canonical_modPeer hv
  have hx : MemoryCanonical x := canonical_notePort (canonical_acksCarried hw)
  have hy : MemoryCanonical y := canonical_pmcEvent (canonical_pmcEvent hx)
  exact .ite (canonical_wakeAll hy) hy

theorem canonical_countStall {s : State} {port : Nat} (h : MemoryCanonical s) : MemoryCanonical (countStall s port) :=
  .ite h (.ite (canonical_pmcEvent h) (.ite (canonical_pmcEvent h) h))

theorem canonical_hnsLatch {s : State} {port node code : Nat} (h : MemoryCanonical s) :
    MemoryCanonical (hnsLatch s port node code) := .ite (canonical_pgErr h) (canonical_setReg (canonical_pgErr h))

theorem canonical_modStream {s : State} {n : Nat} {ctl : Bool} {f : StreamSt → StreamSt} (h : MemoryCanonical s) :
    MemoryCanonical (modStream s n ctl f) := canonical_modPeer h

theorem canonical_restartClaims {s : State} {n : Nat} (h : MemoryCanonical s) : MemoryCanonical (restartClaims s n) :=
  .foldl (fun _ _ h => canonical_dropClaims h) h

theorem canonical_gangLost {s : State} {n code id : Nat} {g : Gang} (h : MemoryCanonical s) :
    MemoryCanonical (gangLost s n code id g) := by
  unfold gangLost
  extract_lets
  exact .ite h (.ite (.ite (canonical_settled (canonical_endGangLocal (canonical_tellGangEnd h))) (.ite (.ite
    (.foldl (fun _ _ h => canonical_modCmd h) h) (canonical_settled (canonical_endGangLocal h))) h)) (.ite
    (canonical_gangAbandon h) (.ite (canonical_modGang h) (.ite (canonical_failMembers h) h))))

theorem canonical_holdVictim {s : State} {n code i : Nat} (h : MemoryCanonical s) :
    MemoryCanonical (holdVictim s n code i) := by
  unfold holdVictim
  split
  · exact h
  · exact .ite (canonical_killOrEnd h) (canonical_modCmd (canonical_killOrEnd h))

theorem canonical_cutPeer {s : State} {n : Nat} {st : PeerState} (h : MemoryCanonical s) :
    MemoryCanonical (cutPeer s n st) := .of_mem h rfl

theorem canonical_losePeer {s : State} {n : Nat} {st : PeerState} {code : Nat} (h : MemoryCanonical s) :
    MemoryCanonical (losePeer s n st code) := by
  unfold losePeer
  extract_lets _ _ t u v w
  have ht : MemoryCanonical t := canonical_hnsLatch h
  have hu : MemoryCanonical u := canonical_commitAll (canonical_holdPairs (canonical_cutPeer ht))
  have hv : MemoryCanonical v := .foldl (fun _ _ h => canonical_gangLost h) hu
  have hw : MemoryCanonical w := .foldl (fun _ _ h => canonical_holdVictim h) hv
  exact canonical_wakeAll (canonical_restartClaims hw)

theorem canonical_peerUp {s : State} {n : Nat} (h : MemoryCanonical s) : MemoryCanonical (peerUp s n) := by
  unfold peerUp
  extract_lets _ t _ u v
  have ht : MemoryCanonical t := canonical_modPeer h
  have hu : MemoryCanonical u := .of_mem ht rfl
  have hv : MemoryCanonical v := .foldl (fun _ _ h => canonical_sendCtl h) hu
  exact canonical_wakeAll (canonical_releaseWaiting hv)

theorem canonical_resendFrom {s : State} {n : Nat} {ctl : Bool} {psn : Nat} (h : MemoryCanonical s) :
    MemoryCanonical (resendFrom s n ctl psn) := by
  unfold resendFrom
  extract_lets _ t
  have ht : MemoryCanonical t := canonical_modStream (canonical_incReg h)
  exact .ite (canonical_losePeer (canonical_hnsLatch ht)) ht

theorem canonical_startReroute {s : State} {n : Nat} {alt : Bool} (h : MemoryCanonical s) :
    MemoryCanonical (startReroute s n alt) := .ite h (canonical_modPeer h)

theorem canonical_doRerouteEnd {s : State} {n : Nat} (h : MemoryCanonical s) :
    MemoryCanonical (doRerouteEnd s n) := by
  unfold doRerouteEnd
  extract_lets _ _ _ t
  have ht : MemoryCanonical t := canonical_modPort h
  split
  · exact h
  · extract_lets _ _ u _ v w
    have hu : MemoryCanonical u := .ite h (canonical_modPort ht)
    have hv : MemoryCanonical v := canonical_modPeer hu
    have hw : MemoryCanonical w := canonical_pmcEvent hv
    exact canonical_wakeAll (canonical_logPeer hw)

theorem canonical_doPairIdle {s : State} {n : Nat} (h : MemoryCanonical s) : MemoryCanonical (doPairIdle s n) := by
  unfold doPairIdle
  extract_lets t
  have ht : MemoryCanonical t := canonical_modPeer h
  split
  · exact canonical_releaseWaiting ht
  · exact ht

theorem canonical_doDeadline {s : State} {n q : Nat} (h : MemoryCanonical s) :
    MemoryCanonical (doDeadline s n q) := by
  unfold doDeadline
  split
  · exact h
  · extract_lets _ t u v w
    have ht : MemoryCanonical t := canonical_modPeer h
    have hu : MemoryCanonical u := canonical_hnsLatch (canonical_incReg ht)
    have hv : MemoryCanonical v := canonical_failCmdAt hu
    have hw : MemoryCanonical w := canonical_modPeer hv
    exact .ite (canonical_startReroute (canonical_logPeer hw)) hv

theorem canonical_doRejoinLate {s : State} {i : Nat} (h : MemoryCanonical s) :
    MemoryCanonical (doRejoinLate s i) := by
  unfold doRejoinLate
  split
  · exact h
  · exact .ite (canonical_settled (canonical_endGangLocal h)) (canonical_failCmdAt h)

theorem canonical_doLinkDown {s : State} {port : Nat} (h : MemoryCanonical s) : MemoryCanonical (doLinkDown s port) :=
  canonical_raiseLink (.foldl (fun _ _ h => canonical_startReroute h) (canonical_modPort h))

theorem canonical_doTrained {s : State} {port : Nat} {lanes : BitVec 8} (h : MemoryCanonical s) :
    MemoryCanonical (doTrained s port lanes) := canonical_endRecovery (canonical_modPort h)

theorem canonical_rejoinAcked {s : State} {n before : Nat} (h : MemoryCanonical s) :
    MemoryCanonical (rejoinAcked s n before) := .ite (canonical_peerUp h) h

theorem canonical_ackFrom {s : State} {hdr : BlockHdr} {data ctl : Option Nat} (h : MemoryCanonical s) :
    MemoryCanonical (ackFrom s hdr data ctl) := by
  unfold ackFrom
  extract_lets _ _ t u
  have ht : MemoryCanonical t := by
    unfold t
    split
    · exact canonical_modStream h
    · exact h
  have hu : MemoryCanonical u := by
    unfold u
    split
    · exact canonical_modStream ht
    · exact ht
  exact canonical_rejoinAcked hu

theorem canonical_noteHeard {s : State} {hdr : BlockHdr} (h : MemoryCanonical s) :
    MemoryCanonical (noteHeard s hdr) := canonical_modPeer h

theorem canonical_ofPair {s : State} {hdr : BlockHdr} {f : State → State} (h : MemoryCanonical s)
    (hf : ∀ s, MemoryCanonical s → MemoryCanonical (f s)) :
    MemoryCanonical (ofPair s hdr f) :=
  .ite h (.ite (.ite (canonical_losePeer h) h) (.ite h (hf _ (canonical_noteHeard h))))

theorem canonical_onLink {s : State} {hdr : BlockHdr} {data : Option Nat} {f : State → State} (h : MemoryCanonical s)
    (hf : ∀ s, MemoryCanonical s → MemoryCanonical (f s)) :
    MemoryCanonical (onLink s hdr data f) := canonical_ofPair h (fun _ h => hf _ (canonical_ackFrom h))

theorem canonical_ackDup {s : State} {n : Nat} (h : MemoryCanonical s) : MemoryCanonical (ackDup s n) :=
  .ite h (canonical_sendLink h)

theorem canonical_nakPeer {s : State} {n : Nat} {ctl : Bool} (h : MemoryCanonical s) :
    MemoryCanonical (nakPeer s n ctl).2 := .ite_snd (canonical_sendLink (canonical_incReg (canonical_modStream h))) h

theorem canonical_advanced {s : State} {n : Nat} {ctl : Bool} {psn : Nat} (h : MemoryCanonical s) :
    MemoryCanonical (advanced s n ctl psn) := canonical_markActive (canonical_modStream h)

theorem canonical_takeSeq {s : State} {hdr : BlockHdr} {ctl : Bool} {f : State → State} (h : MemoryCanonical s)
    (hf : ∀ s, MemoryCanonical s → MemoryCanonical (f s)) :
    MemoryCanonical (takeSeq s hdr ctl f) :=
  .ite (hf _ (canonical_advanced h)) (.ite (canonical_ackDup h) (canonical_nakPeer h))

theorem canonical_onCtl {s : State} {hdr : BlockHdr} {f : State → State} (h : MemoryCanonical s)
    (hf : ∀ s, MemoryCanonical s → MemoryCanonical (f s)) :
    MemoryCanonical (onCtl s hdr f) :=
  canonical_ofPair h (fun _ h => canonical_takeSeq (canonical_ackFrom h) (fun _ h => hf _ h))

theorem canonical_onData {s : State} {hdr : BlockHdr} {f : State → State} (h : MemoryCanonical s)
    (hf : ∀ s, MemoryCanonical s → MemoryCanonical (f s)) :
    MemoryCanonical (onData s hdr f) :=
  canonical_ofPair h (fun _ h => canonical_takeSeq (canonical_ackFrom h) (fun _ h => hf _ h))

theorem canonical_performedTo {s : State} {n perf : Nat} (h : MemoryCanonical s) :
    MemoryCanonical (performedTo s n perf) := canonical_commitAll (canonical_modPeer h)

theorem canonical_barSlot {s : State} {port n : Nat} (h : MemoryCanonical s) : MemoryCanonical (barSlot s port n) :=
  .ite (canonical_modPort h) h

theorem canonical_doNak {s : State} {hdr : BlockHdr} (h : MemoryCanonical s) : MemoryCanonical (doNak s hdr) :=
  .ite (canonical_barSlot (canonical_resendFrom (canonical_ackFrom h))) (canonical_ackFrom h)

theorem canonical_countBad {s : State} {port n : Nat} (h : MemoryCanonical s) : MemoryCanonical (countBad s port n) :=
  canonical_incReg h

theorem canonical_admitTokens {s : State} {n : Nat} (h : MemoryCanonical s) : MemoryCanonical (admitTokens s n) :=
  .ite h (canonical_modPeer h)

theorem canonical_settleIn {s : State} {n : Nat} (h : MemoryCanonical s) : MemoryCanonical (settleIn s n) :=
  canonical_pumpPeer (canonical_admitTokens h)

theorem canonical_tokenIn {s : State} {hdr : BlockHdr} {commit : Bool} {psn : Nat} (h : MemoryCanonical s) :
    MemoryCanonical (tokenIn s hdr commit psn) := canonical_settleIn (canonical_modPeer h)

theorem canonical_orderedIn {s : State} {hdr : BlockHdr} {m : Msg} (h : MemoryCanonical s) :
    MemoryCanonical (orderedIn s hdr m) := by
  unfold orderedIn
  refine canonical_ofPair h (fun _ h => ?_)
  extract_lets t u
  have ht : MemoryCanonical t := canonical_ackFrom h
  have hu : MemoryCanonical u.2 := canonical_nakPeer ht
  exact .ite (.ite (canonical_incReg hu) hu) (canonical_takeSeq ht (fun _ h => canonical_settleIn
    (canonical_modPeer h)))

theorem canonical_closeReq {s : State} {hdr : BlockHdr} (h : MemoryCanonical s) : MemoryCanonical (closeReq s hdr) :=
  canonical_modPeer h

theorem canonical_onResponse {s : State} {hdr : BlockHdr} {f : State → OutReq → State} (h : MemoryCanonical s)
    (hf : ∀ s a1, MemoryCanonical s → MemoryCanonical (f s a1)) :
    MemoryCanonical (onResponse s hdr f) := by
  unfold onResponse
  refine canonical_onData h (fun _ h => ?_)
  extract_lets t
  have ht : MemoryCanonical t := canonical_settleIn h
  split
  · exact hf _ _ (canonical_closeReq ht)
  · exact canonical_incReg ht

theorem canonical_readBack {s : State} {data : List Byte} {r : OutReq} (h : MemoryCanonical s) :
    MemoryCanonical (readBack s data r) := by
  unfold readBack
  split
  · split
    · exact canonical_readyReq (canonical_chargeFab h)
    · exact h
  · exact h

theorem canonical_atomsBack {s : State} {olds : List DWord} {r : OutReq} (h : MemoryCanonical s) :
    MemoryCanonical (atomsBack s olds r) := by
  unfold atomsBack
  split
  · extract_lets t
    have ht : MemoryCanonical t := canonical_chargeFab h
    refine .foldl (fun _ _ h => ?_) ht
    split
    · exact canonical_atomDone h
    · exact h
  · exact h

theorem canonical_refusedCmd {s : State} {hdr : BlockHdr} {cmd addr : Nat} (h : MemoryCanonical s) :
    MemoryCanonical (refusedCmd s hdr cmd addr) :=
  .ite (canonical_busyEnd (canonical_hnsLatch h)) (canonical_failCmdAt (canonical_hnsLatch h))

theorem canonical_doRefused {s : State} {hdr : BlockHdr} (h : MemoryCanonical s) :
    MemoryCanonical (doRefused s hdr) := by
  unfold doRefused
  extract_lets _ _ t
  have ht : MemoryCanonical t := canonical_modPeer h
  split
  · split
    · exact canonical_refusedCmd ht
    · exact ht
  · split
    · exact .ite (canonical_refusedCmd (canonical_closeReq h)) h
    · exact canonical_incReg h

theorem canonical_rejectPeer {s : State} {n : Nat} (h : MemoryCanonical s) : MemoryCanonical (rejectPeer s n) := by
  unfold rejectPeer
  extract_lets _ _ t _ u v
  have ht : MemoryCanonical t := canonical_modPeer h
  have hu : MemoryCanonical u := .foldl (fun _ _ h => canonical_failCmdAt h) ht
  have hv : MemoryCanonical v := canonical_hnsLatch hu
  exact .ite (canonical_modPort hv) hv

theorem canonical_peerColdBooted {s : State} {n : Nat} (h : MemoryCanonical s) :
    MemoryCanonical (peerColdBooted s n) := by
  unfold peerColdBooted
  extract_lets t u _ _ _ _ _ _ _ _ v _ w _ x
  have ht : MemoryCanonical t := .ite (canonical_losePeer h) h
  have hu : MemoryCanonical u := canonical_discardHeld ht
  have hv : MemoryCanonical v := .of_mem hu rfl
  have hw : MemoryCanonical w := .foldl (fun _ _ h => canonical_refDec h) hv
  have hx : MemoryCanonical x := .of_mem hw rfl
  exact canonical_modPeer hx

theorem canonical_doAnnouncement {s : State} {hdr : BlockHdr} {a : Announce} (h : MemoryCanonical s) :
    MemoryCanonical (doAnnouncement s hdr a) := by
  unfold doAnnouncement
  extract_lets _ _ _ t u
  have ht : MemoryCanonical t := .ite (canonical_peerColdBooted h) h
  have hu : MemoryCanonical u := canonical_modPeer ht
  exact .ite (canonical_sendAnnounce h) (.ite (canonical_announceTo (canonical_modPeer hu)) (canonical_rejectPeer hu))

theorem canonical_doVerified {s : State} {n : Nat} {ok : Bool} (h : MemoryCanonical s) :
    MemoryCanonical (doVerified s n ok) := .ite (canonical_rejectPeer h) (canonical_peerUp (canonical_modPeer h))

theorem canonical_resendTokens {s : State} {n : Nat} (h : MemoryCanonical s) :
    MemoryCanonical (resendTokens s n) := by
  unfold resendTokens
  extract_lets t u
  have ht : MemoryCanonical t := by
    unfold t
    refine .foldl (fun _ _ h => ?_) h
    split
    · exact canonical_sendCtlAlways h
    · exact canonical_sendCtlAlways h
    · exact canonical_sendCtlAlways h
    · exact h
  have hu : MemoryCanonical u := .foldl (fun _ _ h => .ite (canonical_sendCtlAlways h) h) ht
  exact canonical_sendCtlAlways hu

theorem canonical_acceptRejoin {s : State} {hdr : BlockHdr} (h : MemoryCanonical s) :
    MemoryCanonical (acceptRejoin s hdr) := by
  unfold acceptRejoin
  extract_lets _ t _ u
  have ht : MemoryCanonical t := .ite (canonical_losePeer h) h
  have hu : MemoryCanonical u := canonical_modPeer ht
  exact canonical_resendTokens (canonical_sendCtlAlways hu)

theorem canonical_rejoinUnknown {s : State} {n : Nat} (h : MemoryCanonical s) : MemoryCanonical (rejoinUnknown s n) :=
  canonical_announceTo (canonical_peerColdBooted h)

theorem canonical_doRejoin {s : State} {hdr : BlockHdr} {hash : Nat} (h : MemoryCanonical s) :
    MemoryCanonical (doRejoin s hdr hash) := .ite h (.ite (canonical_acceptRejoin h) (canonical_rejoinUnknown h))

theorem canonical_tagsExpired {s : State} {n : Nat} {tags : List Nat} (h : MemoryCanonical s) :
    MemoryCanonical (tagsExpired s n tags) := by
  unfold tagsExpired
  refine .foldl (fun _ _ h => ?_) h
  split
  · exact .ite h (canonical_closeRecord (canonical_setDest (.ite (canonical_logPeer (canonical_commitLose h)) h)))
  · exact h

theorem canonical_doRejoinAck {s : State} {hdr : BlockHdr} {tags : List Nat} (h : MemoryCanonical s) :
    MemoryCanonical (doRejoinAck s hdr tags) := by
  unfold doRejoinAck
  extract_lets _ _ _ t u
  have ht : MemoryCanonical t := canonical_modPeer h
  have hu : MemoryCanonical u := canonical_tagsExpired ht
  exact canonical_peerUp (canonical_markActive (canonical_resendTokens hu))

theorem canonical_doRejoinEnd {s : State} {n : Nat} (h : MemoryCanonical s) : MemoryCanonical (doRejoinEnd s n) := by
  unfold doRejoinEnd
  extract_lets t
  have ht : MemoryCanonical t := canonical_discardHeld h
  exact .foldl (fun _ _ h => .ite (canonical_settled (canonical_endGangLocal h)) h) ht

theorem canonical_claimGranted {s : State} {hdr : BlockHdr} {i : Nat} (h : MemoryCanonical s) :
    MemoryCanonical (claimGranted s hdr i) := by
  unfold claimGranted
  split
  · exact h
  · refine .ite ?_ ?_
    · split
      · split
        · exact .ite (canonical_gangGot h) h
        · exact h
      · exact h
    · split
      · exact .ite (canonical_gotClaim h) h
      · exact h

theorem canonical_doGangStart {s : State} {hdr : BlockHdr} {gang : Nat} {chans : List (Nat × Nat)}
    (h : MemoryCanonical s) :
    MemoryCanonical (doGangStart s hdr gang chans) := by
  unfold doGangStart
  extract_lets t
  have ht : MemoryCanonical t := canonical_zeroChannels h
  split
  · exact .ite (canonical_startMembers ht) ht
  · exact ht

theorem canonical_busyWrite {s : State} {page : Nat} (h : MemoryCanonical s) : MemoryCanonical (busyWrite s page) :=
  canonical_logOnly (canonical_pgErr (canonical_setRaw h))

theorem canonical_doTopoLoad {s : State} {v : Nat} (h : MemoryCanonical s) : MemoryCanonical (doTopoLoad s v) :=
  .ite h (.ite (canonical_busyWrite h) (canonical_hostRead (.of_mem h rfl)))

theorem canonical_portsFor {s : State} {t : TopoTable} (h : MemoryCanonical s) : MemoryCanonical (portsFor s t) :=
  .foldl (fun _ _ h => canonical_modPort h) h

theorem canonical_doTopoLoadDone {s : State} {image : Option (List Byte)} (h : MemoryCanonical s) :
    MemoryCanonical (doTopoLoadDone s image) := by
  unfold doTopoLoadDone
  extract_lets
  refine .ite (canonical_logOnly (canonical_pgErr (.of_mem h rfl))) ?_
  split
  · exact canonical_logOnly (canonical_pgErr (.of_mem h rfl))
  · refine .ite (canonical_logOnly (canonical_pgErr (.of_mem h rfl))) ?_
    extract_lets _ t
    have ht : MemoryCanonical t := canonical_portsFor (.of_mem h rfl)
    split
    · exact canonical_logOnly (canonical_pgErr (.of_mem h rfl))
    · exact canonical_rewriteTable (canonical_setReg ht)

theorem canonical_stepFt {s : State} {theta : Int} (h : MemoryCanonical s) : MemoryCanonical (stepFt s theta) :=
  .of_mem h rfl

theorem canonical_modFtm {s : State} {f : Ftm → Ftm} (h : MemoryCanonical s) : MemoryCanonical (modFtm s f) :=
  .of_mem h (modFtm_mem _ _)

theorem canonical_slewRate {s : State} {theta : Int} (h : MemoryCanonical s) : MemoryCanonical (slewRate s theta).2 :=
  .ite_snd h (.of_mem h rfl)

theorem canonical_servo {s : State} {theta link : Int} (h : MemoryCanonical s) :
    MemoryCanonical (servo s theta link) := canonical_modFtm (canonical_slewRate h)

theorem canonical_stepTo {s : State} {theta : Int} (h : MemoryCanonical s) : MemoryCanonical (stepTo s theta) :=
  canonical_modFtm (canonical_stepFt h)

theorem canonical_exchangeOk {s : State} {theta link : Int} (h : MemoryCanonical s) :
    MemoryCanonical (exchangeOk s theta link) := by
  unfold exchangeOk
  split
  · refine .ite (canonical_modFtm (canonical_stepTo h)) ?_
    extract_lets t
    have ht : MemoryCanonical t := canonical_modFtm (canonical_servo h)
    exact .ite (canonical_modFtm ht) ht
  · exact canonical_modFtm (canonical_servo h)
  · exact .ite (canonical_logOnly (canonical_pgErr (canonical_modFtm (canonical_stepTo h)))) (canonical_modFtm
      (canonical_servo h))
  · exact .ite (canonical_logOnly (canonical_pgErr (canonical_modFtm (canonical_stepTo h)))) (canonical_modFtm
      (canonical_servo h))

theorem canonical_sendTime {s : State} {n : Nat} {sync : Bool} {m : Msg} (h : MemoryCanonical s) :
    MemoryCanonical (sendTime s n sync m) := canonical_modPeer (canonical_emit (canonical_regSafePoint h))

theorem canonical_askTime {s : State} {n : Nat} (h : MemoryCanonical s) : MemoryCanonical (askTime s n) := by
  unfold askTime
  split
  · exact .ite (canonical_sendTime (canonical_modFtm h)) h
  · exact .ite (canonical_sendTime (canonical_modFtm h)) h
  · exact canonical_announceTo h
  · exact h

theorem canonical_doTimeRequests {s : State} (h : MemoryCanonical s) : MemoryCanonical (doTimeRequests s) := by
  unfold doTimeRequests
  extract_lets t u
  have ht : MemoryCanonical t := canonical_modFtm h
  have hu : MemoryCanonical u := by
    unfold u
    split
    · exact canonical_askTime ht
    · exact ht
  refine .ite hu ?_
  split
  · exact canonical_askTime hu
  · exact hu

theorem canonical_nextSource {s : State} (h : MemoryCanonical s) : MemoryCanonical (nextSource s) :=
  .ite (canonical_modFtm h) h

theorem canonical_parentAnswered {s : State} (h : MemoryCanonical s) : MemoryCanonical (parentAnswered s) :=
  .ite (canonical_modFtm (canonical_modFtm h)) (canonical_modFtm h)

theorem canonical_doTimeResponse {s : State} {o : TimeOut} {state t2 t3 creq crsp : Nat} (h : MemoryCanonical s) :
    MemoryCanonical (doTimeResponse s o state t2 t3 creq crsp) := by
  unfold doTimeResponse
  extract_lets _ _ _ t _ u
  have ht : MemoryCanonical t := canonical_modFtm h
  have hu : MemoryCanonical u := canonical_pmcEvent (canonical_modFtm ht)
  exact .ite (.ite (canonical_nextSource (canonical_modFtm ht)) (canonical_exchangeOk hu)) (.ite (.ite
    (canonical_modFtm ht) (canonical_parentAnswered (canonical_pmcEvent ht))) ht)

theorem canonical_doExchangeFail {s : State} {o : TimeOut} (h : MemoryCanonical s) :
    MemoryCanonical (doExchangeFail s o) := canonical_pmcEvent (canonical_modFtm h)

theorem canonical_holdEntered {s : State} (h : MemoryCanonical s) : MemoryCanonical (holdEntered s) :=
  .ite (canonical_modFtm h) h

theorem canonical_doSourceLate {s : State} (h : MemoryCanonical s) : MemoryCanonical (doSourceLate s) :=
  canonical_holdEntered (.ite (canonical_nextSource h) (canonical_modFtm h))

theorem canonical_doPtpSync {s : State} {offset : Int} (h : MemoryCanonical s) :
    MemoryCanonical (doPtpSync s offset) := canonical_exchangeOk (canonical_modFtm h)

theorem canonical_doFtmNowRead {s : State} {t : Nat} (h : MemoryCanonical s) : MemoryCanonical (doFtmNowRead s t) :=
  .ite (canonical_hptLog (canonical_emit h)) (canonical_pmcEvent (canonical_emit (canonical_setReg h)))

theorem canonical_modCal {s : State} {f : CalInst → CalInst} (h : MemoryCanonical s) : MemoryCanonical (modCal s f) :=
  canonical_modFtm h

theorem canonical_emptyPorts {s : State} {m : BitVec 16} (h : MemoryCanonical s) : MemoryCanonical (emptyPorts s m) :=
  .foldl (fun _ _ h => canonical_modPort h) h

theorem canonical_emptyFrom {s : State} {at_ : Nat} {mask : BitVec 16} (h : MemoryCanonical s) :
    MemoryCanonical (emptyFrom s at_ mask) := .ite (canonical_emptyPorts h) (canonical_modFtm h)

theorem canonical_refuseCal {s : State} {reason : Nat} {mask : BitVec 16} (h : MemoryCanonical s) :
    MemoryCanonical (refuseCal s reason mask) :=
  canonical_logOnly (canonical_pgErr (canonical_emptyFrom (canonical_modCal h)))

theorem canonical_doCalInstall {s : State} {v : Nat} (h : MemoryCanonical s) :
    MemoryCanonical (doCalInstall s v) := by
  unfold doCalInstall
  extract_lets t _ u
  have ht : MemoryCanonical t := canonical_setReg h
  have hu : MemoryCanonical u := canonical_modCal ht
  exact .ite ht (.ite (canonical_refuseCal hu) hu)

theorem canonical_doCalLoaded {s : State} {image : Option CalImage} (h : MemoryCanonical s) :
    MemoryCanonical (doCalLoaded s image) := by
  unfold doCalLoaded
  split
  · exact canonical_refuseCal h
  · refine .ite (canonical_refuseCal h) (.ite (canonical_refuseCal h) ?_)
    split
    · exact canonical_refuseCal h
    · exact canonical_modCal h

theorem canonical_doCalLate {s : State} {image : Option CalImage} (h : MemoryCanonical s) :
    MemoryCanonical (doCalLate s image) := by
  unfold doCalLate
  split
  · exact h
  · exact canonical_emptyPorts (canonical_modCal h)

theorem canonical_applyCal {s : State} {im : CalImage} (h : MemoryCanonical s) : MemoryCanonical (applyCal s im) := by
  unfold applyCal
  extract_lets t u
  have ht : MemoryCanonical t := .foldl (fun _ _ h => canonical_modPort h) h
  have hu : MemoryCanonical u := canonical_setReg (canonical_setReg (canonical_setReg ht))
  exact canonical_modCal hu

theorem canonical_doCalSwitch {s : State} (h : MemoryCanonical s) : MemoryCanonical (doCalSwitch s) := by
  unfold doCalSwitch
  split
  · exact canonical_modFtm (canonical_emptyPorts h)
  · split
    · exact canonical_applyCal h
    · exact canonical_refuseCal h

theorem canonical_doSlotStart {s : State} {port : Nat} {o : OpenSlot} (h : MemoryCanonical s) :
    MemoryCanonical (doSlotStart s port o) := canonical_pmcEvent (canonical_modPort (canonical_regSafePoint h))

theorem canonical_writeSnaps {s : State} (h : MemoryCanonical s) : MemoryCanonical (writeSnaps s) :=
  .ite h (.foldl (fun _ _ h => .ite (canonical_pmcEvent (canonical_hostWrite h)) h) h)

theorem canonical_doSnapshot {s : State} {at_ : Nat} (h : MemoryCanonical s) : MemoryCanonical (doSnapshot s at_) :=
  canonical_regSafePoint (canonical_writeSnaps (canonical_pmcEvent (.of_mem h rfl)))

end Sys2Proof.Machine
end

