-- ==== Sys2Proof/Proofs/CanonicalServing.lean ====
section
/-! Memory stays canonical (O7): the functions of the host port, the intake, the scheduler, the sequence engine and Bridle. -/

namespace Sys2Proof.Machine

theorem canonical_doCmReq {s : State} {t srcIp : Nat} {key : DWord} (h : MemoryCanonical s) :
    MemoryCanonical (doCmReq s t srcIp key) :=
  .ite (canonical_emit (.of_mem (.ite (canonical_setReg h) h) rfl)) (canonical_emit h)

theorem canonical_loseConnection {s : State} {t : Nat} (h : MemoryCanonical s) :
    MemoryCanonical (loseConnection s t) :=
  .ite (.of_mem h rfl) (.foldl (fun _ _ h => canonical_startTeardown h) (.of_mem h rfl))

theorem canonical_doHostRdmaAck {s : State} {id : Nat} {ok : Bool} {old : DWord} (h : MemoryCanonical s) :
    MemoryCanonical (doHostRdmaAck s id ok old) := by
  unfold doHostRdmaAck
  split
  · exact h
  · extract_lets _ t
    have ht : MemoryCanonical t := .of_mem h rfl
    split
    · split
      · exact canonical_commitTry ht
      · exact ht
    · split
      · exact canonical_atomDone ht
      · exact ht
    · split
      · split
        · exact canonical_settled (canonical_forget (canonical_fenceEnd ht))
        · exact ht
      · exact ht
    · exact .ite ht (canonical_errWrite ht)
    · exact ht

theorem canonical_failQps {s : State} (h : MemoryCanonical s) : MemoryCanonical (failQps s) := .of_mem h rfl

theorem canonical_setHostLink {s : State} {up : Bool} (h : MemoryCanonical s) : MemoryCanonical (setHostLink s up) :=
  canonical_setReg h

theorem canonical_doHostLinkDown {s : State} (h : MemoryCanonical s) : MemoryCanonical (doHostLinkDown s) := by
  have failed : MemoryCanonical (failQps (setHostLink s false)) := canonical_failQps (canonical_setHostLink h)
  exact canonical_raiseLink (.of_mem failed rfl)

theorem canonical_doRetrain {s : State} {ok : Bool} (h : MemoryCanonical s) : MemoryCanonical (doRetrain s ok) :=
  .ite (.of_mem (canonical_flushHost (canonical_endRecovery (canonical_setHostLink h))) rfl) (.of_mem h rfl)

theorem canonical_doIpv4 {s : State} {v : Nat} (h : MemoryCanonical s) : MemoryCanonical (doIpv4 s v) :=
  .ite (canonical_qpFail (canonical_setReg h)) (canonical_busyWrite h)

theorem canonical_clearFaultInfo {s : State} {core v : Nat} (h : MemoryCanonical s) :
    MemoryCanonical (clearFaultInfo s core v) := .ite (canonical_setReg h) h

theorem canonical_askRing {i n : Nat} {s : State} (h : MemoryCanonical s) : MemoryCanonical (askRing i n s) := by
  induction n generalizing s with
  | zero => exact h
  | succ n ih =>
    unfold askRing
    split
    · exact h
    · exact .ite (ih (canonical_modQueue (.ite (canonical_hostRead h) h))) h

theorem canonical_askRings {s : State} (h : MemoryCanonical s) : MemoryCanonical (askRings s) :=
  .foldl (fun _ _ h => canonical_askRing h) h

theorem canonical_doReadReturn {s : State} {i : Nat} {d : List Byte} (h : MemoryCanonical s) :
    MemoryCanonical (doReadReturn s i d) := canonical_askRings (canonical_modQueue h)

theorem canonical_doorbellBad {s : State} {q : Queue} (h : MemoryCanonical s) : MemoryCanonical (doorbellBad s q) :=
  canonical_errWrite h

theorem canonical_ring {s : State} {i tail cqHead : Nat} (h : MemoryCanonical s) :
    MemoryCanonical (ring s i tail cqHead) := by
  unfold ring
  split
  · exact h
  · refine .ite h ?_
    extract_lets t
    have ht : MemoryCanonical t := by
      unfold t
      split
      · exact .ite (canonical_modQueue h) (canonical_doorbellBad h)
      · exact canonical_doorbellBad h
    refine canonical_askRings ?_
    split
    · exact .ite (canonical_modQueue ht) (canonical_doorbellBad ht)
    · exact canonical_doorbellBad ht

theorem canonical_doDoorbell {s : State} {t addr len tail cqHead : Nat} (h : MemoryCanonical s) :
    MemoryCanonical (doDoorbell s t addr len tail cqHead) := by
  unfold doDoorbell
  refine .ite (canonical_hptLog (canonical_emit h)) (.ite (canonical_nakInvalid h) ?_)
  extract_lets _ t
  have ht : MemoryCanonical t := canonical_pmcEvent (canonical_emit h)
  exact .ite (canonical_nakAccess h) (.ite (canonical_ring ht) ht)

theorem canonical_beginTranslate {s : State} {i : Nat} (h : MemoryCanonical s) :
    MemoryCanonical (beginTranslate s i) := by
  unfold beginTranslate
  split
  · exact h
  · split
    · exact h
    · split
      · exact canonical_settled (canonical_endUndispatched h)
      · exact canonical_pumpWalks (.of_mem h rfl)

theorem canonical_pumpTranslate {n : Nat} {s : State} (h : MemoryCanonical s) :
    MemoryCanonical (pumpTranslate n s) := by
  induction n generalizing s with
  | zero => exact h
  | succ n ih =>
    unfold pumpTranslate
    refine .ite h ?_
    split
    · exact ih (canonical_beginTranslate h)
    · exact h

theorem canonical_readSave {s : State} {ctx va : Nat} (h : MemoryCanonical s) :
    MemoryCanonical (readSave s ctx va).2 := by
  unfold readSave
  refine .ite_snd h ?_
  split
  · exact h
  · exact canonical_freeNat h
  · exact h

theorem canonical_enterCmd {s : State} {i : Nat} (h : MemoryCanonical s) : MemoryCanonical (enterCmd s i) := by
  unfold enterCmd
  split
  · exact h
  · refine .ite (canonical_settled (canonical_endUndispatched h)) ?_
    extract_lets _ _ t
    have ht : MemoryCanonical t := .foldl (fun _ _ h => canonical_refInc h) h
    exact .ite (canonical_settled (canonical_endUndispatched h)) (canonical_pumpTranslate (canonical_modCmd ht))

theorem canonical_doTake {s : State} {i : Nat} (h : MemoryCanonical s) : MemoryCanonical (doTake s i) := by
  unfold doTake
  split
  · exact h
  · split
    · extract_lets _ _ t u _ v w
      have ht : MemoryCanonical t.2 := canonical_readSave h
      have hu : MemoryCanonical u := ht
      have hv : MemoryCanonical v := .of_mem hu rfl
      have hw : MemoryCanonical w := canonical_modQueue hv
      exact canonical_askRings (canonical_enterCmd (canonical_unitProgress hw))
    · exact h

theorem canonical_doPretransDone {s : State} {i : Nat} (h : MemoryCanonical s) :
    MemoryCanonical (doPretransDone s i) := canonical_pumpTranslate (canonical_modCmd h)

theorem canonical_firstOnCore {s : State} {core cmd : Nat} {c : Cmd} (h : MemoryCanonical s) :
    MemoryCanonical (firstOnCore s core cmd c) :=
  .ite h (.ite (canonical_prepareArray (canonical_emptyL1 h)) (canonical_emptyL1 h))

theorem canonical_noteWork {s : State} {core : Nat} (h : MemoryCanonical s) : MemoryCanonical (noteWork s core) :=
  .ite h (canonical_modCore h)

theorem canonical_putGroups {s : State} {core cmd : Nat} {c : Cmd} {slots : List Nat} {i : Nat}
    (h : MemoryCanonical s) :
    MemoryCanonical (putGroups s core cmd c slots i) := by
  induction slots generalizing s i with
  | nil => exact h
  | cons slot slots ih => exact ih (canonical_pmcEvent (canonical_modCore h))

theorem canonical_doGroupLaunch {s : State} {core cmd : Nat} (h : MemoryCanonical s) :
    MemoryCanonical (doGroupLaunch s core cmd) := by
  unfold doGroupLaunch
  split
  · exact h
  · split
    · exact h
    · extract_lets t u
      have ht : MemoryCanonical t := canonical_regSafePoint (canonical_noteWork h)
      have hu : MemoryCanonical u := canonical_putGroups (canonical_firstOnCore ht)
      exact canonical_modCmd hu

theorem canonical_schSafePoints {s : State} (h : MemoryCanonical s) : MemoryCanonical (schSafePoints s) :=
  .foldl (fun _ _ h => .ite h (canonical_safePoint h)) h

theorem canonical_startCmd {s : State} {i : Nat} {c : Cmd} {cores : List Nat} (h : MemoryCanonical s) :
    MemoryCanonical (startCmd s i c cores) := by
  unfold startCmd
  split
  · exact h
  · rename_i tagged
    exact canonical_unitProgress (canonical_pmcEvent
      (.of_mem (canonical_ensureTag h tagged) rfl))

theorem canonical_doDispatch {s : State} {p : Nat} (h : MemoryCanonical s) : MemoryCanonical (doDispatch s p) := by
  unfold doDispatch
  split
  · exact canonical_startCmd h
  · exact h

theorem canonical_doSliceExpire {s : State} {i : Nat} (h : MemoryCanonical s) : MemoryCanonical (doSliceExpire s i) :=
  canonical_regSafePoint (.of_mem h rfl)

theorem canonical_logPoolShort {s : State} {c : Cmd} (h : MemoryCanonical s) : MemoryCanonical (logPoolShort s c) :=
  canonical_errWrite h

theorem canonical_countKill {s : State} {ctx : Nat} (h : MemoryCanonical s) : MemoryCanonical (countKill s ctx) :=
  canonical_pmcEvent (canonical_incReg h)

theorem canonical_beginSave {s : State} {i need : Nat} (h : MemoryCanonical s) :
    MemoryCanonical (beginSave s i need) := .of_mem h rfl

theorem canonical_doPreempt {s : State} {v : Nat} (h : MemoryCanonical s) : MemoryCanonical (doPreempt s v) := by
  unfold doPreempt
  split
  · exact h
  · refine .ite (canonical_countKill (canonical_settled (canonical_endGang h))) ?_
    refine .ite (canonical_countKill (canonical_killRun h)) ?_
    extract_lets
    exact .ite (canonical_beginSave h) (.ite (canonical_countKill (canonical_killRun h)) (canonical_logPoolShort h))

theorem canonical_freeBytes {n : Nat} {s : State} (h : MemoryCanonical s) : MemoryCanonical (freeBytes n s).2 := by
  induction n generalizing s with
  | zero => exact h
  | succ n ih => exact ih (canonical_freeNat (n := 8) h)

theorem canonical_savePointAt {s : State} {i : Nat} {c : Cmd} {n : Nat} (h : MemoryCanonical s) :
    MemoryCanonical (savePointAt s i c n).2 := by
  unfold savePointAt
  extract_lets _ pa t
  clear_value pa
  split
  · exact h
  · dsimp only
    exact canonical_freeBytes h

theorem canonical_saveGroups {i : Nat} {c : Cmd} {alloc : Nat} {l : List (Nat × Group)} {s : State}
    (h : MemoryCanonical s) : MemoryCanonical (saveGroups i c alloc l s).2 := by
  induction l generalizing s with
  | nil => exact h
  | cons e l ih =>
    unfold saveGroups
    refine ih ?_
    split
    · exact .ite_snd (canonical_savePointAt h) (canonical_savePointAt h)
    · exact h

theorem canonical_saveCore {s : State} {i : Nat} {c : Cmd} {core : Nat} (h : MemoryCanonical s) :
    MemoryCanonical (saveCore s i c core).2 := canonical_saveGroups h

theorem canonical_saveCores {i : Nat} {c : Cmd} {l : List Nat} {s : State} (h : MemoryCanonical s) :
    MemoryCanonical (saveCores i c l s).2 := by
  induction l generalizing s with
  | nil => exact h
  | cons core l ih => exact ih (canonical_saveCore h)

theorem canonical_doSaveDone {s : State} {i : Nat} {c : Cmd} (h : MemoryCanonical s) :
    MemoryCanonical (doSaveDone s i c) := by
  unfold doSaveDone
  extract_lets t _ u _ v w
  have ht : MemoryCanonical t.2 := canonical_saveCores h
  have hu : MemoryCanonical u := .foldl (fun _ _ h => canonical_modCore h) ht
  have hv : MemoryCanonical v := .of_mem hu rfl
  have hw : MemoryCanonical w := canonical_modCmd hv
  exact .ite (canonical_chargeHbm (canonical_pmcEvent (canonical_incReg hw))) h

theorem canonical_markFull {s : State} {i : Nat} (h : MemoryCanonical s) : MemoryCanonical (markFull s i) := by
  unfold markFull
  split
  · exact h
  · exact canonical_pmcEvent (.foldl (fun _ _ h => canonical_modCore h) h)

theorem canonical_doMarkTimeout {s : State} {i : Nat} (h : MemoryCanonical s) :
    MemoryCanonical (doMarkTimeout s i) := by
  unfold doMarkTimeout
  split
  · exact h
  · exact canonical_errWrite (canonical_markFull h)

theorem canonical_restoreRegs {s : State} {core cmd : Nat} {v : SavedCore} (h : MemoryCanonical s) :
    MemoryCanonical (restoreRegs s core cmd v) :=
  .ite h (.foldl (fun _ _ h => canonical_setReg h) (.foldl (fun _ _ h => canonical_setReg h) h))

theorem canonical_restoreCore {s : State} {i : Nat} {c : Cmd} {core : Nat} {v : SavedCore} (h : MemoryCanonical s) :
    MemoryCanonical (restoreCore s i c core v) := by
  unfold restoreCore
  extract_lets t u
  have ht : MemoryCanonical t := canonical_emptyL1 (canonical_noteWork h)
  have hu : MemoryCanonical u := .ite (canonical_restoreRegs ht) ht
  exact canonical_modCore hu

theorem canonical_doRestore {s : State} {i : Nat} {cores : List Nat} (h : MemoryCanonical s) :
    MemoryCanonical (doRestore s i cores) := by
  unfold doRestore
  split
  · exact h
  · extract_lets _ _ t _ _ _ u v
    have ht : MemoryCanonical t := .foldl (fun _ _ h => canonical_restoreCore h) h
    have hu : MemoryCanonical u := .of_mem ht rfl
    have hv : MemoryCanonical v := canonical_modCmd hu
    exact canonical_chargeHbm hv

theorem canonical_doSavepool {s : State} {v : Nat} (h : MemoryCanonical s) : MemoryCanonical (doSavepool s v) :=
  .ite (canonical_setReg h) (canonical_logOnly h)

theorem canonical_logModel {s : State} {m : Nat} (h : MemoryCanonical s) : MemoryCanonical (logModel s m) :=
  canonical_errWrite h

theorem canonical_serveQueue {s : State} {m : Nat} {on : Bool} (h : MemoryCanonical s) :
    MemoryCanonical (serveQueue s m on) := canonical_modQueue h

theorem canonical_setMcfg {s : State} {m v : Nat} (h : MemoryCanonical s) : MemoryCanonical (setMcfg s m v) :=
  canonical_setRaw h

theorem canonical_doModelEnable {s : State} {v : Nat} {t : Option (Descriptor × Descriptor)} (h : MemoryCanonical s) :
    MemoryCanonical (doModelEnable s v t) := by
  unfold doModelEnable
  extract_lets _ t u
  have ht : MemoryCanonical t := .ite h (canonical_busyWrite h)
  have hu : MemoryCanonical u := canonical_setMcfg h
  exact .ite (.ite ht (canonical_setMcfg (canonical_serveQueue ht))) (.ite hu (.ite (canonical_logOnly hu) (.ite
    (canonical_serveQueue (canonical_setMcfg hu)) (canonical_logModel hu))))

theorem canonical_takeAdmission {s : State} {i : Nat} (h : MemoryCanonical s) : MemoryCanonical (takeAdmission s i) :=
  canonical_askRings (canonical_modQueue h)

theorem canonical_seqRecord {s : State} {i : Nat} {cmdId : DWord} {status startFt : Nat} (h : MemoryCanonical s) :
    MemoryCanonical (seqRecord s i cmdId status startFt) := by
  unfold seqRecord
  split
  · exact h
  · exact canonical_putRecord h

theorem canonical_setSeq {s : State} {i : Nat} {e : SeqEntry} (h : MemoryCanonical s) :
    MemoryCanonical (setSeq s i e) := .of_mem h rfl

theorem canonical_freeSeq {s : State} {i : Nat} (h : MemoryCanonical s) : MemoryCanonical (freeSeq s i) :=
  .of_mem h rfl

theorem canonical_endSeq {s : State} {i : Nat} {e : SeqEntry} {status : Nat} (h : MemoryCanonical s) :
    MemoryCanonical (endSeq s i e status) := canonical_seqRecord (canonical_freeSeq h)

theorem canonical_refuseEntry {s : State} {q : Nat} {e : Admission} (h : MemoryCanonical s) :
    MemoryCanonical (refuseEntry s q e) := canonical_seqRecord h

theorem canonical_doAdmit {s : State} {q m : Nat} {e : Admission} (h : MemoryCanonical s) :
    MemoryCanonical (doAdmit s q m e) := by
  unfold doAdmit
  split
  · exact canonical_setSeq h
  · exact h

theorem canonical_doPause {s : State} {q m : Nat} {e : Admission} (h : MemoryCanonical s) :
    MemoryCanonical (doPause s q m e) := by
  unfold doPause
  split
  · exact .ite (canonical_refuseEntry h) (.ite (canonical_setSeq h) (canonical_seqRecord (canonical_setSeq h)))
  · exact canonical_refuseEntry h

theorem canonical_doResume {s : State} {q m : Nat} {e : Admission} (h : MemoryCanonical s) :
    MemoryCanonical (doResume s q m e) := by
  unfold doResume
  split
  · exact .ite (canonical_seqRecord (canonical_setSeq h)) (canonical_refuseEntry h)
  · exact canonical_refuseEntry h

theorem canonical_doRelease {s : State} {q m : Nat} {e : Admission} (h : MemoryCanonical s) :
    MemoryCanonical (doRelease s q m e) := by
  unfold doRelease
  split
  · exact .ite (canonical_setSeq h) (canonical_seqRecord (canonical_endSeq h))
  · exact canonical_refuseEntry h

theorem canonical_passSteps {s : State} (h : MemoryCanonical s) : MemoryCanonical (passSteps s) := .of_mem h rfl

theorem canonical_stepModels {l : List (Nat × Descriptor × Descriptor)} {ms : List Nat} {s : State}
    (h : MemoryCanonical s) :
    MemoryCanonical (stepModels l ms s).2 := by
  induction ms generalizing s with
  | nil => exact h
  | cons m ms ih =>
    exact .ite_snd (ih (canonical_logOnly (canonical_incReg h))) (.ite_snd (ih h) (ih (canonical_incReg
      (canonical_logModel h))))

theorem canonical_writeList {s : State} {x va : Nat} {d : List Byte} (h : MemoryCanonical s) :
    MemoryCanonical (writeList s x va d) := by
  unfold writeList
  split
  · exact canonical_wrBytes h
  · exact h

theorem canonical_writeLists {s : State} {m x step ft : Nat} {pre : Bool} {l : List (Nat × SeqEntry)}
    (h : MemoryCanonical s) :
    MemoryCanonical (writeLists s m x step ft pre l) :=
  .foldl (fun _ _ h => canonical_writeList h) (canonical_writeList h)

theorem canonical_submitList {s : State} {m x tenant step : Nat} {pre : Bool} {d : Descriptor} {count : Nat}
    (h : MemoryCanonical s) :
    MemoryCanonical (submitList s m x tenant step pre d count) := by
  unfold submitList
  refine .ite (.ite (canonical_settled (canonical_fenceSignal h)) h) ?_
  split
  · exact h
  · exact canonical_enterCmd (.of_mem (canonical_readSave h) rfl)

theorem canonical_buildModel {l : List (Nat × Descriptor × Descriptor)} {taken : List (Nat × SeqEntry)}
    {step ft : Nat} {s : State} {m : Nat} (h : MemoryCanonical s) :
    MemoryCanonical (buildModel l taken step ft s m) := by
  unfold buildModel
  split
  · extract_lets _ _ _ t u v
    have ht : MemoryCanonical t := canonical_writeLists (canonical_writeLists h)
    have hu : MemoryCanonical u := canonical_pmcEvent ht
    have hv : MemoryCanonical v := canonical_submitList hu
    exact canonical_submitList hv
  · exact h

theorem canonical_doStepRelease {s : State} {k : Nat} {l : List (Nat × Descriptor × Descriptor)}
    (h : MemoryCanonical s) :
    MemoryCanonical (doStepRelease s k l) := by
  unfold doStepRelease
  extract_lets _ t u v _ _ w x y z t1
  have ht : MemoryCanonical t := canonical_passSteps (canonical_pageSafePoint h)
  have hu : MemoryCanonical u.2 := canonical_stepModels ht
  have hv : MemoryCanonical v := hu
  have hw : MemoryCanonical w := .foldl (fun _ _ h => canonical_setSeq h) hv
  have hx : MemoryCanonical x := .foldl (fun _ _ h => canonical_buildModel h) hw
  have hy : MemoryCanonical y := canonical_setReg (canonical_setReg hx)
  have hz : MemoryCanonical z.2 := canonical_freeNat hy
  have ht1 : MemoryCanonical t1 := canonical_setReg hz
  exact canonical_unitProgress (canonical_pmcEvent (canonical_pmcEvent ht1))

theorem canonical_settleWaiting {s : State} {i : Nat} {l : List (Nat × DWord)} {queue : Nat} (h : MemoryCanonical s) :
    MemoryCanonical (settleWaiting s i l queue) := by
  unfold settleWaiting
  extract_lets t _ u
  have ht : MemoryCanonical t := by
    unfold t
    split
    · exact .ite (canonical_setSeq h) h
    · exact h
  have hu : MemoryCanonical u := by
    unfold u
    split
    · exact .ite (canonical_endSeq ht) ht
    · exact ht
  exact .foldl (fun _ _ h => canonical_seqRecord h) hu

theorem canonical_advanceEntry {s : State} {results : List (Nat × Nat)} {i : Nat} {e : SeqEntry}
    (h : MemoryCanonical s) :
    MemoryCanonical (advanceEntry s results i e) := .ite (canonical_endSeq h) (canonical_setSeq h)

theorem canonical_failEntry {s : State} {i : Nat} {e : SeqEntry} {status : Nat} (h : MemoryCanonical s) :
    MemoryCanonical (failEntry s i e status) := .ite (canonical_endSeq h) (canonical_setSeq h)

theorem canonical_doStepEnd {s : State} {m : Nat} {st : SeqStep} {results : List (Nat × Nat)}
    (h : MemoryCanonical s) :
    MemoryCanonical (doStepEnd s m st results) := by
  unfold doStepEnd
  extract_lets _ _ t u
  have ht : MemoryCanonical t := .of_mem h rfl
  have hu : MemoryCanonical u := .ite ht (canonical_incReg (canonical_logOnly ht))
  exact .foldl (fun _ _ h => canonical_settleWaiting (.ite (canonical_advanceEntry h) (canonical_failEntry h))) hu

theorem canonical_chargeEnergy {s : State} {e : Nat × Nat} (h : MemoryCanonical s) :
    MemoryCanonical (chargeEnergy s e) := by
  unfold chargeEnergy
  extract_lets
  refine .ite (canonical_modAcct h) ?_
  split
  · exact canonical_modAcct (canonical_modCmd h)
  · exact h

theorem canonical_doCalibrate {s : State} {meter unattr : Nat} {shares : List (Nat × Nat)} (h : MemoryCanonical s) :
    MemoryCanonical (doCalibrate s meter unattr shares) :=
  .foldl (fun _ _ h => canonical_chargeEnergy h) (.of_mem h rfl)

theorem canonical_modMon {s : State} {f : Monitor → Monitor} (h : MemoryCanonical s) : MemoryCanonical (modMon s f) :=
  .of_mem h rfl

theorem canonical_modBoot {s : State} {f : Boot → Boot} (h : MemoryCanonical s) : MemoryCanonical (modBoot s f) :=
  .of_mem h (modBoot_mem _ _)

theorem canonical_assertAlert {s : State} (h : MemoryCanonical s) : MemoryCanonical (assertAlert s) :=
  .ite h (canonical_emit (canonical_modMon h))

theorem canonical_releaseAlert {s : State} (h : MemoryCanonical s) : MemoryCanonical (releaseAlert s) :=
  .ite (canonical_emit (canonical_modMon h)) h

theorem canonical_watchStatus {s₀ s : State} (h : MemoryCanonical s) : MemoryCanonical (watchStatus s₀ s) :=
  .ite (canonical_assertAlert h) h

theorem canonical_requestCold {s : State} (h : MemoryCanonical s) : MemoryCanonical (requestCold s) :=
  .ite h (canonical_emit (canonical_modMon h))

theorem canonical_haltBoot {s : State} {error : Nat} (h : MemoryCanonical s) :
    MemoryCanonical (haltBoot s error) := by
  unfold haltBoot
  extract_lets t
  have ht : MemoryCanonical t := canonical_modBoot h
  exact canonical_watchStatus (.ite (canonical_requestCold ht) ht)

theorem canonical_modDom {s : State} {d : Nat} {f : Dom → Dom} (h : MemoryCanonical s) :
    MemoryCanonical (modDom s d f) := .of_mem h (modDom_mem _ _ _)

theorem canonical_countClamp {s : State} {d : Nat} (h : MemoryCanonical s) : MemoryCanonical (countClamp s d) :=
  canonical_errWrite (canonical_incReg h)

theorem canonical_putDom {sense : BridleSense} {s : State} {r : Nat × DomEval} (h : MemoryCanonical s) :
    MemoryCanonical (putDom sense s r) := by
  unfold putDom
  extract_lets _ _ _ _ _ _ _ _ t _ u
  have ht : MemoryCanonical t := canonical_pmcEvent (canonical_pmcEvent h)
  have hu : MemoryCanonical u := canonical_modDom ht
  exact .ite (canonical_countClamp hu) hu

theorem canonical_noteCap {s : State} {unmet : Bool} (h : MemoryCanonical s) : MemoryCanonical (noteCap s unmet) :=
  .ite (canonical_logOnly (.of_mem h rfl)) (.of_mem h rfl)

theorem canonical_noteInput {s : State} {sense : BridleSense} (h : MemoryCanonical s) :
    MemoryCanonical (noteInput s sense) := .of_mem h rfl

theorem canonical_doEvaluation {s : State} {sense : BridleSense} (h : MemoryCanonical s) :
    MemoryCanonical (doEvaluation s sense) := by
  unfold doEvaluation
  extract_lets t u _ v _ _ _ _ _ _ w
  have ht : MemoryCanonical t := canonical_noteInput (canonical_pageSafePoint h)
  have hu : MemoryCanonical u.2 := canonical_freeNat ht
  have hv : MemoryCanonical v := hu
  have hw : MemoryCanonical w := .foldl (fun _ _ h => canonical_putDom h) hv
  exact canonical_pmcEvent (canonical_noteCap hw)

theorem canonical_doFastLimiter {s : State} {sense : BridleSense} (h : MemoryCanonical s) :
    MemoryCanonical (doFastLimiter s sense) := canonical_incReg (.foldl (fun _ _ h => canonical_modDom h) h)

theorem canonical_doThermalCritical {s : State} {core : Nat} (h : MemoryCanonical s) :
    MemoryCanonical (doThermalCritical s core) := by
  unfold doThermalCritical
  extract_lets _ _ t u
  have ht : MemoryCanonical t := .ite h (canonical_countClamp h)
  have hu : MemoryCanonical u := canonical_modDom ht
  exact canonical_watchStatus (canonical_errWrite hu)

theorem canonical_doMemStep {s : State} (h : MemoryCanonical s) : MemoryCanonical (doMemStep s) := .of_mem h rfl

theorem canonical_doPreramp {s : State} {t : Nat} {ds : BitVec 16} (h : MemoryCanonical s) :
    MemoryCanonical (doPreramp s t ds) :=
  canonical_pmcEvent (.foldl (fun _ _ h => .ite h (canonical_modDom h)) (.of_mem h rfl))

theorem canonical_doDutyPeriod {s : State} {d : Nat} (h : MemoryCanonical s) : MemoryCanonical (doDutyPeriod s d) :=
  canonical_modDom (.ite (canonical_pmcEvent h) h)

end Sys2Proof.Machine
end

