-- ==== Sys2Proof/Proofs/CanonicalBoot.lean ====
section
/-! Memory stays canonical (O7): the functions of boot, updates, recovery, the monitor and the test logic. -/

namespace Sys2Proof.Machine

theorem canonical_emuWrite {s : State} {t addr : Nat} {v : Word} {f : State → State} (h : MemoryCanonical s)
    (hf : ∀ s, MemoryCanonical s → MemoryCanonical (f s)) :
    MemoryCanonical (emuWrite s t addr v f) := .ite (canonical_mgmtWrite h (fun _ h => hf _ h)) (canonical_park h)

theorem canonical_doGo {s : State} {v : Nat} (h : MemoryCanonical s) : MemoryCanonical (doGo s v) :=
  .ite h (canonical_modBoot h)

theorem canonical_doSigned {s : State} {ok : Bool} (h : MemoryCanonical s) : MemoryCanonical (doSigned s ok) := by
  unfold doSigned
  extract_lets _ t
  have ht : MemoryCanonical t := canonical_pmcEvent (canonical_modBoot h)
  exact .ite (canonical_modBoot (canonical_hostWrite ht)) (canonical_logOnly (canonical_modBoot ht))

theorem canonical_modFwu {s : State} {f : Fwu → Fwu} (h : MemoryCanonical s) : MemoryCanonical (modFwu s f) :=
  .of_mem h (modFwu_mem _ _)

theorem canonical_fwuBusy {s : State} (h : MemoryCanonical s) : MemoryCanonical (fwuBusy s) := canonical_modFwu h

theorem canonical_fwuReject {s : State} {reason : Nat} (h : MemoryCanonical s) :
    MemoryCanonical (fwuReject s reason) := canonical_logOnly (canonical_pmcEvent (canonical_modFwu h))

theorem canonical_fwuCtl {s : State} {v n : Nat} {go : State → State} (h : MemoryCanonical s)
    (hf : ∀ s, MemoryCanonical s → MemoryCanonical (go s)) :
    MemoryCanonical (fwuCtl s v n go) := .ite (canonical_fwuBusy h) (.ite (hf _ h) h)

theorem canonical_doStage {s : State} (h : MemoryCanonical s) : MemoryCanonical (doStage s) :=
  .ite (.ite (canonical_hostRead (canonical_modFwu h)) (canonical_fwuReject (canonical_modFwu h)))
    (canonical_fwuBusy h)

theorem canonical_putSlot {s : State} {slot1 : Bool} {d : List Byte} (h : MemoryCanonical s) :
    MemoryCanonical (putSlot s slot1 d) := canonical_wrBytes h

theorem canonical_doFetched {s : State} {image : Option (List Byte)} (h : MemoryCanonical s) :
    MemoryCanonical (doFetched s image) := by
  unfold doFetched
  split
  · exact canonical_fwuReject h
  · exact canonical_modFwu (canonical_putSlot h)

theorem canonical_doFwuVerified {s : State} (h : MemoryCanonical s) : MemoryCanonical (doFwuVerified s) := by
  unfold doFwuVerified
  split
  · exact .ite (canonical_fwuReject h) (.ite (canonical_fwuReject h) (canonical_pmcEvent (canonical_modFwu h)))
  · exact canonical_fwuReject h

theorem canonical_doCommitUpdate {s : State} (h : MemoryCanonical s) : MemoryCanonical (doCommitUpdate s) :=
  .ite (.ite (canonical_modFwu h) (canonical_fwuReject h)) (canonical_fwuBusy h)

theorem canonical_doCancel {s : State} (h : MemoryCanonical s) : MemoryCanonical (doCancel s) :=
  .ite (canonical_modFwu h) h

theorem canonical_startFlash {s : State} {job : FlashJob} (h : MemoryCanonical s) :
    MemoryCanonical (startFlash s job) := by
  unfold startFlash
  extract_lets t
  have ht : MemoryCanonical t := canonical_modFwu h
  split
  · exact canonical_modBoot ht
  · exact canonical_modBoot ht

theorem canonical_doFlash {s : State} (h : MemoryCanonical s) : MemoryCanonical (doFlash s) := by
  unfold doFlash
  split
  · exact .ite (canonical_startFlash h) (canonical_fwuBusy h)
  · exact canonical_fwuBusy h

theorem canonical_doDesc {s : State} {desc : Option (List Byte)} (h : MemoryCanonical s) :
    MemoryCanonical (doDesc s desc) := by
  unfold doDesc
  refine .ite (canonical_fwuBusy h) (.ite (canonical_fwuReject h) ?_)
  extract_lets t
  have ht : MemoryCanonical t := canonical_hostRead h
  split
  · exact canonical_fwuReject ht
  · exact .ite (canonical_fwuReject ht) (canonical_startFlash ht)

theorem canonical_doFlashed {s : State} {ok : Bool} (h : MemoryCanonical s) : MemoryCanonical (doFlashed s ok) := by
  unfold doFlashed
  extract_lets t u v
  have ht : MemoryCanonical t.2 := canonical_freeNat h
  have hu : MemoryCanonical u := canonical_pmcEvent ht
  have hv : MemoryCanonical v := canonical_modFwu hu
  refine .ite (canonical_fwuReject (canonical_logOnly hu)) ?_
  split
  · exact canonical_modBoot hv
  · exact canonical_modBoot hv
  · exact hv

theorem canonical_writeHandoff {s : State} (h : MemoryCanonical s) : MemoryCanonical (writeHandoff s) :=
  canonical_wrBytes (canonical_wrBytes (canonical_freeNat h))

theorem canonical_putHandoffStatus {s : State} {v : Nat} (h : MemoryCanonical s) :
    MemoryCanonical (putHandoffStatus s v) := canonical_wrBytes h

theorem canonical_doHandoff {s : State} (h : MemoryCanonical s) : MemoryCanonical (doHandoff s) :=
  .ite (canonical_pmcEvent (canonical_modBoot (canonical_writeHandoff (canonical_modFwu h)))) (canonical_fwuReject h)

theorem canonical_revert {s : State} {reason : Nat} (h : MemoryCanonical s) : MemoryCanonical (revert s reason) := by
  unfold revert
  extract_lets _ _ t u v
  have ht : MemoryCanonical t := by
    unfold t
    split
    · exact h
    · exact .of_mem h rfl
  have hu : MemoryCanonical u := canonical_modBoot ht
  have hv : MemoryCanonical v := canonical_modFwu hu
  exact canonical_fwuReject (canonical_logOnly (canonical_pmcEvent hv))

theorem canonical_revertTime {s : State} (h : MemoryCanonical s) : MemoryCanonical (revertTime s) :=
  canonical_modFwu (canonical_freeNat h)

theorem canonical_doHandoffOk {s : State} (h : MemoryCanonical s) : MemoryCanonical (doHandoffOk s) := by
  unfold doHandoffOk
  split
  · exact h
  · extract_lets _ t
    have ht : MemoryCanonical t := canonical_rewriteTable (canonical_modBoot (canonical_putHandoffStatus h))
    exact canonical_startFlash (canonical_modFwu ht)

theorem canonical_powerLoss {s : State} {mon : Monitor} : MemoryCanonical (powerLoss s mon) := rfl

theorem canonical_dropPins {s : State} {m : Monitor} (h : MemoryCanonical s) : MemoryCanonical (dropPins s m) := by
  unfold dropPins
  extract_lets t u v
  have ht : MemoryCanonical t := .ite (canonical_emit h) h
  have hu : MemoryCanonical u := .ite (canonical_emit ht) ht
  have hv : MemoryCanonical v := .ite (canonical_emit hu) hu
  exact .ite (canonical_emit hv) hv

theorem canonical_startRails {s : State} : MemoryCanonical (startRails s) := rfl

theorem canonical_doColdBoot {s : State} (h : MemoryCanonical s) : MemoryCanonical (doColdBoot s) :=
  .ite canonical_startRails (canonical_modMon h)

theorem canonical_doRailFault {s : State} {rail : Nat} (h : MemoryCanonical s) :
    MemoryCanonical (doRailFault s rail) := canonical_watchStatus (canonical_requestCold (canonical_modMon h))

theorem canonical_startImage {s : State} {i : FwImage} {netboot : Bool} (h : MemoryCanonical s) :
    MemoryCanonical (startImage s i netboot) := canonical_modBoot h

theorem canonical_openWindow {s : State} {error : Nat} (h : MemoryCanonical s) :
    MemoryCanonical (openWindow s error) := canonical_modBoot h

theorem canonical_doBootRom {s : State} {pufOk : Bool} (h : MemoryCanonical s) :
    MemoryCanonical (doBootRom s pufOk) := by
  unfold doBootRom
  extract_lets t u
  have ht : MemoryCanonical t := canonical_emit (canonical_modMon h)
  have hu : MemoryCanonical u := canonical_setHostLink (canonical_modBoot ht)
  refine .ite (canonical_haltBoot ht) ?_
  split
  · exact canonical_openWindow hu
  · exact .ite (canonical_startImage hu) (canonical_openWindow hu)

theorem canonical_doRing {s : State} {b : List Byte} (h : MemoryCanonical s) : MemoryCanonical (doRing s b) :=
  .ite (canonical_startImage (canonical_emit h)) (canonical_modBoot (canonical_emit h))

theorem canonical_takeDesc {s : State} {d : PartDesc} (h : MemoryCanonical s) : MemoryCanonical (takeDesc s d) :=
  canonical_modBoot h

theorem canonical_makeReady {s : State} {epoch : Nat} : MemoryCanonical (makeReady s epoch) :=
  .ite (canonical_logOnly (canonical_putSlot (canonical_modBoot rfl))) (canonical_putSlot (canonical_modBoot rfl))

theorem canonical_trainLanes {s : State} {l : List (Nat × Nat × Nat)} (h : MemoryCanonical s) :
    MemoryCanonical (trainLanes s l).1 := by
  induction l generalizing s with
  | nil => exact h
  | cons e l ih =>
    obtain ⟨st, ch, lane⟩ := e
    have trained := canonical_trainLane (st := st) (ch := ch) (lane := lane) h
    unfold trainLanes
    refine .ite_fst ?_ (ih h)
    split
    · rename_i e
      rw [e] at trained
      exact ih trained
    · exact ih h

theorem canonical_doFirmwareStart {s : State} {coresFailed stacksFailed : Nat} {lanes : List (Nat × Nat × Nat)}
    {randomOk sramOk : Bool} {epoch idHash : Nat} (h : MemoryCanonical s) :
    MemoryCanonical (doFirmwareStart s coresFailed stacksFailed lanes randomOk sramOk epoch idHash) := by
  unfold doFirmwareStart
  extract_lets t
  have ht : MemoryCanonical t := canonical_modBoot h
  split
  · exact canonical_haltBoot ht
  · exact canonical_haltBoot ht
  · extract_lets u v w x _ y
    have hu : MemoryCanonical u := canonical_takeDesc ht
    have hv : MemoryCanonical v := canonical_modBoot hu
    have hw : MemoryCanonical w.1 := canonical_trainLanes hv
    have hx : MemoryCanonical x := hw
    have hy : MemoryCanonical y := canonical_modBoot hx
    exact .ite (canonical_haltBoot hu) (.ite (canonical_haltBoot hx) (.ite (canonical_haltBoot (.of_mem hy rfl))
      (.ite (canonical_haltBoot hx) canonical_makeReady)))

theorem canonical_clusterRecord {s : State} (h : MemoryCanonical s) : MemoryCanonical (clusterRecord s).2 := by
  dsimp only [clusterRecord]
  exact canonical_freeBytes h

theorem canonical_recordOfDomain {s : State} {d : Domain} (h : MemoryCanonical s) :
    MemoryCanonical (recordOfDomain s d).2 := by
  cases d with
  | cluster =>
    dsimp only [recordOfDomain]
    exact canonical_clusterRecord h
  | _ => exact h

theorem canonical_dumpRecords {s : State} {l : List Domain} (h : MemoryCanonical s) :
    MemoryCanonical (dumpRecords s l).2 := by
  induction l generalizing s with
  | nil => exact h
  | cons d l ih => exact ih (canonical_recordOfDomain h)

theorem canonical_startDump {s : State} {d : Domain} {code : Nat} (h : MemoryCanonical s) :
    MemoryCanonical (startDump s d code) := by
  unfold startDump
  extract_lets _ _ t _ _ _ _ u v
  have ht : MemoryCanonical t.2 := canonical_dumpRecords h
  have hu : MemoryCanonical u := canonical_wrBytes (canonical_wrBytes ht)
  have hv : MemoryCanonical v := canonical_modErr hu
  exact canonical_pmcEvent hv

theorem canonical_endDump {s : State} {trunc : Bool} (h : MemoryCanonical s) : MemoryCanonical (endDump s trunc) := by
  unfold endDump
  refine .ite h ?_
  extract_lets _ t u _ v
  have ht : MemoryCanonical t := canonical_wrBytes h
  have hu : MemoryCanonical u := .ite (canonical_wrBytes ht) ht
  have hv : MemoryCanonical v := canonical_modErr hu
  exact canonical_setReg hv

theorem canonical_doDumpMiss {s : State} {unit : Nat} (h : MemoryCanonical s) :
    MemoryCanonical (doDumpMiss s unit) := by
  unfold doDumpMiss
  split
  · exact h
  · extract_lets _ t u v _ _ _ _ _ w _ x y
    have ht : MemoryCanonical t.2 := canonical_freeNat h
    have hu : MemoryCanonical u.2 := canonical_freeNat ht
    have hv : MemoryCanonical v := hu
    have hw : MemoryCanonical w := canonical_wrBytes hv
    have hx : MemoryCanonical x := canonical_wrBytes hw
    have hy : MemoryCanonical y := canonical_modErr hx
    exact .ite hv (canonical_pmcEvent hy)

theorem canonical_copyDump {s : State} {k : Nat} (h : MemoryCanonical s) : MemoryCanonical (copyDump s k) :=
  .ite (.ite (canonical_setReg (canonical_hostWrite h)) (canonical_hostWrite h)) h

theorem canonical_doDumpCopy {s : State} (h : MemoryCanonical s) : MemoryCanonical (doDumpCopy s) := by
  unfold doDumpCopy
  split
  · exact canonical_copyDump (canonical_modErr h)
  · exact h

theorem canonical_doErrHead {s : State} {v : Nat} (h : MemoryCanonical s) : MemoryCanonical (doErrHead s v) :=
  .ite h (canonical_setReg h)

theorem canonical_hostWarm {s : State} (h : MemoryCanonical s) : MemoryCanonical (hostWarm s) :=
  .ite (canonical_dueWarm h) h

theorem canonical_beginRecovery {s : State} {r : Recovery} (h : MemoryCanonical s) :
    MemoryCanonical (beginRecovery s r) := by
  unfold beginRecovery
  extract_lets t u v w
  have ht : MemoryCanonical t := canonical_modErr h
  have hu : MemoryCanonical u := canonical_pmcEvent ht
  have hv : MemoryCanonical v := .ite (canonical_startDump hu) hu
  have hw : MemoryCanonical w := canonical_endDump hv
  split
  · exact hv
  · exact .ite hw (canonical_startChanReset hw)
  · exact canonical_endDump hv

theorem canonical_logHang {s : State} {d : Domain} {page : Nat} (h : MemoryCanonical s) :
    MemoryCanonical (logHang s d page) := canonical_incReg (canonical_errWrite h)

theorem canonical_foundHung {s : State} {d : Domain} (h : MemoryCanonical s) : MemoryCanonical (foundHung s d) :=
  canonical_queueRecovery (canonical_logHang h)

theorem canonical_doJackCheck {s : State} (h : MemoryCanonical s) : MemoryCanonical (doJackCheck s) := by
  unfold doJackCheck
  extract_lets t u
  have ht : MemoryCanonical t := canonical_modErr (canonical_pageSafePoint h)
  have hu : MemoryCanonical u := .foldl (fun _ _ h => canonical_foundHung h) ht
  split
  · exact canonical_dueWarm (canonical_logHang hu)
  · exact hu

theorem canonical_lastDrain {s : State} {l : List (Nat × MergeEntry)} (h : MemoryCanonical s) :
    MemoryCanonical (lastDrain s l).2 := by
  induction l generalizing s with
  | nil => exact h
  | cons e l ih => exact ih (canonical_chooseOf h)

theorem canonical_clearCore {s : State} {core : Nat} (h : MemoryCanonical s) : MemoryCanonical (clearCore s core) :=
  canonical_modErr (.of_mem (canonical_lastDrain h) rfl)

theorem canonical_retireCore {s : State} {core : Nat} (h : MemoryCanonical s) : MemoryCanonical (retireCore s core) :=
  .ite (canonical_logOnly (canonical_rewriteTable (canonical_modBoot h))) h

theorem canonical_banContext {s : State} {x : Nat} (h : MemoryCanonical s) : MemoryCanonical (banContext s x) := by
  unfold banContext
  split
  · exact h
  · exact .ite h (.foldl (fun _ _ h => canonical_failCmd h) (canonical_setReg (canonical_modCtx h)))

theorem canonical_endGuilty {s : State} {i : Nat} (h : MemoryCanonical s) : MemoryCanonical (endGuilty s i) := by
  unfold endGuilty
  split
  · exact h
  · extract_lets t u
    have ht : MemoryCanonical t := canonical_modErr h
    have hu : MemoryCanonical u := .ite (canonical_settled (canonical_endGang ht)) (canonical_failCmd ht)
    exact canonical_banContext (canonical_incReg hu)

theorem canonical_noteSuspects {s : State} {core : Nat} {new : List Nat} (h : MemoryCanonical s) :
    MemoryCanonical (noteSuspects s core new) := .ite (canonical_logUnresolved h) (canonical_modErr h)

theorem canonical_doCoreReset {s : State} {core code : Nat} (h : MemoryCanonical s) :
    MemoryCanonical (doCoreReset s core code) := by
  unfold doCoreReset
  extract_lets t _ _ found _ u _ v w
  have ht : MemoryCanonical t := canonical_endDump h
  have hu : MemoryCanonical u := by
    unfold u
    clear_value found
    split
    · exact canonical_endGuilty ht
    · exact ht
  have hv : MemoryCanonical v := .foldl (fun _ _ h => canonical_killOrEnd h) hu
  have hw : MemoryCanonical w := .ite (canonical_noteSuspects hv) hv
  exact canonical_retireCore (canonical_clearCore hw)

theorem canonical_doPortReset {s : State} {port : Nat} (h : MemoryCanonical s) :
    MemoryCanonical (doPortReset s port) := .foldl (fun _ _ h => canonical_startReroute h) (canonical_modPort h)

theorem canonical_doClusterRestart {s : State} (h : MemoryCanonical s) : MemoryCanonical (doClusterRestart s) := by
  unfold doClusterRestart
  extract_lets _ t u _ v w _ x
  have ht : MemoryCanonical t := canonical_logHang h
  have hu : MemoryCanonical u := .ite (canonical_startDump ht) ht
  have hv : MemoryCanonical v := canonical_modErr hu
  have hw : MemoryCanonical w := canonical_modBoot hv
  have hx : MemoryCanonical x := .of_mem hw rfl
  exact canonical_pmcEvent hx

theorem canonical_settleRecords {s : State} (h : MemoryCanonical s) : MemoryCanonical (settleRecords s) := by
  unfold settleRecords
  extract_lets _ t
  have ht : MemoryCanonical t := .of_mem h rfl
  refine .foldl (fun _ _ h => ?_) ht
  split
  · exact canonical_forget (canonical_fenceEnd h)
  · exact h

theorem canonical_warmRunning {s : State} {i : Nat} (h : MemoryCanonical s) : MemoryCanonical (warmRunning s i) := by
  unfold warmRunning
  split
  · exact h
  · exact .ite h (.ite (canonical_modCmd h) (canonical_killOrEnd h))

theorem canonical_warmWaiting {s : State} {i : Nat} (h : MemoryCanonical s) : MemoryCanonical (warmWaiting s i) := by
  unfold warmWaiting
  split
  · exact h
  · exact .ite (canonical_modCmd (canonical_dropClaims h)) (.ite (canonical_modCmd h) h)

theorem canonical_warmCommands {s : State} (h : MemoryCanonical s) : MemoryCanonical (warmCommands s) := by
  unfold warmCommands
  extract_lets _ t u
  have ht : MemoryCanonical t := .foldl (fun _ _ h => canonical_warmRunning h) (canonical_settleRecords h)
  have hu : MemoryCanonical u := .foldl (fun _ _ h => canonical_warmWaiting h) ht
  exact canonical_settleRecords (.of_mem hu rfl)

theorem canonical_loseOnDie {s : State} (h : MemoryCanonical s) : MemoryCanonical (loseOnDie s) := .of_mem h rfl

theorem canonical_warmFwu {s : State} (h : MemoryCanonical s) : MemoryCanonical (warmFwu s) := by
  unfold warmFwu
  split
  · exact canonical_modFwu h
  · exact canonical_modFwu h
  · exact canonical_modFwu h
  · exact canonical_modFwu h
  · exact canonical_revert h
  · exact .ite (canonical_revert h) h
  · exact h

theorem canonical_resetPeer {s : State} {n : Nat} (h : MemoryCanonical s) : MemoryCanonical (resetPeer s n) :=
  canonical_modPeer (canonical_sendCtlAlways (canonical_cutPeer h))

theorem canonical_haltStorm {s : State} (h : MemoryCanonical s) : MemoryCanonical (haltStorm s) := by
  unfold haltStorm
  extract_lets t u v _ w
  have ht : MemoryCanonical t := canonical_modBoot h
  have hu : MemoryCanonical u := canonical_setReg ht
  have hv : MemoryCanonical v := canonical_modErr hu
  have hw : MemoryCanonical w := .of_mem hv rfl
  exact canonical_watchStatus (canonical_requestCold hw)

theorem canonical_doWarmReset {s : State} {trigger code : Nat} (h : MemoryCanonical s) :
    MemoryCanonical (doWarmReset s trigger code) := by
  unfold doWarmReset
  extract_lets _ t u v w x y z
  have ht : MemoryCanonical t := .foldl (fun _ _ h => canonical_resetPeer h) h
  have hu : MemoryCanonical u := canonical_startDump (canonical_endDump ht)
  have hv : MemoryCanonical v := canonical_modErr hu
  have hw : MemoryCanonical w := canonical_setReg hv
  have hx : MemoryCanonical x := canonical_setReg hw
  have hy : MemoryCanonical y := canonical_pmcEvent hx
  have hz : MemoryCanonical z := canonical_modBoot (canonical_warmFwu hy)
  exact canonical_loseOnDie (canonical_warmCommands hz)

theorem canonical_keepRegs {s : State} (h : MemoryCanonical s) : MemoryCanonical (keepRegs s) := .of_mem h rfl

theorem canonical_rebuildPair {s : State} {idx : Nat} (h : MemoryCanonical s) :
    MemoryCanonical (rebuildPair s idx) := by
  unfold rebuildPair
  split
  · exact h
  · exact canonical_setPair (.of_mem h rfl)

theorem canonical_rebuildObj {s : State} {hdr : Nat} (h : MemoryCanonical s) : MemoryCanonical (rebuildObj s hdr) :=
  canonical_modObj h

theorem canonical_rebuildFence {s : State} {i : Nat} (h : MemoryCanonical s) : MemoryCanonical (rebuildFence s i) :=
  canonical_mirrorFence (canonical_modFence h)

theorem canonical_rebuildQueue {s : State} {i : Nat} (h : MemoryCanonical s) : MemoryCanonical (rebuildQueue s i) :=
  canonical_settled (.foldl (fun _ _ h => canonical_endUndispatched h) (canonical_modQueue h))

theorem canonical_rebuildCtx {s : State} {x : Nat} (h : MemoryCanonical s) : MemoryCanonical (rebuildCtx s x) := by
  unfold rebuildCtx
  split
  · exact .ite (canonical_startTeardown h) h
  · exact h

theorem canonical_rebuildTenant {s : State} {t : Nat} (h : MemoryCanonical s) :
    MemoryCanonical (rebuildTenant s t) := by
  unfold rebuildTenant
  extract_lets t u
  have ht : MemoryCanonical t := .foldl (fun _ _ h => canonical_rebuildObj h) h
  have hu : MemoryCanonical u := .foldl (fun _ _ h => canonical_startTeardown h) ht
  exact .of_mem hu rfl

theorem canonical_rebuildSeq {s : State} {i : Nat} (h : MemoryCanonical s) : MemoryCanonical (rebuildSeq s i) := by
  unfold rebuildSeq
  split
  · exact canonical_endSeq h
  · exact h

theorem canonical_rebuildRec {s : State} {tag : Nat} (h : MemoryCanonical s) : MemoryCanonical (rebuildRec s tag) :=
  .of_mem (canonical_commitLose h) rfl

theorem canonical_rebuildRange {s : State} {slot : Nat} (h : MemoryCanonical s) :
    MemoryCanonical (rebuildRange s slot) := by
  unfold rebuildRange
  split
  · exact canonical_failCmd h
  · exact h

theorem canonical_rebuildErr {s : State} {slot : Nat} (h : MemoryCanonical s) : MemoryCanonical (rebuildErr s slot) :=
  canonical_incReg (canonical_modErr h)

theorem canonical_rebuildFw {s : State} (h : MemoryCanonical s) : MemoryCanonical (rebuildFw s) := .of_mem h rfl

theorem canonical_rebuildEach {s : State} {first k : Nat} {f : State → Nat → State} {a : Nat} (h : MemoryCanonical s)
    (hf : ∀ s a1, MemoryCanonical s → MemoryCanonical (f s a1)) :
    MemoryCanonical (rebuildEach s first k f a) := .foldl (fun _ _ h => canonical_errWrite (hf _ _ h)) h

theorem canonical_rebuildSector {s : State} {a : Nat} (h : MemoryCanonical s) :
    MemoryCanonical (rebuildSector s a) := by
  unfold rebuildSector
  extract_lets t
  have ht : MemoryCanonical t := .of_mem h rfl
  exact .ite (canonical_rebuildEach ht (fun _ _ h => canonical_rebuildPair h)) (.ite (canonical_rebuildEach ht
    (fun _ _ h => canonical_rebuildObj h)) (.ite (canonical_rebuildEach ht (fun _ _ h => canonical_rebuildFence h))
    (.ite (canonical_rebuildEach ht (fun _ _ h => canonical_rebuildQueue h)) (.ite (canonical_rebuildEach ht
    (fun _ _ h => canonical_rebuildCtx h)) (.ite (canonical_rebuildEach ht (fun _ _ h => canonical_rebuildTenant h))
    (.ite (canonical_rebuildEach ht (fun _ _ h => canonical_rebuildSeq h)) (.ite (canonical_rebuildEach ht
    (fun _ _ h => canonical_rebuildRec h)) (.ite (canonical_rebuildEach ht (fun _ _ h => canonical_rebuildRange h))
    (.ite (canonical_rebuildEach ht (fun _ _ h => canonical_rebuildErr h)) (.ite ht (canonical_rebuildEach ht
    (fun _ _ h => canonical_rebuildFw h))))))))))))

theorem canonical_rebuildAll {s : State} (h : MemoryCanonical s) : MemoryCanonical (rebuildAll s) :=
  .ite (.foldl (fun _ _ h => canonical_rebuildSector h) h) h

theorem canonical_rereadRings {s : State} (h : MemoryCanonical s) : MemoryCanonical (rereadRings s) :=
  canonical_askRings (.of_mem h rfl)

theorem canonical_holdForeign {s : State} (h : MemoryCanonical s) : MemoryCanonical (holdForeign s) := .of_mem h rfl

theorem canonical_rejoinAll {s : State} (h : MemoryCanonical s) : MemoryCanonical (rejoinAll s) :=
  .foldl (fun _ _ h => canonical_sendCtlAlways h) h

theorem canonical_freshUnits {s : State} (h : MemoryCanonical s) : MemoryCanonical (freshUnits s) := .of_mem h rfl

theorem canonical_warmReady {s : State} (h : MemoryCanonical s) : MemoryCanonical (warmReady s) := .of_mem h rfl

theorem canonical_warmFwuAfter {s : State} (h : MemoryCanonical s) : MemoryCanonical (warmFwuAfter s) := by
  unfold warmFwuAfter
  split
  · exact canonical_modFwu h
  · split
    · exact canonical_startFlash h
    · exact h
  · exact h

theorem canonical_doWarmRestart {s : State} {coresFailed : Nat} (h : MemoryCanonical s) :
    MemoryCanonical (doWarmRestart s coresFailed) := by
  unfold doWarmRestart
  extract_lets t u v w x y z t1
  have ht : MemoryCanonical t := canonical_endDump h
  have hu : MemoryCanonical u := canonical_modBoot ht
  have hv : MemoryCanonical v := canonical_freshUnits (canonical_keepRegs hu)
  have hw : MemoryCanonical w := canonical_holdForeign (canonical_rebuildAll hv)
  have hx : MemoryCanonical x := .foldl (fun _ _ h => canonical_commitTry h) hw
  have hy : MemoryCanonical y := .foldl (fun _ _ h => canonical_retireCore h) hx
  have hz : MemoryCanonical z := canonical_rereadRings (canonical_flushHost (canonical_warmReady hy))
  have ht1 : MemoryCanonical t1 := canonical_warmFwuAfter (canonical_rejoinAll hz)
  exact .ite (canonical_haltBoot (canonical_modErr hu)) (canonical_pumpTranslate ht1)

theorem canonical_doPowerOff {s : State} : MemoryCanonical (doPowerOff s) := canonical_dropPins canonical_powerLoss

theorem canonical_shutdown {s : State} {latch : Monitor → Monitor} : MemoryCanonical (shutdown s latch) :=
  canonical_watchStatus (canonical_requestCold (canonical_dropPins canonical_powerLoss))

theorem canonical_doMarginal {s : State} (h : MemoryCanonical s) : MemoryCanonical (doMarginal s) :=
  canonical_assertAlert (.ite (canonical_logOnly h) h)

theorem canonical_doVauxLoss {s : State} : MemoryCanonical (doVauxLoss s) := canonical_dropPins canonical_powerLoss

theorem canonical_doThermalTrip {s : State} : MemoryCanonical (doThermalTrip s) :=
  canonical_emit canonical_shutdown

theorem canonical_smbWord {s : State} {v : Nat} (h : MemoryCanonical s) : MemoryCanonical (smbWord s v) :=
  canonical_emit h

theorem canonical_smbSense {s : State} (h : MemoryCanonical s) : MemoryCanonical (smbSense s) :=
  canonical_smbWord (canonical_freeNat h)

theorem canonical_smbDie {s : State} {v : Nat} (h : MemoryCanonical s) : MemoryCanonical (smbDie s v) :=
  canonical_emit h

theorem canonical_modAwl {s : State} {f : Awl → Awl} (h : MemoryCanonical s) : MemoryCanonical (modAwl s f) :=
  .of_mem h (modAwl_mem _ _)

theorem canonical_dropTrig {s : State} (h : MemoryCanonical s) : MemoryCanonical (dropTrig s) :=
  .ite (canonical_emit (canonical_modAwl h)) h

theorem canonical_awlSelect {s : State} (h : MemoryCanonical s) : MemoryCanonical (awlSelect s) := by
  unfold awlSelect
  refine .ite (canonical_modAwl (canonical_dropTrig h)) ?_
  split
  · exact canonical_logOnly (canonical_pgErr (canonical_modAwl (canonical_dropTrig h)))
  · exact canonical_modAwl h

theorem canonical_pinEdge {s : State} (h : MemoryCanonical s) : MemoryCanonical (pinEdge s) :=
  .ite (canonical_awlSelect (canonical_pageSafePoint h)) h

theorem canonical_trigEnd {s : State} (h : MemoryCanonical s) : MemoryCanonical (trigEnd s) := by
  unfold trigEnd
  split
  · exact .ite (canonical_dropTrig h) h
  · exact h

theorem canonical_trigRise {s : State} (h : MemoryCanonical s) : MemoryCanonical (trigRise s) := by
  unfold trigRise
  extract_lets t u
  have ht : MemoryCanonical t := canonical_emit (canonical_modAwl h)
  have hu : MemoryCanonical u := canonical_setReg (canonical_incReg ht)
  split
  · exact canonical_pmcEvent hu
  · exact hu

end Sys2Proof.Machine
end

