-- ==== Sys2Proof/Proofs/CanonicalStep.lean ====
section
/-! Memory stays canonical (O7): the functions of the lane instructions, register writes and the cycle, and the step itself. -/

namespace Sys2Proof.Machine

theorem canonical_emptyJump {gr : GroupRef} {s : State} {g' : Group} {target : Option Nat} (h : MemoryCanonical s) :
    (emptyJump gr s g' target).Canonical := by
  unfold emptyJump
  extract_lets t
  have ht : MemoryCanonical t := canonical_modGroup h
  split
  · exact .ite ht ht
  · exact ht

theorem canonical_noteDepth {s : State} {core depth : Nat} (h : MemoryCanonical s) :
    MemoryCanonical (noteDepth s core depth) := .ite (canonical_setReg h) h

theorem canonical_doPushm {gr : GroupRef} {f : FmtB} {s : State} {g : Group} (h : MemoryCanonical s) :
    (doPushm gr f s g).Canonical := .ite trivial (canonical_emptyJump (canonical_noteDepth (canonical_pmcEvent h)))

theorem canonical_doElsem {gr : GroupRef} {f : FmtB} {s : State} {g : Group} (h : MemoryCanonical s) :
    (doElsem gr f s g).Canonical := by
  unfold doElsem
  split
  · exact trivial
  · exact canonical_emptyJump h

theorem canonical_doPopm {gr : GroupRef} {s : State} {g : Group} (h : MemoryCanonical s) :
    (doPopm gr s g).Canonical := by
  unfold doPopm
  split
  · exact trivial
  · exact canonical_emptyJump h

theorem canonical_doAndm {gr : GroupRef} {f : FmtB} {s : State} {g : Group} (h : MemoryCanonical s) :
    (doAndm gr f s g).Canonical := .ite trivial (canonical_emptyJump h)

theorem canonical_setBar {s : State} {core : Nat} {g : Group} {b : Nat} {x : Barrier} (h : MemoryCanonical s) :
    MemoryCanonical (setBar s core g b x) := canonical_modCore h

theorem canonical_settleBar {s : State} {core : Nat} {g : Group} {b : Nat} (h : MemoryCanonical s) :
    MemoryCanonical (settleBar s core g b) := .ite (canonical_modCore (canonical_setBar h)) h

theorem canonical_settleBars {s : State} {core : Nat} {g : Group} {n : Nat} (h : MemoryCanonical s) :
    MemoryCanonical (settleBars s core g n) := by
  induction n with
  | zero => exact h
  | succ n ih => exact canonical_settleBar ih

theorem canonical_arrive {gr : GroupRef} {b : Nat} {s t : State} {g : Group} (h : MemoryCanonical s)
    (e : arrive gr b s g = some t) : MemoryCanonical t := by
  unfold arrive at e
  dsimp only at e
  split at e
  · cases e
  · cases e
    exact canonical_settleBar (canonical_setBar h)

theorem canonical_awaitBar {gr : GroupRef} {b : Nat} {s : State} {g : Group} (h : MemoryCanonical s) :
    MemoryCanonical (awaitBar gr b s g) := .ite (canonical_modGroup h) h

theorem canonical_doExit {gr : GroupRef} {f : FmtB} {s : State} {g : Group} (h : MemoryCanonical s) :
    (doExit gr f s g).Canonical := by
  unfold doExit
  refine .ite trivial ?_
  extract_lets _ _ _ _ t
  have ht : MemoryCanonical t := canonical_modGroup h
  exact .ite (canonical_coreProgress (canonical_settleBars ht)) (canonical_emptyJump h)

theorem canonical_doSerBegin {gr : GroupRef} {s : State} {g : Group} (h : MemoryCanonical s) :
    (doSerBegin gr s g).Canonical := .ite trivial (canonical_modGroup (canonical_pmcEvent h))

theorem canonical_doSerEnd {gr : GroupRef} {s : State} {g : Group} (h : MemoryCanonical s) :
    (doSerEnd gr s g).Canonical := by
  unfold doSerEnd
  split
  · exact trivial
  · exact .ite trivial (.ite (canonical_modGroup h) (canonical_modGroup (canonical_pmcEvent h)))

theorem canonical_doSavept {gr : GroupRef} {f : FmtB} {s : State} {g : Group} (h : MemoryCanonical s) :
    (doSavept gr f s g).Canonical := by
  unfold doSavept
  split
  · exact h
  · exact .ite h (.ite trivial (.ite (.ite h (canonical_modGroup h)) h))

theorem canonical_doOperandReady {s : State} {gr : GroupRef} {u : Upset} (h : MemoryCanonical s) :
    MemoryCanonical (doOperandReady s gr u) := by
  unfold doOperandReady
  extract_lets _ t
  have ht : MemoryCanonical t := canonical_modGroup h
  split
  · exact canonical_failCmd (canonical_sramError ht)
  · exact ht

theorem canonical_laneV {gr : GroupRef} {f : FmtR} {val : Group → Nat → Nat} {a : State} {a' : Group}
    (h : MemoryCanonical a) :
    (laneV gr f val a a').Canonical := canonical_onGroup h

theorem canonical_laneF {gr : GroupRef} {f : FmtR} {val : Group → Nat → Nat × Nat} {a : State} {a' : Group}
    (h : MemoryCanonical a) :
    (laneF gr f val a a').Canonical := canonical_onGroup h

theorem canonical_laneCmp {gr : GroupRef} {f : FmtR} {rel : Rel} {a : State} {a' : Group} (h : MemoryCanonical a) :
    (laneCmp gr f rel a a').Canonical := canonical_onGroup h

theorem canonical_laneP {gr : GroupRef} {f : FmtR} {op : Word → Word → Word} {a : State} {a' : Group}
    (h : MemoryCanonical a) :
    (laneP gr f op a a').Canonical := canonical_onGroup h

theorem canonical_laneX {gr : GroupRef} {f : FmtR} {from_ : Nat → Word → Option Nat} {a : State} {a' : Group}
    (h : MemoryCanonical a) :
    (laneX gr f from_ a a').Canonical := canonical_laneV h

theorem canonical_laneG {gr : GroupRef} {f : FmtR} {fop : Nat → List Num → Option Num} {fid : Nat}
    {iop : Int → Int → Int} {iid : Nat → Int} {a : State} {a' : Group} (h : MemoryCanonical a) :
    (laneG gr f fop fid iop iid a a').Canonical := canonical_onGroup h

theorem canonical_laneS {gr : GroupRef} {f : FmtR} {val : Group → Nat} {a : State} {a' : Group}
    (h : MemoryCanonical a) :
    (laneS gr f val a a').Canonical := canonical_onGroup h

theorem canonical_doSetmode {gr : GroupRef} {f : FmtR} {s : State} {g : Group} (h : MemoryCanonical s) :
    (doSetmode gr f s g).Canonical := .ite h (.ite trivial (canonical_modGroup h))

theorem canonical_doBlkEnc {gr : GroupRef} {f : FmtR} {s : State} {g : Group} (h : MemoryCanonical s) :
    (doBlkEnc gr f s g).Canonical := .ite trivial (canonical_modGroup h)

theorem canonical_doBlkDec {gr : GroupRef} {f : FmtR} {s : State} {g : Group} (h : MemoryCanonical s) :
    (doBlkDec gr f s g).Canonical := .ite trivial (canonical_modGroup h)

theorem canonical_applied {s : State} {page : Nat} (h : MemoryCanonical s) : MemoryCanonical (applied s page) :=
  .ite (canonical_awlSelect h) (.ite (canonical_passSteps h) h)

theorem canonical_doApply {s : State} {page : Nat} (h : MemoryCanonical s) : MemoryCanonical (doApply s page) := by
  unfold doApply
  extract_lets _ _ _ t u
  have ht : MemoryCanonical t := canonical_setRaw (.of_mem h rfl)
  have hu : MemoryCanonical u := .ite (canonical_modSlice ht) ht
  exact .ite (canonical_setRaw (.of_mem h rfl)) (.ite (canonical_applied (canonical_pageSafePoint hu)) hu)

theorem canonical_setCtlBit {s : State} {page n : Nat} {on : Bool} (h : MemoryCanonical s) :
    MemoryCanonical (setCtlBit s page n on) := canonical_setRaw h

theorem canonical_doHalt {s : State} {page : Nat} {on : Bool} (h : MemoryCanonical s) :
    MemoryCanonical (doHalt s page on) := by
  unfold doHalt
  refine .ite h ?_
  extract_lets t _ u
  have ht : MemoryCanonical t := canonical_setCtlBit h
  have hu : MemoryCanonical u := canonical_setRaw ht
  exact .ite ht (.ite (canonical_passSteps hu) hu)

theorem canonical_doResetReq {s : State} {page : Nat} (h : MemoryCanonical s) : MemoryCanonical (doResetReq s page) :=
  .ite h (.ite (canonical_raiseUnit h) (.ite (canonical_raiseUnit h) (.foldl
    (fun _ _ h => canonical_queueRecovery h) (canonical_raiseUnit h))))

theorem canonical_disablePort {s : State} {p : Nat} (h : MemoryCanonical s) : MemoryCanonical (disablePort s p) :=
  .ite h (canonical_endRecovery (.foldl (fun _ _ h => canonical_startReroute h) (canonical_modPort h)))

theorem canonical_doEnable {s : State} {page : Nat} {on : Bool} (h : MemoryCanonical s) :
    MemoryCanonical (doEnable s page on) := by
  unfold doEnable
  refine .ite h ?_
  extract_lets _ t
  have ht : MemoryCanonical t := canonical_setCtlBit h
  exact .ite (.ite (canonical_logOnly (canonical_pgErr h)) (.ite (canonical_modPort ht) ht)) (canonical_disablePort
    (canonical_setCtlBit h))

theorem canonical_doPgCtl {s : State} {page v : Nat} (h : MemoryCanonical s) :
    MemoryCanonical (doPgCtl s page v) := by
  unfold doPgCtl
  extract_lets t u v
  have ht : MemoryCanonical t := .ite (canonical_doApply h) h
  have hu : MemoryCanonical u := .ite ht (canonical_doHalt ht)
  have hv : MemoryCanonical v := .ite hu (canonical_doEnable hu)
  exact .ite (canonical_doResetReq hv) hv

theorem canonical_stage {s : State} {a v : Nat} (h : MemoryCanonical s) : MemoryCanonical (stage s a v) :=
  .of_mem h rfl

/-- Memory is canonical in the state that a register's own write leaves, where it has one. -/
def WriteCanonical : Option State → Prop
  | some s => MemoryCanonical s
  | none => True

theorem WriteCanonical.ite {c : Prop} [Decidable c] {w v : Option State} (hw : WriteCanonical w)
    (hv : WriteCanonical v) :
    WriteCanonical (if c then w else v) := by
  split
  · exact hw
  · exact hv

theorem canonical_writeSch {s : State} {r : RegDef} {v : Nat} (h : MemoryCanonical s) : WriteCanonical
    (writeSch s r v) := by
  unfold writeSch
  have staged {a n : Nat} : MemoryCanonical (stage s a n) := canonical_stage h
  have pool : MemoryCanonical (doSavepool s v) := canonical_doSavepool h
  have same {t : State} (e : t.mem = s.mem) : MemoryCanonical t := .of_mem h e
  exact .ite pool (.ite (MemoryCanonical.ite h staged) (.ite (same rfl) (.ite (same rfl) (.ite (same rfl) trivial))))

theorem canonical_writeSeq {s : State} {r : RegDef} {v : Nat} (h : MemoryCanonical s) : WriteCanonical
    (writeSeq s r v) := by
  unfold writeSeq
  exact .ite (MemoryCanonical.ite h (canonical_doModelEnable h))
    (.ite (MemoryCanonical.ite (canonical_busyWrite h) (canonical_setRaw h)) trivial)

theorem canonical_writeFwuCtl {s : State} {v : Nat} (h : MemoryCanonical s) : MemoryCanonical (writeFwuCtl s v) :=
  .ite (canonical_fwuBusy h) (.ite (canonical_doStage h) (.ite (canonical_doCommitUpdate h) (.ite
    (canonical_doCancel h) (.ite (canonical_doFlash h) h))))

theorem canonical_writeSpecial {s : State} {r : RegDef} {i v : Nat} (h : MemoryCanonical s) :
    WriteCanonical (writeSpecial s r i v) := by
  unfold writeSpecial
  refine .ite (canonical_ctlWrite (u := .l1 i) (v := v) h) <| .ite (canonical_ctlWrite (u := .l2 i) (v := v) h) <|
    .ite (MemoryCanonical.ite (canonical_clearKept (i := i) h) h) <| .ite (canonical_doTopoLoad (v := v) h) <|
    .ite (MemoryCanonical.ite (canonical_setReg h) (canonical_busyWrite (page := pgHNS 0) h)) <|
    .ite (canonical_doFmtWrite (v := v) h) <| .ite (canonical_doFresp (v := BitVec.ofNat 64 v) h) <| .ite
      (canonical_ringInv (n := v) h) <|
    .ite (canonical_doIpv4 (v := v) h) <| .ite (canonical_clearFaultInfo h) <| .ite (canonical_doCalInstall
      (v := v) h) <|
    .ite (canonical_stage h) <| .ite (canonical_doErrHead (v := v) h) <| .ite (MemoryCanonical.ite
      (canonical_hostWarm h) h) <|
    .ite (canonical_doGo (v := v) h) <| .ite (canonical_writeFwuCtl (v := v) h) <| .ite (canonical_setReg h) <|
    .ite (canonical_writeSch h) <| .ite (canonical_writeSeq h) trivial

theorem canonical_writeReg {s : State} {page : Nat} {r : RegDef} {i v : Nat} (h : MemoryCanonical s) :
    MemoryCanonical (writeReg s page r i v) := by
  have special := canonical_writeSpecial (r := r) (i := i) (v := v) h
  unfold writeReg
  split <;> rename_i e
  · rw [e] at special
    exact special
  · split
    · exact h
    · exact h
    · exact canonical_setReg h
    · exact canonical_stage h
    · exact .ite (canonical_setReg h) (canonical_busyWrite h)
    · exact canonical_setReg h

theorem canonical_pmcClearAll {s : State} {page : Nat} (h : MemoryCanonical s) :
    MemoryCanonical (pmcClearAll s page) := .foldl (fun _ _ h => canonical_setRaw h) h

theorem canonical_writeHeader {s : State} {page off v : Nat} (h : MemoryCanonical s) :
    MemoryCanonical (writeHeader s page off v) :=
  .ite (.ite (canonical_setRaw h) h) (.ite (.ite (canonical_setRaw h) h) (.ite (canonical_setRaw h) (.ite
    (canonical_doPgCtl h) h)))

theorem canonical_writePmc {s : State} {page off v : Nat} (h : MemoryCanonical s) :
    MemoryCanonical (writePmc s page off v) :=
  .ite (.ite (canonical_pmcClearAll (canonical_setRaw h)) (canonical_setRaw h)) (.ite (canonical_setRaw h) (.ite
    (canonical_setRaw h) h))

theorem canonical_writeAt {s : State} {a v : Nat} (h : MemoryCanonical s) : MemoryCanonical (writeAt s a v) := by
  unfold writeAt
  extract_lets
  refine .ite h (.ite (canonical_writeHeader h) ?_)
  refine .ite h (.ite (canonical_setRaw h) (.ite (canonical_writePmc h) ?_))
  split
  · exact canonical_writeReg h
  · exact h

theorem canonical_writeValue {s : State} {a size v : Nat} (h : MemoryCanonical s) :
    MemoryCanonical (writeValue s a size v) :=
  .ite (.ite (canonical_writeAt h) (canonical_writeAt (canonical_writeAt h))) (canonical_writeAt h)

theorem canonical_performWrite {s : State} {t a size v : Nat} (h : MemoryCanonical s) :
    MemoryCanonical (performWrite s t a size v) := canonical_pmcEvent (canonical_writeValue (canonical_emit h))

theorem canonical_windowWrite {s : State} {t a size v : Nat} (h : MemoryCanonical s) :
    MemoryCanonical (windowWrite s t a size v) :=
  .ite (canonical_performWrite h) (canonical_hptLog (canonical_emit h))

theorem canonical_performAccess {s : State} {t a size : Nat} {value : DWord} (h : MemoryCanonical s) :
    MemoryCanonical (performAccess s t a size value) :=
  .ite (canonical_doDoorbell h) (.ite (canonical_nakAccess h) (.ite (canonical_nakInvalid h) (.ite
    (canonical_windowWrite h) (canonical_performWrite h))))

theorem canonical_doRegisterWrite {s : State} {t a size : Nat} {value : DWord} (h : MemoryCanonical s) :
    MemoryCanonical (doRegisterWrite s t a size value) := .ite (canonical_park h) (canonical_performAccess h)

theorem canonical_ctlField {s : State} {t page n : Nat} {on : Bool} {f : State → State} (h : MemoryCanonical s)
    (hf : ∀ s, MemoryCanonical s → MemoryCanonical (f s)) :
    MemoryCanonical (ctlField s t page n on f) :=
  .ite (canonical_park h) (canonical_mgmtWrite h (fun _ h => .ite (hf _ h) h))

theorem canonical_doPmcClear {s : State} {t page : Nat} (h : MemoryCanonical s) :
    MemoryCanonical (doPmcClear s t page) :=
  .ite (canonical_park h) (canonical_mgmtWrite h (fun _ h => .ite (canonical_pmcClearAll h) h))

theorem canonical_dropAccess {s : State} {p : Parked} (h : MemoryCanonical s) : MemoryCanonical (dropAccess s p) :=
  canonical_hptLog (canonical_emit (.of_mem h rfl))

theorem canonical_doBadOp {s : State} {r : Request} (h : MemoryCanonical s) : MemoryCanonical (doBadOp s r) :=
  canonical_refuse h

theorem canonical_performCall {s : State} {p : Parked} (h : MemoryCanonical s) :
    MemoryCanonical (performCall s p) := by
  unfold performCall
  split
  · exact canonical_doCreateTenant h
  · exact canonical_doDestroyTenant h
  · exact canonical_doCreateContext h
  · exact canonical_doTeardownContext h
  · exact canonical_doCreateQueue h
  · exact canonical_doDestroyQueue h
  · exact canonical_doCreateFence h
  · exact canonical_doDestroyFence h
  · exact canonical_doSignalFence h
  · exact canonical_doPoisonFence h
  · exact canonical_doShareFence h
  · exact canonical_doCreateObject h
  · exact canonical_doMapObject h
  · exact canonical_doUnmap h
  · exact canonical_doMapRemote h
  · exact canonical_doShareObject h
  · exact canonical_doBadOp h
  · exact .ite (canonical_performAccess h) h
  · exact canonical_mgmtWrite h (fun _ h => canonical_fwuCtl h (fun _ h => canonical_doDesc h))
  · exact canonical_mgmtWrite h (fun _ h => .ite (canonical_drainCache h) h)
  · exact canonical_mgmtWrite h (fun _ h => .ite (canonical_startInv h) h)
  · exact canonical_mgmtWrite h (fun _ h => .ite (canonical_enableCache h) h)
  · exact canonical_mgmtWrite h (fun _ h => .ite (canonical_doModelEnable h) h)
  · exact .ite (canonical_doDoorbell h) h
  · exact .ite (canonical_doFtmNowRead h) h
  · exact .ite (canonical_doRefcountRead h) h
  · exact .ite (canonical_doRefcountFetchAdd h) h
  · exact .ite (canonical_doRefcountCas h) h
  · exact .ite (canonical_nakAccess h) h
  · exact .ite (canonical_doObjectRead h) h
  · exact .ite (canonical_doObjectWrite h) h
  · exact .ite (canonical_doObjectAtomic h) h

theorem canonical_performWaiting {l : List Parked} {s : State} (h : MemoryCanonical s) :
    MemoryCanonical (performWaiting l s) := by
  induction l generalizing s with
  | nil => exact h
  | cons p l ih => exact ih (.ite (.of_mem h rfl) (canonical_performCall h))

theorem canonical_pumpParked {s : State} (h : MemoryCanonical s) : MemoryCanonical (pumpParked s) :=
  canonical_performWaiting (.of_mem h rfl)

theorem canonical_serveAgain {s : State} (h : MemoryCanonical s) : MemoryCanonical (serveAgain s) :=
  canonical_pumpParked (canonical_modBoot h)

theorem canonical_doClusterBack {s : State} (h : MemoryCanonical s) : MemoryCanonical (doClusterBack s) :=
  canonical_serveAgain (canonical_endRecovery (canonical_modErr (canonical_endDump h)))

theorem canonical_doHandoffResume {s : State} (h : MemoryCanonical s) : MemoryCanonical (doHandoffResume s) :=
  canonical_serveAgain (canonical_modFwu (canonical_modBoot h))

theorem canonical_doHandoffExpired {s : State} (h : MemoryCanonical s) : MemoryCanonical (doHandoffExpired s) :=
  canonical_serveAgain (canonical_modFwu (canonical_revert h))

theorem canonical_tickDoms {s : State} (h : MemoryCanonical s) : MemoryCanonical (tickDoms s) :=
  .of_mem (.ite h (canonical_pmcEvent h)) rfl

theorem canonical_tickFt {s : State} (h : MemoryCanonical s) : MemoryCanonical (tickFt s) := .ite (.of_mem h rfl) h

theorem canonical_tickGroups {s : State} (h : MemoryCanonical s) : MemoryCanonical (tickGroups s) := .of_mem h rfl

theorem canonical_addCoreTime {s : State} {tenant cls n : Nat} (h : MemoryCanonical s) :
    MemoryCanonical (addCoreTime s tenant cls n) := .of_mem h rfl

theorem canonical_chargeCore {n : Nat} {s : State} {cmd : Nat} (h : MemoryCanonical s) :
    MemoryCanonical (chargeCore n s cmd) := by
  unfold chargeCore
  split
  · exact canonical_addCoreTime (canonical_modAcct h)
  · exact h

theorem canonical_chargeArray {s : State} {a : ArrayState} (h : MemoryCanonical s) :
    MemoryCanonical (chargeArray s a) := by
  unfold chargeArray
  split
  · exact canonical_modAcct h
  · exact h

theorem canonical_chargeTime {s : State} {e : Nat × CoreSt} (h : MemoryCanonical s) :
    MemoryCanonical (chargeTime s e) := canonical_chargeArray (.foldl (fun _ _ h => canonical_chargeCore h) h)

theorem canonical_countIdle {s : State} {page : Nat} (h : MemoryCanonical s) : MemoryCanonical (countIdle s page) :=
  .ite (canonical_pmcEvent h) h

theorem canonical_countPage {s : State} {page : Nat} (h : MemoryCanonical s) : MemoryCanonical (countPage s page) :=
  canonical_pmcEvent (canonical_pmcEvent (canonical_countIdle h))

theorem canonical_tickJack {s : State} (h : MemoryCanonical s) : MemoryCanonical (tickJack s) :=
  canonical_modErr (.of_mem h rfl)

theorem canonical_poweredTick {s : State} (h : MemoryCanonical s) : MemoryCanonical (poweredTick s) := by
  unfold poweredTick
  extract_lets t u v w x
  have ht : MemoryCanonical t := canonical_trigEnd (canonical_pinEdge h)
  have hu : MemoryCanonical u := canonical_tickJack (.foldl (fun _ _ h => canonical_chargeTime h) ht)
  have hv : MemoryCanonical v := .foldl (fun _ _ h => canonical_countPage h) hu
  have hw : MemoryCanonical w := .ite (canonical_pumpMovers (canonical_pumpTranslate hv)) hv
  have hx : MemoryCanonical x := .ite hw (canonical_pumpParked hw)
  exact canonical_tickFt (canonical_tickDoms (canonical_tickGroups hx))

theorem canonical_tick {s : State} (h : MemoryCanonical s) : MemoryCanonical (tick s) :=
  .of_mem (.ite (canonical_poweredTick h) h) rfl

/-! ### The commands -/

theorem canonical_issue {gr : GroupRef} {i : Instr} {body : State → Group → LaneRes} {s : State}
    (h : MemoryCanonical s)
    (hf : ∀ s g, MemoryCanonical s → (body s g).Canonical) : OutcomeCanonical (issue gr i body s) := by
  unfold issue
  refine .ite ?_ (canonical_laterFault h)
  split
  · exact canonical_runInstr h hf
  · exact h

theorem canonical_execBarArrive {g : GroupRef} {f : FmtB} {s : State} (h : MemoryCanonical s) :
    OutcomeCanonical (execBarArrive g f s) := by
  refine canonical_issue h fun _ _ h => .ite trivial ?_
  split
  · exact canonical_arrive h ‹_›
  · exact trivial

theorem canonical_execBarSync {g : GroupRef} {f : FmtB} {s : State} (h : MemoryCanonical s) :
    OutcomeCanonical (execBarSync g f s) := by
  refine canonical_issue h fun _ _ h => .ite trivial ?_
  split
  · exact canonical_awaitBar (canonical_arrive h ‹_›)
  · exact trivial

theorem canonical_execLdwStart {core : Nat} {s : State} (h : MemoryCanonical s) :
    OutcomeCanonical (execLdwStart core s) := by
  unfold execLdwStart
  split
  · exact .ite (canonical_doLdwStart h) h
  · exact h

theorem canonical_execLdwComplete {core : Nat} {u : Upset} {s : State} (h : MemoryCanonical s) :
    OutcomeCanonical (execLdwComplete core u s) := by
  unfold execLdwComplete
  split
  · exact .ite (MemoryCanonical.ite (canonical_arrEcc h) (canonical_doLdwComplete h)) (canonical_scrUpset h
      (fun _ h => canonical_doLdwComplete h))
  · exact h

theorem canonical_execSwapMarkerEnter {core : Nat} {s : State} (h : MemoryCanonical s) :
    OutcomeCanonical (execSwapMarkerEnter core s) := by
  unfold execSwapMarkerEnter
  split
  · exact .ite (canonical_doSwapEnter h) h
  · exact h

theorem canonical_execSwapComplete {core : Nat} {s : State} (h : MemoryCanonical s) :
    OutcomeCanonical (execSwapComplete core s) := by
  unfold execSwapComplete
  split
  · exact canonical_doSwapComplete h
  · exact h

theorem canonical_execStreamStart {core : Nat} {u : Upset} {s : State} (h : MemoryCanonical s) :
    OutcomeCanonical (execStreamStart core u s) := by
  unfold execStreamStart
  split
  · exact .ite (.ite (canonical_doStreamStart h) (canonical_scrUpset h (fun _ h => canonical_doStreamStart h))) h
  · exact h

theorem canonical_execAccRowWrite {core : Nat} {u : Upset} {s : State} (h : MemoryCanonical s) :
    OutcomeCanonical (execAccRowWrite core u s) := by
  unfold execAccRowWrite
  split
  · exact .ite (.ite (canonical_sramError (canonical_dropGhost h)) (canonical_arrEcc h)) (canonical_doRowWrite h)
  · exact h

theorem canonical_execStreamComplete {core : Nat} {s : State} (h : MemoryCanonical s) :
    OutcomeCanonical (execStreamComplete core s) := by
  unfold execStreamComplete
  split
  · exact canonical_doStreamComplete h
  · exact h

theorem canonical_execRampEnd {core : Nat} {s : State} (h : MemoryCanonical s) :
    OutcomeCanonical (execRampEnd core s) := by
  unfold execRampEnd
  split
  · exact .ite (canonical_modCore (canonical_pmcEvent h)) h
  · exact h

theorem canonical_execWaitQRelease {core : Nat} {s : State} (h : MemoryCanonical s) :
    OutcomeCanonical (execWaitQRelease core s) := by
  unfold execWaitQRelease
  split
  · exact .ite (canonical_arrDone h) h
  · exact h

theorem canonical_execDrainDispatch {core : Nat} {u : Upset} {s : State} (h : MemoryCanonical s) :
    OutcomeCanonical (execDrainDispatch core u s) := by
  unfold execDrainDispatch
  split
  · exact .ite (canonical_scrUpset h (fun _ h => canonical_doDrainDispatch h)) h
  · exact h

theorem canonical_execDrainRow {core : Nat} {u : Upset} {s : State} (h : MemoryCanonical s) :
    OutcomeCanonical (execDrainRow core u s) := by
  unfold execDrainRow
  split
  · exact .ite (canonical_arrEcc (canonical_modCore h)) (canonical_doDrainRow h)
  · exact h

theorem canonical_execDrainComplete {core : Nat} {s : State} (h : MemoryCanonical s) :
    OutcomeCanonical (execDrainComplete core s) := by
  unfold execDrainComplete
  split
  · exact canonical_doDrainComplete h
  · exact h

theorem canonical_execL2MbufTimeout {slice line : Nat} {u : Upset} {s : State} (h : MemoryCanonical s) :
    OutcomeCanonical (execL2MbufTimeout slice line u s) := by
  unfold execL2MbufTimeout
  refine .ite ?_ ?_
  · split
    · exact canonical_loseL2Entry h
    · exact h
  · split
    · exact canonical_sendL2Entry h
    · exact h

theorem canonical_execPairAcquire {cmd : Nat} {hdr : Option BlockHdr} {s : State} (h : MemoryCanonical s) :
    OutcomeCanonical (execPairAcquire cmd hdr s) := by
  unfold execPairAcquire
  split
  · exact canonical_onCtl h (fun _ h => canonical_claimGranted h)
  · exact .ite (canonical_doPairAcquire h) h

theorem canonical_execDescriptorReadReturn {queue : Nat} {data : List Byte} {s : State} (h : MemoryCanonical s) :
    OutcomeCanonical (execDescriptorReadReturn queue data s) := by
  unfold execDescriptorReadReturn
  split
  · exact canonical_doReadReturn h
  · exact h

theorem canonical_execChannelAccess {stack channel : Nat} {o : HbmOutcome} {s : State} (h : MemoryCanonical s) :
    OutcomeCanonical (execChannelAccess stack channel o s) := by
  unfold execChannelAccess
  split
  · exact .ite h (canonical_doChan h)
  · exact h

theorem canonical_execReducerRequest {stack channel : Nat} {o : HbmOutcome} {s : State} (h : MemoryCanonical s) :
    OutcomeCanonical (execReducerRequest stack channel o s) := by
  unfold execReducerRequest
  split
  · exact .ite (canonical_doChan h) h
  · exact h

theorem canonical_execReductionResult {req : Nat} {s : State} (h : MemoryCanonical s) :
    OutcomeCanonical (execReductionResult req s) := by
  unfold execReductionResult
  split
  · exact canonical_doResult h
  · exact h

theorem canonical_execSpareSwitchDone {stack channel : Nat} {s : State} (h : MemoryCanonical s) :
    OutcomeCanonical (execSpareSwitchDone stack channel s) := by
  unfold execSpareSwitchDone
  split
  · exact canonical_doSpareDone h
  · exact h

theorem canonical_execTimeResponse {hdr : BlockHdr} {state seq t2 t3 creq crsp : Nat} {s : State}
    (h : MemoryCanonical s) :
    OutcomeCanonical (execTimeResponse hdr state seq t2 t3 creq crsp s) := by
  unfold execTimeResponse
  refine canonical_onLink h (fun _ h => ?_)
  split
  · exact canonical_doTimeResponse h
  · exact h

theorem canonical_execGangGo {hdr : BlockHdr} {gang : Nat} {s : State} (h : MemoryCanonical s) :
    OutcomeCanonical (execGangGo hdr gang s) := by
  unfold execGangGo
  refine canonical_onCtl h (fun _ h => ?_)
  split
  · exact .ite (canonical_gangCommitLocal (.of_mem h rfl)) h
  · exact h

theorem canonical_execTimeExchangeTimeout {s : State} (h : MemoryCanonical s) :
    OutcomeCanonical (execTimeExchangeTimeout s) := by
  unfold execTimeExchangeTimeout
  split
  · exact canonical_doExchangeFail h
  · exact h

theorem canonical_execSlotStart {port : Nat} {s : State} (h : MemoryCanonical s) :
    OutcomeCanonical (execSlotStart port s) := by
  unfold execSlotStart
  split
  · exact .ite h (canonical_doSlotStart h)
  · exact h

theorem canonical_execSeqStepRelease {templates : List (Nat × Descriptor × Descriptor)} {s : State}
    (h : MemoryCanonical s) :
    OutcomeCanonical (execSeqStepRelease templates s) := by
  unfold execSeqStepRelease
  split
  · exact canonical_doStepRelease h
  · exact h

theorem canonical_execSeqStepEnd {model : Nat} {results : List (Nat × Nat)} {s : State} (h : MemoryCanonical s) :
    OutcomeCanonical (execSeqStepEnd model results s) := by
  unfold execSeqStepEnd
  split
  · exact .ite (canonical_doStepEnd h) h
  · exact h

theorem canonical_execSeqAdmit {queue : Nat} {s : State} (h : MemoryCanonical s) :
    OutcomeCanonical (execSeqAdmit queue s) := by
  unfold execSeqAdmit
  split
  · refine .ite h ?_
    extract_lets t
    have ht : MemoryCanonical t := canonical_takeAdmission h
    exact MemoryCanonical.ite (canonical_doAdmit ht) (canonical_refuseEntry ht)
  · exact h

theorem canonical_execPause {queue : Nat} {s : State} (h : MemoryCanonical s) :
    OutcomeCanonical (execPause queue s) := by
  unfold execPause
  split
  · exact .ite (canonical_doPause (canonical_takeAdmission h)) h
  · exact h

theorem canonical_execResume {queue : Nat} {s : State} (h : MemoryCanonical s) :
    OutcomeCanonical (execResume queue s) := by
  unfold execResume
  split
  · exact .ite (canonical_doResume (canonical_takeAdmission h)) h
  · exact h

theorem canonical_execRelease {queue : Nat} {s : State} (h : MemoryCanonical s) :
    OutcomeCanonical (execRelease queue s) := by
  unfold execRelease
  split
  · exact .ite (canonical_doRelease (canonical_takeAdmission h)) h
  · exact h

theorem canonical_execContextSaveDone {cmd : Nat} {s : State} (h : MemoryCanonical s) :
    OutcomeCanonical (execContextSaveDone cmd s) := by
  unfold execContextSaveDone
  split
  · split
    · exact .ite (canonical_doSaveDone h) h
    · exact h
  · exact h

theorem canonical_execEmuAccessTimeout {access : Nat} {s : State} (h : MemoryCanonical s) :
    OutcomeCanonical (execEmuAccessTimeout access s) := by
  unfold execEmuAccessTimeout
  split
  · exact canonical_dropAccess h
  · exact h

theorem canonical_execRecoveryStart {s : State} (h : MemoryCanonical s) : OutcomeCanonical (execRecoveryStart s) := by
  unfold execRecoveryStart
  split
  · exact canonical_beginRecovery h
  · exact h

theorem canonical_execRecoveryTimeout {s : State} (h : MemoryCanonical s) :
    OutcomeCanonical (execRecoveryTimeout s) := by
  unfold execRecoveryTimeout
  split
  · exact canonical_escalate h
  · exact h

theorem canonical_execSuspectReplay {s : State} (h : MemoryCanonical s) : OutcomeCanonical (execSuspectReplay s) := by
  unfold execSuspectReplay
  split
  · exact .ite (canonical_pmcEvent (canonical_modErr h)) h
  · exact h

theorem canonical_execWarmReset {s : State} (h : MemoryCanonical s) : OutcomeCanonical (execWarmReset s) := by
  unfold execWarmReset
  split
  · exact .ite (MemoryCanonical.ite (canonical_haltStorm h) (canonical_doWarmReset h)) h
  · exact h

theorem canonical_execFrameSend {port : Nat} {s : State} (h : MemoryCanonical s) :
    OutcomeCanonical (execFrameSend port s) := by
  unfold execFrameSend
  refine .ite ?_ h
  split
  · exact canonical_sendFrame h
  · exact canonical_countStall h

theorem canonical_exec {i : Instr} {s : State} (h : MemoryCanonical s) : OutcomeCanonical (exec i s) := by
  cases i with
  | illegalInstruction => exact canonical_issue h (fun _ _ h => trivial)
  | addI | subI | mulI | madI | minI | maxI | and | or | xor | andn | shl | shr | sar | ones | bitrev | lzc =>
    exact canonical_issue h (fun _ _ h => canonical_laneV h)
  | addF | subF | mulF | madF | minF | maxF | minnumF | maxnumF | recip | rsqrt | exp2 | log2 | sin | cos =>
    exact canonical_issue h (fun _ _ h => canonical_laneF h)
  | cmpEq | cmpNe | cmpLt | cmpLe | cmpGt | cmpGe => exact canonical_issue h (fun _ _ h => canonical_laneCmp h)
  | pick => exact canonical_issue h (fun _ _ h => canonical_laneV h)
  | pcombAnd | pcombOr | pcombXor | pcombAndn | pcombNot => exact canonical_issue h (fun _ _ h => canonical_laneP h)
  | xlaneAt | xlaneUp | xlaneDn | xlaneFlip => exact canonical_issue h (fun _ _ h => canonical_laneX h)
  | pmask => exact canonical_issue h (fun _ _ h => canonical_onGroup h)
  | gredAdd | gredMin | gredMax => exact canonical_issue h (fun _ _ h => canonical_laneG h)
  | addS | subS | mulS | shlS | shrS | sarS | andS | orS | xorS => exact canonical_issue h (fun _ _ h => canonical_laneS h)
  | movVs => exact canonical_issue h (fun _ _ h => canonical_laneV h)
  | movSv => exact canonical_issue h (fun _ _ h => canonical_laneS h)
  | cvt => exact canonical_issue h (fun _ _ h => canonical_laneF h)
  | cvtBlkEnc => exact canonical_issue h (fun _ _ h => canonical_doBlkEnc h)
  | cvtBlkDec => exact canonical_issue h (fun _ _ h => canonical_doBlkDec h)
  | setmode => exact canonical_issue h (fun _ _ h => canonical_doSetmode h)
  | getmode => exact canonical_issue h (fun _ _ h => canonical_laneS h)
  | ld => exact canonical_issue h (fun _ _ h => canonical_doLd h)
  | st => exact canonical_issue h (fun _ _ h => canonical_doSt h)
  | prefetch => exact canonical_issue h (fun _ _ h => canonical_doPrefetch h)
  | ldsc => exact canonical_issue h (fun _ _ h => canonical_doLdsc h)
  | atomAddI32 | atomAddI64 | atomAddF32 | atomAddF16x2 | atomMinI32 | atomMaxI32 | atomMinF32 | atomMaxF32
  | atomSwap32 | atomSwap64 | atomCas64 => exact canonical_issue h (fun _ _ h => canonical_doAtom h)
  | fence => exact canonical_issue h (fun _ _ h => canonical_doFence h)
  | bra => exact canonical_issue h (fun _ _ h => h)
  | braAny | braAll => exact canonical_issue h (fun _ _ h => .ite h h)
  | pushm => exact canonical_issue h (fun _ _ h => canonical_doPushm h)
  | elsem => exact canonical_issue h (fun _ _ h => canonical_doElsem h)
  | popm => exact canonical_issue h (fun _ _ h => canonical_doPopm h)
  | andm => exact canonical_issue h (fun _ _ h => canonical_doAndm h)
  | exit => exact canonical_issue h (fun _ _ h => canonical_doExit h)
  | serBegin => exact canonical_issue h (fun _ _ h => canonical_doSerBegin h)
  | serEnd => exact canonical_issue h (fun _ _ h => canonical_doSerEnd h)
  | call => exact canonical_issue h (fun _ _ h => canonical_modGroup h)
  | ret => exact canonical_issue h (fun _ _ h => h)
  | barArrive => exact canonical_execBarArrive h
  | barWait => exact canonical_issue h (fun _ _ h => .ite trivial (canonical_awaitBar h))
  | barSync => exact canonical_execBarSync h
  | savept => exact canonical_issue h (fun _ _ h => canonical_doSavept h)
  | mxLdw | mxLdwReorient | mxSwap | mxStream | mxDrain | mxWaitQ =>
    exact canonical_issue h (fun _ _ h => canonical_queueMx h)
  | mxWaitG => exact canonical_issue h (fun _ _ h => canonical_doWaitG h)
  | branchPenaltyEnd => exact .ite (canonical_modGroup h) h
  | loadDataReturn => exact .ite (canonical_doLoadReturn h) h
  | atomReturn => exact .ite (canonical_doAtomReturn h) h
  | fenceRelease => exact .ite (canonical_modGroup h) h
  | groupSlotFree => exact .ite (canonical_doSlotFree h) h
  | scratchAllocate => exact .ite (canonical_doScratchAllocate h) h
  | groupLaunch => exact .ite (canonical_doGroupLaunch h) h
  | scratchFree => exact .ite (canonical_modCore h) h
  | scratchAccessPromote => exact .ite (canonical_doPromote h) h
  | ldwStart => exact canonical_execLdwStart h
  | ldwComplete => exact canonical_execLdwComplete h
  | swapMarkerEnter => exact canonical_execSwapMarkerEnter h
  | swapComplete => exact canonical_execSwapComplete h
  | streamStart => exact canonical_execStreamStart h
  | accRowWrite => exact canonical_execAccRowWrite h
  | streamComplete => exact canonical_execStreamComplete h
  | arrayIdleTimeout => exact .ite (canonical_modCore h) h
  | rampEnd => exact canonical_execRampEnd h
  | waitQRelease => exact canonical_execWaitQRelease h
  | drainDispatch => exact canonical_execDrainDispatch h
  | drainRow => exact canonical_execDrainRow h
  | drainComplete => exact canonical_execDrainComplete h
  | mergeEntryTimeout => exact .ite (canonical_loseEntry h) (.ite (canonical_sendEntry h) h)
  | egressAccept => exact .ite (canonical_doEgress h) h
  | l1Fill => exact .ite (canonical_doFill h) h
  | l2Lookup => exact .ite (canonical_doLookup h) h
  | l2MbufTimeout => exact canonical_execL2MbufTimeout h
  | cacheDisable => exact canonical_mgmtWrite h (fun _ h => .ite (canonical_drainCache h) h)
  | cacheDrainEnd => exact .ite (canonical_endDrain h) h
  | cacheInvalidate => exact canonical_mgmtWrite h (fun _ h => .ite (canonical_startInv h) h)
  | cacheInvalidateDone => exact .ite (canonical_endInv h) h
  | cacheEnable => exact canonical_mgmtWrite h (fun _ h => .ite (canonical_enableCache h) h)
  | l2cKeepClear => exact canonical_mgmtWrite h (fun _ h => .ite (canonical_clearKept h) h)
  | moverDispatch => exact .ite (canonical_doMoverDispatch h) h
  | moverTileAccepted => exact .ite (canonical_doTile h) h
  | pairAcquire => exact canonical_execPairAcquire h
  | frameCopyDone => exact .ite (canonical_doCopy h) h
  | commitPoint => exact .ite (canonical_doCommitPoint h) (.ite (canonical_failCmd h) h)
  | commitAck => exact canonical_onCtl h (fun _ h => .ite (canonical_doCommitAck h) h)
  | commitAckTimeout => exact .ite (canonical_commitLose (canonical_setDest h)) h
  | commitRecordExpire => exact .ite (canonical_doRecordExpire h) h
  | heldPairExpire => exact .ite (canonical_discardHeld h) h
  | gangMemberReady => exact .ite (canonical_doGangMemberReady h) h
  | gangWaitExpire => exact .ite (canonical_gangAbandon h) h
  | gangMemoryExpire => exact .ite (.of_mem h rfl) h
  | descriptorReadReturn => exact canonical_execDescriptorReadReturn h
  | doorbell => exact .ite (canonical_doDoorbell h) (.ite (canonical_park h) h)
  | descriptorTake => exact .ite (canonical_doTake h) h
  | pretranslateDone => exact .ite (canonical_doPretransDone h) h
  | dispatch => exact .ite (canonical_doDispatch (canonical_schSafePoints h)) h
  | walkEntryReturn => exact .ite (canonical_pumpMovers (canonical_doWalkEntry h)) h
  | walkTimeout => exact .ite (canonical_doWalkTimeout h) h
  | faultRecordPost => exact .ite (canonical_doFaultPost h) h
  | xltFringHeadWrite => exact canonical_mgmtWrite h (fun _ h => canonical_setReg h)
  | xltFresp => exact canonical_mgmtWrite h (fun _ h => canonical_doFresp h)
  | faultSvcTimeout => exact .ite (canonical_doSvcTimeout h) h
  | xltIringDb => exact canonical_mgmtWrite h (fun _ h => canonical_ringInv h)
  | invalidationEntry => exact .ite (canonical_doInvalidation h) h
  | xltIringDone => exact .ite (canonical_doInvDone h) h
  | xltFmtWrite => exact canonical_mgmtWrite h (fun _ h => canonical_doFmtWrite h)
  | channelAccess => exact canonical_execChannelAccess h
  | reducerRequest => exact canonical_execReducerRequest h
  | reductionResult => exact canonical_execReductionResult h
  | l2Atomic => exact .ite (canonical_doL2Atomic h) h
  | hbmTemperatureRead => exact .ite (canonical_doTemp h) h
  | spareSwitchStart => exact .ite (canonical_modChan h) h
  | spareSwitchDone => exact canonical_execSpareSwitchDone h
  | channelResetDone => exact .ite (canonical_doChanResetDone h) h
  | patrolScrub => exact .ite (canonical_doPatrol h) h
  | topoLoad => exact canonical_mgmtWrite h (fun _ h => canonical_doTopoLoad h)
  | topoLoadDone => exact .ite (canonical_doTopoLoadDone h) h
  | peerVerified => exact .ite (canonical_doVerified h) h
  | ack => exact canonical_onLink h (fun _ h => canonical_performedTo h)
  | nak => exact canonical_onLink h (fun _ h => canonical_doNak h)
  | heartbeat => exact canonical_onLink h (fun _ h => h)
  | timeRequest => exact .ite (canonical_onLink h (fun _ h => canonical_sendTime h)) h
  | timeResponse => exact canonical_execTimeResponse h
  | write | writeMasked | reduce | atomic => exact .ite (canonical_orderedIn h) h
  | read => exact .ite (canonical_onData h (fun _ h => canonical_peerRead (canonical_settleIn h))) h
  | readResp => exact canonical_onResponse h (fun _ _ h => canonical_readBack h)
  | atomicResp => exact canonical_onResponse h (fun _ _ h => canonical_atomsBack h)
  | refused => exact canonical_onData h (fun _ h => canonical_doRefused (canonical_settleIn h))
  | reservedBlockType => exact .ite (canonical_countBad h) h
  | announcement => exact .ite (canonical_doAnnouncement h) h
  | reset => exact canonical_onCtl h (fun _ h => canonical_losePeer h)
  | rejoin => exact .ite (canonical_doRejoin h) h
  | rejoinAck => exact .ite (canonical_doRejoinAck h) h
  | rejoinEnd => exact canonical_onCtl h (fun _ h => canonical_doRejoinEnd h)
  | reroute => exact canonical_onCtl h (fun _ h => .ite h (canonical_startReroute h))
  | claim => exact canonical_onCtl h (fun _ h => canonical_claimArrive h)
  | commit => exact canonical_onCtl h (fun _ h => canonical_tokenIn h)
  | discard => exact canonical_onCtl h (fun _ h => .ite (canonical_tokenIn h) (canonical_discardForArrive h))
  | mapRequest => exact canonical_onCtl h (fun _ h => canonical_sendCtl (canonical_mapGrant h))
  | mapAnswer => exact canonical_onCtl h (fun _ h => canonical_doMapAnswer h)
  | mapRelease => exact canonical_onCtl h (fun _ h => canonical_doMapRelease h)
  | gangArrived => exact canonical_onCtl h (fun _ h => canonical_gangArrive h)
  | gangStart => exact canonical_onCtl h (fun _ h => canonical_doGangStart h)
  | gangReady =>
    exact canonical_onCtl h (fun _ h => .ite (canonical_gangCommitLocal (canonical_gangReadyAt h)) (canonical_gangReadyAt h))
  | gangGo => exact canonical_execGangGo h
  | ackTimer => exact .ite (canonical_sendLink h) h
  | resendTimer => exact .ite (canonical_resendFrom h) (.ite (canonical_sendAnnounce h) h)
  | heartbeatTimer => exact .ite (canonical_sendLink h) h
  | peerSilenceTimeout => exact .ite (canonical_losePeer h) h
  | pathSilenceTimeout => exact .ite (canonical_startReroute h) h
  | requestDeadline => exact .ite (canonical_doDeadline h) h
  | pairIdleTimeout => exact .ite (canonical_doPairIdle h) h
  | rerouteDrainEnd => exact .ite (canonical_doRerouteEnd h) h
  | primaryReturn => exact .ite (canonical_startReroute h) h
  | peerRejoinTimeout => exact .ite (canonical_doRejoinLate h) h
  | portLinkDown => exact .ite (canonical_doLinkDown h) h
  | portTrained => exact .ite (canonical_doTrained h) h
  | timeRequestTimer => exact .ite (canonical_doTimeRequests h) h
  | timeExchangeTimeout => exact canonical_execTimeExchangeTimeout h
  | sourceTimeout => exact .ite (canonical_doSourceLate h) h
  | holdoverLimit => exact .ite (canonical_logOnly (canonical_pgErr (canonical_modFtm h))) h
  | ptpAnnounce => exact .ite (.ite (canonical_modFtm (canonical_regSafePoint h)) (canonical_regSafePoint h)) h
  | ptpSync => exact .ite (canonical_doPtpSync h) h
  | gmWaitExpire => exact .ite (canonical_modFtm h) h
  | gmLost => exact .ite (canonical_logOnly (canonical_pgErr (canonical_modFtm h))) h
  | ftmNowRead => exact .ite h (.ite (canonical_park h) (canonical_doFtmNowRead h))
  | calendarInstall => exact canonical_mgmtWrite h (fun _ h => canonical_doCalInstall h)
  | calendarLoadDone => exact .ite (canonical_doCalLoaded h) (.ite (canonical_doCalLate h) h)
  | calendarSwitch => exact .ite (canonical_doCalSwitch h) h
  | slotStart => exact canonical_execSlotStart h
  | accountingSnapshot => exact .ite (canonical_doSnapshot h) h
  | notBeforeRelease => exact .ite (canonical_modCmd h) h
  | seqStepRelease => exact canonical_execSeqStepRelease h
  | seqStepEnd => exact canonical_execSeqStepEnd h
  | seqAdmit => exact canonical_execSeqAdmit h
  | pause => exact canonical_execPause h
  | resume => exact canonical_execResume h
  | release => exact canonical_execRelease h
  | seqModelEnable => exact canonical_mgmtWrite h (fun _ h => .ite (canonical_doModelEnable h) h)
  | preempt => exact .ite (canonical_doPreempt h) h
  | sliceExpire => exact .ite (canonical_doSliceExpire h) h
  | contextSaveDone => exact canonical_execContextSaveDone h
  | markedFullFallback => exact .ite (canonical_markFull h) h
  | markTimeout => exact .ite (canonical_doMarkTimeout h) h
  | contextRestore => exact .ite (canonical_doRestore h) h
  | schSavepoolWrite => exact .ite (canonical_mgmtWrite h (fun _ h => canonical_doSavepool h)) (canonical_park h)
  | energyCalibration => exact .ite (canonical_doCalibrate h) h
  | bridleEvaluation => exact .ite (canonical_doEvaluation h) h
  | fastLimiter => exact .ite (canonical_doFastLimiter h) h
  | thermalCritical => exact .ite (canonical_doThermalCritical h) h
  | memThermalCeilingStep => exact .ite (canonical_doMemStep h) h
  | governorPreramp => exact .ite (canonical_doPreramp h) h
  | prerampHoldEnd => exact .ite (.of_mem h rfl) h
  | idleLowering => exact .ite (canonical_modDom h) h
  | cmReq => exact .ite (canonical_doCmReq h) h
  | cmDreq | connectionGraceExpire => exact .ite (canonical_loseConnection h) h
  | registerWrite => exact .ite (canonical_doRegisterWrite h) h
  | pgApply => exact canonical_ctlField h (fun _ h => canonical_doApply h)
  | pgHalt => exact canonical_ctlField h (fun _ h => canonical_doHalt h)
  | haltReached => exact .ite (canonical_setRaw h) h
  | pgResetReq => exact canonical_ctlField h (fun _ h => canonical_doResetReq h)
  | pgEnable => exact canonical_ctlField h (fun _ h => canonical_doEnable h)
  | coreMstkHwmWrite => exact canonical_mgmtWrite h (fun _ h => .ite (canonical_setReg h) h)
  | coreFaultInfoClear => exact canonical_mgmtWrite h (fun _ h => canonical_clearFaultInfo h)
  | hptMgmtipWrite => exact canonical_mgmtWrite h (fun _ h => canonical_setReg h)
  | hptIpv4Write => exact canonical_mgmtWrite h (fun _ h => canonical_doIpv4 h)
  | emuAccessTimeout => exact canonical_execEmuAccessTimeout h
  | createTenant => exact .ite (canonical_doCreateTenant h) (canonical_park h)
  | destroyTenant => exact .ite (canonical_doDestroyTenant h) (canonical_park h)
  | createContext => exact .ite (canonical_doCreateContext h) (canonical_park h)
  | teardownContext => exact .ite (canonical_doTeardownContext h) (canonical_park h)
  | teardownFinish => exact .ite (canonical_doTeardownFinish h) h
  | createQueue => exact .ite (canonical_doCreateQueue h) (canonical_park h)
  | destroyQueue => exact .ite (canonical_doDestroyQueue h) (canonical_park h)
  | queueFree => exact .ite (canonical_doQueueFree h) h
  | createFence => exact .ite (canonical_doCreateFence h) (canonical_park h)
  | destroyFence => exact .ite (canonical_doDestroyFence h) (canonical_park h)
  | fenceSlotFree => exact .ite (canonical_freeFence h) h
  | signalFence => exact .ite (canonical_doSignalFence h) (canonical_park h)
  | poisonFence => exact .ite (canonical_doPoisonFence h) (canonical_park h)
  | shareFence => exact .ite (canonical_doShareFence h) (canonical_park h)
  | createObject => exact .ite (canonical_doCreateObject h) (canonical_park h)
  | mapObject => exact .ite (canonical_doMapObject h) (canonical_park h)
  | unmap => exact .ite (canonical_doUnmap h) (canonical_park h)
  | unmapTakesEffect => exact .ite (canonical_doUnmapEffect h) h
  | mapRemote => exact .ite (canonical_doMapRemote h) (canonical_park h)
  | mapRemoteTimeout => exact .ite (canonical_doMapRemoteTimeout h) h
  | shareObject => exact .ite (canonical_doShareObject h) (canonical_park h)
  | refcountRead => exact .ite (canonical_doRefcountRead h) (canonical_parkBehind h)
  | refcountFetchAdd => exact .ite (canonical_doRefcountFetchAdd h) (canonical_parkBehind h)
  | refcountCas => exact .ite (canonical_doRefcountCas h) (canonical_parkBehind h)
  | refcountWrite => exact .ite (canonical_nakAccess h) (canonical_parkBehind h)
  | objectRdmaRead => exact .ite (canonical_doObjectRead h) (canonical_parkBehind h)
  | objectRdmaWrite => exact .ite (canonical_doObjectWrite h) (canonical_parkBehind h)
  | objectRdmaAtomic => exact .ite (canonical_doObjectAtomic h) (canonical_parkBehind h)
  | reclaimDone => exact .ite (canonical_doReclaimDone h) h
  | hostRdmaAck => exact .ite (canonical_doHostRdmaAck h) h
  | coldBoot => exact .ite h (canonical_doColdBoot h)
  | railSequenceTimeout => exact .ite (canonical_doRailFault h) h
  | bootRomStart => exact .ite (canonical_doBootRom h) h
  | bootWindowRing => exact .ite (canonical_doRing h) h
  | firmwareStart => exact .ite (canonical_doFirmwareStart h) h
  | attestationGo => exact canonical_emuWrite h (fun _ h => canonical_doGo h)
  | attestationSigned => exact .ite (canonical_doSigned h) h
  | fwuStage => exact canonical_emuWrite h (fun _ h => canonical_fwuCtl h (fun _ h => canonical_doStage h))
  | fwuFetchDone => exact .ite (canonical_doFetched h) h
  | fwuVerifyDone => exact .ite (canonical_doFwuVerified h) h
  | fwuCommit => exact canonical_emuWrite h (fun _ h => canonical_fwuCtl h (fun _ h => canonical_doCommitUpdate h))
  | fwuCancel => exact canonical_emuWrite h (fun _ h => canonical_fwuCtl h (fun _ h => canonical_doCancel h))
  | fwuFlash => exact canonical_emuWrite h (fun _ h => canonical_fwuCtl h (fun _ h => canonical_doFlash h))
  | fwuDesc =>
    exact .ite (canonical_mgmtWrite h (fun _ h => canonical_fwuCtl h (fun _ h => canonical_doDesc h))) (canonical_park h)
  | firmwareHandoff => exact .ite (canonical_doHandoff h) h
  | handoffResume => exact .ite (canonical_doHandoffResume h) h
  | handoffWatchdog => exact .ite (canonical_doHandoffExpired h) h
  | handoffOk => exact .ite (canonical_doHandoffOk h) h
  | handoffRejected => exact .ite (canonical_revertTime (canonical_revert (canonical_putHandoffStatus h))) h
  | probationTimeout => exact .ite (canonical_revertTime (canonical_revert h)) h
  | flashWriteDone => exact .ite (canonical_doFlashed h) h
  | errHeadWrite => exact canonical_mgmtWrite h (fun _ h => canonical_doErrHead h)
  | errWarmreq => exact canonical_mgmtWrite h (fun _ h => .ite (canonical_hostWarm h) h)
  | recoveryStart => exact canonical_execRecoveryStart h
  | recoveryTimeout => exact canonical_execRecoveryTimeout h
  | jackCheck => exact .ite (canonical_doJackCheck h) h
  | dumpReadTimeout => exact .ite (canonical_doDumpMiss h) h
  | dumpTimeout => exact .ite (canonical_endDump h) h
  | coreReset => exact .ite (canonical_doCoreReset h) h
  | suspectReplay => exact canonical_execSuspectReplay h
  | dumpCopy => exact .ite (canonical_doDumpCopy h) h
  | portReset => exact .ite (canonical_doPortReset h) h
  | controlClusterRestart => exact .ite (canonical_doClusterRestart h) h
  | warmReset => exact canonical_execWarmReset h
  | warmRestart => exact .ite (canonical_doWarmRestart h) h
  | powerOff => exact .ite canonical_doPowerOff h
  | inputMarginal => exact .ite (canonical_doMarginal h) h
  | brownoutShutdown | overvoltageShutdown | overcurrentShutdown => exact .ite canonical_shutdown h
  | vauxLoss => exact .ite canonical_doVauxLoss h
  | thermalTrip => exact .ite (canonical_doThermalTrip) h
  | status => exact .ite (canonical_smbWord h) h
  | vin | iin => exact .ite (canonical_smbSense h) h
  | pin | pinPeak => exact .ite (canonical_smbWord h) h
  | ein => exact .ite (canonical_smbDie h) h
  | tCore | tHbm | tVr | inlet | outlet => exact .ite (canonical_smbSense h) h
  | bootstat => exact .ite (canonical_smbDie h) h
  | part => exact .ite (canonical_emit h) h
  | smbWarmReset => exact .ite (canonical_hostWarm h) h
  | clearAlert => exact .ite (canonical_releaseAlert h) h
  | alertResponse => exact .ite (canonical_releaseAlert (canonical_emit h)) h
  | awlTrigger => exact .ite (MemoryCanonical.ite (canonical_modAwl h) (canonical_trigRise h)) h
  | pmcClear => exact canonical_doPmcClear h
  | jtagInstruction => exact .ite h (canonical_modAwl h)
  | frameSend => exact canonical_execFrameSend h
  | blockCrcFail => exact .ite (canonical_countBad h) h
  | discardAck => exact canonical_onCtl h (fun _ h => .ite (canonical_closeRecord (canonical_setDest h)) h)
  | gangEnd => exact canonical_onCtl h (fun _ h => .ite (canonical_doGangEnd h) h)
  | controlClusterRestartDone => exact .ite (canonical_doClusterBack h) h
  | coreResetDone => exact .ite (canonical_endRecovery (canonical_modErr h)) h
  | hostPortLinkDown => exact .ite (canonical_doHostLinkDown h) h
  | hostPortRetrain => exact .ite (canonical_doRetrain h) h
  | operandReady => exact .ite (canonical_doOperandReady h) h
  | dutyPeriod => exact .ite (canonical_doDutyPeriod h) h
  | pwrgdHoldoffExpire => exact .ite canonical_startRails h
  | trstN => exact canonical_modAwl h
  | requestBadOp => exact .ite (canonical_doBadOp h) (canonical_park h)

/-- Settles O7: a step is a tick or the front command's `exec`, and each function that these
call keeps memory canonical, since every write of memory is one of `memPut`'s (`wf_…`). -/
theorem everyStepKeepsMemoryCanonical : Obligations.EveryStepKeepsMemoryCanonical := by
  intro s t h e
  have kept : OutcomeCanonical (step s) := by
    unfold step
    split
    · exact canonical_tick h
    · exact canonical_exec (.of_mem h rfl)
  rw [e] at kept
  exact kept

end Sys2Proof.Machine
end

