-- ==== Sys2Proof/Proofs/LaneWords.lean ====
section
/-! The words of lane instructions decode to them (O9). For each format: what the decoder reads out of the encoder's word is
the field that was put in. Then each instruction is one of the six formats, under an OP and a SUB that decode to it. -/

namespace Sys2Proof.Machine

/-! ### A field of a word that fields make up -/

theorem extractLsb'_append_low {v w : Nat} (x : BitVec v) (y : BitVec w) : (x ++ y).extractLsb' 0 w = y :=
  (BitVec.extractLsb'_append_eq_of_add_le (by omega)).trans (BitVec.extractLsb'_eq_self ..)

theorem getLsbD_append_above {v w i : Nat} (x : BitVec v) (y : BitVec w) (h : w ≤ i) :
    (x ++ y).getLsbD i = x.getLsbD (i - w) := by
  rw [BitVec.getLsbD_append, if_neg (by omega)]

theorem getLsbD_append_ofBool {v : Nat} (x : BitVec v) (b : Bool) : (x ++ BitVec.ofBool b).getLsbD 0 = b := by
  rw [BitVec.getLsbD_append, if_pos Nat.zero_lt_one]
  cases b <;> rfl

theorem getLsbD_ofBool_zero (b : Bool) : (BitVec.ofBool b).getLsbD 0 = b := by cases b <;> rfl

/-! ### The six formats -/

section
variable (op : BitVec 7) (sub : BitVec 5) (aop : BitVec 4)

theorem wide_encR (f : FmtR) : (encR op sub f).getLsbD 63 = f.wide.isSome := by
  unfold encR
  repeat rw [getLsbD_append_above _ _ (by decide)]
  exact getLsbD_ofBool_zero _

theorem op_encR (f : FmtR) : (encR op sub f).extractLsb' 56 7 = op := by
  unfold encR
  repeat rw [BitVec.extractLsb'_append_eq_of_le (by decide)]
  exact extractLsb'_append_low ..

theorem sub_encR (f : FmtR) : (encR op sub f).extractLsb' 16 5 = sub := by
  unfold encR
  repeat rw [BitVec.extractLsb'_append_eq_of_le (by decide)]
  exact extractLsb'_append_low ..

theorem fmtR_encR (f : FmtR) : fmtR (encR op sub f) f.wide = f := by
  unfold fmtR encR
  cases f
  congr 1
  case e_sat =>
    repeat rw [getLsbD_append_above _ _ (by decide)]
    exact getLsbD_append_ofBool ..
  all_goals
    repeat rw [BitVec.extractLsb'_append_eq_of_le (by decide)]
    exact extractLsb'_append_low ..

theorem wide_encM (f : FmtM) : (encM op f).getLsbD 63 = f.wide.isSome := by
  unfold encM
  repeat rw [getLsbD_append_above _ _ (by decide)]
  exact getLsbD_ofBool_zero _

theorem op_encM (f : FmtM) : (encM op f).extractLsb' 56 7 = op := by
  unfold encM
  repeat rw [BitVec.extractLsb'_append_eq_of_le (by decide)]
  exact extractLsb'_append_low ..

theorem fmtM_encM (f : FmtM) : fmtM (encM op f) f.wide = f := by
  unfold fmtM encM
  cases f
  congr 1
  case e_nobase | e_wideoff | e_sign =>
    repeat rw [getLsbD_append_above _ _ (by decide)]
    exact getLsbD_append_ofBool ..
  all_goals
    repeat rw [BitVec.extractLsb'_append_eq_of_le (by decide)]
    exact extractLsb'_append_low ..

theorem op_encA (f : FmtA) : (encA aop f).extractLsb' 56 7 = 0x42#7 := by
  unfold encA
  repeat rw [BitVec.extractLsb'_append_eq_of_le (by decide)]
  exact extractLsb'_append_low ..

theorem aop_encA (f : FmtA) : (encA aop f).extractLsb' 25 4 = aop := by
  unfold encA
  repeat rw [BitVec.extractLsb'_append_eq_of_le (by decide)]
  exact extractLsb'_append_low ..

theorem fmtA_encA (f : FmtA) : fmtA (encA aop f) = f := by
  unfold fmtA encA
  cases f
  congr 1
  case e_w =>
    repeat rw [getLsbD_append_above _ _ (by decide)]
    exact getLsbD_ofBool_zero _
  case e_nobase | e_wideoff | e_srck | e_cmpk =>
    repeat rw [getLsbD_append_above _ _ (by decide)]
    exact getLsbD_append_ofBool ..
  all_goals
    repeat rw [BitVec.extractLsb'_append_eq_of_le (by decide)]
    exact extractLsb'_append_low ..

theorem op_encF (f : FmtF) : (encF f).extractLsb' 56 7 = 0x43#7 := by
  unfold encF
  repeat rw [BitVec.extractLsb'_append_eq_of_le (by decide)]
  exact extractLsb'_append_low ..

theorem fmtF_encF (f : FmtF) : fmtF (encF f) = f := by
  unfold fmtF encF
  cases f
  congr 1
  case e_w =>
    repeat rw [getLsbD_append_above _ _ (by decide)]
    exact getLsbD_ofBool_zero _
  all_goals
    repeat rw [BitVec.extractLsb'_append_eq_of_le (by decide)]
    exact extractLsb'_append_low ..

theorem op_encB (f : FmtB) : (encB sub f).extractLsb' 56 7 = 0x60#7 := by
  unfold encB
  repeat rw [BitVec.extractLsb'_append_eq_of_le (by decide)]
  exact extractLsb'_append_low ..

theorem sub_encB (f : FmtB) : (encB sub f).extractLsb' 48 5 = sub := by
  unfold encB
  repeat rw [BitVec.extractLsb'_append_eq_of_le (by decide)]
  exact extractLsb'_append_low ..

theorem fmtB_encB (f : FmtB) : fmtB (encB sub f) = f := by
  unfold fmtB encB
  cases f
  congr 1
  case e_w =>
    repeat rw [getLsbD_append_above _ _ (by decide)]
    exact getLsbD_ofBool_zero _
  all_goals
    repeat rw [BitVec.extractLsb'_append_eq_of_le (by decide)]
    exact extractLsb'_append_low ..

theorem wide_encX (f : FmtX) : (encX sub f).getLsbD 63 = f.wide.isSome := by
  unfold encX
  repeat rw [getLsbD_append_above _ _ (by decide)]
  exact getLsbD_ofBool_zero _

theorem op_encX (f : FmtX) : (encX sub f).extractLsb' 56 7 = 0x70#7 := by
  unfold encX
  repeat rw [BitVec.extractLsb'_append_eq_of_le (by decide)]
  exact extractLsb'_append_low ..

theorem sub_encX (f : FmtX) : (encX sub f).extractLsb' 48 5 = sub := by
  unfold encX
  repeat rw [BitVec.extractLsb'_append_eq_of_le (by decide)]
  exact extractLsb'_append_low ..

theorem fmtX_encX (f : FmtX) : fmtX (encX sub f) f.wide = f := by
  unfold fmtX encX
  cases f
  congr 1
  case e_sig | e_gather | e_noscale =>
    repeat rw [getLsbD_append_above _ _ (by decide)]
    exact getLsbD_append_ofBool ..
  all_goals
    repeat rw [BitVec.extractLsb'_append_eq_of_le (by decide)]
    exact extractLsb'_append_low ..

end

/-! ### The decoder on the word of each format -/

theorem ite_isSome_getD {α : Type} (o : Option α) (d : α) : (if o.isSome then some (o.getD d) else none) = o := by
  cases o <;> rfl

/-- The words of an instruction: its format, with the OP and the SUB or AOP that the decoder takes for it (R67, R665). -/
inductive SpelledBy (g : GroupRef) : Instr → DWord → Option DWord → Prop
  | r {i : Instr} (op : BitVec 7) (sub : BitVec 5) (f : FmtR) :
      (∀ (w : DWord) (wide : Option DWord),
        decodeOp g op.toNat w wide = decodeR g op.toNat (w.extractLsb' 16 5).toNat (fmtR w wide)) →
      decodeR g op.toNat sub.toNat f = some i → SpelledBy g i (encR op sub f) f.wide
  | m {i : Instr} (op : BitVec 7) (f : FmtM) :
      (∀ (w : DWord) (wide : Option DWord), fmtM w wide = f → decodeOp g op.toNat w wide = some i) →
      SpelledBy g i (encM op f) f.wide
  | a {i : Instr} (aop : BitVec 4) (f : FmtA) : decodeA g aop.toNat f = some i → SpelledBy g i (encA aop f) none
  | f (f : FmtF) : SpelledBy g (.fence g f) (encF f) none
  | b {i : Instr} (sub : BitVec 5) (f : FmtB) : decodeB g sub.toNat f = some i → SpelledBy g i (encB sub f) none
  | x {i : Instr} (sub : BitVec 5) (f : FmtX) : decodeX g sub.toNat f = some i → SpelledBy g i (encX sub f) f.wide

theorem SpelledBy.decodes {g : GroupRef} {i : Instr} {w0 : DWord} {w1 : Option DWord} (h : SpelledBy g i w0 w1)
    (next : DWord) : decodeLaneWord g.core g.slot w0 (w1.getD next) = i := by
  unfold decodeLaneWord
  cases h with
  | r op sub f isR dec =>
    simp only [op_encR, wide_encR, ite_isSome_getD, isR, sub_encR, fmtR_encR, dec, Option.getD_some]
  | m op f dec => simp only [op_encM, wide_encM, ite_isSome_getD, dec _ _ (fmtM_encM op f), Option.getD_some]
  | a aop f dec => simp [op_encA, decodeOp, aop_encA, fmtA_encA, dec]
  | f f => simp [op_encF, decodeOp, fmtF_encF]
  | b sub f dec => simp [op_encB, decodeOp, sub_encB, fmtB_encB, dec]
  | x sub f dec =>
    simp only [op_encX, wide_encX, ite_isSome_getD]
    simp [decodeOp, sub_encX, fmtX_encX, dec]

/-- Each lane instruction's words are of one of the formats. -/
theorem spelledBy_of_encodeLane {i : Instr} {g : GroupRef} {w0 : DWord} {w1 : Option DWord}
    (h : encodeLane i = some (g, w0, w1)) : SpelledBy g i w0 w1 := by
  cases i with
  | addI _ f | subI _ f | mulI _ f | madI _ f | minI _ f | maxI _ f | and _ f | or _ f | xor _ f | andn _ f | shl _ f
  | shr _ f | sar _ f | ones _ f | bitrev _ f | lzc _ f | addF _ f | subF _ f | mulF _ f | madF _ f | minF _ f
  | maxF _ f | minnumF _ f | maxnumF _ f | recip _ f | rsqrt _ f | exp2 _ f | log2 _ f | sin _ f | cos _ f | cmpEq _ f
  | cmpNe _ f | cmpLt _ f | cmpLe _ f | cmpGt _ f | cmpGe _ f | pick _ f | pcombAnd _ f | pcombOr _ f | pcombXor _ f
  | pcombAndn _ f | pcombNot _ f | xlaneAt _ f | xlaneUp _ f | xlaneDn _ f | xlaneFlip _ f | pmask _ f | gredAdd _ f
  | gredMin _ f | gredMax _ f | addS _ f | subS _ f | mulS _ f | shlS _ f | shrS _ f | sarS _ f | andS _ f | orS _ f
  | xorS _ f | movVs _ f | movSv _ f | cvtBlkEnc _ f | cvtBlkDec _ f | setmode _ f | getmode _ f =>
    cases h
    exact .r _ _ f (fun _ _ => rfl) rfl
  | cvt _ src f =>
    cases h
    refine .r _ src f (fun _ _ => rfl) ?_
    simp [decodeR]
  | ld _ f | st _ f | prefetch _ f | ldsc _ f =>
    cases h
    exact .m _ f fun _ _ e => e ▸ rfl
  | atomAddI32 _ f | atomAddI64 _ f | atomAddF32 _ f | atomAddF16x2 _ f | atomMinI32 _ f | atomMaxI32 _ f
  | atomMinF32 _ f | atomMaxF32 _ f | atomSwap32 _ f | atomSwap64 _ f | atomCas64 _ f =>
    cases h
    exact .a _ f rfl
  | fence _ f =>
    cases h
    exact .f f
  | bra _ f | braAny _ f | braAll _ f | pushm _ f | elsem _ f | popm _ f | andm _ f | exit _ f | serBegin _ f
  | serEnd _ f | call _ f | ret _ f | barArrive _ f | barWait _ f | barSync _ f | savept _ f =>
    cases h
    exact .b _ f rfl
  | mxSwap _ f | mxStream _ f | mxDrain _ f | mxWaitQ _ f | mxWaitG _ f =>
    cases h
    exact .x _ f rfl
  | mxLdw _ f =>
    obtain ⟨re, rfl, rfl, rfl⟩ : isReorient f.wide = false ∧ _ = g ∧ encX 0#5 f = w0 ∧ f.wide = w1 := by
      simpa [encodeLane] using h
    exact .x _ f (by simp [decodeX, re])
  | mxLdwReorient _ f =>
    obtain ⟨re, rfl, rfl, rfl⟩ : isReorient f.wide = true ∧ _ = g ∧ encX 0#5 f = w0 ∧ f.wide = w1 := by
      simpa [encodeLane] using h
    exact .x _ f (by simp [decodeX, re])
  | _ => cases h

/-- Settles O9: the words of a lane instruction are of one format (`spelledBy_of_encodeLane`), and the decoder reads each
format's fields as they were put in (`SpelledBy.decodes`). -/
theorem laneWordsDecodeToTheirInstruction : Obligations.LaneWordsDecodeToTheirInstruction :=
  fun _ _ _ _ next h => (spelledBy_of_encodeLane h).decodes next

end Sys2Proof.Machine
end

