-- ==== Sys2Proof/Proofs/RegisterWrites.lean ====
section
/-! Vector, float, compare, predicate and scalar instructions (O11, O13, O14, O15): what a write of each kind of register
leaves, and from it what an instruction that makes one such write does at its issue. -/

namespace Sys2Proof.Machine

/-! ### Vector results (R27, R68, R69) -/

/-- Every vector instruction issues by `laneV`, with its own value. -/
theorem exec_of_mem_vecRows {gr : GroupRef} {f : FmtR} {i : Instr} {val : Group → Nat → Nat}
    (row : (i, val) ∈ vecRows gr f) (s : State) : exec i s = issue gr i (laneV gr f val) s := by
  simp only [vecRows, List.mem_cons, List.not_mem_nil, or_false, Prod.mk.injEq] at row
  rcases row with ⟨rfl, rfl⟩ | ⟨rfl, rfl⟩ | ⟨rfl, rfl⟩ | ⟨rfl, rfl⟩ | ⟨rfl, rfl⟩ | ⟨rfl, rfl⟩ | ⟨rfl, rfl⟩ | ⟨rfl, rfl⟩ |
    ⟨rfl, rfl⟩ | ⟨rfl, rfl⟩ | ⟨rfl, rfl⟩ | ⟨rfl, rfl⟩ | ⟨rfl, rfl⟩ | ⟨rfl, rfl⟩ | ⟨rfl, rfl⟩ | ⟨rfl, rfl⟩ | ⟨rfl, rfl⟩ |
    ⟨rfl, rfl⟩ <;> rfl

/-- Settles O11: each row is a vector write of its value (`Issues.writesLanes`). -/
theorem vectorInstructionsWriteTheirLanes : Obligations.VectorInstructionsWriteTheirLanes :=
  fun s _ _ _ _ val row h => h.writesLanes val (exec_of_mem_vecRows row s)

/-! ### Float results and their flags (R73, R80, R109) -/

/-- Every float instruction and special function issues by `laneF`, with its own value. -/
theorem exec_of_mem_floatRows {gr : GroupRef} {f : FmtR} {i : Instr} {val : Group → Nat → Nat × Nat}
    (row : (i, val) ∈ floatRows gr f) (s : State) : exec i s = issue gr i (laneF gr f val) s := by
  simp only [floatRows, List.mem_cons, List.not_mem_nil, or_false, Prod.mk.injEq] at row
  rcases row with ⟨rfl, rfl⟩ | ⟨rfl, rfl⟩ | ⟨rfl, rfl⟩ | ⟨rfl, rfl⟩ | ⟨rfl, rfl⟩ | ⟨rfl, rfl⟩ | ⟨rfl, rfl⟩ | ⟨rfl, rfl⟩ |
    ⟨rfl, rfl⟩ | ⟨rfl, rfl⟩ | ⟨rfl, rfl⟩ | ⟨rfl, rfl⟩ | ⟨rfl, rfl⟩ | ⟨rfl, rfl⟩ <;> rfl

/-- What a float instruction makes of its group (R80). -/
def floatWritten (f : FmtR) (val : Group → Nat → Nat × Nat) (g : Group) : Group :=
  (g.putV f.dst (g.eff f.pred) ((List.range 32).map fun l => BitVec.ofNat 32 (val g l).1)).raise
    (flagsIn (g.eff f.pred) ((List.range 32).map (val g)))

theorem laneF_eq_onGroup (gr : GroupRef) (f : FmtR) (val : Group → Nat → Nat × Nat) :
    laneF gr f val = onGroup gr (floatWritten f val) :=
  congrArg (onGroup gr) <| funext fun g =>
    congrArg (fun vals => (g.putV f.dst (g.eff f.pred) vals).raise _) (List.map_map ..)

/-- Settles O13: a float result is a vector write of its value together with the flags of its lanes. -/
theorem floatInstructionsWriteLanesAndFlags : Obligations.FloatInstructionsWriteLanesAndFlags := by
  intro s gr f g i val row h
  have issues : exec i s = issue gr i (onGroup gr (floatWritten f val)) s := by
    rw [← laneF_eq_onGroup]
    rcases row with row | ⟨src, rfl, rfl⟩
    · exact exec_of_mem_floatRows row s
    · rfl
  obtain ⟨t, runs, issued, core⟩ := h.onGroup (floatWritten f val)
  obtain ⟨v, hv⟩ := putV_frame g f.dst (g.eff f.pred) ((List.range 32).map fun l => BitVec.ofNat 32 (val g l).1)
  refine ⟨t, issues.trans runs, v, ?_, core, fun r l hl => ?_⟩
  · rwa [floatWritten, hv] at issued
  · rw [← hv, vreg_putV g f.dst _ _ r hl]
    simp [hl]

/-! ### Predicates (R24, R74) -/

theorem getLsbD_foldl_setBits (p : Nat → Bool) {l : Nat} (hl : l < 32) (ls : List Nat) (m : Word) :
    (ls.foldl (fun m k => if p k then m ||| (1#32 <<< k) else m) m).getLsbD l =
      (m.getLsbD l || (decide (l ∈ ls) && p l)) := by
  induction ls generalizing m with
  | nil => simp
  | cons k ls ih =>
    rw [List.foldl_cons, ih]
    by_cases same : l = k
    · subst same
      cases hp : p l <;> simp [hl]
    · have apart : (1#32 <<< k).getLsbD l = false := by
        simp only [BitVec.getLsbD_shiftLeft, BitVec.getLsbD_one]
        grind
      cases hp : p k <;> simp [same, apart, -BitVec.getLsbD_eq_getElem, -BitVec.getLsbD_shiftLeft]

theorem getLsbD_maskOf (p : Nat → Bool) {l : Nat} (hl : l < 32) : (maskOf p).getLsbD l = p l := by
  rw [maskOf, getLsbD_foldl_setBits p hl]
  simp [hl]

/-- A predicate written in the lanes of a mask holds the new bits there and what it held elsewhere; P0 is all ones. -/
theorem getLsbD_preg_putP (g : Group) (d : Nat) (m v : Word) (n : Nat) {l : Nat} (hl : l < 32) :
    ((g.putP d m v).preg n).getLsbD l = if n = d ∧ n ≠ 0 ∧ m.getLsbD l then v.getLsbD l else (g.preg n).getLsbD l := by
  unfold Group.putP
  split
  next zero =>
    have kept : ¬(n = d ∧ n ≠ 0 ∧ m.getLsbD l) := fun ⟨same, real, _⟩ => real (same.trans zero)
    rw [if_neg kept]
  next real =>
    by_cases same : n = d
    · subst same
      cases bit : m.getLsbD l <;>
        simp [Group.preg, real, hl, bit, -BitVec.getLsbD_eq_getElem]
    · simp [Group.preg, same, mgetD_mset_ne _ _ _ same]

/-- A write of a predicate changes nothing of its group but the predicates. -/
theorem putP_frame (g : Group) (d : Nat) (m v : Word) : ∃ p, g.putP d m v = { g with p } := by
  unfold Group.putP
  split
  · exact ⟨g.p, rfl⟩
  · exact ⟨_, rfl⟩

theorem exec_of_mem_compareRows {gr : GroupRef} {f : FmtR} {i : Instr} {rel : Rel} (row : (i, rel) ∈ compareRows gr f)
    (s : State) : exec i s = issue gr i (laneCmp gr f rel) s := by
  simp only [compareRows, List.mem_cons, List.not_mem_nil, or_false, Prod.mk.injEq] at row
  rcases row with ⟨rfl, rfl⟩ | ⟨rfl, rfl⟩ | ⟨rfl, rfl⟩ | ⟨rfl, rfl⟩ | ⟨rfl, rfl⟩ | ⟨rfl, rfl⟩ <;> rfl

theorem exec_of_mem_predRows {gr : GroupRef} {f : FmtR} {i : Instr} {op : Word → Word → Word}
    (row : (i, op) ∈ predRows gr f) (s : State) : exec i s = issue gr i (laneP gr f op) s := by
  simp only [predRows, List.mem_cons, List.not_mem_nil, or_false, Prod.mk.injEq] at row
  rcases row with ⟨rfl, rfl⟩ | ⟨rfl, rfl⟩ | ⟨rfl, rfl⟩ | ⟨rfl, rfl⟩ | ⟨rfl, rfl⟩ <;> rfl

/-- What a compare makes of its group (R74). -/
def compared (f : FmtR) (rel : Rel) (g : Group) : Group :=
  (g.putP (f.dst.toNat % 8) (g.eff f.pred) (maskOf fun l => (cmpLane f rel g l).1)).raise
    ((lanesIn (g.eff f.pred)).foldl (fun a l => a ||| (cmpLane f rel g l).2) 0)

theorem maskOf_congr {p q : Nat → Bool} (h : ∀ l < 32, p l = q l) : maskOf p = maskOf q := by
  refine BitVec.eq_of_getLsbD_eq fun l hl => ?_
  rw [getLsbD_maskOf p hl, getLsbD_maskOf q hl, h l hl]

theorem laneCmp_eq_onGroup (gr : GroupRef) (f : FmtR) (rel : Rel) : laneCmp gr f rel = onGroup gr (compared f rel) := by
  refine congrArg (onGroup gr) (funext fun g => ?_)
  have lane (l : Nat) (hl : l < 32) : ((List.range 32).map (cmpLane f rel g)).getD l (false, 0) = cmpLane f rel g l := by
    simp [hl]
  refine congrArg₂ (fun p fl => (g.putP (f.dst.toNat % 8) (g.eff f.pred) p).raise fl) ?_ ?_
  · exact maskOf_congr fun l hl => congrArg Prod.fst (lane l hl)
  · refine List.foldl_ext _ _ _ fun a l hl => ?_
    rw [lane l (List.mem_range.mp (List.mem_filter.mp hl).1)]

/-- Settles O14: a compare and a predicate operation each make one masked write of Pd. -/
theorem comparesAndPredicatesWriteTheirMask : Obligations.ComparesAndPredicatesWriteTheirMask := by
  refine fun s gr f g => ⟨fun i rel row h => ?_, fun i op row h => ?_⟩
  · have issues := exec_of_mem_compareRows row s
    rw [laneCmp_eq_onGroup] at issues
    obtain ⟨t, runs, issued, core⟩ := h.onGroup (compared f rel)
    obtain ⟨p, hp⟩ := putP_frame g (f.dst.toNat % 8) (g.eff f.pred) (maskOf fun l => (cmpLane f rel g l).1)
    refine ⟨t, issues.trans runs, p, ?_, core, fun n l hl => ?_⟩
    · rwa [compared, hp] at issued
    · rw [← hp, getLsbD_preg_putP g _ _ _ n hl, getLsbD_maskOf _ hl]
  · obtain ⟨t, runs, issued, core⟩ := h.onGroup fun x =>
      x.putP (f.dst.toNat % 8) (x.eff f.pred) (op (x.preg (f.a.toNat % 8)) (x.preg (f.b.toNat % 8)))
    obtain ⟨p, hp⟩ :=
      putP_frame g (f.dst.toNat % 8) (g.eff f.pred) (op (g.preg (f.a.toNat % 8)) (g.preg (f.b.toNat % 8)))
    refine ⟨t, (exec_of_mem_predRows row s).trans runs, p, ?_, core, fun n l hl => ?_⟩
    · rwa [hp] at issued
    · rw [← hp, getLsbD_preg_putP g _ _ _ n hl]

/-! ### Scalars (R667, R68) -/

theorem exec_of_mem_scalarRows {gr : GroupRef} {f : FmtR} {i : Instr} {val : Group → Nat}
    (row : (i, val) ∈ scalarRows gr f) (s : State) : exec i s = issue gr i (laneS gr f val) s := by
  simp only [scalarRows, List.mem_cons, List.not_mem_nil, or_false, Prod.mk.injEq] at row
  rcases row with ⟨rfl, rfl⟩ | ⟨rfl, rfl⟩ | ⟨rfl, rfl⟩ | ⟨rfl, rfl⟩ | ⟨rfl, rfl⟩ | ⟨rfl, rfl⟩ | ⟨rfl, rfl⟩ | ⟨rfl, rfl⟩ |
    ⟨rfl, rfl⟩ | ⟨rfl, rfl⟩ | ⟨rfl, rfl⟩ <;> rfl

theorem sreg_putS (g : Group) (d : Nat) (v : DWord) (n : Nat) :
    (g.putS d v).sreg n = if n = d then v else g.sreg n := by
  unfold Group.putS Group.sreg
  split
  next same => rw [same, mgetD_mset_same]
  next other => exact mgetD_mset_ne _ _ _ other

/-- Settles O15: a scalar instruction makes one write of Sd, under a lane in the effective mask. -/
theorem scalarInstructionsActOnce : Obligations.ScalarInstructionsActOnce := by
  intro s gr f g i val row h
  obtain ⟨t, runs, issued, core⟩ := h.onGroup fun x =>
    if x.eff f.pred = 0 then x else x.putS (f.dst.toNat % 64) (scalarOf f.typ.toNat (val x))
  refine ⟨t, (exec_of_mem_scalarRows row s).trans runs, ?_⟩
  by_cases none : g.eff f.pred = 0
  · rw [if_pos none] at issued
    exact ⟨g.s, issued, core, fun n => by simp [none]⟩
  · rw [if_neg none] at issued
    refine ⟨_, issued, core, fun n => (sreg_putS g _ _ n).trans ?_⟩
    exact if_congr (and_iff_left none).symm rfl rfl

end Sys2Proof.Machine
end

