-- ==== Sys2Proof/Proofs/ControlFlow.lean ====
section
/-! Branches, barriers, save points, fences and undefined words (O17, O22, O23): what each body does in each of its cases. -/

namespace Sys2Proof.Machine

/-! ### Branches (R28, R29, R40, R42) -/

/-- A branch jumps where its condition holds and else does nothing. -/
def branchBody (f : FmtB) (taken : Group → Bool) (s : State) (g : Group) : LaneRes :=
  if taken g then .jump s f.target.toNat true else .done s

theorem Issues.branch {s : State} {gr : GroupRef} {f : FmtB} {g : Group} {i : Instr} (h : Issues s gr g i)
    {taken : Group → Bool} (q : exec i s = issue gr i (branchBody f taken) s) :
    (taken g = true → Jumps s gr g i f.target.toNat true g) ∧ (taken g = false → GoesOn s gr g i g) := by
  refine ⟨fun yes => ?_, fun no => ?_⟩
  · exact h.jumps (body := branchBody f taken) (if_pos yes) q h.resident (coreOnly_refl s gr)
  · exact h.goesOn (body := branchBody f taken) (if_neg (by simp [no])) q h.resident (coreOnly_refl s gr)

/-- Settles O17: each branch is a `branchBody` of its own condition. -/
theorem jumpsGoToTheirTargets : Obligations.JumpsGoToTheirTargets := by
  intro s gr f g i taken row h
  simp only [List.mem_cons, List.not_mem_nil, or_false, Prod.mk.injEq] at row
  rcases row with ⟨rfl, rfl⟩ | ⟨rfl, rfl⟩ | ⟨rfl, rfl⟩
  · exact h.branch (f := f) (taken := fun _ => true) rfl
  · refine h.branch (f := f) (taken := fun x => x.am &&& x.preg f.pred.toNat != 0) ?_
    unfold branchBody
    simp only [bne_iff_ne]
    rfl
  · refine h.branch (f := f) (taken := fun x => x.am &&& ~~~(x.preg f.pred.toNat) == 0) ?_
    unfold branchBody
    simp only [beq_iff_eq]
    rfl

/-! ### Barriers of a placement set (R105, R106) -/

/-- A group that issues waits for nothing. -/
theorem Issues.wait {s : State} {gr : GroupRef} {g : Group} {i : Instr} (h : Issues s gr g i) : g.wait = .none := by
  have chosen := h.chosen
  simp only [canIssue, h.resident, eligibleFor, stands, Bool.and_eq_true, beq_iff_eq] at chosen
  obtain ⟨⟨_, ⟨⟨⟨⟨⟨idle, _⟩, _⟩, _⟩, _⟩, _⟩, _⟩, _⟩ := chosen
  exact idle

@[simp] theorem barOf_setBar (s : State) (core : Nat) (g : Group) (b : Nat) (x : Barrier) :
    barOf (setBar s core g b x) core g b = x := by
  simp [barOf, setBar, aget_aset]

theorem phaseOver_setBar (s : State) (core : Nat) (g : Group) (b : Nat) (x y : Barrier) :
    phaseOver (setBar s core g b x) core g y = phaseOver s core g y := by
  have groups : (coreOf (setBar s core g b x) core).groups = (coreOf s core).groups := by simp [setBar]
  unfold phaseOver
  rw [groups]
  rfl

theorem bars_noteIssue (s : State) (gr : GroupRef) (i : Instr) :
    (coreOf (noteIssue s gr i) gr.core).bars = (coreOf s gr.core).bars := by
  have counted (a : State) (p c k : Nat) (x : Option Nat) : coreOf (pmcEvent a p c k x) gr.core = coreOf a gr.core := by
    simp [coreOf]
  simp only [noteIssue, counted, coreOf_modGroup, coreOf_modCore]

@[simp] theorem barOf_setPc_noteIssue (s : State) (gr : GroupRef) (i : Instr) (n : Nat) (g : Group) (b : Nat) :
    barOf (setPc (noteIssue s gr i) gr n) gr.core g b = barOf s gr.core g b := by
  simp [barOf, setPc, bars_noteIssue]

/-- The issue of an effect on cores alone, seen from the state before it. -/
theorem issued_ofCores {s u : State} {gr : GroupRef} {x : Group} (i : Instr) (n : Nat) (hu : u = { s with cores := u.cores })
    (h : groupOf u gr.core gr.slot = some x) :
    let t := setPc (noteIssue u gr i) gr n
    IssuedAs s t gr i { x with pc := n % 2 ^ 32 } ∧ t = { s with cores := t.cores, regs := t.regs } ∧
      ∀ sl, sl ≠ gr.slot → groupOf t gr.core sl = groupOf u gr.core sl := by
  obtain ⟨issued, fields, _, _, others, _⟩ := issued_same i n h (coreOnly_refl u gr)
  have cyc : coreCyc u gr.core = coreCyc s gr.core := by rw [hu]; rfl
  refine ⟨?_, ?_, others⟩
  · simpa [IssuedAs, owes, cyc] using issued
  · rw [fields, hu]

/-- The barrier after the arrival of a slot. -/
def Barrier.joined (b : Barrier) (slot : Nat) : Barrier := { b with arrived := slot :: b.arrived }

section
variable (s : State) (gr : GroupRef) (g : Group) (n : Nat)

/-- The state after the arrival of a slot that ends no phase. -/
def joined : State := setBar s gr.core g n ((barOf s gr.core g n).joined gr.slot)

/-- The state after the arrival that ends a phase. -/
def phaseEnded : State :=
  modCore (setBar (joined s gr g n) gr.core g n { arrived := [], phase := (barOf s gr.core g n).phase + 1 }) gr.core fun k =>
    { k with groups := k.groups.map fun e => (e.1, woken g n (barOf s gr.core g n).phase e.2) }

@[simp] theorem barOf_joined : barOf (joined s gr g n) gr.core g n = (barOf s gr.core g n).joined gr.slot :=
  barOf_setBar ..

@[simp] theorem barOf_phaseEnded :
    barOf (phaseEnded s gr g n) gr.core g n = { arrived := [], phase := (barOf s gr.core g n).phase + 1 } := by
  refine Eq.trans ?_ (barOf_setBar (joined s gr g n) gr.core g n _)
  simp [barOf, phaseEnded]

theorem groupOf_joined (sl : Nat) : groupOf (joined s gr g n) gr.core sl = groupOf s gr.core sl := groupOf_setBar ..

theorem groupOf_phaseEnded (sl : Nat) :
    groupOf (phaseEnded s gr g n) gr.core sl =
      (groupOf s gr.core sl).map (woken g n (barOf s gr.core g n).phase) := by
  unfold groupOf phaseEnded
  rw [coreOf_modCore, mget_mapValues]
  exact congrArg (Option.map _) ((groupOf_setBar ..).trans (groupOf_joined s gr g n sl))

variable {s gr g n}

theorem arrive_again (h : (barOf s gr.core g n).arrived.contains gr.slot = true) : arrive gr n s g = none := if_pos h

theorem arrive_first (h : (barOf s gr.core g n).arrived.contains gr.slot = false) :
    arrive gr n s g = some (settleBar (joined s gr g n) gr.core g n) :=
  if_neg (by simp only [h, Bool.false_eq_true, not_false_eq_true])

theorem phaseOver_joined :
    phaseOver (joined s gr g n) gr.core g (barOf (joined s gr g n) gr.core g n) =
      phaseOver s gr.core g ((barOf s gr.core g n).joined gr.slot) := by
  rw [barOf_joined]
  exact phaseOver_setBar ..

theorem arrive_of_waiting (h : (barOf s gr.core g n).arrived.contains gr.slot = false)
    (on : phaseOver s gr.core g ((barOf s gr.core g n).joined gr.slot) = false) :
    arrive gr n s g = some (joined s gr g n) := by
  rw [arrive_first h, settleBar_of_not_over]
  rw [phaseOver_joined, on]
  simp

theorem arrive_of_over (h : (barOf s gr.core g n).arrived.contains gr.slot = false)
    (done : phaseOver s gr.core g ((barOf s gr.core g n).joined gr.slot) = true) :
    arrive gr n s g = some (phaseEnded s gr g n) := by
  have ended : phaseOver (joined s gr g n) gr.core g (barOf (joined s gr g n) gr.core g n) ∧
      (barOf (joined s gr g n) gr.core g n).arrived ≠ [] := by
    refine ⟨phaseOver_joined.trans done, ?_⟩
    rw [barOf_joined]
    exact List.cons_ne_nil gr.slot _
  rw [arrive_first h, settleBar_of_over ended, barOf_joined]
  rfl

theorem awaitBar_of_arrived (h : (barOf s gr.core g n).arrived.contains gr.slot = true) :
    awaitBar gr n s g =
      modGroup s gr.core gr.slot fun y => { y with wait := .barrier n (barOf s gr.core g n).phase } :=
  if_pos h

theorem awaitBar_of_not_arrived (h : (barOf s gr.core g n).arrived.contains gr.slot = false) : awaitBar gr n s g = s :=
  if_neg (by simp only [h, Bool.false_eq_true, not_false_eq_true])

end

/-- The body of BAR.ARRIVE and BAR.SYNC; `sync` says that the group then waits. -/
def arriveBody (gr : GroupRef) (f : FmtB) (sync : Bool) (s : State) (g : Group) : LaneRes :=
  if barBad g then .fault Code.groupIllegalInstr 0
  else match arrive gr (f.target.toNat % 16) s g with
    | some s => .done (if sync then awaitBar gr (f.target.toNat % 16) s g else s)
    | none => .fault Code.groupIllegalInstr 0

/-- The body of BAR.WAIT. -/
def barWaitBody (gr : GroupRef) (f : FmtB) (s : State) (g : Group) : LaneRes :=
  if barBad g then .fault Code.groupIllegalInstr 0 else .done (awaitBar gr (f.target.toNat % 16) s g)

section
variable {s : State} {gr : GroupRef} {f : FmtB} {g : Group} {i : Instr} {sync : Bool}

theorem arriveBody_of_first (ok : barBad g = false) {u : State} (first : arrive gr (f.target.toNat % 16) s g = some u) :
    arriveBody gr f sync s g = .done (if sync then awaitBar gr (f.target.toNat % 16) u g else u) := by
  simp [arriveBody, ok, first]

theorem arriveBody_of_again (ok : barBad g = false) (again : arrive gr (f.target.toNat % 16) s g = none) :
    arriveBody gr f sync s g = .fault Code.groupIllegalInstr 0 := by
  simp [arriveBody, ok, again]

/-- An arrival that ends no phase: the group goes on, to wait where it is BAR.SYNC. -/
theorem Issues.arrives_waiting (h : Issues s gr g i) (q : exec i s = issue gr i (arriveBody gr f sync) s)
    (ok : barBad g = false) :
    let n := f.target.toNat % 16
    let b := barOf s gr.core g n
    b.arrived.contains gr.slot = false → phaseOver s gr.core g (b.joined gr.slot) = false → Gives i s fun t =>
      IssuedAs s t gr i { g with pc := Machine.goesOn g i, wait := if sync then .barrier n b.phase else g.wait } ∧
      barOf t gr.core g n = b.joined gr.slot ∧ t = { s with cores := t.cores, regs := t.regs } := by
  intro n b first on
  have body := arriveBody_of_first (sync := sync) ok (arrive_of_waiting first on)
  cases sync with
  | false =>
    obtain ⟨issued, fields, _⟩ := issued_ofCores (u := joined s gr g n) i (g.pc + wordsOf i) rfl
      ((groupOf_joined s gr g n gr.slot).trans h.resident)
    exact ⟨_, q.trans (h.done body), issued, (barOf_setPc_noteIssue ..).trans (barOf_joined ..), fields⟩
  | true =>
    have arrived : (barOf (joined s gr g n) gr.core g n).arrived.contains gr.slot = true := by
      rw [barOf_joined]
      simp [Barrier.joined]
    rw [if_pos rfl, awaitBar_of_arrived arrived, barOf_joined] at body
    obtain ⟨issued, fields, _⟩ := issued_ofCores i (g.pc + wordsOf i) (s := s)
      (u := modGroup (joined s gr g n) gr.core gr.slot fun y => { y with wait := .barrier n b.phase }) rfl
      (by rw [groupOf_modGroup, groupOf_joined, h.resident]; rfl)
    refine ⟨_, q.trans (h.done body), issued, Eq.trans ?_ (barOf_joined s gr g n), fields⟩
    rw [barOf_setPc_noteIssue]
    simp [barOf]

/-- An arrival that ends the phase: the barrier is empty, its next phase begins, and who waited for this one goes on. -/
theorem Issues.arrives_last (h : Issues s gr g i) (q : exec i s = issue gr i (arriveBody gr f sync) s)
    (ok : barBad g = false) :
    let n := f.target.toNat % 16
    let b := barOf s gr.core g n
    b.arrived.contains gr.slot = false → phaseOver s gr.core g (b.joined gr.slot) = true → Gives i s fun t =>
      IssuedAs s t gr i { g with pc := Machine.goesOn g i } ∧
      barOf t gr.core g n = { arrived := [], phase := b.phase + 1 } ∧
      t = { s with cores := t.cores, regs := t.regs } ∧
      ∀ sl y, sl ≠ gr.slot → groupOf s gr.core sl = some y → y.cmd = g.cmd → y.set = g.set →
        y.wait = .barrier n b.phase → groupOf t gr.core sl = some { y with wait := .none } := by
  intro n b first done
  have stays : (if sync then awaitBar gr n (phaseEnded s gr g n) g else phaseEnded s gr g n) = phaseEnded s gr g n := by
    rw [awaitBar_of_not_arrived (by rw [barOf_phaseEnded]; rfl), ite_self]
  have body := (arriveBody_of_first (sync := sync) ok (arrive_of_over first done)).trans (congrArg LaneRes.done stays)
  have own : groupOf (phaseEnded s gr g n) gr.core gr.slot = some g := by
    rw [groupOf_phaseEnded, h.resident, Option.map_some, woken, if_neg (by simp [h.wait])]
  obtain ⟨issued, fields, others⟩ := issued_ofCores (s := s) i (g.pc + wordsOf i) rfl own
  refine ⟨_, q.trans (h.done body), issued, ?_, fields, fun sl y other resident cmd set waits => ?_⟩
  · rw [barOf_setPc_noteIssue, barOf_phaseEnded]
  · rw [others sl other, groupOf_phaseEnded, resident, Option.map_some, woken, if_pos ⟨cmd, set, waits⟩]

theorem Issues.arrives_again (h : Issues s gr g i) (q : exec i s = issue gr i (arriveBody gr f sync) s)
    (ok : barBad g = false) (again : (barOf s gr.core g (f.target.toNat % 16)).arrived.contains gr.slot = true) :
    Faults s gr g i Code.groupIllegalInstr 0 :=
  h.fault (arriveBody_of_again (sync := sync) ok (arrive_again again)) q

theorem barWait_goesOn (h : Issues s gr g (.barWait gr f)) (ok : barBad g = false) :
    let n := f.target.toNat % 16
    let b := barOf s gr.core g n
    GoesOn s gr g (.barWait gr f) { g with wait := if b.arrived.contains gr.slot then .barrier n b.phase else g.wait } := by
  intro n b
  have runs : barWaitBody gr f s g = .done (awaitBar gr n s g) := if_neg (by simp [ok])
  cases arrived : b.arrived.contains gr.slot with
  | false =>
    rw [awaitBar_of_not_arrived arrived] at runs
    exact h.goesOn runs rfl h.resident (coreOnly_refl s gr)
  | true =>
    rw [awaitBar_of_arrived arrived] at runs
    exact h.goesOn runs rfl (by rw [groupOf_modGroup, h.resident]; rfl)
      (coreOnly_modGroup (coreOnly_refl s gr) _)

/-! ### Save points (R108) -/

variable {c : Cmd}

theorem savept_cases (h : Issues s gr g (.savept gr f)) (hc : cmdOf s g.cmd = some c) :
    (c.d.saveptVa = 0 → GoesOn s gr g (.savept gr f) g) ∧
    (c.d.saveptVa ≠ 0 → c.d.saveCount ≤ f.target.toNat → Faults s gr g (.savept gr f) Code.groupIllegalInstr 0) ∧
    (c.d.saveptVa ≠ 0 → f.target.toNat < c.d.saveCount → markPending s c = false → GoesOn s gr g (.savept gr f) g) ∧
    (c.d.saveptVa ≠ 0 → f.target.toNat < c.d.saveCount → markPending s c = true →
      (arrayOwed s gr.core gr.slot = false → GoesOn s gr g (.savept gr f) { g with halt := .marked f.target.toNat }) ∧
      (arrayOwed s gr.core gr.slot = true → exec (.savept gr f) s = .next s)) := by
  have same (e : doSavept gr f s g = .done s) : GoesOn s gr g (.savept gr f) g :=
    h.goesOn (body := doSavept gr f) e rfl h.resident (coreOnly_refl s gr)
  refine ⟨fun noTable => ?_, fun table beyond => ?_, fun table inside unmarked => ?_,
    fun table inside marked => ⟨fun free => ?_, fun owed => ?_⟩⟩
  · exact same (by simp [doSavept, hc, noTable])
  · exact h.fault (body := doSavept gr f) (by simp [doSavept, hc, table, beyond]) rfl
  · exact same (by simp [doSavept, hc, unmarked, inside])
  · exact h.goesOn (body := doSavept gr f)
      (t := modGroup s gr.core gr.slot fun x => { x with halt := .marked f.target.toNat })
      (by simp [doSavept, hc, table, inside, marked, free]) rfl (by simp [h.resident])
      (coreOnly_modGroup (coreOnly_refl s gr) _)
  · have stalls : doSavept gr f s g = .stall s := by simp [doSavept, hc, table, inside, marked, owed]
    exact (h.run (doSavept gr f)).trans (by rw [stalls])

end

/-- Settles O22: BAR.ARRIVE and BAR.SYNC are `arriveBody`, whose arrival ends the phase (`phaseEnded`) or does not
(`joined`). -/
theorem barriersAndSavePoints : Obligations.BarriersAndSavePoints := by
  intro s gr f g
  refine ⟨?_, ?_, fun h ok => barWait_goesOn h ok, fun c hc h => savept_cases h hc⟩
  · rintro i (rfl | rfl | rfl) h bad
    · exact h.fault (body := arriveBody gr f false) (if_pos bad) rfl
    · exact h.fault (body := barWaitBody gr f) (if_pos bad) rfl
    · exact h.fault (body := arriveBody gr f true) (if_pos bad) rfl
  · rintro i (rfl | rfl) h ok
    · exact ⟨h.arrives_again (sync := false) rfl ok, h.arrives_waiting (sync := false) rfl ok,
        h.arrives_last (sync := false) rfl ok⟩
    · have waiting := h.arrives_waiting (sync := true) rfl ok
      simp only [if_true] at waiting ⊢
      exact ⟨h.arrives_again (sync := true) rfl ok, waiting,
        h.arrives_last (sync := true) rfl ok⟩

/-! ### Fences, waits for a token and undefined words (R100, R120, R66) -/

section
variable {s : State} {gr : GroupRef} {g : Group}

/-- A FENCE that has nothing to send out of its core's merging buffer only waits. -/
theorem doFence_of_unsent {f : FmtF} (unsent : f.scope = 0 ∨ (coreOf s gr.core).mbuf = []) :
    doFence gr f s g = .done (parkGroup s gr (.fence f.scope.toNat)) := by
  rcases unsent with scope | empty
  · simp [doFence, scope]
  · simp [doFence, sendEntries, empty]

theorem Issues.parks {i : Instr} {body : State → Group → LaneRes} {w : GWait} (h : Issues s gr g i)
    (e : body s g = .done (parkGroup s gr w)) (q : exec i s = issue gr i body s) : GoesOn s gr g i { g with wait := w } := by
  obtain ⟨t, runs, issued, core⟩ :=
    h.goesOn (x := { g with wait := w, eligAt := none }) e q (by simp [parkGroup, h.resident])
      (coreOnly_modGroup (coreOnly_refl s gr) _)
  exact ⟨t, runs, issued, core⟩

theorem mxWaitG_cases {f : FmtX} (h : Issues s gr g (.mxWaitG gr f)) :
    let k := mgetD g.tokens f.tok.toNat .none
    (mxDivergent g f = true → Faults s gr g (.mxWaitG gr f) Code.groupMatrixDivergent 0) ∧
    (mxDivergent g f = false → GoesOn s gr g (.mxWaitG gr f)
      { g with wait := if k.issued ≤ k.done then g.wait else .token f.tok.toNat }) := by
  refine ⟨fun divergent => h.fault (body := doWaitG gr f) (if_pos divergent) rfl, fun full => ?_⟩
  have open_ : ¬mxDivergent g f = true := by simp [full]
  split
  next complete =>
    exact h.goesOn (body := doWaitG gr f) ((if_neg open_).trans (if_pos complete)) rfl h.resident (coreOnly_refl s gr)
  next pending => exact h.parks (body := doWaitG gr f) ((if_neg open_).trans (if_neg pending)) rfl

/-- An undefined word is malformed whatever the kernel declares, so it faults where it would issue. -/
theorem illegalInstruction_faults {w : DWord} (resident : groupOf s gr.core gr.slot = some g)
    (chosen : canIssue s gr (.illegalInstruction gr w) = true)
    (fetched : nextOf s gr.core gr.slot g = .outside ∨ ∃ j w', nextOf s gr.core gr.slot g = .instr j w') :
    Faults s gr g (.illegalInstruction gr w) Code.groupIllegalInstr 0 := by
  have runs : exec (.illegalInstruction gr w) s =
      issue gr (.illegalInstruction gr w) (fun _ _ => .fault Code.groupIllegalInstr 0) s := rfl
  have malformed : legalInstr (declared g) (.illegalInstruction gr w) = false := rfl
  refine runs.trans ?_
  unfold issue runInstr
  rw [if_pos chosen, resident]
  rcases fetched with e | ⟨j, w', e⟩ <;> simp only [e, malformed] <;> rfl

end

/-- Settles O23: a fence with nothing to send and a wait for a token park the group; an undefined word is malformed. -/
theorem fencesWaitsAndUndefinedWords : Obligations.FencesWaitsAndUndefinedWords :=
  ⟨fun _ _ _ => ⟨fun _ h unsent => h.parks (doFence_of_unsent unsent) rfl, fun _ h => mxWaitG_cases h⟩,
   fun _ _ _ _ resident chosen fetched => illegalInstruction_faults resident chosen fetched⟩

end Sys2Proof.Machine
end

