-- ==== Sys2Proof/Proofs/ClocksAndBytes.lean ====
section
/-! The clocks of fabric time and of the domains (O4), and memory after a store (O8). -/

namespace Sys2Proof.Machine

/-! ### Fabric time (R420) -/

theorem tickFt_of_running {s : State} (h : s.ftm.running = true) :
    (tickFt s).ftm.q = s.ftm.q + (5 * 65536 * (1000000000000 + s.ftm.rate)).toNat := by
  simp [tickFt, h]

/-! ### Domain clocks (R15, R552, R553, R560) -/

/-- What a cycle adds to a running clock's fraction: twice its MHz, or under the fast limiter once. -/
def Dom.share (x : Dom) : Nat := if x.fast then x.mhz else 2 * x.mhz

theorem Dom.tick_halted {x : Dom} (h : x.stopped = true ∨ x.mhz = 0) : x.tick = x := if_pos h

theorem Dom.tick_short {x : Dom} (run : ¬(x.stopped = true ∨ x.mhz = 0)) (short : x.frac + x.share < 7200) :
    x.tick = { x with frac := x.frac + x.share } :=
  (if_neg run).trans (if_pos short)

theorem Dom.tick_full {x : Dom} (run : ¬(x.stopped = true ∨ x.mhz = 0)) (full : ¬x.frac + x.share < 7200) :
    x.tick = { x with frac := x.frac + x.share - 7200, cyc := x.cyc + 1 } :=
  (if_neg run).trans (if_neg full)

theorem Dom.tick_cyc (x : Dom) : x.tick.cyc = x.cyc ∨ x.tick.cyc = x.cyc + 1 := by
  by_cases halted : x.stopped = true ∨ x.mhz = 0
  · rw [Dom.tick_halted halted]
    exact .inl rfl
  by_cases short : x.frac + x.share < 7200
  · rw [Dom.tick_short halted short]
    exact .inl rfl
  · rw [Dom.tick_full halted short]
    exact .inr rfl

theorem Dom.tick_at_full_rate {x : Dom} (run : x.stopped = false) (slow : x.fast = false) (rate : x.mhz = 3600) :
    x.tick.cyc = x.cyc + 1 := by
  have share : x.share = 7200 := by simp [Dom.share, slow, rate]
  rw [Dom.tick_full (by simp [run, rate]) (by omega)]

/-- A cycle adds the clock's share, whether or not it completes one of the clock's own. -/
theorem Dom.tick_adds {x : Dom} (run : x.stopped = false) (pos : 0 < x.mhz) (most : x.mhz ≤ 3600) :
    7200 * x.tick.cyc + x.tick.frac = 7200 * x.cyc + x.frac + x.share := by
  have running : ¬(x.stopped = true ∨ x.mhz = 0) := by simp [run]; omega
  by_cases short : x.frac + x.share < 7200
  · rw [Dom.tick_short running short]
    dsimp only
    omega
  · rw [Dom.tick_full running short]
    dsimp only
    omega

/-- Settles O4: fabric time by its definition, a domain's clock by the three cases of `Dom.tick`. -/
theorem clocksAdvanceByTheirRate : Obligations.ClocksAdvanceByTheirRate := by
  refine ⟨fun s run => ⟨tickFt_of_running run, fun above => ?_⟩, fun x => ⟨Dom.tick_cyc x, ?_, ?_, ?_, ?_⟩⟩
  · rw [tickFt_of_running run]
    omega
  · exact fun stopped => Dom.tick_halted (.inl stopped)
  · exact fun gated => Dom.tick_halted (.inr gated)
  · exact Dom.tick_at_full_rate
  · exact fun run pos _ most => Dom.tick_adds run pos most

/-! ### Stored bytes -/

theorem rdBytes_eq {s : State} {a : Nat} {d : List Byte} (h : ∀ i (hi : i < d.length), rd8 s (a + i) = d[i]) :
    rdBytes s a d.length = d := by
  induction d generalizing a with
  | nil => rfl
  | cons b t ih =>
    have first : rd8 s a = b := h 0 (Nat.zero_lt_succ _)
    have rest : rdBytes s (a + 1) t.length = t := ih fun i hi => by
      rw [Nat.add_right_comm]
      exact h (i + 1) (Nat.succ_lt_succ hi)
    rw [List.length_cons, rdBytes, first, rest]

theorem rd8_wrBytes {s : State} (h : MemoryCanonical s) (a : Nat) (d : List Byte) (j : Nat) :
    rd8 (wrBytes s a d) j = if a ≤ j ∧ j < a + d.length then d.getD (j - a) 0 else rd8 s j :=
  memGet_putBytes h a d j

/-- Settles O8: what each byte reads as after the store is `rd8_wrBytes`. -/
theorem storedBytesReadBack : Obligations.StoredBytesReadBack := by
  refine fun s a d h => ⟨rdBytes_eq fun i hi => ?_, fun b outside => ?_, wf_putBytes h a d⟩
  · rw [rd8_wrBytes h, if_pos (by omega), Nat.add_sub_cancel_left, List.getD_eq_getElem _ _ hi]
  · rw [rd8_wrBytes h, if_neg (by omega)]

end Sys2Proof.Machine
end

