-- ==== Sys2Proof/Proofs/GlobalAccesses.lean ====
section
/-! Loads and stores of global memory, and accesses of no lane (O25): the checks that every access passes, what a load leaves
owed, and a store that is accepted. -/

namespace Sys2Proof.Machine

/-! ### The checks of an access (R51, R84, R123, R306) -/

section
variable {gr : GroupRef} {s : State} {g : Group} {acc : Access} {size : Nat} {as : List (Nat × Nat)} {extra : Option Nat}
  {k : List (Nat × Trans × Tgt) → LaneRes} {l : List (Nat × Trans × Tgt)}

theorem any_far (far : ∃ a ∈ as, 2 ^ 57 ≤ a.2) : (as.any fun a => decide (a.2 ≥ 2 ^ 57)) = true :=
  List.any_eq_true.mpr (far.imp fun _ h => ⟨h.1, decide_eq_true h.2⟩)

theorem not_any_far (near : ∀ a ∈ as, a.2 < 2 ^ 57) : (as.any fun a => decide (a.2 ≥ 2 ^ 57)) = false :=
  List.any_eq_false.mpr fun a h => by simpa using near a h

theorem globalAccess_far (aligned : misalignedLane size as = none) (far : ∃ a ∈ as, 2 ^ 57 ≤ a.2) :
    globalAccess gr s g acc size as extra k = .fault Code.groupAddressRange 0 := by
  simp only [globalAccess, aligned, any_far far, if_true]

theorem globalAccess_undeclared (aligned : misalignedLane size as = none) (near : ∀ a ∈ as, a.2 < 2 ^ 57)
    (placed : place s (ctxOf s g.cmd) g.cmd .write size as = .ok l) (un : undeclared s g.cmd l = true) :
    globalAccess gr s g .write size as none k = .fault Code.groupUndeclaredWrite 0 := by
  simp only [globalAccess, aligned, not_any_far near, placed, un, and_self, if_true, Bool.false_eq_true, if_false]

/-- An access that passes every check goes on to its memory. -/
theorem globalAccess_ok (aligned : misalignedLane size as = none) (near : ∀ a ∈ as, a.2 < 2 ^ 57)
    (placed : place s (ctxOf s g.cmd) g.cmd acc size as = .ok l)
    (declared : acc = .write → undeclared s g.cmd l = false) (there : goneTarget s l = none) :
    globalAccess gr s g acc size as none k = k l := by
  have ok : ¬(acc = .write ∧ undeclared s g.cmd l = true) := fun ⟨w, u⟩ => by simp [declared w] at u
  simp only [globalAccess, aligned, not_any_far near, placed, if_neg ok, there, Bool.false_eq_true, if_false]

end

/-! ### What a load leaves (R84, R92, R238) -/

theorem groupOf_eq_of_cores {s t : State} (h : t.cores = s.cores) (c slot : Nat) : groupOf t c slot = groupOf s c slot := by
  unfold groupOf coreOf
  rw [h]

/-- A change of a core that keeps its groups. -/
theorem groupOf_modCore_groups (s : State) (c : Nat) {f : CoreSt → CoreSt} (h : ∀ k, (f k).groups = k.groups) (d slot : Nat) :
    groupOf (modCore s c f) d slot = groupOf s d slot := by
  unfold groupOf
  by_cases same : d = c
  · subst same
    rw [coreOf_modCore, h]
  · rw [coreOf_modCore_ne s f same]

/-- What an access leaves alone on its way: groups, the records of loads, memory. -/
def LoadKeeps (s t : State) : Prop :=
  (∀ c slot, groupOf t c slot = groupOf s c slot) ∧ t.ms.loads = s.ms.loads ∧ t.ms.nextLoad = s.ms.nextLoad ∧ t.mem = s.mem

theorem LoadKeeps.trans {s t u : State} (h : LoadKeeps s t) (h' : LoadKeeps t u) : LoadKeeps s u :=
  ⟨fun c slot => (h'.1 c slot).trans (h.1 c slot), h'.2.1.trans h.2.1, h'.2.2.1.trans h.2.2.1, h'.2.2.2.trans h.2.2.2⟩

theorem loadKeeps_pmcEvent (s : State) (page code k : Nat) (ctx : Option Nat) : LoadKeeps s (pmcEvent s page code k ctx) :=
  ⟨groupOf_pmcEvent s page code k ctx, by simp, by simp, by simp⟩

theorem loadKeeps_modCore (s : State) (c : Nat) {f : CoreSt → CoreSt} (h : ∀ k, (f k).groups = k.groups) :
    LoadKeeps s (modCore s c f) :=
  ⟨groupOf_modCore_groups s c h, rfl, rfl, rfl⟩

theorem loadKeeps_takePorts (s : State) (core n ctx : Nat) : LoadKeeps s (takePorts s core n ctx).2 :=
  (loadKeeps_pmcEvent s _ _ _ _).trans (loadKeeps_modCore _ core fun _ => rfl)

theorem loadKeeps_countL1 (s : State) (core ctx : Nat) (accs : List LaneAcc) : LoadKeeps s (countL1 s core ctx accs) := by
  have counted (u : State) (n code : Nat) : LoadKeeps u (if n = 0 then u else pmcEvent u (pgTMV core) code n (some ctx)) := by
    split
    · exact ⟨fun _ _ => rfl, rfl, rfl, rfl⟩
    · exact loadKeeps_pmcEvent ..
  exact (counted s _ _).trans (counted _ _ _)

/-- The lines that gave a load data. -/
def hitLines (accs : List LaneAcc) : List Tgt := ((accs.filter fun a => !a.data.isEmpty).map fun a => a.tgt.line).eraseDups

/-- Lines become the most recent of their sets. -/
def touchLines (cmd : Nat) (lines : List Tgt) (k : CoreSt) : CoreSt :=
  lines.foldl (fun k ln => match l1Find k cmd ln with
    | some x => l1Put k cmd ln x
    | none => k) k

theorem groups_touchLines (cmd : Nat) (lines : List Tgt) (k : CoreSt) : (touchLines cmd lines k).groups = k.groups := by
  unfold touchLines
  induction lines generalizing k with
  | nil => rfl
  | cons ln rest ih =>
    rw [List.foldl_cons, ih]
    split <;> rfl

/-- The ports taken, the sectors counted and the lines touched by a load, before its record. -/
def loadStarted (s : State) (core : Nat) (g : Group) (ports : Nat) (accs : List LaneAcc) : State :=
  modCore (countL1 (takePorts s core ports (ctxOf s g.cmd)).2 core (ctxOf s g.cmd) accs) core
    (touchLines g.cmd (hitLines accs))

theorem loadKeeps_loadStarted (s : State) (core : Nat) (g : Group) (ports : Nat) (accs : List LaneAcc) :
    LoadKeeps s (loadStarted s core g ports accs) :=
  ((loadKeeps_takePorts s core ports _).trans (loadKeeps_countL1 _ core _ accs)).trans
    (loadKeeps_modCore _ core (groups_touchLines g.cmd (hitLines accs)))

theorem loadKeeps_sendReq (s : State) (r : LineReq) : LoadKeeps s (sendReq s r) := by
  unfold sendReq
  split
  · exact ⟨groupOf_eq_of_cores (by simp [newOutReq, addReq]), by simp [newOutReq, addReq], by simp [newOutReq, addReq],
      by simp [newOutReq, addReq]⟩
  · dsimp only [hostRead]
    split <;> exact ⟨fun _ _ => rfl, rfl, rfl, rfl⟩
  · exact ⟨fun _ _ => rfl, rfl, rfl, rfl⟩

theorem loadKeeps_requestLines (s : State) (core : Nat) (g : Group) (load : Option Nat) (hint : Nat) (bypass : Bool)
    (l : List (Nat × Trans × Tgt)) (accs : List LaneAcc) : LoadKeeps s (requestLines s core g load hint bypass l accs) := by
  unfold requestLines
  generalize missLines accs = lines
  induction lines generalizing s with
  | nil => exact ⟨fun _ _ => rfl, rfl, rfl, rfl⟩
  | cons line rest ih => exact (loadKeeps_sendReq s _).trans (ih _)

section
variable {s : State} {gr : GroupRef} {g : Group}

/-- The record of a load from global memory, with the requests that its missing lines get. -/
def loadRecord (s : State) (gr : GroupRef) (g : Group) (dst size hint ports : Nat) (sreg sign : Bool) (accs : List LaneAcc) :
    LoadRec :=
  { core := gr.core, slot := gr.slot, grp := g.index, cmd := g.cmd, hint, dst, sreg, size, sign, accs,
    waits := (List.range (missLines accs).length).map fun i => (loadStarted s gr.core g ports accs).ms.nextReq + i,
    hit := hitLines accs, ready := (takePorts s gr.core ports (ctxOf s g.cmd)).1 + 32 }

/-- The state once a load's record is made and its requests are sent. -/
def loadSent (s : State) (gr : GroupRef) (g : Group) (dst size hint ports : Nat) (sreg sign bypass : Bool)
    (l : List (Nat × Trans × Tgt)) (accs : List LaneAcc) : State :=
  requestLines (addLoad (loadStarted s gr.core g ports accs) (loadRecord s gr g dst size hint ports sreg sign accs)) gr.core g
    (some (loadStarted s gr.core g ports accs).ms.nextLoad) hint bypass l accs

theorem loadSent_keeps (dst size hint ports : Nat) (sreg sign bypass : Bool) (l : List (Nat × Trans × Tgt))
    (accs : List LaneAcc) :
    let t := loadSent s gr g dst size hint ports sreg sign bypass l accs
    mget t.ms.loads s.ms.nextLoad = some (loadRecord s gr g dst size hint ports sreg sign accs) ∧
      (∀ c slot, groupOf t c slot = groupOf s c slot) ∧ t.mem = s.mem := by
  obtain ⟨groups, loads, next, mem⟩ := loadKeeps_loadStarted s gr.core g ports accs
  obtain ⟨groups', loads', _, mem'⟩ :=
    loadKeeps_requestLines
      (addLoad (loadStarted s gr.core g ports accs) (loadRecord s gr g dst size hint ports sreg sign accs))
      gr.core g (some (loadStarted s gr.core g ports accs).ms.nextLoad) hint bypass l accs
  refine ⟨?_, fun c slot => (groups' c slot).trans (groups c slot), mem'.trans mem⟩
  unfold loadSent
  rw [loads', ← next]
  exact mget_mset_same ..

/-- A load that finds no copy, no store on its way and room for its requests is sent. -/
theorem globalLoad_done {dst size hint ports : Nat} {sreg sign bypass : Bool} {l : List (Nat × Trans × Tgt)}
    (still : copyingPair s g.cmd (pairsOf l) = none) (quiet : channelSent s g size l = false)
    (room : coreReqs s gr.core + (missLines (l.map (loadAcc s gr.core g size bypass))).length ≤ 256) :
    globalLoad s gr g dst sreg sign size hint bypass ports l =
      .done (loadSent s gr g dst size hint ports sreg sign bypass l (l.map (loadAcc s gr.core g size bypass))) := by
  have credit : readCredit s gr.core (missLines (l.map (loadAcc s gr.core g size bypass))) = true := decide_eq_true room
  unfold globalLoad
  simp only [still, quiet, credit, Bool.false_eq_true, Bool.not_true, if_false]
  rfl

/-- LD of translated pages: the data is owed to its destination. -/
theorem ld_gives {f : FmtM} (h : Issues s gr g (.ld gr f)) (space : f.space ≠ 1#2) :
    let size := accBytes f.size
    let as := laneAddrs (g.eff f.pred) (addrM g f)
    as ≠ [] → misalignedLane size as = none → (∀ a ∈ as, a.2 < 2 ^ 57) → ∀ l,
    place s (ctxOf s g.cmd) g.cmd .read size as = .ok l → goneTarget s l = none →
    copyingPair s g.cmd (pairsOf l) = none → channelSent s g size l = false →
    coreReqs s gr.core + (missLines (l.map (loadAcc s gr.core g size (f.space == 2#2)))).length ≤ 256 →
    Gives (.ld gr f) s fun t => ∃ r x,
      mget t.ms.loads s.ms.nextLoad = some r ∧ r.cmd = g.cmd ∧ r.size = size ∧
      groupOf t gr.core gr.slot = some x ∧ x.pc = goesOn g (.ld gr f) ∧ x.v = g.v ∧
      (∀ v ∈ vRes f.data (runFor f.size), (v, Busy.load s.ms.nextLoad) ∈ x.sb) ∧ t.mem = s.mem := by
  intro size as some_ aligned near l placed there still quiet room
  have done := globalLoad_done (dst := f.data.toNat) (sreg := false) (sign := f.sign) (hint := f.hint.toNat)
    (ports := portCost as) still quiet room
  obtain ⟨record, groups, mem⟩ := loadSent_keeps (s := s) (gr := gr) (g := g) f.data.toNat size f.hint.toNat (portCost as) false
    f.sign (f.space == 2#2) l (l.map (loadAcc s gr.core g size (f.space == 2#2)))
  generalize loadSent s gr g f.data.toNat size f.hint.toNat (portCost as) false f.sign (f.space == 2#2) l
    (l.map (loadAcc s gr.core g size (f.space == 2#2))) = u at done record groups mem
  let owed : State := modGroup u gr.core gr.slot fun x => oweLoad x f.data (runFor f.size) s.ms.nextLoad
  have body : doLd gr f s g = .done owed := by
    have access : ¬as.isEmpty = true := by simpa using some_
    unfold doLd
    rw [if_neg access, if_neg space, globalAccess_ok aligned near placed (fun w => by cases w) there, done]
  have resident : groupOf owed gr.core gr.slot = some (oweLoad g f.data (runFor f.size) s.ms.nextLoad) := by
    rw [groupOf_modGroup, groups, h.resident]
    rfl
  obtain ⟨issued, fields, _⟩ := issued_same (.ld gr f) (g.pc + wordsOf (.ld gr f)) resident (coreOnly_refl owed gr)
  have kept := (congrArg (fun t => mget t.ms.loads s.ms.nextLoad) fields).trans record
  refine ⟨_, h.done body, _, _, kept, rfl, rfl, issued, rfl, rfl, fun v hv => ?_, ?_⟩
  · simp [oweLoad, hv]
  · rw [fields]
    exact mem

theorem makeRoom_of_room {core cmd : Nat} {lines : List Tgt} (n : Nat)
    (room : (coreOf s core).mbuf.length + newEntries (coreOf s core) cmd lines ≤ 64) : makeRoom core cmd lines n s = s := by
  cases n with
  | zero => rfl
  | succ n => exact if_pos room

/-- A store to no pair, through an L1 that is on and a merging buffer with room, is accepted at once (R240). -/
theorem globalStore_accepts {hint ports : Nat} {l : List (Nat × Trans × Tgt)} {bytes : Nat → List Byte}
    (unpaired : pairsOf l = []) (live : (cmdOf s g.cmd).isSome = true) (on : l1On (coreOf s gr.core) = true)
    (undrained : (coreOf s gr.core).l1ctl.draining = none)
    (room : (coreOf s gr.core).mbuf.length +
      newEntries (coreOf s gr.core) g.cmd (l.map fun e => e.2.2.line).eraseDups ≤ 64) :
    globalStore s gr g hint ports l bytes = .done (acceptStore s gr g hint ports l bytes) := by
  have open_ : writeGate s gr g.cmd (pairsOf l) = .go s := by rw [unpaired]; rfl
  have here : ¬(cmdOf s g.cmd).isNone = true := by
    rw [Option.isNone_iff_eq_none]
    exact Option.isSome_iff_ne_none.mp live
  unfold globalStore
  rw [open_]
  dsimp only
  rw [if_neg (by simp [undrained]), if_neg (by simp [on]), makeRoom_of_room 64 room, if_neg here, if_pos room]

theorem setPc_mod (s : State) (gr : GroupRef) (n : Nat) : setPc s gr (n % 2 ^ 32) = setPc s gr n := by
  unfold setPc
  rw [Nat.mod_mod]

/-- ST of translated pages, through an L1 that is on and a merging buffer with room, is accepted. -/
theorem st_accepted {f : FmtM} (h : Issues s gr g (.st gr f)) (space : f.space ≠ 1#2) :
    let size := accBytes f.size
    let as := laneAddrs (g.eff f.pred) (addrM g f)
    as ≠ [] → misalignedLane size as = none → (∀ a ∈ as, a.2 < 2 ^ 57) → ∀ l,
    place s (ctxOf s g.cmd) g.cmd .write size as = .ok l → goneTarget s l = none →
    undeclared s g.cmd l = false → pairsOf l = [] → (cmdOf s g.cmd).isSome = true → l1On (coreOf s gr.core) = true →
    (coreOf s gr.core).l1ctl.draining = none →
    (coreOf s gr.core).mbuf.length + newEntries (coreOf s gr.core) g.cmd (l.map fun e => e.2.2.line).eraseDups ≤ 64 →
    exec (.st gr f) s = .next
      (setPc (noteIssue
          (acceptStore s gr g (if f.hint = 3#2 then 1 else f.hint.toNat) (portCost as) l (storeBytes g f)) gr (.st gr f))
        gr (goesOn g (.st gr f))) := by
  intro size as some_ aligned near l placed there declared unpaired live on undrained room
  have access : ¬as.isEmpty = true := by simpa using some_
  have body : doSt gr f s g =
      .done (acceptStore s gr g (if f.hint = 3#2 then 1 else f.hint.toNat) (portCost as) l (storeBytes g f)) := by
    unfold doSt
    rw [if_neg access, if_neg space, globalAccess_ok aligned near placed (fun _ => declared) there]
    exact globalStore_accepts unpaired live on undrained room
  rw [goesOn, setPc_mod]
  exact h.done (body := doSt gr f) body

/-! ### Far addresses and undeclared writes (R123, R306) -/

theorem far_faults {f : FmtM} {i : Instr} (space : f.space ≠ 1#2) (which : i = .ld gr f ∨ i = .st gr f ∨ i = .prefetch gr f)
    (h : Issues s gr g i) :
    let as := laneAddrs (g.eff f.pred) (addrM g f)
    as ≠ [] → misalignedLane (accBytes f.size) as = none → (∃ a ∈ as, 2 ^ 57 ≤ a.2) →
    Faults s gr g i Code.groupAddressRange 0 := by
  intro as some_ aligned far
  have access : ¬as.isEmpty = true := by simpa using some_
  rcases which with rfl | rfl | rfl
  · exact h.fault (body := doLd gr f)
      ((if_neg access).trans ((if_neg space).trans (globalAccess_far aligned far))) rfl
  · exact h.fault (body := doSt gr f)
      ((if_neg access).trans ((if_neg space).trans (globalAccess_far aligned far))) rfl
  · refine h.fault (body := doPrefetch gr f) ((if_neg access).trans ((if_neg space).trans ?_)) rfl
    simp only [aligned, as, any_far far, if_true]

theorem undeclared_faults {f : FmtM} (space : f.space ≠ 1#2) (h : Issues s gr g (.st gr f)) :
    let as := laneAddrs (g.eff f.pred) (addrM g f)
    as ≠ [] → misalignedLane (accBytes f.size) as = none → (∀ a ∈ as, a.2 < 2 ^ 57) → ∀ l,
    place s (ctxOf s g.cmd) g.cmd .write (accBytes f.size) as = .ok l → undeclared s g.cmd l = true →
    Faults s gr g (.st gr f) Code.groupUndeclaredWrite 0 := by
  intro as some_ aligned near l placed un
  have access : ¬as.isEmpty = true := by simpa using some_
  exact h.fault (body := doSt gr f)
    ((if_neg access).trans ((if_neg space).trans (globalAccess_undeclared aligned near placed un))) rfl

/-! ### Accesses of no lane (R27, R667) -/

theorem laneAddrs_zero (addr : Nat → Nat) : laneAddrs 0 addr = [] := by
  simp [laneAddrs, lanesIn]

theorem idleM_goesOn {f : FmtM} {i : Instr} (which : i ∈ [Instr.ld gr f, .st gr f, .prefetch gr f, .ldsc gr f])
    (h : Issues s gr g i) (idle : g.eff f.pred = 0) : GoesOn s gr g i g := by
  have none_ (addr : Nat → Nat) : (laneAddrs (g.eff f.pred) addr).isEmpty = true := by rw [idle, laneAddrs_zero]; rfl
  simp only [List.mem_cons, List.not_mem_nil, or_false] at which
  rcases which with rfl | rfl | rfl | rfl
  · exact h.goesOn (body := doLd gr f) (if_pos (none_ _)) rfl h.resident (coreOnly_refl s gr)
  · exact h.goesOn (body := doSt gr f) (if_pos (none_ _)) rfl h.resident (coreOnly_refl s gr)
  · exact h.goesOn (body := doPrefetch gr f) (if_pos (none_ _)) rfl h.resident (coreOnly_refl s gr)
  · exact h.goesOn (body := doLdsc gr f) (if_pos idle) rfl h.resident (coreOnly_refl s gr)

/-- Every atomic issues by `doAtom`, with its own AOP. -/
theorem exec_of_mem_atomRows {f : FmtA} {i : Instr} {op : Nat} (row : (i, op) ∈ atomRows gr f) (s : State) :
    exec i s = issue gr i (doAtom gr op f) s := by
  simp only [atomRows, List.mem_cons, List.not_mem_nil, or_false, Prod.mk.injEq] at row
  rcases row with ⟨rfl, rfl⟩ | ⟨rfl, rfl⟩ | ⟨rfl, rfl⟩ | ⟨rfl, rfl⟩ | ⟨rfl, rfl⟩ | ⟨rfl, rfl⟩ | ⟨rfl, rfl⟩ | ⟨rfl, rfl⟩ |
    ⟨rfl, rfl⟩ | ⟨rfl, rfl⟩ | ⟨rfl, rfl⟩ <;> rfl

theorem idleA_goesOn {f : FmtA} {i : Instr} {op : Nat} (row : (i, op) ∈ atomRows gr f) (h : Issues s gr g i)
    (idle : g.eff f.pred = 0) : GoesOn s gr g i g := by
  have none_ (addr : Nat → Nat) : (laneAddrs (g.eff f.pred) addr).isEmpty = true := by rw [idle, laneAddrs_zero]; rfl
  exact h.goesOn (body := doAtom gr op f) (if_pos (none_ _)) (exec_of_mem_atomRows row s) h.resident (coreOnly_refl s gr)

end

/-- Settles O25: an access of no lane does nothing; the others pass `globalAccess` or fault in it, and then a load has its
record (`ld_gives`) and a store is accepted (`st_accepted`). -/
theorem globalAndMaskedAccesses : Obligations.GlobalAndMaskedAccesses := by
  refine ⟨fun s gr g f space some_ aligned => ⟨fun far i which h => ?_, fun near l => ⟨?_, ?_⟩⟩,
    fun s gr g => ⟨?_, ?_⟩⟩
  · exact far_faults space which h some_ aligned far
  · exact fun h placed there still quiet room => ld_gives h space some_ aligned near l placed there still quiet room
  · exact fun h placed there => ⟨undeclared_faults space h some_ aligned near l placed,
      st_accepted h space some_ aligned near l placed there⟩
  · exact fun f i which h idle => idleM_goesOn which h idle
  · exact fun f i op row h idle => idleA_goesOn row h idle

end Sys2Proof.Machine
end

