-- ==== Sys2Proof/Proofs/ArrayQueue.lean ====
section
/-! MX instructions and the array command queue (O26): what `queueMx` does in each of its cases. -/

namespace Sys2Proof.Machine

/-! ### A command at its issue (R44, R119, R133, R134) -/

/-- The offsets that an MX instruction gathers. -/
def mxOffs (g : Group) (f : FmtX) : List Word := if f.gather then gatherOffs g f else []

section
variable {s : State} {gr : GroupRef} {g : Group} {f : FmtX} {k : ArrKind}

theorem queueMx_divergent (h : mxDivergent g f = true) : queueMx k gr f s g = .fault Code.groupMatrixDivergent 0 := if_pos h

variable (full : mxDivergent g f = false)
include full

theorem queueMx_misaligned {l : Nat}
    (h : mxMisaligned k f (scalarOff g f.sbase) (scalarOff g f.sscale) (mxOffs g f) = some l) :
    queueMx k gr f s g = .fault Code.groupMisaligned l := by
  unfold mxOffs at h
  simp [queueMx, full, h]

variable (aligned : mxMisaligned k f (scalarOff g f.sbase) (scalarOff g f.sscale) (mxOffs g f) = none)
include aligned

theorem queueMx_outside (h : mxOutside (coreOf s gr.core).arr (allocBytes (coreOf s gr.core) g.cmd) k f
      (scalarOff g f.sbase) (scalarOff g f.sscale) (mxOffs g f) = true) :
    queueMx k gr f s g = .fault Code.groupAddressRange 0 := by
  unfold mxOffs at aligned h
  simp [queueMx, full, aligned, h]

variable (inside : mxOutside (coreOf s gr.core).arr (allocBytes (coreOf s gr.core) g.cmd) k f
      (scalarOff g f.sbase) (scalarOff g f.sscale) (mxOffs g f) = false)
include inside

theorem queueMx_no_room (h : 16 ≤ (coreOf s gr.core).arr.queue.length) :
    queueMx k gr f s g = .stall (parkGroup s gr .arrayQueue) := by
  unfold mxOffs at aligned inside
  simp [queueMx, full, aligned, inside, h]

/-- The group of a queued command, but for MX.WAIT.Q: its forward-progress count is zero and its token counts (R41, R120). -/
def mxNoted (f : FmtX) (g : Group) : Group :=
  if f.sig then tokenIssued { g with fpc := 0 } f.tok.toNat else { g with fpc := 0 }

theorem queueMx_enters (room : (coreOf s gr.core).arr.queue.length < 16) :
    queueMx k gr f s g =
      let u := enterQueue s gr g k f (scalarOff g f.sbase) (scalarOff g f.sscale) (mxOffs g f)
      if k = .waitq then .done u else .done (coreProgress (modGroup u gr.core gr.slot (mxNoted f)) gr.core) := by
  unfold mxOffs at aligned inside ⊢
  simp [queueMx, full, aligned, inside, Nat.not_le.mpr room]
  rfl

end

/-! ### The queue after it -/

section
variable (s : State) (gr : GroupRef) (g : Group) (k : ArrKind) (f : FmtX) (base scale : Nat) (offs : List Word)

/-- The queued command, with what it read at issue. -/
def mxQueued : ArrCmd :=
  { id := (coreOf s gr.core).arr.nextId, kind := k, cmd := g.cmd, slot := gr.slot, f, base, scale, gather := offs,
    need := nextSig g f.tok.toNat, sig := nextSig g f.tok.toNat, at_ := coreCyc s gr.core, old := (coreOf s gr.core).scratch }

theorem queue_enterQueue :
    (coreOf (enterQueue s gr g k f base scale offs) gr.core).arr.queue =
      (coreOf s gr.core).arr.queue ++ [mxQueued s gr g k f base scale offs] := by
  simp [enterQueue, mxQueued]

theorem groupOf_enterQueue (slot : Nat) :
    groupOf (enterQueue s gr g k f base scale offs) gr.core slot = groupOf s gr.core slot := by
  simp [enterQueue, groupOf]

end

theorem mxNoted_frame (f : FmtX) (g : Group) :
    (mxNoted f g).v = g.v ∧ (mxNoted f g).s = g.s := by
  unfold mxNoted
  split <;> exact ⟨rfl, rfl⟩

theorem arr_coreProgress (s : State) (c : Nat) : (coreOf (coreProgress s c) c).arr = (coreOf s c).arr := by
  simp [coreProgress]

theorem arr_setPc_noteIssue (s : State) (gr : GroupRef) (i : Instr) (n : Nat) :
    (coreOf (setPc (noteIssue s gr i) gr n) gr.core).arr = (coreOf s gr.core).arr := by
  obtain ⟨_, _, ⟨_, _, _, _, core⟩, _⟩ := coreOnly_setPc (coreOnly_noteIssue (coreOnly_refl s gr) i) n
  rw [core]

theorem mem_setPc_noteIssue (s : State) (gr : GroupRef) (i : Instr) (n : Nat) :
    (setPc (noteIssue s gr i) gr n).mem = s.mem := by
  obtain ⟨fields, _⟩ := coreOnly_setPc (coreOnly_noteIssue (coreOnly_refl s gr) i) n
  rw [fields]

theorem exec_of_mem_arrayRows {gr : GroupRef} {f : FmtX} {i : Instr} {k : ArrKind} (row : (i, k) ∈ arrayRows gr f)
    (s : State) : exec i s = issue gr i (queueMx k gr f) s := by
  simp only [arrayRows, List.mem_cons, List.not_mem_nil, or_false, Prod.mk.injEq] at row
  rcases row with ⟨rfl, rfl⟩ | ⟨rfl, rfl⟩ | ⟨rfl, rfl⟩ | ⟨rfl, rfl⟩ | ⟨rfl, rfl⟩ | ⟨rfl, rfl⟩ <;> rfl

/-- A command with room in the queue enters it at its end, and leaves registers and memory alone. -/
theorem queueMx_done {s : State} {gr : GroupRef} {g : Group} {f : FmtX} {k : ArrKind} (resident : groupOf s gr.core gr.slot = some g)
    (full : mxDivergent g f = false)
    (aligned : mxMisaligned k f (scalarOff g f.sbase) (scalarOff g f.sscale) (mxOffs g f) = none)
    (inside : mxOutside (coreOf s gr.core).arr (allocBytes (coreOf s gr.core) g.cmd) k f (scalarOff g f.sbase)
      (scalarOff g f.sscale) (mxOffs g f) = false)
    (room : (coreOf s gr.core).arr.queue.length < 16) :
    ∃ u x, queueMx k gr f s g = .done u ∧
      (coreOf u gr.core).arr.queue = (coreOf s gr.core).arr.queue ++
        [mxQueued s gr g k f (scalarOff g f.sbase) (scalarOff g f.sscale) (mxOffs g f)] ∧
      groupOf u gr.core gr.slot = some x ∧ x.v = g.v ∧ x.s = g.s ∧ u.mem = s.mem := by
  have queue := queue_enterQueue s gr g k f (scalarOff g f.sbase) (scalarOff g f.sscale) (mxOffs g f)
  have own := (groupOf_enterQueue s gr g k f (scalarOff g f.sbase) (scalarOff g f.sscale) (mxOffs g f) gr.slot).trans resident
  have body := queueMx_enters full aligned inside room
  split at body
  next => exact ⟨_, g, body, queue, own, rfl, rfl, rfl⟩
  next =>
    obtain ⟨v, sr⟩ := mxNoted_frame f g
    refine ⟨_, mxNoted f g, body, ?_, ?_, v, sr, rfl⟩
    · rw [arr_coreProgress, coreOf_modGroup]
      exact queue
    · rw [groupOf_coreProgress, groupOf_modGroup, own]
      rfl

/-- Settles O26: each row issues by `queueMx`, whose cases are those of the statement. -/
theorem matrixCommandsQueueInOrder : Obligations.MatrixCommandsQueueInOrder := by
  intro s gr g f i k row h base scale offs arr alloc
  have issues := exec_of_mem_arrayRows row s
  refine ⟨fun divergent => h.fault (queueMx_divergent divergent) issues, fun full => ⟨fun l misaligned => ?_,
    fun aligned => ⟨fun outside => ?_, fun inside room => ?_, fun inside noRoom => ?_⟩⟩⟩
  · exact h.fault (queueMx_misaligned full misaligned) issues
  · exact h.fault (queueMx_outside full aligned outside) issues
  · obtain ⟨u, x, body, queue, own, v, sr, mem⟩ := queueMx_done h.resident full aligned inside room
    refine ⟨_, issues.trans (h.done body), mxQueued s gr g k f base scale offs, _, ?_, rfl, rfl, rfl, rfl, rfl, rfl, rfl,
      groupOf_setPc_noteIssue own i _, rfl, v, sr, ?_⟩
    · rw [arr_setPc_noteIssue]
      exact queue
    · rw [mem_setPc_noteIssue]
      exact mem
  · refine ⟨parkGroup s gr .arrayQueue, issues.trans ?_, ?_, rfl, ?_⟩
    · rw [h.run, queueMx_no_room full aligned inside noRoom]
    · simp [parkGroup, h.resident]
    · simp [parkGroup, arr]

end Sys2Proof.Machine
end

