-- ==== Sys2Proof/Proofs/CommandEnds.lean ====
section
/-! What the end of a command leaves of the cores (for O28). Most of its functions leave every core as it is; those that
stop work on a core, or send out of its merging buffer, never put a group into an empty slot. -/

namespace Sys2Proof.Machine
theorem cores_foldl {α : Type} {f : State → α → State} (h : ∀ s x, (f s x).cores = s.cores) (l : List α) (s : State) :
    (l.foldl f s).cores = s.cores := by
  induction l generalizing s with
  | nil => rfl
  | cons x l ih => exact (ih _).trans (h s x)

theorem cores_ite {p : Prop} [Decidable p] {a b s : State} (ha : a.cores = s.cores) (hb : b.cores = s.cores) :
    (if p then a else b).cores = s.cores := by
  split
  · exact ha
  · exact hb

/-! ### The slices (R240, R244) -/

/-- A safe point writes registers and what waits to be applied, and nothing else (R468). -/
theorem safePoint_changes (s : State) (page addr : Nat) :
    ∃ regs applying, safePoint s page addr = { s with regs, applying } := by
  unfold safePoint
  split
  · exact ⟨_, _, rfl⟩
  · split
    · exact ⟨_, _, rfl⟩
    · dsimp only
      split <;> exact ⟨_, _, rfl⟩

theorem safePoint_cores (s : State) (page addr : Nat) : (safePoint s page addr).cores = s.cores := by
  obtain ⟨_, _, e⟩ := safePoint_changes s page addr
  rw [e]

theorem noteKeep_cores (s : State) (st pa hint : Nat) : (noteKeep s st pa hint).cores = s.cores :=
  cores_ite rfl (cores_ite (safePoint_cores _ _ _) rfl)

theorem l2Buffer_cores (s : State) (st line : Nat) (mask : BitVec 128) (cmd : Option Nat) (old : List Byte) :
    (l2Buffer s st line mask cmd old).cores = s.cores := by
  unfold l2Buffer
  extract_lets _ t
  have ht : t.cores = s.cores := by
    unfold t
    split
    · exact cores_ite rfl rfl
    · rfl
  split
  · exact cores_ite rfl rfl
  · exact cores_ite ht ht

theorem acceptAtL2_cores (s : State) (line : Nat) (mask : BitVec 128) (data : List Byte) (cmd : Option Nat) (hint : Nat) :
    (acceptAtL2 s line mask data cmd hint).cores = s.cores := by
  refine cores_ite ((l2Buffer_cores ..).trans ?_) rfl
  split
  · exact noteKeep_cores ..
  · rfl

theorem sendWrite_cores (s : State) (n : Nat) (sh : Bool) (a : Nat) (m : Msg) (cls cmd : Nat) (groups : List Nat) :
    (sendWrite s n sh a m cls cmd groups).cores = s.cores :=
  (sendOrdered_cores _ _).trans (cores_ite rfl rfl)

theorem sendHost_cores (s : State) (a : Nat) (mask : BitVec 128) (data : List Byte) (cmd : Nat) (groups : List Nat) :
    (sendHost s a mask data cmd groups).cores = s.cores :=
  cores_foldl (fun _ _ => (chargeHost_cores _ _ _).trans (hostWrite_cores _ _ _ _ _)) _ s

/-! ### Fences, pairs and records -/

theorem mirrorFence_cores (s : State) (i : Nat) : (mirrorFence s i).cores = s.cores := by
  unfold mirrorFence
  split
  · rfl
  · split
    · rfl
    · exact cores_ite (cores_ite (hostWrite_cores _ _ _ _ _) (errWrite_cores _ _)) rfl

theorem fencePoison_cores (s : State) (i code : Nat) : (fencePoison s i code).cores = s.cores := by
  unfold fencePoison
  split
  · rfl
  · exact cores_ite (mirrorFence_cores ..) rfl

theorem fenceSignal_cores (s : State) (i v : Nat) : (fenceSignal s i v).cores = s.cores := by
  unfold fenceSignal
  split
  · rfl
  · exact cores_ite rfl (cores_ite (fencePoison_cores ..) (cores_ite (errWrite_cores _ _) (mirrorFence_cores ..)))

theorem fenceEnd_cores (s : State) (c : Cmd) (status : Nat) : (fenceEnd s c status).cores = s.cores :=
  cores_ite (cores_ite (fenceSignal_cores ..) (fencePoison_cores ..)) rfl

theorem handOver_cores (s : State) (idx : Nat) : (handOver s idx).cores = s.cores := by
  unfold handOver
  split
  · rfl
  · split
    · exact cores_ite rfl (sendCtl_cores _ _ _ _)
    · rfl

theorem handOver_modPair_cores (s : State) (i : Nat) (f : Pair → Pair) : (handOver (modPair s i f) i).cores = s.cores :=
  (handOver_cores ..).trans (modPair_cores _ _ _)

theorem forOwned_cores (s : State) (node tag : Nat) (f : Pair → Pair) : (forOwned s node tag f).cores = s.cores :=
  cores_foldl (fun _ _ => handOver_modPair_cores ..) _ s

theorem dropWaiter_cores (s : State) (node tag : Nat) : (dropWaiter s node tag).cores = s.cores :=
  cores_foldl (fun _ _ => handOver_modPair_cores ..) _ s

theorem discardAll_cores (s : State) (cmd : Nat) (id : DWord) (tag : Nat) (nodes : List Nat) :
    (discardAll s cmd id tag nodes).cores = s.cores := by
  have dropped : (dropWaiter (discardTag s (nodeId s) tag) (nodeId (discardTag s (nodeId s) tag)) tag).cores = s.cores :=
    (dropWaiter_cores ..).trans (forOwned_cores ..)
  exact cores_ite dropped ((cores_foldl (fun _ _ => sendCtl_cores _ _ _ _) _ _).trans dropped)

theorem putRecord_cores (s : State) (qi : Nat) (q : Queue) (tenant n : Nat) (d : List Byte) (why : HostPend) :
    (putRecord s qi q tenant n d why).2.cores = s.cores := by
  unfold putRecord
  extract_lets
  split
  · split
    · exact hostWrite_cores _ _ _ _ _
    · rfl
  · split <;> rfl

theorem logUnresolved_cores (s : State) (core : Nat) : (logUnresolved s core).cores = s.cores := by
  have known : (incReg (logOnly s Code.hangUnresolved (pgCORE core)) Reg.jckUnresolved 0).cores = s.cores := by simp
  exact cores_ite known ((queueRecovery_cores _ _ _ _).trans known)

theorem dropSuspect_cores (s : State) (i : Nat) : (dropSuspect s i).cores = s.cores := by
  unfold dropSuspect
  refine cores_ite ?_ rfl
  extract_lets
  split
  · exact (logUnresolved_cores ..).trans rfl
  · rfl

theorem forget_cores (s : State) (i : Nat) : (forget s i).cores = s.cores := by
  unfold forget
  split
  · rfl
  · exact (cores_foldl (f := refDec) (fun _ _ => rfl) _ _).trans (dropSuspect_cores ..)

theorem noteStep_cores (s : State) (i : Nat) (c : Cmd) (status : Nat) : (noteStep s i c status).cores = s.cores := by
  unfold noteStep
  split <;> rfl

theorem finish_cores (s : State) (i status : Nat) : (finish s i status).cores = s.cores := by
  unfold finish
  split
  · rfl
  next c _ =>
    have noted := noteStep_cores s i c status
    have ended (t : State) (same : t.cores = s.cores) : (forget (fenceEnd t c status) i).cores = s.cores :=
      (forget_cores ..).trans ((fenceEnd_cores ..).trans same)
    refine cores_ite (ended _ noted) ?_
    split
    · exact ended _ noted
    · exact cores_ite ((putRecord_cores ..).trans noted) (ended _ ((putRecord_cores ..).trans noted))

theorem endQuiet_cores (s : State) (i status : Nat) : (endQuiet s i status).cores = s.cores := by
  unfold endQuiet
  split
  · rfl
  · extract_lets t
    have ht : t.cores = s.cores := by
      unfold t
      split
      · exact discardAll_cores ..
      · rfl
    exact (finish_cores ..).trans ht

theorem endUndispatched_cores (s : State) (i status : Nat) : (endUndispatched s i status).cores = s.cores := by
  unfold endUndispatched
  split
  · rfl
  · exact (endQuiet_cores ..).trans (logCmdEnd_cores _ _ _ _ _ _)

theorem settle_cores (n : Nat) (s : State) : (settle n s).cores = s.cores := by
  induction n generalizing s with
  | zero => rfl
  | succ n ih =>
    unfold settle
    split
    · exact (ih _).trans (endUndispatched_cores ..)
    · rfl

theorem requeue_cores (s : State) (i : Nat) : (requeue s i).cores = s.cores := by
  unfold requeue
  extract_lets
  split
  · rfl
  · exact cores_ite rfl rfl

theorem dropClaims_cores (s : State) (i : Nat) (c : Cmd) : (dropClaims s i c).cores = s.cores := by
  unfold dropClaims
  extract_lets t
  change t.cores = _
  unfold t
  split
  · exact discardAll_cores ..
  · rfl

theorem tellGangEnd_cores (s : State) (gang code : Nat) : (tellGangEnd s gang code).cores = s.cores := by
  unfold tellGangEnd
  split
  · rfl
  · exact cores_foldl (fun _ _ => sendCtl_cores _ _ _ _) _ s

/-! ### The work of a command on its cores -/

theorem foldDrain_cores (s : State) (core cmd : Nat) (d : DrainRun) : (foldDrain s core cmd d).cores = s.cores := by
  have counted : (incReg (incReg (incReg (incReg (incReg (modCmd s cmd fun c =>
      { c with
        invalid := c.invalid + d.qinv, overflow := c.overflow + d.sats + d.ovfs,
        amax := if qpFold d.par then amaxMax c.amax d.amax else c.amax }) Reg.qntNancnt core d.nans) Reg.qntSatcnt core d.sats)
      Reg.qntOvfcnt core d.ovfs) Reg.qntInvcnt core d.qinv) Reg.qntRows core d.rows).cores = s.cores := by simp
  exact cores_ite counted counted

theorem stopAtom_cores (s : State) (i : Nat) (a : AtomRec) : (stopAtom s i a).cores = s.cores := by
  have chosen : (chooseOf s false).2.cores = s.cores := by
    unfold chooseOf
    split <;> rfl
  unfold stopAtom
  extract_lets
  split
  · rfl
  · rfl
  · exact cores_ite chosen chosen
  · rfl
  · rfl

theorem keepEntry_cores (s : State) (e : MergeEntry) : (keepEntry s e).2.cores = s.cores := by
  unfold keepEntry
  split
  · rfl
  · rfl
  · unfold chooseOf
    split <;> rfl

/-- The slot of a core holds no group. -/
def SlotFree (c slot : Nat) (s : State) : Prop := groupOf s c slot = none

section
variable {c slot : Nat} {s : State}

theorem SlotFree.of_cores {t : State} (h : SlotFree c slot s) (e : t.cores = s.cores) : SlotFree c slot t :=
  (groupOf_eq_of_cores e c slot).trans h

theorem SlotFree.ite {p : Prop} [Decidable p] {a b : State} (ha : SlotFree c slot a) (hb : SlotFree c slot b) :
    SlotFree c slot (if p then a else b) := by
  split
  · exact ha
  · exact hb

theorem SlotFree.foldl {α : Type} {f : State → α → State} (keeps : ∀ s x, SlotFree c slot s → SlotFree c slot (f s x))
    {l : List α} (h : SlotFree c slot s) : SlotFree c slot (l.foldl f s) := by
  induction l generalizing s with
  | nil => exact h
  | cons x l ih => exact ih (keeps s x h)

theorem SlotFree.modCore (h : SlotFree c slot s) (d : Nat) {f : CoreSt → CoreSt}
    (keeps : ∀ k, mget k.groups slot = none → mget (f k).groups slot = none) : SlotFree c slot (modCore s d f) := by
  unfold SlotFree groupOf
  by_cases same : c = d
  · subst same
    rw [coreOf_modCore]
    exact keeps _ h
  · rw [coreOf_modCore_ne s f same]
    exact h

theorem mget_filter_none {β : Type} {m : NMap β} {k : Nat} (p : Nat × β → Bool) (h : mget m k = none) :
    mget (m.filter p) k = none := by
  induction m with
  | nil => rfl
  | cons e rest ih =>
    unfold mget at h
    split at h
    · cases h
    next other =>
      rw [List.filter_cons]
      split
      · unfold mget
        rw [if_neg other]
        exact ih h
      · exact ih h

theorem groups_scrPut (k : CoreSt) (cmd off : Nat) (b : Byte) : (scrPut k cmd off b).groups = k.groups := by
  unfold scrPut
  split <;> rfl

theorem groups_scrPutBytes (k : CoreSt) (cmd off : Nat) (b : List Byte) : (scrPutBytes k cmd off b).groups = k.groups := by
  induction b generalizing k off with
  | nil => rfl
  | cons x rest ih => exact (ih _ _).trans (groups_scrPut ..)

theorem groups_putDrain (k : CoreSt) (q : ArrCmd) (off : Nat) (b : List Byte) : (putDrain k q off b).groups = k.groups := by
  have out : (scrOut k q.cmd off (drainSig q) b).groups = k.groups := by
    unfold scrOut
    dsimp only
    split <;> exact groups_scrPutBytes ..
  have fixed (l : List Nat) (k : CoreSt) : (l.foldl (fun k n => fixGo k q.cmd n) k).groups = k.groups := by
    induction l generalizing k with
    | nil => rfl
    | cons n l ih => exact (ih _).trans (groups_scrPut ..)
  exact (fixed _ _).trans out

theorem groups_putRow (k : CoreSt) (q : ArrCmd) (par : List Nat) (i : Nat) (es : List QOut) (e8 : List Nat) :
    (putRow k q par i es e8).groups = k.groups := by
  unfold putRow
  extract_lets _ _ t
  have ht : t.groups = k.groups := groups_putDrain ..
  split
  · exact ht
  · exact (groups_putDrain ..).trans ht

theorem SlotFree.drainRow (h : SlotFree c slot s) (core : Nat) (d : DrainRun) (q : ArrCmd) :
    SlotFree c slot (drainRow s core d q) := by
  refine SlotFree.of_cores (h.modCore core fun k none => ?_) ((pmcEvent_cores _ _ _ _ _).trans (pmcEvent_cores _ _ _ _ _))
  exact (congrArg (mget · slot) (groups_putRow ..)).trans none

theorem SlotFree.drainOut (core n : Nat) {s : State} (h : SlotFree c slot s) : SlotFree c slot (drainOut core n s) := by
  induction n generalizing s with
  | zero => exact h
  | succ n ih =>
    unfold Machine.drainOut
    split
    · exact .ite (ih (h.drainRow ..)) h
    · exact h

theorem SlotFree.stopDrain (h : SlotFree c slot s) (core cmd : Nat) : SlotFree c slot (stopDrain s core cmd) := by
  unfold Machine.stopDrain
  split
  · refine .ite ?_ h
    extract_lets t
    have ht : SlotFree c slot t := h.drainOut ..
    split
    · exact (ht.of_cores (foldDrain_cores ..)).modCore core fun _ none => none
    · exact ht
  · exact h

theorem SlotFree.endEntries (d cmd : Nat) (l : List (Nat × MergeEntry)) {s : State} (h : SlotFree c slot s) :
    SlotFree c slot (endEntries s d cmd l) := by
  induction l generalizing s with
  | nil => exact h
  | cons e l ih =>
    have kept : SlotFree c slot (keepEntry s e.2).2 := h.of_cores (keepEntry_cores ..)
    exact .ite (ih (.ite kept (kept.modCore d fun _ none => none))) (ih h)

theorem SlotFree.stopOnCores (h : SlotFree c slot s) (cmd : Nat) (cores : List Nat) :
    SlotFree c slot (stopOnCores s cmd cores) := by
  unfold Machine.stopOnCores
  extract_lets _ t _ u
  have ht : SlotFree c slot t :=
    .foldl (fun _ d h => ((h.stopDrain d cmd).endEntries ..).modCore d fun _ none => mget_filter_none _ none) h
  have hu : SlotFree c slot u := ht.of_cores rfl
  exact hu.of_cores (cores_foldl (fun _ _ => stopAtom_cores ..) _ _)

theorem SlotFree.dropRun (h : SlotFree c slot s) (i : Nat) : SlotFree c slot (dropRun s i) := by
  unfold Machine.dropRun
  split
  · exact h
  · extract_lets t u v
    have ht : SlotFree c slot t := h.stopOnCores ..
    have hu : SlotFree c slot u := by
      unfold u
      split
      · exact ht.of_cores (discardAll_cores ..)
      · exact ht
    exact hu.of_cores rfl

theorem SlotFree.endMember (h : SlotFree c slot s) (i code : Nat) (again : Bool) :
    SlotFree c slot (endMember s i code again) := by
  unfold Machine.endMember
  split
  · exact h
  · have dropped := h.dropRun i
    refine .ite (.ite (dropped.of_cores (requeue_cores ..)) (dropped.of_cores ?_)) (.ite (.ite (h.of_cores (dropClaims_cores ..))
      (h.of_cores (endUndispatched_cores ..))) h)
    exact (finish_cores ..).trans (logCmdEnd_cores _ _ _ _ _ _)

theorem SlotFree.endGang (h : SlotFree c slot s) (x : Cmd) (code : Nat) (again : Bool) :
    SlotFree c slot (endGang s x code again) := by
  have told (k : Nat) : SlotFree c slot (tellGangEnd s x.d.gangId k) := h.of_cores (tellGangEnd_cores ..)
  refine .ite (told _) ?_
  unfold endGangLocal
  split
  · exact told _
  · exact SlotFree.of_cores (.foldl (fun _ _ h => h.endMember ..) (told _)) rfl

/-- The end of a command puts no group into an empty slot. -/
theorem SlotFree.failCmd (h : SlotFree c slot s) (i code page addr : Nat) : SlotFree c slot (failCmd s i code page addr) := by
  unfold Machine.failCmd failCmdAt
  split
  · exact h
  · have settles {t : State} (ht : SlotFree c slot t) : SlotFree c slot (settled t) := ht.of_cores (settle_cores ..)
    refine .ite ?_ (.ite (settles ?_) h)
    · extract_lets t u
      have ht : SlotFree c slot t := h.of_cores (logCmdNode_cores _ _ _ _ _ _ _)
      have hu : SlotFree c slot u := (ht.dropRun i).of_cores (finish_cores ..)
      exact .ite (settles (ht.endGang ..)) (settles (.ite (hu.endGang ..) hu))
    · exact h.of_cores ((endQuiet_cores ..).trans (logCmdNode_cores _ _ _ _ _ _ _))

/-! ### Entries of a merging buffer (R240) -/

/-- A group that waits for credit waits no more. -/
def creditWoken (g : Group) : Group := if g.wait = .credit then { g with wait := .none } else g

theorem SlotFree.wakeCredit (h : SlotFree c slot s) (core : Nat) : SlotFree c slot (wakeCredit s core) := by
  refine h.modCore core fun k none => ?_
  dsimp only
  split
  · exact (mget_mapValues k.groups creditWoken slot).trans (congrArg (Option.map _) none)
  · exact none

theorem SlotFree.takeEntry (h : SlotFree c slot s) (core id : Nat) (e : MergeEntry) : SlotFree c slot (takeEntry s core id e) := by
  unfold Machine.takeEntry
  extract_lets t u
  have ht : SlotFree c slot t := h.of_cores (cores_ite rfl rfl)
  have hu : SlotFree c slot u := (ht.modCore core (f := fun k => { k with mbuf := mdel k.mbuf id }) fun _ none => none).wakeCredit core
  split
  · exact hu.of_cores (acceptAtL2_cores ..)
  · split
    · exact hu.of_cores (acceptAtL2_cores ..)
    · exact hu
  · split
    · exact hu.failCmd ..
    · exact hu.of_cores (sendWrite_cores ..)
  · exact hu.of_cores (sendHost_cores ..)
  · exact hu

theorem SlotFree.sendEntry (h : SlotFree c slot s) (core id : Nat) : SlotFree c slot (sendEntry s core id) := by
  unfold Machine.sendEntry
  split
  · exact h
  · exact .ite (h.takeEntry ..) (h.modCore core fun _ none => none)

theorem SlotFree.drainIfDone (h : SlotFree c slot s) (cmd : Nat) : SlotFree c slot (drainIfDone s cmd) := by
  unfold Machine.drainIfDone
  split
  · exact h
  · exact .ite (.foldl (fun _ _ h => .foldl (fun _ _ h => h.sendEntry ..) h) h) h

end

/-- A group that has left its slot leaves it empty (R26). -/
theorem slotFree_doSlotFree {s : State} {gr : GroupRef} {g : Group} (h : groupOf s gr.core gr.slot = some g) :
    SlotFree gr.core gr.slot (doSlotFree s gr) := by
  unfold doSlotFree
  split
  next none => cases h.symm.trans none
  next x _ =>
    extract_lets _ _ _ _ _ _ u v
    have hu : SlotFree gr.core gr.slot u := by
      unfold SlotFree groupOf u
      rw [coreOf_modCore]
      exact mget_mdel_same ..
    have hv : SlotFree gr.core gr.slot v := hu.of_cores (pmcEvent_cores _ _ _ _ _)
    exact (hv.of_cores (modCmd_cores _ _ _)).drainIfDone x.cmd

end Sys2Proof.Machine
end

