-- ==== Sys2Proof/Proofs/Launches.lean ====
section
/-! Groups are launched into the slots that their set takes (O28): the slots are distinct, each new group stays as it was put,
and the command counts them. -/

namespace Sys2Proof.Machine

/-! ### The slots of a set (R20, R21, R23, R104) -/

theorem schedSlot_free {l : List (Nat × Nat)} {sched rows slot : Nat} (h : schedSlot l sched rows = some slot) :
    slot ∉ l.map Prod.fst := by
  unfold schedSlot at h
  dsimp only at h
  split at h
  · obtain ⟨n, hn, rfl⟩ := List.mem_map.mp (List.mem_of_find?_eq_some h)
    have free := List.find?_some h
    intro taken
    obtain ⟨e, he, same⟩ := List.mem_map.mp taken
    have mine : e ∈ l.filter fun e => e.1 / 64 == sched := by
      refine List.mem_filter.mpr ⟨he, ?_⟩
      have below : n < 64 := List.mem_range.mp hn
      simp only [beq_iff_eq]
      omega
    simp only [Bool.not_eq_true', List.any_eq_false, beq_iff_eq] at free
    exact free e mine same
  · cases h

theorem nextSlot_free {l : List (Nat × Nat)} {turn rows slot : Nat} (h : nextSlot l turn rows = some slot) :
    slot ∉ l.map Prod.fst := by
  obtain ⟨d, _, hd⟩ := List.mem_filterMap.mp (List.mem_of_mem_head? h)
  exact schedSlot_free hd

/-- The slots of a set are free and distinct. -/
theorem placeSlots_distinct {rows n turn : Nat} {l : List (Nat × Nat)} {slots : List Nat}
    (h : placeSlots rows n l turn = some slots) : slots.Nodup ∧ ∀ slot ∈ slots, slot ∉ l.map Prod.fst := by
  induction n generalizing l turn slots with
  | zero =>
    cases h
    exact ⟨.nil, fun _ none => absurd none List.not_mem_nil⟩
  | succ n ih =>
    unfold placeSlots at h
    split at h
    · cases h
    next slot found =>
      obtain ⟨rest, placed, rfl⟩ := Option.map_eq_some_iff.mp h
      obtain ⟨distinct, free⟩ := ih placed
      refine ⟨List.nodup_cons.mpr ⟨fun again => ?_, distinct⟩, fun x hx => ?_⟩
      · exact free slot again (List.mem_cons_self ..)
      · rcases List.mem_cons.mp hx with rfl | later
        · exact nextSlot_free found
        · exact fun taken => free x later (List.mem_cons_of_mem _ taken)

theorem setFits_distinct {s : State} {core cmd : Nat} {c : Cmd} {slots : List Nat}
    (h : setFits s core cmd c = some slots) : slots.Nodup := by
  unfold setFits at h
  dsimp only at h
  split at h
  · exact (placeSlots_distinct h).1
  · cases h

/-! ### The groups put into them (R24, R25) -/

/-- A group as a launch puts it into its slot. -/
def Launched (c : Cmd) (cmd index : Nat) (g : Group) : Prop :=
  g.cmd = cmd ∧ g.index = index ∧ g.pc = 0 ∧ g.launch = launchMask c g.index ∧ g.am = g.launch ∧ g.ended = false

theorem groupOf_putGroups_ne {slots : List Nat} {slot : Nat} (s : State) (core cmd : Nat) (c : Cmd) (i : Nat)
    (h : slot ∉ slots) : groupOf (putGroups s core cmd c slots i) core slot = groupOf s core slot := by
  induction slots generalizing s i with
  | nil => rfl
  | cons first rest ih =>
    obtain ⟨other, later⟩ := not_or.mp (mt List.mem_cons.mpr h)
    unfold putGroups
    rw [ih _ _ later, groupOf_pmcEvent]
    simp [groupOf, mget_mset_ne _ _ other]

theorem groupOf_putGroups {slots : List Nat} (distinct : slots.Nodup) (s : State) (core cmd : Nat) (c : Cmd) (i j : Nat)
    {slot : Nat} (h : slots[j]? = some slot) :
    ∃ g, groupOf (putGroups s core cmd c slots i) core slot = some g ∧ Launched c cmd (i + j) g := by
  induction slots generalizing s i j with
  | nil => cases h
  | cons first rest ih =>
    obtain ⟨once, others⟩ := List.nodup_cons.mp distinct
    unfold putGroups
    cases j with
    | zero =>
      cases h
      refine ⟨newGroup s core cmd c i, ?_, rfl, rfl, rfl, rfl, rfl, rfl⟩
      rw [groupOf_putGroups_ne _ _ _ _ _ once, groupOf_pmcEvent]
      simp [groupOf]
    | succ j =>
      obtain ⟨g, put, launched⟩ := ih others _ (i + 1) j h
      exact ⟨g, put, by rwa [Nat.add_right_comm] at launched⟩

/-! ### The command that launches (R104) -/

theorem safePoint_cmds (s : State) (page addr : Nat) : (safePoint s page addr).cmds = s.cmds := by
  obtain ⟨_, _, e⟩ := safePoint_changes s page addr
  rw [e]

theorem noteWork_cmds (s : State) (core : Nat) : (noteWork s core).cmds = s.cmds := by
  unfold noteWork
  split <;> rfl

theorem prepareArray_cmds (s : State) (core cmd : Nat) : (prepareArray s core cmd).cmds = s.cmds := by
  have cleared (rs : List RegDef) (t : State) : (rs.foldl (fun s r => setReg s r core 0) t).cmds = t.cmds := by
    induction rs generalizing t with
    | nil => rfl
    | cons r rest ih => exact ih _
  exact (cleared _ _).trans (safePoint_cmds _ _ _)

theorem firstOnCore_cmds (s : State) (core cmd : Nat) (c : Cmd) : (firstOnCore s core cmd c).cmds = s.cmds := by
  unfold firstOnCore
  split
  · rfl
  · dsimp only
    split
    · exact prepareArray_cmds ..
    · rfl

theorem putGroups_cmds (s : State) (core cmd : Nat) (c : Cmd) (slots : List Nat) (i : Nat) :
    (putGroups s core cmd c slots i).cmds = s.cmds := by
  induction slots generalizing s i with
  | nil => rfl
  | cons slot rest ih =>
    unfold putGroups
    rw [ih, pmcEvent_cmds]
    rfl

section
variable {s : State} {core cmd : Nat} {c : Cmd} {slots : List Nat}

/-- A launch: the core prepared, the groups put into their slots, the command's counts raised. -/
theorem doGroupLaunch_of_fits (hc : cmdOf s cmd = some c) (fits : setFits s core cmd c = some slots) :
    ∃ t f, doGroupLaunch s core cmd = modCmd (putGroups t core cmd c slots c.nextGroup) cmd f ∧ t.cmds = s.cmds ∧
      ∀ x, (f x).nextGroup = x.nextGroup + slots.length ∧ (f x).liveGroups = x.liveGroups + slots.length := by
  unfold doGroupLaunch
  rw [hc]
  dsimp only
  rw [fits]
  refine ⟨_, _, rfl, ?_, fun x => ⟨rfl, rfl⟩⟩
  rw [firstOnCore_cmds]
  exact (safePoint_cmds ..).trans (noteWork_cmds ..)

theorem cmdOf_launched (hc : cmdOf s cmd = some c) (fits : setFits s core cmd c = some slots) :
    ∃ c', cmdOf (doGroupLaunch s core cmd) cmd = some c' ∧
      c'.nextGroup = c.nextGroup + slots.length ∧ c'.liveGroups = c.liveGroups + slots.length := by
  obtain ⟨t, f, launch, cmds, counted⟩ := doGroupLaunch_of_fits hc fits
  have kept : mget (putGroups t core cmd c slots c.nextGroup).cmds cmd = some c := by
    rw [putGroups_cmds, cmds]
    exact hc
  refine ⟨f c, ?_, counted c⟩
  simp [launch, cmdOf, modCmd, kept]

theorem groupOf_launched (hc : cmdOf s cmd = some c) (fits : setFits s core cmd c = some slots) {j slot : Nat}
    (h : slots[j]? = some slot) :
    ∃ g, groupOf (doGroupLaunch s core cmd) core slot = some g ∧ Launched c cmd (c.nextGroup + j) g := by
  obtain ⟨t, f, launch, _⟩ := doGroupLaunch_of_fits hc fits
  rw [launch]
  exact groupOf_putGroups (setFits_distinct fits) t core cmd c c.nextGroup j h

end

/-! ### The statement -/

theorem slotFreeReady_ended {s : State} {gr : GroupRef} {g : Group} (resident : groupOf s gr.core gr.slot = some g)
    (ready : slotFreeReady s gr = true) : g.ended = true := by
  simp only [slotFreeReady, resident, Bool.and_eq_true] at ready
  obtain ⟨⟨⟨⟨ended, _⟩, _⟩, _⟩, _⟩ := ready
  exact ended

/-- Settles O28: a slot is freed by `slotFree_doSlotFree`, and a launch is `groupOf_launched` and `cmdOf_launched`. -/
theorem groupsLaunchAndLeave : Obligations.GroupsLaunchAndLeave := by
  intro s core cmd c hc
  refine ⟨fun gr g resident ready => ?_, fun gr idle => ?_, fun slots ready fits => ?_, fun idle => ?_⟩
  · exact ⟨if_pos ready, slotFreeReady_ended resident ready, slotFree_doSlotFree resident⟩
  · exact if_neg (by simp [idle])
  · exact ⟨if_pos ready, cmdOf_launched hc fits, fun j slot h => groupOf_launched hc fits h⟩
  · exact if_neg (by simp [idle])

end Sys2Proof.Machine
end

