-- ==== Sys2Proof/Proofs/ScratchpadBuffers.lean ====
section
/-! Scratchpad allocation and the buffers of a core (O29). -/

namespace Sys2Proof.Machine

/-! ### Scratchpad (R232, R233, R235) -/

section
variable {s : State} {core : Nat}

/-- An allocation takes the lowest free granules, which then read zero and keep the next allocation waiting. -/
theorem scratchAllocate_gives {cmd : Nat} {c : Cmd} (hc : cmdOf s cmd = some c) (ready : scratchReady s core cmd = true) :
    Gives (.scratchAllocate core cmd) s fun t =>
      let gs := (freeGranules (coreOf s core)).take (granulesFor c.d)
      mget (coreOf t core).allocs cmd = some ⟨gs⟩ ∧
      (∀ e ∈ (coreOf t core).scratch, e.1 / 65536 ∉ gs) ∧
      (gs ≠ [] → (coreOf t core).zeroing = some (cmd, coreCyc s core + 64 * gs.length)) ∧
      t = { s with cores := t.cores } := by
  refine ⟨doScratchAllocate s core cmd, if_pos ready, ?_⟩
  unfold doScratchAllocate
  rw [hc]
  dsimp only
  rw [coreOf_modCore]
  refine ⟨mget_mset_same .., fun e he => ?_, fun some_ => ?_, rfl⟩
  · simpa using (List.mem_filter.mp he).2
  · exact if_neg (by simpa using some_)

theorem scratchFree_gives {cmd : Nat} (ready : scratchFreeable s core cmd = true) :
    Gives (.scratchFree core cmd) s fun t =>
      (coreOf t core).allocs = mdel (coreOf s core).allocs cmd ∧ t = { s with cores := t.cores } :=
  ⟨_, if_pos ready, by rw [coreOf_modCore], rfl⟩

theorem scratchAccessPromote_gives {bank : Nat} (ready : promotable s core bank = true) :
    Gives (.scratchAccessPromote core bank) s fun t =>
      mget (coreOf t core).promoted bank = some (coreCyc s core) ∧ t.mem = s.mem := by
  refine ⟨doPromote s core bank, if_pos ready, ?_, pmcEvent_mem _ _ _ _ _⟩
  have counted (a : State) (p c k : Nat) (x : Option Nat) : coreOf (pmcEvent a p c k x) core = coreOf a core := by
    simp [coreOf]
  unfold doPromote
  dsimp only
  rw [counted, coreOf_modCore]
  exact mget_mset_same ..

/-! ### Merging-buffer entries and egress buffers (R240, R254, R668) -/

variable {id : Nat} {e : MergeEntry} {u : Upset}

theorem entryDue_iff (held : mget (coreOf s core).mbuf id = some e) :
    entryDue s core id = true ↔ e.opened + 256 ≤ coreCyc s core := by
  simp [entryDue, held]

theorem mergeEntryTimeout_due (held : mget (coreOf s core).mbuf id = some e) (sound : u ≠ .uncorrectable)
    (due : e.opened + 256 ≤ coreCyc s core) : exec (.mergeEntryTimeout core id u) s = .next (sendEntry s core id) :=
  (if_neg sound).trans (if_pos ((entryDue_iff held).mpr due))

theorem mergeEntryTimeout_early (held : mget (coreOf s core).mbuf id = some e) (sound : u ≠ .uncorrectable)
    (early : coreCyc s core < e.opened + 256) : exec (.mergeEntryTimeout core id u) s = .next s :=
  (if_neg sound).trans (if_neg fun due => Nat.not_le.mpr early ((entryDue_iff held).mp due))

theorem egressReady_store (held : mget (coreOf s core).mbuf id = some e) :
    egressReady s core (.store id) = (e.sent && entryTaken s core e) := by
  simp [egressReady, held]

theorem egressAccept_store (held : mget (coreOf s core).mbuf id = some e) (sent : e.sent = true)
    (taken : entryTaken s core e = true) :
    exec (.egressAccept core (.store id) u) s = .next (doEgress s core u (.store id)) :=
  if_pos (by rw [egressReady_store held, sent, taken]; rfl)

theorem doEgress_store (held : mget (coreOf s core).mbuf id = some e) (sound : u ≠ .uncorrectable)
    (taken : entryTaken s core e = true) : doEgress s core u (.store id) = takeEntry s core id e := by
  refine (if_neg sound).trans ?_
  unfold sendEntry
  rw [held]
  exact if_pos taken

/-- An entry that is lost leaves the buffer, and its command ends. -/
theorem loseEntry_eq (held : mget (coreOf s core).mbuf id = some e) :
    ∃ t : State, (coreOf t core).mbuf = mdel (coreOf s core).mbuf id ∧
      loseEntry s core id =
        failCmd (sramError t core (pgTMV core) Code.memEccUncorr) e.cmd Code.memEccUncorr (pgTMV core) 0 := by
  refine ⟨wakeCredit (modCore s core fun k => { k with mbuf := mdel k.mbuf id }) core, ?_, ?_⟩
  · simp [wakeCredit]
  · unfold loseEntry
    rw [held]

end

/-- Settles O29: scratchpad by its four events, an entry of a merging buffer by its time, its error and the next stage. -/
theorem scratchpadAllocationAndBuffers : Obligations.ScratchpadAllocationAndBuffers := by
  refine ⟨fun s core => ⟨fun cmd c hc ready => scratchAllocate_gives hc ready, fun cmd ready => scratchFree_gives ready,
    fun cmd idle => if_neg (by simp [idle]), fun bank ready => scratchAccessPromote_gives ready,
    fun bank idle => if_neg (by simp [idle])⟩, fun s core id e held => ⟨fun u sound => ⟨?_, ?_, ?_, ?_⟩, ?_, ?_, ?_, ?_⟩⟩
  · exact mergeEntryTimeout_due held sound
  · exact mergeEntryTimeout_early held sound
  · exact fun sent taken => (egressAccept_store held sent taken).trans (congrArg _ (doEgress_store held sound taken))
  · exact fun unsent => if_neg (by simp [egressReady_store held, unsent])
  · exact loseEntry_eq held
  · rfl
  · exact egressAccept_store held
  · exact fun u x ready => if_pos ready

end Sys2Proof.Machine
end

