-- ==== Sys2Proof/Proofs/TranslationEvents.lean ====
section
/-! Walk timeouts, fault records and the invalidation ring (O38). -/

namespace Sys2Proof.Machine

/-- Each row's command does nothing where its condition does not hold. -/
theorem idle_nil (s : State) : Idle s [] := fun _ none => absurd none List.not_mem_nil

theorem idle_cons {s : State} {i : Instr} {b : Bool} {rows : List (Instr × Bool)} (first : b = false → exec i s = .next s)
    (rest : Idle s rows) : Idle s ((i, b) :: rows) := by
  intro e he off
  rcases List.mem_cons.mp he with rfl | later
  · exact first off
  · exact rest e later off

theorem if_off {b : Bool} {α : Type} {x y : α} (off : b = false) : (if b = true then x else y) = y :=
  if_neg (by simp [off])

/-! ### Walks and fault records (R334–R340) -/

theorem walkLate_of_walk {s : State} {walk : Nat} {w : Walk} (h : mget s.xlt.walks walk = some w) :
    walkLate s walk = since s w.start (usec 50) := by
  simp [walkLate, h]

/-- The tail of the fault ring counts each record (R336). -/
theorem fringTail_doFaultPost {s : State} (ready : postReady s = true) :
    reg (doFaultPost s) Reg.xltFringTail = (reg s Reg.xltFringTail + 1) % 2 ^ 32 := by
  obtain ⟨⟨k, r⟩, found⟩ : ∃ e, unposted s = some e := Option.isSome_iff_exists.mp (by
    simp only [postReady, Bool.and_eq_true] at ready
    exact ready.1)
  unfold doFaultPost
  rw [found]
  dsimp only
  rw [reg_pmcEvent _ _ _ _ _ _ _ (by decide) (by decide), reg_setReg]
  omega

/-! ### The invalidation ring (R341–R343) -/

theorem readInv_xlt (s : State) : (readInv s).xlt = s.xlt := by
  unfold readInv hostRead
  split
  · split <;> rfl
  · rfl

/-- After an invalidation no translation that it names is cached. -/
theorem cache_doInvalidation (s : State) (e : InvEntry) :
    ∀ x ∈ (doInvalidation s e).xlt.cache, invHits (invSeen s e) x.ctx x.va x.size = false := by
  intro x hx
  unfold doInvalidation at hx
  rw [readInv_xlt] at hx
  simpa using (List.mem_filter.mp hx).2

section
variable (s : State)

/-- The end of an invalidation, before it is reported. -/
def invCounted : State :=
  pmcEvent (setReg { s with xlt := { s.xlt with invPending := s.xlt.invPending.tail } } Reg.xltIringDone 0
    ((reg s Reg.xltIringDone + 1) % 2 ^ 32)) pgXLT 0x0106 1 none

theorem doInvDone_cases :
    doInvDone s = invCounted s ∨ ∃ d, doInvDone s = hostWrite (invCounted s) 0 (reg (invCounted s) Reg.xltIdoneAddr) d .other := by
  unfold doInvDone
  dsimp only
  split
  · exact .inl rfl
  · exact .inr ⟨_, rfl⟩

theorem invCounted_done : reg (invCounted s) Reg.xltIringDone = (reg s Reg.xltIringDone + 1) % 2 ^ 32 := by
  unfold invCounted
  rw [reg_pmcEvent _ _ _ _ _ _ _ (by decide) (by decide), reg_setReg]
  omega

/-- The end of an invalidation is counted, and nothing but its report goes to the host. -/
theorem doInvDone_effect :
    (doInvDone s).xlt.invPending = s.xlt.invPending.tail ∧ (doInvDone s).mem = s.mem ∧
      reg (doInvDone s) Reg.xltIringDone = (reg s Reg.xltIringDone + 1) % 2 ^ 32 := by
  have counted := invCounted_done s
  rcases doInvDone_cases s with e | ⟨d, e⟩ <;> rw [e]
  · exact ⟨by simp [invCounted], by simp [invCounted], counted⟩
  · refine ⟨by simp [invCounted], by simp [invCounted], (reg_of_regs ?_).trans counted⟩
    rw [hostWrite_regs]

end

/-- Settles O38: each event is its own function where its condition holds, and nothing elsewhere. -/
theorem translationFaultsAndInvalidations : Obligations.TranslationFaultsAndInvalidations := by
  refine fun s walk seq e => ⟨fun late => if_pos late, fun w h => by rw [walkLate_of_walk h],
    fun ready => ⟨if_pos ready, fringTail_doFaultPost ready⟩, fun late => if_pos late,
    fun ready => ⟨if_pos ready, cache_doInvalidation s e⟩, fun ready => ⟨if_pos ready, doInvDone_effect s⟩, ?_⟩
  exact idle_cons if_off <| idle_cons if_off <| idle_cons if_off <| idle_cons if_off <| idle_cons if_off <| idle_nil s

end Sys2Proof.Machine
end

