-- ==== Sys2Proof/Proofs/Preemption.lean ====
section
/-! Time slices, saves and restores (O40), and the sequence engine (O41). -/

namespace Sys2Proof.Machine

/-! ### The end of a time slice (R520) -/

theorem sliceDue_doSliceExpire (s : State) (cmd : Nat) : cmd ∈ (doSliceExpire s cmd).sch.sliceDue := by
  obtain ⟨_, _, e⟩ := safePoint_changes { s with sch := { s.sch with sliceDue := cmd :: s.sch.sliceDue } } pgSCH
    (Reg.schSlice.at_ 0)
  have marked : doSliceExpire s cmd = _ := e
  rw [marked]
  exact List.mem_cons_self ..

/-! ### The fallback of a MARKED save (R524) -/

/-- A group of the command that still runs is stopped. -/
def stoppedFull (cmd : Nat) (g : Group) : Group := if g.cmd = cmd ∧ g.halt = .run then { g with halt := .full } else g

/-- Every running group of the command on a core is stopped. -/
def stopFull (cmd : Nat) (s : State) (core : Nat) : State :=
  modCore s core fun k => { k with groups := k.groups.map fun e => (e.1, stoppedFull cmd e.2) }

/-- No group of the command runs on the core. -/
def NoneRuns (cmd core : Nat) (s : State) : Prop := ∀ e ∈ (coreOf s core).groups, e.2.cmd = cmd → e.2.halt ≠ .run

theorem stoppedFull_halt {cmd : Nat} {g : Group} (mine : (stoppedFull cmd g).cmd = cmd) :
    (stoppedFull cmd g).halt ≠ .run := by
  unfold stoppedFull at mine ⊢
  split at mine
  next runs =>
    rw [if_pos runs]
    exact fun e => nomatch e
  next other =>
    rw [if_neg other]
    exact fun runs => other ⟨mine, runs⟩

theorem noneRuns_stopFull (cmd : Nat) (s : State) (core : Nat) : NoneRuns cmd core (stopFull cmd s core) := by
  intro e he mine
  rw [stopFull, coreOf_modCore] at he
  obtain ⟨x, _, rfl⟩ := List.mem_map.mp he
  exact stoppedFull_halt mine

theorem NoneRuns.stopFull {cmd core : Nat} {s : State} (h : NoneRuns cmd core s) (other : Nat) :
    NoneRuns cmd core (stopFull cmd s other) := by
  by_cases same : core = other
  · exact same ▸ noneRuns_stopFull cmd s core
  · unfold NoneRuns Machine.stopFull
    rw [coreOf_modCore_ne s _ same]
    exact h

theorem noneRuns_foldl {cmd core : Nat} {cores : List Nat} (h : core ∈ cores) (s : State) :
    NoneRuns cmd core (cores.foldl (stopFull cmd) s) := by
  have kept (l : List Nat) (t : State) (ht : NoneRuns cmd core t) : NoneRuns cmd core (l.foldl (stopFull cmd) t) := by
    induction l generalizing t with
    | nil => exact ht
    | cons k l ih => exact ih _ (ht.stopFull k)
  induction cores generalizing s with
  | nil => cases h
  | cons k rest ih =>
    rcases List.mem_cons.mp h with rfl | later
    · exact kept rest _ (noneRuns_stopFull cmd s core)
    · exact ih later _

/-- The fallback stops every group of the command that still runs. -/
theorem noneRuns_markFull {s : State} {cmd core : Nat} {c : Cmd} (hc : cmdOf s cmd = some c) (h : core ∈ c.cores) :
    NoneRuns cmd core (markFull s cmd) := by
  have full : markFull s cmd = pmcEvent (c.cores.foldl (stopFull cmd) s) pgSCH 0x0103 1 (some c.ctx) := by
    unfold markFull
    rw [hc]
    rfl
  have stops : NoneRuns cmd core (c.cores.foldl (stopFull cmd) s) := noneRuns_foldl h s
  rw [full]
  unfold NoneRuns coreOf at stops ⊢
  rwa [pmcEvent_cores]

/-! ### The end of a save (R525) -/

section
variable {s : State} {cmd t : Nat} {c : Cmd} (hc : cmdOf s cmd = some c) (saving : c.phase = .saving t)
include hc saving

theorem exec_contextSaveDone :
    exec (.contextSaveDone cmd) s = if saveStill s cmd c then .next (doSaveDone s cmd c) else .next s := by
  refine Eq.trans (b := execContextSaveDone cmd s) rfl ?_
  unfold execContextSaveDone
  rw [hc]
  dsimp only
  rw [saving]

end

/-- Settles O40: each event is its own function where it is due, and `markFull` stops the groups that still run. -/
theorem preemptionSavesAndRestores : Obligations.PreemptionSavesAndRestores := by
  refine fun s cmd victim waiting cores => ⟨fun ready => if_pos ready,
    fun due => ⟨if_pos due, sliceDue_doSliceExpire s cmd⟩, fun late => if_pos late,
    fun c hc k hk => noneRuns_markFull hc hk, fun late => if_pos late, fun ready => if_pos ready, ?_, ?_, ?_⟩
  · exact idle_cons if_off <| idle_cons if_off <| idle_cons if_off <| idle_cons if_off <| idle_cons if_off <| idle_nil s
  · exact fun c t hc saving still => (exec_contextSaveDone hc saving).trans (if_pos still)
  · exact fun c t hc saving busy => (exec_contextSaveDone hc saving).trans (if_off busy)

/-! ### Admission entries (R533–R535) -/

section
variable {s : State} {queue m op : Nat} {e : Admission} (next : nextAdmission s queue = some (m, op, e))
include next

theorem exec_seqAdmit :
    exec (.seqAdmit queue) s =
      if op = 2 ∨ op = 3 ∨ op = 4 then .next s
      else .next (if op = 1 ∧ admitOk (takeAdmission s queue) m e = true then doAdmit (takeAdmission s queue) queue m e
        else refuseEntry (takeAdmission s queue) queue e) := by
  refine Eq.trans (b := execSeqAdmit queue s) rfl ?_
  unfold execSeqAdmit
  rw [next]

theorem exec_pause :
    exec (.pause queue) s = if op = 2 then .next (doPause (takeAdmission s queue) queue m e) else .next s := by
  refine Eq.trans (b := execPause queue s) rfl ?_
  unfold execPause
  rw [next]

theorem exec_resume :
    exec (.resume queue) s = if op = 3 then .next (doResume (takeAdmission s queue) queue m e) else .next s := by
  refine Eq.trans (b := execResume queue s) rfl ?_
  unfold execResume
  rw [next]

theorem exec_release :
    exec (.release queue) s = if op = 4 then .next (doRelease (takeAdmission s queue) queue m e) else .next s := by
  refine Eq.trans (b := execRelease queue s) rfl ?_
  unfold execRelease
  rw [next]

theorem seqAdmit_admits (admits : op = 1) (ok : admitOk (takeAdmission s queue) m e = true) :
    exec (.seqAdmit queue) s = .next (doAdmit (takeAdmission s queue) queue m e) := by
  rw [exec_seqAdmit next, if_neg (by omega), if_pos ⟨admits, ok⟩]

/-- A bad ADMIT, and an OP that is none of the four, is refused (R535). -/
theorem seqAdmit_refuses (bad : op = 1 ∧ admitOk (takeAdmission s queue) m e = false ∨ op = 0 ∨ 4 < op) :
    exec (.seqAdmit queue) s = .next (refuseEntry (takeAdmission s queue) queue e) := by
  have refused : ¬(op = 1 ∧ admitOk (takeAdmission s queue) m e = true) := by
    rintro ⟨admits, ok⟩
    rcases bad with ⟨_, no⟩ | zero | high
    · simp [ok] at no
    · omega
    · omega
  rw [exec_seqAdmit next, if_neg (by omega), if_neg refused]

end

/-- An entry that is admitted is PREFILL, with the entry's operands (R534). -/
theorem seqGet_doAdmit {s : State} {queue m i : Nat} {e : Admission} {k : Queue} (index : seqIndex s m e = some i)
    (there : mget s.obj.queues queue = some k) :
    ∃ x, seqGet (doAdmit s queue m e) i = some x ∧ x.state = 1 ∧ x.model = m ∧ x.prio = e.prio ∧ x.promptLeft = e.prompt ∧
      x.length = 0 ∧ x.maxLen = e.maxLen ∧ x.kvList = e.kvList ∧ x.kvPages = e.kvPages ∧ x.user = e.cmdId ∧
      x.deadline = e.deadline ∧ x.queue = queue := by
  unfold doAdmit
  rw [index, there]
  exact ⟨_, mget_mset_same .., rfl, rfl, rfl, rfl, rfl, rfl, rfl, rfl, rfl, rfl, rfl⟩

/-- Settles O41: steps and calibration where they are due, and an admission entry by its OP. -/
theorem sequencesAreAdmittedAndStep : Obligations.SequencesAreAdmittedAndStep := by
  refine fun s queue model meter unattr shares results l => ⟨fun ready => if_pos ready, idle_cons if_off (idle_nil s),
    fun k due => ?_, fun idle => ?_, fun st running ended => ?_, fun m op e next => ⟨?_, ?_, ?_, ?_, ?_, ?_, ?_, ?_⟩,
    fun m e i k index there => seqGet_doAdmit index there⟩
  · refine Eq.trans (b := execSeqStepRelease l s) rfl ?_
    simp only [execSeqStepRelease, due]
  · refine Eq.trans (b := execSeqStepRelease l s) rfl ?_
    simp only [execSeqStepRelease, idle]
  · refine Eq.trans (b := execSeqStepEnd model results s) rfl ?_
    simp [execSeqStepEnd, running, ended]
  · exact seqAdmit_admits next
  · exact seqAdmit_refuses next
  · exact fun pause => (exec_pause next).trans (if_pos pause)
  · exact fun resume => (exec_resume next).trans (if_pos resume)
  · exact fun release => (exec_release next).trans (if_pos release)
  · exact fun other => (exec_pause next).trans (if_neg other)
  · exact fun other => (exec_resume next).trans (if_neg other)
  · exact fun other => (exec_release next).trans (if_neg other)

end Sys2Proof.Machine
end

