-- ==== Sys2Proof/Proofs/ErrorRing.lean ====
section
/-! O57: the error ring's reserve and its numbers, and the first error of a page. An entry takes one of three ways: it is
dropped and counted, it makes a warm reset due, or it is written; each of the three is an equation of its own. -/

namespace Sys2Proof.Machine

/-! ### The three ways of an entry -/

theorem errWrite_drop {s : State} {e : ErrEntry} (sev : e.sev ≤ 2) (full : errFree s < 17) :
    errWrite s e = pmcEvent (incReg s Reg.errDropped 0) pgERR 0x0101 1 none :=
  if_pos ⟨sev, full⟩

theorem errWrite_due {s : State} {e : ErrEntry} (sev : 2 < e.sev) (full : errFree s = 0) :
    errWrite s e = dueWarm s 3 e.code :=
  (if_neg fun h => by omega).trans (if_pos full)

/-- The state with an entry in the ring at the tail's place, and in the mirror where the host has one. -/
def ringWritten (s : State) (e : ErrEntry) : State :=
  let n := reg s Reg.errTail
  let e := { e with seq := n }
  let s := { s with err := { s.err with ring := e :: s.err.ring.filter (fun x => x.seq % 256 != n % 256) } }
  if reg s Reg.errDest = 0 then s else hostWrite s 0 (reg s Reg.errDest + 64 * (n % 256)) (errBytes e) .other

theorem errWrite_write {s : State} {e : ErrEntry} (room : 17 ≤ errFree s ∨ (2 < e.sev ∧ 0 < errFree s)) :
    errWrite s e = pmcEvent (setReg (ringWritten s e) Reg.errTail 0 (reg s Reg.errTail + 1)) pgERR 0x0100 1 none :=
  (if_neg fun h => by omega).trans (if_neg (by omega))

theorem ringWritten_ring (s : State) (e : ErrEntry) :
    (ringWritten s e).err.ring =
      { e with seq := reg s Reg.errTail } ::
        s.err.ring.filter fun x => x.seq % 256 != reg s Reg.errTail % 256 := by
  unfold ringWritten
  dsimp only
  split
  · rfl
  · rw [hostWrite_err]

/-! ### The ring's registers and the events counted on its page -/

/-- Counting an event on page ERR leaves the ring's registers alone. -/
theorem reg_errEvent (s : State) (code : Nat) (r : RegDef) (low : r.at_ 0 < 0x014F04) :
    reg (pmcEvent s pgERR code 1 none) r = reg s r :=
  have low : r.at_ 0 < pgERR + 0xF04 := low
  reg_pmcEvent _ _ _ _ _ _ _ (by omega) (by omega)

theorem errWrite_drop_tail {s : State} {e : ErrEntry} (sev : e.sev ≤ 2) (full : errFree s < 17) :
    reg (errWrite s e) Reg.errTail = reg s Reg.errTail := by
  rw [errWrite_drop sev full, reg_errEvent _ _ _ (by decide)]
  exact reg_setReg_ne _ _ (by decide)

theorem errWrite_drop_count {s : State} {e : ErrEntry} (sev : e.sev ≤ 2) (full : errFree s < 17) :
    reg (errWrite s e) Reg.errDropped = satInc (reg s Reg.errDropped) 1 % 2 ^ 64 := by
  rw [errWrite_drop sev full, reg_errEvent _ _ _ (by decide)]
  exact reg_setReg ..

theorem errWrite_write_tail {s : State} {e : ErrEntry} (room : 17 ≤ errFree s ∨ (2 < e.sev ∧ 0 < errFree s)) :
    reg (errWrite s e) Reg.errTail = (reg s Reg.errTail + 1) % 2 ^ 64 := by
  rw [errWrite_write room, reg_errEvent _ _ _ (by decide)]
  exact reg_setReg ..

theorem errWrite_write_ring {s : State} {e : ErrEntry} (room : 17 ≤ errFree s ∨ (2 < e.sev ∧ 0 < errFree s)) :
    (errWrite s e).err.ring =
      { e with seq := reg s Reg.errTail } ::
        s.err.ring.filter fun x => x.seq % 256 != reg s Reg.errTail % 256 := by
  rw [errWrite_write room, pmcEvent_err, setReg_err, ringWritten_ring]

/-! ### ERR_HEAD -/

theorem doErrHead_outside {s : State} {v : Nat} (outside : v < reg s Reg.errHead ∨ reg s Reg.errTail < v) :
    doErrHead s v = s :=
  if_pos outside

theorem doErrHead_inside {s : State} {v : Nat} (above : reg s Reg.errHead ≤ v) (below : v ≤ reg s Reg.errTail) :
    doErrHead s v = setReg s Reg.errHead 0 v :=
  if_neg (by omega)

/-! ### PG_ERR -/

/-- What PG_ERR reads as after an error: the first error it held, or else this one. -/
theorem pgErr_latch (s : State) (page code : Nat) :
    rawReg (pgErr s page code) (hPgErr page) 0 =
      if rawReg s (hPgErr page) 0 ≥ 2 ^ 31 then rawReg s (hPgErr page) 0 else (2 ^ 31 + code) % 2 ^ 64 := by
  have apart : hPgErr page ≠ hPgErrcnt page := by simp [hPgErr, hPgErrcnt]
  unfold pgErr
  dsimp only
  rw [rawReg_of_regs (pmcEvent_regs _ _ _ _ _ _ (by simp [hPgErr]) (by simp [hPgErr])), rawReg_setRaw_ne _ _ _ apart]
  split
  · exact rawReg_setRaw_ne _ _ _ apart
  · exact rawReg_setRaw ..

/-- Settles O57: the three ways of an entry, ERR_HEAD inside and outside its bounds, and PG_ERR's latch. -/
theorem errorRingAndPageErrors : Obligations.ErrorRingAndPageErrors := by
  intro s e v page code
  refine ⟨fun sev full => ⟨?_, errWrite_drop_tail sev full, errWrite_drop_count sev full⟩, errWrite_due,
    fun room => ⟨?_, errWrite_write_tail room, fun x mem apart => ?_⟩, doErrHead_outside, fun above below small => ?_,
    fun _ narrow => ⟨fun held => ?_, fun free => ?_⟩⟩
  · rw [errWrite_drop sev full, pmcEvent_err, incReg_err]
  · rw [errWrite_write_ring room, List.head?_cons]
  · rw [errWrite_write_ring room]
    exact List.mem_cons_of_mem _ (List.mem_filter.2 ⟨mem, by simpa using apart⟩)
  · rw [doErrHead_inside above below, reg_setReg, Nat.mod_eq_of_lt small]
  · rw [pgErr_latch, if_pos held]
  · rw [pgErr_latch, if_neg (by omega), Nat.mod_eq_of_lt (by omega)]

end Sys2Proof.Machine
end

