-- ==== Sys2Proof/Proofs/FenceSignals.lean ====
section
/-! O50: signals and poisons of fences. The mirror write that follows a change of a fence, and the log entry of a signal
that goes back, leave the fences themselves alone; what is left is the case of R504 the signal is in. -/

namespace Sys2Proof.Machine

/-! ### What leaves the fences alone -/

theorem hostWrite_fences (s : State) (t a : Nat) (d : List Byte) (w : HostPend) :
    (hostWrite s t a d w).obj.fences = s.obj.fences := by
  unfold hostWrite
  dsimp only
  split
  · unfold toHostPort
    split <;> rfl
  · rfl

theorem pmcEvent_fences (s : State) (page code k : Nat) (ctx : Option Nat) :
    (pmcEvent s page code k ctx).obj.fences = s.obj.fences := by
  rw [pmcEvent_obj]

theorem errWrite_fences (s : State) (e : ErrEntry) : (errWrite s e).obj.fences = s.obj.fences := by
  unfold errWrite
  dsimp only
  split
  · exact pmcEvent_fences ..
  · split
    · rfl
    · rw [pmcEvent_fences, setReg_obj]
      split
      · rfl
      · exact hostWrite_fences ..

theorem mirrorFence_fences (s : State) (n : Nat) : (mirrorFence s n).obj.fences = s.obj.fences := by
  unfold mirrorFence
  split
  · rfl
  · split
    · rfl
    · split
      · dsimp only
        split
        · exact hostWrite_fences ..
        · exact errWrite_fences ..
      · rfl

/-- A change of a fence with its mirror write leaves that fence changed. -/
theorem mirrorFence_modFence {s : State} {n : Nat} {f : Fence} (at_n : mget s.obj.fences n = some f) (change : Fence → Fence) :
    mget (mirrorFence (modFence s n change) n).obj.fences n = some (change f) := by
  rw [mirrorFence_fences]
  exact (mget_mmod_same ..).trans (congrArg (Option.map change) at_n)

/-! ### The cases of R504 and R506 -/

section
variable {s : State} {n : Nat} {f : Fence} (at_n : mget s.obj.fences n = some f)
include at_n

theorem fencePoison_eq (code : Nat) : fencePoison s n code =
    if f.live ∧ f.poison = 0 then mirrorFence (modFence s n fun f => { f with poison := code }) n else s := by
  unfold fencePoison
  rw [at_n]

theorem fenceSignal_eq (v : Nat) : fenceSignal s n v =
    if !f.live ∨ f.poison ≠ 0 then s
    else if v ≥ 2 ^ 63 then fencePoison s n Code.fenceRange
    else if v ≤ f.value then
      errWrite s { errBase s Code.fenceRegress 0 (pgId pgSCH) with tenant := f.tenant, ctx := f.ctx }
    else mirrorFence (modFence s n fun f => { f with value := v }) n := by
  unfold fenceSignal
  rw [at_n]

theorem fencePoison_first (live : f.live = true) (clean : f.poison = 0) (code : Nat) :
    mget (fencePoison s n code).obj.fences n = some { f with poison := code } := by
  rw [fencePoison_eq at_n, if_pos ⟨live, clean⟩]
  exact mirrorFence_modFence at_n _

theorem fencePoison_again (poisoned : f.poison ≠ 0) (code : Nat) : fencePoison s n code = s :=
  (fencePoison_eq at_n code).trans (if_neg fun h => poisoned h.2)

theorem fenceSignal_poisoned (poisoned : f.poison ≠ 0) (v : Nat) : fenceSignal s n v = s :=
  (fenceSignal_eq at_n v).trans (if_pos (.inr poisoned))

theorem fenceSignal_outOfRange (live : f.live = true) (clean : f.poison = 0) {v : Nat} (large : 2 ^ 63 ≤ v) :
    fenceSignal s n v = fencePoison s n Code.fenceRange := by
  rw [fenceSignal_eq at_n, if_neg (by simp [live, clean]), if_pos large]

theorem fenceSignal_regress (live : f.live = true) (clean : f.poison = 0) {v : Nat} (back : v ≤ f.value) (small : v < 2 ^ 63) :
    fenceSignal s n v = errWrite s { errBase s Code.fenceRegress 0 (pgId pgSCH) with tenant := f.tenant, ctx := f.ctx } := by
  rw [fenceSignal_eq at_n, if_neg (by simp [live, clean]), if_neg (by omega), if_pos back]

theorem fenceSignal_advance (live : f.live = true) (clean : f.poison = 0) {v : Nat} (ahead : f.value < v) (small : v < 2 ^ 63) :
    mget (fenceSignal s n v).obj.fences n = some { f with value := v } := by
  rw [fenceSignal_eq at_n, if_neg (by simp [live, clean]), if_neg (by omega), if_neg (by omega)]
  exact mirrorFence_modFence at_n _

/-! ### The two requests -/

theorem liveFence_of_live (live : f.live = true) (stays : f.freeing = false) : liveFence s n = some f := by
  unfold liveFence
  rw [at_n]
  exact if_pos (by simp [live, stays])

theorem doSignalFence_served {r : Request} (live : f.live = true) (stays : f.freeing = false) (plain : r.rsv = false)
    (usable : fenceUsable f r.tenant = true) (v : Nat) :
    doSignalFence s r n v = accept (settled (fenceSignal s n v)) r f.value := by
  unfold doSignalFence
  simp [plain, liveFence_of_live at_n live stays, usable]

theorem doPoisonFence_served {r : Request} {code : Nat} (live : f.live = true) (stays : f.freeing = false)
    (plain : r.rsv = false) (usable : fenceUsable f r.tenant = true) (nonzero : 0 < code) (narrow : code < 65536) :
    doPoisonFence s r n code = accept (settled (fencePoison s n code)) r 0 := by
  unfold doPoisonFence
  rw [if_neg (by simp [plain]; omega), liveFence_of_live at_n live stays]
  simp [usable]

end

/-- Settles O50: each case of R504 and R506 by its lemma, and the two requests on a ready queue pair. -/
theorem fencesFollowTheirSignals : Obligations.FencesFollowTheirSignals := by
  intro s r n v code f at_n live
  refine ⟨fun clean => fenceSignal_advance at_n live clean, fun clean back small => ?_, fun clean large => ?_,
    fun poisoned => ⟨fenceSignal_poisoned at_n poisoned v, fencePoison_again at_n poisoned code⟩,
    fun clean => fencePoison_first at_n live clean code, fun ready plain stays usable => ⟨?_, fun nonzero narrow => ?_⟩⟩
  · have regress := fenceSignal_regress at_n live clean back small
    exact ⟨regress ▸ errWrite_fences .., regress⟩
  · rw [fenceSignal_outOfRange at_n live clean large]
    exact fencePoison_first at_n live clean _
  · rw [← doSignalFence_served at_n live stays plain usable]
    exact if_pos ready
  · rw [← doPoisonFence_served at_n live stays plain usable nonzero narrow]
    exact if_pos ready

end Sys2Proof.Machine
end

