-- ==== Sys2Proof/Proofs/StepLaws.lean ====
section
/-! The laws of the step (O1, O2, O3), the state after reset (O5, O6) and words written out from the tables (O10). -/

namespace Sys2Proof.Machine

/-- Settles O1. -/
theorem stepRunsTheFrontCommand : Obligations.StepRunsTheFrontCommand := fun _ _ _ => rfl

theorem step_of_empty {s : State} (empty : s.pending = []) : step s = .next (tick s) := by
  unfold step
  rw [empty]

theorem step_of_cons {s : State} {i : Instr} {rest : List Instr} (front : s.pending = i :: rest) :
    step s = exec i { s with pending := rest } := by
  unfold step
  rw [front]

theorem tick_unpowered {s : State} (off : s.mon.pwrok = false) : tick s = { s with now := s.now + 1 } := by
  simp [tick, off]

/-- Settles O2. -/
theorem emptyQueuePassesOneCycle : Obligations.EmptyQueuePassesOneCycle :=
  fun _ empty => ⟨step_of_empty empty, rfl, tick_unpowered⟩

/-! ### The state after reset -/

/-- No register is written at reset: ENABLE of a page stands as R465 resets it. -/
theorem pgEnabled_reset (page : Nat) :
    pgEnabled State.reset page = !decide (0x21000 ≤ page ∧ page ≤ 0x30000) := by
  change (bitsOf (pgCtlReset page) 0 0 == 1) = _
  unfold pgCtlReset
  split <;> simp [*, bitsOf]

/-- Settles O5: the registers' values by evaluation, ENABLE by the range the page lies in. -/
theorem resetHoldsTheSpecsValues : Obligations.ResetHoldsTheSpecsValues := by
  refine ⟨fun _ => rfl, rfl, rfl, fun p hp => ?_, fun c hc => ?_, rfl, rfl, rfl, rfl, rfl, rfl⟩
  · simp [pgEnabled_reset, pgHNS]
    omega
  · simp [pgEnabled_reset, pgCORE]
    omega

/-- Settles O6. -/
theorem resetMemoryIsCanonical : Obligations.ResetMemoryIsCanonical := rfl

/-! ### Words -/

/-- Settles O10: the decoder evaluates each word. -/
theorem writtenOutWordsDecode : Obligations.WrittenOutWordsDecode := ⟨rfl, rfl, rfl, rfl, rfl⟩

/-! ### Every step answers a next state -/

/-- The outcome is a next state: no fault and no refusal. -/
def Answers (o : Host.Outcome State Fault Refusal) : Prop := ∃ t, o = .next t

theorem answers_ite (c : Prop) [Decidable c] (t u : State) : Answers (if c then .next t else .next u) := by
  split <;> exact ⟨_, rfl⟩

theorem answers_issue (gr : GroupRef) (i : Instr) (body : State → Group → LaneRes) (s : State) : Answers (issue gr i body s) := by
  fun_cases issue <;> exact ⟨_, rfl⟩

theorem answers_exec (i : Instr) (s : State) : Answers (exec i s) := by
  cases i with
  | illegalInstruction | addI | subI | mulI | madI | minI | maxI | and | or | xor | andn | shl | shr | sar | ones
  | bitrev | lzc | addF | subF | mulF | madF | minF | maxF | minnumF | maxnumF | recip | rsqrt | exp2 | log2 | sin
  | cos | cmpEq | cmpNe | cmpLt | cmpLe | cmpGt | cmpGe | pick | pcombAnd | pcombOr | pcombXor | pcombAndn
  | pcombNot | xlaneAt | xlaneUp | xlaneDn | xlaneFlip | pmask | gredAdd | gredMin | gredMax | addS | subS | mulS
  | shlS | shrS | sarS | andS | orS | xorS | movVs | movSv | cvt | cvtBlkEnc | cvtBlkDec | setmode | getmode | ld
  | st | prefetch | ldsc | atomAddI32 | atomAddI64 | atomAddF32 | atomAddF16x2 | atomMinI32 | atomMaxI32
  | atomMinF32 | atomMaxF32 | atomSwap32 | atomSwap64 | atomCas64 | fence | bra | braAny | braAll | pushm | elsem
  | popm | andm | exit | serBegin | serEnd | call | ret | barArrive | barWait | barSync | savept | mxLdw
  | mxLdwReorient | mxSwap | mxStream | mxDrain | mxWaitQ | mxWaitG => exact answers_issue ..
  | branchPenaltyEnd | loadDataReturn | atomReturn | fenceRelease | groupSlotFree | scratchAllocate | groupLaunch
  | scratchFree | scratchAccessPromote | egressAccept | l1Fill | l2Lookup | cacheDrainEnd | cacheInvalidateDone
  | moverDispatch | moverTileAccepted | frameCopyDone | commitAckTimeout | commitRecordExpire | heldPairExpire
  | gangMemberReady | gangWaitExpire | gangMemoryExpire | descriptorTake | pretranslateDone | dispatch
  | walkEntryReturn | walkTimeout | faultRecordPost | faultSvcTimeout | invalidationEntry | xltIringDone | l2Atomic
  | hbmTemperatureRead | channelResetDone | patrolScrub | topoLoadDone | peerVerified | timeRequest | write
  | writeMasked | reduce | atomic | read | reservedBlockType | announcement | rejoin | rejoinAck | ackTimer
  | heartbeatTimer | peerSilenceTimeout | pathSilenceTimeout | requestDeadline | pairIdleTimeout | rerouteDrainEnd
  | primaryReturn | peerRejoinTimeout | portLinkDown | portTrained | timeRequestTimer | sourceTimeout
  | holdoverLimit | ptpSync | gmWaitExpire | gmLost | calendarSwitch | accountingSnapshot | notBeforeRelease
  | preempt | sliceExpire | markedFullFallback | markTimeout | contextRestore | schSavepoolWrite | energyCalibration
  | bridleEvaluation | fastLimiter | thermalCritical | memThermalCeilingStep | governorPreramp | prerampHoldEnd
  | idleLowering | cmReq | cmDreq | connectionGraceExpire | registerWrite | haltReached | createTenant
  | destroyTenant | createContext | teardownContext | teardownFinish | createQueue | destroyQueue | queueFree
  | createFence | destroyFence | fenceSlotFree | signalFence | poisonFence | shareFence | createObject | mapObject
  | unmap | unmapTakesEffect | mapRemote | mapRemoteTimeout | shareObject | refcountRead | refcountFetchAdd
  | refcountCas | refcountWrite | objectRdmaRead | objectRdmaWrite | objectRdmaAtomic | reclaimDone | hostRdmaAck
  | coldBoot | railSequenceTimeout | bootRomStart | bootWindowRing | firmwareStart | attestationSigned
  | fwuFetchDone | fwuVerifyDone | fwuDesc | firmwareHandoff | handoffResume | handoffWatchdog | handoffOk
  | handoffRejected | probationTimeout | flashWriteDone | jackCheck | dumpReadTimeout | dumpTimeout | coreReset
  | dumpCopy | portReset | controlClusterRestart | warmRestart | powerOff | inputMarginal | brownoutShutdown
  | overvoltageShutdown | overcurrentShutdown | vauxLoss | thermalTrip | status | vin | iin | pin | pinPeak | ein
  | tCore | tHbm | tVr | inlet | outlet | bootstat | part | smbWarmReset | clearAlert | alertResponse | awlTrigger
  | jtagInstruction | blockCrcFail | controlClusterRestartDone | coreResetDone | hostPortLinkDown | hostPortRetrain
  | operandReady | dutyPeriod | pwrgdHoldoffExpire | requestBadOp => exact answers_ite ..
  | cacheDisable | cacheInvalidate | cacheEnable | l2cKeepClear | commitAck | xltFringHeadWrite | xltFresp
  | xltIringDb | xltFmtWrite | topoLoad | ack | nak | heartbeat | timeResponse | readResp | atomicResp | refused
  | reset | rejoinEnd | reroute | claim | commit | discard | mapRequest | mapAnswer | mapRelease | gangArrived
  | gangStart | gangReady | gangGo | calendarInstall | seqModelEnable | pgApply | pgHalt | pgResetReq | pgEnable
  | coreMstkHwmWrite | coreFaultInfoClear | hptMgmtipWrite | hptIpv4Write | attestationGo | fwuStage | fwuCommit
  | fwuCancel | fwuFlash | errHeadWrite | errWarmreq | pmcClear | discardAck | gangEnd | trstN => exact ⟨_, rfl⟩
  | ldwStart core =>
    change Answers (execLdwStart core s)
    fun_cases execLdwStart <;> exact ⟨_, rfl⟩
  | ldwComplete core u =>
    change Answers (execLdwComplete core u s)
    fun_cases execLdwComplete <;> exact ⟨_, rfl⟩
  | swapMarkerEnter core =>
    change Answers (execSwapMarkerEnter core s)
    fun_cases execSwapMarkerEnter <;> exact ⟨_, rfl⟩
  | swapComplete core =>
    change Answers (execSwapComplete core s)
    fun_cases execSwapComplete <;> exact ⟨_, rfl⟩
  | streamStart core u =>
    change Answers (execStreamStart core u s)
    fun_cases execStreamStart <;> exact ⟨_, rfl⟩
  | accRowWrite core u =>
    change Answers (execAccRowWrite core u s)
    fun_cases execAccRowWrite <;> exact ⟨_, rfl⟩
  | streamComplete core =>
    change Answers (execStreamComplete core s)
    fun_cases execStreamComplete <;> exact ⟨_, rfl⟩
  | arrayIdleTimeout core =>
    change Answers (execArrayIdleTimeout core s)
    fun_cases execArrayIdleTimeout <;> exact ⟨_, rfl⟩
  | rampEnd core =>
    change Answers (execRampEnd core s)
    fun_cases execRampEnd <;> exact ⟨_, rfl⟩
  | waitQRelease core =>
    change Answers (execWaitQRelease core s)
    fun_cases execWaitQRelease <;> exact ⟨_, rfl⟩
  | drainDispatch core u =>
    change Answers (execDrainDispatch core u s)
    fun_cases execDrainDispatch <;> exact ⟨_, rfl⟩
  | drainRow core u =>
    change Answers (execDrainRow core u s)
    fun_cases execDrainRow <;> exact ⟨_, rfl⟩
  | drainComplete core =>
    change Answers (execDrainComplete core s)
    fun_cases execDrainComplete <;> exact ⟨_, rfl⟩
  | mergeEntryTimeout core entry u =>
    change Answers (execMergeEntryTimeout core entry u s)
    fun_cases execMergeEntryTimeout <;> exact ⟨_, rfl⟩
  | l2MbufTimeout slice line u =>
    change Answers (execL2MbufTimeout slice line u s)
    fun_cases execL2MbufTimeout <;> exact ⟨_, rfl⟩
  | pairAcquire cmd h =>
    change Answers (execPairAcquire cmd h s)
    fun_cases execPairAcquire <;> exact ⟨_, rfl⟩
  | commitPoint cmd =>
    change Answers (execCommitPoint cmd s)
    fun_cases execCommitPoint <;> exact ⟨_, rfl⟩
  | descriptorReadReturn queue data =>
    change Answers (execDescriptorReadReturn queue data s)
    fun_cases execDescriptorReadReturn <;> exact ⟨_, rfl⟩
  | doorbell tenant addr len tail cqHead =>
    change Answers (execDoorbell tenant addr len tail cqHead s)
    fun_cases execDoorbell <;> exact ⟨_, rfl⟩
  | channelAccess stack channel o =>
    change Answers (execChannelAccess stack channel o s)
    fun_cases execChannelAccess <;> exact ⟨_, rfl⟩
  | reducerRequest stack channel o =>
    change Answers (execReducerRequest stack channel o s)
    fun_cases execReducerRequest <;> exact ⟨_, rfl⟩
  | reductionResult req =>
    change Answers (execReductionResult req s)
    fun_cases execReductionResult <;> exact ⟨_, rfl⟩
  | spareSwitchStart stack channel lane =>
    change Answers (execSpareSwitchStart stack channel lane s)
    fun_cases execSpareSwitchStart <;> exact ⟨_, rfl⟩
  | spareSwitchDone stack channel =>
    change Answers (execSpareSwitchDone stack channel s)
    fun_cases execSpareSwitchDone <;> exact ⟨_, rfl⟩
  | resendTimer node ctl =>
    change Answers (execResendTimer node ctl s)
    fun_cases execResendTimer <;> exact ⟨_, rfl⟩
  | timeExchangeTimeout  =>
    change Answers (execTimeExchangeTimeout s)
    fun_cases execTimeExchangeTimeout <;> exact ⟨_, rfl⟩
  | ptpAnnounce a =>
    change Answers (execPtpAnnounce a s)
    fun_cases execPtpAnnounce <;> exact ⟨_, rfl⟩
  | ftmNowRead tenant =>
    change Answers (execFtmNowRead tenant s)
    fun_cases execFtmNowRead <;> exact ⟨_, rfl⟩
  | calendarLoadDone image =>
    change Answers (execCalendarLoadDone image s)
    fun_cases execCalendarLoadDone <;> exact ⟨_, rfl⟩
  | slotStart port =>
    change Answers (execSlotStart port s)
    fun_cases execSlotStart <;> exact ⟨_, rfl⟩
  | seqStepRelease templates =>
    change Answers (execSeqStepRelease templates s)
    fun_cases execSeqStepRelease <;> exact ⟨_, rfl⟩
  | seqStepEnd model results =>
    change Answers (execSeqStepEnd model results s)
    fun_cases execSeqStepEnd <;> exact ⟨_, rfl⟩
  | seqAdmit queue =>
    change Answers (execSeqAdmit queue s)
    fun_cases execSeqAdmit <;> exact ⟨_, rfl⟩
  | pause queue =>
    change Answers (execPause queue s)
    fun_cases execPause <;> exact ⟨_, rfl⟩
  | resume queue =>
    change Answers (execResume queue s)
    fun_cases execResume <;> exact ⟨_, rfl⟩
  | release queue =>
    change Answers (execRelease queue s)
    fun_cases execRelease <;> exact ⟨_, rfl⟩
  | contextSaveDone cmd =>
    change Answers (execContextSaveDone cmd s)
    fun_cases execContextSaveDone <;> exact ⟨_, rfl⟩
  | emuAccessTimeout access =>
    change Answers (execEmuAccessTimeout access s)
    fun_cases execEmuAccessTimeout <;> exact ⟨_, rfl⟩
  | recoveryStart  =>
    change Answers (execRecoveryStart s)
    fun_cases execRecoveryStart <;> exact ⟨_, rfl⟩
  | recoveryTimeout  =>
    change Answers (execRecoveryTimeout s)
    fun_cases execRecoveryTimeout <;> exact ⟨_, rfl⟩
  | suspectReplay  =>
    change Answers (execSuspectReplay s)
    fun_cases execSuspectReplay <;> exact ⟨_, rfl⟩
  | warmReset  =>
    change Answers (execWarmReset s)
    fun_cases execWarmReset <;> exact ⟨_, rfl⟩
  | frameSend port =>
    change Answers (execFrameSend port s)
    fun_cases execFrameSend <;> exact ⟨_, rfl⟩

/-- Settles O3: `exec` answers a next state for every command, and a tick is one. -/
theorem everyStepAnswersANextState : Obligations.EveryStepAnswersANextState := by
  intro s
  cases queue : s.pending with
  | nil => exact ⟨_, step_of_empty queue⟩
  | cons c rest => exact step_of_cons queue ▸ answers_exec c _

end Sys2Proof.Machine
end

