-- ==== Sys2Proof/Proofs/PeersAndPorts.lean ====
section
/-! O44: peers, paths and ports. -/

namespace Sys2Proof.Machine

/-! ### Guards -/

/-- `if_pos` with its guard's proof last, as a guarded clause takes it. -/
theorem if_on {p : Prop} [Decidable p] {α : Type} {x y : α} (on : p) : (if p then x else y) = x := if_pos on

/-- A guard that is more than its Boolean does nothing where that is false. -/
theorem if_off_of {p : Prop} [Decidable p] {b : Bool} {α : Type} {x y : α} (on : p → b = true) (off : b = false) :
    (if p then x else y) = y :=
  if_neg fun h => by simp [on h] at off

/-! ### Ports -/

@[simp] theorem portOf_modPort (s : State) (p : Nat) (f : Port → Port) : portOf (modPort s p f) p = f (portOf s p) := by
  simp [portOf, modPort, mgetD]

theorem sendLink_queues (s : State) (n : Nat) (m : Msg) :
    (portOf (sendLink s n 0 m) (pathPort s n)).link_ =
      (portOf s (pathPort s n)).link_ ++ [{ ctlBlk n 0 m with psn := 0 }] := by
  unfold sendLink
  rw [portOf_modPort]

theorem doTrained_port (s : State) (port : Nat) (lanes : BitVec 8) :
    portOf (doTrained s port lanes) port = { portOf s port with link := .run, lanes, runSince := s.now } :=
  portOf_modPort s port fun p => { p with link := .run, lanes, runSince := s.now }

theorem exec_frameSend_of_run {s : State} {port : Nat} (run : (portOf s port).link = .run) :
    exec (.frameSend port) s = match planFrame s port with
      | some f => .next (sendFrame s port f)
      | none => .next (countStall s port) :=
  if_pos run

theorem exec_resendTimer_of_not_due {s : State} {node : Nat} {ctl : Bool} (resend : resendDue s node ctl = false) :
    exec (.resendTimer node ctl) s = if announceDue s node then .next (sendAnnounce s node) else .next s :=
  if_off resend

/-- With neither a resend nor an announcement due the timer does nothing. -/
theorem resendTimer_idle {s : State} {node : Nat} {ctl : Bool} (off : (resendDue s node ctl || announceDue s node) = false) :
    exec (.resendTimer node ctl) s = .next s := by
  obtain ⟨resend, announce⟩ := Bool.or_eq_false_iff.1 off
  exact (exec_resendTimer_of_not_due resend).trans (if_off announce)

/-- Settles O44: each timer and link event by its guard. -/
theorem peersAndPortsChangeState : Obligations.PeersAndPortsChangeState := by
  intro s node port req cmd ctl ok lanes image
  refine ⟨fun unverified heard => if_pos ⟨unverified, Option.isSome_iff_ne_none.2 heard⟩, if_on, if_on,
    fun m => ⟨sendLink_queues s node m, rfl⟩, if_on, fun resend announce => ?_, if_on, fun late primary => ?_,
    if_on, if_on, if_on, if_on, if_on, if_on, if_on, fun training => ⟨_, if_pos training, doTrained_port .., rfl⟩,
    if_on, if_on, fun other => if_neg other, ?_, rfl, fun run => ⟨fun f planned => ?_, fun idle => ?_⟩, fun other => if_neg other⟩
  · exact (exec_resendTimer_of_not_due resend).trans (if_pos announce)
  · exact if_pos (by simp [late, primary])
  · exact idle_cons (if_off_of fun ⟨unverified, heard⟩ => by simp [unverified, heard]) <|
      idle_cons if_off <| idle_cons if_off <| idle_cons resendTimer_idle <|
      idle_cons if_off <| idle_cons if_off <| idle_cons if_off <| idle_cons if_off <| idle_cons if_off <|
      idle_cons if_off <| idle_cons if_off <| idle_cons if_off <|
      idle_cons (if_off_of fun run => by simp [run]) <| idle_cons if_off <| idle_cons if_off <| idle_nil s
  · rw [exec_frameSend_of_run run, planned]
  · rw [exec_frameSend_of_run run, idle]

end Sys2Proof.Machine
end

