-- ==== Sys2Proof/Proofs/RegisterRows.lean ====
section
/-! Register writes of rows of their own: of the management pages (O46) and of the emulated pages (O47). Each row is a call of
`mgmtWrite`, behind firmware for an emulated page; the rules are those of `mgmtWrite`, `park` and `dropAccess`. -/

namespace Sys2Proof.Machine

/-- What holds of each row of a table holds of a member. -/
theorem of_row {α : Type} {P : α → Prop} {rows : List α} {a : α} (mem : a ∈ rows) (all : rows.Forall P) : P a :=
  List.forall_iff_forall_mem.1 all a mem

/-! ### `mgmtWrite`, case by case -/

section
variable {s : State} {t : Nat} {call : FwCall} {f : State → State}

theorem mgmtWrite_down (down : qpUp s t = false) : mgmtWrite s t call f = s := if_pos (by simp [down])

theorem mgmtWrite_held (up : qpUp s t = true) (held : qpHeld s t = true) : mgmtWrite s t call f = park s t call := by
  simp [mgmtWrite, up, held]

theorem mgmtWrite_window (up : qpUp s t = true) (free : qpHeld s t = false) (window : windowOpen s = true) :
    mgmtWrite s t call f = hptLog (emit s (.ack t)) t Code.cfgEmuUnavailable := by
  simp [mgmtWrite, up, free, window]

theorem mgmtWrite_stranger (up : qpUp s t = true) (free : qpHeld s t = false) (closed : windowOpen s = false) (other : t ≠ 0) :
    mgmtWrite s t call f = nakAccess s t := by
  simp [mgmtWrite, up, free, closed, other]

theorem mgmtWrite_performed (up : qpUp s 0 = true) (free : qpHeld s 0 = false) (closed : windowOpen s = false) :
    mgmtWrite s 0 call f = pmcEvent (f (emit s (.ack 0))) pgHPT 0x0100 1 none := by
  simp [mgmtWrite, up, free, closed]

end

/-! ### Rows of the management pages -/

/-- A row is the management write of its call with its effect. -/
def IsMgmtWrite (s : State) (t : Nat) (row : Instr × FwCall × (State → State)) : Prop :=
  exec row.1 s = .next (mgmtWrite s t row.2.1 row.2.2)

/-- Settles O46: every row is a management write, which has these five cases. -/
theorem managementWritesTakeEffect : Obligations.ManagementWritesTakeEffect := by
  intro s t core slice u v d tpl i call f mem
  have row : IsMgmtWrite s t (i, call, f) :=
    of_row mem ⟨rfl, rfl, rfl, rfl, rfl, rfl, rfl, rfl, rfl, rfl, rfl, rfl, rfl, rfl, rfl, rfl, rfl⟩
  have write : exec i s = .next (mgmtWrite s t call f) := row
  rw [write]
  refine ⟨fun down => ?_, fun up held => ?_, fun up free window => ?_, fun up free closed other => ?_,
    fun up free closed zero => ?_⟩
  · rw [mgmtWrite_down down]
  · rw [mgmtWrite_held up held]
  · rw [mgmtWrite_window up free window]
  · rw [mgmtWrite_stranger up free closed other]
  · subst zero
    rw [mgmtWrite_performed up free closed]

/-! ### Rows of the emulated pages -/

/-- A row is a management write while firmware serves its page or the boot window is open, and waits otherwise. -/
def IsEmuWrite (s : State) (row : Instr × FwCall × Bool × (State → State)) : Prop :=
  exec row.1 s =
    .next (if row.2.2.1 || windowOpen s then mgmtWrite s 0 row.2.1 row.2.2.2 else park s 0 row.2.1)

theorem park_up {s : State} {t : Nat} (up : qpUp s t = true) (call : FwCall) :
    (park s t call).obj.parked = s.obj.parked ++ [⟨s.obj.nextPark, s.now, t, call⟩] ∧ (park s t call).mem = s.mem ∧
      (park s t call).cmds = s.cmds := by
  unfold park
  rw [if_pos up]
  exact ⟨rfl, rfl, rfl⟩

/-- A discarded access is no longer among those that wait. -/
theorem dropAccess_parked (s : State) (p : Parked) : ∀ q ∈ (dropAccess s p).obj.parked, q.id ≠ p.id := by
  intro q mem
  unfold dropAccess at mem
  rw [hptLog_obj] at mem
  simpa using (List.mem_filter.1 mem).2

theorem dropAccess_acks (s : State) (p : Parked) : (dropAccess s p).out.head? = some (.ack p.tenant) := by
  unfold dropAccess
  rw [hptLog_out]
  rfl

theorem exec_emuAccessTimeout (s : State) (access : Nat) : exec (.emuAccessTimeout access) s =
    match overdueAccess s access with
    | some p => .next (dropAccess s p)
    | none => .next s :=
  rfl

/-- Settles O47: every row is an emulated write; one that waits is parked, one that waited for 50 ms is discarded. -/
theorem emulatedWritesWaitForFirmware : Obligations.EmulatedWritesWaitForFirmware := by
  intro s v desc access i call serves f mem up closed
  have row : IsEmuWrite s (i, call, serves, f) :=
    of_row mem ⟨rfl, rfl, rfl, rfl, rfl, (apply_ite ..).symm, (apply_ite ..).symm⟩
  have write : exec i s = .next (if serves then mgmtWrite s 0 call f else park s 0 call) := by
    simpa [IsEmuWrite, closed] using row
  refine ⟨fun serving free => ?_, fun waits => ⟨park s 0 call, ?_, ?_⟩, fun p late => ⟨dropAccess s p, ?_,
    dropAccess_parked s p, dropAccess_acks s p⟩, fun early => ?_⟩
  · rw [write, if_pos serving, mgmtWrite_performed up free closed]
  · rw [write]
    rcases waits with away | held
    · rw [if_off away]
    · rw [mgmtWrite_held up held, ite_self]
  · obtain ⟨parked, mem, _⟩ := park_up up call
    exact ⟨_, parked, rfl, rfl, rfl, rfl, mem⟩
  · rw [exec_emuAccessTimeout, late]
  · rw [exec_emuAccessTimeout, early]

end Sys2Proof.Machine
end

