-- ==== Sys2Proof/Proofs/Requests.lean ====
section
/-! O49: requests are served or wait, and what they leave behind is released. -/

namespace Sys2Proof.Machine

/-! ### Requests -/

/-- A row does its operation while its request is ready and waits otherwise. -/
def IsRequest (s : State) (r : Request) (row : Instr × FwCall × State) : Prop :=
  exec row.1 s = if reqReady s r then .next row.2.2 else .next (park s r.tenant row.2.1)

theorem park_down {s : State} {t : Nat} (down : qpUp s t = false) (call : FwCall) : park s t call = s :=
  if_off down

theorem reqReady_down {s : State} {r : Request} (down : qpUp s r.tenant = false) : reqReady s r = false := by
  simp [reqReady, down]

theorem request_cases {s : State} {r : Request} {i : Instr} {call : FwCall} {t : State} (row : IsRequest s r (i, call, t)) :
    (reqReady s r = true → exec i s = .next t) ∧
    (reqReady s r = false → exec i s = .next (park s r.tenant call)) ∧
    (qpUp s r.tenant = false → exec i s = .next s) ∧
    (reqReady s r = false → qpUp s r.tenant = true → Gives i s fun u =>
      u.obj.parked = s.obj.parked ++ [⟨s.obj.nextPark, s.now, r.tenant, call⟩] ∧ u.mem = s.mem ∧ u.cmds = s.cmds) := by
  have waits (busy : reqReady s r = false) : exec i s = .next (park s r.tenant call) := row.trans (if_off busy)
  refine ⟨fun ready => row.trans (if_pos ready), waits, fun down => ?_, fun busy up => ⟨_, waits busy, park_up up call⟩⟩
  rw [waits (reqReady_down down), park_down down]

/-! ### What is left behind -/

theorem doQueueFree_gone (s : State) (queue : Nat) : mget (doQueueFree s queue).obj.queues queue = none := by
  unfold doQueueFree
  split
  · assumption
  · exact mget_mdel_same ..

theorem freeFence_next {s : State} {n : Nat} {f : Fence} (at_n : mget s.obj.fences n = some f) :
    mget (freeFence s n).obj.fences n =
      some { f with live := false, freeing := false, gen := (f.gen + 1) % 65536, shares := [] } := by
  refine (mget_mmod_same ..).trans ?_
  rw [at_n, Option.map_some]

/-- Settles O49: each row is a request; what is left behind goes by its guard. -/
theorem requestsAreServedAndThingsReleased : Obligations.RequestsAreServedAndThingsReleased := by
  refine ⟨fun s r a b c e k l m n x y i call t mem => request_cases (of_row mem
    ⟨rfl, rfl, rfl, rfl, rfl, rfl, rfl, rfl, rfl, rfl, rfl, rfl, rfl, rfl, rfl, rfl, rfl⟩), fun s ctx queue fence va handle =>
    ⟨if_on, if_on, doQueueFree_gone s queue, fun f => freeFence_next, if_on, if_on, if_on, ?_⟩⟩
  exact idle_cons if_off <| idle_cons if_off <| idle_cons if_off <| idle_cons if_off <| idle_cons if_off <| idle_nil s

end Sys2Proof.Machine
end

