-- ==== Sys2Proof/Proofs/BridleAndUpdates.lean ====
section
/-! Bridle's actions (O53), and attestation and firmware updates (O55): each by its guard. -/

namespace Sys2Proof.Machine

/-- Settles O53: each action by its guard. -/
theorem bridleActsOnItsConditions : Obligations.BridleActsOnItsConditions := by
  intro s sense core temp instant domain domains
  refine ⟨fun ready due good => if_pos ?_, fun ready good current => if_pos ?_, fun up hot fresh => if_pos ?_, if_on, if_on,
    if_on, if_on, if_on, ?_⟩
  · simp [ready, due, good]
  · rw [ready, good, current]
    rfl
  · simp [up, hot, fresh]
  · exact idle_cons if_off <| idle_cons if_off <| idle_cons if_off <| idle_cons if_off <| idle_cons if_off <|
      idle_cons if_off <| idle_cons if_off <| idle_cons if_off <| idle_nil s

/-! ### How an update is rejected -/

/-- A rejected update keeps its reason; what it logs and counts leaves the boot state alone. -/
theorem fwuReject_boot (s : State) (reason : Nat) : (fwuReject s reason).boot =
    { s.boot with fwu := { s.boot.fwu with st := .rejected, reason, image := none, job := none, handing := false } } := by
  simp [fwuReject, modFwu, modBoot]

/-- The time at which a revert is over changes nothing else of the boot state. -/
theorem revertTime_boot (s : State) :
    ∃ last, (revertTime s).boot = { s.boot with fwu := { s.boot.fwu with last := last } } :=
  ⟨_, rfl⟩

theorem revert_rejects (s : State) (reason : Nat) :
    (revert s reason).boot.fwu.st = .rejected ∧ (revert s reason).boot.fwu.reason = reason ∧
      (revert s reason).boot.serving = true := by
  unfold revert
  rw [fwuReject_boot]
  simp [modFwu, modBoot]

/-- Settles O55: each state's step by its guard, and the three ways into REJECTED. -/
theorem updatesRunInTheirStates : Obligations.UpdatesRunInTheirStates := by
  intro s ok image
  refine ⟨fun st identity => if_pos (by simp [st, identity]), fun st serves => if_pos (by simp [st, serves]),
    fun st serves => if_pos (by simp [st, serves]), fun st serves => if_pos (by simp [st, serves]), if_on,
    fun handing works early => if_pos (by simp [handing, works, early]),
    fun handing works late => if_pos (by simp [handing, works, late]), fun trial early => if_pos (by simp [trial, early]),
    if_on, fun trial done => if_pos (by simp [trial, done]), ?_, fun n => ?_, ?_, ?_⟩
  · exact idle_cons if_off <| idle_cons if_off <| idle_cons if_off <| idle_cons if_off <| idle_cons if_off <|
      idle_cons if_off <| idle_cons if_off <| idle_cons if_off <| idle_cons if_off <| idle_cons if_off <| idle_nil s
  · obtain ⟨last, boot⟩ := revertTime_boot (revert s n)
    rw [boot]
    exact revert_rejects s n
  · have failed : doFlashed s false = fwuReject _ 8 := rfl
    rw [failed, fwuReject_boot]
    exact ⟨rfl, rfl⟩
  · have unread : doFetched s none = fwuReject s 4 := rfl
    rw [unread, fwuReject_boot]
    exact ⟨rfl, rfl⟩

end Sys2Proof.Machine
end

