-- ==== Sys2Proof/Proofs/Recoveries.lean ====
section
/-! O56: recoveries, dumps, resets and replays. -/

namespace Sys2Proof.Machine

section
variable {s : State}

theorem exec_recoveryStart (s : State) : exec .recoveryStart s = match nextRecovery s with
    | some r => .next (beginRecovery s r)
    | none => .next s :=
  rfl

theorem exec_recoveryTimeout (s : State) : exec .recoveryTimeout s = match recoveryLate s with
    | some r => .next (escalate s r.domain r.code)
    | none => .next s :=
  rfl

theorem exec_warmReset_of_none (none : s.err.warmReq = none) : exec .warmReset s = .next s := by
  refine Eq.trans (b := execWarmReset s) rfl ?_
  unfold execWarmReset
  rw [none]

theorem exec_warmReset_of_some {trigger code : Nat} (due : s.err.warmReq = some (trigger, code)) : exec .warmReset s =
    if alive s then .next (if storm s then haltStorm s else doWarmReset s trigger code) else .next s := by
  refine Eq.trans (b := execWarmReset s) rfl ?_
  unfold execWarmReset
  rw [due]

/-- A module that does not work resets nothing, whatever is due. -/
theorem exec_warmReset_of_dead (dead : alive s = false) : exec .warmReset s = .next s := by
  cases due : s.err.warmReq with
  | none => exact exec_warmReset_of_none due
  | some cause => exact (exec_warmReset_of_some due).trans (if_off dead)

theorem exec_suspectReplay_of_none (none : oldestSuspect s = none) : exec .suspectReplay s = .next s := by
  refine Eq.trans (b := execSuspectReplay s) rfl ?_
  unfold execSuspectReplay
  rw [none]

theorem exec_suspectReplay_of_some {i : Nat} (oldest : oldestSuspect s = some i) : exec .suspectReplay s =
    if replayDue s then .next (pmcEvent (modErr s fun e => { e with replaying := some i }) pgJCK 0x0102 1 none)
    else .next s := by
  refine Eq.trans (b := execSuspectReplay s) rfl ?_
  unfold execSuspectReplay
  rw [oldest]

theorem exec_suspectReplay_of_not_due (off : replayDue s = false) : exec .suspectReplay s = .next s := by
  cases oldest : oldestSuspect s with
  | none => exact exec_suspectReplay_of_none oldest
  | some i => exact (exec_suspectReplay_of_some oldest).trans (if_off off)

/-- The replay marks the suspect and counts an event; memory stays. -/
theorem suspectReplay_marks {i : Nat} (oldest : oldestSuspect s = some i) (due : replayDue s = true) :
    Gives .suspectReplay s fun t => t.err = { s.err with replaying := some i } ∧ t.mem = s.mem :=
  ⟨_, (exec_suspectReplay_of_some oldest).trans (if_pos due), pmcEvent_err .., pmcEvent_mem ..⟩

end

/-- Settles O56: each step by its guard or by what its search finds. -/
theorem recoveriesTakeTheirSteps : Obligations.RecoveriesTakeTheirSteps := by
  intro s core code unit coresFailed
  refine ⟨fun ready works unasked due => if_pos (by simp only [ready, works, unasked, due, Bool.and_self]), if_on,
    fun down works => if_pos (by simp only [down, works, Bool.and_self]),
    fun ready works up serves unasked => if_pos (by simp only [ready, works, up, serves, unasked, Bool.and_self]),
    fun down works => if_pos (by simp only [down, works, Bool.and_self]), if_on, if_on,
    fun ready idle => if_pos (by simp only [ready, idle, Bool.and_self]), if_on, ?_, fun r next => ?_, fun quiet => ?_,
    fun r late => ?_, fun quiet => ?_, fun trigger c due works => (exec_warmReset_of_some due).trans (if_pos works),
    fun off => off.elim exec_warmReset_of_none exec_warmReset_of_dead, fun i => suspectReplay_marks,
    exec_suspectReplay_of_not_due⟩
  · exact idle_cons if_off <| idle_cons if_off <| idle_cons if_off <| idle_cons if_off <| idle_cons if_off <|
      idle_cons if_off <| idle_cons if_off <| idle_cons if_off <| idle_cons if_off <| idle_nil s
  · rw [exec_recoveryStart, next]
  · rw [exec_recoveryStart, quiet]
  · rw [exec_recoveryTimeout, late]
  · rw [exec_recoveryTimeout, quiet]

end Sys2Proof.Machine
end
